-- ==== Sys2Proof/Word.lean ====
section
/-! DEFINITION. The widths the spec computes with (R8, R30): a byte, a 64-bit word, a 512-bit vector
register's bits. Only plain abbreviations stand here. -/

namespace Sys2Proof

/-- One byte. -/
abbrev Byte := BitVec 8
/-- An x register, an address, a CSR (R30). -/
abbrev Word := BitVec 64
/-- The contents of a vector register (R30). -/
abbrev VBits := BitVec 512

/-- The `n` bits of `w` that start at bit `lo`, as a number. -/
abbrev bitsNat {k : Nat} (w : BitVec k) (lo n : Nat) : Nat := (w.extractLsb' lo n).toNat

end Sys2Proof
end

