-- ==== Sys2Proof/Syntax.lean ====
section
/-! DEFINITION. The instructions: one constructor per row of spec/opcode_table.json. The first 192 are
instruction words (R48 to R59), the 25 commands carry the command word an engine accepted (R288, R290),
and the rest are the machine's events, which carry as operands what comes from outside the device. -/

namespace Sys2Proof

/-- A 5-bit number of an x register (R30). -/
abbrev Reg := BitVec 5
/-- A 5-bit number of a vector register (R30). -/
abbrev VReg := BitVec 5

/-- The privilege modes (R30). -/
inductive Mode where
  | u | s | m
  deriving DecidableEq, Repr

/-- The element types of the field `fmt` (Table 03-4). -/
inductive ETy where
  | f32 | bf16 | f16 | f64 | i32 | i16 | i8 | i64
  deriving DecidableEq, Repr

/-- The format tags a register can hold (Table 02-2); the reserved tags 13 to 15 have no constructor (R31). -/
inductive Tag where
  | raw | f32 | bf16 | f16 | f64 | i32 | i16 | i8 | i64 | e4m3 | e5m2 | bx8p | bx4p
  deriving DecidableEq, Repr

/-- The scopes (R9, Table 08-1). -/
inductive Scope where
  | core | group | device | system
  deriving DecidableEq, Repr

/-- The `hred` operations (Table 09-1). -/
inductive RedOp where
  | sum | min | max | and | or
  deriving DecidableEq, Repr

/-- The two operating-system kernels and the firmware, as the frame record names them (Table 23-1). -/
inductive Kernel where
  | firmware | host | accel
  deriving DecidableEq, Repr

/-- Who issues a frame-record batch: the host kernel through the record port (R376), or the accelerator
kernel through `frec`, in S-mode or in M-mode (R375, R411). -/
inductive Issuer where
  | host | accel | monitor
  deriving DecidableEq, Repr

/-- Who stores to a memory-mapped register (R36, R249, R282, R376, R413). -/
inductive Agent where
  | hart (mode : Mode) (h : Nat)
  | hostCore (c : Nat)
  | management
  | peer
  deriving DecidableEq, Repr

/-- The PMP state of a hart (R400), as an engine command carries it from its acceptance. -/
structure Pmp where
  cfg0 : Word
  cfg2 : Word
  addr : Vector Word 16
  deriving DecidableEq, Repr

/-- What an engine takes from the pushing hart at acceptance (R290, R251, R347, R400). -/
structure Pusher where
  hart    : Nat
  port    : Nat
  root    : Nat
  ctx     : BitVec 16
  ctxid   : BitVec 16
  mode    : Mode
  kfaultq : Word
  rank    : BitVec 32
  party   : Option Nat
  launch  : Option Nat
  pmp     : Pmp
  /-- SCOPE.S names core or group scope (R311) -/
  near    : Bool
  deriving DecidableEq, Repr

/-- An accepted command: its word (R288), its pusher (R290), how far it has come (R355), and the number the model gives it at
acceptance, which tells it from every other. -/
structure Command where
  word : BitVec 256
  by_  : Pusher
  done : Nat
  id   : Nat
  deriving DecidableEq, Repr

/-- How a queue entry reaches a core queue (R237, R240): under an allowance, as a hardware entry, or as a
mesh message whose GCM tag check failed (R407). -/
inductive ArrivalKind where
  | message | hardware | tagFailure (ctx : BitVec 16)
  deriving DecidableEq, Repr

/-- One context's activity counts of a millisecond and management's energy estimate for it (R364, R366). -/
structure Activity where
  ctx      : BitVec 16
  counts   : List Nat
  estimate : Nat
  deriving DecidableEq, Repr

/-- An arriving Ethernet packet or a peer's answer to a network command (R398, R331). -/
inductive Packet where
  | write (job key : Nat) (offset : Nat) (data : List Byte)
  | read (job key : Nat) (offset len : Nat)
  | message (job match_ : Nat) (peer : Nat) (data : List Byte)
  | answer (tag : BitVec 16) (hart : Nat) (ok : Bool) (data : List Byte)
  deriving DecidableEq, Repr

/-- A PCI Express peer's memory request (R389). -/
inductive PeerRequest where
  | read (bus : Nat) (len : Nat)
  | write (bus : Nat) (data : List Byte)
  | atomic (bus : Nat)
  deriving DecidableEq, Repr

/-- An access that was outstanding to a device when it was lost (R384). -/
structure Outstanding where
  hart  : Nat
  store : Bool
  addr  : Word
  deriving DecidableEq, Repr

/-- An access that arrives through this device's domain window (R371). -/
structure DomainAccess where
  byHost : Bool
  pa     : Nat
  store  : Option (List Byte)
  len    : Nat
  deriving DecidableEq, Repr

/-- The instructions, commands and events of the opcode table; those without operands stand last. -/
inductive Instr where
  /-- LUI (R61): Writes the sign-extended upper immediate shifted left by 12 to rd. -/
  | lui (rd : Reg) (imm : BitVec 20)
  /-- AUIPC (R61): Writes pc plus the sign-extended upper immediate shifted left by 12 to rd. -/
  | auipc (rd : Reg) (imm : BitVec 20)
  /-- JAL (R64): Jumps to pc plus the J immediate and writes pc + 4 to rd. -/
  | jal (rd : Reg) (imm : BitVec 20)
  /-- JALR (R64): Jumps to x[rs1] plus the immediate with bit 0 cleared and writes pc + 4 to rd. -/
  | jalr (rd : Reg) (rs1 : Reg) (imm : BitVec 12)
  /-- BEQ (R64): Branches when x[rs1] equals x[rs2]. -/
  | beq (rs1 : Reg) (rs2 : Reg) (imm : BitVec 12)
  /-- BNE (R64): Branches when x[rs1] differs from x[rs2]. -/
  | bne (rs1 : Reg) (rs2 : Reg) (imm : BitVec 12)
  /-- BLT (R64): Branches when x[rs1] is signed less than x[rs2]. -/
  | blt (rs1 : Reg) (rs2 : Reg) (imm : BitVec 12)
  /-- BGE (R64): Branches when x[rs1] is signed greater than or equal to x[rs2]. -/
  | bge (rs1 : Reg) (rs2 : Reg) (imm : BitVec 12)
  /-- BLTU (R64): Branches when x[rs1] is unsigned less than x[rs2]. -/
  | bltu (rs1 : Reg) (rs2 : Reg) (imm : BitVec 12)
  /-- BGEU (R64): Branches when x[rs1] is unsigned greater than or equal to x[rs2]. -/
  | bgeu (rs1 : Reg) (rs2 : Reg) (imm : BitVec 12)
  /-- LB (R66): Loads a sign-extended byte after the checks of Table 04-7. -/
  | lb (rd : Reg) (rs1 : Reg) (imm : BitVec 12)
  /-- LH (R66): Loads a sign-extended halfword. -/
  | lh (rd : Reg) (rs1 : Reg) (imm : BitVec 12)
  /-- LW (R66): Loads a sign-extended word. -/
  | lw (rd : Reg) (rs1 : Reg) (imm : BitVec 12)
  /-- LD (R66): Loads a doubleword. -/
  | ld (rd : Reg) (rs1 : Reg) (imm : BitVec 12)
  /-- LBU (R66): Loads a zero-extended byte. -/
  | lbu (rd : Reg) (rs1 : Reg) (imm : BitVec 12)
  /-- LHU (R66): Loads a zero-extended halfword. -/
  | lhu (rd : Reg) (rs1 : Reg) (imm : BitVec 12)
  /-- LWU (R66): Loads a zero-extended word. -/
  | lwu (rd : Reg) (rs1 : Reg) (imm : BitVec 12)
  /-- SB (R66): Stores the low byte of x[rs2] as a weak store. -/
  | sb (rs1 : Reg) (rs2 : Reg) (imm : BitVec 12)
  /-- SH (R66): Stores the low halfword of x[rs2]. -/
  | sh (rs1 : Reg) (rs2 : Reg) (imm : BitVec 12)
  /-- SW (R66): Stores the low word of x[rs2]. -/
  | sw (rs1 : Reg) (rs2 : Reg) (imm : BitVec 12)
  /-- SD (R66): Stores the doubleword x[rs2]. -/
  | sd (rs1 : Reg) (rs2 : Reg) (imm : BitVec 12)
  /-- ADDI (R61): Adds the sign-extended immediate to x[rs1]. -/
  | addi (rd : Reg) (rs1 : Reg) (imm : BitVec 12)
  /-- SLTI (R61): Sets rd to 1 when x[rs1] is signed less than the immediate. -/
  | slti (rd : Reg) (rs1 : Reg) (imm : BitVec 12)
  /-- SLTIU (R61): Sets rd to 1 when x[rs1] is unsigned less than the sign-extended immediate. -/
  | sltiu (rd : Reg) (rs1 : Reg) (imm : BitVec 12)
  /-- XORI (R61): Bitwise XOR with the immediate. -/
  | xori (rd : Reg) (rs1 : Reg) (imm : BitVec 12)
  /-- ORI (R61): Bitwise OR with the immediate. -/
  | ori (rd : Reg) (rs1 : Reg) (imm : BitVec 12)
  /-- ANDI (R61): Bitwise AND with the immediate. -/
  | andi (rd : Reg) (rs1 : Reg) (imm : BitVec 12)
  /-- SLLI (R61): Shifts x[rs1] left by a 6-bit amount. -/
  | slli (rd : Reg) (rs1 : Reg) (shamt : BitVec 6)
  /-- SRLI (R61): Shifts x[rs1] logically right by a 6-bit amount. -/
  | srli (rd : Reg) (rs1 : Reg) (shamt : BitVec 6)
  /-- SRAI (R61): Shifts x[rs1] arithmetically right by a 6-bit amount. -/
  | srai (rd : Reg) (rs1 : Reg) (shamt : BitVec 6)
  /-- ADD (R60): Adds x[rs1] and x[rs2] modulo 2^64. -/
  | add (rd : Reg) (rs1 : Reg) (rs2 : Reg)
  /-- SUB (R60): Subtracts x[rs2] from x[rs1] modulo 2^64. -/
  | sub (rd : Reg) (rs1 : Reg) (rs2 : Reg)
  /-- SLL (R60): Shifts x[rs1] left by x[rs2][5:0]. -/
  | sll (rd : Reg) (rs1 : Reg) (rs2 : Reg)
  /-- SLT (R60): Sets rd to 1 when x[rs1] is signed less than x[rs2]. -/
  | slt (rd : Reg) (rs1 : Reg) (rs2 : Reg)
  /-- SLTU (R60): Sets rd to 1 when x[rs1] is unsigned less than x[rs2]. -/
  | sltu (rd : Reg) (rs1 : Reg) (rs2 : Reg)
  /-- XOR (R60): Bitwise XOR of two registers. -/
  | xor (rd : Reg) (rs1 : Reg) (rs2 : Reg)
  /-- SRL (R60): Logical right shift by x[rs2][5:0]. -/
  | srl (rd : Reg) (rs1 : Reg) (rs2 : Reg)
  /-- SRA (R60): Arithmetic right shift by x[rs2][5:0]. -/
  | sra (rd : Reg) (rs1 : Reg) (rs2 : Reg)
  /-- OR (R60): Bitwise OR of two registers. -/
  | or (rd : Reg) (rs1 : Reg) (rs2 : Reg)
  /-- AND (R60): Bitwise AND of two registers. -/
  | and (rd : Reg) (rs1 : Reg) (rs2 : Reg)
  /-- ADDIW (R61): Adds the immediate on 32 bits and sign-extends the result. -/
  | addiw (rd : Reg) (rs1 : Reg) (imm : BitVec 12)
  /-- SLLIW (R61): 32-bit left shift by a 5-bit amount, sign-extended. -/
  | slliw (rd : Reg) (rs1 : Reg) (shamt : BitVec 5)
  /-- SRLIW (R61): 32-bit logical right shift by a 5-bit amount, sign-extended. -/
  | srliw (rd : Reg) (rs1 : Reg) (shamt : BitVec 5)
  /-- SRAIW (R61): 32-bit arithmetic right shift by a 5-bit amount, sign-extended. -/
  | sraiw (rd : Reg) (rs1 : Reg) (shamt : BitVec 5)
  /-- ADDW (R60): 32-bit add, sign-extended. -/
  | addw (rd : Reg) (rs1 : Reg) (rs2 : Reg)
  /-- SUBW (R60): 32-bit subtract, sign-extended. -/
  | subw (rd : Reg) (rs1 : Reg) (rs2 : Reg)
  /-- SLLW (R60): 32-bit left shift by x[rs2][4:0], sign-extended. -/
  | sllw (rd : Reg) (rs1 : Reg) (rs2 : Reg)
  /-- SRLW (R60): 32-bit logical right shift, sign-extended. -/
  | srlw (rd : Reg) (rs1 : Reg) (rs2 : Reg)
  /-- SRAW (R60): 32-bit arithmetic right shift, sign-extended. -/
  | sraw (rd : Reg) (rs1 : Reg) (rs2 : Reg)
  /-- FENCE (R73): Performs phase.co device: Publish(device) then Open(device). -/
  | fence (fm : BitVec 4) (pred : BitVec 4) (succ : BitVec 4) (rs1 : Reg) (rd : Reg)
  /-- MUL (R62): Low 64 bits of the product. -/
  | mul (rd : Reg) (rs1 : Reg) (rs2 : Reg)
  /-- MULH (R62): High 64 bits of the signed by signed product. -/
  | mulh (rd : Reg) (rs1 : Reg) (rs2 : Reg)
  /-- MULHSU (R62): High 64 bits of the signed by unsigned product. -/
  | mulhsu (rd : Reg) (rs1 : Reg) (rs2 : Reg)
  /-- MULHU (R62): High 64 bits of the unsigned by unsigned product. -/
  | mulhu (rd : Reg) (rs1 : Reg) (rs2 : Reg)
  /-- DIV (R63): Signed quotient, with the fixed results for divisor zero and overflow. -/
  | div (rd : Reg) (rs1 : Reg) (rs2 : Reg)
  /-- DIVU (R63): Unsigned quotient. -/
  | divu (rd : Reg) (rs1 : Reg) (rs2 : Reg)
  /-- REM (R63): Signed remainder. -/
  | rem (rd : Reg) (rs1 : Reg) (rs2 : Reg)
  /-- REMU (R63): Unsigned remainder. -/
  | remu (rd : Reg) (rs1 : Reg) (rs2 : Reg)
  /-- MULW (R62): 32-bit product, sign-extended. -/
  | mulw (rd : Reg) (rs1 : Reg) (rs2 : Reg)
  /-- DIVW (R63): 32-bit signed quotient, sign-extended. -/
  | divw (rd : Reg) (rs1 : Reg) (rs2 : Reg)
  /-- DIVUW (R63): 32-bit unsigned quotient, sign-extended. -/
  | divuw (rd : Reg) (rs1 : Reg) (rs2 : Reg)
  /-- REMW (R63): 32-bit signed remainder, sign-extended. -/
  | remw (rd : Reg) (rs1 : Reg) (rs2 : Reg)
  /-- REMUW (R63): 32-bit unsigned remainder, sign-extended. -/
  | remuw (rd : Reg) (rs1 : Reg) (rs2 : Reg)
  /-- AMOSWAP_W (R69): Atomically swaps a word at Home(a) for the scope in SCOPE. -/
  | amoswapW (rd : Reg) (rs1 : Reg) (rs2 : Reg) (aq : Bool) (rl : Bool)
  /-- AMOADD_W (R69): Atomic word add. -/
  | amoaddW (rd : Reg) (rs1 : Reg) (rs2 : Reg) (aq : Bool) (rl : Bool)
  /-- AMOXOR_W (R69): Atomic word XOR. -/
  | amoxorW (rd : Reg) (rs1 : Reg) (rs2 : Reg) (aq : Bool) (rl : Bool)
  /-- AMOAND_W (R69): Atomic word AND. -/
  | amoandW (rd : Reg) (rs1 : Reg) (rs2 : Reg) (aq : Bool) (rl : Bool)
  /-- AMOOR_W (R69): Atomic word OR. -/
  | amoorW (rd : Reg) (rs1 : Reg) (rs2 : Reg) (aq : Bool) (rl : Bool)
  /-- AMOMIN_W (R69): Atomic word signed minimum. -/
  | amominW (rd : Reg) (rs1 : Reg) (rs2 : Reg) (aq : Bool) (rl : Bool)
  /-- AMOMAX_W (R69): Atomic word signed maximum. -/
  | amomaxW (rd : Reg) (rs1 : Reg) (rs2 : Reg) (aq : Bool) (rl : Bool)
  /-- AMOMINU_W (R69): Atomic word unsigned minimum. -/
  | amominuW (rd : Reg) (rs1 : Reg) (rs2 : Reg) (aq : Bool) (rl : Bool)
  /-- AMOMAXU_W (R69): Atomic word unsigned maximum. -/
  | amomaxuW (rd : Reg) (rs1 : Reg) (rs2 : Reg) (aq : Bool) (rl : Bool)
  /-- AMOSWAP_D (R69): Atomic doubleword swap. -/
  | amoswapD (rd : Reg) (rs1 : Reg) (rs2 : Reg) (aq : Bool) (rl : Bool)
  /-- AMOADD_D (R69): Atomic doubleword add. -/
  | amoaddD (rd : Reg) (rs1 : Reg) (rs2 : Reg) (aq : Bool) (rl : Bool)
  /-- AMOXOR_D (R69): Atomic doubleword XOR. -/
  | amoxorD (rd : Reg) (rs1 : Reg) (rs2 : Reg) (aq : Bool) (rl : Bool)
  /-- AMOAND_D (R69): Atomic doubleword AND. -/
  | amoandD (rd : Reg) (rs1 : Reg) (rs2 : Reg) (aq : Bool) (rl : Bool)
  /-- AMOOR_D (R69): Atomic doubleword OR. -/
  | amoorD (rd : Reg) (rs1 : Reg) (rs2 : Reg) (aq : Bool) (rl : Bool)
  /-- AMOMIN_D (R69): Atomic doubleword signed minimum. -/
  | amominD (rd : Reg) (rs1 : Reg) (rs2 : Reg) (aq : Bool) (rl : Bool)
  /-- AMOMAX_D (R69): Atomic doubleword signed maximum. -/
  | amomaxD (rd : Reg) (rs1 : Reg) (rs2 : Reg) (aq : Bool) (rl : Bool)
  /-- AMOMINU_D (R69): Atomic doubleword unsigned minimum. -/
  | amominuD (rd : Reg) (rs1 : Reg) (rs2 : Reg) (aq : Bool) (rl : Bool)
  /-- AMOMAXU_D (R69): Atomic doubleword unsigned maximum. -/
  | amomaxuD (rd : Reg) (rs1 : Reg) (rs2 : Reg) (aq : Bool) (rl : Bool)
  /-- CSRRW (R71): Swaps x[rs1] into a CSR, reading the old value when rd is not x0. -/
  | csrrw (rd : Reg) (csr : BitVec 12) (rs1 : Reg)
  /-- CSRRS (R71): Reads a CSR and sets the bits of x[rs1]. -/
  | csrrs (rd : Reg) (csr : BitVec 12) (rs1 : Reg)
  /-- CSRRC (R71): Reads a CSR and clears the bits of x[rs1]. -/
  | csrrc (rd : Reg) (csr : BitVec 12) (rs1 : Reg)
  /-- CSRRWI (R71): Writes a 5-bit immediate to a CSR. -/
  | csrrwi (rd : Reg) (csr : BitVec 12) (uimm : BitVec 5)
  /-- CSRRSI (R71): Reads a CSR and sets the immediate's bits. -/
  | csrrsi (rd : Reg) (csr : BitVec 12) (uimm : BitVec 5)
  /-- CSRRCI (R71): Reads a CSR and clears the immediate's bits. -/
  | csrrci (rd : Reg) (csr : BitVec 12) (uimm : BitVec 5)
  /-- VADD (R108): Element-wise add under the mask. -/
  | vadd (ty : ETy) (vd : VReg) (vs1 : VReg) (vs2 : VReg) (m : Bool) (w : BitVec 2)
  /-- VSUB (R108): Element-wise subtract. -/
  | vsub (ty : ETy) (vd : VReg) (vs1 : VReg) (vs2 : VReg) (m : Bool) (w : BitVec 2)
  /-- VMUL (R108): Element-wise multiply. -/
  | vmul (ty : ETy) (vd : VReg) (vs1 : VReg) (vs2 : VReg) (m : Bool) (w : BitVec 2)
  /-- VDIV (R108): Element-wise float divide. -/
  | vdiv (ty : ETy) (vd : VReg) (vs1 : VReg) (vs2 : VReg) (m : Bool) (w : BitVec 2)
  /-- VMIN (R109): Element-wise minimum. -/
  | vmin (ty : ETy) (vd : VReg) (vs1 : VReg) (vs2 : VReg) (m : Bool) (w : BitVec 2)
  /-- VMAX (R109): Element-wise maximum. -/
  | vmax (ty : ETy) (vd : VReg) (vs1 : VReg) (vs2 : VReg) (m : Bool) (w : BitVec 2)
  /-- VABS (R110): Element-wise absolute value. -/
  | vabs (ty : ETy) (vd : VReg) (vs1 : VReg) (m : Bool) (w : BitVec 2)
  /-- VNEG (R110): Element-wise negation. -/
  | vneg (ty : ETy) (vd : VReg) (vs1 : VReg) (m : Bool) (w : BitVec 2)
  /-- VSQRT (R111): Element-wise square root, rounded once. -/
  | vsqrt (ty : ETy) (vd : VReg) (vs1 : VReg) (m : Bool) (w : BitVec 2)
  /-- VRECIP (R111): Element-wise reciprocal. -/
  | vrecip (ty : ETy) (vd : VReg) (vs1 : VReg) (m : Bool) (w : BitVec 2)
  /-- VRSQRT (R111): Element-wise reciprocal square root. -/
  | vrsqrt (ty : ETy) (vd : VReg) (vs1 : VReg) (m : Bool) (w : BitVec 2)
  /-- VEXP2 (R111): Element-wise power of two. -/
  | vexp2 (ty : ETy) (vd : VReg) (vs1 : VReg) (m : Bool) (w : BitVec 2)
  /-- VLOG2 (R111): Element-wise base-2 logarithm. -/
  | vlog2 (ty : ETy) (vd : VReg) (vs1 : VReg) (m : Bool) (w : BitVec 2)
  /-- VADDS (R108): Element-wise saturating integer add. -/
  | vadds (ty : ETy) (vd : VReg) (vs1 : VReg) (vs2 : VReg) (m : Bool) (w : BitVec 2)
  /-- VSUBS (R108): Element-wise saturating integer subtract. -/
  | vsubs (ty : ETy) (vd : VReg) (vs1 : VReg) (vs2 : VReg) (m : Bool) (w : BitVec 2)
  /-- VMULH (R108): Element-wise high half of the signed integer product. -/
  | vmulh (ty : ETy) (vd : VReg) (vs1 : VReg) (vs2 : VReg) (m : Bool) (w : BitVec 2)
  /-- VAND (R113): Bitwise AND of two vector registers. -/
  | vand (vd : VReg) (vs1 : VReg) (vs2 : VReg) (m : Bool) (w : BitVec 2)
  /-- VOR (R113): Bitwise OR of two vector registers. -/
  | vor (vd : VReg) (vs1 : VReg) (vs2 : VReg) (m : Bool) (w : BitVec 2)
  /-- VXOR (R113): Bitwise XOR of two vector registers. -/
  | vxor (vd : VReg) (vs1 : VReg) (vs2 : VReg) (m : Bool) (w : BitVec 2)
  /-- VSLL (R114): Element-wise logical left shift. -/
  | vsll (ty : ETy) (vd : VReg) (vs1 : VReg) (vs2 : VReg) (m : Bool) (w : BitVec 2)
  /-- VSRL (R114): Element-wise logical right shift. -/
  | vsrl (ty : ETy) (vd : VReg) (vs1 : VReg) (vs2 : VReg) (m : Bool) (w : BitVec 2)
  /-- VSRA (R114): Element-wise arithmetic right shift. -/
  | vsra (ty : ETy) (vd : VReg) (vs1 : VReg) (vs2 : VReg) (m : Bool) (w : BitVec 2)
  /-- VCMPEQ (R119): Writes VMASK with element-wise equality. -/
  | vcmpeq (ty : ETy) (vs1 : VReg) (vs2 : VReg) (m : Bool) (w : BitVec 2)
  /-- VCMPLT (R119): Writes VMASK with element-wise less-than. -/
  | vcmplt (ty : ETy) (vs1 : VReg) (vs2 : VReg) (m : Bool) (w : BitVec 2)
  /-- VCMPLE (R119): Writes VMASK with element-wise less-or-equal. -/
  | vcmple (ty : ETy) (vs1 : VReg) (vs2 : VReg) (m : Bool) (w : BitVec 2)
  /-- VSEL (R115): Selects elements from vs1 or vs2 by VMASK. -/
  | vsel (ty : ETy) (vd : VReg) (vs1 : VReg) (vs2 : VReg) (m : Bool) (w : BitVec 2)
  /-- VPERM (R116): Permutes elements of vs1 by indices in vs2. -/
  | vperm (ty : ETy) (vd : VReg) (vs1 : VReg) (vs2 : VReg) (m : Bool) (w : BitVec 2)
  /-- VSLIDE (R117): Slides elements of vs1 by the signed amount in an x register. -/
  | vslide (ty : ETy) (vd : VReg) (vs1 : VReg) (rs : Reg) (m : Bool) (w : BitVec 2)
  /-- VBCAST (R118): Broadcasts the low bits of an x register to every active element. -/
  | vbcast (ty : ETy) (vd : VReg) (rs : Reg) (m : Bool) (w : BitVec 2)
  /-- VMVX (R118): Moves one element to an x register. -/
  | vmvx (ty : ETy) (rd : Reg) (vs1 : VReg) (rs : Reg) (w : BitVec 2)
  /-- VID (R118): Writes each active element with its index. -/
  | vid (ty : ETy) (vd : VReg) (m : Bool) (w : BitVec 2)
  /-- VREDSUM (R121): Sum reduction by the fixed pairwise tree. -/
  | vredsum (ty : ETy) (vd : VReg) (vs1 : VReg) (m : Bool) (w : BitVec 2)
  /-- VREDMAX (R121): Maximum reduction by the fixed tree. -/
  | vredmax (ty : ETy) (vd : VReg) (vs1 : VReg) (m : Bool) (w : BitVec 2)
  /-- VREDMIN (R121): Minimum reduction by the fixed tree. -/
  | vredmin (ty : ETy) (vd : VReg) (vs1 : VReg) (m : Bool) (w : BitVec 2)
  /-- VDOT (R122): Dot product of two vector registers into element 0. -/
  | vdot (ty : ETy) (vd : VReg) (vs1 : VReg) (vs2 : VReg) (m : Bool) (w : BitVec 2)
  /-- VCVT (R123): Converts a register from its own tag to a target tag. -/
  | vcvt (vd : VReg) (vs1 : VReg) (t : Tag) (m : Bool) (w : BitVec 2)
  /-- VRETAG (R124): Copies bits with a new tag, converting nothing. -/
  | vretag (vd : VReg) (vs1 : VReg) (t : Tag) (w : BitVec 2)
  /-- VTAG (R124): Writes a register's tag to an x register. -/
  | vtag (rd : Reg) (vs1 : VReg) (w : BitVec 2)
  /-- VQNT (R125): Quantises to BX8P, BX4P, E4M3 or E5M2. -/
  | vqnt (vd : VReg) (vs1 : VReg) (t : Tag) (w : BitVec 2)
  /-- VDEQ (R126): Decodes a block or OFP8 source to F32, BF16 or F16. -/
  | vdeq (vd : VReg) (vs1 : VReg) (t : Tag) (w : BitVec 2)
  /-- VMVV (R113): Copies a vector register with its tag. -/
  | vmvv (vd : VReg) (vs1 : VReg) (m : Bool) (w : BitVec 2)
  /-- VSETM (R119): Sets VMASK from the nonzero elements of a register. -/
  | vsetm (ty : ETy) (vs1 : VReg) (w : BitVec 2)
  /-- VGETM (R119): Writes VMASK as 1 and 0 elements into a register. -/
  | vgetm (ty : ETy) (vd : VReg) (w : BitVec 2)
  /-- VFMA (R112): Fused a*b + c on every lane. -/
  | vfma (ty : ETy) (vd : VReg) (va : VReg) (vb : VReg) (vc : VReg) (w : BitVec 2)
  /-- VFMS (R112): Fused a*b - c on every lane. -/
  | vfms (ty : ETy) (vd : VReg) (va : VReg) (vb : VReg) (vc : VReg) (w : BitVec 2)
  /-- VFNMA (R112): Fused -a*b - c on every lane. -/
  | vfnma (ty : ETy) (vd : VReg) (va : VReg) (vb : VReg) (vc : VReg) (w : BitVec 2)
  /-- VFNMS (R112): Fused -a*b + c on every lane. -/
  | vfnms (ty : ETy) (vd : VReg) (va : VReg) (vb : VReg) (vc : VReg) (w : BitVec 2)
  /-- VLE (R128): Unit-stride vector load, or decode of a packed block on an FMT page. -/
  | vle (ty : ETy) (vd : VReg) (rs1 : Reg) (off : BitVec 9)
  /-- VSE (R128): Unit-stride vector store, or store of a packed block on an FMT page. -/
  | vse (ty : ETy) (vs : VReg) (rs1 : Reg) (off : BitVec 9)
  /-- VLDS (R128): Strided vector load under the mask. -/
  | vlds (ty : ETy) (vd : VReg) (rs1 : Reg) (rs2 : Reg) (m : Bool)
  /-- VSDS (R128): Strided vector store under the mask. -/
  | vsds (ty : ETy) (vs : VReg) (rs1 : Reg) (rs2 : Reg) (m : Bool)
  /-- VLX (R128): Indexed vector load of up to 16 elements. -/
  | vlx (ty : ETy) (vd : VReg) (rs1 : Reg) (vs2 : VReg) (m : Bool)
  /-- VSX (R128): Indexed vector store of up to 16 elements. -/
  | vsx (ty : ETy) (vs : VReg) (rs1 : Reg) (vs2 : VReg) (m : Bool)
  /-- REP (R42): Starts a repetition of the following body with vector-register rotation. -/
  | rep (len1 : BitVec 4) (rs1 : Reg) (stride : BitVec 5) (base : BitVec 5)
  /-- QPUSH (R287): Submits half of a vector register as a command word to an engine port. -/
  | qpush (port : BitVec 5) (vs : VReg) (h : Bool)
  /-- QPUT (R287): Stages one 64-bit word of a command, submitting it at the fourth word. -/
  | qput (port : BitVec 5) (rs : Reg)
  /-- QPOP (R287): Pops the oldest SHIP result of the hart. -/
  | qpop (rd : Reg) (port : BitVec 5)
  /-- RECV (R180): Removes the head entry of a core queue into a vector register, blocking while empty. -/
  | recv (vd : VReg) (q : BitVec 5)
  /-- PEEK (R180): Reads the head entry of a core queue without removing it. -/
  | peek (vd : VReg) (q : BitVec 5)
  /-- WAIT (R181): Blocks until a masked queue is non-empty and returns its index. -/
  | wait (rd : Reg) (rs1 : Reg)
  /-- QMAKE (R238): Makes queue 4 to 7 as a ring in held extents. -/
  | qmake (q : BitVec 5) (rs1 : Reg) (rs2 : Reg)
  /-- QDROP (R238): Unmakes a queue after reclaiming its allowances. -/
  | qdrop (q : BitVec 5)
  /-- SEND (R183): Sends a 32-byte rank message to the inbox of a rank. -/
  | send (rs1 : Reg) (vs : VReg)
  /-- RPUT (R239): Appends 64 bytes to a made queue of the core running a rank. -/
  | rput (q : BitVec 5) (rs1 : Reg) (vs : VReg)
  /-- SLOOK (R232): Looks up a tag in the tag table. -/
  | slook (rd : Reg) (rs1 : Reg)
  /-- SINST (R232): Installs a tag-table entry for a slot. -/
  | sinst (rs1 : Reg) (rs2 : Reg)
  /-- SINV (R232): Invalidates the party's entry with a tag. -/
  | sinv (rs1 : Reg)
  /-- SCLEAN (R232): Clears DIRTY of the party's entry with a tag. -/
  | sclean (rs1 : Reg)
  /-- MTCFG (R295): Configures a tile register view, checking it against held extents. -/
  | mtcfg (mt : BitVec 5) (rs1 : Reg) (rs2 : Reg)
  /-- MTPACK (R296): Copies a tile register into op0 or op1 of a vector register. -/
  | mtpack (vd : VReg) (mt : BitVec 5) (h : Bool)
  /-- PHASE_C (R172): Phase close: Publish at a scope. -/
  | phaseC (s : Scope)
  /-- PHASE_O (R172): Phase open: Open at a scope. -/
  | phaseO (s : Scope)
  /-- PHASE_CO (R172): Phase close then open at a scope. -/
  | phaseCo (s : Scope)
  /-- SYNC (R176): Arrives at the exchange or the party barrier and blocks until it completes. -/
  | sync (rd : Reg)
  /-- HRED (R178): A sync that contributes a value to a tree reduction. -/
  | hred (rd : Reg) (rs1 : Reg) (op : RedOp)
  /-- EMIT (R145): Appends a task record to a downstream stage queue. -/
  | emit (vs : VReg) (rs1 : Reg)
  /-- ACQ (R207): Requests further units of a resource class, blocking until granted. -/
  | acq (rd : Reg) (rs1 : Reg)
  /-- ACQ_TRY (R207): Requests further units once, returning OK, UNAVAILABLE or UNSAFE. -/
  | acqTry (rd : Reg) (rs1 : Reg)
  /-- REL (R208): Returns the last-acquired units of a class. -/
  | rel (rs1 : Reg)
  /-- CLAIM (R209): Lowers the maximum claim of a class. -/
  | claim (rs1 : Reg)
  /-- LD_S (R173): Strong doubleword load at a scope. -/
  | ldS (rd : Reg) (rs1 : Reg) (imm : BitVec 10) (s : Scope)
  /-- LW_S (R173): Strong sign-extended word load at a scope. -/
  | lwS (rd : Reg) (rs1 : Reg) (imm : BitVec 10) (s : Scope)
  /-- SD_S (R173): Strong doubleword store at a scope. -/
  | sdS (rs1 : Reg) (rs2 : Reg) (imm : BitVec 10) (s : Scope)
  /-- SW_S (R173): Strong word store at a scope. -/
  | swS (rs1 : Reg) (rs2 : Reg) (imm : BitVec 10) (s : Scope)
  /-- OFFER (R192): Proposes a value for a generation of a decide-once cell. -/
  | offer (rd : Reg) (rs1 : Reg) (rs2 : Reg) (rs3 : Reg) (aq : Bool) (rl : Bool)
  /-- CREAD (R193): Reads the decision of a generation without proposing. -/
  | cread (rd : Reg) (rs1 : Reg) (rs2 : Reg) (aq : Bool) (rl : Bool)
  /-- CWAIT (R194): Reads a decision, registering as a waiter and blocking while undecided. -/
  | cwait (rd : Reg) (rs1 : Reg) (rs2 : Reg) (aq : Bool) (rl : Bool)
  /-- CRETIRE (R195): Retires a decided generation of a cell to the next. -/
  | cretire (rs1 : Reg) (rs2 : Reg) (aq : Bool) (rl : Bool)
  /-- SCALL (R362): Posts a 64-byte request to the context's system-call ring. -/
  | scall (rs1 : Reg)
  /-- MPROBE (R266): Translates an address as a load would, without faulting, and returns a report word. -/
  | mprobe (rd : Reg) (rs1 : Reg)
  /-- MHINT (R267): Writes a temperature hint to the context's hint ring. -/
  | mhint (rs1 : Reg) (rs2 : Reg)
  /-- LAUNCH (R138): Validates and submits a launch record. -/
  | launch (rd : Reg) (rs1 : Reg)
  /-- FREC (R375): Submits a frame-record batch from the accelerator kernel. -/
  | frec (rd : Reg) (rs1 : Reg) (rs2 : Reg)
  /-- MONENTER (R406): Enters a context's enclave on the core. -/
  | monenter (rs1 : Reg)
  /-- MONKEY (R404): Installs, imports or erases a key slot. -/
  | monkey (rs1 : Reg) (rs2 : Reg)
  /-- MONSEAL (R405): Binds or clears an entry of a context's sealed-key table. -/
  | monseal (rs1 : Reg) (rs2 : Reg)
  /-- MZERO (R307): Matrix command writing +0 to every element of a C view. -/
  | mzero (c : Command)
  /-- MLOADW (R308): Matrix command loading a B image into hamper segments, decrypting sealed pages. -/
  | mloadw (c : Command)
  /-- MMA (R309): Matrix command multiplying an A view by a hamper B image into a C view. -/
  | mma (c : Command)
  /-- MDRAIN (R311): Matrix command converting a C view to F32, BF16 or BX and writing it out, with optional amax. -/
  | mdrain (c : Command)
  /-- MEND (R312): Matrix command ending the core's lease. -/
  | mend (c : Command)
  /-- CPY (R318): Copy engine command copying LENGTH bytes. -/
  | cpy (c : Command)
  /-- CPYT (R318): Copy engine command copying a strided tensor described by a descriptor. -/
  | cpyt (c : Command)
  /-- FILL (R318): Copy engine command filling memory with an 8-byte pattern. -/
  | fill (c : Command)
  /-- SFILL (R319): Fills scratchpad slots from memory and installs their tags. -/
  | sfill (c : Command)
  /-- SEVICT (R319): Writes dirty scratchpad slots back and optionally invalidates them. -/
  | sevict (c : Command)
  /-- PREF (R320): Prefetches lines into the group agent and translations into the copy TLB. -/
  | pref (c : Command)
  /-- MIGR (R321): Kernel-only command moving a page while it stays writable. -/
  | migr (c : Command)
  /-- GATHER (R323): Site engine command gathering table elements by index into a dense buffer. -/
  | gather (c : Command)
  /-- SCATTER (R323): Site engine command scattering dense elements into a table by index. -/
  | scatter (c : Command)
  /-- SHIP (R324): Runs a routine of the site table on one line at its site processor. -/
  | ship (c : Command)
  /-- TABLOAD (R326): Kernel-only command loading SHIP routines into every site processor. -/
  | tabload (c : Command)
  /-- CALLRED (R328): Collective all-reduce. -/
  | callred (c : Command)
  /-- CREDSC (R328): Collective reduce-scatter. -/
  | credsc (c : Command)
  /-- CALLGATH (R328): Collective all-gather. -/
  | callgath (c : Command)
  /-- CBCAST (R328): Collective broadcast from the root. -/
  | cbcast (c : Command)
  /-- CXCHG (R328): Collective all-to-all exchange. -/
  | cxchg (c : Command)
  /-- NSEND (R331): Network send matched against a post at the peer. -/
  | nsend (c : Command)
  /-- NWRITE (R331): Network write into a remote region. -/
  | nwrite (c : Command)
  /-- NREAD (R331): Network read from a remote region. -/
  | nread (c : Command)
  /-- NPOST (R331): Posts a receive buffer or queue for incoming messages. -/
  | npost (c : Command)
  /-- ACQ_GRANT (R212): A blocked acq request is granted once available and safe. -/
  | acqGrant (cluster : Nat)
  /-- ALLOWANCE_REQUEST (R240): A target core receives an allowance request and grants or holds it. -/
  | allowanceRequest (src : Nat) (dst : Nat) (q : Nat)
  /-- ALLOWANCE_GRANT (R240): A sender interface receives granted allowances. -/
  | allowanceGrant (src : Nat) (dst : Nat) (q : Nat) (n : Nat)
  /-- ALLOWANCE_RETURN (R241): Unused allowances returned by an interface are added back to the free count. -/
  | allowanceReturn (src : Nat) (dst : Nat) (q : Nat)
  /-- ALLOWANCE_RECLAIM (R241): A target reclaims outstanding allowances for a drop or a move. -/
  | allowanceReclaim (dst : Nat) (q : Nat)
  /-- QUEUE_ENTRY_ARRIVAL (R242): A rank message, append or hardware entry arrives at a core queue. -/
  | queueEntryArrival (core : Nat) (q : Nat) (e : VBits) (kind : ArrivalKind)
  /-- EXCHANGE (R150): When every slot has arrived, the BSP exchange publishes, delivers and opens the next superstep. -/
  | exchange (launch : Nat)
  /-- HEADCOUNT_SWEEP (R154): The tree sweeps the launch, counting messages to detect its end or a stall. -/
  | headcountSweep (launch : Nat)
  /-- LAUNCH_END (R155): A launch's stores are published, holdings scrubbed and launch-end entries sent. -/
  | launchEnd (launch : Nat)
  /-- TASK_PLACEMENT (R143): The dispatcher chooses a stage and places its oldest task on a core. -/
  | taskPlacement (launch : Nat)
  /-- INITIAL_TASKS (R137): The dispatcher reads the initial task list into stage 0 as capacity allows. -/
  | initialTasks (launch : Nat)
  /-- PARTY_RETIRE (R146): After its commands complete, a party removes its completions and releases its holdings. -/
  | partyRetire (party : Nat)
  /-- SAVE_COMPLETE (R355): A party's save finishes and it becomes SAVED; the context is SAVED when all are. -/
  | saveComplete (party : Nat)
  /-- RESTORE_COMPLETE (R360): A party's restore finishes and its harts resume. -/
  | restoreComplete (party : Nat)
  /-- CELL_PURGE_COMPLETE (R199): The wrap purge of decision caches completes; the cell becomes VACANT(0) and held events apply. -/
  | cellPurgeComplete (pa : Nat)
  /-- COMMAND_COMPLETION (R292): An engine command completes once, posting a completion entry when NOTIFY is set or the status is not OK. -/
  | commandCompletion (c : Command) (status : BitVec 16) (word1 : Word) (payload : BitVec 128)
  /-- MIGR_ROUND_DONE (R271): A migration copy round finishes and the filters are checked under hold. -/
  | migrRoundDone (dirty : Bool)
  /-- COLLECTIVE_MATCH (R329): All participants have pushed and translated, so collective data starts to move. -/
  | collectiveMatch (launch : Nat) (rank0 : Nat) (nrank : Nat) (seq : Nat)
  /-- SHOOTDOWN_DONE (R264): Once accesses and pending stores to the range have completed, DONE advances and BUSY clears. -/
  | shootdownDone (h : Nat)
  /-- BATCH_COMMIT (R374): A frame-record batch is applied whole or not at all, serialised with other batches. -/
  | batchCommit (iss : Issuer) (pa : BitVec 48) (n : Nat)
  /-- REVOCATION_COMMIT (R378): After the shootdown and the borrower's stores complete, the entry becomes HELD with REVOKED and RECALL_DONE LATE is sent. -/
  | revocationCommit (frame : Nat)
  /-- ROTATION_COMPLETE (R410): Every site has finished re-encrypting; BUSY clears and interrupt 11 becomes pending. -/
  | rotationComplete (ctx : BitVec 16)
  /-- OLD_KEY_RETIRE (R410): After every message under the old key is delivered, the old slot frees and the pending key becomes active. -/
  | oldKeyRetire (ctx : BitVec 16)
  /-- ROTATION_REQUEST (R408): A mesh stream reaching 2^38 messages makes interrupt 11 pending to request rotation. -/
  | rotationRequest (core : Nat)
  /-- STREAM_STOP (R408): A mesh stream reaching 2^39 messages without a pending key stops sending. -/
  | streamStop (core : Nat)
  /-- LEASE_GRANT (R299): The array grants its lease round-robin to a requesting core. -/
  | leaseGrant (cluster : Nat)
  /-- JOIN_START (R385): A joined launch starts once every device in the mask has submitted matching records. -/
  | joinStart (h : Nat) (before : Nat)
  /-- WAKE (R147): A blocked hart's wake condition holds and the hart resumes. -/
  | wake (h : Nat)
  /-- ILLEGAL_INSTRUCTION (R48): A word that names no instruction raises illegal-instruction with the word in xtval. -/
  | illegalInstruction (word : BitVec 32)
  /-- S_TIMER (R35): time reaching stimecmp makes the S timer interrupt pending. -/
  | sTimer (h : Nat)
  /-- M_TIMER (R35): time reaching MTIMECMP makes the M timer interrupt pending. -/
  | mTimer (h : Nat)
  /-- MSIP (R36): A write of the MSIP bit in the software-interrupt block sets or clears the target's machine software interrupt. -/
  | msip (h : Nat) (value : Bool)
  /-- SSIP (R36): A store with bit 1 set in the software-interrupt block sets the target's mip.SSIP. -/
  | ssip (h : Nat) (value : Bool)
  /-- SD_REQ (R264): A store to SD_REQ starts a translation shootdown of a range and context. -/
  | sdReq (h : Nat) (v : Word)
  /-- FN_POST (R344): A store sends a TYPE 1 fault notice to the rank in FN_TARGET. -/
  | fnPost (h : Nat) (v : Word)
  /-- SC_REPLY (R363): A store sends a TYPE 4 system-call reply to the rank in FN_TARGET. -/
  | scReply (h : Nat) (v : Word)
  /-- PRE_REQ_PREEMPT (R353): PRE_REQ with OP 0 starts pre-emption of a context and arms its watchdog. -/
  | preReqPreempt (h : Nat) (v : Word)
  /-- PRE_REQ_RESUME (R360): PRE_REQ with OP 1 restores a saved context onto the clusters of PRE_MASK. -/
  | preReqResume (h : Nat) (v : Word)
  /-- PRE_REQ_KILL (R361): PRE_REQ with OP 2 scrubs a resident context or discards a saved one. -/
  | preReqKill (h : Nat) (v : Word)
  /-- RP_GO (R376): A host store to RP_GO submits the batch at RP_BATCH. -/
  | rpGo (c : Nat) (v : Word)
  /-- FIRMWARE_RELEASE (R369): Firmware releases a frame offered to it, returning it HELD to the offering kernel. -/
  | firmwareRelease (frame : Nat)
  /-- RECALL_DEADLINE_EXPIRY (R378): The recall timer expires with the entry still RECALLING, starting revocation of the borrower. -/
  | recallDeadlineExpiry (frame : Nat)
  /-- ATT_REQ (R413): A store to ATT_REQ starts an attestation report. -/
  | attReq (v : Word)
  /-- DBG_STOP_NEXT (R425): DBG_REQ OP 0 requests a precise stop at the next exchange. -/
  | dbgStopNext (h : Nat) (v : Word)
  /-- DBG_STOP_AT (R425): DBG_REQ OP 1 requests a precise stop at the exchange ending superstep DBG_ARG. -/
  | dbgStopAt (h : Nat) (v : Word)
  /-- DBG_RELEASE (R425): DBG_REQ OP 2 releases a stopped partition. -/
  | dbgRelease (h : Nat) (v : Word)
  /-- DBG_IMMEDIATE_STOP (R425): DBG_REQ OP 3 gang-stops the context's partition at once. -/
  | dbgImmediateStop (h : Nat) (v : Word)
  /-- DBG_PAIR (R427): DBG_REQ OP 4 pairs two resident contexts for divergence detection. -/
  | dbgPair (h : Nat) (v : Word)
  /-- DBG_UNPAIR (R424): DBG_REQ OP 5 dissolves a pairing. -/
  | dbgUnpair (h : Nat) (v : Word)
  /-- RKCTL_GO (R410): Writing RKCTL.GO starts re-encryption of a context's listed frames under its pending key. -/
  | rkctlGo (h : Nat)
  /-- REGISTER_WRITE (R249): A write to a memory-mapped register with no behaviour of its own updates or ignores its fields. -/
  | registerWrite (who : Agent) (pa : BitVec 48) (size : Nat) (v : Word)
  /-- NSEND_TIMEOUT (R331): An NSEND that finds no post within 1 s completes PEER_ERROR. -/
  | nsendTimeout (c : Command)
  /-- LEASE_IDLE_EXPIRY (R299): A holding core idle for 64 cycles while another requests loses the lease. -/
  | leaseIdleExpiry (cluster : Nat)
  /-- RAMP_WINDOW (R303): Each 3,000-cycle window bounds the change in array issue slots. -/
  | rampWindow (cluster : Nat) (demand : Nat)
  /-- INTERVAL_BOUNDARY (R284): Every 1,024 cycles the share controller refills token buckets. -/
  | intervalBoundary (die : Nat) (unspent : List (Nat × Nat)) (waiting : List (BitVec 16))
  /-- METER_UPDATE (R365): Every millisecond activity counts are written to each meter record. -/
  | meterUpdate (acts : List Activity) (energy : Nat) (floor : Nat)
  /-- GET_SENSOR_READING (R367): An out-of-band PLDM request returns a meter snapshot. -/
  | getSensorReading (ctx : BitVec 16) (counter : Nat)
  /-- CWAIT_RETRY (R194): A cwait that found the waiter table full is repeated every 3,000 cycles. -/
  | cwaitRetry (h : Nat)
  /-- ACQ_URGENT (R212): A request blocked for 2^20 cycles becomes urgent. -/
  | acqUrgent (cluster : Nat)
  /-- AFFINITY_PATIENCE_EXPIRY (R142): A data-affinity task's 6,000-cycle patience expires and it goes to the nearest cluster. -/
  | affinityPatienceExpiry (launch : Nat)
  /-- OCCUPANCY_SAMPLE (R143): Every 30,000 cycles a free-running launch samples queue occupancy ratios. -/
  | occupancySample (launch : Nat)
  /-- SAVE_DEADLINE_EXPIRY (R358): A save exceeding 2 ms loses the whole context. -/
  | saveDeadlineExpiry (party : Nat)
  /-- WATCHDOG_EXPIRY (R357): The pre-emption watchdog expires and the context is killed with HANG. -/
  | watchdogExpiry (ctx : BitVec 16)
  /-- JOIN_TIMEOUT (R385): A join missing a device after 1 s ends JOIN_FAILED. -/
  | joinTimeout (h : Nat)
  /-- NETWORK_PACKET_ARRIVAL (R398): An arriving Ethernet packet is delivered to the context of its JOB, or refused. -/
  | networkPacketArrival (p : Packet)
  /-- PEER_MEMORY_REQUEST (R389): A PCI Express peer memory request is checked against inbound windows and the record. -/
  | peerMemoryRequest (port : Nat) (r : PeerRequest)
  /-- PCIE_LOAD_COMPLETION (R388): A completion for a load to a root port's space arrives. -/
  | pcieLoadCompletion (h : Nat) (value : Option Word)
  /-- PCIE_LOAD_TIMEOUT (R388): A root-port load without completion in 50 ms raises a load access fault. -/
  | pcieLoadTimeout (h : Nat)
  /-- VIRTIO_NOTIFICATION (R391): A virtio driver notification makes the hub process a virtqueue. -/
  | virtioNotification (dev : Nat) (queue : Nat) (ok : Bool)
  /-- FLIT_CRC_FAILURE (R384): A Fenys flit failing its CRC is retried on the link. -/
  | flitCrcFailure (link : Nat)
  /-- LINK_FAILURE (R384): A Fenys link fails; traffic reroutes and LINKS_UP changes. -/
  | linkFailure (link : Nat)
  /-- LINK_RECOVERY (R381): A Fenys link recovers and its LINKS_UP bit is set. -/
  | linkRecovery (link : Nat)
  /-- LANE_FAILURE (R430): A failed lane is retrained onto its spare. -/
  | laneFailure (link : Nat)
  /-- DEVICE_LOSS (R384): An unreachable device leaves PRESENT; outstanding accesses fault and joined launches end PEER_LOST. -/
  | deviceLoss (d : Nat) (lostStores : List Nat) (outstanding : List Outstanding)
  /-- THERMAL_FAULT (R433): An uncontained coolant or temperature fault pre-empts contexts and halts the accelerator. -/
  | thermalFault (persists : Bool)
  /-- PORT_LINK_DOWN (R388): A PCI Express or CXL port loses its trained link, clearing LINK_UP so that later posted stores are dropped and blanket accesses fault. -/
  | portLinkDown (p : Nat)
  /-- PORT_LINK_UP (R387): A PCI Express or CXL port trains its link, setting LINK_UP and SPEED. -/
  | portLinkUp (p : Nat) (speed : BitVec 8)
  /-- DEVICE_STATUS_WRITE (R391): A virtio driver writes the device status, negotiating FEATURES_OK or resetting a device that set DEVICE_NEEDS_RESET. -/
  | deviceStatusWrite (dev : Nat) (v : BitVec 8) (packed : Bool)
  /-- SUSP_CLEAR (R379): Management clears SUSP for a kernel, allowing LEND to that kernel again. -/
  | suspClear (k : Kernel)
  /-- DOMAIN_WINDOW_ACCESS (R371): An access from another device of the load-store domain arrives through this device's window and is checked against its frame record and served at its site. -/
  | domainWindowAccess (a : DomainAccess)
  /-- DHCPV6_REPLY (R428): A DHCPv6 reply arrives, giving the device its IPv6 address and completing boot step 6 or providing the boot-file URL for recovery. -/
  | dhcpv6Reply (addr : BitVec 128) (bootUrl : Bool)
  /-- RECOVERY_IMAGE_RECEIVED (R429): The HTTP fetch of a recovery firmware image completes, after which the image is verified and written to flash or discarded. -/
  | recoveryImageReceived (verified : Bool)
  /-- ECALL (R75): Traps with environment-call cause 8, 9 or 11 for the current mode. -/
  | ecall
  /-- EBREAK (R75): Traps with breakpoint cause 3. -/
  | ebreak
  /-- FENCE_I (R74): Empties the fetch buffer and invalidates the core's instruction-cache lines for the hart's context. -/
  | fenceI
  /-- SRET (R75): Returns from S-mode by the steps of R37. -/
  | sret
  /-- MRET (R75): Returns from M-mode by the steps of R37. -/
  | mret
  /-- WFI (R76): Suspends the hart until an enabled interrupt is pending or its own inbox is non-empty. -/
  | wfi
  /-- TASK_DONE (R146): Ends the hart's part in its task. -/
  | taskDone
  /-- UPRET (R341): Returns from an upcall to UEPC, restoring REPSTATE.ACTIVE. -/
  | upret
  /-- MONLEAVE (R406): Leaves the enclave, zeroing the core's local state. -/
  | monleave
  /-- INTERRUPT_ENTRY (R338): A takeable pending interrupt is taken at an instruction boundary. -/
  | interruptEntry
  /-- ATTESTATION_REPORT_DONE (R413): The hub writes the signed report and completes the request. -/
  | attestationReportDone
  /-- FAULT_QUEUE_POST (R343): An entry waiting for ring space is written and HEAD advanced once TAIL allows. -/
  | faultQueuePost
  /-- PACKAGE_RESET (R428): Resets every hart and runs the boot sequence. -/
  | packageReset
  /-- RECOVERY_FETCH_RETRY (R429): The recovery image fetch is retried every 10 s. -/
  | recoveryFetchRetry
  /-- DHCPV6_RETRY (R428): Address acquisition by DHCPv6 is retried every 10 s. -/
  | dhcpv6Retry
  /-- ANNOUNCEMENT_RETRY (R428): The signed scheduler announcement is retried every 10 s. -/
  | announcementRetry
  /-- ALARM (R414): A tamper or glitch event zeroises key slots and halts the accelerator. -/
  | alarm
  deriving DecidableEq, Repr

end Sys2Proof
end

