-- ==== Sys2Proof/WellFormed.lean ====
section
/-! DEFINITION. Which instructions are well formed: the ranges and the allowed element types and tags that
R48 and R52 to R58 give to the fields of a word, and the ranges of an event's operands. -/

namespace Sys2Proof

/-- The float types are codes 0 to 3 (Table 03-4). -/
def ETy.isFloat : ETy → Bool
  | .f32 | .bf16 | .f16 | .f64 => true
  | _ => false

/-- The targets of `vqnt`: tags 9 to 12 (Table 03-6). -/
def Tag.isPacked : Tag → Bool
  | .e4m3 | .e5m2 | .bx8p | .bx4p => true
  | _ => false

/-- CMD, bits [7:0] of a command word (Table 17-3). -/
def Command.cmd (c : Command) : Nat := (c.word.extractLsb' 0 8).toNat

/-- Table 17-4. -/
abbrev Command.codeMzero : Nat := 0x00
/-- Table 17-4. -/
abbrev Command.codeMloadw : Nat := 0x01
/-- Table 17-4. -/
abbrev Command.codeMma : Nat := 0x02
/-- Table 17-4. -/
abbrev Command.codeMdrain : Nat := 0x03
/-- Table 17-4. -/
abbrev Command.codeMend : Nat := 0x04
/-- Table 17-4. -/
abbrev Command.codeCpy : Nat := 0x20
/-- Table 17-4. -/
abbrev Command.codeCpyt : Nat := 0x21
/-- Table 17-4. -/
abbrev Command.codeFill : Nat := 0x22
/-- Table 17-4. -/
abbrev Command.codeSfill : Nat := 0x23
/-- Table 17-4. -/
abbrev Command.codeSevict : Nat := 0x24
/-- Table 17-4. -/
abbrev Command.codePref : Nat := 0x25
/-- Table 17-4. -/
abbrev Command.codeMigr : Nat := 0x26
/-- Table 17-4. -/
abbrev Command.codeGather : Nat := 0x40
/-- Table 17-4. -/
abbrev Command.codeScatter : Nat := 0x41
/-- Table 17-4. -/
abbrev Command.codeShip : Nat := 0x42
/-- Table 17-4. -/
abbrev Command.codeTabload : Nat := 0x43
/-- Table 17-4. -/
abbrev Command.codeCallred : Nat := 0x60
/-- Table 17-4. -/
abbrev Command.codeCredsc : Nat := 0x61
/-- Table 17-4. -/
abbrev Command.codeCallgath : Nat := 0x62
/-- Table 17-4. -/
abbrev Command.codeCbcast : Nat := 0x63
/-- Table 17-4. -/
abbrev Command.codeCxchg : Nat := 0x64
/-- Table 17-4. -/
abbrev Command.codeNsend : Nat := 0x80
/-- Table 17-4. -/
abbrev Command.codeNwrite : Nat := 0x81
/-- Table 17-4. -/
abbrev Command.codeNread : Nat := 0x82
/-- Table 17-4. -/
abbrev Command.codeNpost : Nat := 0x83

/-- The checks of one instruction (R48). -/
def Instr.wf : Instr → Bool
  | .lui _ _ => true
  | .auipc _ _ => true
  | .jal _ _ => true
  | .jalr _ _ _ => true
  | .beq _ _ _ => true
  | .bne _ _ _ => true
  | .blt _ _ _ => true
  | .bge _ _ _ => true
  | .bltu _ _ _ => true
  | .bgeu _ _ _ => true
  | .lb _ _ _ => true
  | .lh _ _ _ => true
  | .lw _ _ _ => true
  | .ld _ _ _ => true
  | .lbu _ _ _ => true
  | .lhu _ _ _ => true
  | .lwu _ _ _ => true
  | .sb _ _ _ => true
  | .sh _ _ _ => true
  | .sw _ _ _ => true
  | .sd _ _ _ => true
  | .addi _ _ _ => true
  | .slti _ _ _ => true
  | .sltiu _ _ _ => true
  | .xori _ _ _ => true
  | .ori _ _ _ => true
  | .andi _ _ _ => true
  | .slli _ _ _ => true
  | .srli _ _ _ => true
  | .srai _ _ _ => true
  | .add _ _ _ => true
  | .sub _ _ _ => true
  | .sll _ _ _ => true
  | .slt _ _ _ => true
  | .sltu _ _ _ => true
  | .xor _ _ _ => true
  | .srl _ _ _ => true
  | .sra _ _ _ => true
  | .or _ _ _ => true
  | .and _ _ _ => true
  | .addiw _ _ _ => true
  | .slliw _ _ _ => true
  | .srliw _ _ _ => true
  | .sraiw _ _ _ => true
  | .addw _ _ _ => true
  | .subw _ _ _ => true
  | .sllw _ _ _ => true
  | .srlw _ _ _ => true
  | .sraw _ _ _ => true
  | .fence _ _ _ _ _ => true
  | .ecall => true
  | .ebreak => true
  | .mul _ _ _ => true
  | .mulh _ _ _ => true
  | .mulhsu _ _ _ => true
  | .mulhu _ _ _ => true
  | .div _ _ _ => true
  | .divu _ _ _ => true
  | .rem _ _ _ => true
  | .remu _ _ _ => true
  | .mulw _ _ _ => true
  | .divw _ _ _ => true
  | .divuw _ _ _ => true
  | .remw _ _ _ => true
  | .remuw _ _ _ => true
  | .amoswapW _ _ _ _ _ => true
  | .amoaddW _ _ _ _ _ => true
  | .amoxorW _ _ _ _ _ => true
  | .amoandW _ _ _ _ _ => true
  | .amoorW _ _ _ _ _ => true
  | .amominW _ _ _ _ _ => true
  | .amomaxW _ _ _ _ _ => true
  | .amominuW _ _ _ _ _ => true
  | .amomaxuW _ _ _ _ _ => true
  | .amoswapD _ _ _ _ _ => true
  | .amoaddD _ _ _ _ _ => true
  | .amoxorD _ _ _ _ _ => true
  | .amoandD _ _ _ _ _ => true
  | .amoorD _ _ _ _ _ => true
  | .amominD _ _ _ _ _ => true
  | .amomaxD _ _ _ _ _ => true
  | .amominuD _ _ _ _ _ => true
  | .amomaxuD _ _ _ _ _ => true
  | .csrrw _ _ _ => true
  | .csrrs _ _ _ => true
  | .csrrc _ _ _ => true
  | .csrrwi _ _ _ => true
  | .csrrsi _ _ _ => true
  | .csrrci _ _ _ => true
  | .fenceI => true
  | .sret => true
  | .mret => true
  | .wfi => true
  | .vadd _ _ _ _ _ _ => true
  | .vsub _ _ _ _ _ _ => true
  | .vmul _ _ _ _ _ _ => true
  | .vdiv ty _ _ _ _ _ => ty.isFloat
  | .vmin _ _ _ _ _ _ => true
  | .vmax _ _ _ _ _ _ => true
  | .vabs _ _ _ _ _ => true
  | .vneg _ _ _ _ _ => true
  | .vsqrt ty _ _ _ _ => ty.isFloat
  | .vrecip ty _ _ _ _ => ty.isFloat
  | .vrsqrt ty _ _ _ _ => ty.isFloat
  | .vexp2 ty _ _ _ _ => ty.isFloat
  | .vlog2 ty _ _ _ _ => ty.isFloat
  | .vadds ty _ _ _ _ _ => !ty.isFloat
  | .vsubs ty _ _ _ _ _ => !ty.isFloat
  | .vmulh ty _ _ _ _ _ => !ty.isFloat
  | .vand _ _ _ _ _ => true
  | .vor _ _ _ _ _ => true
  | .vxor _ _ _ _ _ => true
  | .vsll ty _ _ _ _ _ => !ty.isFloat
  | .vsrl ty _ _ _ _ _ => !ty.isFloat
  | .vsra ty _ _ _ _ _ => !ty.isFloat
  | .vcmpeq _ _ _ _ _ => true
  | .vcmplt _ _ _ _ _ => true
  | .vcmple _ _ _ _ _ => true
  | .vsel _ _ _ _ _ _ => true
  | .vperm _ _ _ _ _ _ => true
  | .vslide _ _ _ _ _ _ => true
  | .vbcast _ _ _ _ _ => true
  | .vmvx _ _ _ _ _ => true
  | .vid ty _ _ _ => !ty.isFloat
  | .vredsum _ _ _ _ _ => true
  | .vredmax _ _ _ _ _ => true
  | .vredmin _ _ _ _ _ => true
  | .vdot _ _ _ _ _ _ => true
  | .vcvt _ _ t m _ => t != .raw && !(m && (t == .bx8p || t == .bx4p))
  | .vretag _ _ _ _ => true
  | .vtag _ _ _ => true
  | .vqnt _ _ t _ => t.isPacked
  | .vdeq _ _ t _ => t == .f32 || t == .bf16 || t == .f16
  | .vmvv _ _ _ _ => true
  | .vsetm _ _ _ => true
  | .vgetm _ _ _ => true
  | .vfma ty _ _ _ _ _ => ty.isFloat
  | .vfms ty _ _ _ _ _ => ty.isFloat
  | .vfnma ty _ _ _ _ _ => ty.isFloat
  | .vfnms ty _ _ _ _ _ => ty.isFloat
  | .vle _ _ _ _ => true
  | .vse _ _ _ _ => true
  | .vlds _ _ _ _ _ => true
  | .vsds _ _ _ _ _ => true
  | .vlx _ _ _ _ _ => true
  | .vsx _ _ _ _ _ => true
  | .rep _ _ _ _ => true
  | .qpush port _ _ => port.toNat ≤ 4
  | .qput port _ => port.toNat ≤ 4
  | .qpop _ port => port.toNat ≤ 4
  | .recv _ q => q.toNat ≤ 7
  | .peek _ q => q.toNat ≤ 7
  | .wait _ _ => true
  | .qmake q _ _ => 4 ≤ q.toNat && q.toNat ≤ 7
  | .qdrop q => 4 ≤ q.toNat && q.toNat ≤ 7
  | .send _ _ => true
  | .rput q _ _ => 4 ≤ q.toNat && q.toNat ≤ 7
  | .slook _ _ => true
  | .sinst _ _ => true
  | .sinv _ => true
  | .sclean _ => true
  | .mtcfg mt _ _ => mt.toNat ≤ 7
  | .mtpack _ mt _ => mt.toNat ≤ 7
  | .phaseC _ => true
  | .phaseO _ => true
  | .phaseCo _ => true
  | .sync _ => true
  | .hred _ _ _ => true
  | .emit _ _ => true
  | .taskDone => true
  | .acq _ _ => true
  | .acqTry _ _ => true
  | .rel _ => true
  | .claim _ => true
  | .ldS _ _ _ _ => true
  | .lwS _ _ _ _ => true
  | .sdS _ _ _ _ => true
  | .swS _ _ _ _ => true
  | .offer _ _ _ _ _ _ => true
  | .cread _ _ _ _ _ => true
  | .cwait _ _ _ _ _ => true
  | .cretire _ _ _ _ => true
  | .upret => true
  | .scall _ => true
  | .mprobe _ _ => true
  | .mhint _ _ => true
  | .launch _ _ => true
  | .frec _ _ _ => true
  | .monenter _ => true
  | .monleave => true
  | .monkey _ _ => true
  | .monseal _ _ => true
  | .illegalInstruction _ => true
  | .interruptEntry => true
  | .sTimer h => h < 4160
  | .mTimer h => h < 4160
  | .msip h _ => h < 4160
  | .ssip h _ => h < 4160
  | .sdReq h _ => h < 64
  | .shootdownDone h => h < 64
  | .fnPost h _ => h < 64
  | .scReply h _ => h < 64
  | .preReqPreempt h v => decide (h < 64) && v.extractLsb' 16 2 == 0
  | .preReqResume h v => decide (h < 64) && v.extractLsb' 16 2 == 1
  | .preReqKill h v => decide (h < 64) && v.extractLsb' 16 2 == 2
  | .rpGo c _ => c < 32
  | .batchCommit _ _ n => n < 64
  | .firmwareRelease _ => true
  | .recallDeadlineExpiry _ => true
  | .revocationCommit _ => true
  | .attReq _ => true
  | .attestationReportDone => true
  | .dbgStopNext h v => decide (h < 64) && v.extractLsb' 16 3 == 0
  | .dbgStopAt h v => decide (h < 64) && v.extractLsb' 16 3 == 1
  | .dbgRelease h v => decide (h < 64) && v.extractLsb' 16 3 == 2
  | .dbgImmediateStop h v => decide (h < 64) && v.extractLsb' 16 3 == 3
  | .dbgPair h v => decide (h < 64) && v.extractLsb' 16 3 == 4
  | .dbgUnpair h v => decide (h < 64) && v.extractLsb' 16 3 == 5
  | .rkctlGo h => h < 4160
  | .rotationComplete _ => true
  | .oldKeyRetire _ => true
  | .rotationRequest _ => true
  | .streamStop _ => true
  | .registerWrite _ _ size _ => (size == 4 || size == 8)
  | .mzero c => c.cmd == Command.codeMzero && c.by_.port ≤ 4
  | .mloadw c => c.cmd == Command.codeMloadw && c.by_.port ≤ 4
  | .mma c => c.cmd == Command.codeMma && c.by_.port ≤ 4
  | .mdrain c => c.cmd == Command.codeMdrain && c.by_.port ≤ 4
  | .mend c => c.cmd == Command.codeMend && c.by_.port ≤ 4
  | .cpy c => c.cmd == Command.codeCpy && c.by_.port ≤ 4
  | .cpyt c => c.cmd == Command.codeCpyt && c.by_.port ≤ 4
  | .fill c => c.cmd == Command.codeFill && c.by_.port ≤ 4
  | .sfill c => c.cmd == Command.codeSfill && c.by_.port ≤ 4
  | .sevict c => c.cmd == Command.codeSevict && c.by_.port ≤ 4
  | .pref c => c.cmd == Command.codePref && c.by_.port ≤ 4
  | .migr c => c.cmd == Command.codeMigr && c.by_.port ≤ 4
  | .gather c => c.cmd == Command.codeGather && c.by_.port ≤ 4
  | .scatter c => c.cmd == Command.codeScatter && c.by_.port ≤ 4
  | .ship c => c.cmd == Command.codeShip && c.by_.port ≤ 4
  | .tabload c => c.cmd == Command.codeTabload && c.by_.port ≤ 4
  | .callred c => c.cmd == Command.codeCallred && c.by_.port ≤ 4
  | .credsc c => c.cmd == Command.codeCredsc && c.by_.port ≤ 4
  | .callgath c => c.cmd == Command.codeCallgath && c.by_.port ≤ 4
  | .cbcast c => c.cmd == Command.codeCbcast && c.by_.port ≤ 4
  | .cxchg c => c.cmd == Command.codeCxchg && c.by_.port ≤ 4
  | .nsend c => c.cmd == Command.codeNsend && c.by_.port ≤ 4
  | .nwrite c => c.cmd == Command.codeNwrite && c.by_.port ≤ 4
  | .nread c => c.cmd == Command.codeNread && c.by_.port ≤ 4
  | .npost c => c.cmd == Command.codeNpost && c.by_.port ≤ 4
  | .commandCompletion _ _ _ _ => true
  | .migrRoundDone _ => true
  | .collectiveMatch _ _ _ _ => true
  | .nsendTimeout _ => true
  | .leaseGrant cluster => cluster < 64
  | .leaseIdleExpiry cluster => cluster < 64
  | .rampWindow cluster _ => cluster < 64
  | .intervalBoundary die _ _ => die < 4
  | .meterUpdate _ _ _ => true
  | .getSensorReading _ counter => counter < 14
  | .cwaitRetry h => h < 4160
  | .cellPurgeComplete _ => true
  | .acqGrant cluster => cluster < 64
  | .acqUrgent cluster => cluster < 64
  | .allowanceRequest _ _ _ => true
  | .allowanceGrant _ _ _ _ => true
  | .allowanceReturn _ _ _ => true
  | .allowanceReclaim _ _ => true
  | .queueEntryArrival _ _ _ _ => true
  | .wake h => h < 4160
  | .initialTasks _ => true
  | .taskPlacement _ => true
  | .affinityPatienceExpiry _ => true
  | .occupancySample _ => true
  | .partyRetire _ => true
  | .exchange _ => true
  | .headcountSweep _ => true
  | .launchEnd _ => true
  | .saveComplete _ => true
  | .restoreComplete _ => true
  | .saveDeadlineExpiry _ => true
  | .watchdogExpiry _ => true
  | .faultQueuePost => true
  | .joinStart h _ => h < 64
  | .joinTimeout h => h < 64
  | .networkPacketArrival _ => true
  | .peerMemoryRequest port _ => port < 8
  | .pcieLoadCompletion h _ => h < 4160
  | .pcieLoadTimeout h => h < 4160
  | .virtioNotification dev _ _ => dev < 3
  | .flitCrcFailure link => link < 32
  | .linkFailure link => link < 32
  | .linkRecovery link => link < 32
  | .laneFailure link => link < 32
  | .deviceLoss d _ _ => d < 128
  | .packageReset => true
  | .recoveryFetchRetry => true
  | .dhcpv6Retry => true
  | .announcementRetry => true
  | .alarm => true
  | .thermalFault _ => true
  | .portLinkDown p => p < 8
  | .portLinkUp p _ => p < 8
  | .deviceStatusWrite dev _ _ => dev < 3
  | .suspClear _ => true
  | .domainWindowAccess _ => true
  | .dhcpv6Reply _ _ => true
  | .recoveryImageReceived _ => true

/-- An instruction is well formed when its checks hold (R48, R52 to R58). -/
abbrev Instr.WellFormed (i : Instr) : Prop := i.wf = true

end Sys2Proof
end

