-- ==== Sys2Proof/Decode.lean ====
section
/-! DEFINITION. Decoding an instruction word (R48 to R59), rejecting by name, and encoding, written from the
same tables: the word is cut into the fields of the layouts of chapter 3, which `Fields.join` puts together
again. Also the CMD byte of a command word (Table 17-4). -/

namespace Sys2Proof

/-- Why a word names no instruction (R48). -/
inductive DecodeError where
  /-- fewer than four bytes -/
  | short
  /-- bits [1:0] are not 0b11 (R48) -/
  | compressed
  /-- an opcode Table 03-1 marks illegal -/
  | opcode
  /-- an unassigned funct value or element type -/
  | funct
  /-- a field that must be zero is not -/
  | zeroField
  /-- a register, queue, tile, scope or tag field outside its range -/
  | range
  deriving DecidableEq, Repr

/-- The bits of an instruction word: [31:28], [27:26], [25], [24:20], [19:15], [14:12], [11:7], [6:0] (R50, R53). -/
structure Fields where
  top : BitVec 4
  mid : BitVec 2
  b25 : BitVec 1
  b   : BitVec 5
  a   : BitVec 5
  f3  : BitVec 3
  d   : BitVec 5
  opc : BitVec 7
  deriving DecidableEq, Repr

/-- The fields of a word (R50, R53). -/
def Fields.split (w : BitVec 32) : Fields where
  top := w.extractLsb' 28 4
  mid := w.extractLsb' 26 2
  b25 := w.extractLsb' 25 1
  b   := w.extractLsb' 20 5
  a   := w.extractLsb' 15 5
  f3  := w.extractLsb' 12 3
  d   := w.extractLsb' 7 5
  opc := w.extractLsb' 0 7

/-- The word of the fields (R50, R53). -/
def Fields.join (f : Fields) : BitVec 32 :=
  f.top ++ f.mid ++ f.b25 ++ f.b ++ f.a ++ f.f3 ++ f.d ++ f.opc

/-- Bits [31:25] (R50). -/
def Fields.f7 (f : Fields) : BitVec 7 := f.top ++ f.mid ++ f.b25

/-- The I immediate (Table 03-3). -/
def Fields.immI (f : Fields) : BitVec 12 := f.top ++ f.mid ++ f.b25 ++ f.b
/-- The S immediate (Table 03-3). -/
def Fields.immS (f : Fields) : BitVec 12 := f.top ++ f.mid ++ f.b25 ++ f.d
/-- imm[12:1] of the B immediate (Table 03-3). -/
def Fields.immB (f : Fields) : BitVec 12 :=
  f.top.extractLsb' 3 1 ++ f.d.extractLsb' 0 1 ++ f.top.extractLsb' 0 3 ++ f.mid ++ f.b25 ++ f.d.extractLsb' 1 4
/-- Bits [31:12], the U immediate (Table 03-3). -/
def Fields.immU (f : Fields) : BitVec 20 := f.top ++ f.mid ++ f.b25 ++ f.b ++ f.a ++ f.f3
/-- imm[20:1] of the J immediate (Table 03-3). -/
def Fields.immJ (f : Fields) : BitVec 20 :=
  f.top.extractLsb' 3 1 ++ f.a ++ f.f3 ++ f.b.extractLsb' 0 1 ++ f.top.extractLsb' 0 3 ++ f.mid ++ f.b25 ++ f.b.extractLsb' 1 4
/-- The 10-bit offset of a strong load (R58). -/
def Fields.immL (f : Fields) : BitVec 10 := f.top ++ f.mid ++ f.b25 ++ f.b.extractLsb' 2 3
/-- The 10-bit offset of a strong store (R58). -/
def Fields.immSS (f : Fields) : BitVec 10 := f.top ++ f.mid.extractLsb' 1 1 ++ f.d
/-- The 9-bit unit offset of a vector memory instruction (R56). -/
def Fields.off9 (f : Fields) : BitVec 9 := f.top.extractLsb' 0 1 ++ f.mid ++ f.b25 ++ f.b

/-- Fields with the immediate in the I places. -/
def Fields.ofI (imm : BitVec 12) (a : BitVec 5) (f3 : BitVec 3) (d : BitVec 5) (opc : BitVec 7) : Fields :=
  ⟨imm.extractLsb' 8 4, imm.extractLsb' 6 2, imm.extractLsb' 5 1, imm.extractLsb' 0 5, a, f3, d, opc⟩
/-- Fields with the immediate in the S places. -/
def Fields.ofS (imm : BitVec 12) (b a : BitVec 5) (f3 : BitVec 3) (opc : BitVec 7) : Fields :=
  ⟨imm.extractLsb' 8 4, imm.extractLsb' 6 2, imm.extractLsb' 5 1, b, a, f3, imm.extractLsb' 0 5, opc⟩
/-- Fields with imm[12:1] in the B places. -/
def Fields.ofB (imm : BitVec 12) (b a : BitVec 5) (f3 : BitVec 3) (opc : BitVec 7) : Fields :=
  ⟨imm.extractLsb' 11 1 ++ imm.extractLsb' 7 3, imm.extractLsb' 5 2, imm.extractLsb' 4 1, b, a, f3,
    imm.extractLsb' 0 4 ++ imm.extractLsb' 10 1, opc⟩
/-- Fields with the immediate in the U places. -/
def Fields.ofU (imm : BitVec 20) (d : BitVec 5) (opc : BitVec 7) : Fields :=
  ⟨imm.extractLsb' 16 4, imm.extractLsb' 14 2, imm.extractLsb' 13 1, imm.extractLsb' 8 5, imm.extractLsb' 3 5,
    imm.extractLsb' 0 3, d, opc⟩
/-- Fields with imm[20:1] in the J places. -/
def Fields.ofJ (imm : BitVec 20) (d : BitVec 5) (opc : BitVec 7) : Fields :=
  ⟨imm.extractLsb' 19 1 ++ imm.extractLsb' 7 3, imm.extractLsb' 5 2, imm.extractLsb' 4 1,
    imm.extractLsb' 0 4 ++ imm.extractLsb' 10 1, imm.extractLsb' 14 5, imm.extractLsb' 11 3, d, opc⟩
/-- Fields of the R layout (R50). -/
def Fields.ofR (f7 : BitVec 7) (b a : BitVec 5) (f3 : BitVec 3) (d : BitVec 5) (opc : BitVec 7) : Fields :=
  ⟨f7.extractLsb' 3 4, f7.extractLsb' 1 2, f7.extractLsb' 0 1, b, a, f3, d, opc⟩

/-- A Bool as one bit. -/
def bit (c : Bool) : BitVec 1 := BitVec.ofBool c
/-- One bit as a Bool. -/
def isSet (v : BitVec 1) : Bool := v == 1#1

/-- Table 03-4. -/
def ETy.ofBits (v : BitVec 3) : ETy :=
  match v with
  | 0#3 => .f32 | 1#3 => .bf16 | 2#3 => .f16 | 3#3 => .f64
  | 4#3 => .i32 | 5#3 => .i16 | 6#3 => .i8 | 7#3 => .i64
/-- Table 03-4. -/
def ETy.bits : ETy → BitVec 3
  | .f32 => 0 | .bf16 => 1 | .f16 => 2 | .f64 => 3 | .i32 => 4 | .i16 => 5 | .i8 => 6 | .i64 => 7

/-- Table 02-2; the codes 13 to 15 name no tag (R31). -/
def Tag.ofBits? (v : BitVec 4) : Option Tag :=
  match v with
  | 0#4 => some .raw | 1#4 => some .f32 | 2#4 => some .bf16 | 3#4 => some .f16 | 4#4 => some .f64
  | 5#4 => some .i32 | 6#4 => some .i16 | 7#4 => some .i8 | 8#4 => some .i64
  | 9#4 => some .e4m3 | 10#4 => some .e5m2 | 11#4 => some .bx8p | 12#4 => some .bx4p
  | _ => none
/-- Table 02-2. -/
def Tag.bits : Tag → BitVec 4
  | .raw => 0 | .f32 => 1 | .bf16 => 2 | .f16 => 3 | .f64 => 4 | .i32 => 5 | .i16 => 6 | .i8 => 7
  | .i64 => 8 | .e4m3 => 9 | .e5m2 => 10 | .bx8p => 11 | .bx4p => 12

/-- R9, Table 08-1. -/
def Scope.ofBits (v : BitVec 2) : Scope :=
  match v with
  | 0#2 => .core | 1#2 => .group | 2#2 => .device | 3#2 => .system
/-- R9, Table 08-1. -/
def Scope.bits : Scope → BitVec 2
  | .core => 0 | .group => 1 | .device => 2 | .system => 3

/-- Table 09-1; codes 5 to 7 are illegal (R58). -/
def RedOp.ofBits? (v : BitVec 3) : Option RedOp :=
  match v with
  | 0#3 => some .sum | 1#3 => some .min | 2#3 => some .max | 3#3 => some .and | 4#3 => some .or
  | _ => none
/-- Table 09-1. -/
def RedOp.bits : RedOp → BitVec 3
  | .sum => 0 | .min => 1 | .max => 2 | .and => 3 | .or => 4

/-- `i` when the condition holds, else the reason the word is illegal. -/
def need (c : Bool) (e : DecodeError) (i : Instr) : Except DecodeError Instr := if c then .ok i else .error e

/-- `i` when it is well formed, else illegal for a value outside its range (R48, R52). -/
def ranged (i : Instr) : Except DecodeError Instr := need i.wf .range i

/-- LOAD (Table 04-6). -/
def decodeLoad (f : Fields) : Except DecodeError Instr :=
  match f.f3 with
  | 0#3 => .ok (.lb f.d f.a f.immI)
  | 1#3 => .ok (.lh f.d f.a f.immI)
  | 2#3 => .ok (.lw f.d f.a f.immI)
  | 3#3 => .ok (.ld f.d f.a f.immI)
  | 4#3 => .ok (.lbu f.d f.a f.immI)
  | 5#3 => .ok (.lhu f.d f.a f.immI)
  | 6#3 => .ok (.lwu f.d f.a f.immI)
  | _ => .error .funct

/-- STORE (Table 04-6). -/
def decodeStore (f : Fields) : Except DecodeError Instr :=
  match f.f3 with
  | 0#3 => .ok (.sb f.a f.b f.immS)
  | 1#3 => .ok (.sh f.a f.b f.immS)
  | 2#3 => .ok (.sw f.a f.b f.immS)
  | 3#3 => .ok (.sd f.a f.b f.immS)
  | _ => .error .funct

/-- BRANCH (Table 04-5). -/
def decodeBranch (f : Fields) : Except DecodeError Instr :=
  match f.f3 with
  | 0#3 => .ok (.beq f.a f.b f.immB)
  | 1#3 => .ok (.bne f.a f.b f.immB)
  | 4#3 => .ok (.blt f.a f.b f.immB)
  | 5#3 => .ok (.bge f.a f.b f.immB)
  | 6#3 => .ok (.bltu f.a f.b f.immB)
  | 7#3 => .ok (.bgeu f.a f.b f.immB)
  | _ => .error .funct

/-- OP-IMM (Table 04-2, R51). -/
def decodeOpImm (f : Fields) : Except DecodeError Instr :=
  match f.f3 with
  | 0#3 => .ok (.addi f.d f.a f.immI)
  | 1#3 => need (f.top == 0 && f.mid == 0) .funct (.slli f.d f.a (f.b25 ++ f.b))
  | 2#3 => .ok (.slti f.d f.a f.immI)
  | 3#3 => .ok (.sltiu f.d f.a f.immI)
  | 4#3 => .ok (.xori f.d f.a f.immI)
  | 5#3 => if f.top == 4 then need (f.mid == 0) .funct (.srai f.d f.a (f.b25 ++ f.b))
    else need (f.top == 0 && f.mid == 0) .funct (.srli f.d f.a (f.b25 ++ f.b))
  | 6#3 => .ok (.ori f.d f.a f.immI)
  | 7#3 => .ok (.andi f.d f.a f.immI)

/-- OP-IMM-32 (Table 04-2, R51). -/
def decodeOpImm32 (f : Fields) : Except DecodeError Instr :=
  match f.f3 with
  | 0#3 => .ok (.addiw f.d f.a f.immI)
  | 1#3 => need (f.f7 == 0) .funct (.slliw f.d f.a f.b)
  | 5#3 => if f.f7 == 32 then .ok (.sraiw f.d f.a f.b) else need (f.f7 == 0) .funct (.srliw f.d f.a f.b)
  | _ => .error .funct

/-- OP (Tables 04-1 and 04-3). -/
def decodeOp (f : Fields) : Except DecodeError Instr :=
  match f.top, f.mid, f.b25, f.f3 with
  | 0#4, 0#2, 0#1, 0#3 => .ok (.add f.d f.a f.b)
  | 4#4, 0#2, 0#1, 0#3 => .ok (.sub f.d f.a f.b)
  | 0#4, 0#2, 0#1, 1#3 => .ok (.sll f.d f.a f.b)
  | 0#4, 0#2, 0#1, 2#3 => .ok (.slt f.d f.a f.b)
  | 0#4, 0#2, 0#1, 3#3 => .ok (.sltu f.d f.a f.b)
  | 0#4, 0#2, 0#1, 4#3 => .ok (.xor f.d f.a f.b)
  | 0#4, 0#2, 0#1, 5#3 => .ok (.srl f.d f.a f.b)
  | 4#4, 0#2, 0#1, 5#3 => .ok (.sra f.d f.a f.b)
  | 0#4, 0#2, 0#1, 6#3 => .ok (.or f.d f.a f.b)
  | 0#4, 0#2, 0#1, 7#3 => .ok (.and f.d f.a f.b)
  | 0#4, 0#2, 1#1, 0#3 => .ok (.mul f.d f.a f.b)
  | 0#4, 0#2, 1#1, 1#3 => .ok (.mulh f.d f.a f.b)
  | 0#4, 0#2, 1#1, 2#3 => .ok (.mulhsu f.d f.a f.b)
  | 0#4, 0#2, 1#1, 3#3 => .ok (.mulhu f.d f.a f.b)
  | 0#4, 0#2, 1#1, 4#3 => .ok (.div f.d f.a f.b)
  | 0#4, 0#2, 1#1, 5#3 => .ok (.divu f.d f.a f.b)
  | 0#4, 0#2, 1#1, 6#3 => .ok (.rem f.d f.a f.b)
  | 0#4, 0#2, 1#1, 7#3 => .ok (.remu f.d f.a f.b)
  | _, _, _, _ => .error .funct

/-- OP-32 (Tables 04-1 and 04-3). -/
def decodeOp32 (f : Fields) : Except DecodeError Instr :=
  match f.top, f.mid, f.b25, f.f3 with
  | 0#4, 0#2, 0#1, 0#3 => .ok (.addw f.d f.a f.b)
  | 4#4, 0#2, 0#1, 0#3 => .ok (.subw f.d f.a f.b)
  | 0#4, 0#2, 0#1, 1#3 => .ok (.sllw f.d f.a f.b)
  | 0#4, 0#2, 0#1, 5#3 => .ok (.srlw f.d f.a f.b)
  | 4#4, 0#2, 0#1, 5#3 => .ok (.sraw f.d f.a f.b)
  | 0#4, 0#2, 1#1, 0#3 => .ok (.mulw f.d f.a f.b)
  | 0#4, 0#2, 1#1, 4#3 => .ok (.divw f.d f.a f.b)
  | 0#4, 0#2, 1#1, 5#3 => .ok (.divuw f.d f.a f.b)
  | 0#4, 0#2, 1#1, 6#3 => .ok (.remw f.d f.a f.b)
  | 0#4, 0#2, 1#1, 7#3 => .ok (.remuw f.d f.a f.b)
  | _, _, _, _ => .error .funct

/-- AMO (R51, Table 04-8). -/
def decodeAmo (f : Fields) : Except DecodeError Instr :=
  let aq := isSet (f.mid.extractLsb' 0 1)
  let rl := isSet f.b25
  match f.top, f.mid.extractLsb' 1 1, f.f3 with
  | 0#4, 1#1, 2#3 => .ok (.amoswapW f.d f.a f.b aq rl)
  | 0#4, 1#1, 3#3 => .ok (.amoswapD f.d f.a f.b aq rl)
  | 0#4, 0#1, 2#3 => .ok (.amoaddW f.d f.a f.b aq rl)
  | 0#4, 0#1, 3#3 => .ok (.amoaddD f.d f.a f.b aq rl)
  | 2#4, 0#1, 2#3 => .ok (.amoxorW f.d f.a f.b aq rl)
  | 2#4, 0#1, 3#3 => .ok (.amoxorD f.d f.a f.b aq rl)
  | 6#4, 0#1, 2#3 => .ok (.amoandW f.d f.a f.b aq rl)
  | 6#4, 0#1, 3#3 => .ok (.amoandD f.d f.a f.b aq rl)
  | 4#4, 0#1, 2#3 => .ok (.amoorW f.d f.a f.b aq rl)
  | 4#4, 0#1, 3#3 => .ok (.amoorD f.d f.a f.b aq rl)
  | 8#4, 0#1, 2#3 => .ok (.amominW f.d f.a f.b aq rl)
  | 8#4, 0#1, 3#3 => .ok (.amominD f.d f.a f.b aq rl)
  | 10#4, 0#1, 2#3 => .ok (.amomaxW f.d f.a f.b aq rl)
  | 10#4, 0#1, 3#3 => .ok (.amomaxD f.d f.a f.b aq rl)
  | 12#4, 0#1, 2#3 => .ok (.amominuW f.d f.a f.b aq rl)
  | 12#4, 0#1, 3#3 => .ok (.amominuD f.d f.a f.b aq rl)
  | 14#4, 0#1, 2#3 => .ok (.amomaxuW f.d f.a f.b aq rl)
  | 14#4, 0#1, 3#3 => .ok (.amomaxuD f.d f.a f.b aq rl)
  | _, _, _ => .error .funct

/-- MISC-MEM (R51). -/
def decodeMiscMem (f : Fields) : Except DecodeError Instr :=
  match f.f3 with
  | 0#3 => .ok (.fence f.top (f.mid ++ f.b25 ++ f.b.extractLsb' 4 1) (f.b.extractLsb' 0 4) f.a f.d)
  | 1#3 => need (f.f7 == 0 && f.b == 0 && f.a == 0 && f.d == 0) .zeroField .fenceI
  | _ => .error .funct

/-- SYSTEM (R51): the five whole words, and the Zicsr instructions. -/
def decodeSystem (f : Fields) : Except DecodeError Instr :=
  match f.f3 with
  | 0#3 =>
    if f.a == 0 && f.d == 0 then
      if f.f7 == 0 && f.b == 0 then .ok .ecall
      else if f.f7 == 0 && f.b == 1 then .ok .ebreak
      else if f.f7 == 8 && f.b == 2 then .ok .sret
      else if f.f7 == 24 && f.b == 2 then .ok .mret
      else if f.f7 == 8 && f.b == 5 then .ok .wfi
      else .error .funct
    else .error .funct
  | 1#3 => .ok (.csrrw f.d f.immI f.a)
  | 2#3 => .ok (.csrrs f.d f.immI f.a)
  | 3#3 => .ok (.csrrc f.d f.immI f.a)
  | 5#3 => .ok (.csrrwi f.d f.immI f.a)
  | 6#3 => .ok (.csrrsi f.d f.immI f.a)
  | 7#3 => .ok (.csrrci f.d f.immI f.a)
  | _ => .error .funct

/-- VA (Table 03-5). -/
def decodeVA (f : Fields) : Except DecodeError Instr :=
  let ty := ETy.ofBits f.f3
  let m := isSet f.b25
  match f.top with
  | 0#4 => ranged (.vadd ty f.d f.a f.b m f.mid)
  | 1#4 => ranged (.vsub ty f.d f.a f.b m f.mid)
  | 2#4 => ranged (.vmul ty f.d f.a f.b m f.mid)
  | 3#4 => ranged (.vdiv ty f.d f.a f.b m f.mid)
  | 4#4 => ranged (.vmin ty f.d f.a f.b m f.mid)
  | 5#4 => ranged (.vmax ty f.d f.a f.b m f.mid)
  | 6#4 => if f.b == 0 then ranged (.vabs ty f.d f.a m f.mid) else .error .zeroField
  | 7#4 => if f.b == 0 then ranged (.vneg ty f.d f.a m f.mid) else .error .zeroField
  | 8#4 => if f.b == 0 then ranged (.vsqrt ty f.d f.a m f.mid) else .error .zeroField
  | 9#4 => if f.b == 0 then ranged (.vrecip ty f.d f.a m f.mid) else .error .zeroField
  | 10#4 => if f.b == 0 then ranged (.vrsqrt ty f.d f.a m f.mid) else .error .zeroField
  | 11#4 => if f.b == 0 then ranged (.vexp2 ty f.d f.a m f.mid) else .error .zeroField
  | 12#4 => if f.b == 0 then ranged (.vlog2 ty f.d f.a m f.mid) else .error .zeroField
  | 13#4 => ranged (.vadds ty f.d f.a f.b m f.mid)
  | 14#4 => ranged (.vsubs ty f.d f.a f.b m f.mid)
  | _ => ranged (.vmulh ty f.d f.a f.b m f.mid)

/-- VB op 13, the format instructions (Table 03-6). -/
def decodeVFormat (f : Fields) : Except DecodeError Instr :=
  let m := isSet f.b25
  if f.b.extractLsb' 4 1 != 0 then .error .zeroField
  else match f.f3, Tag.ofBits? (f.b.extractLsb' 0 4) with
  | 0#3, some t => ranged (.vcvt f.d f.a t m f.mid)
  | 1#3, some t => if m then .error .zeroField else .ok (.vretag f.d f.a t f.mid)
  | 2#3, some t => if m then .error .zeroField else need (t == .raw) .zeroField (.vtag f.d f.a f.mid)
  | 3#3, some t => if m then .error .zeroField else ranged (.vqnt f.d f.a t f.mid)
  | 4#3, some t => if m then .error .zeroField else ranged (.vdeq f.d f.a t f.mid)
  | _, none => .error .range
  | _, _ => .error .funct

/-- VB (Table 03-6). `vcvt` to a BX tag with m = 1 is illegal (R123). -/
def decodeVB (f : Fields) : Except DecodeError Instr :=
  let ty := ETy.ofBits f.f3
  let m := isSet f.b25
  match f.top with
  | 0#4 => match f.f3 with
    | 0#3 => .ok (.vand f.d f.a f.b m f.mid)
    | 1#3 => .ok (.vor f.d f.a f.b m f.mid)
    | 2#3 => .ok (.vxor f.d f.a f.b m f.mid)
    | _ => .error .funct
  | 1#4 => ranged (.vsll ty f.d f.a f.b m f.mid)
  | 2#4 => ranged (.vsrl ty f.d f.a f.b m f.mid)
  | 3#4 => ranged (.vsra ty f.d f.a f.b m f.mid)
  | 4#4 => match f.d with
    | 0#5 => .ok (.vcmpeq ty f.a f.b m f.mid)
    | 1#5 => .ok (.vcmplt ty f.a f.b m f.mid)
    | 2#5 => .ok (.vcmple ty f.a f.b m f.mid)
    | _ => .error .funct
  | 5#4 => .ok (.vsel ty f.d f.a f.b m f.mid)
  | 6#4 => .ok (.vperm ty f.d f.a f.b m f.mid)
  | 7#4 => .ok (.vslide ty f.d f.a f.b m f.mid)
  | 8#4 => need (f.b == 0) .zeroField (.vbcast ty f.d f.a m f.mid)
  | 9#4 => need (!m) .zeroField (.vmvx ty f.d f.a f.b f.mid)
  | 10#4 => if f.b == 0 && f.a == 0 then ranged (.vid ty f.d m f.mid) else .error .zeroField
  | 11#4 => match f.b with
    | 0#5 => .ok (.vredsum ty f.d f.a m f.mid)
    | 1#5 => .ok (.vredmax ty f.d f.a m f.mid)
    | 2#5 => .ok (.vredmin ty f.d f.a m f.mid)
    | _ => .error .funct
  | 12#4 => .ok (.vdot ty f.d f.a f.b m f.mid)
  | 13#4 => decodeVFormat f
  | 14#4 => if f.f3 == 0 then need (f.b == 0) .zeroField (.vmvv f.d f.a m f.mid) else .error .funct
  | _ => match f.b with
    | 0#5 => need (!m && f.d == 0) .zeroField (.vsetm ty f.a f.mid)
    | 1#5 => need (!m && f.a == 0) .zeroField (.vgetm ty f.d f.mid)
    | _ => .error .funct

/-- Vector loads (R56). -/
def decodeVLoad (f : Fields) : Except DecodeError Instr :=
  let ty := ETy.ofBits f.f3
  match f.top.extractLsb' 1 3 with
  | 0#3 => .ok (.vle ty f.d f.a f.off9)
  | 1#3 => need (f.top.extractLsb' 0 1 == 0 && f.mid == 0) .zeroField (.vlds ty f.d f.a f.b (isSet f.b25))
  | 2#3 => need (f.top.extractLsb' 0 1 == 0 && f.mid == 0) .zeroField (.vlx ty f.d f.a f.b (isSet f.b25))
  | _ => .error .funct

/-- Vector stores (R56). -/
def decodeVStore (f : Fields) : Except DecodeError Instr :=
  let ty := ETy.ofBits f.f3
  match f.top.extractLsb' 1 3 with
  | 0#3 => .ok (.vse ty f.d f.a f.off9)
  | 1#3 => need (f.top.extractLsb' 0 1 == 0 && f.mid == 0) .zeroField (.vsds ty f.d f.a f.b (isSet f.b25))
  | 2#3 => need (f.top.extractLsb' 0 1 == 0 && f.mid == 0) .zeroField (.vsx ty f.d f.a f.b (isSet f.b25))
  | _ => .error .funct

/-- QM (Table 03-7, R41). -/
def decodeQM (f : Fields) : Except DecodeError Instr :=
  match f.f3 with
  | 0#3 =>
    match f.top, f.mid, f.b25 with
    | 0#4, 0#2, h => if f.d == 0 then ranged (.qpush f.b f.a (isSet h)) else .error .zeroField
    | 0#4, 1#2, 0#1 => if f.d == 0 then ranged (.qput f.b f.a) else .error .zeroField
    | 0#4, 2#2, 0#1 => if f.a == 0 then ranged (.qpop f.d f.b) else .error .zeroField
    | _, _, _ => .error .funct
  | 1#3 =>
    match f.top, f.mid, f.b25 with
    | 0#4, 0#2, 0#1 => if f.a == 0 then ranged (.recv f.d f.b) else .error .zeroField
    | 0#4, 0#2, 1#1 => if f.a == 0 then ranged (.peek f.d f.b) else .error .zeroField
    | 0#4, 1#2, 0#1 => need (f.b == 0) .zeroField (.wait f.d f.a)
    | 0#4, 1#2, 1#1 => ranged (.qmake f.d f.a f.b)
    | 0#4, 2#2, 0#1 => if f.a == 0 && f.b == 0 then ranged (.qdrop f.d) else .error .zeroField
    | _, _, _ => .error .funct
  | 2#3 =>
    match f.top, f.mid, f.b25 with
    | 0#4, 0#2, 0#1 => need (f.d == 0) .zeroField (.send f.a f.b)
    | 0#4, 0#2, 1#1 => ranged (.rput f.d f.a f.b)
    | _, _, _ => .error .funct
  | 3#3 =>
    match f.top, f.mid, f.b25 with
    | 0#4, 0#2, 0#1 => need (f.b == 0) .zeroField (.slook f.d f.a)
    | 0#4, 0#2, 1#1 => need (f.d == 0) .zeroField (.sinst f.a f.b)
    | 0#4, 1#2, 0#1 => need (f.b == 0 && f.d == 0) .zeroField (.sinv f.a)
    | 0#4, 1#2, 1#1 => need (f.b == 0 && f.d == 0) .zeroField (.sclean f.a)
    | _, _, _ => .error .funct
  | 4#3 =>
    match f.top, f.mid, f.b25 with
    | 0#4, 0#2, 0#1 => ranged (.mtcfg f.d f.a f.b)
    | 0#4, 1#2, h => if f.b == 0 then ranged (.mtpack f.d f.a (isSet h)) else .error .zeroField
    | _, _, _ => .error .funct
  | 7#3 => need (f.mid == 0 && f.b25 == 0) .funct (.rep f.top f.a f.b f.d)
  | _ => .error .funct

/-- SY (R58). -/
def decodeSY (f : Fields) : Except DecodeError Instr :=
  let s := Scope.ofBits (f.b.extractLsb' 0 2)
  match f.f3 with
  | 0#3 =>
    match f.top, f.mid, f.b25 with
    | 0#4, 0#2, 0#1 => need (f.b.extractLsb' 2 3 == 0 && f.a == 0 && f.d == 0) .zeroField (.phaseC s)
    | 0#4, 0#2, 1#1 => need (f.b.extractLsb' 2 3 == 0 && f.a == 0 && f.d == 0) .zeroField (.phaseO s)
    | 0#4, 1#2, 0#1 => need (f.b.extractLsb' 2 3 == 0 && f.a == 0 && f.d == 0) .zeroField (.phaseCo s)
    | 0#4, 1#2, 1#1 => need (f.b == 0 && f.a == 0) .zeroField (.sync f.d)
    | 0#4, 2#2, 0#1 =>
      if f.b.extractLsb' 3 2 == 0 then
        match RedOp.ofBits? (f.b.extractLsb' 0 3) with
        | some o => .ok (.hred f.d f.a o)
        | none => .error .range
      else .error .zeroField
    | 0#4, 2#2, 1#1 => need (f.d == 0) .zeroField (.emit f.b f.a)
    | 0#4, 3#2, 0#1 => need (f.b == 0 && f.a == 0 && f.d == 0) .zeroField .taskDone
    | _, _, _ => .error .funct
  | 1#3 => .ok (.ldS f.d f.a f.immL s)
  | 2#3 => .ok (.lwS f.d f.a f.immL s)
  | 3#3 => .ok (.sdS f.a f.b f.immSS (Scope.ofBits (f.mid.extractLsb' 0 1 ++ f.b25)))
  | 4#3 => .ok (.swS f.a f.b f.immSS (Scope.ofBits (f.mid.extractLsb' 0 1 ++ f.b25)))
  | 5#3 =>
    match f.top, f.mid, f.b25 with
    | 0#4, 0#2, 0#1 => need (f.b == 0) .zeroField (.acq f.d f.a)
    | 0#4, 0#2, 1#1 => need (f.b == 0) .zeroField (.acqTry f.d f.a)
    | 0#4, 1#2, 0#1 => need (f.b == 0 && f.d == 0) .zeroField (.rel f.a)
    | 0#4, 1#2, 1#1 => need (f.b == 0 && f.d == 0) .zeroField (.claim f.a)
    | _, _, _ => .error .funct
  | _ => .error .funct

/-- CELL (R55, R190): [31:27] is rs3, [26:25] the operation, [14] zero, [13] aq, [12] rl. -/
def decodeCell (f : Fields) : Except DecodeError Instr :=
  let rs3 := f.top ++ f.mid.extractLsb' 1 1
  let aq := isSet (f.f3.extractLsb' 1 1)
  let rl := isSet (f.f3.extractLsb' 0 1)
  if f.f3.extractLsb' 2 1 != 0 then .error .zeroField
  else match f.mid.extractLsb' 0 1, f.b25 with
  | 0#1, 0#1 => .ok (.offer f.d f.a f.b rs3 aq rl)
  | 0#1, 1#1 => need (rs3 == 0) .zeroField (.cread f.d f.a f.b aq rl)
  | 1#1, 0#1 => need (rs3 == 0) .zeroField (.cwait f.d f.a f.b aq rl)
  | 1#1, 1#1 => need (rs3 == 0 && f.d == 0) .zeroField (.cretire f.a f.b aq rl)

/-- SYS (R59). -/
def decodeSys (f : Fields) : Except DecodeError Instr :=
  match f.f3, f.top, f.mid, f.b25 with
  | 0#3, 0#4, 0#2, 0#1 => need (f.b == 0 && f.a == 0 && f.d == 0) .zeroField .upret
  | 0#3, 0#4, 0#2, 1#1 => need (f.b == 0 && f.d == 0) .zeroField (.scall f.a)
  | 0#3, 0#4, 1#2, 0#1 => need (f.b == 0) .zeroField (.mprobe f.d f.a)
  | 0#3, 0#4, 1#2, 1#1 => need (f.d == 0) .zeroField (.mhint f.a f.b)
  | 1#3, 0#4, 0#2, 0#1 => need (f.b == 0) .zeroField (.launch f.d f.a)
  | 1#3, 0#4, 0#2, 1#1 => .ok (.frec f.d f.a f.b)
  | 2#3, 0#4, 0#2, 0#1 => need (f.b == 0 && f.d == 0) .zeroField (.monenter f.a)
  | 2#3, 0#4, 0#2, 1#1 => need (f.b == 0 && f.a == 0 && f.d == 0) .zeroField .monleave
  | 2#3, 0#4, 1#2, 0#1 => need (f.d == 0) .zeroField (.monkey f.a f.b)
  | 2#3, 0#4, 1#2, 1#1 => need (f.d == 0) .zeroField (.monseal f.a f.b)
  | _, _, _, _ => .error .funct

/-- The FMA family (R55): [31:27] is rs3, [26:25] the stall count. -/
def decodeFma (k : ETy → VReg → VReg → VReg → VReg → BitVec 2 → Instr) (f : Fields) : Except DecodeError Instr :=
  ranged (k (ETy.ofBits f.f3) f.d f.a f.b (f.top ++ f.mid.extractLsb' 1 1) (f.mid.extractLsb' 0 1 ++ f.b25))

/-- One word's fields, by the major opcode (Table 03-1). -/
def decodeFields (f : Fields) : Except DecodeError Instr :=
  match f.opc with
  | 0x03#7 => decodeLoad f
  | 0x07#7 => decodeVLoad f
  | 0x0B#7 => decodeQM f
  | 0x0F#7 => decodeMiscMem f
  | 0x13#7 => decodeOpImm f
  | 0x17#7 => .ok (.auipc f.d f.immU)
  | 0x1B#7 => decodeOpImm32 f
  | 0x23#7 => decodeStore f
  | 0x27#7 => decodeVStore f
  | 0x2B#7 => decodeSY f
  | 0x2F#7 => decodeAmo f
  | 0x33#7 => decodeOp f
  | 0x37#7 => .ok (.lui f.d f.immU)
  | 0x3B#7 => decodeOp32 f
  | 0x43#7 => decodeFma .vfma f
  | 0x47#7 => decodeFma .vfms f
  | 0x4B#7 => decodeFma .vfnma f
  | 0x4F#7 => decodeFma .vfnms f
  | 0x57#7 => decodeVA f
  | 0x5B#7 => decodeCell f
  | 0x63#7 => decodeBranch f
  | 0x67#7 => need (f.f3 == 0) .funct (.jalr f.d f.a f.immI)
  | 0x6F#7 => .ok (.jal f.d f.immJ)
  | 0x73#7 => decodeSystem f
  | 0x77#7 => decodeVB f
  | 0x7B#7 => decodeSys f
  | _ => if f.opc.extractLsb' 0 2 == 3 then .error .opcode else .error .compressed

/-- The instruction a 32-bit word names, or why it names none (R48). -/
def decodeWord (w : BitVec 32) : Except DecodeError Instr := decodeFields (Fields.split w)

/-- A 32-bit word of four bytes, the first the least significant (R8). -/
def wordOfBytes (b0 b1 b2 b3 : Byte) : BitVec 32 := b3 ++ b2 ++ b1 ++ b0

/-- Decode the instruction at the head of the bytes: it and the bytes that follow (R48). -/
def decode (bs : List Byte) : Except DecodeError (Instr × List Byte) :=
  match bs with
  | b0 :: b1 :: b2 :: b3 :: rest =>
    match decodeWord (wordOfBytes b0 b1 b2 b3) with
    | .ok i => .ok (i, rest)
    | .error e => .error e
  | _ => .error .short

/-- The bytes of a word as memory holds them (R8). -/
def bytesOfWord (w : BitVec 32) : List Byte :=
  [w.extractLsb' 0 8, w.extractLsb' 8 8, w.extractLsb' 16 8, w.extractLsb' 24 8]

/-- The instruction the decoder reads from an instruction whose bits, numbered as the opcode table numbers
them, are `w`. Every instruction is one 32-bit word, so bits at or above 32 play no part. -/
def decodeTableWord (nbits w : Nat) : Option Instr :=
  match decode (bytesOfWord (BitVec.ofNat 32 (w % 2 ^ nbits))) with
  | .ok (i, _) => some i
  | .error _ => none

/-- Fields of VA, VB and vector memory words (R53, R56). -/
def Fields.ofV (op : BitVec 4) (w : BitVec 2) (m : Bool) (b a : BitVec 5) (f3 : BitVec 3) (d : BitVec 5) (opc : BitVec 7) : Fields :=
  ⟨op, w, bit m, b, a, f3, d, opc⟩

/-- Fields of the four-register format (R55). -/
def Fields.of4 (c : BitVec 5) (sub : BitVec 2) (b a : BitVec 5) (f3 : BitVec 3) (d : BitVec 5) (opc : BitVec 7) : Fields :=
  ⟨c.extractLsb' 1 4, c.extractLsb' 0 1 ++ sub.extractLsb' 1 1, sub.extractLsb' 0 1, b, a, f3, d, opc⟩

/-- Fields of an AMO (R51). -/
def Fields.ofAmo (f5 : BitVec 5) (aq rl : Bool) (b a : BitVec 5) (f3 : BitVec 3) (d : BitVec 5) : Fields :=
  ⟨f5.extractLsb' 1 4, f5.extractLsb' 0 1 ++ bit aq, bit rl, b, a, f3, d, 0x2F⟩

/-- Fields of `vle` and `vse` (R56): mode 000 and the 9-bit offset. -/
def Fields.ofUnit (off : BitVec 9) (a : BitVec 5) (f3 : BitVec 3) (d : BitVec 5) (opc : BitVec 7) : Fields :=
  ⟨0#3 ++ off.extractLsb' 8 1, off.extractLsb' 6 2, off.extractLsb' 5 1, off.extractLsb' 0 5, a, f3, d, opc⟩

/-- Fields of a strong load (R58). -/
def Fields.ofStrongLoad (imm : BitVec 10) (s : Scope) (a : BitVec 5) (f3 : BitVec 3) (d : BitVec 5) : Fields :=
  ⟨imm.extractLsb' 6 4, imm.extractLsb' 4 2, imm.extractLsb' 3 1, imm.extractLsb' 0 3 ++ s.bits, a, f3, d, 0x2B⟩

/-- Fields of a strong store (R58). -/
def Fields.ofStrongStore (imm : BitVec 10) (s : Scope) (b a : BitVec 5) (f3 : BitVec 3) : Fields :=
  ⟨imm.extractLsb' 6 4, imm.extractLsb' 5 1 ++ s.bits.extractLsb' 1 1, s.bits.extractLsb' 0 1, b, a, f3, imm.extractLsb' 0 5, 0x2B⟩

/-- The fields of an instruction's word, from the tables of chapter 3; the commands and events have no word. -/
def encodeFields : Instr → Option Fields
  | .lui rd imm => some (.ofU imm rd 0x37)
  | .auipc rd imm => some (.ofU imm rd 0x17)
  | .jal rd imm => some (.ofJ imm rd 0x6F)
  | .jalr rd rs1 imm => some (.ofI imm rs1 0 rd 0x67)
  | .beq rs1 rs2 imm => some (.ofB imm rs2 rs1 0 0x63)
  | .bne rs1 rs2 imm => some (.ofB imm rs2 rs1 1 0x63)
  | .blt rs1 rs2 imm => some (.ofB imm rs2 rs1 4 0x63)
  | .bge rs1 rs2 imm => some (.ofB imm rs2 rs1 5 0x63)
  | .bltu rs1 rs2 imm => some (.ofB imm rs2 rs1 6 0x63)
  | .bgeu rs1 rs2 imm => some (.ofB imm rs2 rs1 7 0x63)
  | .lb rd rs1 imm => some (.ofI imm rs1 0 rd 0x03)
  | .lh rd rs1 imm => some (.ofI imm rs1 1 rd 0x03)
  | .lw rd rs1 imm => some (.ofI imm rs1 2 rd 0x03)
  | .ld rd rs1 imm => some (.ofI imm rs1 3 rd 0x03)
  | .lbu rd rs1 imm => some (.ofI imm rs1 4 rd 0x03)
  | .lhu rd rs1 imm => some (.ofI imm rs1 5 rd 0x03)
  | .lwu rd rs1 imm => some (.ofI imm rs1 6 rd 0x03)
  | .sb rs1 rs2 imm => some (.ofS imm rs2 rs1 0 0x23)
  | .sh rs1 rs2 imm => some (.ofS imm rs2 rs1 1 0x23)
  | .sw rs1 rs2 imm => some (.ofS imm rs2 rs1 2 0x23)
  | .sd rs1 rs2 imm => some (.ofS imm rs2 rs1 3 0x23)
  | .addi rd rs1 imm => some (.ofI imm rs1 0 rd 0x13)
  | .slti rd rs1 imm => some (.ofI imm rs1 2 rd 0x13)
  | .sltiu rd rs1 imm => some (.ofI imm rs1 3 rd 0x13)
  | .xori rd rs1 imm => some (.ofI imm rs1 4 rd 0x13)
  | .ori rd rs1 imm => some (.ofI imm rs1 6 rd 0x13)
  | .andi rd rs1 imm => some (.ofI imm rs1 7 rd 0x13)
  | .slli rd rs1 shamt => some (⟨0, 0, shamt.extractLsb' 5 1, shamt.extractLsb' 0 5, rs1, 1, rd, 0x13⟩)
  | .srli rd rs1 shamt => some (⟨0, 0, shamt.extractLsb' 5 1, shamt.extractLsb' 0 5, rs1, 5, rd, 0x13⟩)
  | .srai rd rs1 shamt => some (⟨4, 0, shamt.extractLsb' 5 1, shamt.extractLsb' 0 5, rs1, 5, rd, 0x13⟩)
  | .add rd rs1 rs2 => some (.ofR 0 rs2 rs1 0 rd 0x33)
  | .sub rd rs1 rs2 => some (.ofR 32 rs2 rs1 0 rd 0x33)
  | .sll rd rs1 rs2 => some (.ofR 0 rs2 rs1 1 rd 0x33)
  | .slt rd rs1 rs2 => some (.ofR 0 rs2 rs1 2 rd 0x33)
  | .sltu rd rs1 rs2 => some (.ofR 0 rs2 rs1 3 rd 0x33)
  | .xor rd rs1 rs2 => some (.ofR 0 rs2 rs1 4 rd 0x33)
  | .srl rd rs1 rs2 => some (.ofR 0 rs2 rs1 5 rd 0x33)
  | .sra rd rs1 rs2 => some (.ofR 32 rs2 rs1 5 rd 0x33)
  | .or rd rs1 rs2 => some (.ofR 0 rs2 rs1 6 rd 0x33)
  | .and rd rs1 rs2 => some (.ofR 0 rs2 rs1 7 rd 0x33)
  | .addiw rd rs1 imm => some (.ofI imm rs1 0 rd 0x1B)
  | .slliw rd rs1 shamt => some (.ofR 0 shamt rs1 1 rd 0x1B)
  | .srliw rd rs1 shamt => some (.ofR 0 shamt rs1 5 rd 0x1B)
  | .sraiw rd rs1 shamt => some (.ofR 32 shamt rs1 5 rd 0x1B)
  | .addw rd rs1 rs2 => some (.ofR 0 rs2 rs1 0 rd 0x3B)
  | .subw rd rs1 rs2 => some (.ofR 32 rs2 rs1 0 rd 0x3B)
  | .sllw rd rs1 rs2 => some (.ofR 0 rs2 rs1 1 rd 0x3B)
  | .srlw rd rs1 rs2 => some (.ofR 0 rs2 rs1 5 rd 0x3B)
  | .sraw rd rs1 rs2 => some (.ofR 32 rs2 rs1 5 rd 0x3B)
  | .fence fm pred succ rs1 rd => some (⟨fm, pred.extractLsb' 2 2, pred.extractLsb' 1 1, pred.extractLsb' 0 1 ++ succ, rs1, 0, rd, 0x0F⟩)
  | .ecall => some (.ofR 0 0 0 0 0 0x73)
  | .ebreak => some (.ofR 0 1 0 0 0 0x73)
  | .mul rd rs1 rs2 => some (.ofR 1 rs2 rs1 0 rd 0x33)
  | .mulh rd rs1 rs2 => some (.ofR 1 rs2 rs1 1 rd 0x33)
  | .mulhsu rd rs1 rs2 => some (.ofR 1 rs2 rs1 2 rd 0x33)
  | .mulhu rd rs1 rs2 => some (.ofR 1 rs2 rs1 3 rd 0x33)
  | .div rd rs1 rs2 => some (.ofR 1 rs2 rs1 4 rd 0x33)
  | .divu rd rs1 rs2 => some (.ofR 1 rs2 rs1 5 rd 0x33)
  | .rem rd rs1 rs2 => some (.ofR 1 rs2 rs1 6 rd 0x33)
  | .remu rd rs1 rs2 => some (.ofR 1 rs2 rs1 7 rd 0x33)
  | .mulw rd rs1 rs2 => some (.ofR 1 rs2 rs1 0 rd 0x3B)
  | .divw rd rs1 rs2 => some (.ofR 1 rs2 rs1 4 rd 0x3B)
  | .divuw rd rs1 rs2 => some (.ofR 1 rs2 rs1 5 rd 0x3B)
  | .remw rd rs1 rs2 => some (.ofR 1 rs2 rs1 6 rd 0x3B)
  | .remuw rd rs1 rs2 => some (.ofR 1 rs2 rs1 7 rd 0x3B)
  | .amoswapW rd rs1 rs2 aq rl => some (.ofAmo 1 aq rl rs2 rs1 2 rd)
  | .amoaddW rd rs1 rs2 aq rl => some (.ofAmo 0 aq rl rs2 rs1 2 rd)
  | .amoxorW rd rs1 rs2 aq rl => some (.ofAmo 4 aq rl rs2 rs1 2 rd)
  | .amoandW rd rs1 rs2 aq rl => some (.ofAmo 12 aq rl rs2 rs1 2 rd)
  | .amoorW rd rs1 rs2 aq rl => some (.ofAmo 8 aq rl rs2 rs1 2 rd)
  | .amominW rd rs1 rs2 aq rl => some (.ofAmo 16 aq rl rs2 rs1 2 rd)
  | .amomaxW rd rs1 rs2 aq rl => some (.ofAmo 20 aq rl rs2 rs1 2 rd)
  | .amominuW rd rs1 rs2 aq rl => some (.ofAmo 24 aq rl rs2 rs1 2 rd)
  | .amomaxuW rd rs1 rs2 aq rl => some (.ofAmo 28 aq rl rs2 rs1 2 rd)
  | .amoswapD rd rs1 rs2 aq rl => some (.ofAmo 1 aq rl rs2 rs1 3 rd)
  | .amoaddD rd rs1 rs2 aq rl => some (.ofAmo 0 aq rl rs2 rs1 3 rd)
  | .amoxorD rd rs1 rs2 aq rl => some (.ofAmo 4 aq rl rs2 rs1 3 rd)
  | .amoandD rd rs1 rs2 aq rl => some (.ofAmo 12 aq rl rs2 rs1 3 rd)
  | .amoorD rd rs1 rs2 aq rl => some (.ofAmo 8 aq rl rs2 rs1 3 rd)
  | .amominD rd rs1 rs2 aq rl => some (.ofAmo 16 aq rl rs2 rs1 3 rd)
  | .amomaxD rd rs1 rs2 aq rl => some (.ofAmo 20 aq rl rs2 rs1 3 rd)
  | .amominuD rd rs1 rs2 aq rl => some (.ofAmo 24 aq rl rs2 rs1 3 rd)
  | .amomaxuD rd rs1 rs2 aq rl => some (.ofAmo 28 aq rl rs2 rs1 3 rd)
  | .csrrw rd csr rs1 => some (.ofI csr rs1 1 rd 0x73)
  | .csrrs rd csr rs1 => some (.ofI csr rs1 2 rd 0x73)
  | .csrrc rd csr rs1 => some (.ofI csr rs1 3 rd 0x73)
  | .csrrwi rd csr uimm => some (.ofI csr uimm 5 rd 0x73)
  | .csrrsi rd csr uimm => some (.ofI csr uimm 6 rd 0x73)
  | .csrrci rd csr uimm => some (.ofI csr uimm 7 rd 0x73)
  | .fenceI => some (.ofR 0 0 0 1 0 0x0F)
  | .sret => some (.ofR 8 2 0 0 0 0x73)
  | .mret => some (.ofR 24 2 0 0 0 0x73)
  | .wfi => some (.ofR 8 5 0 0 0 0x73)
  | .vadd ty vd vs1 vs2 m w => some (.ofV 0 w m vs2 vs1 ty.bits vd 0x57)
  | .vsub ty vd vs1 vs2 m w => some (.ofV 1 w m vs2 vs1 ty.bits vd 0x57)
  | .vmul ty vd vs1 vs2 m w => some (.ofV 2 w m vs2 vs1 ty.bits vd 0x57)
  | .vdiv ty vd vs1 vs2 m w => some (.ofV 3 w m vs2 vs1 ty.bits vd 0x57)
  | .vmin ty vd vs1 vs2 m w => some (.ofV 4 w m vs2 vs1 ty.bits vd 0x57)
  | .vmax ty vd vs1 vs2 m w => some (.ofV 5 w m vs2 vs1 ty.bits vd 0x57)
  | .vabs ty vd vs1 m w => some (.ofV 6 w m 0 vs1 ty.bits vd 0x57)
  | .vneg ty vd vs1 m w => some (.ofV 7 w m 0 vs1 ty.bits vd 0x57)
  | .vsqrt ty vd vs1 m w => some (.ofV 8 w m 0 vs1 ty.bits vd 0x57)
  | .vrecip ty vd vs1 m w => some (.ofV 9 w m 0 vs1 ty.bits vd 0x57)
  | .vrsqrt ty vd vs1 m w => some (.ofV 10 w m 0 vs1 ty.bits vd 0x57)
  | .vexp2 ty vd vs1 m w => some (.ofV 11 w m 0 vs1 ty.bits vd 0x57)
  | .vlog2 ty vd vs1 m w => some (.ofV 12 w m 0 vs1 ty.bits vd 0x57)
  | .vadds ty vd vs1 vs2 m w => some (.ofV 13 w m vs2 vs1 ty.bits vd 0x57)
  | .vsubs ty vd vs1 vs2 m w => some (.ofV 14 w m vs2 vs1 ty.bits vd 0x57)
  | .vmulh ty vd vs1 vs2 m w => some (.ofV 15 w m vs2 vs1 ty.bits vd 0x57)
  | .vand vd vs1 vs2 m w => some (.ofV 0 w m vs2 vs1 0 vd 0x77)
  | .vor vd vs1 vs2 m w => some (.ofV 0 w m vs2 vs1 1 vd 0x77)
  | .vxor vd vs1 vs2 m w => some (.ofV 0 w m vs2 vs1 2 vd 0x77)
  | .vsll ty vd vs1 vs2 m w => some (.ofV 1 w m vs2 vs1 ty.bits vd 0x77)
  | .vsrl ty vd vs1 vs2 m w => some (.ofV 2 w m vs2 vs1 ty.bits vd 0x77)
  | .vsra ty vd vs1 vs2 m w => some (.ofV 3 w m vs2 vs1 ty.bits vd 0x77)
  | .vcmpeq ty vs1 vs2 m w => some (.ofV 4 w m vs2 vs1 ty.bits 0 0x77)
  | .vcmplt ty vs1 vs2 m w => some (.ofV 4 w m vs2 vs1 ty.bits 1 0x77)
  | .vcmple ty vs1 vs2 m w => some (.ofV 4 w m vs2 vs1 ty.bits 2 0x77)
  | .vsel ty vd vs1 vs2 m w => some (.ofV 5 w m vs2 vs1 ty.bits vd 0x77)
  | .vperm ty vd vs1 vs2 m w => some (.ofV 6 w m vs2 vs1 ty.bits vd 0x77)
  | .vslide ty vd vs1 rs m w => some (.ofV 7 w m rs vs1 ty.bits vd 0x77)
  | .vbcast ty vd rs m w => some (.ofV 8 w m 0 rs ty.bits vd 0x77)
  | .vmvx ty rd vs1 rs w => some (.ofV 9 w false rs vs1 ty.bits rd 0x77)
  | .vid ty vd m w => some (.ofV 10 w m 0 0 ty.bits vd 0x77)
  | .vredsum ty vd vs1 m w => some (.ofV 11 w m 0 vs1 ty.bits vd 0x77)
  | .vredmax ty vd vs1 m w => some (.ofV 11 w m 1 vs1 ty.bits vd 0x77)
  | .vredmin ty vd vs1 m w => some (.ofV 11 w m 2 vs1 ty.bits vd 0x77)
  | .vdot ty vd vs1 vs2 m w => some (.ofV 12 w m vs2 vs1 ty.bits vd 0x77)
  | .vcvt vd vs1 t m w => some (.ofV 13 w m (0#1 ++ t.bits) vs1 0 vd 0x77)
  | .vretag vd vs1 t w => some (.ofV 13 w false (0#1 ++ t.bits) vs1 1 vd 0x77)
  | .vtag rd vs1 w => some (.ofV 13 w false 0 vs1 2 rd 0x77)
  | .vqnt vd vs1 t w => some (.ofV 13 w false (0#1 ++ t.bits) vs1 3 vd 0x77)
  | .vdeq vd vs1 t w => some (.ofV 13 w false (0#1 ++ t.bits) vs1 4 vd 0x77)
  | .vmvv vd vs1 m w => some (.ofV 14 w m 0 vs1 0 vd 0x77)
  | .vsetm ty vs1 w => some (.ofV 15 w false 0 vs1 ty.bits 0 0x77)
  | .vgetm ty vd w => some (.ofV 15 w false 1 0 ty.bits vd 0x77)
  | .vfma ty vd va vb vc w => some (.of4 vc w vb va ty.bits vd 0x43)
  | .vfms ty vd va vb vc w => some (.of4 vc w vb va ty.bits vd 0x47)
  | .vfnma ty vd va vb vc w => some (.of4 vc w vb va ty.bits vd 0x4B)
  | .vfnms ty vd va vb vc w => some (.of4 vc w vb va ty.bits vd 0x4F)
  | .vle ty vd rs1 off => some (.ofUnit off rs1 ty.bits vd 0x07)
  | .vse ty vs rs1 off => some (.ofUnit off rs1 ty.bits vs 0x27)
  | .vlds ty vd rs1 rs2 m => some (.ofV 2 0 m rs2 rs1 ty.bits vd 0x07)
  | .vsds ty vs rs1 rs2 m => some (.ofV 2 0 m rs2 rs1 ty.bits vs 0x27)
  | .vlx ty vd rs1 vs2 m => some (.ofV 4 0 m vs2 rs1 ty.bits vd 0x07)
  | .vsx ty vs rs1 vs2 m => some (.ofV 4 0 m vs2 rs1 ty.bits vs 0x27)
  | .rep len1 rs1 stride base => some (⟨len1, 0, 0, stride, rs1, 7, base, 0x0B⟩)
  | .qpush port vs h => some (⟨0, 0, bit h, port, vs, 0, 0, 0x0B⟩)
  | .qput port rs => some (.ofR 2 port rs 0 0 0x0B)
  | .qpop rd port => some (.ofR 4 port 0 0 rd 0x0B)
  | .recv vd q => some (.ofR 0 q 0 1 vd 0x0B)
  | .peek vd q => some (.ofR 1 q 0 1 vd 0x0B)
  | .wait rd rs1 => some (.ofR 2 0 rs1 1 rd 0x0B)
  | .qmake q rs1 rs2 => some (.ofR 3 rs2 rs1 1 q 0x0B)
  | .qdrop q => some (.ofR 4 0 0 1 q 0x0B)
  | .send rs1 vs => some (.ofR 0 vs rs1 2 0 0x0B)
  | .rput q rs1 vs => some (.ofR 1 vs rs1 2 q 0x0B)
  | .slook rd rs1 => some (.ofR 0 0 rs1 3 rd 0x0B)
  | .sinst rs1 rs2 => some (.ofR 1 rs2 rs1 3 0 0x0B)
  | .sinv rs1 => some (.ofR 2 0 rs1 3 0 0x0B)
  | .sclean rs1 => some (.ofR 3 0 rs1 3 0 0x0B)
  | .mtcfg mt rs1 rs2 => some (.ofR 0 rs2 rs1 4 mt 0x0B)
  | .mtpack vd mt h => some (⟨0, 1, bit h, 0, mt, 4, vd, 0x0B⟩)
  | .phaseC s => some (.ofR 0 (0#3 ++ s.bits) 0 0 0 0x2B)
  | .phaseO s => some (.ofR 1 (0#3 ++ s.bits) 0 0 0 0x2B)
  | .phaseCo s => some (.ofR 2 (0#3 ++ s.bits) 0 0 0 0x2B)
  | .sync rd => some (.ofR 3 0 0 0 rd 0x2B)
  | .hred rd rs1 op => some (.ofR 4 (0#2 ++ op.bits) rs1 0 rd 0x2B)
  | .emit vs rs1 => some (.ofR 5 vs rs1 0 0 0x2B)
  | .taskDone => some (.ofR 6 0 0 0 0 0x2B)
  | .acq rd rs1 => some (.ofR 0 0 rs1 5 rd 0x2B)
  | .acqTry rd rs1 => some (.ofR 1 0 rs1 5 rd 0x2B)
  | .rel rs1 => some (.ofR 2 0 rs1 5 0 0x2B)
  | .claim rs1 => some (.ofR 3 0 rs1 5 0 0x2B)
  | .ldS rd rs1 imm s => some (.ofStrongLoad imm s rs1 1 rd)
  | .lwS rd rs1 imm s => some (.ofStrongLoad imm s rs1 2 rd)
  | .sdS rs1 rs2 imm s => some (.ofStrongStore imm s rs2 rs1 3)
  | .swS rs1 rs2 imm s => some (.ofStrongStore imm s rs2 rs1 4)
  | .offer rd rs1 rs2 rs3 aq rl => some (.of4 rs3 0 rs2 rs1 (0#1 ++ bit aq ++ bit rl) rd 0x5B)
  | .cread rd rs1 rs2 aq rl => some (.of4 0 1 rs2 rs1 (0#1 ++ bit aq ++ bit rl) rd 0x5B)
  | .cwait rd rs1 rs2 aq rl => some (.of4 0 2 rs2 rs1 (0#1 ++ bit aq ++ bit rl) rd 0x5B)
  | .cretire rs1 rs2 aq rl => some (.of4 0 3 rs2 rs1 (0#1 ++ bit aq ++ bit rl) 0 0x5B)
  | .upret => some (.ofR 0 0 0 0 0 0x7B)
  | .scall rs1 => some (.ofR 1 0 rs1 0 0 0x7B)
  | .mprobe rd rs1 => some (.ofR 2 0 rs1 0 rd 0x7B)
  | .mhint rs1 rs2 => some (.ofR 3 rs2 rs1 0 0 0x7B)
  | .launch rd rs1 => some (.ofR 0 0 rs1 1 rd 0x7B)
  | .frec rd rs1 rs2 => some (.ofR 1 rs2 rs1 1 rd 0x7B)
  | .monenter rs1 => some (.ofR 0 0 rs1 2 0 0x7B)
  | .monleave => some (.ofR 1 0 0 2 0 0x7B)
  | .monkey rs1 rs2 => some (.ofR 2 rs2 rs1 2 0 0x7B)
  | .monseal rs1 rs2 => some (.ofR 3 rs2 rs1 2 0 0x7B)
  | .illegalInstruction _ => none
  | .interruptEntry => none
  | .sTimer _ => none
  | .mTimer _ => none
  | .msip _ _ => none
  | .ssip _ _ => none
  | .sdReq _ _ => none
  | .shootdownDone _ => none
  | .fnPost _ _ => none
  | .scReply _ _ => none
  | .preReqPreempt _ _ => none
  | .preReqResume _ _ => none
  | .preReqKill _ _ => none
  | .rpGo _ _ => none
  | .batchCommit _ _ _ => none
  | .firmwareRelease _ => none
  | .recallDeadlineExpiry _ => none
  | .revocationCommit _ => none
  | .attReq _ => none
  | .attestationReportDone => none
  | .dbgStopNext _ _ => none
  | .dbgStopAt _ _ => none
  | .dbgRelease _ _ => none
  | .dbgImmediateStop _ _ => none
  | .dbgPair _ _ => none
  | .dbgUnpair _ _ => none
  | .rkctlGo _ => none
  | .rotationComplete _ => none
  | .oldKeyRetire _ => none
  | .rotationRequest _ => none
  | .streamStop _ => none
  | .registerWrite _ _ _ _ => none
  | .mzero _ => none
  | .mloadw _ => none
  | .mma _ => none
  | .mdrain _ => none
  | .mend _ => none
  | .cpy _ => none
  | .cpyt _ => none
  | .fill _ => none
  | .sfill _ => none
  | .sevict _ => none
  | .pref _ => none
  | .migr _ => none
  | .gather _ => none
  | .scatter _ => none
  | .ship _ => none
  | .tabload _ => none
  | .callred _ => none
  | .credsc _ => none
  | .callgath _ => none
  | .cbcast _ => none
  | .cxchg _ => none
  | .nsend _ => none
  | .nwrite _ => none
  | .nread _ => none
  | .npost _ => none
  | .commandCompletion _ _ _ _ => none
  | .migrRoundDone _ => none
  | .collectiveMatch _ _ _ _ => none
  | .nsendTimeout _ => none
  | .leaseGrant _ => none
  | .leaseIdleExpiry _ => none
  | .rampWindow _ _ => none
  | .intervalBoundary _ _ _ => none
  | .meterUpdate _ _ _ => none
  | .getSensorReading _ _ => none
  | .cwaitRetry _ => none
  | .cellPurgeComplete _ => none
  | .acqGrant _ => none
  | .acqUrgent _ => none
  | .allowanceRequest _ _ _ => none
  | .allowanceGrant _ _ _ _ => none
  | .allowanceReturn _ _ _ => none
  | .allowanceReclaim _ _ => none
  | .queueEntryArrival _ _ _ _ => none
  | .wake _ => none
  | .initialTasks _ => none
  | .taskPlacement _ => none
  | .affinityPatienceExpiry _ => none
  | .occupancySample _ => none
  | .partyRetire _ => none
  | .exchange _ => none
  | .headcountSweep _ => none
  | .launchEnd _ => none
  | .saveComplete _ => none
  | .restoreComplete _ => none
  | .saveDeadlineExpiry _ => none
  | .watchdogExpiry _ => none
  | .faultQueuePost => none
  | .joinStart _ _ => none
  | .joinTimeout _ => none
  | .networkPacketArrival _ => none
  | .peerMemoryRequest _ _ => none
  | .pcieLoadCompletion _ _ => none
  | .pcieLoadTimeout _ => none
  | .virtioNotification _ _ _ => none
  | .flitCrcFailure _ => none
  | .linkFailure _ => none
  | .linkRecovery _ => none
  | .laneFailure _ => none
  | .deviceLoss _ _ _ => none
  | .packageReset => none
  | .recoveryFetchRetry => none
  | .dhcpv6Retry => none
  | .announcementRetry => none
  | .alarm => none
  | .thermalFault _ => none
  | .portLinkDown _ => none
  | .portLinkUp _ _ => none
  | .deviceStatusWrite _ _ _ => none
  | .suspClear _ => none
  | .domainWindowAccess _ => none
  | .dhcpv6Reply _ _ => none
  | .recoveryImageReceived _ => none

/-- The 32-bit word of an instruction; a command or an event, which has none, gives 0 (an illegal word). -/
def encodeWord (i : Instr) : BitVec 32 :=
  match encodeFields i with
  | some f => f.join
  | none => 0

/-- The bytes of an instruction as memory holds them (R8); no bytes for a command or an event. -/
def encode (i : Instr) : List Byte :=
  match encodeFields i with
  | some f => bytesOfWord f.join
  | none => []

/-- The instruction has a word of its own: it is none of the commands and events. -/
def Instr.isWord (i : Instr) : Bool := (encodeFields i).isSome

end Sys2Proof
end

