-- ==== Sys2Proof/Config.lean ====
section
/-! DEFINITION. What an implementation fixes and the spec leaves open. The constants are those of the full
configuration (R2, R3); the opaque ones are free values: nothing in Lean can tell what they are, so a claim
holds whatever they are. -/

namespace Sys2Proof.Config

/-- Working sites, in increasing order: all sixteen at full configuration (R1, R431). -/
def sites : Nat := 16
/-- Bytes of local HBM at full configuration: 1 TiB (R3, Table 15-1A). -/
def hbmBytes : Nat := 0x10000000000
/-- Compute clusters at full configuration (R2). -/
def clusters : Nat := 64
/-- Exposed cores of a cluster (R2). -/
def coresPerCluster : Nat := 16
/-- Compute-core harts: 4,096 (R2). Hart `64 c + 4 k + j` is slot j of core k of cluster c (R36). -/
def computeHarts : Nat := 4096
/-- Service-core harts: 64 (R263). Service hart h has the number `4096 + h`. -/
def serviceHarts : Nat := 64
/-- This device's number, given at boot (Table 24-1). DESIGN CHOICE (log 12): device 0, alone in its domain. -/
def devno : Nat := 0
/-- PRESENT at boot (Table 24-1). DESIGN CHOICE (log 12). -/
def present : BitVec 128 := 1

/-- Cycles that an issue step takes beyond the first: implementation-defined (R434). -/
opaque stepCycles : Nat → Nat
/-- Whether an accepted engine command is performed before the next instruction: no rule orders them (R291, R434). -/
opaque engineGo : Nat → Bool
/-- Which of the commands that may run next does (R291). -/
opaque enginePick : Nat → Nat
/-- Whether a weak store leaves its hart's buffer before the next instruction (R159). -/
opaque drainNow : Nat → Bool
/-- Which of the pending stores that may leave a hart's buffer, or of the copies that a core may discard, does (R159). -/
opaque drainPick : Nat → Nat
/-- Whether a core discards a copy now (R159, R161). -/
opaque refreshNow : Nat → Bool
/-- Whether a hart goes on seeing the older contents of a location that changes: the choice, the hart, the location (R159). -/
opaque keepsCopy : Nat → Nat → Nat → Bool
/-- Whether a cluster's group agent keeps the older contents of a location written at its site: the choice, the cluster, the
location (R159). -/
opaque keepsLine : Nat → Nat → Nat → Bool
/-- Whether a group agent writes back or drops a line now, by replacement (R159, R224). -/
opaque evictNow : Nat → Bool
/-- Which of the bytes that group agents hold does. -/
opaque evictPick : Nat → Nat
/-- Whether a weak load that was issued is performed only now, after the stores issued behind it (R159, R170). -/
opaque lateNow : Nat → Bool
/-- Whether a walk uses the non-leaf entry that a walk cache holds, where memory has changed: the choice, the entry's address
(R261, R265). -/
opaque keepsWalk : Nat → Nat → Bool
/-- Which ready hart issues next when several are ready (R156 orders only the harts of one core). -/
opaque nextHart : Nat → Nat
/-- Array cycles of an MMA, which depend on bank contention (R309, R314, R434). -/
opaque mmaCycles : Nat → Word
/-- The device key-agreement key and the unwrap of a model-key blob under it (R404): none when the integrity check fails. -/
opaque unwrapModelKey : List Byte → Option (BitVec 512)
/-- The hub's random generator (R402): the n-th generated XTS pair. -/
opaque generatedKey : Nat → BitVec 512
/-- The 256-bit GCM key generated with it (R402). -/
opaque generatedGcm : Nat → BitVec 256
/-- SHA-256 of the verified firmware, 32 bytes (R413). -/
opaque fwHash : BitVec 256
/-- SHA-256 of the monitor image, 32 bytes (R413). -/
opaque monHash : BitVec 256
/-- The key-agreement public key X‖Y (R413). -/
opaque kaPub : BitVec 512
/-- ECDSA with the identity key over SHA-256 of the bytes given (R413). -/
opaque identitySign : List Byte → BitVec 512
/-- The ranks that the other devices of a joined launch hold, by launch id (R386). -/
opaque farRanks : Nat → Nat
/-- Tokens that an instruction's requests to local HBM cost its core (R283; log 53). -/
opaque tokens : Nat → Nat
/-- The bound that management sets on the ramp limiter (R303, R433; log 53). -/
opaque rampBound : Nat → Nat
/-- A value the spec leaves unstated, the n-th of the run. -/
opaque freeWord : Nat → Word
/-- The byte a racing or undefined transfer leaves, the n-th of the run. -/
opaque freeByte : Nat → Byte

end Sys2Proof.Config
end

