-- ==== Sys2Proof/Machine/State.lean ====
section
/-! DEFINITION. The state of one LZ-960 device as plain data: the issuing hart, the other harts, the cores and
clusters, the memory, the dispatcher's launches and parties, the engines, the frame record and every register
block, with `State.reset`, the package right after reset (R46, R428). -/

namespace Sys2Proof.Machine

/-- A vector register: 512 bits and a format tag (R30, R31). -/
structure VecReg where
  bits : VBits
  tag  : Tag
  deriving DecidableEq, Repr

/-- A vector result that has been issued and is not yet visible to reads (R39, R40). -/
structure Inflight where
  reg   : VReg
  ready : Nat
  val   : VecReg
  deriving DecidableEq, Repr

/-- The staging buffer of one port: 256 bits and a fill count of 0 to 3 (R285). -/
structure Stage where
  fill : Nat
  word : BitVec 256
  deriving DecidableEq, Repr

/-- Where an access goes. -/
structure Place where
  /-- the location in memory, or the PA in the MMIO range -/
  key    : Nat
  mmio   : Bool
  window : Bool
  /-- the leaf, 0 for a physical or window access -/
  pte    : Word
  /-- the CMP metadata byte's location (R257) -/
  meta_  : Option Nat
  va     : Nat
  deriving DecidableEq, Repr

/-- What a waiting hart waits for (Tables 09-3 and 22-2). The instruction is executed again on waking, but for
`barrier` and `pcie`, which complete with the exchange, the party barrier or the load's completion. -/
inductive Wake where
  /-- `recv`, `peek`, `wait`: any queue of the mask non-empty; `recv` takes the entry (R180) -/
  | queues (mask : BitVec 8) (takes : Bool)
  /-- `wfi`: an enabled interrupt pending, or the own inbox non-empty (R76) -/
  | interrupt
  /-- `emit`: the stage queue not full (R145) -/
  | stage (k : Nat)
  /-- `send`, `rput`: an allowance held (R240) -/
  | allowance (core q : Nat)
  /-- `acq`: the grant (R207), which completes the instruction -/
  | acq (rd : Reg)
  /-- `cwait`: registered at the home for generation q of the cell (R194); the home's answer completes it -/
  | cell (rd : Reg) (pa q : Nat) (aq : Bool)
  /-- `cwait` that found the waiter table full (R194) -/
  | cellRetry
  /-- a cell operation held while the cell is purged (R197) -/
  | purge (pa : Nat)
  /-- `cretire` of the last generation, which completes with the purge (R195) -/
  | retire (pa : Nat) (aq : Bool)
  /-- `sync` and `hred`: arrived, with the contribution of `hred` (R176 to R178) -/
  | barrier (rd : Reg) (contribution : Option (RedOp × Word))
  /-- a load of a root port's space, waiting for its completion (R388) -/
  | pcie (rd : Reg) (addr : Word) (size : Nat) (signed : Bool)
  /-- a load of another device's memory or of the blanket window, waiting for its value (R68, R175): weak, or strong at its home
  (`strong`: whether at the group agent) -/
  | remote (rd : Reg) (p : Place) (size : Nat) (signed : Bool) (strong : Option Bool)
  /-- `scall`: the ring not full (R362) -/
  | ring
  /-- `qpop`: the oldest SHIP has its result (R287) -/
  | ship
  /-- `qpush`, `qput`: room at the engine, at q2 that of a site, and for q0 the lease (R287, R322) -/
  | engine (port site : Nat)
  /-- `rel`: commands that reference a released unit (R218) -/
  | release
  /-- `qdrop`: outstanding allowances (R238) -/
  | reclaim (q : Nat)
  /-- a strong access: the hart's SHIPs not yet performed (R324) -/
  | ships
  deriving DecidableEq, Repr

/-- The CSRs a hart holds (Table 02-3). `cycle` and `time` are the device's clock, `mip` is formed from the bits
below and the pending conditions of Table 02-7, `sstatus`, `sie` and `sip` are views, QSTAT shows the core's
queues, and ENCL is the core's (R401). -/
structure Csrs where
  instret  : Word
  mstatus  : Word
  mtvec    : Word
  mepc     : Word
  mcause   : Word
  mtval    : Word
  mie      : Word
  mscratch : Word
  pmp      : Pmp
  stvec    : Word
  sepc     : Word
  scause   : Word
  stval    : Word
  sscratch : Word
  stimecmp : Word
  mtimecmp : Word
  vmode    : Word
  vflags   : Word
  vmask    : Word
  scope    : Word
  repstate : Word
  qdelta   : Word
  uvec     : Word
  uepc     : Word
  ucause   : Word
  uaddr    : Word
  udeleg   : Word
  ostat    : Word
  lastq    : Word
  rank     : Word
  coord    : Word
  sstep    : Word
  party    : Word
  kfaultq  : Word
  ptroot   : Word
  ctxid    : Word
  meterSel : Word
  mstat    : Word
  rklist   : Word
  rkctl    : Word
  /-- mip.SSIP (R36) -/
  ssip     : Bool
  /-- mip.MEIP (R408, R410) -/
  meip     : Bool
  deriving DecidableEq, Repr

/-- A 64-byte block in a fetch buffer (R44): whether its address is physical, as in M-mode, or virtual, the address, its bytes,
and which of its two ECC words were uncorrectable (R348). -/
structure FetchBlock where
  phys  : Bool
  va    : Nat
  bytes : List Byte
  bad   : List Nat
  deriving DecidableEq, Repr

/-- One hart (Table 02-1) with what the spec keeps per hart beside it: staging buffers (R285), fetch buffer (R44),
pending weak stores (R159), SHIP results (R287) and the wait it is in. -/
structure Hart where
  /-- false while the hart is idle (R46, R144) -/
  running   : Bool
  pc        : Word
  x         : Vector Word 32
  v         : Vector VecReg 32
  mode      : Mode
  csr       : Csrs
  mt        : Vector (BitVec 53) 8
  stage     : Vector Stage 5
  /-- issue steps so far (R39) -/
  steps     : Nat
  /-- vector results in flight, in program order (R39) -/
  inflight  : List Inflight
  /-- granules of vector registers held (R214) -/
  held      : Nat
  /-- granules claimed (R204) -/
  maxHeld   : Nat
  /-- the party it belongs to -/
  party     : Option Nat
  /-- the blocks of the fetch buffer (R44) -/
  fetch     : List FetchBlock
  /-- the pc last fetched at, and whether a `rep` body was running (R44) -/
  lastFetch : Option (Word × Bool)
  /-- weak stores not yet at their point of coherence, newest first (R159) -/
  pending   : List Host.Cell
  /-- the weak load last issued, while it may yet be performed behind the stores issued since: its register, place, size and
  extension (R159, R170) -/
  late      : Option (Reg × Place × Nat × Bool)
  /-- a weak store was lost with a device (R384) -/
  lostStore : Bool
  /-- a cause of R384, with its xtval, that is taken before the next instruction -/
  trapDue   : Option (Nat × Word)
  /-- SHIPs pushed and not yet popped, oldest first, with their results (R287) -/
  ships     : List (Option Word)
  blocked   : Option Wake
  /-- the instruction that began to wait, by its pc and `instret`, and when, in the model's count of choices (R180, R286) -/
  since     : Option (Word × Word × Nat)
  /-- `task.done` executed (R146) -/
  finished  : Bool
  deriving DecidableEq, Repr

/-- A page cached in a TLB (R261). DESIGN CHOICE (log 19). -/
structure TlbEntry where
  ctx    : BitVec 16
  /-- first virtual address of the page -/
  va     : Nat
  /-- log2 of the page's size -/
  bits   : Nat
  pte    : Word
  level  : Nat
  /-- rights found in the frame record, by frame of the page: 0 owned, 1 borrowed read-only, 2 borrowed read-write -/
  frames : List (Nat × Nat)
  /-- in a copy TLB, the accepted commands that have used it (R261) -/
  users  : List Nat
  deriving DecidableEq, Repr

/-- A non-leaf entry that the walk cache of a die holds: the context, the entry's address and the entry (R261).
DESIGN CHOICE (log 19). -/
structure WalkEntry where
  die  : Nat
  ctx  : BitVec 16
  addr : Nat
  pte  : Word
  deriving DecidableEq, Repr

/-- A context page as hardware has cached it with the context's translations (R253). DESIGN CHOICE (log 19). -/
structure CtxPage where
  ctx   : BitVec 16
  root  : Nat
  /-- its bytes, by offset -/
  cells : List Host.Cell
  deriving DecidableEq, Repr

/-- A core queue (Table 14-4). Inbox entries are kept here; the entries of a made queue lie in its ring in
the owner's extents (R238). -/
structure Queue where
  owner   : Option Nat
  base    : Nat
  cap     : Nat
  head    : Nat
  count   : Nat
  entries : List VBits
  /-- allowances granted and not used or returned (R240) -/
  granted : Nat
  /-- requests held, as source cores in arrival order (R240) -/
  requests : List Nat
  /-- hardware entries waiting on a system channel for a free entry (R237) -/
  waiting : List VBits
  /-- being dropped (R238) or moved (R244) -/
  closing : Bool
  deriving DecidableEq, Repr

/-- A valid entry of the tag table (Table 14-2), named by its party and window slot number. -/
structure TagEntry where
  party : Nat
  slot  : Nat
  tag   : Nat
  dirty : Bool
  user  : BitVec 8
  deriving DecidableEq, Repr

/-- One core: ENCL, the queues, the tag table, the interface's allowance table, the instruction cache and TLBs. -/
structure Core where
  encl       : BitVec 17
  queues     : Vector Queue 8
  tags       : List TagEntry
  /-- (target core, queue, unused count), most recently used first (R241) -/
  allowances : List (Nat × Nat × Nat)
  /-- 64-byte lines of the instruction cache: context, location and bytes (R44, R45) -/
  icache     : List (BitVec 16 × Nat × List Byte)
  itlb       : List TlbEntry
  dtlb       : List TlbEntry
  /-- the stream has stopped for want of a pending key (R408) -/
  meshStopped : Bool
  /-- messages sent and received, as a gang stop records them (R153) -/
  sent       : Nat
  received   : Nat
  /-- the slot that issued last (R156) -/
  turn       : Nat
  deriving DecidableEq, Repr

/-- A blocked `acq` request at a banker (R212). -/
structure AcqRequest where
  hart   : Nat
  cls    : Nat
  count  : Nat
  since  : Nat
  urgent : Bool
  deriving DecidableEq, Repr

/-- The array lease of a cluster (Table 18-2). -/
structure Lease where
  holder     : Option Nat
  draining   : Bool
  /-- the core that held it last -/
  last       : Nat
  /-- commands accepted and array cycles used under the lease -/
  commands   : Nat
  cycles     : Nat
  /-- since when the holder has been idle while another core requests (R299) -/
  idleSince  : Option Nat
  deriving DecidableEq, Repr

/-- An entry of a decision cache (R198). -/
structure Decision where
  pa     : Nat
  gen    : Nat
  value  : Word
  winner : BitVec 20
  deriving DecidableEq, Repr

/-- The B image that a cluster's array holds (R310): the party, the fields of its MMA, and the physical segments. -/
structure LoadedImage where
  party    : Nat
  seg      : Nat
  format   : Nat
  kb       : Nat
  ncol     : Nat
  segments : List Nat
  deriving DecidableEq, Repr

/-- One cluster: banker requests, lease, decision cache, the matrix and copy TLBs and the ramp limiter's window. -/
structure Cluster where
  requests  : List AcqRequest
  lease     : Lease
  /-- most recently used first (R198) -/
  decisions : List Decision
  mtlb      : List TlbEntry
  ctlb      : List TlbEntry
  /-- the B image the array holds (R310) -/
  loadedB   : Option LoadedImage
  /-- issue slots of the last window (R303) -/
  slots     : Nat
  deriving DecidableEq, Repr

/-- The states of a party (Table 07-4). -/
inductive PartyState where
  | running | saving | saved | restoring | retiring | scrubbing
  deriving DecidableEq, Repr

/-- A `rel` of extents or segments that has begun and waits (R218): its hart, class and count of units, and the first command that
sees the reduced holding. -/
structure Cut where
  hart  : Nat
  cls   : Nat
  count : Nat
  since : Nat
  deriving DecidableEq, Repr

/-- A party (R144, R204, R215, R216, R306). -/
structure Party where
  id         : Nat
  launch     : Nat
  ctx        : BitVec 16
  stage      : Nat
  core       : Nat
  /-- first hart slot and number of harts -/
  slots      : List Nat
  slice      : Nat
  state      : PartyState
  /-- physical extents held, in acquisition order (R215) -/
  spad       : List Nat
  spadMax    : Nat
  /-- physical segments held, in acquisition order (R216) -/
  hamper     : List Nat
  hamperMax  : Nat
  /-- releases that wait (R218) -/
  cuts       : List Cut
  /-- party barriers completed (R177) -/
  barriers   : Nat
  /-- fault tags posted for the party's harts: hart and tag (R146) -/
  faultTags  : List (Nat × Nat)
  /-- MLOADW records, in acceptance order (R306) -/
  mloads     : List Command
  /-- the cycle the save began (R358); while the partition is stopped, the cycles gone by -/
  saveSince  : Nat
  /-- the party's core record in the save area (R355): its harts, -/
  savedHarts : List (Nat × Hart)
  /-- extents, -/
  savedSpad  : List (List Host.Cell)
  /-- tag-table entries, -/
  savedTags  : List TagEntry
  /-- queues, -/
  savedQueues : List (Nat × Queue)
  /-- and counts of extents and segments to be granted again (R220). -/
  savedHold  : Nat × Nat
  /-- killed while saving or restoring: scrubbed when that ends (Table 07-4) -/
  doomed     : Bool
  deriving DecidableEq, Repr

/-- A stage entry of a launch record (Table 07-2). -/
structure StageEntry where
  entry      : Word
  harts      : Nat
  vregInit   : Nat
  vregMax    : Nat
  spadInit   : Nat
  spadMax    : Nat
  hamperInit : Nat
  hamperMax  : Nat
  affinity   : Nat
  capacity   : Nat
  downstream : BitVec 8
  deriving DecidableEq, Repr

/-- A task record in a stage queue: its 64 bytes and its slice (R137, R140). -/
structure Task where
  bits  : VBits
  slice : Nat
  deriving DecidableEq, Repr

/-- The queue of a stage (R143): delivered tasks oldest first, tasks emitted in this superstep, the sampled ratio
and the cycle its oldest task became the oldest (R142). -/
structure StageQueue where
  tasks   : List Task
  emitted : List Task
  sample  : Nat × Nat
  since   : Nat
  deriving DecidableEq, Repr

/-- How a launch ended (Table 07-5, R385, R386). -/
inductive LaunchStatus where
  | complete | killed | stalled | tasksFault | hang | joinFailed | peerLost
  deriving DecidableEq, Repr

/-- The idle slots of a core that have left with their context: the core, their inboxes and the core's queues that no party made, and
the bytes of their task slots, from the first task slot on (R353, Table 14-7). -/
structure IdleRecord where
  core   : Nat
  queues : List (Nat × Queue)
  tasks  : List Host.Cell
  deriving DecidableEq, Repr

/-- A launch (R134 to R155). -/
structure Launch where
  id         : Nat
  ctx        : BitVec 16
  flags      : BitVec 8
  slices     : Nat
  clusters   : List Nat
  arg        : Word
  tasksPtr   : Word
  /-- initial tasks not yet in stage 0's queue: none left, or those of the list, once it is read (R137) -/
  initial    : Option (Option (List Task))
  completion : Nat
  /-- the service-core hart that executed `launch` -/
  submitter  : Nat
  stages     : List StageEntry
  queues     : List StageQueue
  sstep      : Nat
  /-- appends of this superstep, held for the exchange (R239): source hart, core, queue, entry -/
  appends    : List (Nat × Nat × Nat × VBits)
  /-- messages sent and received (R154) -/
  sent       : Nat
  received   : Nat
  retired    : Nat
  /-- the last sweep's counts, when it found everything idle (R154) -/
  sweep      : Option (Nat × Nat)
  /-- the last sweep found a stall (R149) -/
  stallSeen  : Bool
  /-- the cycle the superstep began (R152), and the arrivals by `sync`: hart and cycle -/
  stepStart  : Nat
  arrivals   : List (Nat × Nat)
  /-- JOIN_ID and mask of a joined launch (R385), and whether it waits to start -/
  join       : Option (Nat × BitVec 128)
  joining    : Bool
  /-- initial tasks of the lower devices of a join (R386) -/
  sliceBase  : Nat
  /-- the cycle of the last occupancy sample (R143) -/
  sampledAt  : Nat
  /-- hardware entries for ranks in transit or absent (Table 14-7): rank and entry -/
  held       : List (Nat × VBits)
  /-- the records of the cores' idle slots, while the context is away (R353) -/
  away       : List IdleRecord
  /-- fault tags of parties that have retired, whose notices are discarded (R146): hart and tag -/
  deadTags   : List (Nat × Nat)
  ended      : Option LaunchStatus
  /-- its launch-end entries have been sent (R155) -/
  told       : Bool
  deriving DecidableEq, Repr

/-- What a key slot holds (R402). -/
inductive KeyKind where
  | context (ctx : BitVec 16) | model | kernel
  deriving DecidableEq, Repr

/-- A key slot in use (R402): ACTIVE or PENDING. -/
structure KeySlot where
  slot    : Nat
  pending : Bool
  kind    : KeyKind
  xts     : BitVec 512
  gcm     : BitVec 256
  /-- messages sealed under it by each core's interface (R407) -/
  streams : List (Nat × Nat)
  deriving DecidableEq, Repr

/-- Where a context stands (R131, R353, R360). -/
inductive CtxState where
  | resident | saving | saved
  deriving DecidableEq, Repr

/-- A context (R131): its partition, fault tags, pre-emption, debug stop and meter record. DESIGN CHOICE (log 29). -/
structure Context where
  id       : BitVec 16
  /-- PTROOT.ROOT -/
  root     : Nat
  clusters : List Nat
  /-- a context protection key was given (R131) -/
  protected_ : Bool
  state    : CtxState
  /-- cycle at which the watchdog expires, while it is armed (R357); while the partition is stopped, the cycles left -/
  watchdog : Option Nat
  /-- the register group whose request is in progress (R352) -/
  group    : Option Nat
  pairedWith : Option (BitVec 16)
  /-- a precise stop is requested, at a superstep or at the next exchange (R425): the group and the superstep -/
  stopReq  : Option (Nat × Option Nat)
  /-- the partition is gang-stopped (R153) -/
  stopped  : Bool
  /-- the exchange of R150 stands between its steps 2 and 3 (R425) -/
  midExchange : Bool
  /-- pre-empt requests held until a stop's release or a restore's end: group and word (R426, Table 07-4) -/
  heldPreempt : List (Nat × Word)
  /-- the key wrapped into the save header (R353), while the context is saved -/
  wrapped  : Option KeySlot
  /-- lines of local HBM that a paired context has written in this superstep: VA and PA (R427) -/
  lines    : List (Nat × Nat)
  /-- the meter record's counters at +0x10 to +0x78 (Table 22-7), and SEQ -/
  meter    : Vector Nat 14
  /-- activity gathered on chip since the record was last written, for the counters at +0x10 to +0x58 (R365) -/
  gathered : Vector Nat 10
  seq      : Nat
  deriving DecidableEq, Repr

/-- A command at an engine (R286, R291). -/
structure Accepted where
  cmd    : Command
  /-- for q2, the site engine that holds it: the site of its routing address (R322); else 0 -/
  site   : Nat
  /-- parked while its party is saved (Table 22-3) -/
  parked : Bool
  /-- begun, and waiting for its peers, its packets or its next round -/
  started : Bool
  /-- the cycle at which it began (R331) -/
  since   : Nat
  deriving DecidableEq, Repr

/-- The registers of one service-core hart's groups (R263, R344, R352, R381, R424). -/
structure SvcRegs where
  sdReq     : Word
  sdBusy    : Bool
  sdDone    : BitVec 32
  /-- stores to SD_REQ held while BUSY, oldest first (R263) -/
  sdHeld    : List Word
  fnTarget  : Word
  preMask   : Word
  preBusy   : Bool
  preResult : Nat
  preDone   : BitVec 32
  /-- stores to PRE_REQ held while BUSY, oldest first (R352) -/
  preHeld   : List Word
  dbgArg    : Word
  dbgCtx    : BitVec 16
  dbgResult : Nat
  dbgDone   : BitVec 32
  joinId    : BitVec 32
  joinMask  : BitVec 128
  joinStat  : Nat
  deriving DecidableEq, Repr

/-- A record-port group of a host core (Table 23-5). -/
structure PortGroup where
  batch  : Word
  /-- the batch in progress: its PA and COUNT -/
  busy   : Option (Nat × Nat)
  result : Nat
  done   : BitVec 32
  /-- stores to RP_GO held while BUSY, oldest first (R376) -/
  held   : List Word
  deriving DecidableEq, Repr

/-- A frame of the record whose recall timer runs or whose revocation is under way (R378). -/
structure Recall where
  frame    : Nat
  deadline : Nat
  revoking : Bool
  deriving DecidableEq, Repr

/-- A PCI Express port block (Table 24-2). -/
structure PciePort where
  role    : Nat
  owner   : Nat
  linkUp  : Bool
  speed   : BitVec 8
  dropped : BitVec 32
  /-- IN_BASE, IN_LEN, IN_PA and IN_W of the windows written so far -/
  windows : List (Nat × Word × Word × Word × Bool)
  deriving DecidableEq, Repr

/-- A share controller (Table 16-4). -/
structure Share where
  pool      : BitVec 16
  collected : BitVec 32
  intervals : Word
  entries   : List (Nat × BitVec 33)
  /-- buckets of the die's cores: core and tokens (R283) -/
  buckets   : List (Nat × Nat)
  /-- undistributed remainder of the last boundary (R284) -/
  remainder : Nat
  /-- cores whose requests their ports hold until the next boundary (R283) -/
  waiting   : List Nat
  /-- the interval of 1,024 cycles in which the last boundary fell (R284) -/
  interval  : Nat
  deriving DecidableEq, Repr

/-- A rotation in progress (R410). -/
structure Rotation where
  ctx    : BitVec 16
  hart   : Nat
  frames : List Nat
  /-- re-encryption finished; old messages may still be under way -/
  done   : Bool
  deriving DecidableEq, Repr

/-- A virtio device of the internal segment or of an endpoint port (R391, R392). -/
structure Virtio where
  status     : BitVec 8
  needsReset : Bool
  notified   : List Nat
  deriving DecidableEq, Repr

/-- Units of the package, by number, that do not work or that boot has left out (R4, R431). -/
structure Units where
  clusters : List Nat
  /-- service cores -/
  services : List Nat
  sites    : List Nat
  /-- PCI Express ports -/
  pcie     : List Nat
  /-- Ethernet ports -/
  ether    : List Nat
  deriving DecidableEq, Repr

/-- The effective counts that the device tree reports (R4, R431). -/
structure DeviceTree where
  cores    : Nat
  clusters : Nat
  services : Nat
  sites    : Nat
  pcie     : Nat
  ether    : Nat
  deriving DecidableEq, Repr

/-- Where the boot sequence stands (Table 30-1, R429). -/
inductive BootStage where
  | step (n : Nat)
  | recovery
  | stopped
  | done
  deriving DecidableEq, Repr

/-- Boot and management state (R428, R429, R433). -/
structure Boot where
  stage     : BootStage
  /-- the flash image verifies (step 1) -/
  flashOk   : Bool
  /-- the monitors and the kernels start (steps 4 and 5) -/
  startOk   : Bool
  /-- the units that fail training, repair or probing beyond their spares (steps 2 and 3, R430) -/
  faulty    : Units
  /-- the device tree, once step 3 has written it -/
  tree      : Option DeviceTree
  address   : Option (BitVec 128)
  /-- requests sent to the network: DHCPv6, announcements, image fetches -/
  dhcpTries : Nat
  announceTries : Nat
  fetchTries : Nat
  deriving DecidableEq, Repr

/-- Why the accelerator does not run. -/
inductive Halt where
  /-- the alarm: only a package reset restarts it (R414) -/
  | alarm
  /-- a thermal fault (R433) -/
  | thermal
  deriving DecidableEq, Repr

/-- An MIGR under way (R271, Table 16-1): the command, the round k and the source and destination pages. -/
structure Migration where
  cmd   : Command
  /-- CMP of the leaf that mapped the page at the start -/
  cmp   : Nat
  round : Nat
  src   : Nat
  dst   : Nat
  size  : Nat
  cluster : Nat
  /-- the dirty filter: 64-byte granules of the source written since it was cleared (R270) -/
  dirty   : List Nat
  /-- the reason for which the migration is to be abandoned at its next check (Table 16-1); 0 cancels it -/
  abandon : Option Nat
  /-- the leaf entries to rewrite and their new values, as read at the start (R321) -/
  leaves  : List (Nat × Word)
  deriving DecidableEq, Repr

/-- A collective that has failed (R327, R329): what its commands match on, and the ranks whose commands have completed. The
commands that others still push complete PEER_ERROR. -/
structure Broken where
  key  : Option Nat × Nat × Nat × Nat
  gone : List Nat
  deriving DecidableEq, Repr

/-- An entry of a device's move table (R277): the page as the command names it, CTX and VA. -/
structure MoveEntry where
  device  : Nat
  key     : Nat
  times   : List Nat
  pinned  : Option Nat
  deriving DecidableEq, Repr

/-- A waiter of a cell at its home (R194). -/
structure Waiter where
  hart : Nat
  pa   : Nat
  gen  : Nat
  deriving DecidableEq, Repr

/-- A message of a peer that waits at the receiving transport, for a post or for room in the post's queue (R331): its JOB, match value,
sender and bytes, and the cycle it arrived. -/
structure Message where
  job    : Nat
  match_ : Nat
  peer   : Nat
  data   : List Byte
  since  : Nat
  deriving DecidableEq, Repr

/-- A fault-queue post that waits for room in its ring (R343): the ring register and the 64 bytes. -/
structure Post where
  ring  : Word
  bytes : List Byte
  deriving DecidableEq, Repr

/-- A byte that the group agent of a cluster holds and that may differ from its site's (R157, R160, R165): written and not yet
written back (`dirty`), or older contents. -/
structure Line where
  cluster   : Nat
  addr      : Nat
  val       : Byte
  dirty     : Bool
  /-- a core- or group-scope strong access was made to it since its line was fetched (R165) -/
  exclusive : Bool
  /-- the harts whose stores it holds, -/
  by_       : List Nat
  /-- and those that have acquired it through an open (R160) -/
  acquired  : List Nat
  deriving DecidableEq, Repr

/-- The machine. -/
structure State where
  /-- the number of the issuing hart and the hart itself -/
  hid        : Nat
  hart       : Hart
  /-- the other harts that are not as at reset, by number -/
  others     : List (Nat × Hart)
  cores      : List (Nat × Core)
  clusters   : List (Nat × Cluster)
  /-- local HBM, the domain and blanket windows by physical address; scratchpads and hampers above them -/
  mem        : List Host.Cell
  /-- 32-byte ECC words that hold uncorrectable data (R348) -/
  poison     : List Nat
  /-- the descriptors METHOD and MASK in the ECC spare bits, by 256-byte block, where not zero (R256, R258) -/
  blocks     : List (Nat × BitVec 6)
  /-- decoded contents of the sectors that lie in nibble-delta form under METHOD 3, by 64-byte sector (R256) -/
  deltas     : List (Nat × List Byte)
  /-- what lies in the frame of the sectors that METHOD 1 or 2 does not store as they are, by 64-byte sector (R256, R258) -/
  raws       : List (Nat × List Byte)
  /-- older contents that a hart still reads: hart, address, byte (R159, R161) -/
  stale      : List (Nat × Nat × Byte)
  /-- what the group agents hold that may differ from the sites (R157) -/
  lines      : List Line
  /-- the walk caches of the dies (R261) -/
  walks      : List WalkEntry
  /-- the context pages cached (R253) -/
  ctxPages   : List CtxPage
  /-- next fault tag of a context, where not 1 (R340) -/
  faultTags  : List (Nat × Nat)
  parties    : List Party
  launches   : List Launch
  contexts   : List Context
  nextLaunch : Nat
  nextParty  : Nat
  /-- accepted, uncompleted commands, in acceptance order -/
  engines    : List Accepted
  /-- the number of the next command accepted (the model's own counter) -/
  nextCmd    : Nat
  migrations : List Migration
  moves      : List MoveEntry
  broken     : List Broken
  /-- SHIP routines by slot (R326) -/
  routines   : List (Nat × List (BitVec 32))
  waiters    : List Waiter
  /-- cells being purged, by physical address (R195) -/
  purging    : List Nat
  /-- frame-record entries that differ from those boot gave, by frame PA[47:16] (R368) -/
  frames     : List (Nat × BitVec 32)
  recalls    : List Recall
  /-- overrun times of the host and the accelerator kernel, newest first (R379) -/
  overHost   : List Nat
  overAccel  : List Nat
  ovrHost    : BitVec 16
  ovrAccel   : BitVec 16
  suspHost   : Bool
  suspAccel  : Bool
  /-- the harts whose MSIP bit is set in the software-interrupt block (R36) -/
  msips      : List Nat
  svc        : List (Nat × SvcRegs)
  ports      : List (Nat × PortGroup)
  accNote    : BitVec 6
  hostNring  : Word
  posts      : List Post
  /-- the ring registers that have been posted to (R343) -/
  usedRings  : List Word
  /-- domain control block (Table 24-1) -/
  present    : BitVec 128
  linksUp    : BitVec 32
  jobs       : List (Nat × Word)
  /-- messages that wait at the receiving transport, oldest first (R331) -/
  messages   : List Message
  pcie       : Vector PciePort 8
  shares     : Vector Share 4
  keys       : List KeySlot
  /-- the sealed-key tables: entry KEYIX of context CTX, at 8 × CTX + KEYIX, and the slot it names (R405) -/
  sealedKeys : List (Nat × Nat)
  rotations  : List Rotation
  /-- frames written for a protected context, with the context (R409, R410) -/
  encrypted  : List (Nat × BitVec 16)
  /-- keys generated so far (R402), and unwraps that failed, by cycle (R414) -/
  generated  : Nat
  badBlobs   : List Nat
  attReq     : Word
  attBusy    : Bool
  attDone    : BitVec 32
  virtio     : Vector Virtio 3
  /-- energy carry (R366) and the last sensor reading (R367) -/
  energyCarry : Nat
  sensor     : Option Nat
  /-- the units that boot has left out (R4, R431) -/
  leftOut    : Units
  boot       : Boot
  halted     : Option Halt
  /-- cycles of the main clock since package reset (R72) -/
  clock      : Nat
  /-- events that have arrived and not yet happened, oldest first -/
  events     : List Instr
  /-- how many free values have been taken (the model's own counter) -/
  choices    : Nat
  deriving DecidableEq, Repr

/-- Why the machine stops with a fault. -/
inductive Fault where
  /-- `step`: the accelerator is halted by the alarm or by a thermal fault (R414, R433). Safe. -/
  | halted
  /-- `step`: boot has stopped (Table 30-1, step 4 or 5). Safe. -/
  | bootStopped
  deriving DecidableEq, Repr

/-- Why an instruction is given no meaning. -/
inductive Refusal where
  /-- an arm of `exec` that is not modelled yet. Safe. -/
  | notModelled (mnemonic : String)
  deriving DecidableEq, Repr

/-- No PMP entry set (Table 02-3: reset 0). -/
def Pmp.reset : Pmp := { cfg0 := 0, cfg2 := 0, addr := Vector.replicate 16 0 }

/-- The CSRs at reset (Table 02-3): zero, but for VMASK, stimecmp, MTIMECMP (all ones) and SCOPE (2). -/
def Csrs.reset : Csrs where
  instret := 0
  mstatus := 0
  mtvec := 0
  mepc := 0
  mcause := 0
  mtval := 0
  mie := 0
  mscratch := 0
  pmp := Pmp.reset
  stvec := 0
  sepc := 0
  scause := 0
  stval := 0
  sscratch := 0
  stimecmp := BitVec.allOnes 64
  mtimecmp := BitVec.allOnes 64
  vmode := 0
  vflags := 0
  vmask := BitVec.allOnes 64
  scope := 2
  repstate := 0
  qdelta := 0
  uvec := 0
  uepc := 0
  ucause := 0
  uaddr := 0
  udeleg := 0
  ostat := 0
  lastq := 0
  rank := 0
  coord := 0
  sstep := 0
  party := 0
  kfaultq := 0
  ptroot := 0
  ctxid := 0
  meterSel := 0
  mstat := 0
  rklist := 0
  rkctl := 0
  ssip := false
  meip := false

/-- A vector register at reset (R46). -/
def VecReg.zero : VecReg := ⟨0, .raw⟩

/-- A hart at reset (R46): idle, M-mode, every register zero, every tag RAW; outside any party it holds all 32
vector registers (R214). DESIGN CHOICE (log 37). -/
def Hart.reset : Hart where
  running := false
  pc := 0
  x := Vector.replicate 32 0
  v := Vector.replicate 32 VecReg.zero
  mode := .m
  csr := Csrs.reset
  mt := Vector.replicate 8 0
  stage := Vector.replicate 5 ⟨0, 0⟩
  steps := 0
  inflight := []
  held := 8
  maxHeld := 8
  party := none
  fetch := []
  lastFetch := none
  pending := []
  late := none
  lostStore := false
  trapDue := none
  ships := []
  blocked := none
  since := none
  finished := false

/-- A queue that holds nothing and is not made (R235). -/
def Queue.empty : Queue :=
  { owner := none, base := 0, cap := 0, head := 0, count := 0, entries := [], granted := 0, requests := [],
    waiting := [], closing := false }

/-- A core at reset. DESIGN CHOICE (log 37). -/
def Core.reset : Core :=
  { encl := 0, queues := Vector.replicate 8 Queue.empty, tags := [], allowances := [], icache := [], itlb := [],
    dtlb := [], meshStopped := false, sent := 0, received := 0, turn := 3 }

/-- A cluster at reset. DESIGN CHOICE (log 37). -/
def Cluster.reset : Cluster :=
  { requests := [], lease := ⟨none, false, 0, 0, 0, none⟩, decisions := [], mtlb := [], ctlb := [], loadedB := none,
    slots := 0 }

/-- A service-core hart's registers at reset (Tables 15-8, 21-5, 22-1, 24-1 and R424: zero). -/
def SvcRegs.reset : SvcRegs :=
  { sdReq := 0, sdBusy := false, sdDone := 0, sdHeld := [], fnTarget := 0, preMask := 0, preBusy := false, preResult := 0,
    preDone := 0, preHeld := [], dbgArg := 0, dbgCtx := 0, dbgResult := 0, dbgDone := 0, joinId := 0,
    joinMask := 0, joinStat := 0 }

/-- A record-port group at reset (Table 23-5: zero). -/
def PortGroup.reset : PortGroup := { batch := 0, busy := none, result := 0, done := 0, held := [] }

/-- A PCI Express port at boot (Table 24-2). DESIGN CHOICE (log 12): ROLE 0, disabled. -/
def PciePort.reset : PciePort :=
  { role := 0, owner := 0, linkUp := false, speed := 0, dropped := 0, windows := [] }

/-- A share controller at reset (Table 16-4: zero). -/
def Share.reset : Share :=
  { pool := 0, collected := 0, intervals := 0, entries := [], buckets := [], remainder := 0, waiting := [],
    interval := 0 }

/-- No units. -/
def Units.none : Units := { clusters := [], services := [], sites := [], pcie := [], ether := [] }

/-- Boot at package reset (R428). DESIGN CHOICE (log 12): the flash image verifies, every unit works, and the monitors and
kernels start. -/
def Boot.reset : Boot :=
  { stage := .step 1, flashOk := true, startOk := true, faulty := Units.none, tree := none, address := none,
    dhcpTries := 0, announceTries := 0, fetchTries := 0 }

/-- The package right after reset (R46, R428): every hart idle, memory with nothing listed, boot at its first
step. The hart in focus is service-core hart 0, the first that boot starts. -/
def State.reset : State where
  hid := 4096
  hart := Hart.reset
  others := []
  cores := []
  clusters := []
  mem := []
  poison := []
  blocks := []
  deltas := []
  raws := []
  stale := []
  lines := []
  walks := []
  ctxPages := []
  faultTags := []
  parties := []
  launches := []
  contexts := []
  nextLaunch := 1
  nextParty := 0
  engines := []
  nextCmd := 1
  migrations := []
  moves := []
  broken := []
  routines := []
  waiters := []
  purging := []
  frames := []
  recalls := []
  overHost := []
  overAccel := []
  ovrHost := 0
  ovrAccel := 0
  suspHost := false
  suspAccel := false
  msips := []
  svc := []
  ports := []
  accNote := 0
  hostNring := 0
  posts := []
  usedRings := []
  present := Config.present
  linksUp := 0
  jobs := []
  messages := []
  pcie := Vector.replicate 8 PciePort.reset
  shares := Vector.replicate 4 Share.reset
  keys := []
  sealedKeys := []
  rotations := []
  encrypted := []
  generated := 0
  badBlobs := []
  attReq := 0
  attBusy := false
  attDone := 0
  virtio := Vector.replicate 3 ⟨0, false, []⟩
  energyCarry := 0
  sensor := none
  leftOut := Units.none
  boot := Boot.reset
  halted := none
  clock := 0
  events := []
  choices := 0

end Sys2Proof.Machine
end

