-- ==== Sys2Proof/Machine/Memory.lean ====
section
/-! DEFINITION. Memory as a list of cells in one canonical form, wider values from bytes (R8), keyed maps, and
where the parts of the address space lie in the list: local HBM and the windows at their physical address, a
core's scratchpad and a cluster's hamper above them. -/

namespace Sys2Proof.Machine

/-- The entry of a keyed list, or the default. -/
def assocGet {α : Type} (l : List (Nat × α)) (d : α) (k : Nat) : α :=
  match l with
  | [] => d
  | (i, v) :: t => if i = k then v else assocGet t d k

/-- A keyed list with one entry written, keys rising. -/
def assocSet {α : Type} (l : List (Nat × α)) (k : Nat) (v : α) : List (Nat × α) :=
  match l with
  | [] => [(k, v)]
  | (i, w) :: t => if i = k then (k, v) :: t else if k < i then (k, v) :: (i, w) :: t else (i, w) :: assocSet t k v

/-- A keyed list without the entry of a key. -/
def assocErase {α : Type} (l : List (Nat × α)) (k : Nat) : List (Nat × α) := l.filter (fun e => e.1 ≠ k)

/-- The byte at an address. DESIGN CHOICE (log 1): an unlisted byte reads 0. -/
def Memory.get (m : List Host.Cell) (a : Nat) : Byte :=
  match m with
  | [] => 0
  | (k, b) :: t => if k = a then b else if a < k then 0 else Memory.get t a

/-- Memory with one byte written; writing 0 unlists the address. -/
def Memory.put (m : List Host.Cell) (a : Nat) (b : Byte) : List Host.Cell :=
  match m with
  | [] => if b = 0 then [] else [(a, b)]
  | (k, c) :: t =>
    if k = a then (if b = 0 then t else (a, b) :: t)
    else if a < k then (if b = 0 then (k, c) :: t else (a, b) :: (k, c) :: t)
    else (k, c) :: Memory.put t a b

/-- Every address is above `lo`, addresses rise strictly and no listed byte is 0. -/
def Memory.wfFrom (lo : Nat) (m : List Host.Cell) : Bool :=
  match m with
  | [] => true
  | (k, b) :: t => decide (lo ≤ k) && (b != 0) && Memory.wfFrom (k + 1) t

/-- The canonical form. -/
def Memory.wf (m : List Host.Cell) : Bool := Memory.wfFrom 0 m

/-- The bytes from an address on. -/
def Memory.read (m : List Host.Cell) (a n : Nat) : List Byte :=
  match n with
  | 0 => []
  | n + 1 => Memory.get m a :: Memory.read m (a + 1) n

/-- Memory with bytes written from an address on. -/
def Memory.write (m : List Host.Cell) (a : Nat) (bs : List Byte) : List Host.Cell :=
  match bs with
  | [] => m
  | b :: t => Memory.write (Memory.put m a b) (a + 1) t

/-- Memory with the bytes from `lo` up to `hi` zero. -/
def Memory.clear (m : List Host.Cell) (lo hi : Nat) : List Host.Cell := m.filter (fun c => c.1 < lo || hi ≤ c.1)

/-- The listed cells from `lo` up to `hi`, with addresses relative to `lo`. -/
def Memory.slice (m : List Host.Cell) (lo hi : Nat) : List Host.Cell :=
  (m.filter (fun c => lo ≤ c.1 && c.1 < hi)).map (fun c => (c.1 - lo, c.2))

/-- Memory with relative cells written at an address. -/
def Memory.place (m : List Host.Cell) (lo : Nat) (cs : List Host.Cell) : List Host.Cell :=
  cs.foldl (fun acc c => Memory.put acc (lo + c.1) c.2) m

/-- The number whose little-endian bytes are given (R8). -/
def natOfBytes : List Byte → Nat
  | [] => 0
  | b :: t => b.toNat + 256 * natOfBytes t

/-- The `n` little-endian bytes of a number (R8). -/
def bytesOfNat (n v : Nat) : List Byte :=
  match n with
  | 0 => []
  | n + 1 => BitVec.ofNat 8 v :: bytesOfNat n (v / 256)

/-- A little-endian word of up to eight bytes, zero-extended. -/
def wordOf (bs : List Byte) : Word := BitVec.ofNat 64 (natOfBytes bs)

/-- `n` bytes of a list from an offset on, zero beyond its end. -/
def takeBytes (bs : List Byte) (off n : Nat) : List Byte :=
  match n with
  | 0 => []
  | n + 1 => (bs.drop off).headD 0 :: takeBytes bs (off + 1) n

/-- The core of a hart: four harts each, the service cores following the compute cores (R36, R263). -/
def coreOf (h : Nat) : Nat := h / 4
/-- The hart slot, COORD[1:0]. -/
def slotOf (h : Nat) : Nat := h % 4
/-- The cluster of a compute-core hart. -/
def clusterOf (h : Nat) : Nat := h / 64
/-- Whether a hart is on a compute core (R36). -/
def isCompute (h : Nat) : Bool := h < Config.computeHarts
/-- The cluster of a core. -/
def clusterOfCore (c : Nat) : Nat := c / 16

/-- The size of a scratchpad, 512 KiB (R215). -/
def spadBytes : Nat := 0x80000
/-- The size of an extent, 16 KiB (R203). -/
def extentBytes : Nat := 0x4000
/-- The size of a hamper segment, 64 KiB (R203). -/
def segmentBytes : Nat := 0x10000
/-- Where byte `off` of core `c`'s scratchpad lies in the list. -/
def spadKey (c off : Nat) : Nat := 0x1000000000000 + c * spadBytes + off
/-- Where byte `off` of cluster `k`'s hamper lies in the list. -/
def hamperKey (k off : Nat) : Nat := 0x10000000000000 + k * 0x200000 + off

/-- The base of the party window (R228). -/
def windowBase : Nat := 0x1FFFFFFFFF80000
/-- Whether an address lies in the party window's range (R228). -/
def inWindow (a : Nat) : Bool := windowBase ≤ a && a < 0x200000000000000

/-- The working sites, in increasing order (R431). -/
def State.sites (s : State) : List Nat := (List.range Config.sites).filter (fun n => !s.leftOut.sites.contains n)
/-- The size of local HBM: 64 GiB for each working site (R431). -/
def State.hbmBytes (s : State) : Nat := s.sites.length * 0x1000000000
/-- The site that holds a byte of local memory: PA[15:12], or with sites left out working site (PA >> 12) mod n (R431). -/
def State.siteOf (s : State) (pa : Nat) : Nat := (s.sites[pa / 4096 % s.sites.length]?).getD 0
/-- Whether a PA lies where local HBM lies at full configuration (Table 15-1A). -/
def inHbmRange (pa : Nat) : Bool := pa < Config.hbmBytes
/-- Whether a PA lies in local HBM (Table 15-1A, R431). -/
def inLocalHbm (s : State) (pa : Nat) : Bool := pa < s.hbmBytes
/-- Whether a PA lies in the blanket window (Table 15-1A). -/
def inBlanket (pa : Nat) : Bool := 0x100000000000 ≤ pa && pa < 0x300000000000
/-- Whether a PA lies in the domain windows (Table 15-1A). -/
def inDomain (pa : Nat) : Bool := 0x400000000000 ≤ pa && pa < 0xC00000000000
/-- The device whose window holds a PA (R382). -/
def domainDev (pa : Nat) : Nat := (pa - 0x400000000000) / 0x10000000000
/-- Whether a PA lies in the MMIO range (Table 15-1A). -/
def inMmio (pa : Nat) : Bool := 0xF00000000000 ≤ pa && pa < 0x1000000000000
/-- The window of this device aliases local HBM (R382). -/
def normPa (pa : Nat) : Nat :=
  if inDomain pa && domainDev pa == Config.devno then (pa - 0x400000000000) % 0x10000000000 else pa
/-- Whether a PA is another device's memory (R382). -/
def isRemote (pa : Nat) : Bool := inDomain pa && domainDev pa != Config.devno

/-- Whether the `n` bytes at a location meet an uncorrectable ECC word (R348). -/
def poisoned (p : List Nat) (a n : Nat) : Bool := p.any (fun w => w * 32 < a + n && a < w * 32 + 32)

/-- The words left uncorrectable after a store of the `n` bytes at a location (R348). -/
def unpoison (p : List Nat) (a n : Nat) : List Nat := p.filter (fun w => !(a ≤ w * 32 && w * 32 + 32 ≤ a + n))

/-- METHOD of the block a location lies in (R256); the blanket holds no descriptor, so that the mapping decides (R258). -/
def State.method (s : State) (key : Nat) : Nat := if inBlanket key then 3 else bitsNat (assocGet s.blocks 0 (key / 256)) 4 2

/-- A read of a block under METHOD 3 needs its mask, and the metadata byte at `m` is uncorrectable (R257, R348). -/
def State.maskBad (s : State) (m : Option Nat) (key : Nat) : Bool :=
  match m with
  | some m => s.method key == 3 && poisoned s.poison m 1
  | none => false

/-- The block that a raw write at `a` meets: an HBM block gets METHOD 0, whatever its sectors held (R258); in the blanket,
which holds no descriptors, only the sector written loses its nibble-delta form. -/
def State.rawBlock (s : State) (a : Nat) : State :=
  if inBlanket a then { s with deltas := s.deltas.filter (fun d => d.1 ≠ a / 64) }
  else if assocGet s.blocks 0 (a / 256) = 0 then s
  else { s with
    blocks := assocErase s.blocks (a / 256)
    deltas := s.deltas.filter (fun d => d.1 / 4 ≠ a / 256)
    raws := s.raws.filter (fun d => d.1 / 4 ≠ a / 256) }

/-- A write sets the bit of its granule in the dirty filter of every migration of its page (R270). -/
def noteDirty (ms : List Migration) (a : Nat) : List Migration :=
  ms.map (fun m => if m.src ≤ a ∧ a < m.src + m.size ∧ m.dirty.contains (a / 64) = false
    then { m with dirty := (a / 64) :: m.dirty } else m)

/-! ### Views: the harts' copies and the group agents' lines (R157 to R161) -/

/-- The cluster whose group agent serves a hart; a service core has none (R157). -/
def agentOf (h : Nat) : Option Nat := if isCompute h then some (clusterOf h) else none

/-- The harts that run. -/
def State.runningIds (s : State) : List Nat := (((s.hid, s.hart) :: s.others).filter (fun e => e.2.running)).map (·.1)

/-- What the group agent of a cluster holds of its own, by address. -/
def State.agentCells (s : State) (k : Option Nat) : List Host.Cell :=
  (s.lines.filter (fun l => some l.cluster == k)).map (fun l => (l.addr, l.val))

/-- What it holds that has not been written back (R160). -/
def State.dirtyCells (s : State) (k : Option Nat) : List Host.Cell :=
  (s.lines.filter (fun l => some l.cluster == k && l.dirty)).map (fun l => (l.addr, l.val))

/-- The older contents that a hart still reads, by address. -/
def State.hartCopies (s : State) (h : Nat) : List Host.Cell := (s.stale.filter (fun k => k.1 == h)).map (fun k => (k.2.1, k.2.2))

/-- What stands between the hart in focus and its site: the older contents it still reads, then its agent's. -/
def State.copies (s : State) : List Host.Cell := s.hartCopies s.hid ++ s.agentCells (agentOf s.hid)

/-- A hart's byte: its own latest store, else the point of coherence (R66). -/
def pendingGet (p : List Host.Cell) (m : List Host.Cell) (a : Nat) : Byte :=
  match p with
  | [] => Memory.get m a
  | (k, b) :: t => if k = a then b else pendingGet t m a

/-- Hart `h` goes on seeing what it sees of the byte at `a`, once that changes, or drops its copies of the aligned doubleword and
sees the new contents of all of it (R158, R159). Which is free. -/
def State.keepView (s : State) (a : Nat) (old : Byte) (l : List (Nat × Nat × Byte)) (h : Nat) : List (Nat × Nat × Byte) :=
  if Config.keepsCopy s.choices h (a / 8) then
    (if l.any (fun k => k.1 == h && k.2.1 == a) then l
     else (h, a, ((s.agentCells (agentOf h)).find? (fun c => c.1 == a)).elim old (·.2)) :: l)
  else l.filter (fun k => !(k.1 == h && k.2.1 / 8 == a / 8))

/-- The harts' older contents once the byte at `a`, which read `old` at its site, changes for those that `who` admits. -/
def State.keepViews (s : State) (who : Nat → Bool) (a : Nat) (old : Byte) : List (Nat × Nat × Byte) :=
  (s.runningIds.filter who).foldl (s.keepView a old) s.stale

/-- The group agents' contents once the byte at `a` is written at its site: an agent whose cluster runs, but for that of the
writer, keeps the older contents, or drops those it holds of the aligned doubleword; what it has not written back it keeps
(R158, R159). Which is free. -/
def State.keepLines (s : State) (by_ : Option Nat) (a : Nat) (old : Byte) : List Line :=
  ((s.runningIds.filterMap agentOf).eraseDups.filter (fun k => some k != by_)).foldl (fun l k =>
    if Config.keepsLine s.choices k (a / 8) then
      (if l.any (fun e => e.cluster == k && e.addr == a) then l
       else { cluster := k, addr := a, val := old, dirty := false, exclusive := false, by_ := [], acquired := [] } :: l)
    else l.filter (fun e => e.dirty || !(e.cluster == k && e.addr / 8 == a / 8))) s.lines

/-- Store bytes at a location's site, one after another: by hart `h`, whose copies do not come into it, or by the device. Local
memory has no copies. -/
def State.storeBy (s : State) (h : Option Nat) (a : Nat) (bs : List Byte) : State :=
  match bs with
  | [] => s
  | b :: t =>
    let s := s.rawBlock a
    State.storeBy { s with
      mem := Memory.put s.mem a b
      migrations := noteDirty s.migrations a
      stale := if 2 ^ 48 ≤ a then s.stale else s.keepViews (fun k => some k != h) a (Memory.get s.mem a)
      lines := if 2 ^ 48 ≤ a then s.lines else s.keepLines (h.bind agentOf) a (Memory.get s.mem a) } h (a + 1) t

/-- A store by the device. -/
def State.store (s : State) (a : Nat) (bs : List Byte) : State := s.storeBy none a bs

/-- A store by the device that also corrects every ECC word it covers whole (R348). -/
def State.storeWhole (s : State) (a : Nat) (bs : List Byte) : State :=
  let s := s.store a bs
  { s with poison := unpoison s.poison a bs.length }

/-- Bytes at a location at its point of coherence. -/
def State.load (s : State) (a n : Nat) : List Byte := Memory.read s.mem a n

/-- A little-endian number of `n` bytes at a location. -/
def State.loadNat (s : State) (a n : Nat) : Nat := natOfBytes (s.load a n)

/-- Bytes as a hart sees them (R66, R159). -/
def viewBytes (p : List Host.Cell) (m : List Host.Cell) (a n : Nat) : List Byte :=
  match n with
  | 0 => []
  | n + 1 => pendingGet p m a :: viewBytes p m (a + 1) n

/-- Weak stores put before the pending ones, newest first. -/
def pendStore (p : List Host.Cell) (a : Nat) (bs : List Byte) : List Host.Cell :=
  match bs with
  | [] => p
  | b :: t => pendStore ((a, b) :: p) (a + 1) t

/-- Stores at the site, oldest first. -/
def State.drainList (s : State) (h : Option Nat) (p : List Host.Cell) : State := p.reverse.foldl (fun s c => s.storeBy h c.1 [c.2]) s

/-- Hart `h` and its agent read the bytes for which the test holds at their site. -/
def State.seesSite (s : State) (h : Nat) (f : Nat → Bool) : State :=
  { s with
    stale := s.stale.filter (fun k => !(k.1 == h && f k.2.1))
    lines := s.lines.filter (fun l => !(some l.cluster == agentOf h && f l.addr)) }

/-- The group agent of cluster `k` takes a byte that hart `h` stores: it is written back later (R157, R160). -/
def State.agentPut (s : State) (k h : Nat) (exclusive : Bool) (c : Host.Cell) : State :=
  let old := s.lines.filter (fun l => l.cluster == k && l.addr == c.1)
  let e : Line := {
    cluster := k
    addr := c.1
    val := c.2
    dirty := true
    exclusive := exclusive || old.any (·.exclusive)
    by_ := h :: (old.flatMap (·.by_)).filter (fun j => j != h)
    acquired := old.flatMap (·.acquired) }
  { s with
    lines := e :: s.lines.filter (fun l => !(l.cluster == k && l.addr == c.1))
    stale := (s.keepViews (fun j => agentOf j == some k && j != h) c.1 (Memory.get s.mem c.1)).filter (fun e => !(e.1 == h && e.2.1 == c.1)) }

/-- The agent of cluster `k` takes stores of hart `h`, oldest first. -/
def State.agentPuts (s : State) (k h : Nat) (p : List Host.Cell) : State := p.reverse.foldl (fun s c => s.agentPut k h false c) s

/-- Stores of hart `h` leave its buffer: for its group agent, or on a service core for their site (R157). -/
def State.drainOwn (s : State) (h : Nat) (p : List Host.Cell) : State :=
  match agentOf h with
  | some k => s.agentPuts k h p
  | none => (s.drainList (some h) p).seesSite h (fun a => p.any (fun c => c.1 == a))

/-- A byte of a cell that is being purged: a store to it waits (R197). -/
def State.heldByte (s : State) (a : Nat) : Bool := s.purging.contains (a / 16 * 16)

/-- Some of `n` bytes belong to a cell that is being purged. -/
def State.heldRange (s : State) (a n : Nat) : Bool := (List.range n).any (fun i => s.heldByte (a + i))

/-- The agent of cluster `k` writes back to their sites the bytes it has not yet, in the 64-byte lines for which the test holds
(R160), but for those of a cell being purged (R197). Nothing changes for the harts of the cluster. -/
def State.writeBack (s : State) (k : Nat) (f : Nat → Bool) : State :=
  let go := (s.agentCells (some k)).filter (fun c => f (c.1 / 64) && (s.dirtyCells (some k)).any (fun d => d.1 == c.1) && !s.heldByte c.1)
  match go with
  | [] => s
  | _ =>
    let t := go.reverse.foldl (fun s c => s.storeBy none c.1 [c.2]) s
    { t with
      stale := t.stale.filter (fun e => agentOf e.1 != some k) ++ s.stale.filter (fun e => agentOf e.1 == some k)
      lines := t.lines.filter (fun l => l.cluster != k) ++ s.lines.filter (fun l => l.cluster == k && !go.any (fun c => c.1 == l.addr)) }

/-- Some byte of a 64-byte line that the agent of cluster `k` has not written back is a store of hart `h`, or one it has acquired. -/
def State.owes (s : State) (k h line : Nat) : Bool :=
  s.lines.any (fun l => l.cluster == k && l.dirty && l.addr / 64 == line && (l.by_.contains h || l.acquired.contains h))

/-- What the agent of cluster `k` holds at an address, where that is older contents: nothing there is yet to be written back. -/
def State.olderLine (s : State) (k : Nat) (f : Nat → Bool) (l : Line) : Bool :=
  l.cluster == k && f l.addr && !(s.dirtyCells (some k)).any (fun d => d.1 == l.addr)

/-- The agent of cluster `k` drops the older contents for which the test holds; the harts of the cluster that `who` admits may
each go on seeing them. -/
def State.dropLines (s : State) (k : Nat) (who : Nat → Bool) (f : Nat → Bool) : State :=
  let gone := s.lines.filter (s.olderLine k f)
  { s with
    lines := s.lines.filter (fun l => !s.olderLine k f l)
    stale := gone.foldl (fun st l => State.keepViews { s with stale := st } (fun j => agentOf j == some k && who j) l.addr l.val) s.stale }

/-- The harts of a core discard their copies (R161). -/
def State.openCore (s : State) (c : Nat) : State := { s with stale := s.stale.filter (fun k => coreOf k.1 ≠ c) }

/-- Hart `h` discards its copies, and its agent its older contents, of the aligned doublewords that meet `n` bytes at `a`: having
read these at their home it reads no older contents (R158). -/
def State.freshen (s : State) (h a n : Nat) : State :=
  let f (b : Nat) : Bool := a / 8 ≤ b / 8 && b / 8 < (a + n + 7) / 8
  let s := { s with stale := s.stale.filter (fun k => !(k.1 == h && f k.2.1)) }
  match agentOf h with
  | some k => s.dropLines k (fun j => j != h) f
  | none => s

/-- A strong access at the site recalls the line that group agents, but for the one named, hold exclusively: each writes back what
it has not yet, and drops the line (R165). -/
def State.recallLine (s : State) (own : Option Nat) (key : Nat) : State :=
  let ks := ((s.lines.filter (fun l => l.exclusive && l.addr / 64 == key / 64 && some l.cluster != own)).map (·.cluster)).eraseDups
  ks.foldl (fun s k => (s.writeBack k (fun l => l == key / 64)).dropLines k (fun _ => true) (fun a => a / 64 == key / 64)) s

end Sys2Proof.Machine
end

