-- ==== Sys2Proof/Machine/Ops.lean ====
section
/-! DEFINITION. The operations the meanings share: registers and CSRs, vector results in flight, phases, queues
and posts, killing a party, TAKING AN EXCEPTION and returning from one, and the end of an instruction. -/

namespace Sys2Proof.Machine

/-- An outcome that is a next state. -/
abbrev Out := Host.Outcome State Fault Refusal

/-! ### Harts, cores, clusters, parties -/

/-- Hart `h`, in focus or not. -/
def State.getHart (s : State) (h : Nat) : Hart := if h = s.hid then s.hart else assocGet s.others Hart.reset h

/-- Replace hart `h`. -/
def State.setHart (s : State) (h : Nat) (x : Hart) : State :=
  if h = s.hid then { s with hart := x } else { s with others := assocSet s.others h x }

/-- Bring hart `h` into focus. -/
def State.focus (s : State) (h : Nat) : State :=
  if h = s.hid then s
  else { s with hid := h, hart := assocGet s.others Hart.reset h, others := assocErase (assocSet s.others s.hid s.hart) h }

/-- The numbers of the harts that are not as at reset, the one in focus first. -/
def State.hartIds (s : State) : List Nat := s.hid :: s.others.map (·.1)

/-- Core `c`. -/
def State.core (s : State) (c : Nat) : Core := assocGet s.cores Core.reset c
/-- Replace core `c`. -/
def State.setCore (s : State) (c : Nat) (x : Core) : State := { s with cores := assocSet s.cores c x }
/-- Cluster `k`. -/
def State.cluster (s : State) (k : Nat) : Cluster := assocGet s.clusters Cluster.reset k
/-- Replace cluster `k`. -/
def State.setCluster (s : State) (k : Nat) (x : Cluster) : State := { s with clusters := assocSet s.clusters k x }
/-- The register groups of service-core hart `h`. -/
def State.svcRegs (s : State) (h : Nat) : SvcRegs := assocGet s.svc SvcRegs.reset h
/-- Replace them. -/
def State.setSvc (s : State) (h : Nat) (x : SvcRegs) : State := { s with svc := assocSet s.svc h x }
/-- Record-port group of host core `c`. -/
def State.portGroup (s : State) (c : Nat) : PortGroup := assocGet s.ports PortGroup.reset c
/-- Replace it. -/
def State.setPort (s : State) (c : Nat) (x : PortGroup) : State := { s with ports := assocSet s.ports c x }

/-- The party with an id. -/
def State.party? (s : State) (id : Nat) : Option Party := s.parties.find? (fun p => p.id == id)
/-- The party of the hart in focus. -/
def State.ownParty (s : State) : Option Party := s.hart.party.bind s.party?
/-- Change the party with an id. -/
def State.mapParty (s : State) (id : Nat) (f : Party → Party) : State :=
  { s with parties := s.parties.map (fun p => if p.id = id then f p else p) }
/-- The launch with an id that has not ended. -/
def State.launch? (s : State) (id : Nat) : Option Launch := s.launches.find? (fun l => l.id == id && l.ended.isNone)
/-- Change a launch. -/
def State.mapLaunch (s : State) (id : Nat) (f : Launch → Launch) : State :=
  { s with launches := s.launches.map (fun l => if l.id = id ∧ l.ended = none then f l else l) }
/-- The launch of the hart in focus. -/
def State.ownLaunch (s : State) : Option Launch := s.ownParty.bind (fun p => s.launch? p.launch)
/-- The context with an id. -/
def State.ctx? (s : State) (id : BitVec 16) : Option Context := s.contexts.find? (fun c => c.id == id)
/-- Change a context. -/
def State.mapCtx (s : State) (id : BitVec 16) (f : Context → Context) : State :=
  { s with contexts := s.contexts.map (fun c => if c.id = id then f c else c) }
/-- Activity of a context, counted on chip for its counter `i` of +0x10 + 8 i (R290, R364, R365). -/
def State.charge (s : State) (ctx : BitVec 16) (i n : Nat) : State :=
  s.mapCtx ctx (fun c => { c with gathered := c.gathered.setIfInBounds i ((c.gathered[i]?).getD 0 + n) })
/-- Arrange for an event to happen next, after those already due. DESIGN CHOICE (log 38). -/
def State.raise (s : State) (e : Instr) : State := { s with events := s.events ++ [e] }

/-- The hart in focus. -/
def State.withHart (s : State) (f : Hart → Hart) : State := { s with hart := f s.hart }
/-- The CSRs of the hart in focus. -/
def State.withCsr (s : State) (f : Csrs → Csrs) : State := { s with hart := { s.hart with csr := f s.hart.csr } }
/-- The mode of the hart in focus. -/
def State.mode (s : State) : Mode := s.hart.mode
/-- The core of the hart in focus. -/
def State.ownCore (s : State) : Nat := coreOf s.hid

/-- The code of a mode (Table 02-1). -/
def modeLevel : Mode → Nat
  | .u => 0 | .s => 1 | .m => 3

/-! ### x registers -/

/-- x[r]; x0 reads zero (Table 02-1). -/
def State.x (s : State) (r : Reg) : Word := if r = 0 then 0 else s.hart.x[r.toNat]

/-- x[r] := w; a write to x0 is discarded (Table 02-1). -/
def State.setX (s : State) (r : Reg) (w : Word) : State :=
  if r = 0 then s else { s with hart := { s.hart with x := s.hart.x.set r.toNat w } }

/-! ### Vector registers and results in flight (R39, R40, R105) -/

/-- The register after every write of the hart, in program order, has been made (R40). -/
def Hart.finalV (h : Hart) (r : VReg) : VecReg :=
  h.inflight.foldl (fun acc e => if e.reg = r then e.val else acc) h.v[r.toNat]

/-- The register as a read issued now finds it: the last write in program order that is ready (R39, R40). -/
def Hart.readV (h : Hart) (r : VReg) : VecReg :=
  h.inflight.foldl (fun acc e => if e.reg = r ∧ e.ready ≤ h.steps then e.val else acc) h.v[r.toNat]

/-- Some write of the register is not ready (R40). -/
def Hart.early (h : Hart) (r : VReg) : Bool := h.inflight.any (fun e => e.reg == r && decide (h.steps < e.ready))

/-- Every vector result issued is complete (R37, R40). -/
def Hart.complete (h : Hart) : Hart :=
  { h with v := h.inflight.foldl (fun v e => v.set e.reg.toNat e.val) h.v, inflight := [] }

/-- Results ready at the present step leave the list; an older one of the same register is superseded, and no longer read too early
where it was ready later (R40). DESIGN CHOICE (log 60). -/
def Hart.settle (h : Hart) : Hart :=
  match h.inflight with
  | [] => h
  | l =>
    let r := l.foldl (fun (acc : Vector VecReg 32 × List Inflight) e =>
      if e.ready ≤ h.steps then (acc.1.set e.reg.toNat e.val, acc.2.filter (fun o => o.reg ≠ e.reg))
      else (acc.1, acc.2 ++ [e])) (h.v, [])
    { h with v := r.1, inflight := r.2 }

/-- An interlocked write: it stands at once, whatever is in flight (R105). -/
def Hart.setV (h : Hart) (r : VReg) (val : VecReg) : Hart :=
  { h with v := h.v.set r.toNat val, inflight := h.inflight.filter (fun e => e.reg ≠ r) }

/-- A write of latency class `lat` (R39). -/
def Hart.issueV (h : Hart) (r : VReg) (val : VecReg) (lat : Nat) : Hart :=
  { h with inflight := h.inflight ++ [{ reg := r, ready := h.steps + lat, val := val }] }

/-- The register lies outside the held ones; a hart outside any party holds all 32 (R214). -/
def Hart.unheld (h : Hart) (r : VReg) : Bool := h.party.isSome && decide (4 * h.held ≤ r.toNat)

/-! ### pc and repetition (R42, Table 02-1) -/

/-- A pc: bits [1:0] and [63:57] are zero (Table 02-1). -/
def pcOf (w : Word) : Word := w &&& 0x01FFFFFFFFFFFFFC

/-- REPSTATE.ACTIVE (R42). -/
def repActive (r : Word) : Bool := r.getLsbD 63
/-- REPSTATE with ACTIVE as given. -/
def repSetActive (r : Word) (a : Bool) : Word := (r &&& 0x7FFFFFFFFFFFFFFF) ||| (if a then 0x8000000000000000 else 0)
/-- REPSTATE from its fields (R42). -/
def repPack (active : Bool) (pass count index len stride base : Nat) : Word :=
  BitVec.ofNat 64 (pass % 0x100000 + count % 0x100000 * 2 ^ 20 + index % 16 * 2 ^ 40 + len % 16 * 2 ^ 44
    + stride % 32 * 2 ^ 48 + base % 32 * 2 ^ 53 + (if active then 2 ^ 63 else 0))

/-- Where the hart goes after an instruction that transfers no control, with REPSTATE (R42). -/
def nextPc (pc rep : Word) : Word × Word :=
  if repActive rep then
    let pass := bitsNat rep 0 20
    let count := bitsNat rep 20 20
    let index := bitsNat rep 40 4
    let len := bitsNat rep 44 4
    let stride := bitsNat rep 48 5
    let base := bitsNat rep 53 5
    if index < len then (pcOf (pc + 4), repPack true pass count (index + 1) len stride base)
    else if pass + 1 < count then
      (pcOf (pc - BitVec.ofNat 64 (4 * len)), repPack true (pass + 1) count 0 len stride base)
    else (pcOf (pc + 4), 0)
  else (pcOf (pc + 4), rep)

/-- The vector register field `f` as a `rep` body names it (R42). -/
def rotate (rep : Word) (f : VReg) : VReg :=
  if repActive rep then
    let p := bitsNat rep 0 20
    let st := bitsNat rep 48 5
    let b := bitsNat rep 53 5
    if b ≤ f.toNat then BitVec.ofNat 5 (b + (f.toNat - b + p * st) % (32 - b)) else f
  else f

/-- The hart in focus, when an instruction with `w` empty steps retires (R39, R42, R72). -/
def Hart.retire (h : Hart) (w : Nat) (jump : Option Word) : Hart :=
  let n := nextPc h.pc h.csr.repstate
  { h with
    pc := jump.getD n.1
    steps := h.steps + 1 + w
    csr := { h.csr with
      instret := h.csr.instret + 1
      repstate := if jump.isSome then h.csr.repstate else n.2 } }

/-- The instruction retires and the next in sequence follows. -/
def State.advanceW (s : State) (w : Nat) : State := { s with hart := (s.hart.retire w none).settle }
/-- The instruction retires, with no empty steps. -/
def State.advance (s : State) : State := s.advanceW 0
/-- The instruction retires and control goes to `pc`. -/
def State.jumpTo (s : State) (pc : Word) : State := { s with hart := (s.hart.retire 0 (some pc)).settle }

/-- An instruction that only writes x[rd]. -/
def State.writeRd (s : State) (rd : Reg) (w : Word) : Out := .next (s.setX rd w).advance

/-! ### Phases (R159 to R163, R384) -/

/-- A core or group scope, whose home is the cluster's group agent (Table 08-1). -/
def nearScope : Scope → Bool
  | .core => true
  | .group => true
  | .device => false
  | .system => false

/-- The pending stores of a hart for which the test holds leave its buffer, oldest first, but for those to a cell being purged (R197). -/
def State.drainSome (s : State) (h : Nat) (f : Nat → Bool) : State :=
  let x := s.getHart h
  let (go, stay) := x.pending.partition (fun c => f c.1 && !s.heldByte c.1)
  match go with
  | [] => s
  | p => (s.setHart h { x with pending := stay }).drainOwn h p

/-- Publish of a hart at core or group scope: its pending weak stores reach its group agent, on a service core their site (R157,
R160). -/
def State.publishNear (s : State) (h : Nat) : State := s.drainSome h (fun _ => true)

/-- Publish of a hart at device or system scope: its agent also writes back each line that holds a store of the hart or a write that
it has acquired (R160). -/
def State.publishHart (s : State) (h : Nat) : State :=
  let s := s.publishNear h
  match agentOf h with
  | some k => s.writeBack k (s.owes k h)
  | none => s

/-- Publish of the hart in focus at device or system scope. -/
def State.publish (s : State) : State := s.publishHart s.hid

/-- Publish of the hart in focus at a scope. -/
def State.publishAt (s : State) (near : Bool) : State := if near then s.publishNear s.hid else s.publish

/-- Open of a hart: the copies of its core's harts go, and at device or system scope what its agent holds of older contents; it
acquires what the agent has not written back (R160, R161). -/
def State.openHart (s : State) (near : Bool) (h : Nat) : State :=
  let s := s.openCore (coreOf h)
  match agentOf h with
  | none => s
  | some k =>
    let s := { s with lines := s.lines.map (fun l =>
      if l.cluster = k ∧ l.dirty = true ∧ l.acquired.contains h = false then { l with acquired := h :: l.acquired } else l) }
    if near then s else s.dropLines k (fun j => coreOf j != coreOf h) (fun _ => true)

/-- Open of the hart in focus at a scope. -/
def State.openAt (s : State) (near : Bool) : State := s.openHart near s.hid

/-- Open of the hart in focus at device or system scope. -/
def State.openPhase (s : State) : State := s.openAt false

/-- Open of some harts at device or system scope. -/
def State.openHarts (s : State) (hs : List Nat) : State := hs.foldl (fun s h => s.openHart false h) s

/-- The pending stores of a hart to an aligned range leave its buffer, oldest first (R173, R168). -/
def State.drainRange (s : State) (h lo hi : Nat) : State := s.drainSome h (fun a => lo ≤ a && a < hi)

/-- A 64-byte line meets a range. -/
def lineMeets (lo hi line : Nat) : Bool := lo / 64 ≤ line && line * 64 < hi

/-- The pending stores of a hart to a range reach their site, with what its group agent holds of those lines (R165, R173). -/
def State.settleRange (s : State) (h lo hi : Nat) : State :=
  let s := s.drainRange h lo hi
  match agentOf h with
  | some k => s.writeBack k (lineMeets lo hi)
  | none => s

/-- Every weak store to a range, from every hart, reaches its site (R168). -/
def State.drainRangeAll (s : State) (lo hi : Nat) : State :=
  let s := s.hartIds.foldl (fun s h => s.drainRange h lo hi) s
  ((s.lines.filter (fun l => l.dirty && lineMeets lo hi (l.addr / 64))).map (·.cluster)).eraseDups.foldl
    (fun s k => s.writeBack k (lineMeets lo hi)) s

/-- A store of bytes by the hart in focus that goes to its site at once. -/
def State.storeOwn (s : State) (a : Nat) (bs : List Byte) : State :=
  let s := (s.storeBy (some s.hid) a bs).seesSite s.hid (fun k => a ≤ k && k < a + bs.length)
  { s with poison := unpoison s.poison a bs.length }

/-! ### The context page (R253, R339, R359, R397) -/

/-- PTROOT.ROOT of a register, as the address of the root table. -/
def rootOf (ptroot : Word) : Nat := bitsNat ptroot 12 36 * 4096
/-- PTROOT.CTX. -/
def ctxOf (ptroot : Word) : BitVec 16 := ptroot.extractLsb' 48 16
/-- A field of the context page of the root table at `root` (Table 15-4), as cached with the context's translations, else from
memory (R253). DESIGN CHOICE (log 19). -/
def State.ctxField (s : State) (root off n : Nat) : Nat :=
  match s.ctxPages.find? (fun p => p.root == root) with
  | some p => natOfBytes (Memory.read p.cells off n)
  | none => s.loadNat (root + 0x1000 + off) n
/-- A field of a context page that is not cached is uncorrectable (R252). -/
def State.ctxBad (s : State) (root off n : Nat) : Bool :=
  !s.ctxPages.any (fun p => p.root == root) && poisoned s.poison (root + 0x1000 + off) n
/-- The context page is cached with the translations, unless a word of it is uncorrectable (R252, R253). -/
def State.cachePage (s : State) (ctx : BitVec 16) (root : Nat) : State :=
  let lo := root + 0x1000
  if s.ctxPages.any (fun p => p.root == root) || poisoned s.poison lo 0x1A0 then s
  else { s with ctxPages := { ctx := ctx, root := root, cells := Memory.slice s.mem lo (lo + 0x1A0) } :: s.ctxPages }

/-! ### Rings with the control block of R343 -/

/-- The base of a ring register (Table 21-3). -/
def ringBase (r : Word) : Nat := bitsNat r 6 42 * 64
/-- Entries of a ring register. -/
def ringSize (r : Word) : Nat := 2 ^ bitsNat r 0 4
/-- The service-core hart a ring signals. -/
def ringSvc (r : Word) : Nat := bitsNat r 48 6
/-- The register names a ring: BASE not 0 and the whole ring where local HBM lies (R342). DEDUCED (log 43). -/
def ringNamed (r : Word) : Bool := ringBase r != 0 && inHbmRange (ringBase r + 64 * (1 + ringSize r) - 1)
/-- Entries posted and not consumed, HEAD - TAIL modulo 2^32. -/
def State.ringCount (s : State) (r : Word) : Nat :=
  (s.loadNat (ringBase r) 4 + 0x100000000 - s.loadNat (ringBase r + 4) 4) % 0x100000000
/-- HEAD = TAIL + 2^SIZE. -/
def State.ringFull (s : State) (r : Word) : Bool := s.ringCount r == ringSize r
/-- Write one 64-byte entry and then HEAD (R343). -/
def State.ringWrite (s : State) (r : Word) (bytes : List Byte) : State :=
  let s : State := { s with usedRings := if s.usedRings.contains r then s.usedRings else r :: s.usedRings }
  let head := s.loadNat (ringBase r) 4
  let s := s.storeWhole (ringBase r + 64 * (1 + head % ringSize r)) (takeBytes bytes 0 64)
  s.store (ringBase r) (bytesOfNat 4 ((head + 1) % 0x100000000))
/-- Post an entry; when the ring is full, or older posts wait for it, the post waits (R343). -/
def State.post (s : State) (r : Word) (bytes : List Byte) : State :=
  if s.ringFull r || s.posts.any (fun p => p.ring == r) then { s with posts := s.posts ++ [{ ring := r, bytes := bytes }] }
  else s.ringWrite r bytes

/-- The next fault tag of a context, and the one after it: 1 to 0xFFFF (R340). -/
def State.takeTag (s : State) (ctx : BitVec 16) : Nat × State :=
  let t := assocGet s.faultTags 1 ctx.toNat
  (t, { s with faultTags := assocSet s.faultTags ctx.toNat (if t = 0xFFFF then 1 else t + 1) })

/-- Post a fault-queue entry of a context, counted in its meter record (Table 22-7, FAULTS). -/
def State.postFault (s : State) (ctx : BitVec 16) (r : Word) (bytes : List Byte) : State :=
  (s.mapCtx ctx (fun c => { c with meter := c.meter.set 13 (c.meter[13] + 1) })).post r bytes

/-- Table 21-4. -/
def faultEntry (tag cause flags : Nat) (ctx : BitVec 16) (port : Nat) (addr pc : Word) (rank : BitVec 32)
    (cmdtag : BitVec 16) (status : Nat) (word1 : Word) : List Byte :=
  bytesOfNat 2 tag ++ bytesOfNat 1 cause ++ bytesOfNat 1 flags ++ bytesOfNat 2 ctx.toNat ++ bytesOfNat 1 port
    ++ bytesOfNat 1 0 ++ bytesOfNat 8 addr.toNat ++ bytesOfNat 8 pc.toNat ++ bytesOfNat 4 rank.toNat
    ++ bytesOfNat 2 cmdtag.toNat ++ bytesOfNat 2 status ++ bytesOfNat 8 word1.toNat ++ bytesOfNat 24 0

/-! ### Core queues (R235 to R237) -/

/-- An inbox entry (Table 14-5), zero-extended. -/
def inboxEntry (typ status : Nat) (tag : BitVec 16) (source : Nat) (word1 : Word) (payload : BitVec 128) : VBits :=
  BitVec.ofNat 512 (typ % 65536 + status % 65536 * 2 ^ 16 + tag.toNat * 2 ^ 32 + source % 65536 * 2 ^ 48
    + word1.toNat * 2 ^ 64 + payload.toNat * 2 ^ 128)
/-- TYPE of an inbox entry. -/
def entryType (e : VBits) : Nat := bitsNat e 0 16
/-- STATUS of an inbox entry. -/
def entryStatus (e : VBits) : Nat := bitsNat e 16 16
/-- TAG of an inbox entry. -/
def entryTag (e : VBits) : Nat := bitsNat e 32 16

/-- Queue `q` of a core. -/
def Core.queue (c : Core) (q : Nat) : Queue := if h : q < 8 then c.queues[q] else Queue.empty
/-- Replace queue `q`. -/
def Core.setQueue (c : Core) (q : Nat) (x : Queue) : Core :=
  if h : q < 8 then { c with queues := c.queues.set q x } else c
/-- Change queue `q` of core `c`. -/
def State.mapQueue (s : State) (c q : Nat) (f : Queue → Queue) : State :=
  s.setCore c ((s.core c).setQueue q (f ((s.core c).queue q)))

/-- Entries in a queue: an inbox keeps them itself, a made queue has its ring's count. -/
def Queue.length (q : Queue) (n : Nat) : Nat := if n < 4 then q.entries.length else q.count
/-- Room in a queue: 64 entries in an inbox, the capacity in a made queue (Table 14-4). -/
def Queue.capacity (q : Queue) (n : Nat) : Nat := if n < 4 then 64 else q.cap
/-- The free count of allowances (R240). An inbox counts its rank messages against 48, and grants no place that an entry holds
(R235, R237). DEDUCED (log 20). -/
def Queue.free (q : Queue) (n : Nat) : Nat :=
  if n < 4 then min (48 - (q.entries.filter (fun e => entryType e == 2)).length) (64 - q.entries.length) - q.granted
  else if q.owner.isSome then q.cap - q.count - q.granted else 0

/-- A place that neither an entry nor an allowance holds (R235, R237). -/
def Queue.hasFree (q : Queue) (n : Nat) : Bool := q.length n + q.granted < q.capacity n

/-- The location of a window offset of a party: a held extent in acquisition order, or extent 0 (R215). -/
def Party.windowKey (p : Party) (off : Nat) : Option Nat :=
  if off / extentBytes < 31 then (p.spad[off / extentBytes]?).map (fun e => spadKey p.core (e * extentBytes + off % extentBytes))
  else if off / extentBytes = 31 then some (spadKey p.core (off % extentBytes)) else none

/-- The location of ring entry `i` of a made queue. -/
def State.ringKey (s : State) (q : Queue) (i : Nat) : Option Nat :=
  (q.owner.bind s.party?).bind (fun p => p.windowKey (q.base - windowBase + 64 * i))

/-- Append an entry to a queue that has room: to an inbox, or into the ring's bytes. -/
def State.enqueue (s : State) (c n : Nat) (e : VBits) : State :=
  let q := (s.core c).queue n
  if n < 4 then s.mapQueue c n (fun q => { q with entries := q.entries ++ [e] })
  else match s.ringKey q ((q.head + q.count) % q.cap) with
    | some k => (s.storeWhole k (bytesOfNat 64 e.toNat)).mapQueue c n (fun q => { q with count := q.count + 1 })
    | none => s

/-- An entry arrives: it is appended when there is room and none waits, else it waits in order (R237). -/
def State.arrive (s : State) (c n : Nat) (e : VBits) : State :=
  let q := (s.core c).queue n
  if q.waiting.isEmpty && q.hasFree n then s.enqueue c n e
  else s.mapQueue c n (fun q => { q with waiting := q.waiting ++ [e] })

/-- The head entry of a queue. -/
def State.headEntry (s : State) (c n : Nat) : VBits :=
  let q := (s.core c).queue n
  if n < 4 then q.entries.headD 0
  else match s.ringKey q q.head with
    | some k => BitVec.ofNat 512 (s.loadNat k 64)
    | none => 0

/-- Entries waiting for room are appended in arrival order, `k` at most (R237). -/
def State.refillFrom (s : State) (c n : Nat) : Nat → State
  | 0 => s
  | k + 1 =>
    let q := (s.core c).queue n
    match q.waiting with
    | e :: rest =>
      if q.hasFree n then ((s.mapQueue c n (fun q => { q with waiting := rest })).enqueue c n e).refillFrom c n k else s
    | [] => s

/-- Every entry that waits and finds room is appended (R237). -/
def State.refill (s : State) (c n : Nat) : State := s.refillFrom c n ((s.core c).queue n).waiting.length

/-- Grant held requests while the free count lasts: min(8, free) each, in arrival order (R240). -/
def grantHeld (free : Nat) : List Nat → List (Nat × Nat) × List Nat
  | [] => ([], [])
  | r :: rest =>
    if free = 0 then ([], r :: rest)
    else
      let g := min 8 free
      let (gs, held) := grantHeld (free - g) rest
      ((r, g) :: gs, held)

/-- Serve the held requests of a queue (R240). -/
def State.serveRequests (s : State) (c n : Nat) : State :=
  let q := (s.core c).queue n
  if q.closing || (4 ≤ n && q.owner.isNone) then s
  else
    let (gs, held) := grantHeld (q.free n) q.requests
    let total := (gs.map (·.2)).sum
    match gs with
    | [] => s
    | _ =>
      gs.foldl (fun s g => s.raise (.allowanceGrant g.1 c n g.2))
        (s.mapQueue c n (fun q => { q with requests := held, granted := q.granted + total }))

/-- Remove the head entry (R240). -/
def State.pop (s : State) (c n : Nat) : State :=
  let s := s.mapQueue c n (fun q =>
    if n < 4 then { q with entries := q.entries.drop 1 }
    else { q with head := if q.head + 1 = q.cap then 0 else q.head + 1, count := q.count - 1 })
  (s.refill c n).serveRequests c n

/-- A hardware entry for the inbox of hart `h` (R237). -/
def State.notice (s : State) (h : Nat) (e : VBits) : State := s.arrive (coreOf h) (slotOf h) e

/-- The inbox of hart `h` is non-empty. -/
def State.inboxFull (s : State) (h : Nat) : Bool := !((s.core (coreOf h)).queue (slotOf h)).entries.isEmpty

/-! ### Ranks (R139, R242) -/

/-- The cores of a launch, in rank order. -/
def Launch.cores (l : Launch) : List Nat := l.clusters.flatMap (fun k => (List.range 16).map (fun j => 16 * k + j))
/-- The number of ranks of a launch (R139). -/
def Launch.ranks (l : Launch) : Nat := 64 * l.clusters.length
/-- The hart at a rank (R139). -/
def Launch.hartOf (l : Launch) (rank : Nat) : Option Nat :=
  (l.clusters[rank / 64]?).map (fun k => 64 * k + rank % 64)
/-- The rank of a hart (R139). -/
def Launch.rankOf (l : Launch) (h : Nat) : Option Nat :=
  (l.clusters.findIdx? (fun k => k == h / 64)).map (fun i => 64 * i + h % 64)

/-! ### Killing a party (R147, R219, R293) -/

/-- Clear an extent of a core: zero bytes, and its tag-table entries gone (R219). -/
def State.clearExtent (s : State) (c e : Nat) : State :=
  let lo := spadKey c (e * extentBytes)
  { s with mem := Memory.clear s.mem lo (lo + extentBytes), poison := unpoison s.poison lo extentBytes }

/-- Erase a hamper segment of a cluster (R219). -/
def State.clearSegment (s : State) (k g : Nat) : State :=
  let lo := hamperKey k (g * segmentBytes)
  { s with mem := Memory.clear s.mem lo (lo + segmentBytes), poison := unpoison s.poison lo segmentBytes }

/-- An entry sent under an allowance that is still on its way to queue `n` of a core. -/
def isOnWay (c n : Nat) (e : Instr) : Bool :=
  match e with
  | .queueEntryArrival d q _ .message => d == c && q == n
  | .allowanceGrant _ d q _ => d == c && q == n
  | _ => false

/-- The messages of a launch on their way to queue `n` of a core: sent, or held for the exchange (R239). -/
def State.onWay (s : State) (l : Launch) (c n : Nat) : Nat :=
  (s.events.filter (fun e => match e with
    | .queueEntryArrival d q _ .message => d == c && q == n
    | _ => false)).length + (l.appends.filter (fun a => a.2.1 == c && a.2.2.1 == n)).length

/-- Queue `n` of a core is dropped as by `qdrop`: its outstanding allowances come back, the entries sent under them arrive first, every
entry is discarded, and held requests stay held (R238, R241). -/
def State.dropQueue (s : State) (c n : Nat) : State :=
  let here (l : Launch) : Bool := l.ended.isNone && l.clusters.contains (clusterOfCore c)
  let arrived := ((s.launches.filter here).map (fun l => s.onWay l c n)).sum
  let s : State := { s with
    cores := s.cores.map (fun (k : Nat × Core) => (k.1, { k.2 with
      allowances := k.2.allowances.filter (fun a => !(a.1 == c && a.2.1 == n))
      received := if k.1 = c then k.2.received + arrived else k.2.received }))
    events := s.events.filter (fun e => !isOnWay c n e)
    launches := s.launches.map (fun (l : Launch) => if here l then
      { l with received := l.received + s.onWay l c n, appends := l.appends.filter (fun a => !(a.2.1 == c && a.2.2.1 == n)) } else l) }
  s.mapQueue c n (fun q => { Queue.empty with requests := q.requests })

/-- Drop every queue a party made (R238). -/
def State.dropQueues (s : State) (p : Party) : State :=
  ([4, 5, 6, 7] : List Nat).foldl (fun s n => if ((s.core p.core).queue n).owner = some p.id then s.dropQueue p.core n else s) s

/-- Remove completions and fault notices from an inbox (R146, R293). -/
def State.purgeInbox (s : State) (c n : Nat) : State :=
  (s.mapQueue c n (fun q => { q with
    entries := q.entries.filter (fun e => 1 < entryType e), waiting := q.waiting.filter (fun e => 1 < entryType e) })).refill c n |>.serveRequests c n

/-- The harts of a party. -/
def Party.harts (p : Party) : List Nat := p.slots.map (fun j => 4 * p.core + j)

/-- What a party has in its place: its harts, extents, segments, queues and tags, cleared and released, and its slots' completions
and fault notices (R146, R219, R238). -/
def State.clearPlace (s : State) (p : Party) : State :=
  let s := p.harts.foldl (fun s h => (s.publishHart h).setHart h Hart.reset) s
  let s := p.spad.foldl (fun s e => s.clearExtent p.core e) s
  let s := p.hamper.foldl (fun s g => s.clearSegment (clusterOfCore p.core) g) s
  let s := s.dropQueues p
  let s := s.setCore p.core { s.core p.core with tags := (s.core p.core).tags.filter (fun t => t.party ≠ p.id) }
  p.slots.foldl (fun s n => s.purgeInbox p.core n) s

/-- Release what a party holds, and free its slots; notices of its faults are discarded from then on, a hart that waited at a barrier
leaves the tree, and the banker looks at blocked requests again (R146, R179, R212, R351). A party that is saved has nothing in its old
place (R147). -/
def State.releaseParty (s : State) (p : Party) : State :=
  let s := if p.savedHarts.isEmpty then s.clearPlace p else s
  let s := s.mapLaunch p.launch (fun l => { l with
    deadTags := l.deadTags ++ p.faultTags
    arrivals := l.arrivals.filter (fun a => !p.harts.contains a.1) })
  let s := { s with
    parties := s.parties.filter (fun q => q.id ≠ p.id)
    waiters := s.waiters.filter (fun w => !(p.savedHarts.isEmpty && p.harts.contains w.hart)) }
  let k := clusterOfCore p.core
  let c := s.cluster k
  let s := if p.savedHarts.isEmpty then s.setCluster k { c with requests := c.requests.filter (fun r => !p.harts.contains r.hart) } else s
  if c.requests.isEmpty then s else s.raise (.acqGrant k)

/-- A collective command (Table 17-4). -/
def isCollective (c : Command) : Bool := 0x60 ≤ c.cmd && c.cmd ≤ 0x64
/-- What collective commands match on (R327): launch, RANK0, NRANK and SEQ. -/
def collectiveKey (c : Command) : Option Nat × Nat × Nat × Nat :=
  (c.by_.launch, bitsNat c.word 44 20, bitsNat c.word 224 20, bitsNat c.word 244 12)

/-- The participants that a collective has on this device: those whose ranks its launch holds here (R327, R386). -/
def State.ranksHere (s : State) (key : Option Nat × Nat × Nat × Nat) : Nat :=
  match key.1.bind s.launch? with
  | some l => min key.2.2.1 (l.ranks - key.2.1)
  | none => key.2.2.1

/-- Ranks of a failed collective have completed; it is forgotten with the last (R327, R329). -/
def State.noteBroken (s : State) (key : Option Nat × Nat × Nat × Nat) (ranks : List Nat) : State :=
  let old := match s.broken.find? (fun b => b.key == key) with
    | some b => b.gone
    | none => []
  let gone := ranks.foldl (fun l r => if l.contains r then l else r :: l) old
  let rest := s.broken.filter (fun b => b.key != key)
  { s with broken := if s.ranksHere key ≤ gone.length then rest else rest ++ [{ key := key, gone := gone }] }

/-- Other participants of a collective that a command leaves complete PEER_ERROR, those that push later too (R327, R329). -/
def State.loseCollective (s : State) (c : Command) : State :=
  if isCollective c then
    let others := s.engines.filter (fun a => isCollective a.cmd && collectiveKey a.cmd == collectiveKey c && a.cmd != c)
    (others.foldl (fun s a => s.raise (.commandCompletion a.cmd 8 0 0)) s).noteBroken (collectiveKey c)
      (c.by_.rank.toNat :: others.map (fun a => a.cmd.by_.rank.toNat))
  else s

/-- The cluster whose engines and TLBs serve a pushing hart (Table 17-1). -/
def engineCluster (h : Nat) : Nat :=
  if isCompute h then clusterOf h
  else
    let sc := (h - Config.computeHarts) / 4
    16 * (sc / 4) + sc % 4

/-- The last command of a draining lease has completed: the lease passes (Table 18-2). -/
def State.leaseCheck (s : State) (k : Nat) : State :=
  let c := s.cluster k
  match c.lease.holder with
  | some core =>
    if c.lease.draining && !s.engines.any (fun a => a.cmd.by_.port == 0 && coreOf a.cmd.by_.hart == core) then
      s.setCluster k { c with lease := { c.lease with holder := none, draining := false, last := core, idleSince := none } }
    else s
  | none => s

/-- SCRUBBING: the party's commands complete CANCELLED with their completions discarded, and its holdings are
released (R219, R293, R299). -/
def State.scrubParty (s : State) (p : Party) : State :=
  let gone := (s.engines.filter (fun a => a.cmd.by_.party == some p.id)).map Accepted.cmd
  let s : State := { s with engines := s.engines.filter (fun a => a.cmd.by_.party ≠ some p.id) }
  let s := gone.foldl (fun s c => if c.by_.port = 0 then s.leaseCheck (engineCluster c.by_.hart) else s) s
  (gone.foldl State.loseCollective s).releaseParty p

/-- Kill a party: a save or restore in progress ends first (Table 07-4). -/
def State.killParty (s : State) (id : Nat) : State :=
  match s.party? id with
  | none => s
  | some p =>
    if p.state = .saving ∨ p.state = .restoring then s.mapParty id (fun p => { p with doomed := true })
    else s.scrubParty p

/-! ### Interrupts pending (Table 02-7) -/

/-- Every ring register: KFAULTQ of the harts, FAULTQ and SRING of the contexts, and those posted to before (R339, R342, R343, R359). -/
def State.rings (s : State) : List Word :=
  s.usedRings ++ s.hartIds.map (fun h => (s.getHart h).csr.kfaultq)
    ++ s.contexts.map (fun c => BitVec.ofNat 64 (s.ctxField c.root 0x140 8))
    ++ s.contexts.map (fun c => BitVec.ofNat 64 (s.ctxField c.root 0x150 8))

/-- SEIP of hart `h` (Table 02-7). -/
def State.seip (s : State) (h : Nat) : Bool :=
  !isCompute h && s.rings.any (fun r => ringNamed r && ringSvc r + Config.computeHarts == h && s.ringCount r != 0)

/-- RECALL of hart `h`: its inbox holds a recall notice not popped (R377). -/
def State.recallPending (s : State) (h : Nat) : Bool :=
  !isCompute h && s.accNote.toNat + Config.computeHarts == h
    && ((s.core (coreOf h)).queue (slotOf h)).entries.any (fun e => entryType e == 5 && entryStatus e == 0)

/-- Nanoseconds since package reset at 3 cycles each (R34, R72). -/
def State.time (s : State) : Nat := s.clock / 3

/-- One bit of mip of hart `h` (Table 02-7). -/
def State.mipBit (s : State) (h : Nat) (x : Hart) (n : Nat) : Bool :=
  match n with
  | 1 => x.csr.ssip
  | 3 => s.msips.contains h
  | 5 => x.csr.stimecmp.toNat ≤ s.time
  | 7 => x.csr.mtimecmp.toNat ≤ s.time
  | 9 => s.seip h
  | 11 => x.csr.meip
  | 16 => s.inboxFull h
  | 17 => s.recallPending h
  | _ => false

/-- The interrupts, in the order they are taken (R338). -/
def interruptOrder : List Nat := [11, 3, 7, 9, 1, 5, 17, 16]

/-- mip as a word. -/
def State.mip (s : State) (h : Nat) (x : Hart) : Word :=
  BitVec.ofNat 64 ((interruptOrder.map (fun n => if s.mipBit h x n then 2 ^ n else 0)).sum)

/-- The target mode of an interrupt (R35). -/
def interruptTarget (n : Nat) : Mode := if n = 3 ∨ n = 7 ∨ n = 11 then .m else .s

/-- Interrupt `n` would be taken in the hart's mode, were it pending and enabled in mie (R338). -/
def interruptAllowed (x : Hart) (n : Nat) : Bool :=
  match interruptTarget n, x.mode with
  | .m, .m => x.csr.mstatus.getLsbD 3
  | .m, _ => true
  | _, .m => false
  | _, .s => x.csr.mstatus.getLsbD 1
  | _, .u => true

/-- The hart waits for an operation that has been performed or begun at its home, and takes no interrupt before it
completes (R195, R388). -/
def Hart.committed (x : Hart) : Bool :=
  match x.blocked with
  | some (.retire _ _) => true
  | some (.pcie _ _ _ _) => true
  | _ => false

/-- The hart waits at a barrier whose exchange has begun: a paired context stands in it (R179, R425). -/
def State.inExchange (s : State) (x : Hart) : Bool :=
  match x.blocked, x.party.bind s.party? with
  | some (.barrier _ _), some p => s.contexts.any (fun c => c.id == p.ctx && c.midExchange)
  | _, _ => false

/-- The interrupt taken before the next instruction of hart `h` (R338); mie is looked at first. -/
def State.interrupt? (s : State) (h : Nat) (x : Hart) : Option Nat :=
  if x.csr.mie = 0 ∨ x.committed = true ∨ s.inExchange x = true then none
  else interruptOrder.find? (fun n => x.csr.mie.getLsbD n && interruptAllowed x n && s.mipBit h x n)

/-! ### Taking an exception and returning (R37, R337 to R341, R350) -/

/-- Where a trap goes (R337). -/
inductive TrapTarget where
  | upcall | toS | toM
  deriving DecidableEq, Repr

/-- The target of exception `c` taken by a hart (R337, Table 21-1). -/
def trapTarget (x : Hart) (c : Nat) : TrapTarget :=
  match x.mode with
  | .m => .toM
  | .s => if c = 9 ∨ c = 11 ∨ c = 36 then .toM else .toS
  | .u =>
    if c = 9 ∨ c = 11 ∨ c = 36 then .toM
    else if c = 12 ∨ c = 13 ∨ c = 15 then
      (if x.csr.uvec ≠ 0 ∧ ringNamed x.csr.kfaultq = true then .upcall else .toS)
    else if x.csr.udeleg.getLsbD c = true ∧ x.csr.uvec ≠ 0 then .upcall else .toS

/-- A cause register: INT, REP_PENDING, CODE (R34, R37). -/
def causeWord (int rep : Bool) (code : Nat) : Word :=
  BitVec.ofNat 64 (code % 64 + (if rep then 2 ^ 62 else 0) + (if int then 2 ^ 63 else 0))

/-- The pc a trap vector gives (R37). -/
def vectorPc (tvec : Word) (int : Bool) (code : Nat) : Word :=
  pcOf (if int = true ∧ (tvec &&& 3) = 1 then (tvec &&& ~~~3#64) + BitVec.ofNat 64 (4 * code) else tvec &&& ~~~3#64)

/-- One bit of a word, written. -/
def setBit (w : Word) (n : Nat) (b : Bool) : Word :=
  (w &&& ~~~(BitVec.ofNat 64 (2 ^ n))) ||| (if b then BitVec.ofNat 64 (2 ^ n) else 0)

/-- mstatus when a trap enters M: MPIE := MIE, MIE := 0, MPP := mode (R37). -/
def enterStatusM (w : Word) (from_ : Mode) : Word :=
  (setBit (setBit w 7 (w.getLsbD 3)) 3 false &&& ~~~0x1800#64) ||| BitVec.ofNat 64 (modeLevel from_ * 0x800)
/-- mstatus when a trap enters S: SPIE := SIE, SIE := 0, SPP := mode (R37). -/
def enterStatusS (w : Word) (from_ : Mode) : Word :=
  setBit (setBit (setBit w 5 (w.getLsbD 1)) 1 false) 8 (from_ == .s)
/-- mstatus after `mret`: MIE := MPIE, MPIE := 1, MPP := U (R37). -/
def leaveStatusM (w : Word) : Word := setBit (setBit w 3 (w.getLsbD 7)) 7 true &&& ~~~0x1800#64
/-- mstatus after `sret`: SIE := SPIE, SPIE := 1, SPP := U (R37). -/
def leaveStatusS (w : Word) : Word := setBit (setBit (setBit w 1 (w.getLsbD 5)) 5 true) 8 false
/-- MPP as a mode. -/
def mppMode (w : Word) : Mode := if bitsNat w 11 2 = 3 then .m else if bitsNat w 11 2 = 1 then .s else .u
/-- SPP as a mode. -/
def sppMode (w : Word) : Mode := if w.getLsbD 8 then .s else .u

/-- Trap entry into M-mode (R37). -/
def Hart.enterM (h : Hart) (int : Bool) (code : Nat) (tval : Word) : Hart :=
  { h.complete with
    mode := .m
    pc := vectorPc h.csr.mtvec int code
    csr := { h.csr with
      mepc := h.pc
      mcause := causeWord int (repActive h.csr.repstate) code
      mtval := tval
      mstatus := enterStatusM h.csr.mstatus h.mode
      repstate := repSetActive h.csr.repstate false }
    blocked := none }

/-- Trap entry into S-mode (R37). -/
def Hart.enterS (h : Hart) (int : Bool) (code : Nat) (tval : Word) : Hart :=
  { h.complete with
    mode := .s
    pc := vectorPc h.csr.stvec int code
    csr := { h.csr with
      sepc := h.pc
      scause := causeWord int (repActive h.csr.repstate) code
      stval := tval
      mstatus := enterStatusS h.csr.mstatus h.mode
      repstate := repSetActive h.csr.repstate false }
    blocked := none }

/-- The upcall entry (R340). -/
def Hart.enterU (h : Hart) (code tag : Nat) (tval : Word) : Hart :=
  { h.complete with
    pc := pcOf h.csr.uvec
    csr := { h.csr with
      uepc := h.pc
      uaddr := tval
      ucause := causeWord false (repActive h.csr.repstate) code ||| BitVec.ofNat 64 (tag * 2 ^ 32)
      repstate := repSetActive h.csr.repstate false }
    blocked := none }

/-- A hart's waiting `rel` is over (R218). -/
def State.dropCut (s : State) (h : Nat) : State :=
  { s with parties := s.parties.map (fun (p : Party) => { p with cuts := p.cuts.filter (fun r => r.hart ≠ h) }) }

/-- Waiting requests of the hart in focus are withdrawn when a trap is taken at the instruction (R179, R194, R207, R208). -/
def State.withdraw (s : State) : State :=
  match s.hart.blocked with
  | some (.cell _ _ _ _) => { s with waiters := s.waiters.filter (fun w => w.hart ≠ s.hid) }
  | some (.barrier _ _) =>
    match s.ownParty with
    | some p => s.mapLaunch p.launch (fun l => { l with arrivals := l.arrivals.filter (fun a => a.1 ≠ s.hid) })
    | none => s
  | some (.acq _) =>
    let k := clusterOf s.hid
    s.setCluster k { s.cluster k with requests := (s.cluster k).requests.filter (fun r => r.hart ≠ s.hid) }
  | some .release => s.dropCut s.hid
  | _ => s

/-- The instruction in hand, where its word is in the fetch buffer. -/
def Hart.inHand (h : Hart) : Option Instr :=
  match h.fetch.find? (fun b => b.va == h.pc.toNat / 64 * 64 && !b.bad.contains (h.pc.toNat % 64 / 32 * 32)) with
  | some b => (decodeWord (BitVec.ofNat 32 (natOfBytes (takeBytes b.bytes (h.pc.toNat % 64) 4)))).toOption
  | none => none

/-- An instruction that stores: WRITE of Table 21-4. -/
def storing (i : Instr) : Bool :=
  match i with
  | .sb _ _ _ | .sh _ _ _ | .sw _ _ _ | .sd _ _ _ | .sdS _ _ _ _ | .swS _ _ _ _ => true
  | .amoswapW _ _ _ _ _ | .amoaddW _ _ _ _ _ | .amoxorW _ _ _ _ _ | .amoandW _ _ _ _ _ | .amoorW _ _ _ _ _ => true
  | .amominW _ _ _ _ _ | .amomaxW _ _ _ _ _ | .amominuW _ _ _ _ _ | .amomaxuW _ _ _ _ _ => true
  | .amoswapD _ _ _ _ _ | .amoaddD _ _ _ _ _ | .amoxorD _ _ _ _ _ | .amoandD _ _ _ _ _ | .amoorD _ _ _ _ _ => true
  | .amominD _ _ _ _ _ | .amomaxD _ _ _ _ _ | .amominuD _ _ _ _ _ | .amomaxuD _ _ _ _ _ => true
  | .vse _ _ _ _ | .vsds _ _ _ _ _ | .vsx _ _ _ _ _ | .offer _ _ _ _ _ _ | .cretire _ _ _ _ => true
  | _ => false

/-- WRITE and FETCH of Table 21-4 for a cause that hart `h` takes at the instruction in hand. -/
def accessFlags (h : Hart) (code : Nat) : Nat :=
  let memory : Bool := ([27, 29, 30, 31, 34, 36] : List Nat).contains code
  if code = 0 ∨ code = 1 ∨ code = 12 then 4
  else if code = 6 ∨ code = 7 ∨ code = 15 ∨ code = 32 then 2
  else match memory, h.inHand with
    | true, none => 4
    | true, some i => if storing i then 2 else 0
    | false, _ => 0

/-- An unhandled trap (R350): an entry with KILLED is posted and the party is killed. A hart outside any party
becomes idle (DESIGN CHOICE, log 8). -/
def State.unhandled (s : State) (int : Bool) (code : Nat) (tval : Word) : State :=
  let s :=
    if ringNamed s.hart.csr.kfaultq then
      let ctx := s.hart.csr.ctxid.extractLsb' 0 16
      let (tag, s) := s.takeTag ctx
      s.postFault ctx s.hart.csr.kfaultq
        (faultEntry tag code (8 + (if int then 0 else accessFlags s.hart code)) ctx 0xFF tval s.hart.pc (s.hart.csr.rank.extractLsb' 0 32) 0 0 0)
    else s
  match s.hart.party with
  | some p => s.killParty p
  | none => { s with hart := Hart.reset }

/-- A trap into S-mode, unhandled on a compute-core hart whose stvec has BASE 0 (R350). -/
def State.trapS (s : State) (int : Bool) (code : Nat) (tval : Word) : State :=
  if isCompute s.hid = true ∧ s.hart.csr.stvec &&& ~~~3#64 = 0 then s.unhandled int code tval
  else { s with hart := s.hart.enterS int code tval }

/-- A trap into M-mode, unhandled on a compute-core hart whose mtvec has BASE 0 (R350; log 8). -/
def State.trapM (s : State) (int : Bool) (code : Nat) (tval : Word) : State :=
  if isCompute s.hid = true ∧ s.hart.csr.mtvec &&& ~~~3#64 = 0 then s.unhandled int code tval
  else { s with hart := s.hart.enterM int code tval }

/-- The fault-queue entry of an upcall for a page fault, posted with a new tag (R340). -/
def State.upcallPost (s : State) (code : Nat) (tval : Word) : Nat × State :=
  if code = 12 ∨ code = 13 ∨ code = 15 then
    let ctx := s.hart.csr.ctxid.extractLsb' 0 16
    let (tag, s) := s.takeTag ctx
    let flags := (if code = 15 then 2 else 0) + (if code = 12 then 4 else 0)
    let s := s.postFault ctx s.hart.csr.kfaultq
      (faultEntry tag code flags ctx 0xFF tval s.hart.pc (s.hart.csr.rank.extractLsb' 0 32) 0 0 0)
    let s := match s.hart.party with
      | some p => s.mapParty p (fun p => { p with faultTags := p.faultTags ++ [(s.hid, tag)] })
      | none => s
    (tag, s)
  else (0, s)

/-- xtval of a cause: KEY_UNAVAILABLE has 8 on a hart (R404). -/
def trapValue (c : Nat) (tval : Word) : Word := if c = 36 then 8 else tval

/-- TAKING AN EXCEPTION: cause `c` with its xtval, at the instruction in hand (R37, R337, R340, R350). -/
def State.trap (s : State) (c : Nat) (tval : Word) : State :=
  let s := s.withdraw
  let tval := trapValue c tval
  match trapTarget s.hart c with
  | .toM => s.trapM false c tval
  | .toS => s.trapS false c tval
  | .upcall =>
    let (tag, s) := s.upcallPost c tval
    { s with hart := s.hart.enterU c tag tval }

/-- Taking interrupt `n`; xtval is the queue index for INBOX, else 0 (R338, Table 02-5). -/
def State.takeInterrupt (s : State) (n : Nat) : State :=
  let s := s.withdraw
  let tval : Word := if n = 16 then BitVec.ofNat 64 (slotOf s.hid) else 0
  match interruptTarget n with
  | .m => s.trapM true n tval
  | _ => s.trapS true n tval

/-- An outcome that takes an exception. -/
def State.trapOut (s : State) (c : Nat) (tval : Word) : Out := .next (s.trap c tval)

/-- The word is illegal in the hart's mode: cause 2, with the word in xtval (R48, R59). -/
def State.illegal (s : State) (i : Instr) : Out := s.trapOut 2 (BitVec.setWidth 64 (encodeWord i))

/-- Return from M: the steps of R37 reversed. -/
def Hart.leaveM (h : Hart) : Hart :=
  { h with
    pc := pcOf h.csr.mepc
    mode := mppMode h.csr.mstatus
    csr := { h.csr with
      repstate := repSetActive h.csr.repstate (h.csr.mcause.getLsbD 62)
      mcause := setBit h.csr.mcause 62 false
      mstatus := leaveStatusM h.csr.mstatus } }

/-- Return from S: the steps of R37 reversed. -/
def Hart.leaveS (h : Hart) : Hart :=
  { h with
    pc := pcOf h.csr.sepc
    mode := sppMode h.csr.mstatus
    csr := { h.csr with
      repstate := repSetActive h.csr.repstate (h.csr.scause.getLsbD 62)
      scause := setBit h.csr.scause 62 false
      mstatus := leaveStatusS h.csr.mstatus } }

/-- Return from an upcall (R341). -/
def Hart.leaveU (h : Hart) : Hart :=
  { h with
    pc := pcOf h.csr.uepc
    csr := { h.csr with
      repstate := repSetActive h.csr.repstate (h.csr.ucause.getLsbD 62)
      ucause := setBit h.csr.ucause 62 false } }

/-- A return retires: it counts as an instruction and keeps the pc it set (R72). -/
def State.afterReturn (s : State) (h : Hart) : State :=
  { s with hart := { h with steps := h.steps + 1, csr := { h.csr with instret := h.csr.instret + 1 } }.settle }

/-- The cell being purged for which a Publish of the hart in focus waits: a store of it, or of its agent's, is held there (R160, R197). -/
def State.publishHeld (s : State) : Option Nat :=
  ((s.hart.pending.map (·.1) ++ (s.lines.filter (fun l => some l.cluster == agentOf s.hid && l.dirty)).map (·.addr)).find?
    s.heldByte).map (fun a => a / 16 * 16)

/-- The lost stores of R384: the next Publish traps with cause 7 and xtval 0 before any other effect. -/
def State.publishThenAt (s : State) (near : Bool) (k : State → Out) : Out :=
  if s.hart.lostStore then ({ s with hart := { s.hart with lostStore := false } }).trapOut 7 0
  else match s.publishHeld with
    | some c => .next { s with hart := { s.hart with blocked := some (.purge c) } }
    | none => k (s.publishAt near)

/-- The same at device or system scope. -/
def State.publishThen (s : State) (k : State → Out) : Out := s.publishThenAt false k

end Sys2Proof.Machine
end

