-- ==== Sys2Proof/Machine/Boot.lean ====
section
/-! DEFINITION. The boot sequence (R428, R429): its steps, and the events of the network and of management that
carry it on. -/

namespace Sys2Proof.Machine

/-- The service-core harts leave reset at step 4: hart 0 in focus, each in M-mode at pc 0 (R46, R428); those of a service core that
is left out do not (R431). -/
def startService (s : State) : State :=
  (List.range Config.serviceHarts).foldl (fun s h =>
    if s.leftOut.services.contains (h / 4) then s else s.setHart (Config.computeHarts + h) { Hart.reset with running := true }) s

/-- The numbers below `n` that are not among some units. -/
def countLeft (n : Nat) (out : List Nat) : Nat := ((List.range n).filter (fun k => !out.contains k)).length

/-- The device tree of the units that are not left out (R4, R431). -/
def treeOf (u : Units) : DeviceTree where
  cores := Config.coresPerCluster * countLeft Config.clusters u.clusters
  clusters := countLeft Config.clusters u.clusters
  services := countLeft 16 u.services
  sites := countLeft Config.sites u.sites
  pcie := countLeft 8 u.pcie
  ether := countLeft 8 u.ether

/-- One step of Table 30-1: the sites, then the other units, that fail beyond their spares are left out, and the device tree is
written (R4, R430, R431). The kernels run once step 5 is done; the network steps 6 and 7 go on beside them.
DESIGN CHOICE (log 2). -/
def bootStep (n : Nat) (s : State) : State :=
  match n with
  | 1 => { s with boot := { s.boot with stage := if s.boot.flashOk then .step 2 else .recovery } }
  | 2 => { s with
      leftOut := { s.leftOut with sites := s.boot.faulty.sites }
      boot := { s.boot with stage := .step 3 } }
  | 3 =>
    let out := { s.boot.faulty with sites := s.leftOut.sites }
    { s with
      leftOut := out
      pcie := Vector.ofFn (fun p => if out.pcie.contains p.val then { s.pcie[p] with role := 0 } else s.pcie[p])
      boot := { s.boot with
        stage := .step 4
        tree := some (treeOf out) } }
  | 4 => if s.boot.startOk then { (startService s) with boot := { s.boot with stage := .step 5 } } else { s with boot := { s.boot with stage := .stopped } }
  | _ => if s.boot.startOk = false then { s with boot := { s.boot with stage := .stopped } } else { s with boot := { s.boot with stage := .done, dhcpTries := 1 } }

/-- PACKAGE_RESET: the state of R46 and R428. What the flash holds, which units fail, and the model's own counter of free values, stay. -/
def execPackageReset (s : State) : Out :=
  .next { State.reset with
    boot := { Boot.reset with flashOk := s.boot.flashOk, startOk := s.boot.startOk, faulty := s.boot.faulty }
    generated := s.generated
    choices := s.choices }

/-- RECOVERY_FETCH_RETRY: the image is fetched again, once there is an address (R429). -/
def execRecoveryFetchRetry (s : State) : Out :=
  .next (if s.boot.stage = .recovery ∧ s.boot.address.isSome = true then
    { s with boot := { s.boot with fetchTries := s.boot.fetchTries + 1 } } else s)

/-- DHCPV6_RETRY: while there is no address, it is asked for again (R428 step 6, R429). DESIGN CHOICE (log 54). -/
def execDhcpv6Retry (s : State) : Out :=
  .next (if s.boot.address.isNone then { s with boot := { s.boot with dhcpTries := s.boot.dhcpTries + 1 } } else s)

/-- ANNOUNCEMENT_RETRY: the announcement is sent again, once there is an address (R428 step 7). -/
def execAnnouncementRetry (s : State) : Out :=
  .next (if s.boot.stage = .done ∧ s.boot.address.isSome = true then
    { s with boot := { s.boot with announceTries := s.boot.announceTries + 1 } } else s)

/-- DHCPV6_REPLY: step 6 succeeds and step 7 sends the first announcement; in recovery a boot-file URL lets the
image be fetched (R428, R429). -/
def execDhcpv6Reply (addr : BitVec 128) (bootUrl : Bool) (s : State) : Out :=
  let b := { s.boot with address := some addr }
  .next { s with boot :=
    if s.boot.stage = .recovery then { b with fetchTries := b.fetchTries + (if bootUrl then 1 else 0) }
    else if s.boot.address.isNone then { b with announceTries := b.announceTries + 1 } else b }

/-- RECOVERY_IMAGE_RECEIVED: a verified image is written to flash and boot restarts at step 1; any other is discarded
(R429). -/
def execRecoveryImageReceived (verified : Bool) (s : State) : Out :=
  .next (if verified = true ∧ s.boot.stage = .recovery then
    { s with boot := { s.boot with flashOk := true, stage := .step 1 } } else s)

end Sys2Proof.Machine
end

