-- ==== Sys2Proof/Machine/Csr.lean ====
section
/-! DEFINITION. The CSRs of Table 02-3: their numbers, who may access them (R33), what they read and what a
write to them does (R34, R35, Tables 02-4, 02-7, 21-2, 21-3 and 25-1). -/

namespace Sys2Proof.Machine

/-- The registers of Table 02-3. -/
inductive CsrName where
  | cycle | time | instret
  | mstatus | mtvec | mepc | mcause | mtval | mie | mip | mscratch
  | pmpcfg0 | pmpcfg2 | pmpaddr (n : Fin 16)
  | sstatus | stvec | sepc | scause | stval | sie | sip | sscratch | stimecmp
  | vmode | vflags | vmask | scope | repstate | qdelta | uvec | uepc | ucause | uaddr | udeleg | ostat | qstat
  | rank | coord | sstep | party
  | kfaultq | ptroot | ctxid | meterSel
  | encl | mstat | rklist | rkctl | monitor | mtimecmp
  deriving DecidableEq, Repr

/-- The register with a number (Table 02-3); none where the number is absent. -/
def csrName (n : BitVec 12) : Option CsrName :=
  match n with
  | 0xC00#12 => some .cycle | 0xC01#12 => some .time | 0xC02#12 => some .instret
  | 0x300#12 => some .mstatus | 0x305#12 => some .mtvec | 0x341#12 => some .mepc | 0x342#12 => some .mcause
  | 0x343#12 => some .mtval | 0x304#12 => some .mie | 0x344#12 => some .mip | 0x340#12 => some .mscratch
  | 0x3A0#12 => some .pmpcfg0 | 0x3A2#12 => some .pmpcfg2
  | 0x100#12 => some .sstatus | 0x105#12 => some .stvec | 0x141#12 => some .sepc | 0x142#12 => some .scause
  | 0x143#12 => some .stval | 0x104#12 => some .sie | 0x144#12 => some .sip | 0x140#12 => some .sscratch
  | 0x14D#12 => some .stimecmp
  | 0x800#12 => some .vmode | 0x801#12 => some .vflags | 0x802#12 => some .vmask | 0x803#12 => some .scope
  | 0x804#12 => some .repstate | 0x805#12 => some .qdelta | 0x806#12 => some .uvec | 0x807#12 => some .uepc
  | 0x808#12 => some .ucause | 0x809#12 => some .uaddr | 0x80A#12 => some .udeleg | 0x80B#12 => some .ostat
  | 0x80C#12 => some .qstat
  | 0xCC0#12 => some .rank | 0xCC1#12 => some .coord | 0xCC2#12 => some .sstep | 0xCC3#12 => some .party
  | 0x5C0#12 => some .kfaultq | 0x5C1#12 => some .ptroot | 0x5C2#12 => some .ctxid | 0x5C3#12 => some .meterSel
  | 0x7C0#12 => some .encl | 0x7C1#12 => some .mstat | 0x7C2#12 => some .rklist | 0x7C3#12 => some .rkctl
  | 0x7D0#12 => some .mtimecmp
  | _ =>
    if n.extractLsb' 4 8 = 0x3B#8 then some (.pmpaddr (n.extractLsb' 0 4).toFin)
    else if n.extractLsb' 4 8 = 0x7C#8 then some .monitor
    else none

/-- The lowest mode that may access a number: bits [9:8] (R33). -/
def csrLevel (n : BitVec 12) : Nat := bitsNat n 8 2

/-- The CSR is read-only to a mode (R33). -/
def csrReadOnly (n : BitVec 12) (mode : Mode) : Bool :=
  bitsNat n 10 2 == 3 || n == 0x80B#12 || n == 0x80C#12 || (n == 0x80A#12 && mode == .u)

/-- The access is one that R33 allows. -/
def csrAllowed (n : BitVec 12) (mode : Mode) (write : Bool) : Bool :=
  (csrName n).isSome && decide (csrLevel n ≤ modeLevel mode) && !(write && csrReadOnly n mode)

/-- The bits of mie (Table 02-7). -/
def mieMask : Word := 0x30AAA
/-- The bits that sie and sip show (R35). -/
def sieMask : Word := 0x30222
/-- The fields of mstatus (R34): SIE, MIE, SPIE, MPIE, SPP, MPP. -/
def mstatusMask : Word := 0x19AA
/-- The fields of sstatus (R34): SIE, SPIE, SPP. -/
def sstatusMask : Word := 0x122
/-- The causes that UDELEG can delegate (Table 02-4). -/
def udelegMask : Word := 0x6A1F00000C

/-- `new` where the mask is 1, `old` elsewhere. -/
def maskWrite (old new mask : Word) : Word := (old &&& ~~~mask) ||| (new &&& mask)

/-- mstatus after a write; MPP of 2 names no mode and leaves MPP unchanged (log 9). -/
def writeMstatus (old w : Word) : Word :=
  if bitsNat w 11 2 = 2 then maskWrite old w (mstatusMask &&& ~~~0x1800#64) else w &&& mstatusMask

/-- xtvec after a write: MODE 2 or 3 leaves MODE unchanged (R34). -/
def writeTvec (old w : Word) : Word := if bitsNat w 0 2 < 2 then w else maskWrite old w (~~~3#64)

/-- VMODE after a write: ROUND 5 to 7 leaves ROUND unchanged (Table 02-4). -/
def writeVmode (old w : Word) : Word := maskWrite old w (if bitsNat w 2 3 < 5 then 0x7F else 0x63)

/-- One pmpcfg byte after a write: a locked entry ignores it, bits 5 and 6 read zero, and R = 0 with W = 1 is
reserved and leaves the byte unchanged (R400; log 10). -/
def writePmpByte (old w : Byte) : Byte :=
  if old.getLsbD 7 then old else if w.getLsbD 1 && !w.getLsbD 0 then old else w &&& 0x9F

/-- A pmpcfg register after a write, byte by byte. -/
def writePmpcfg (old w : Word) : Word :=
  wordOf ((List.range 8).map (fun i => writePmpByte (old.extractLsb' (8 * i) 8) (w.extractLsb' (8 * i) 8)))

/-- Entry `n` of the PMP configuration. -/
def pmpCfg (p : Pmp) (n : Nat) : Byte := if n < 8 then p.cfg0.extractLsb' (8 * n) 8 else p.cfg2.extractLsb' (8 * (n - 8)) 8

/-- pmpaddr n ignores writes while entry n is locked, or while entry n + 1 is locked as TOR (RISC-V, R400). -/
def pmpAddrLocked (p : Pmp) (n : Nat) : Bool :=
  (pmpCfg p n).getLsbD 7 || (n < 15 && (pmpCfg p (n + 1)).getLsbD 7 && bitsNat (pmpCfg p (n + 1)) 3 2 == 1)

/-- QSTAT (Table 02-4): which queues of the core are non-empty and full, and LASTQ. -/
def State.qstat (s : State) (lastq : Word) : Word :=
  let c := s.core s.ownCore
  let full (n : Nat) : Bool := (c.queue n).length n == (c.queue n).capacity n && (n < 4 || (c.queue n).owner.isSome)
  BitVec.ofNat 64 (((List.range 8).map (fun n => (if (c.queue n).length n = 0 then 0 else 2 ^ n)
    + (if full n then 2 ^ (8 + n) else 0))).sum + bitsNat lastq 0 3 * 2 ^ 16)

/-- RKCTL.BUSY: a rotation started by this core is in progress (Table 25-1). -/
def State.rkBusy (s : State) : Bool := s.rotations.any (fun r => coreOf r.hart == s.ownCore && !r.done)

/-- What a CSR reads (R34). -/
def State.csrGet (s : State) (n : CsrName) : Word :=
  let c := s.hart.csr
  match n with
  | .cycle => BitVec.ofNat 64 s.clock
  | .time => BitVec.ofNat 64 s.time
  | .instret => c.instret
  | .mstatus => c.mstatus
  | .mtvec => c.mtvec
  | .mepc => c.mepc
  | .mcause => c.mcause
  | .mtval => c.mtval
  | .mie => c.mie
  | .mip => s.mip s.hid s.hart
  | .mscratch => c.mscratch
  | .pmpcfg0 => c.pmp.cfg0
  | .pmpcfg2 => c.pmp.cfg2
  | .pmpaddr i => c.pmp.addr[i.val]
  | .sstatus => c.mstatus &&& sstatusMask
  | .stvec => c.stvec
  | .sepc => c.sepc
  | .scause => c.scause
  | .stval => c.stval
  | .sie => c.mie &&& sieMask
  | .sip => s.mip s.hid s.hart &&& sieMask
  | .sscratch => c.sscratch
  | .stimecmp => c.stimecmp
  | .vmode => c.vmode
  | .vflags => c.vflags
  | .vmask => c.vmask
  | .scope => c.scope
  | .repstate => c.repstate
  | .qdelta => c.qdelta
  | .uvec => c.uvec
  | .uepc => c.uepc
  | .ucause => c.ucause
  | .uaddr => c.uaddr
  | .udeleg => c.udeleg
  | .ostat => c.ostat
  | .qstat => s.qstat c.lastq
  | .rank => c.rank
  | .coord => c.coord
  | .sstep => c.sstep
  | .party => c.party
  | .kfaultq => c.kfaultq
  | .ptroot => c.ptroot
  | .ctxid => c.ctxid
  | .meterSel => c.meterSel
  | .encl => (s.core s.ownCore).encl.setWidth 64
  | .mstat => c.mstat
  | .rklist => c.rklist
  | .rkctl => (c.rkctl &&& 0xFFFF) ||| (if s.rkBusy then 0x20000 else 0)
  | .monitor => 0
  | .mtimecmp => c.mtimecmp

/-- MSTAT (Table 25-1) with a result, SLOT kept. -/
def setResult (mstat : Word) (r : Nat) : Word := (mstat &&& 0x7F00) ||| BitVec.ofNat 64 (r % 16)

/-- Start a rotation of a context (R410): BUSY when one is in progress, NO_KEY without a PENDING key. -/
def State.startRotation (s : State) (ctx : BitVec 16) : State :=
  let result (s : State) (r : Nat) : State := s.withCsr (fun c => { c with mstat := setResult c.mstat r })
  if s.rotations.any (fun r => r.ctx == ctx && !r.done) then result s 5
  else if !s.keys.any (fun k => k.pending && k.kind == .context ctx) then result s 4
  else
    let base := bitsNat s.hart.csr.rklist 6 42 * 64
    let count := s.loadNat base 8
    let frames := (List.range count).map (fun i => s.loadNat (base + 8 + 4 * i) 4)
    (result { s with rotations := s.rotations ++ [{ ctx := ctx, hart := s.hid, frames := frames, done := false }] } 0).raise
      (.rotationComplete ctx)

/-- What a write to a CSR does; fields that are not writable ignore it (R33 to R35). DEDUCED (log 11). -/
def State.csrSet (s : State) (n : CsrName) (w : Word) : State :=
  match n with
  | .cycle | .time | .instret | .ostat | .qstat | .rank | .coord | .sstep | .party | .encl | .mstat | .monitor => s
  | .mstatus => s.withCsr (fun c => { c with mstatus := writeMstatus c.mstatus w })
  | .mtvec => s.withCsr (fun c => { c with mtvec := writeTvec c.mtvec w })
  | .mepc => s.withCsr (fun c => { c with mepc := pcOf w })
  | .mcause => s.withCsr (fun c => { c with mcause := w &&& 0xC00000000000003F })
  | .mtval => s.withCsr (fun c => { c with mtval := w })
  | .mie => s.withCsr (fun c => { c with mie := w &&& mieMask })
  | .mip => s.withCsr (fun c => { c with ssip := w.getLsbD 1, meip := c.meip && w.getLsbD 11 })
  | .mscratch => s.withCsr (fun c => { c with mscratch := w })
  | .pmpcfg0 => s.withCsr (fun c => { c with pmp := { c.pmp with cfg0 := writePmpcfg c.pmp.cfg0 w } })
  | .pmpcfg2 => s.withCsr (fun c => { c with pmp := { c.pmp with cfg2 := writePmpcfg c.pmp.cfg2 w } })
  | .pmpaddr i => s.withCsr (fun c =>
      if pmpAddrLocked c.pmp i.val then c
      else { c with pmp := { c.pmp with addr := c.pmp.addr.set i.val (w &&& 0x3FFFFFFFFFFFFF) } })
  | .sstatus => s.withCsr (fun c => { c with mstatus := maskWrite c.mstatus w sstatusMask })
  | .stvec => s.withCsr (fun c => { c with stvec := writeTvec c.stvec w })
  | .sepc => s.withCsr (fun c => { c with sepc := pcOf w })
  | .scause => s.withCsr (fun c => { c with scause := w &&& 0xC00000000000003F })
  | .stval => s.withCsr (fun c => { c with stval := w })
  | .sie => s.withCsr (fun c => { c with mie := maskWrite c.mie w sieMask })
  | .sip => s.withCsr (fun c => { c with ssip := w.getLsbD 1 })
  | .sscratch => s.withCsr (fun c => { c with sscratch := w })
  | .stimecmp => s.withCsr (fun c => { c with stimecmp := w })
  | .vmode => s.withCsr (fun c => { c with vmode := writeVmode c.vmode w })
  | .vflags => s.withCsr (fun c => { c with vflags := w &&& 0x3F })
  | .vmask => s.withCsr (fun c => { c with vmask := w })
  | .scope => s.withCsr (fun c => { c with scope := w &&& 3 })
  | .repstate => s.withCsr (fun c => { c with repstate := maskWrite c.repstate w 0x03FFFFFFFFFFFFFF })
  | .qdelta => s.withCsr (fun c => { c with qdelta := w &&& 0xFF })
  | .uvec => s.withCsr (fun c => { c with uvec := pcOf w })
  | .uepc => s.withCsr (fun c => { c with uepc := pcOf w })
  | .ucause => s.withCsr (fun c => { c with ucause := w &&& 0xC000FFFF0000003F })
  | .uaddr => s.withCsr (fun c => { c with uaddr := w })
  | .udeleg => s.withCsr (fun c => { c with udeleg := w &&& udelegMask })
  | .kfaultq => s.withCsr (fun c => { c with kfaultq := w &&& 0x003FFFFFFFFFFFCF })
  | .ptroot => s.withCsr (fun c => { c with ptroot := w &&& 0xFFFFFFFFFFFFF000 })
  | .ctxid => s.withCsr (fun c => { c with ctxid := w &&& 0xFFFF })
  | .meterSel => s.withCsr (fun c => { c with meterSel := w &&& 0xFFFF })
  | .rklist => s.withCsr (fun c => { c with rklist := w &&& 0x0000FFFFFFFFFFC0 })
  | .rkctl =>
    let s := s.withCsr (fun c => { c with rkctl := w &&& 0xFFFF })
    if w.getLsbD 16 then s.startRotation (w.extractLsb' 0 16) else s
  | .mtimecmp => s.withCsr (fun c => { c with mtimecmp := w })

end Sys2Proof.Machine
end

