-- ==== Sys2Proof/Machine/Translate.lean ====
section
/-! DEFINITION. Translation (R246 to R262), the frame record's check (R370, R371), PMP (R400), and the check orders
of Tables 04-7 and 06-4 for a hart's access, which give a place in memory or a cause. -/

namespace Sys2Proof.Machine

/-! ### The frame record (R368 to R371) -/

/-- The frame of a PA: 64 KiB, or 2 MiB in the blanket window with the low five bits zero (R368). -/
def frameOf (pa : Nat) : Nat := if inBlanket pa then pa / 0x200000 * 32 else pa / 0x10000

/-- The frame a PA names, this device's own window being local HBM (R382). -/
def frameAt (pa : Nat) : Nat := frameOf (normPa pa)

/-- The entry a frame has at boot: the record's own 128 MiB, here the top of local HBM, belong to firmware and
every other frame to the accelerator kernel (R368, R369; DESIGN CHOICE, log 13). -/
def bootEntry (s : State) (frame : Nat) : BitVec 32 :=
  if (s.hbmBytes - 0x8000000) / 0x10000 ≤ frame ∧ frame < s.hbmBytes / 0x10000 then 0 else 2

/-- The entry of a frame. -/
def State.entry (s : State) (frame : Nat) : BitVec 32 := assocGet s.frames (bootEntry s frame) frame
/-- Write the entry of a frame. -/
def State.setEntry (s : State) (frame : Nat) (e : BitVec 32) : State := { s with frames := assocSet s.frames frame e }

/-- OWNER (Table 23-1). -/
def entOwner (e : BitVec 32) : Nat := bitsNat e 0 2
/-- STATE: 0 HELD, 1 OFFERED, 2 LENT, 3 RECALLING. -/
def entState (e : BitVec 32) : Nat := bitsNat e 2 2
/-- PEER. -/
def entPeer (e : BitVec 32) : Nat := bitsNat e 4 2
/-- RIGHTS = RW. -/
def entRw (e : BitVec 32) : Bool := e.getLsbD 6
/-- SEALED. -/
def entSealed (e : BitVec 32) : Bool := e.getLsbD 7
/-- REVOKED. -/
def entRevoked (e : BitVec 32) : Bool := e.getLsbD 8
/-- DOMAIN. -/
def entDomain (e : BitVec 32) : Bool := e.getLsbD 14

/-- The code of a kernel as OWNER and PEER name it (Table 23-1). -/
def kernelCode : Kernel → Nat
  | .firmware => 0 | .host => 1 | .accel => 2

/-- The rights a kernel has on a frame: 0 owned, 1 borrowed read-only, 2 borrowed read-write; or the cause 30 or 31
(R370). While the record revokes the borrower, its walks fail as revoked (R378). -/
def frameRights (s : State) (k : Nat) (frame : Nat) (write : Bool) : Except Nat Nat :=
  let e := s.entry frame
  if entOwner e = k then .ok 0
  else if entPeer e = k ∧ 2 ≤ entState e ∧ (s.recalls.any (fun r => r.frame == frame && r.revoking)) = true then .error 30
  else if entPeer e = k ∧ 2 ≤ entState e ∧ (!write || entRw e) = true then .ok (if entRw e then 2 else 1)
  else if entRevoked e = true ∧ entPeer e = k then .error 30
  else .error 31

/-- The rights of the accelerator kernel's agents on the frame of a PA, through a leaf of KIND `kind`: another
device's record asks for DOMAIN as well (R371), and a SEALED frame for KIND 1 (R370). DESIGN CHOICE (log 41). -/
def leafRights (s : State) (pa : Nat) (kind : Nat) (write : Bool) : Except Nat Nat :=
  if inMmio pa then .ok 0
  else
    let e := s.entry (frameAt pa)
    if entSealed e = true ∧ kind ≠ 1 then .error 31
    else if isRemote pa = true ∧ entDomain e = false then
      (if entRevoked e = true ∧ entPeer e = 2 then .error 30 else .error 31)
    else frameRights s 2 (frameAt pa) write

/-! ### The walk (R246 to R250) -/

/-- Fields of a page-table entry (Table 15-2). -/
def pteV (p : Word) : Bool := p.getLsbD 0
/-- R. -/
def pteR (p : Word) : Bool := p.getLsbD 1
/-- W. -/
def pteW (p : Word) : Bool := p.getLsbD 2
/-- X. -/
def pteX (p : Word) : Bool := p.getLsbD 3
/-- U. -/
def pteU (p : Word) : Bool := p.getLsbD 4
/-- A. -/
def pteA (p : Word) : Bool := p.getLsbD 5
/-- D. -/
def pteD (p : Word) : Bool := p.getLsbD 6
/-- SPAN. -/
def pteSpan (p : Word) : Bool := p.getLsbD 7
/-- PIN. -/
def ptePin (p : Word) : Bool := p.getLsbD 8
/-- ARENA. -/
def pteArena (p : Word) : Nat := bitsNat p 9 3
/-- PFN. -/
def ptePfn (p : Word) : Nat := bitsNat p 12 36
/-- KEYIX. -/
def pteKeyix (p : Word) : Nat := bitsNat p 48 3
/-- FMT. -/
def pteFmt (p : Word) : Nat := bitsNat p 52 4
/-- CMP. -/
def pteCmp (p : Word) : Nat := bitsNat p 56 3
/-- KIND. -/
def pteKind (p : Word) : Nat := bitsNat p 59 3

/-- How a walk fails (R246, R248, R252). -/
inductive WalkFail where
  | notMapped | malformed | unowned | revoked | integrity
  deriving DecidableEq, Repr

/-- log2 of the size of a leaf at a level, alone or in a SPAN group (Table 15-1). -/
def leafBits (level : Nat) (span : Bool) : Nat := 12 + 9 * level + (if span then 4 else 0)

/-- The PAs from `pa` on, `n` of them, lie wholly in one range that a leaf may name (R250). -/
def leafRange (s : State) (pa n : Nat) : Bool :=
  (inLocalHbm s pa && inLocalHbm s (pa + n - 1)) || (inBlanket pa && inBlanket (pa + n - 1))
    || (inMmio pa && inMmio (pa + n - 1))
    || (inDomain pa && inDomain (pa + n - 1) && domainDev pa == domainDev (pa + n - 1) && s.present.getLsbD (domainDev pa)
        && decide ((pa - 0x400000000000) % 0x10000000000 + n ≤ (if isRemote pa then Config.hbmBytes else s.hbmBytes)))

/-- The attribute constraints of Table 15-6 and of Table 15-5 on memory. -/
def leafKind (p : Word) : Bool :=
  let pa := ptePfn p * 4096
  let hbm := inHbmRange pa || inDomain pa
  (match pteKind p with
    | 0 => pteKeyix p == 0 && !inMmio pa
    | 1 => pteR p && !pteW p && !pteX p && ptePin p && pteCmp p == 0 && hbm
    | 2 => pteKeyix p == 0 && !inMmio pa
    | 3 => pteKeyix p == 0 && pteCmp p == 0 && !inMmio pa
    | _ => pteKeyix p == 0 && pteFmt p == 0 && pteCmp p == 0 && inMmio pa)
  && (match pteCmp p with
    | 0 => true
    | 1 | 2 => hbm
    | _ => hbm || inBlanket pa)

/-- A leaf at a level is well formed (R250); `group` are the 16 entries of its SPAN group. -/
def leafOk (s : State) (p : Word) (level : Nat) (group : List Word) : Bool :=
  decide (level ≤ 2) && !(pteW p && !pteR p) && !p.getLsbD 51 && decide (pteFmt p ≤ 4) && decide (pteCmp p ≤ 4)
    && decide (pteKind p ≤ 4)
    && ptePfn p % 2 ^ (leafBits level (pteSpan p) - 12) == 0
    && (!pteSpan p || group.all (fun q => q == p))
    && leafRange s (ptePfn p * 4096) (2 ^ leafBits level (pteSpan p))
    && leafKind p

/-- The die of a core: compute die d has cores 256 d on, and service cores 4 d to 4 d + 3 (R2, R263). -/
def dieOfCore (c : Nat) : Nat := if c < Config.computeHarts / 4 then c / 256 else (c - Config.computeHarts / 4) / 4

/-- The non-leaf entry that a die's walk cache holds for a context at an address, where the walk uses it: it does where memory
still holds it, and may where memory has changed since (R261, R265). -/
def cachedEntry (s : State) (die : Nat) (ctx : BitVec 16) (a : Nat) : Option Word :=
  match s.walks.find? (fun e => e.die == die && e.ctx == ctx && e.addr == a) with
  | none => none
  | some e => if e.pte = wordOf (s.load a 8) then none else if Config.keepsWalk s.choices a then some e.pte else none

/-- The entry at an address of a table, read at the site: the table must lie in local HBM, owned by the accelerator kernel (R246,
R248, R252). -/
def readEntry (s : State) (t ix : Nat) : Except WalkFail Word :=
  if inLocalHbm s t = false then .error .malformed
  else if entOwner (s.entry (frameOf t)) ≠ 2 ∨ entSealed (s.entry (frameOf t)) = true then
    (if entRevoked (s.entry (frameOf t)) = true ∧ entPeer (s.entry (frameOf t)) = 2 then .error .revoked else .error .unowned)
  else if poisoned s.poison (t + 8 * ix) 8 then .error .integrity
  else .ok (wordOf (s.load (t + 8 * ix) 8))

/-- The entry that a walk for a context reads: as the die's walk cache has it, or from the table. -/
def walkEntry (s : State) (die : Nat) (ctx : BitVec 16) (t ix : Nat) : Except WalkFail Word :=
  match cachedEntry s die ctx (t + 8 * ix) with
  | some p => .ok p
  | none => readEntry s t ix

/-- One step of the walk per level, from `level` down (R246): the leaf and its level, with the non-leaf entries passed, by address. -/
def walkFrom (s : State) (die : Nat) (ctx : BitVec 16) (t level va : Nat) : Except WalkFail (Word × Nat × List (Nat × Word)) :=
  let ix := va / 2 ^ (12 + 9 * level) % 512
  match walkEntry s die ctx t ix with
  | .error f => .error f
  | .ok p =>
    if pteV p = false then .error .notMapped
    else if p &&& 0xE = 0 then
      match level with
      | 0 => .error .malformed
      | l + 1 =>
        if p &&& 0xFFFF000000000FFE ≠ 0 then .error .malformed
        else match walkFrom s die ctx (ptePfn p * 4096) l va with
          | .error f => .error f
          | .ok (q, n, seen) => .ok (q, n, (t + 8 * ix, p) :: seen)
    else
      let group := (List.range 16).map (fun i => wordOf (s.load (t + 8 * (ix / 16 * 16 + i)) 8))
      if pteSpan p = true ∧ poisoned s.poison (t + 8 * (ix / 16 * 16)) 128 = true then .error .integrity
      else if leafOk s p level group then .ok (p, level, []) else .error .malformed

/-- The walk of a virtual address from a root table, by the walker of a die for a context (R246). -/
def walk (s : State) (die : Nat) (ctx : BitVec 16) (root va : Nat) : Except WalkFail (Word × Nat × List (Nat × Word)) :=
  walkFrom s die ctx root 4 va

/-! ### TLBs (R261) -/

/-- A TLB of Table 15-7: its owner is a core or a cluster; an access by way of a copy TLB is a command's. -/
inductive Tlb where
  | fetch (core : Nat) | data (core : Nat) | matrix (cluster : Nat) | copy (cluster : Nat) (cmd : Nat)
  deriving DecidableEq, Repr

/-- The die whose walker serves a TLB. -/
def Tlb.die : Tlb → Nat
  | .fetch c => dieOfCore c
  | .data c => dieOfCore c
  | .matrix k => k / 16
  | .copy k _ => k / 16

/-- The command that an access by way of a TLB is made for, where the TLB asks. -/
def Tlb.users : Tlb → List Nat
  | .copy _ c => [c]
  | _ => []

/-- The entries of a TLB, most recent first. -/
def State.tlb (s : State) : Tlb → List TlbEntry
  | .fetch c => (s.core c).itlb
  | .data c => (s.core c).dtlb
  | .matrix k => (s.cluster k).mtlb
  | .copy k _ => (s.cluster k).ctlb

/-- Replace the entries of a TLB. -/
def State.setTlb (s : State) (t : Tlb) (l : List TlbEntry) : State :=
  match t with
  | .fetch c => s.setCore c { s.core c with itlb := l }
  | .data c => s.setCore c { s.core c with dtlb := l }
  | .matrix k => s.setCluster k { s.cluster k with mtlb := l }
  | .copy k _ => s.setCluster k { s.cluster k with ctlb := l }

/-- Places in a TLB (Table 15-7). -/
def tlbSize : Tlb → Nat
  | .fetch _ => 64 | .data _ => 128 | .matrix _ => 256 | .copy _ _ => 512

/-- The PA an entry gives for an address (R250). -/
def entryPa (e : TlbEntry) (va : Nat) : Nat := ptePfn e.pte * 4096 + va % 2 ^ e.bits

/-- The entry serves a context's address: its page holds it. -/
def tlbHit (ctx : BitVec 16) (va : Nat) (e : TlbEntry) : Bool := e.ctx == ctx && e.va == va / 2 ^ e.bits * 2 ^ e.bits

/-- Two entries are of one page. -/
def TlbEntry.same (e o : TlbEntry) : Bool := e.ctx == o.ctx && e.va == o.va && e.bits == o.bits

/-- The rights that an entry holds for the frame of an address. -/
def TlbEntry.rightsAt (e : TlbEntry) (va : Nat) : Option Nat := (e.frames.find? (fun f => f.1 == frameAt (entryPa e va))).map (·.2)

/-- Entries of a TLB with a place free for one more: the oldest leaves; in a copy TLB the oldest that only completed commands have
used, where there is one (Table 15-7). -/
def State.tlbRoom (s : State) (t : Tlb) (l : List TlbEntry) : List TlbEntry :=
  if l.length < tlbSize t then l
  else match t with
    | .copy _ _ =>
      (match l.reverse.find? (fun e => !e.users.any (fun u => s.engines.any (fun a => a.cmd.id == u))) with
        | some e => l.reverse.erase e |>.reverse
        | none => l.dropLast)
    | _ => l.dropLast

/-- An entry that is used: it comes first, but in the matrix operand TLB, which is first in, first out, stays where it is. -/
def State.tlbUse (s : State) (t : Tlb) (e : TlbEntry) : State :=
  let e := { e with users := t.users ++ e.users.filter (fun u => !t.users.contains u) }
  let l := s.tlb t
  match t with
  | .matrix _ => s.setTlb t (l.map (fun o => if o.same e then e else o))
  | _ => s.setTlb t (e :: l.filter (fun o => !o.same e))

/-- A walk that succeeded fills the walk cache, and the context page is cached with it (R253, R261). -/
def State.noteWalk (s : State) (die : Nat) (ctx : BitVec 16) (root : Nat) (seen : List (Nat × Word)) : State :=
  ({ s with walks := seen.map (fun e => { die := die, ctx := ctx, addr := e.1, pte := e.2 })
      ++ s.walks.filter (fun w => !(w.die == die && w.ctx == ctx && seen.any (fun e => e.1 == w.addr))) } : State).cachePage ctx root

/-- Translate an address: a hit uses the cached leaf and the rights it holds of the address's frame, asking the record for those of
a further frame; a miss walks and caches what it found, unless a permission that the access needs is missing (`ok`), which fails the
walk (R251, R261). The second component is the entry and the rights, or the walk's failure, or the cause 30 or 31 of the leaf's
frame. -/
def translate (s : State) (t : Tlb) (root : Nat) (ctx : BitVec 16) (va : Nat) (write : Bool) (ok : Word → Bool) :
    State × Except (WalkFail ⊕ (Nat × TlbEntry)) (TlbEntry × Nat) :=
  let l := s.tlb t
  match l.find? (tlbHit ctx va) with
  | some e =>
    match e.rightsAt va with
    | some r => (s.tlbUse t e, .ok (e, r))
    | none =>
      match leafRights s (entryPa e va) (pteKind e.pte) write with
      | .error c => (s, .error (.inr (c, e)))
      | .ok r =>
        let e := { e with frames := (frameAt (entryPa e va), r) :: e.frames }
        (s.tlbUse t e, .ok (e, r))
  | none =>
    match walk s t.die ctx root va with
    | .error f => (s, .error (.inl f))
    | .ok (p, level, seen) =>
      let bits := leafBits level (pteSpan p)
      let e : TlbEntry := {
        ctx := ctx
        va := va / 2 ^ bits * 2 ^ bits
        bits := bits
        pte := p
        level := level
        frames := []
        users := t.users }
      let pa := entryPa e va
      match leafRights s pa (pteKind p) write with
      | .error c => (s, .error (.inr (c, e)))
      | .ok r =>
        let e := { e with frames := [(frameAt pa, r)] }
        (if ok p then (s.noteWalk t.die ctx root seen).setTlb t (e :: s.tlbRoom t l) else s, .ok (e, r))

/-! ### PMP (R400) -/

/-- Trailing ones of a number, at most `n`. -/
def trailingOnes (n v : Nat) : Nat :=
  match n with
  | 0 => 0
  | n + 1 => if v % 2 = 1 then trailingOnes n (v / 2) + 1 else 0

/-- The range of PMP entry `i`: none while it is off (RISC-V). -/
def pmpRange (p : Pmp) (i : Nat) : Option (Nat × Nat) :=
  let at_ (j : Nat) : Nat := if h : j < 16 then p.addr[j].toNat else 0
  let a := at_ i
  match bitsNat (pmpCfg p i) 3 2 with
  | 0 => none
  | 1 => some ((if i = 0 then 0 else at_ (i - 1)) * 4, a * 4)
  | 2 => some (a * 4, a * 4 + 4)
  | _ =>
    let g := trailingOnes 54 a
    some (a / 2 ^ (g + 1) * 2 ^ (g + 1) * 4, a / 2 ^ (g + 1) * 2 ^ (g + 1) * 4 + 2 ^ (g + 3))

/-- The kinds of access PMP and Table 15-3 tell apart. -/
inductive Need where
  | read | write | exec
  deriving DecidableEq, Repr

/-- The first entry that meets the access decides; it must cover all of it (RISC-V, R400). -/
def pmpScan (p : Pmp) (mode : Mode) (pa n : Nat) (need : Need) : List Nat → Bool
  | [] => mode == .m
  | i :: rest =>
    match pmpRange p i with
    | none => pmpScan p mode pa n need rest
    | some (lo, hi) =>
      if lo < pa + n ∧ pa < hi then
        let c := pmpCfg p i
        decide (lo ≤ pa ∧ pa + n ≤ hi) && ((mode == .m && !c.getLsbD 7) || (match need with
          | .read => c.getLsbD 0
          | .write => c.getLsbD 1
          | .exec => c.getLsbD 2))
      else pmpScan p mode pa n need rest

/-- PMP allows the access (R400). PRESUMED (log 22): while every entry is off, PMP restricts nothing. -/
def pmpOk (p : Pmp) (mode : Mode) (pa n : Nat) (need : Need) : Bool :=
  (List.range 16).all (fun i => (pmpRange p i).isNone) || pmpScan p mode pa n need (List.range 16)

/-- Table 15-3. -/
def permits (p : Word) (mode : Mode) (need : Need) : Bool :=
  pteA p && (match need with
    | .read => pteR p && (mode != .u || pteU p)
    | .write => pteR p && pteW p && pteD p && (mode != .u || pteU p)
    | .exec => pteX p && (if mode = .u then pteU p else !pteU p))

/-! ### The MMIO range (R249) -/

/-- The blocks that perform 8-byte accesses only (R249): base, distance, number and size of each block's groups. DEDUCED (log 27):
a block claims the offsets that its table lists. -/
def mmioBlocks : List (Nat × Nat × Nat × Nat) :=
  [(0xF00000010000, 0x810, 1, 0x810), (0xF00000020000, 64, 64, 64), (0xF00000030000, 0x1000, 4, 0x300),
    (0xF00000040000, 0x1200, 1, 0x1200), (0xF00000050000, 0x1000, 8, 0x900), (0xF00000060000, 0x100, 1, 0x100),
    (0xF00000070000, 16, 1, 16), (0xF00000080000, 64, 64, 64),
    (0xF00000090000, 8, Config.computeHarts + Config.serviceHarts, 8)]

/-- An address lies in one of them. -/
def mmioWide (pa : Nat) : Bool :=
  mmioBlocks.any (fun b => b.1 ≤ pa && pa < b.1 + b.2.1 * b.2.2.1 && (pa - b.1) % b.2.1 < b.2.2.2)

/-- An access of this size is performed in the MMIO range (R67, R249). -/
def mmioSize (pa n : Nat) : Bool := n == 8 || (n == 4 && !mmioWide pa)

/-- The blanket ports, by rising number (R393). -/
def State.blanketPorts (s : State) : List PciePort := s.pcie.toList.filter (fun p => p.role == 3)

/-- Where a PA of the blanket lies behind `n` blanket ports: which of them, and the enclosure's address (R393). -/
def blanketHome (n pa : Nat) : Nat × Nat :=
  let o := pa - 0x100000000000
  (o / 4096 % n, o / 4096 / n * 4096 + o % 4096)

/-- A read of `n` bytes fails on the link: the port that some of them lie behind has its link down (R393, R395). DEDUCED (log 52). -/
def State.linkCut (s : State) (pa n : Nat) : Bool :=
  let ports := s.blanketPorts
  inBlanket pa && (List.range (min ports.length ((pa + n - 1) / 4096 - pa / 4096 + 1))).any (fun i =>
    match ports[(blanketHome ports.length (pa + 4096 * i)).1]? with
    | some p => !p.linkUp
    | none => false)

/-- Some blanket port has its link up (R395). -/
def State.blanketUp (s : State) : Bool := s.pcie.toList.any (fun p => p.role == 3 && p.linkUp)

/-- The memory behind a PA answers: the domain window of a device present, the blanket with a link up (R382, R395). -/
def State.answers (s : State) (pa : Nat) : Bool :=
  if inDomain pa then s.present.getLsbD (domainDev pa) else if inBlanket pa then s.blanketUp else true

/-- A PA names something (R249). -/
def State.named (s : State) (pa : Nat) : Bool :=
  inLocalHbm s (normPa pa) || inBlanket pa || inMmio pa || (isRemote pa && s.present.getLsbD (domainDev pa))

/-! ### A hart's access -/

/-- The accesses of Tables 04-7, 06-4 and R174. -/
inductive Acc where
  | load | store | amo | strongLoad | strongStore | vload | vstore
  deriving DecidableEq, Repr

/-- The access writes. -/
def Acc.isStore : Acc → Bool
  | .load | .strongLoad | .vload => false
  | _ => true
/-- The access reads. -/
def Acc.isLoad : Acc → Bool
  | .load | .strongLoad | .vload | .amo => true
  | _ => false
/-- The access is a vector access. -/
def Acc.isVector : Acc → Bool
  | .vload | .vstore => true
  | _ => false
/-- The access is strong. -/
def Acc.isStrong : Acc → Bool
  | .strongLoad | .strongStore | .amo => true
  | _ => false

/-- Check 6: the window location of an address for a hart of party `p`; extent 0 gives the task slots of the party's
harts alone (R215, R230). -/
def windowPlace (p : Party) (a n : Nat) : Option Nat :=
  let off := a - windowBase
  if off / extentBytes < 31 then p.windowKey off
  else
    let e := off % extentBytes
    if 0x2000 ≤ e ∧ e + n ≤ 0x2100 ∧ p.slots.contains ((e - 0x2000) / 64) = true then some (spadKey p.core e) else none

/-- Bytes of a read meet an uncorrectable word, or fail on a blanket link (R348, R395): for a weak access, those that the hart's own
pending stores do not cover. -/
def State.badRead (s : State) (strong : Bool) (key n : Nat) : Bool :=
  (List.range n).any (fun i => (poisoned s.poison (key + i) 1 || s.linkCut (key + i) 1) && (strong || !s.hart.pending.any (fun c => c.1 == key + i)))

/-- The location of the metadata byte of a CMP 3 or 4 access; none when the access is refused, 34 when the walk it takes meets
uncorrectable data (R252, R257). DEDUCED (log 57). -/
def metaKey (s : State) (t : Tlb) (root : Nat) (ctx : BitVec 16) (mode : Mode) (va : Nat) (write : Bool) : State × Except Nat Nat :=
  let origin := s.ctxField root 0x100 8
  let base := s.ctxField root 0x108 8
  let len := s.ctxField root 0x110 8
  if s.ctxBad root 0x100 24 then (s, .error 34)
  else if va < origin ∨ len ≤ (va - origin) / 512 then (s, .error 0)
  else
    let a := base + (va - origin) / 512
    let ok (p : Word) : Bool := permits p mode (if write then .write else .read) && pteW p
    if 2 ^ 57 ≤ a ∨ inWindow a = true then (s, .error 0)
    else match translate s t root ctx a true ok with
      | (s, .error (.inl .integrity)) => (s, .error 34)
      | (s, .error _) => (s, .error 0)
      | (s, .ok (e, r)) =>
        if pteKind e.pte = 0 ∧ pteFmt e.pte = 0 ∧ pteCmp e.pte = 0 ∧ ok e.pte = true ∧ r ≠ 1 then
          (s, .ok (normPa (entryPa e a)))
        else (s, .error 0)

/-- The metadata byte's location for an access through a leaf, where its CMP asks for one. -/
def metaFor (s : State) (t : Tlb) (root : Nat) (ctx : BitVec 16) (mode : Mode) (p : Word) (va : Nat) (write : Bool) :
    State × Except Nat (Option Nat) :=
  if pteCmp p < 3 then (s, .ok none)
  else match metaKey s t root ctx mode va write with
    | (s, .error c) => (s, .error c)
    | (s, .ok m) => (s, .ok (some m))

/-- The cause of a refused load or store. -/
def accessCause (k : Acc) : Nat := if k.isStore then 7 else 5

/-- Checks 7 to 9 of Tables 04-7 and 06-4 for a page, as a cause; `fmt` says that the access is one that R130
performs on an FMT page, whose checks 9 and 10 come after its arena's. -/
def kindCause (s : State) (k : Acc) (e : TlbEntry) (pa n : Nat) (fmt : Bool) : Option Nat :=
  let p := e.pte
  if pteKind p = 1 then some 29
  else if pteFmt p ≠ 0 ∧ fmt = false ∧ (k.isStore || k.isStrong || k.isVector) = true then some (accessCause k)
  else if (pteKind p = 3 ∨ pteKind p = 4) ∧ k.isStrong = true then some (accessCause k)
  else if pteKind p = 4 ∧ k.isVector = true then some (accessCause k)
  else if inMmio pa = true ∧ mmioSize pa n = false then some (accessCause k)
  else if s.answers pa = false then some (accessCause k)
  else if pteKind p = 2 ∧ k.isStore = true ∧ fmt = false then some 32
  else none

/-- An M-mode access is physical (R67): order 1, then alignment, then the MMIO part of check 8, then check 10.
DEDUCED (log 27). -/
def checkPhysical (s : State) (k : Acc) (a n : Nat) : Except Nat Place :=
  let need : Need := if k.isStore then .write else .read
  if 2 ^ 48 ≤ a ∨ pmpOk s.hart.csr.pmp .m a n need = false ∨ s.named a = false then .error (accessCause k)
  else if a % n ≠ 0 then .error (if k.isStore then 6 else 4)
  else if inMmio a = true then
    (if k.isStrong || k.isVector || !mmioSize a n then .error (accessCause k)
     else .ok { key := a, mmio := true, window := false, pte := 0, meta_ := none, va := a })
  else if s.answers a = false then .error (accessCause k)
  else if k.isLoad = true ∧ s.badRead k.isStrong (normPa a) n = true then .error 34
  else .ok { key := normPa a, mmio := false, window := false, pte := 0, meta_ := none, va := a }

/-- An access to the party window: alignment, check 6 and check 10 (R228). -/
def checkWindow (s : State) (k : Acc) (a n : Nat) : Except Nat Place :=
  if a % n ≠ 0 then .error (if k.isStore then 6 else 4)
  else match s.ownParty.bind (fun p => windowPlace p a n) with
    | none => .error 27
    | some key =>
      if k.isLoad = true ∧ s.badRead k.isStrong key n = true then .error 34
      else .ok { key := key, mmio := false, window := true, pte := 0, meta_ := none, va := a }

/-- The cause of a walk failure: a page fault, or 34, 31 or 30 (R252). -/
def walkCause (page : Nat) : WalkFail → Nat
  | .notMapped | .malformed => page
  | .unowned => 31
  | .revoked => 30
  | .integrity => 34

/-- A context was given a protection key, and the key has been erased: accesses to local HBM fail (R404; log 34). -/
def State.keyGone (s : State) (ctx : BitVec 16) (key : Nat) : Bool :=
  inLocalHbm s key && s.contexts.any (fun c => c.id == ctx && c.protected_) && !s.keys.any (fun k => k.kind == .context ctx)

/-- A U- or S-mode access outside the window: checks 2 to 10 (Tables 04-7 and 06-4). -/
def checkVirtual (s : State) (k : Acc) (a n : Nat) (fmt : Bool) : State × Except Nat Place :=
  let page := if k.isStore then 15 else 13
  let need : Need := if k.isStore then .write else .read
  let mode := s.hart.mode
  let t : Tlb := .data s.ownCore
  let root := rootOf s.hart.csr.ptroot
  let ctx := ctxOf s.hart.csr.ptroot
  if a % n ≠ 0 then (s, .error (if k.isStore then 6 else 4))
  else match translate s t root ctx a k.isStore (fun p => permits p mode need) with
    | (s, .error (.inl f)) => (s, .error (walkCause page f))
    | (s, .error (.inr (c, e))) =>
      if permits e.pte mode need = false then (s, .error page)
      else if pmpOk s.hart.csr.pmp mode (entryPa e a) n need = false then (s, .error (accessCause k))
      else (s, .error c)
    | (s, .ok (e, r)) =>
      let pa := entryPa e a
      if permits e.pte mode need = false then (s, .error page)
      else
        let (s, m) := metaFor s t root ctx mode e.pte a k.isStore
        if m = .error 34 then (s, .error 34)
        else if pmpOk s.hart.csr.pmp mode pa n need = false then (s, .error (accessCause k))
        else if r = 1 ∧ k.isStore = true then (s, .error 31)
        else match kindCause s k e pa n fmt with
          | some c => (s, .error c)
          | none =>
            let key := normPa pa
            match m with
            | .error _ => (s, .error (accessCause k))
            | .ok m =>
              if inMmio pa then (s, .ok { key := pa, mmio := true, window := false, pte := e.pte, meta_ := none, va := a })
              else if k.isLoad = true ∧ fmt = false ∧ (s.badRead k.isStrong key n || s.maskBad m key) = true then (s, .error 34)
              else if s.keyGone ctx key then (s, .error 36)
              else (s, .ok { key := key, mmio := false, window := false, pte := e.pte, meta_ := m, va := a })

/-- Check an access of `n` bytes at `a` in the order of Table 04-7 or 06-4. -/
def check (s : State) (k : Acc) (a : Word) (n : Nat) (fmt : Bool) : State × Except Nat Place :=
  let w := a.toNat
  if s.hart.mode = .m then
    if s.hart.party.isSome = true ∧ inWindow w = true then (s, checkWindow s k w n) else (s, checkPhysical s k w n)
  else if 2 ^ 57 ≤ w then (s, .error (accessCause k))
  else if inWindow w then (s, checkWindow s k w n)
  else checkVirtual s k w n fmt

/-! ### Scale arenas (R91, R254) -/

/-- The place of the scale word of the block at `va` on a page: none of R91's or R254's conditions may fail. A failure
gives a cause and its xtval; cause 0 stands for the access fault at the data address, 1 for a page fault on the arena's
own walk. DEDUCED (log 44). -/
def arenaPlace (s : State) (t : Tlb) (root : Nat) (ctx : BitVec 16) (mode : Mode) (pmp : Pmp) (p : Word) (va blk : Nat) (write : Bool) :
    State × Except (Nat × Nat) Place :=
  let off := 32 * pteArena p
  let origin := s.ctxField root off 8
  let base := s.ctxField root (off + 8) 8
  let len := s.ctxField root (off + 16) 8
  let sa := base + (va - origin) / blk * 4
  let refused (e : TlbEntry) : Bool := !pteA e.pte || (mode == .u && !pteU e.pte)
  if s.ctxBad root off 24 then (s, .error (34, va))
  else if va % blk ≠ 0 ∨ va < origin ∨ base + len < sa + 4 ∨ 2 ^ 57 ≤ sa ∨ inWindow sa = true then (s, .error (0, va))
  else match translate s t root ctx sa write (fun p => pteA p && (mode != .u || pteU p)) with
    | (s, .error (.inl f)) => (s, .error (walkCause 1 f, sa))
    | (s, .error (.inr (c, e))) => (s, .error (if refused e then 1 else c, sa))
    | (s, .ok (e, r)) =>
      let q := e.pte
      let pa := entryPa e sa
      if refused e then (s, .error (1, sa))
      else if pmpOk pmp mode pa 4 (if write then .write else .read) = false then (s, .error (0, va))
      else if r = 1 ∧ write = true then (s, .error (31, sa))
      else if pteFmt q ≠ 0 ∨ pteCmp q ≠ 0 ∨ pteKind q ≠ pteKind p ∨ (pteKind p = 1 ∧ pteKeyix q ≠ pteKeyix p) ∨ pteR q = false
          ∨ (write = true ∧ (pteW q = false ∨ pteD q = false)) ∨ inMmio pa = true ∨ s.answers pa = false then (s, .error (0, va))
      else (s, .ok { key := normPa pa, mmio := false, window := false, pte := q, meta_ := none, va := sa })

end Sys2Proof.Machine
end

