-- ==== Sys2Proof/Machine/Access.lean ====
section
/-! DEFINITION. Reading and writing at a place: the hart's own view of memory (R66, R159), weak and strong accesses,
tag-table DIRTY bits (R231), replicated commits (R169, R280) and compression (R256 to R258). -/

namespace Sys2Proof.Machine

/-! ### Compression -/

/-- The metadata nibble of the block at `va` (R257). -/
def maskNibble (byte : Byte) (va : Nat) : Nat := if va / 256 % 2 = 1 then byte.toNat / 16 else byte.toNat % 16
/-- The metadata byte with the nibble of the block at `va` replaced (R257). -/
def setNibble (byte : Byte) (va m : Nat) : Byte :=
  if va / 256 % 2 = 1 then BitVec.ofNat 8 (byte.toNat % 16 + m % 16 * 16) else BitVec.ofNat 8 (byte.toNat / 16 * 16 + m % 16)

/-- The 16-bit words of a sector. -/
def sectorWords (bs : List Byte) : List Nat := (List.range 32).map (fun i => natOfBytes (takeBytes bs (2 * i) 2))
/-- Every difference between consecutive words, modulo 2^16, is a signed 4-bit number (Table 15-5). -/
def nibbleDelta (bs : List Byte) : Bool :=
  (List.range 31).all (fun i =>
    let w := sectorWords bs
    let d := ((w.drop (i + 1)).headD 0 + 65536 - (w.drop i).headD 0) % 65536
    decide (d ≤ 7 ∨ 65528 ≤ d))

/-- One byte of a block under METHOD 3 through a mapping with CMP 3 or 4: under CMP 3 a clear mask bit reads zero; under
CMP 4 a set bit reads the decoded sector, or a free value where the sector was not stored in that form (R258).
DESIGN CHOICE (log 58). -/
def methodByte (s : State) (cmp mask key : Nat) : Byte :=
  let set := mask / 2 ^ (key / 64 % 4) % 2 == 1
  if cmp = 3 then (if set then Memory.get s.mem key else 0)
  else if set then (match s.deltas.find? (fun d => d.1 == key / 64) with
    | some d => (d.2.drop (key % 64)).headD 0
    | none => Config.freeByte (s.choices + key))
  else Memory.get s.mem key

/-- The bytes of a place at the point of coherence, decoded by METHOD; a mapping with CMP 0 to 2 reads a METHOD 3 block's
bytes as they lie (R258). -/
def decoded (s : State) (p : Place) (key n : Nat) : List Byte :=
  match p.meta_ with
  | none => s.load key n
  | some m =>
    if s.method key = 3 then
      let mask := maskNibble (Memory.get s.mem m) p.va
      (List.range n).map (fun i => methodByte s (pteCmp p.pte) mask (key + i))
    else s.load key n

/-- The descriptor of a block written under CMP 1 or 2 (R256, R258). -/
def maskOf (f : List Byte → Bool) (block : List Byte) : Nat :=
  ((List.range 4).map (fun j => if f (takeBytes block (64 * j) 64) then 2 ^ j else 0)).sum

/-- Write one sector of a block under CMP 3 or 4 (R256, R258). What lies in the frame of a sector stored in nibble-delta
form is a free value: the spec states no layout for it. DESIGN CHOICE (log 58). -/
def storeSector (cmp : Nat) (base : Nat) (block : List Byte) (s : State) (j : Nat) : State :=
  let bs := takeBytes block (64 * j) 64
  let at_ := base + 64 * j
  let dirty := { s with migrations := noteDirty s.migrations at_ }
  if cmp = 3 then
    if bs.all (fun b => b == 0) then dirty else { dirty with mem := Memory.write s.mem at_ bs, deltas := s.deltas.filter (fun d => d.1 ≠ at_ / 64) }
  else if nibbleDelta bs then { dirty with
    mem := Memory.write s.mem at_ ((List.range 64).map (fun i => Config.freeByte (s.choices + i)))
    choices := s.choices + 64
    deltas := (at_ / 64, bs) :: s.deltas.filter (fun d => d.1 ≠ at_ / 64) }
  else { dirty with mem := Memory.write s.mem at_ bs, deltas := s.deltas.filter (fun d => d.1 ≠ at_ / 64) }

/-- What lies in the frame of sector `j` of a block once it is written under CMP 1 or 2: an elided sector leaves what the last raw
write left there, and one in nibble-delta form a free value, as the spec states no layout for it (R256, R258; log 58). -/
def rawSector (cmp : Nat) (base : Nat) (block : List Byte) (raws : List (Nat × List Byte)) (s : State) (j : Nat) : List (Nat × List Byte) :=
  let bs := takeBytes block (64 * j) 64
  let sector := base / 64 + j
  let rest := raws.filter (fun d => d.1 ≠ sector)
  if cmp = 1 ∧ bs.all (fun b => b == 0) = true then
    (sector, ((s.raws.find? (fun d => d.1 == sector)).map (·.2)).getD (s.load (base + 64 * j) 64)) :: rest
  else if cmp = 2 ∧ nibbleDelta bs = true then (sector, (List.range 64).map (fun i => Config.freeByte (s.choices + 64 * j + i))) :: rest
  else rest

/-- The frame of a block as a METHOD 3 read finds it: what METHOD 1 or 2 did not store lies there as before (R258). -/
def layRaw (base : Nat) (s : State) (j : Nat) : State :=
  match s.raws.find? (fun d => d.1 == base / 64 + j) with
  | some d => { s with
      mem := Memory.write s.mem (base + 64 * j) d.2
      raws := s.raws.filter (fun e => e.1 ≠ base / 64 + j) }
  | none => s

/-- The harts and the group agents may go on seeing the older contents of the bytes of a block under METHOD 3 (R159). -/
def keepOlder (h : Option Nat) (old : List Byte) (base off n : Nat) (s : State) : State :=
  (List.range n).foldl (fun s i =>
    let o := (old.drop (off + i)).headD 0
    { s with
      stale := s.keepViews (fun k => some k != h) (base + off + i) o
      lines := s.keepLines (h.bind agentOf) (base + off + i) o }) s

/-- A write by a hart or by the device through a mapping with CMP 1 to 4: the base die encodes the block and its descriptor (R256 to
R258). -/
def storeCompressed (s : State) (h : Option Nat) (p : Place) (bs : List Byte) : State :=
  let base := p.key / 256 * 256
  let cmp := pteCmp p.pte
  let old := decoded s p base 256
  let block := old.take (p.key % 256) ++ bs ++ old.drop (p.key % 256 + bs.length)
  if cmp < 3 then
    let t := s.storeBy h base (takeBytes block 0 256)
    let mask := if cmp = 1 then maskOf (fun b => b.any (fun x => x != 0)) block else maskOf nibbleDelta block
    { t with
      blocks := assocSet t.blocks (base / 256) (BitVec.ofNat 6 (cmp * 16 + mask))
      raws := (List.range 4).foldl (fun raws j => rawSector cmp base block raws s j) t.raws
      choices := t.choices + 256 }
  else
    let s := (List.range 4).foldl (layRaw base) (keepOlder h old base (p.key % 256) bs.length s)
    let s := (List.range 4).foldl (storeSector cmp base block) s
    let mask := if cmp = 3 then maskOf (fun b => b.any (fun x => x != 0)) block else maskOf nibbleDelta block
    let s := { s with blocks := assocSet s.blocks (base / 256) 0x30 }
    match p.meta_ with
    | some m => s.store m [setNibble (Memory.get s.mem m) p.va mask]
    | none => s

/-! ### Reading and writing a place -/

/-- The bytes at a place, with a list of other contents over those of its site. -/
def State.readOver (s : State) (other : List Host.Cell) (p : Place) (n : Nat) : List Byte :=
  if p.meta_.isSome then
    let base := decoded s p p.key n
    (List.range n).map (fun i => ((other.find? (fun c => c.1 == p.key + i)).map (·.2)).getD ((base.drop i).headD 0))
  else viewBytes other s.mem p.key n

/-- Bytes that an access to a place moves over CXL are counted for its context (R281, R290). -/
def State.chargeCxl (s : State) (ctx : BitVec 16) (p : Place) (n : Nat) : State :=
  if p.window = false ∧ inBlanket p.key = true then s.charge ctx 7 n else s

/-- The same for the hart in focus. -/
def State.chargeBlanket (s : State) (p : Place) (n : Nat) : State := s.chargeCxl (ctxOf s.hart.csr.ptroot) p n

/-- The same for several places of `n` bytes. -/
def State.chargeAll (s : State) (n : Nat) (l : List Place) : State := l.foldl (fun s p => s.chargeBlanket p n) s

/-- The bytes a hart reads at a place: its own latest stores over the older contents it still sees, over what its group agent holds,
over the site (R66, R159). -/
def State.readPlace (s : State) (p : Place) (n : Nat) : List Byte := s.readOver (s.hart.pending ++ s.copies) p n

/-- The access is performed at the hart's group agent: its scope is core or group, and the hart and the place have one (Table
08-1). DEDUCED (log 5): a compressed page is served at its site. -/
def State.atAgent (s : State) (near : Bool) (p : Place) : Bool :=
  near && isCompute s.hid && !p.window && pteCmp p.pte == 0

/-- A strong access comes to its home: the hart's pending stores to the 64-byte line go first; at the site, the group agents give the
line up, those of other clusters where they hold it exclusively (R165, R173). Having read there, the hart reads no older contents of
the doublewords (R158). -/
def State.atHome (s : State) (near : Bool) (p : Place) (n : Nat) : State :=
  if p.window then s
  else
    let lo := p.key / 64 * 64
    let hi := (p.key + n + 63) / 64 * 64
    if s.atAgent near p then
      let s := s.drainRange s.hid lo hi
      { s with
        lines := s.lines.map (fun l =>
          if some l.cluster = agentOf s.hid ∧ l.addr / 64 = p.key / 64 then { l with exclusive := true } else l)
        stale := s.stale.filter (fun k => !(k.1 == s.hid && p.key / 8 ≤ k.2.1 / 8 && k.2.1 / 8 < (p.key + n + 7) / 8)) }
    else ((s.settleRange s.hid lo hi).recallLine (agentOf s.hid) p.key).freshen s.hid p.key n

/-- The bytes at a place's home, once the access has come there: what a strong access reads (R66, R173). -/
def State.readHome (s : State) (near : Bool) (p : Place) (n : Nat) : List Byte :=
  s.readOver (s.hart.pending ++ (if s.atAgent near p then s.agentCells (agentOf s.hid) else [])) p n

/-- DIRTY is set on a write to a valid slot of a party's window (R231). -/
def State.setDirty (s : State) (party : Option Party) (key : Nat) : State :=
  match party with
  | none => s
  | some p =>
    let off := key - spadKey p.core 0
    match p.spad.findIdx? (fun e => e == off / extentBytes) with
    | none => s
    | some i =>
      let slot := 64 * i + off % extentBytes / 256
      let c := s.core p.core
      if c.tags.any (fun t => t.party == p.id && t.slot == slot && !t.dirty) then
        s.setCore p.core { c with tags := c.tags.map (fun t => if t.party = p.id ∧ t.slot = slot then { t with dirty := true } else t) }
      else s

/-- A write by a context at a location of local HBM: a frame written for a protected context carries that context's key
(R409), and a paired context's line enters its hash (R427). -/
def State.noteKey (s : State) (ctx : BitVec 16) (va key : Nat) : State :=
  if inLocalHbm s key = false then s
  else
    let s := if s.contexts.any (fun c => c.id == ctx && c.protected_) && !s.encrypted.contains (key / 0x10000, ctx) then
      { s with encrypted := (key / 0x10000, ctx) :: s.encrypted } else s
    let line := (va / 64 * 64, key / 64 * 64)
    if s.contexts.any (fun c => c.id == ctx && c.pairedWith.isSome && !c.lines.contains line) then
      s.mapCtx ctx (fun c => { c with lines := line :: c.lines })
    else s

/-- The other replicas of a KIND 3 location, at the same local PA on each device REPLICA MASK names (R280). -/
def State.replicas (s : State) (root key : Nat) : List Nat :=
  let mask := s.ctxField root 0x130 16
  ((List.range 128).filter (fun d => d ≠ Config.devno ∧ mask / 2 ^ d % 2 = 1 ∧ s.present.getLsbD d = true)).map
    (fun d => 0x400000000000 + d * 0x10000000000 + key)

/-- A store covers some uncorrectable word whole (R348). -/
def coversBad (p : List Nat) (a n : Nat) : Bool := p.any (fun w => a ≤ w * 32 && w * 32 + 32 ≤ a + n)

/-- A store that is performed at once at its site: the hart's older pending stores to those bytes go first, with what its group
agent holds of their lines (R165, R173). -/
def State.writeNow (s : State) (p : Place) (bs : List Byte) : State :=
  if pteCmp p.pte ≠ 0 then
    let s := s.settleRange s.hid (p.key / 256 * 256) (p.key / 256 * 256 + 256)
    (storeCompressed s (some s.hid) p bs).seesSite s.hid (fun k => p.key ≤ k && k < p.key + bs.length)
  else (s.settleRange s.hid p.key (p.key + bs.length)).storeOwn p.key bs

/-- A weak store at a place (R159): to the window it is performed in local memory and sets DIRTY; to a KIND 3 page it
takes the replicated commit (R169); to another device it leaves at once (R383); compressed blocks and stores that
correct a whole ECC word are performed at once too, which R159 permits; any other stays pending, as does one to a cell that is
being purged (R197). DEDUCED (log 28). -/
def State.writeWeak (s : State) (p : Place) (bs : List Byte) : State :=
  if p.window then (s.storeWhole p.key bs).setDirty s.ownParty p.key
  else
    let s := s.noteKey (ctxOf s.hart.csr.ptroot) p.va p.key
    if pteKind p.pte = 3 then (s.replicas (rootOf s.hart.csr.ptroot) p.key).foldl (fun s k => s.storeWhole k bs) (s.writeNow p bs)
    else if pteCmp p.pte != 0 || ((isRemote p.key || coversBad s.poison p.key bs.length) && !s.heldRange p.key bs.length) then s.writeNow p bs
    else { s with hart := { s.hart with pending := pendStore s.hart.pending p.key bs } }

/-- A strong store at its home (R173). -/
def State.writeStrong (s : State) (near : Bool) (p : Place) (bs : List Byte) : State :=
  let s := (s.atHome near p bs.length).noteKey (ctxOf s.hart.csr.ptroot) p.va p.key
  if p.window then (s.storeOwn p.key bs).setDirty s.ownParty p.key
  else if s.atAgent near p then
    (match agentOf s.hid with
      | some k => (pendStore [] p.key bs).reverse.foldl (fun s c => s.agentPut k s.hid true c) s
      | none => s)
  else s.writeNow p bs

/-! ### Cells under plain stores (R188, R194) -/

/-- What waiters of a cell see after a store reached its 16 bytes is looked at when they are scheduled. -/
def cellControl (s : State) (pa : Nat) : Nat := s.loadNat (pa + 8) 8

/-! ### Fetching (R44, R45, R245, R251) -/

/-- Check the fetch of the 64-byte block that holds `a` (Table 04-7's causes for fetch: 1, 12, 27 to 36, but for 34, which
the word that is executed raises): the place of the block. DEDUCED (log 57): a block whose CMP metadata R257 refuses
raises cause 1. -/
def checkFetch (s : State) (a : Word) : State × Except Nat Place :=
  let w := a.toNat
  let blk := w / 64 * 64
  let at_ (key : Nat) (window : Bool) : Place := { key := key, mmio := false, window := window, pte := 0, meta_ := none, va := blk }
  if s.hart.mode = .m ∧ ¬ (s.hart.party.isSome = true ∧ inWindow w = true) then
    if 2 ^ 48 ≤ w ∨ pmpOk s.hart.csr.pmp .m w 4 .exec = false ∨ s.named w = false ∨ inMmio w = true ∨ s.answers w = false then (s, .error 1)
    else (s, .ok (at_ (normPa blk) false))
  else if 2 ^ 57 ≤ w then (s, .error 1)
  else if inWindow w then
    match s.ownParty with
    | none => (s, .error 27)
    | some p =>
      if (blk - windowBase) / extentBytes = 31 then (s, .error 27)
      else match p.windowKey (blk - windowBase) with
        | none => (s, .error 27)
        | some k => (s, .ok (at_ k true))
  else
    match translate s (.fetch s.ownCore) (rootOf s.hart.csr.ptroot) (ctxOf s.hart.csr.ptroot) w false (fun p => permits p s.hart.mode .exec) with
    | (s, .error (.inl f)) => (s, .error (walkCause 12 f))
    | (s, .error (.inr (c, e))) =>
      if permits e.pte s.hart.mode .exec = false then (s, .error 12)
      else if pmpOk s.hart.csr.pmp s.hart.mode (entryPa e w) 4 .exec = false then (s, .error 1)
      else (s, .error c)
    | (s, .ok (e, _)) =>
      let pa := entryPa e w
      if permits e.pte s.hart.mode .exec = false then (s, .error 12)
      else
        let (s, m) := metaFor s (.fetch s.ownCore) (rootOf s.hart.csr.ptroot) (ctxOf s.hart.csr.ptroot) s.hart.mode e.pte w false
        if m = .error 34 then (s, .error 34)
        else if pmpOk s.hart.csr.pmp s.hart.mode pa 4 .exec = false then (s, .error 1)
        else if pteKind e.pte = 1 then (s, .error 29)
        else if pteFmt e.pte ≠ 0 ∨ pteKind e.pte = 4 ∨ inMmio pa = true ∨ s.answers pa = false then (s, .error 1)
        else match m with
          | .error _ => (s, .error 1)
          | .ok m =>
            if s.keyGone (ctxOf s.hart.csr.ptroot) (normPa pa) then (s, .error 36)
            else (s, .ok { at_ (normPa pa / 64 * 64) false with pte := e.pte, meta_ := m })

/-- The offsets of a block's uncorrectable ECC words (R348). -/
def badWords (p : List Nat) (key : Nat) : List Nat := [0, 32].filter (fun o => poisoned p (key + o) 32)

/-- The 64 bytes of a block as they enter the fetch buffer: from the instruction cache, or through the group agent into it; the
window bypasses the cache, and a line with an uncorrectable word is not kept (R44, R245, R348). DESIGN CHOICE (log 17): the cache
keeps the 512 lines it filled last, each until `fence.i` or its turn. -/
def State.fetchBlock (s : State) (p : Place) : State × List Byte :=
  let c := s.core s.ownCore
  let ctx := ctxOf s.hart.csr.ptroot
  let key := p.key
  let bs := s.readOver (s.agentCells (agentOf s.hid)) p 64
  if p.window = true ∨ badWords s.poison key ≠ [] ∨ s.maskBad p.meta_ key = true ∨ s.linkCut key 64 = true then (s, bs)
  else match c.icache.find? (fun l => l.1 == ctx && l.2.1 == key) with
    | some l => (s, l.2.2)
    | none => (s.setCore s.ownCore { c with icache := ((ctx, key, bs) :: c.icache).take 512 }, bs)

/-- The hart's addresses are physical: M-mode, outside the party window (R67, R228). -/
def Hart.physical (h : Hart) (a : Nat) : Bool := h.mode == .m && !(h.party.isSome && inWindow a)

/-- The buffered block at an address. DEDUCED (log 17): a block fetched at a virtual address serves S- and U-mode alike. -/
def Hart.block (h : Hart) (va : Nat) : Option FetchBlock := h.fetch.find? (fun b => b.phys == h.physical va && b.va == va)

/-- The blocks that hold words of the `rep` body while ACTIVE (R44). -/
def repBlocks (h : Hart) : List Nat :=
  let r := h.csr.repstate
  if repActive r then
    let start := h.pc.toNat - 4 * bitsNat r 40 4
    let last := start + 4 * bitsNat r 44 4
    if start / 64 = last / 64 then [start / 64 * 64] else [start / 64 * 64, last / 64 * 64]
  else []

/-- What the fetch at pc does to the buffer (R44): the blocks that stay, and those it is to hold besides, in order. A pc outside the
buffer refills it, with the body's blocks while ACTIVE; sequential execution into the second block, or past the end of a loop there,
drops the first, unless it holds words of the body, and reads the next; any other target inside the buffer keeps it. -/
def fetchPlan (h : Hart) : (Nat → Bool) × List Nat :=
  let blk := h.pc.toNat / 64 * 64
  let body := repBlocks h
  if (h.block blk).isNone then
    (fun _ => false, match body with
      | [b, c] => [b, c]
      | _ => [blk, blk + 64])
  else if 64 ≤ blk ∧ (h.block (blk - 64)).isSome = true then
    let on : Bool := match h.lastFetch with
      | some (p, loop) => (p + 4 == h.pc && decide (p.toNat < blk)) || (loop && body.isEmpty)
      | none => false
    if on && !body.contains (blk - 64) then (fun va => va == blk, [blk, blk + 64]) else (fun _ => true, [])
  else (fun _ => true, match body with
    | [b, c] => [b, c]
    | _ => [blk, blk + 64])

/-- Read the block at `a` into the fetch buffer. -/
def State.loadBlock (s : State) (a : Word) : State × Except Nat Unit :=
  match checkFetch s a with
  | (s, .error c) => (s, .error c)
  | (s, .ok p) =>
    let bad := if s.maskBad p.meta_ p.key || s.linkCut p.key 64 then [0, 32] else badWords s.poison p.key
    let (s, bs) := s.fetchBlock p
    let b : FetchBlock := { phys := s.hart.physical a.toNat, va := a.toNat / 64 * 64, bytes := bs, bad := bad }
    ({ s with hart := { s.hart with fetch := s.hart.fetch ++ [b] } }, .ok ())

/-- Read blocks into the fetch buffer. The one that holds pc must enter; another that cannot be read does not enter, and is tried again
with the next fetch (log 14), but for a block of the window, whose SPAD_UNHELD is taken when it would enter (R245). -/
def State.loadBlocks (s : State) : List Nat → State × Option (Nat × Word)
  | [] => (s, none)
  | b :: rest =>
    if (s.hart.block b).isSome then s.loadBlocks rest
    else
      let own := decide (b = s.hart.pc.toNat / 64 * 64)
      match s.loadBlock (if own then s.hart.pc else BitVec.ofNat 64 b) with
      | (s, .ok _) => s.loadBlocks rest
      | (s, .error c) =>
        if own then (s, some (c, s.hart.pc))
        else if c = 27 then (s, some (c, BitVec.ofNat 64 b))
        else s.loadBlocks rest

/-- The word at an address of a block: 34 where it is uncorrectable (R348). -/
def FetchBlock.word (b : FetchBlock) (a : Word) : Except (Nat × Word) (BitVec 32) :=
  if b.bad.contains (a.toNat % 64 / 32 * 32) then .error (34, a)
  else .ok (BitVec.ofNat 32 (natOfBytes (takeBytes b.bytes (a.toNat % 64) 4)))

/-- The word at pc, through the fetch buffer (R44), or a cause and its xtval. -/
def State.fetch (s : State) : State × Except (Nat × Word) (BitVec 32) :=
  let (keep, want) := fetchPlan s.hart
  let pc := s.hart.pc
  let s := { s with hart := { s.hart with
    fetch := s.hart.fetch.filter (fun b => b.phys == s.hart.physical b.va && keep b.va)
    lastFetch := some (pc, repActive s.hart.csr.repstate) } }
  match s.loadBlocks want with
  | (s, some e) => (s, .error e)
  | (s, none) =>
    match s.hart.block (pc.toNat / 64 * 64) with
    | some b => (s, b.word pc)
    | none => (s, .error (1, pc))

end Sys2Proof.Machine
end

