-- ==== Sys2Proof/Machine/Flags.lean ====
section
/-! DEFINITION. Number formats, rounding and every VFLAGS event (R78 to R95): an operation forms its exact result and
one function rounds it and says which flags it sets. Also the exact sums of the array (R96 to R98). -/

namespace Sys2Proof.Machine

/-! ### Flags (Table 02-4, R85) -/

/-- VFLAGS bits NV, DZ, OF, UF, NX, SV, from bit 0. -/
abbrev Fl := BitVec 6
/-- invalid -/
def fNV : Fl := 1
/-- divide by zero -/
def fDZ : Fl := 2
/-- overflow -/
def fOF : Fl := 4
/-- underflow -/
def fUF : Fl := 8
/-- inexact -/
def fNX : Fl := 16
/-- saturated -/
def fSV : Fl := 32
/-- `f` when the condition holds. -/
def flagIf (c : Bool) (f : Fl) : Fl := if c then f else 0

/-- The fields of VMODE that arithmetic looks at (Table 02-4). -/
structure FMode where
  round : Nat
  sat   : Bool
  ftz   : Bool
  deriving DecidableEq, Repr

/-- From VMODE. -/
def fmode (vmode : Word) : FMode := { round := bitsNat vmode 2 3, sat := vmode.getLsbD 5, ftz := vmode.getLsbD 6 }

/-- The array's fixed rules: RNE, nothing flushed (R96). -/
def arrayMode : FMode := { round := 0, sat := false, ftz := false }

/-! ### Floating-point formats (Table 05-1) -/

/-- A format: E, F and whether it is E4M3, which has no infinities (R79). -/
structure Fmt where
  e    : Nat
  f    : Nat
  noInf : Bool
  deriving DecidableEq, Repr

/-- Table 05-1. -/
def fmtF64 : Fmt := ⟨11, 52, false⟩
/-- Table 05-1. -/
def fmtF32 : Fmt := ⟨8, 23, false⟩
/-- Table 05-1. -/
def fmtF16 : Fmt := ⟨5, 10, false⟩
/-- Table 05-1. -/
def fmtBf16 : Fmt := ⟨8, 7, false⟩
/-- Table 05-1, R79. -/
def fmtE4m3 : Fmt := ⟨4, 3, true⟩
/-- Table 05-1. -/
def fmtE5m2 : Fmt := ⟨5, 2, false⟩

/-- Bits of an element. -/
def Fmt.width (m : Fmt) : Nat := 1 + m.e + m.f
/-- The exponent bias. -/
def Fmt.bias (m : Fmt) : Nat := 2 ^ (m.e - 1) - 1
/-- The exponent of the smallest normal value. -/
def Fmt.emin (m : Fmt) : Int := 1 - (m.bias : Int)
/-- The exponent of the largest finite value. -/
def Fmt.emax (m : Fmt) : Int := if m.noInf then (2 ^ m.e - 1 : Nat) - (m.bias : Int) else (2 ^ m.e - 2 : Nat) - (m.bias : Int)
/-- The significand of the largest finite value, in units of its last place. -/
def Fmt.maxSig (m : Fmt) : Nat := if m.noInf then 2 ^ (m.f + 1) - 2 else 2 ^ (m.f + 1) - 1
/-- The sign bit in place. -/
def Fmt.signBit (m : Fmt) (s : Bool) : Nat := if s then 2 ^ (m.e + m.f) else 0
/-- The canonical NaN (Table 05-1). -/
def Fmt.nan (m : Fmt) : Nat := if m.noInf then 2 ^ (m.e + m.f) - 1 else (2 ^ m.e - 1) * 2 ^ m.f + 2 ^ (m.f - 1)
/-- An infinity; in E4M3 the NaN that stands for it (R82). -/
def Fmt.inf (m : Fmt) (s : Bool) : Nat := if m.noInf then m.nan else m.signBit s + (2 ^ m.e - 1) * 2 ^ m.f
/-- The largest finite value with a sign. -/
def Fmt.largest (m : Fmt) (s : Bool) : Nat :=
  m.signBit s + (if m.noInf then (2 ^ m.e - 1) * 2 ^ m.f + (2 ^ m.f - 2) else (2 ^ m.e - 2) * 2 ^ m.f + (2 ^ m.f - 1))

/-- What an encoding stands for (R78): a NaN, an infinity, or (-1)^s × mag × 2^exp. -/
inductive FVal where
  | nan (signalling : Bool)
  | inf (s : Bool)
  | fin (s : Bool) (mag : Nat) (exp : Int)
  deriving DecidableEq, Repr

/-- The value of an encoding; with FTZ a subnormal is a zero of its sign (R78, R79, R83). -/
def Fmt.decode (m : Fmt) (ftz : Bool) (b : Nat) : FVal :=
  let s := b / 2 ^ (m.e + m.f) % 2 == 1
  let e := b / 2 ^ m.f % 2 ^ m.e
  let f := b % 2 ^ m.f
  if m.noInf then
    (if e = 2 ^ m.e - 1 ∧ f = 2 ^ m.f - 1 then .nan false
     else if e = 0 then .fin s (if ftz then 0 else f) (m.emin - m.f)
     else .fin s (2 ^ m.f + f) ((e : Int) - m.bias - m.f))
  else if e = 2 ^ m.e - 1 then (if f = 0 then .inf s else .nan (f / 2 ^ (m.f - 1) % 2 == 0))
  else if e = 0 then .fin s (if ftz then 0 else f) (m.emin - m.f)
  else .fin s (2 ^ m.f + f) ((e : Int) - m.bias - m.f)

/-- The value is a signalling NaN. -/
def FVal.isSig : FVal → Bool
  | .nan q => q
  | _ => false
/-- The value is a NaN. -/
def FVal.isNan : FVal → Bool
  | .nan _ => true
  | _ => false
/-- The value is an infinity. -/
def FVal.isInf : FVal → Bool
  | .inf _ => true
  | _ => false
/-- The value is a zero. -/
def FVal.isZero : FVal → Bool
  | .fin _ 0 _ => true
  | _ => false
/-- Its sign. -/
def FVal.sign : FVal → Bool
  | .nan _ => false
  | .inf s => s
  | .fin s _ _ => s
/-- The negated value. -/
def FVal.neg : FVal → FVal
  | .nan q => .nan q
  | .inf s => .inf (!s)
  | .fin s m e => .fin (!s) m e

/-! ### Rounding (R82, R83) -/

/-- (-1)^s × (mag + ε) × 2^exp, where 0 < ε < 1 when `sticky` and ε = 0 otherwise. -/
structure Exact where
  s      : Bool
  mag    : Nat
  exp    : Int
  sticky : Bool
  deriving DecidableEq, Repr

/-- Round a magnitude to a multiple of 2^q: the multiple, and whether it is inexact (Table 05-3). -/
def roundAt (round : Nat) (x : Exact) (q : Int) : Nat × Bool :=
  if q ≤ x.exp then (x.mag * 2 ^ (x.exp - q).toNat, x.sticky)
  else
    let sh := (q - x.exp).toNat
    let n := x.mag / 2 ^ sh
    let r := x.mag % 2 ^ sh
    let inexact := r != 0 || x.sticky
    let up :=
      match round with
      | 0 => decide (2 ^ sh < 2 * r) || (2 * r == 2 ^ sh && (x.sticky || n % 2 == 1))
      | 1 => false
      | 2 => x.s && inexact
      | 3 => !x.s && inexact
      | _ => decide (2 ^ sh ≤ 2 * r)
    (if up then n + 1 else n, inexact)

/-- What an overflow delivers (Table 05-3): true for the infinity. -/
def overflowInf (round : Nat) (s : Bool) : Bool :=
  match round with
  | 1 => false
  | 2 => s
  | 3 => !s
  | _ => true

/-- Round an exact result once to a format: the encoding and the flags (R82, R83, R85). `clamp` says that the
operation saturates, as a narrowing conversion with SAT = 1 does (Table 05-7). -/
def roundTo (m : Fmt) (md : FMode) (clamp : Bool) (x : Exact) : Nat × Fl :=
  if x.mag = 0 ∧ x.sticky = false then (m.signBit x.s, 0)
  else
    let e0 := x.exp + Nat.log2 x.mag
    let (n, ix) := roundAt md.round x (e0 - m.f)
    let e := if n = 2 ^ (m.f + 1) then e0 + 1 else e0
    let sig := if n = 2 ^ (m.f + 1) then 2 ^ m.f else n
    if m.emax < e ∨ (e = m.emax ∧ m.maxSig < sig) then
      if clamp then (m.largest x.s, fOF ||| fNX ||| fSV)
      else (if overflowInf md.round x.s then m.inf x.s else m.largest x.s, fOF ||| fNX)
    else if e < m.emin then
      if md.ftz then (m.signBit x.s, fUF ||| fNX)
      else
        let (n, ix) := roundAt md.round x (m.emin - m.f)
        (m.signBit x.s + n, flagIf ix (fUF ||| fNX))
    else (m.signBit x.s + ((e + m.bias).toNat * 2 ^ m.f + (sig - 2 ^ m.f)), flagIf ix fNX)

/-- A finite value as an exact result. -/
def exactOf (s : Bool) (mag : Nat) (exp : Int) : Exact := ⟨s, mag, exp, false⟩

/-! ### Arithmetic (R82 to R84, R108 to R112) -/

/-- The sum of two finite values as a signed number of 2^e. -/
def addFin (s1 : Bool) (m1 : Nat) (e1 : Int) (s2 : Bool) (m2 : Nat) (e2 : Int) : Int × Int :=
  let e := min e1 e2
  let a := (m1 * 2 ^ (e1 - e).toNat : Nat)
  let b := (m2 * 2 ^ (e2 - e).toNat : Nat)
  ((if s1 then -(a : Int) else a) + (if s2 then -(b : Int) else b), e)

/-- The sign of an exact zero sum: that of two zeros of one sign, else + but under RDN − (R84). -/
def zeroSign (round : Nat) (z1 z2 : Bool) (s1 s2 : Bool) : Bool := if z1 && z2 && s1 == s2 then s1 else round == 2

/-- a + b, rounded once (Table 06-3). -/
def fAdd (m : Fmt) (md : FMode) (a b : FVal) : Nat × Fl :=
  let sig := flagIf (a.isSig || b.isSig) fNV
  match a, b with
  | .nan _, _ | _, .nan _ => (m.nan, sig)
  | .inf s1, .inf s2 => if s1 = s2 then (m.inf s1, 0) else (m.nan, fNV)
  | .inf s, _ => (m.inf s, 0)
  | _, .inf s => (m.inf s, 0)
  | .fin s1 m1 e1, .fin s2 m2 e2 =>
    let (v, e) := addFin s1 m1 e1 s2 m2 e2
    if v = 0 then (m.signBit (zeroSign md.round (m1 == 0) (m2 == 0) s1 s2), 0)
    else roundTo m md false ⟨decide (v < 0), v.natAbs, e, false⟩

/-- a × b, rounded once. -/
def fMul (m : Fmt) (md : FMode) (a b : FVal) : Nat × Fl :=
  let sig := flagIf (a.isSig || b.isSig) fNV
  match a, b with
  | .nan _, _ | _, .nan _ => (m.nan, sig)
  | .inf s1, x => if x.isZero then (m.nan, fNV) else (m.inf (s1 != x.sign), 0)
  | x, .inf s2 => if x.isZero then (m.nan, fNV) else (m.inf (x.sign != s2), 0)
  | .fin s1 m1 e1, .fin s2 m2 e2 => roundTo m md false ⟨s1 != s2, m1 * m2, e1 + e2, false⟩

/-- a / b, rounded once (R85: DZ, NV). -/
def fDiv (m : Fmt) (md : FMode) (a b : FVal) : Nat × Fl :=
  let sig := flagIf (a.isSig || b.isSig) fNV
  match a, b with
  | .nan _, _ | _, .nan _ => (m.nan, sig)
  | .inf s1, .inf _ => if s1 then (m.nan, fNV) else (m.nan, fNV)
  | .inf s1, x => (m.inf (s1 != x.sign), 0)
  | x, .inf s2 => (m.signBit (x.sign != s2), 0)
  | .fin s1 m1 e1, .fin s2 m2 e2 =>
    if m2 = 0 then (if m1 = 0 then (m.nan, fNV) else (m.inf (s1 != s2), fDZ))
    else roundTo m md false ⟨s1 != s2, m1 * 2 ^ 192 / m2, e1 - e2 - 192, m1 * 2 ^ 192 % m2 != 0⟩

/-- a × b + c with one rounding (R112). -/
def fFma (m : Fmt) (md : FMode) (a b c : FVal) : Nat × Fl :=
  let sig := a.isSig || b.isSig || c.isSig
  let badProduct := (a.isInf && b.isZero) || (a.isZero && b.isInf)
  if a.isNan || b.isNan then (m.nan, flagIf sig fNV)
  else if badProduct then (m.nan, fNV)
  else if c.isNan then (m.nan, flagIf sig fNV)
  else
    let ps := a.sign != b.sign
    if a.isInf || b.isInf then
      (if c.isInf && c.sign != ps then (m.nan, fNV) else (m.inf ps, 0))
    else match a, b, c with
      | _, _, .inf s => (m.inf s, 0)
      | .fin _ m1 e1, .fin _ m2 e2, .fin s3 m3 e3 =>
        let (v, e) := addFin ps (m1 * m2) (e1 + e2) s3 m3 e3
        if v = 0 then (m.signBit (zeroSign md.round (m1 * m2 == 0) (m3 == 0) ps s3), 0)
        else roundTo m md false ⟨decide (v < 0), v.natAbs, e, false⟩
      | _, _, _ => (m.nan, 0)

/-- p1 + p2 of two exact products with one rounding (R122). -/
def fMulAdd2 (m : Fmt) (md : FMode) (a1 b1 a2 b2 : FVal) : Nat × Fl :=
  let sig := a1.isSig || b1.isSig || a2.isSig || b2.isSig
  let bad (a b : FVal) : Bool := (a.isInf && b.isZero) || (a.isZero && b.isInf)
  if bad a1 b1 || bad a2 b2 then (m.nan, fNV)
  else if a1.isNan || b1.isNan || a2.isNan || b2.isNan then (m.nan, flagIf sig fNV)
  else
    let s1 := a1.sign != b1.sign
    let s2 := a2.sign != b2.sign
    let i1 := a1.isInf || b1.isInf
    let i2 := a2.isInf || b2.isInf
    if i1 && i2 then (if s1 = s2 then (m.inf s1, 0) else (m.nan, fNV))
    else if i1 then (m.inf s1, 0)
    else if i2 then (m.inf s2, 0)
    else match a1, b1, a2, b2 with
      | .fin _ m1 e1, .fin _ n1 f1, .fin _ m2 e2, .fin _ n2 f2 =>
        let (v, e) := addFin s1 (m1 * n1) (e1 + f1) s2 (m2 * n2) (e2 + f2)
        if v = 0 then (m.signBit (zeroSign md.round (m1 * n1 == 0) (m2 * n2 == 0) s1 s2), 0)
        else roundTo m md false ⟨decide (v < 0), v.natAbs, e, false⟩
      | _, _, _, _ => (m.nan, 0)

/-- The order of two finite or infinite values, −0 equal to +0: −1, 0 or 1. -/
def fCmp (a b : FVal) : Int :=
  match a, b with
  | .inf s1, .inf s2 => if s1 = s2 then 0 else if s1 then -1 else 1
  | .inf s, _ => if s then -1 else 1
  | _, .inf s => if s then 1 else -1
  | .fin s1 m1 e1, .fin s2 m2 e2 =>
    let (v, _) := addFin s1 m1 e1 (!s2) m2 e2
    if v = 0 then 0 else if v < 0 then -1 else 1
  | _, _ => 0

/-- Re-encode an operand as it was read: exact in its own format. -/
def Fmt.encode (m : Fmt) (v : FVal) : Nat :=
  match v with
  | .nan _ => m.nan
  | .inf s => m.inf s
  | .fin s mag e => (roundTo m arrayMode false (exactOf s mag e)).1

/-- `vmin` and `vmax` (R109). -/
def fMinMax (m : Fmt) (max : Bool) (a b : FVal) : Nat × Fl :=
  let sig := flagIf (a.isSig || b.isSig) fNV
  if a.isNan && b.isNan then (m.nan, sig)
  else if a.isNan then (m.encode b, sig)
  else if b.isNan then (m.encode a, sig)
  else
    let c := fCmp a b
    let aLess := c < 0 ∨ (c = 0 ∧ a.sign = true ∧ b.sign = false)
    (if max then (if aLess then m.encode b else m.encode a) else (if aLess then m.encode a else m.encode b), 0)

/-- The integer square root of `v`, by bits from `n` down. -/
def isqrtFrom (n v acc : Nat) : Nat :=
  match n with
  | 0 => acc
  | n + 1 => if (acc + 2 ^ n) * (acc + 2 ^ n) ≤ v then isqrtFrom n v (acc + 2 ^ n) else isqrtFrom n v acc

/-- ⌊√v⌋. -/
def isqrt (v : Nat) : Nat := isqrtFrom (Nat.log2 v / 2 + 1) v 0

/-- √a rounded once (Table 06-4A). -/
def fSqrt (m : Fmt) (md : FMode) (a : FVal) : Nat × Fl :=
  match a with
  | .nan q => (m.nan, flagIf q fNV)
  | .inf s => if s then (m.nan, fNV) else (m.inf false, 0)
  | .fin s mag e =>
    if mag = 0 then (m.signBit s, 0)
    else if s then (m.nan, fNV)
    else
      let (mag, e) := if e % 2 = 0 then (mag, e) else (2 * mag, e - 1)
      let v := mag * 2 ^ 192
      roundTo m md false ⟨false, isqrt v, e / 2 - 96, isqrt v * isqrt v != v⟩

/-- 1 / a rounded once (Table 06-4A). -/
def fRecip (m : Fmt) (md : FMode) (a : FVal) : Nat × Fl :=
  match a with
  | .nan q => (m.nan, flagIf q fNV)
  | .inf s => (m.signBit s, 0)
  | .fin s mag e =>
    if mag = 0 then (m.inf s, fDZ) else roundTo m md false ⟨s, 2 ^ 192 / mag, -e - 192, 2 ^ 192 % mag != 0⟩

/-- 1 / √a rounded once (Table 06-4A). -/
def fRsqrt (m : Fmt) (md : FMode) (a : FVal) : Nat × Fl :=
  match a with
  | .nan q => (m.nan, flagIf q fNV)
  | .inf s => if s then (m.nan, fNV) else (m.signBit false, 0)
  | .fin s mag e =>
    if mag = 0 then (m.inf s, fDZ)
    else if s then (m.nan, fNV)
    else
      let (mag, e) := if e % 2 = 0 then (mag, e) else (2 * mag, e - 1)
      let q := isqrt (2 ^ 384 / mag)
      roundTo m md false ⟨false, q, -(e / 2) - 192, q * q * mag != 2 ^ 384⟩

/-! ### exp2 and log2 (R111)

The exact result is irrational but in the exact cases. It is bounded in fixed point with 320 fraction bits, far below
the distance of any such result from a rounding boundary of these formats (log 21). -/

/-- Fraction bits. -/
def fxBits : Nat := 320
/-- 2^320. -/
def fxOne : Nat := 2 ^ fxBits

/-- Σ z^(2k+1) / (2k+1) in fixed point, `n` terms from the power `p` on. -/
def atanhSum (n k p z2 acc : Nat) : Nat :=
  match n with
  | 0 => acc
  | n + 1 => atanhSum n (k + 1) (p * z2 / fxOne) z2 (acc + p / (2 * k + 1))

/-- ln of num/den between 1 and 2, in fixed point. -/
def lnFx (num den : Nat) : Nat :=
  let z := (num - den) * fxOne / (num + den)
  2 * atanhSum 110 0 z (z * z / fxOne) 0

/-- ln 2 in fixed point. -/
def ln2Fx : Nat := lnFx 2 1

/-- Σ t^k / k! in fixed point. -/
def expSum (n k term t acc : Nat) : Nat :=
  match n with
  | 0 => acc
  | n + 1 => expSum n (k + 1) (term * t / fxOne / (k + 1)) t (acc + term)

/-- 2^f for a fraction f in fixed point, in fixed point. -/
def exp2Fx (f : Nat) : Nat := expSum 80 0 fxOne (f * ln2Fx / fxOne) 0

/-- 2^a rounded once (Table 06-4A). -/
def fExp2 (m : Fmt) (md : FMode) (a : FVal) : Nat × Fl :=
  match a with
  | .nan q => (m.nan, flagIf q fNV)
  | .inf s => if s then (m.signBit false, 0) else (m.inf false, 0)
  | .fin s mag e =>
    if mag = 0 then roundTo m md false (exactOf false 1 0)
    else
      let lead := e + Nat.log2 mag
      if 20 < lead then roundTo m md false ⟨false, 2 ^ 192, if s then -0x100000 else 0x100000, true⟩
      else if lead < -150 then roundTo m md false ⟨false, if s then 2 ^ 140 - 1 else 2 ^ 140, -140, true⟩
      else
        -- x = v / 2^k exactly, with k at most 320
        let k := (max 0 (-e)).toNat
        let v : Int := (if s then -1 else 1) * (mag * 2 ^ (max 0 e).toNat : Nat)
        let n := v / (2 ^ k : Nat)
        let r := (v % (2 ^ k : Nat)).toNat
        if r = 0 then roundTo m md false (exactOf false 1 n)
        else roundTo m md false ⟨false, exp2Fx (r * fxOne / 2 ^ k), n - fxBits, true⟩

/-- log2 a rounded once (Table 06-4A). -/
def fLog2 (m : Fmt) (md : FMode) (a : FVal) : Nat × Fl :=
  match a with
  | .nan q => (m.nan, flagIf q fNV)
  | .inf s => if s then (m.nan, fNV) else (m.inf false, 0)
  | .fin s mag e =>
    if mag = 0 then (m.inf true, fDZ)
    else if s then (m.nan, fNV)
    else
      let l := Nat.log2 mag
      let n := e + l
      if mag = 2 ^ l then
        -- log2 of 1 is the exact +0
        (if n = 0 then (m.signBit false, 0) else roundTo m md false (exactOf (decide (n < 0)) n.natAbs 0))
      else
        let v : Int := n * (fxOne : Int) + (lnFx mag (2 ^ l) * fxOne / ln2Fx : Nat)
        if v < 0 then roundTo m md false ⟨true, v.natAbs - 1, -(fxBits : Int), true⟩
        else roundTo m md false ⟨false, v.natAbs, -(fxBits : Int), true⟩

/-! ### Conversions (R93, R94) -/

/-- Float to float (R93, Table 05-7). -/
def fToF (m : Fmt) (md : FMode) (a : FVal) : Nat × Fl :=
  match a with
  | .nan q => (m.nan, flagIf q fNV)
  | .inf s =>
    if m.noInf then (if md.sat then (m.largest s, fSV) else (m.nan, fNV))
    else if m = fmtE5m2 ∧ md.sat = true then (m.largest s, fSV)
    else (m.inf s, 0)
  | .fin s mag e => roundTo m md md.sat (exactOf s mag e)

/-- A signed value of `w` bits. -/
def toSigned (w v : Nat) : Int := if v % 2 ^ w < 2 ^ (w - 1) then v % 2 ^ w else (v % 2 ^ w : Nat) - (2 ^ w : Nat)
/-- The low `w` bits of an integer. -/
def ofSigned (w : Nat) (v : Int) : Nat := (v % (2 ^ w : Nat)).toNat
/-- The least and the greatest value of `w` bits (R80). -/
def intMin (w : Nat) : Int := -((2 ^ (w - 1) : Nat) : Int)
/-- The greatest value of `w` bits. -/
def intMax (w : Nat) : Int := ((2 ^ (w - 1) : Nat) : Int) - 1
/-- Clamp to `w` bits, and whether that changed the value. -/
def clampInt (w : Nat) (v : Int) : Int × Bool :=
  if v < intMin w then (intMin w, true) else if intMax w < v then (intMax w, true) else (v, false)

/-- Float to integer (R94). -/
def fToI (w : Nat) (md : FMode) (a : FVal) : Nat × Fl :=
  match a with
  | .nan _ => (0, fNV)
  | .inf s => (ofSigned w (if s then intMin w else intMax w), if md.sat then fSV else fNV)
  | .fin s mag e =>
    let (n, ix) := roundAt md.round (exactOf s mag e) 0
    let v : Int := if s then -(n : Int) else n
    let (c, out) := clampInt w v
    if out then (ofSigned w c, if md.sat then fSV ||| fNX else fNV) else (ofSigned w v, flagIf ix fNX)

/-- Integer to float (R94). -/
def iToF (m : Fmt) (md : FMode) (v : Int) : Nat × Fl := roundTo m md md.sat (exactOf (decide (v < 0)) v.natAbs 0)

/-- Integer to integer (R94). -/
def iToI (w : Nat) (md : FMode) (v : Int) : Nat × Fl :=
  if md.sat then
    let (c, out) := clampInt w v
    (ofSigned w c, flagIf out fSV)
  else (ofSigned w v, 0)

/-! ### BX blocks (R87 to R92) -/

/-- One byte into the CRC (R89). -/
def crcByte (c : Nat) (b : Nat) : Nat :=
  (List.range 8).foldl (fun c _ => if c / 32768 % 2 = 1 then Nat.xor (c * 2 % 65536) 0x1021 else c * 2 % 65536) (Nat.xor c (b * 256))
/-- CRC-16 (R89). -/
def crc16 (bs : List Nat) : Nat := bs.foldl crcByte 0xFFFF

/-- A BX block: width 8 or 4, the element bytes and the scale word (R87, R88). -/
structure Block where
  w     : Nat
  bytes : List Nat
  scale : Nat
  deriving DecidableEq, Repr

/-- MW (Table 05-5). -/
def blockMw (w : Nat) : Nat := if w = 8 then 6 else 2
/-- Bytes of a block's elements (R87). -/
def blockBytes (w : Nat) : Nat := 4 * w
/-- Element `i` of a block (R87). -/
def blockElem (b : Block) (i : Nat) : Nat :=
  if b.w = 8 then (b.bytes.drop i).headD 0 else (b.bytes.drop (i / 2)).headD 0 / 2 ^ (4 * (i % 2)) % 16
/-- CHK holds (R89). -/
def blockOk (b : Block) : Bool := crc16 (b.bytes ++ [b.scale % 256, b.scale / 256 % 256]) == b.scale / 65536 % 65536
/-- The exact value of element `i` (R88). -/
def blockVal (b : Block) (i : Nat) : FVal :=
  let mw := blockMw b.w
  let v := blockElem b i
  if b.scale % 256 = 0xFF then .nan false
  else
    let e := if v / 2 ^ (mw + 1) % 2 = 1 then b.scale / 256 % 256 else b.scale % 256
    .fin (v / 2 ^ mw % 2 == 1) (v % 2 ^ mw) ((e : Int) - 127)

/-- The register layout of a block (R90). -/
def blockBits (b : Block) : Nat :=
  natOfBytes (b.bytes.map (fun v => BitVec.ofNat 8 v)) + b.scale * 2 ^ (8 * blockBytes b.w)
/-- The block in a register's bits (R90). -/
def blockOf (w bits : Nat) : Block :=
  { w := w, bytes := (List.range (blockBytes w)).map (fun i => bits / 2 ^ (8 * i) % 256),
    scale := bits / 2 ^ (8 * blockBytes w) % 2 ^ 32 }

/-- RNE of mag × 2^exp / 2^q. -/
def rneAt (mag : Nat) (exp q : Int) : Nat := (roundAt 0 (exactOf false mag exp) q).1

/-- Pack element codes into bytes (R87). -/
def packElems (w : Nat) (es : List Nat) : List Nat :=
  if w = 8 then es else (List.range 16).map (fun j => (es.drop (2 * j)).headD 0 + 16 * (es.drop (2 * j + 1)).headD 0)

/-- A block with its CHK (R89). -/
def sealBlock (w : Nat) (es : List Nat) (e0 e1 : Nat) : Block :=
  let bytes := packElems w es
  { w := w, bytes := bytes, scale := e0 + 256 * e1 + 65536 * crc16 (bytes ++ [e0, e1]) }

/-- Quantise (R92): the source format names the largest finite value that replaces an infinity. NX follows R92's pseudocode, which
compares the block's value with the replaced element, so an infinite element may set it. DESIGN CHOICE (log 61). -/
def quantise (w : Nat) (d : Nat) (src : Fmt) (xs : List FVal) : Block × Fl :=
  let mw := blockMw w
  let dd := if d = 0 then mw else d
  if xs.any FVal.isNan then (sealBlock w (List.replicate 32 0) 0xFF 0, flagIf (xs.any FVal.isSig) fNV)
  else
    let fo := flagIf (xs.any FVal.isInf) fOF
    let ys := xs.map (fun x => match x with
      | .inf s => src.decode false (src.largest s)
      | y => y)
    let top (x : FVal) : Option Int := match x with
      | .fin _ mag e => if mag = 0 then none else some (e + Nat.log2 mag)
      | _ => none
    let amax := ys.foldl (fun acc x => match acc, top x with
      | none, t => t
      | some a, some b => some (max a b)
      | some a, none => some a) (none : Option Int)
    let e0 : Nat := match amax with
      | none => 1
      | some l => (max 1 (min 254 (l - (mw - 1 : Nat) + 127))).toNat
    let e1 : Nat := match amax with
      | none => 1
      | some _ => max (e0 - dd) 1
    let one (x : FVal) : Nat × Fl :=
      match x with
      | .fin s mag e =>
        let q := rneAt mag e ((e1 : Int) - 127)
        let (sel, v) := if q ≤ 2 ^ mw - 1 then (true, q) else (false, min (rneAt mag e ((e0 : Int) - 127)) (2 ^ mw - 1))
        let de : Int := if sel then (e1 : Int) - 127 else (e0 : Int) - 127
        let same := (addFin false mag e true v de).1 == 0
        ((if sel then 2 ^ (mw + 1) else 0) + (if s then 2 ^ mw else 0) + v,
          flagIf (!same) fNX ||| flagIf (mag != 0 && v == 0) fUF)
      | _ => (0, 0)
    let rs := ys.map one
    (sealBlock w (rs.map (·.1)) e0 e1, rs.foldl (fun f r => f ||| r.2) fo)

/-- `vqnt` to OFP8: RNE, clamped (R125). -/
def quantOfp8 (m : Fmt) (x : FVal) : Nat × Fl :=
  match x with
  | .nan q => (m.nan, flagIf q fNV)
  | .inf s => (m.largest s, fOF)
  | .fin s mag e =>
    let r := roundTo m { round := 0, sat := false, ftz := false } true (exactOf s mag e)
    (r.1, r.2 &&& ~~~fSV)

/-! ### Array arithmetic (R96 to R98) -/

/-- The exact sum of 32 products of a pair of blocks, rounded once to F32 by RNE (R96, R98). -/
def blockSum (ps : List (FVal × FVal)) : Nat :=
  let bad (p : FVal × FVal) : Bool := p.1.isNan || p.2.isNan || (p.1.isInf && p.2.isZero) || (p.1.isZero && p.2.isInf)
  let infs := (ps.filter (fun p => p.1.isInf || p.2.isInf)).map (fun p => p.1.sign != p.2.sign)
  if ps.any bad then fmtF32.nan
  else match infs with
    | s :: rest => if rest.all (fun t => t == s) then fmtF32.inf s else fmtF32.nan
    | [] =>
      let fin := ps.map (fun p => match p.1, p.2 with
        | .fin s1 m1 e1, .fin s2 m2 e2 => (s1 != s2, m1 * m2, e1 + e2)
        | _, _ => (false, 0, 0))
      let (v, e) := fin.foldl (fun (acc : Int × Int) t =>
        let (r, e) := addFin (decide (acc.1 < 0)) acc.1.natAbs acc.2 t.1 t.2.1 t.2.2
        (r, e)) ((0 : Int), (0 : Int))
      if v = 0 then fmtF32.signBit (fin.all (fun t => t.1 && t.2.1 == 0))
      else (roundTo fmtF32 arrayMode false ⟨decide (v < 0), v.natAbs, e, false⟩).1

/-- F32 addition as the array does it (R97, R98). -/
def arrayAdd (a b : Nat) : Nat := (fAdd fmtF32 arrayMode (fmtF32.decode false a) (fmtF32.decode false b)).1

/-- The chunk tree of eight block sums (R97). -/
def chunkTree (b : List Nat) : Nat :=
  let g (i : Nat) : Nat := (b.drop i).headD 0
  arrayAdd (arrayAdd (arrayAdd (g 0) (g 1)) (arrayAdd (g 2) (g 3))) (arrayAdd (arrayAdd (g 4) (g 5)) (arrayAdd (g 6) (g 7)))

end Sys2Proof.Machine
end

