-- ==== Sys2Proof/Machine/Operands.lean ====
section
/-! DEFINITION. Operand forms: immediates and word forms (R50, R60, R61), control transfers (R65), memory operands
(R66, R67), vector operands with their checks and conversions (R32, R101 to R106) and the fields of a command word
(Table 17-3). -/

namespace Sys2Proof.Machine

/-! ### Scalars -/

/-- Sign extension to 64 bits (Table 02-6). -/
def sext {n : Nat} (v : BitVec n) : Word := v.signExtend 64
/-- Bits [31:0]. -/
def low32 (w : Word) : BitVec 32 := w.setWidth 32
/-- A 32-bit result, sign-extended (R60). -/
def sext32 (v : BitVec 32) : Word := v.signExtend 64
/-- 1 or 0. -/
def boolWord (b : Bool) : Word := if b then 1 else 0
/-- A shift amount of six bits (R60). -/
def shamt6 (w : Word) : Nat := bitsNat w 0 6
/-- A shift amount of five bits (R60). -/
def shamt5 (w : Word) : Nat := bitsNat w 0 5
/-- The U immediate: imm20 << 12, sign-extended (R50). -/
def immU (imm : BitVec 20) : Word := (imm ++ 0#12).signExtend 64
/-- The J immediate: imm[20:1] with a zero below (R50). -/
def immJ (imm : BitVec 20) : Word := (imm ++ 0#1).signExtend 64
/-- The B immediate: imm[12:1] with a zero below (R50). -/
def immB (imm : BitVec 12) : Word := (imm ++ 0#1).signExtend 64
/-- Bits [127:64] of a product (R62). -/
def highHalf (p : Int) : Word := BitVec.ofInt 64 (p / 2 ^ 64)

/-- Signed quotient toward zero, with Table 04-4's corners. -/
def divS {n : Nat} (a b : BitVec n) : BitVec n := if b = 0 then BitVec.allOnes n else BitVec.ofInt n (a.toInt.tdiv b.toInt)
/-- Unsigned quotient (Table 04-4). -/
def divU {n : Nat} (a b : BitVec n) : BitVec n := if b = 0 then BitVec.allOnes n else BitVec.ofNat n (a.toNat / b.toNat)
/-- Signed remainder, with the dividend's sign (Table 04-4). -/
def remS {n : Nat} (a b : BitVec n) : BitVec n := if b = 0 then a else BitVec.ofInt n (a.toInt.tmod b.toInt)
/-- Unsigned remainder (Table 04-4). -/
def remU {n : Nat} (a b : BitVec n) : BitVec n := if b = 0 then a else BitVec.ofNat n (a.toNat % b.toNat)

/-- The trap of a taken transfer to `target`, if any: any of bits [63:57] set is cause 1, else bit 1 set is cause 0
(R65). -/
def transferCause (target : Word) : Option Nat :=
  if target >>> 57 ≠ 0 then some 1 else if target.getLsbD 1 then some 0 else none

/-- A taken transfer: its traps leave pc and rd as they are; else rd receives pc + 4 (R64, R65). -/
def State.transfer (s : State) (target : Word) (rd : Option Reg) : Out :=
  match transferCause target with
  | some c => s.trapOut c target
  | none => .next ((match rd with
      | some r => s.setX r (s.hart.pc + 4)
      | none => s).jumpTo (pcOf target))

/-- A branch (R64, R65). -/
def State.branch (s : State) (taken : Bool) (imm : BitVec 12) : Out :=
  if taken then s.transfer (s.hart.pc + immB imm) none else .next s.advance

/-! ### Memory operands (R66, R67) -/

/-- x[rs1] + sext(imm). -/
def State.addr (s : State) (rs1 : Reg) (imm : BitVec 12) : Word := s.x rs1 + sext imm

/-- `n` bytes as a word, sign- or zero-extended. -/
def extend (signed : Bool) (bs : List Byte) : Word :=
  let v := natOfBytes bs
  if signed then BitVec.ofInt 64 (toSigned (8 * bs.length) v) else BitVec.ofNat 64 v

/-- The low `n` bytes of a word. -/
def lowBytes (n : Nat) (w : Word) : List Byte := bytesOfNat n w.toNat

/-! ### Vector operands (R101, R106) -/

/-- The format of a float element type (Table 03-4). -/
def etyFmt : ETy → Fmt
  | .f32 => fmtF32 | .bf16 => fmtBf16 | .f16 => fmtF16 | _ => fmtF64
/-- w(T) (Table 03-4). -/
def etyBits : ETy → Nat
  | .f32 | .i32 => 32 | .bf16 | .f16 | .i16 => 16 | .f64 | .i64 => 64 | .i8 => 8
/-- N(T). -/
def etyLanes (t : ETy) : Nat := 512 / etyBits t
/-- The tag of a type (Table 02-2). -/
def etyTag : ETy → Tag
  | .f32 => .f32 | .bf16 => .bf16 | .f16 => .f16 | .f64 => .f64 | .i32 => .i32 | .i16 => .i16 | .i8 => .i8 | .i64 => .i64

/-- What a tag's elements are. -/
inductive TagKind where
  | raw
  | float (m : Fmt)
  | int (w : Nat)
  | block (w : Nat)
  deriving DecidableEq, Repr

/-- Table 02-2. -/
def tagKind : Tag → TagKind
  | .raw => .raw
  | .f32 => .float fmtF32 | .bf16 => .float fmtBf16 | .f16 => .float fmtF16 | .f64 => .float fmtF64
  | .i32 => .int 32 | .i16 => .int 16 | .i8 => .int 8 | .i64 => .int 64
  | .e4m3 => .float fmtE4m3 | .e5m2 => .float fmtE5m2
  | .bx8p => .block 8 | .bx4p => .block 4

/-- Lanes of a tag; a block has 32 elements (R123). -/
def tagLanes (t : Tag) : Nat :=
  match tagKind t with
  | .raw => 0
  | .float m => 512 / m.width
  | .int w => 512 / w
  | .block _ => 32

/-- Lane `i` of `w` bits of a register's bits (R81). -/
def laneOf (w : Nat) (b : VBits) (i : Nat) : Nat := bitsNat b (w * i) w

/-- The lanes of a register's bits. -/
def lanesOf (w : Nat) (b : VBits) : List Nat := (List.range (512 / w)).map (laneOf w b)

/-- A register's bits from its lanes (R81). -/
def packLanes (w : Nat) (ls : List Nat) : VBits :=
  BitVec.ofNat 512 (ls.foldr (fun v acc => v % 2 ^ w + 2 ^ w * acc) 0)

/-- One element converted between two kinds (R93 to R95). -/
def convertElem (md : FMode) (to_ : TagKind) (v : FVal ⊕ Int) : Nat × Fl :=
  match to_, v with
  | .float m, .inl x => fToF m md x
  | .float m, .inr n => iToF m md n
  | .int w, .inl x => fToI w md x
  | .int w, .inr n => iToI w md n
  | _, _ => (0, 0)

/-- Element `i` of a register as its tag's format gives it: a float value or an integer. -/
def elemOf (md : FMode) (r : VecReg) (i : Nat) : FVal ⊕ Int :=
  match tagKind r.tag with
  | .float m => .inl (m.decode md.ftz (laneOf m.width r.bits i))
  | .int w => .inr (toSigned w (laneOf w r.bits i))
  | .block w => .inl (blockVal (blockOf w r.bits.toNat) i)
  | .raw => .inr 0

/-- The bits of a tag's element. -/
def tagBits (t : Tag) : Nat :=
  match tagKind t with
  | .float m => m.width
  | .int w => w
  | _ => 0

/-- The lanes of `n` elements converted from a register's own format, zero at and above the source's lanes, with
the flags (R32, R123). `active` says which are converted. -/
def convertLanes (md : FMode) (r : VecReg) (to_ : Tag) (active : Nat → Bool) : List (Nat × Fl) :=
  (List.range (tagLanes to_)).map (fun i =>
    if active i && decide (i < tagLanes r.tag) then convertElem md (tagKind to_) (elemOf md r i) else (0, 0))

/-- A register's element for the quantiser: from its own format, a missing element +0 (R32). -/
def quantElem (md : FMode) (r : VecReg) (i : Nat) : FVal :=
  if tagLanes r.tag ≤ i then .fin false 0 0
  else match elemOf md r i with
    | .inl x => x
    | .inr n => .fin (decide (n < 0)) n.natAbs 0

/-- The format whose largest finite value replaces an infinity of the source. -/
def sourceFmt (t : Tag) : Fmt :=
  match tagKind t with
  | .float m => m
  | _ => fmtF32

/-- The register's own bits read as tag `t`, with flags: accepted when its tag is `t` or RAW, else converted (R32).
The flags are those a `vcvt` would set; an inactive lane is not converted (R102). -/
def readAs (md : FMode) (qdelta : Word) (r : VecReg) (t : Tag) (active : Nat → Bool) : VBits × Fl :=
  if r.tag = t ∨ r.tag = .raw then (r.bits, 0)
  else match tagKind t with
    | .block w =>
      let (b, f) := quantise w (bitsNat qdelta 0 8) (sourceFmt r.tag) ((List.range 32).map (quantElem md r))
      (BitVec.ofNat 512 (blockBits b), f)
    | _ =>
      let ls := convertLanes md r t active
      (packLanes (tagBits t) (ls.map (·.1)), ls.foldl (fun f e => f ||| e.2) 0)

/-- A register that holds, or is read as, a BX block whose CHK fails (R89, R106 step 5). -/
def chkBad (r : VecReg) (t : Tag) : Bool :=
  match tagKind (if r.tag = .raw then t else r.tag) with
  | .block w => !blockOk (blockOf w r.bits.toNat)
  | _ => false

/-- A source operand: the register, and the type it is read as; none for Bits(). -/
structure Src where
  reg : VReg
  as_ : Option Tag
  deriving DecidableEq, Repr

/-- VMODE.FMT_TRAP. -/
def State.fmtTrap (s : State) : Bool := s.hart.csr.vmode.getLsbD 0
/-- VMODE.SCB_CHECK. -/
def State.scbCheck (s : State) : Bool := s.hart.csr.vmode.getLsbD 1
/-- VMODE's arithmetic fields. -/
def State.fm (s : State) : FMode := fmode s.hart.csr.vmode

/-- The lowest of the register numbers that satisfy a test. -/
def lowestReg (p : VReg → Bool) (l : List VReg) : Option VReg :=
  l.foldl (fun acc r => if p r then (match acc with
    | some a => some (if r.toNat < a.toNat then r else a)
    | none => some r) else acc) none

/-- Check 2 of R106. -/
def State.vheld (s : State) (named : List VReg) : Option (Nat × Word) :=
  (lowestReg s.hart.unheld named).map (fun r => (26, BitVec.ofNat 64 r.toNat))

/-- Check 3 of R106. -/
def State.vearly (s : State) (srcs : List Src) : Option (Nat × Word) :=
  if s.scbCheck then (lowestReg s.hart.early (srcs.map (·.reg))).map (fun r => (25, BitVec.ofNat 64 r.toNat)) else none

/-- Check 4 of R106. -/
def State.vformat (s : State) (srcs : List Src) : Option (Nat × Word) :=
  let bad (r : VReg) : Bool := srcs.any (fun x => x.reg == r && (match x.as_ with
    | some t => (s.hart.readV r).tag != t && (s.hart.readV r).tag != .raw
    | none => false))
  if s.fmtTrap then
    (lowestReg bad (srcs.map (·.reg))).map (fun r => (24, BitVec.ofNat 64 (r.toNat + (s.hart.readV r).tag.bits.toNat * 256)))
  else none

/-- Check 5 of R106. -/
def State.vchk (s : State) (srcs : List Src) : Option (Nat × Word) :=
  let bad (r : VReg) : Bool := srcs.any (fun x => x.reg == r && (match x.as_ with
    | some t => chkBad (s.hart.readV r) t
    | none => false))
  (lowestReg bad (srcs.map (·.reg))).map (fun r => (34, BitVec.ofNat 64 r.toNat))

/-- Checks 2 to 5 of R106, in order, for the registers named and the sources. -/
def State.vcheck (s : State) (named : List VReg) (srcs : List Src) : Option (Nat × Word) :=
  match s.vheld named with
  | some t => some t
  | none => match s.vearly srcs with
    | some t => some t
    | none => match s.vformat srcs with
      | some t => some t
      | none => s.vchk srcs

/-- The register field as the instruction names it now (R42, R107). -/
def State.rot (s : State) (r : VReg) : VReg := rotate s.hart.csr.repstate r

/-- Pair(n) (Table 06-1). -/
def pairOf (r : VReg) : VReg := r + 1

/-- Read(n, T) for the active elements: the bits, and the flags of a conversion (R32, R102). -/
def State.vread (s : State) (r : VReg) (t : Tag) (active : Nat → Bool) : VBits × Fl :=
  readAs s.fm s.hart.csr.qdelta (s.hart.readV r) t active

/-- Every element. -/
def allLanes (_ : Nat) : Bool := true

/-- Active(i) (Table 06-1). -/
def State.active (s : State) (m : Bool) (i : Nat) : Bool := !m || s.hart.csr.vmask.getLsbD i

/-- VFLAGS with bits set; hardware only sets them (R85). -/
def State.orFlags (s : State) (f : Fl) : State := s.withCsr (fun c => { c with vflags := c.vflags ||| f.setWidth 64 })

/-- Keep the inactive lanes of the destination, as the register stands in program order (R40, R102). -/
def mergeLanes (w : Nat) (old : VBits) (active : Nat → Bool) (new : List Nat) : VBits :=
  packLanes w ((List.range (512 / w)).map (fun i => if active i then (new.drop i).headD 0 else laneOf w old i))

/-- Write(n, r, t) with a latency class, flags set (R39, R104). -/
def State.vwrite (s : State) (r : VReg) (b : VBits) (t : Tag) (lat : Nat) (f : Fl) : State :=
  let s := s.orFlags f
  { s with hart := s.hart.issueV r ⟨b, t⟩ lat }

/-- A vector instruction with its checks; `w` empty steps follow it (R104, R106). -/
def State.vector (s : State) (named : List VReg) (srcs : List Src) (w : BitVec 2) (k : State → State) : Out :=
  match s.vcheck named srcs with
  | some (c, v) => s.trapOut c v
  | none => .next ((k s).advanceW w.toNat)

/-! ### Command words (Table 17-3) -/

/-- TAG of a command. -/
def cmdTag (c : Command) : BitVec 16 := c.word.extractLsb' 16 16
/-- NOTIFY. -/
def cmdNotify (c : Command) : Bool := c.word.getLsbD 8
/-- RESUME. -/
def cmdResume (c : Command) : Bool := c.word.getLsbD 10
/-- ATOMIC. -/
def cmdAtomic (c : Command) : Bool := c.word.getLsbD 11
/-- Bits of the small fields, [63:32], from bit `lo` of the word. -/
def cmdBits (c : Command) (lo n : Nat) : Nat := bitsNat c.word lo n
/-- The bytes of one record of a hamper image, by FORMAT; 0 for a FORMAT that is none (R304). -/
def recBytes (format : Nat) : Nat :=
  match format with
  | 2 | 3 => 64
  | 9 | 10 => 32
  | 11 => 36
  | 12 => 20
  | _ => 0

/-- The bytes of the hamper image that an MLOADW or MMA names (R304). -/
def imageBytes (c : Command) : Nat :=
  (cmdBits c 41 3 + 1) * (cmdBits c 44 8 + 1) * recBytes (cmdBits c 37 4)

/-- The party-relative segments of the image, first and one past the last. -/
def imageSegs (c : Command) : Nat × Nat := (cmdBits c 32 5, cmdBits c 32 5 + (imageBytes c + 0xFFFF) / 0x10000)

/-- op0. -/
def cmdOp0 (c : Command) : Word := c.word.extractLsb' 64 64
/-- op1. -/
def cmdOp1 (c : Command) : Word := c.word.extractLsb' 128 64
/-- op2. -/
def cmdOp2 (c : Command) : Word := c.word.extractLsb' 192 64

/-! ### Window views (Table 17-6, R294, R296) -/

/-- rb, the bytes of a row (R294). -/
def rowBytes (t cols : Nat) : Nat :=
  match t with
  | 1 => 4 * cols
  | 2 | 3 => 2 * cols
  | 11 => cols + cols / 8
  | 12 => cols / 2 + cols / 8
  | _ => cols

/-- A window view (Table 17-6). -/
structure View where
  base   : Nat
  rows   : Nat
  cols   : Nat
  stride : Nat
  type   : Nat
  deriving DecidableEq, Repr

/-- The view that an operand packs (R296). -/
def viewOf (w : Word) : View :=
  { base := bitsNat w 0 19, rows := bitsNat w 19 8 + 1, cols := bitsNat w 27 8 + 1, stride := 64 * bitsNat w 35 13, type := bitsNat w 48 4 }

/-- rb, the bytes of a row. -/
def View.rb (v : View) : Nat := rowBytes v.type v.cols
/-- The window offset of row `i`. -/
def View.row (v : View) (i : Nat) : Nat := v.base + i * v.stride

/-- The bytes of `n` elements of a type, scale words apart. -/
def elemBytes (t n : Nat) : Nat :=
  match t with
  | 1 => 4 * n | 2 | 3 => 2 * n | 12 => n / 2 | _ => n

end Sys2Proof.Machine
end

