-- ==== Sys2Proof/Machine/Schedule.lean ====
section
/-! DEFINITION. Who acts next: when a waiting hart wakes (Tables 09-3 and 22-2), which harts are ready, which of the
machine's own events are due, the passing of time, and the placing of an instruction where the hart fetches it. -/

namespace Sys2Proof.Machine

/-- When the wait of the instruction in hand began, in the model's count of choices; `now` where it has not waited. -/
def Hart.waitTime (x : Hart) (now : Nat) : Nat :=
  match x.since with
  | some (pc, n, t) => if pc = x.pc ∧ n = x.csr.instret then t else now
  | none => now

/-- The harts that wait for something and began to before hart `h`, whose wait began at `t`. -/
def State.waitersBefore (s : State) (h t : Nat) (f : Nat → Wake → Bool) : List Nat :=
  s.hartIds.filter (fun k => k != h && (match (s.getHart k).blocked with
    | some w => f k w && decide ((s.getHart k).waitTime s.choices < t)
    | none => false))

/-- Room of a core at an engine: at most 16 accepted and uncompleted commands at a port, at q2 at each site's engine (R286, R322). -/
def State.engineRoom (s : State) (core port site : Nat) : Bool :=
  (s.engines.filter (fun a => coreOf a.cmd.by_.hart == core && a.cmd.by_.port == port && a.site == site)).length < 16

/-- A hart may submit to a port now: room, for q0 the lease of its cluster's array, and no hart of the core that began to wait for the
port before it (R286, R287). -/
def State.engineReady (s : State) (h t port site : Nat) : Bool :=
  s.engineRoom (coreOf h) port site && (port != 0 ||
    (let l := (s.cluster (clusterOf h)).lease
     l.holder == some (coreOf h) && !l.draining))
    && (s.waitersBefore h t (fun k w => coreOf k == coreOf h && (match w with
      | .engine q _ => q == port
      | _ => false))).isEmpty

/-- The harts of a core that wait to take an entry of its queue `n` and began to before hart `h` (R180). -/
def State.takersBefore (s : State) (h t n : Nat) : Nat :=
  (s.waitersBefore h t (fun k w => coreOf k == coreOf h && (match w with
    | .queues mask takes => takes && mask.getLsbD n
    | _ => false))).length

/-- A stage queue's occupancy: delivered entries and those emitted in this superstep (R143). -/
def StageQueueOccupancy (q : StageQueue) : Nat := q.tasks.length + q.emitted.length

/-- Stage k of a launch is full (R143). -/
def stageFull (l : Launch) (k : Nat) : Bool :=
  match l.stages[k]?, l.queues[k]? with
  | some st, some q => decide (st.capacity ≤ StageQueueOccupancy q)
  | _, _ => true

/-- An interrupt is pending and enabled for a mode at or above the present one, whatever xIE holds (R76). -/
def State.wfiInterrupt (s : State) (h : Nat) (x : Hart) : Bool :=
  if x.csr.mie = 0 then false
  else interruptOrder.any (fun n => x.csr.mie.getLsbD n && decide (modeLevel x.mode ≤ modeLevel (interruptTarget n)) && s.mipBit h x n)

/-- The wake condition holds (Table 22-2). The exchange, the party barrier, a grant, a decision and a load's
completion end their waits themselves. DEDUCED (log 56). -/
def State.wakes (s : State) (h : Nat) (x : Hart) : Wake → Bool
  | .queues mask takes => (List.range 8).any (fun n => mask.getLsbD n
      && decide ((if takes then s.takersBefore h (x.waitTime s.choices) n else 0) < ((s.core (coreOf h)).queue n).length n))
  | .interrupt => s.wfiInterrupt h x || s.inboxFull h
  | .stage k => match (x.party.bind s.party?).bind (fun p => s.launch? p.launch) with
    | some l => !stageFull l k
    | none => true
  | .allowance c q => !(s.core (coreOf h)).meshStopped
      && (s.core (coreOf h)).allowances.any (fun a => a.1 == c && a.2.1 == q && a.2.2 != 0)
  | .acq _ => false
  | .cell _ _ _ _ => false
  | .cellRetry => false
  | .purge pa => !s.purging.contains pa && (s.waitersBefore h (x.waitTime s.choices) (fun _ w => w == .purge pa)).isEmpty
  | .retire _ _ => false
  | .barrier _ _ => false
  | .pcie _ _ _ _ => false
  | .remote _ _ _ _ _ => false
  | .ring => !s.ringFull (BitVec.ofNat 64 (s.ctxField (rootOf x.csr.ptroot) 0x150 8))
  | .ship => match x.ships with
    | r :: _ => r.isSome
    | [] => true
  | .engine port site => s.engineReady h (x.waitTime s.choices) port site
  | .release => true
  | .reclaim q => ((s.core (coreOf h)).queue q).granted == 0
  | .ships => x.ships.all (fun r => r.isSome)

/-- The hart's party belongs to a context that is gang-stopped (R153). -/
def State.frozen (s : State) (x : Hart) : Bool :=
  match x.party.bind s.party? with
  | some p => s.contexts.any (fun c => c.id == p.ctx && c.stopped)
  | none => false

/-- The hart's party may issue: it is not being saved, restored, retired or scrubbed (Table 07-4). -/
def State.partyRuns (s : State) (x : Hart) : Bool :=
  match x.party.bind s.party? with
  | none => true
  | some p => p.state == .running

/-- Hart `h` can issue now. -/
def State.ready (s : State) (h : Nat) (x : Hart) : Bool :=
  x.running && !x.finished && !s.frozen x && s.partyRuns x && (match x.blocked with
    | none => true
    | some w => s.wakes h x w || x.trapDue.isSome || (s.interrupt? h x).isSome)

/-- The harts that can issue now. -/
def State.readyHarts (s : State) : List Nat := s.hartIds.filter (fun h => s.ready h (s.getHart h))

/-- The command constructor a CMD value names (Table 17-4); a value that names none is no command. -/
def commandInstr (c : Command) : Option Instr :=
  match c.cmd with
  | 0x00 => some (.mzero c) | 0x01 => some (.mloadw c) | 0x02 => some (.mma c) | 0x03 => some (.mdrain c)
  | 0x04 => some (.mend c) | 0x20 => some (.cpy c) | 0x21 => some (.cpyt c) | 0x22 => some (.fill c)
  | 0x23 => some (.sfill c) | 0x24 => some (.sevict c) | 0x25 => some (.pref c) | 0x26 => some (.migr c)
  | 0x40 => some (.gather c) | 0x41 => some (.scatter c) | 0x42 => some (.ship c) | 0x43 => some (.tabload c)
  | 0x60 => some (.callred c) | 0x61 => some (.credsc c) | 0x62 => some (.callgath c) | 0x63 => some (.cbcast c)
  | 0x64 => some (.cxchg c) | 0x80 => some (.nsend c) | 0x81 => some (.nwrite c) | 0x82 => some (.nread c)
  | 0x83 => some (.npost c)
  | _ => none

/-- Time passes with a step: at least one cycle (R434). DESIGN CHOICE (log 3). -/
def State.tick (s : State) : State :=
  { s with clock := s.clock + 1 + Config.stepCycles s.choices, choices := s.choices + 1 }

/-- An element of a list, by a free choice. -/
def pickOf {α : Type} (l : List α) (n : Nat) : Option α := l[n % l.length]?

/-- Before a hart acts: a pending store of it may leave its buffer, with every other of its aligned doubleword, so that no aligned
store is seen in part; it may discard a copy; and some group agent may write back a line or drop what it holds of a doubleword
(R158, R159, R224). Which does is free. DESIGN CHOICE (log 4). -/
def State.maybeDrain (s : State) : State :=
  let s := match s.hart.pending with
    | [] => s
    | l => match pickOf l (Config.drainPick s.choices) with
      | some c => if Config.drainNow s.choices then s.drainRange s.hid (c.1 / 8 * 8) (c.1 / 8 * 8 + 8) else s
      | none => s
  let s := match s.hartCopies s.hid with
    | [] => s
    | l => match pickOf l (Config.drainPick s.choices) with
      | some c => if Config.refreshNow s.choices then
          { s with stale := s.stale.filter (fun k => !(k.1 == s.hid && k.2.1 / 8 == c.1 / 8)) } else s
      | none => s
  match s.lines with
  | [] => s
  | l => match pickOf l (Config.evictPick s.choices) with
    | some e =>
      if Config.evictNow s.choices = false then s
      else if e.dirty then s.writeBack e.cluster (fun n => n == e.addr / 64)
      else s.dropLines e.cluster (fun _ => true) (fun a => a / 8 == e.addr / 8)
    | none => s

/-- Bytes laid over a list at an offset. -/
def overlay (bs : List Byte) (off : Nat) (new : List Byte) : List Byte :=
  takeBytes bs 0 off ++ new ++ takeBytes bs (off + new.length) (64 - off - new.length)

/-- Place an instruction's bytes where the hart in focus fetches next: in memory at the pc (physical in M-mode), and as
the block in its fetch buffer; nothing else is due before it. -/
def placeWord (s : State) (bs : List Byte) : State :=
  let pc := s.hart.pc.toNat
  let blk := pc / 64 * 64
  let key := normPa blk
  let block := overlay (s.load key 64) (pc % 64) bs
  let h := { s.hart with
    running := true, finished := false, blocked := none, trapDue := none, party := none
    csr := { s.hart.csr with mie := 0 }
    late := none, since := none
    fetch := [{ phys := s.hart.mode == .m, va := blk, bytes := block, bad := [] }]
    lastFetch := none }
  { (if s.hart.mode = .m then s.store (normPa pc) bs else s) with
    hart := h
    stale := s.stale
    lines := s.lines
    others := s.others.map (fun e => (e.1, { e.2 with running := false }))
    events := []
    engines := []
    posts := []
    launches := []
    messages := []
    shares := s.shares.map (fun x => { x with pool := 0 })
    halted := none
    boot := { s.boot with stage := .done } }

end Sys2Proof.Machine
end

