-- ==== Sys2Proof/Machine/Launch.lean ====
section
/-! DEFINITION. What the dispatcher and the headcount tree do for a launch: the device's own accesses (R251), trace
records (R422, R423), gang stops (R153), delivery to a rank (Table 14-7), shootdowns (R264) and the end of a launch
(R155). -/

namespace Sys2Proof.Machine

/-! ### The device's own accesses (R251) -/

/-- Where a hardware access for a context lands, checked as an S-mode load or store on ordinary memory by the walker of die 0: none
when its translation, its permissions, the frame record or its page refuses it, or it meets MMIO (R137, R251, R267). `plain` asks for
KIND 0 and FMT 0 as well. DESIGN CHOICE (log 19). -/
def deviceLeaf (s : State) (ctx : BitVec 16) (root va : Nat) (write plain : Bool) : Option Place :=
  if 2 ^ 57 ≤ va ∨ inWindow va = true then none
  else match walk s 0 ctx root va with
    | .error _ => none
    | .ok (p, level, _) =>
      let pa := ptePfn p * 4096 + va % 2 ^ leafBits level (pteSpan p)
      let rights := match leafRights s pa (pteKind p) write with
        | .ok r => !(write && r == 1)
        | .error _ => false
      if permits p .s (if write then .write else .read) && rights && pteKind p != 1 && pteKind p != 4 && !inMmio pa
          && s.answers pa && (!plain || (pteKind p == 0 && pteFmt p == 0))
          && !(write && pteKind p == 2) then
        some { key := normPa pa, mmio := false, window := false, pte := p, meta_ := none, va := va }
      else none

/-- The same with the metadata byte that a CMP 3 or 4 page asks for: none where R257 refuses the access. -/
def deviceAt (s : State) (ctx : BitVec 16) (root va : Nat) (write plain : Bool) : Option Place :=
  match deviceLeaf s ctx root va write plain with
  | none => none
  | some p =>
    if pteCmp p.pte < 3 then some p
    else
      let origin := s.ctxField root 0x100 8
      let at_ := (va - origin) / 512
      if s.ctxBad root 0x100 24 ∨ va < origin ∨ s.ctxField root 0x110 8 ≤ at_ then none
      else match deviceLeaf s ctx root (s.ctxField root 0x108 8 + at_) true true with
        | none => none
        | some m => if pteCmp m.pte = 0 then some { p with meta_ := some m.key } else none

/-- A place of the device's is uncorrectable, or the mask it needs is (R348). -/
def State.deviceBad (s : State) (p : Place) (n : Nat) : Bool := poisoned s.poison p.key n || s.linkCut p.key n || s.maskBad p.meta_ p.key

/-- Bytes read for the device from one 256-byte block, decoded by its METHOD (R258). -/
def deviceBlock (s : State) (ctx : BitVec 16) (root va n : Nat) : Option (List Byte) :=
  match deviceAt s ctx root va false false with
  | some p => if s.deviceBad p n then none else some (decoded s p p.key n)
  | none => none

/-- Up to 256 bytes read for the device, block by block; none when some byte cannot be read or is uncorrectable. -/
def deviceRead (s : State) (ctx : BitVec 16) (root va n : Nat) : Option (List Byte) :=
  let k := min n (256 - va % 256)
  match deviceBlock s ctx root va k with
  | none => none
  | some bs =>
    if k = n then some bs
    else (deviceBlock s ctx root (va + k) (n - k)).map (fun cs => bs ++ cs)

/-- Bytes written for the device to one block of a plain page, encoded as its CMP says (R258). -/
def State.devicePut (s : State) (p : Place) (bs : List Byte) : State :=
  if pteCmp p.pte = 0 then s.storeWhole p.key bs else storeCompressed s none p bs

/-- Up to 256 bytes written for the device on plain pages. -/
def deviceWrite (s : State) (ctx : BitVec 16) (root : Nat) (va : Nat) (bs : List Byte) : Option State :=
  let k := min bs.length (256 - va % 256)
  match deviceAt s ctx root va true true with
  | none => none
  | some p =>
    if k = bs.length then some (s.devicePut p bs)
    else (deviceAt s ctx root (va + k) true true).map (fun q => (s.devicePut p (bs.take k)).devicePut q (bs.drop k))

/-- The context of a root table. -/
def State.rootCtx (s : State) (root : Nat) : BitVec 16 :=
  match s.contexts.find? (fun c => c.root == root) with
  | some c => c.id
  | none => 0

/-! ### Trace records (R422, R423) -/

/-- Where a context's ring cursors lie. -/
def pageAt (root off : Nat) : Nat := root + 0x1000 + off

/-- Write one trace record, or drop it and count it; the cursors are read and written in memory (R253, R422). -/
def State.trace (s : State) (root : Nat) (bs : List Byte) : State :=
  let base := s.ctxField root 0x188 8
  let size := 2 ^ s.ctxField root 0x190 4
  let head := s.loadNat (pageAt root 0x194) 4
  let tail := s.loadNat (pageAt root 0x198) 4
  let drop := s.store (pageAt root 0x19C) (bytesOfNat 4 (s.loadNat (pageAt root 0x19C) 4 + 1))
  if root = 0 ∨ base = 0 then s
  else if (head + 0x100000000 - tail) % 0x100000000 = size then drop
  else match deviceWrite s (s.rootCtx root) root (base + 32 * (head % size)) (takeBytes bs 0 32) with
    | some s => s.store (pageAt root 0x194) (bytesOfNat 4 (head + 1))
    | none => drop

/-- A record of Table 29-1 from its four words. -/
def traceRecord (a b c : Nat) (core device kind : Nat) : List Byte :=
  bytesOfNat 8 a ++ bytesOfNat 8 b ++ bytesOfNat 8 c ++ bytesOfNat 2 core ++ bytesOfNat 2 device ++ bytesOfNat 1 kind
    ++ bytesOfNat 3 0

/-- The core as a trace record names it: cluster [9:4], core [3:0]. -/
def traceCore (c : Nat) : Nat := c % 1024

/-! ### Gang stops (R153) -/

/-- The launch of a context that has not ended. -/
def State.ctxLaunch (s : State) (ctx : BitVec 16) : Option Launch := s.launches.find? (fun l => l.ctx == ctx && l.ended.isNone)

/-- The cores of some clusters, in order. -/
def coresOf (clusters : List Nat) : List Nat := clusters.flatMap (fun k => (List.range 16).map (fun j => 16 * k + j))

/-- The harts of a context's parties. -/
def State.ctxHarts (s : State) (ctx : BitVec 16) : List Nat :=
  (s.parties.filter (fun p => p.ctx == ctx)).flatMap Party.harts

/-- Stop the partition of a context with a REASON: each hart's issued vector results complete, then one CORE_STOP record per core, any
divergence record and the STOP record are written (R153, R423). No rule says by what means the accelerator kernel asks for a stop, whose
REASON is 6: the model gives it none. DESIGN CHOICE (log 66). -/
def State.gangStop (s : State) (ctx : BitVec 16) (reason : Nat) (divergence : Option (List Byte)) : State :=
  match s.ctx? ctx with
  | none => s
  | some c =>
    if c.stopped then s else
    let sstep := match s.ctxLaunch ctx with
      | some l => l.sstep
      | none => 0
    let s := (s.ctxHarts ctx).foldl (fun s h => s.setHart h (s.getHart h).complete) s
    let s := s.mapCtx ctx (fun c => { c with stopped := true, watchdog := c.watchdog.map (fun t => t - s.clock) })
    let s : State := { s with parties := s.parties.map (fun (p : Party) =>
      if p.ctx = ctx ∧ p.state = .saving then { p with saveSince := s.clock - p.saveSince } else p) }
    let s := (coresOf c.clusters).foldl (fun s k =>
      s.trace c.root (traceRecord sstep s.clock ((s.core k).sent % 0x100000000 + (s.core k).received % 0x100000000 * 2 ^ 32)
        (traceCore k) Config.devno 3)) s
    let s := match divergence with
      | some d => s.trace c.root d
      | none => s
    s.trace c.root (traceRecord sstep s.time reason 0xFFFF Config.devno 1)

/-! ### Delivery to a rank (Table 14-7) -/

/-- The party that occupies or keeps a rank's slot. -/
def State.slotParty (s : State) (l : Launch) (rank : Nat) : Option Party :=
  s.parties.find? (fun p => p.launch == l.id && (match l.hartOf rank with
    | some h => p.harts.contains h
    | none => false))

/-- The rank is IN_TRANSIT or ABSENT: its party is being saved, saved or restored, or its idle slot has left with the context. -/
def State.rankAway (s : State) (l : Launch) (rank : Nat) : Bool :=
  (match s.slotParty l rank with
    | some p => p.state == .saving || p.state == .saved || p.state == .restoring
    | none => false)
  || (match l.hartOf rank with
    | some h => l.away.any (fun r => r.core == coreOf h && r.queues.any (fun q => q.1 == slotOf h))
    | none => false)

/-- A hardware entry for a rank of a launch: held while the rank is away, discarded when it does not exist (R344). -/
def State.toRank (s : State) (id rank : Nat) (e : VBits) : State :=
  match s.launch? id with
  | none => s
  | some l =>
    if s.rankAway l rank then s.mapLaunch id (fun l => { l with held := l.held ++ [(rank, e)] })
    else match l.hartOf rank with
      | some h => s.notice h e
      | none => s

/-! ### Shootdowns (R264) -/

/-- log2 of the range a shootdown SIZE names; none for the whole context and for every context (Table 15-8). -/
def shootBits : Nat → Option Nat
  | 0 => some 12 | 1 => some 16 | 2 => some 21 | 3 => some 25 | 4 => some 30 | 5 => some 34 | _ => none

/-- A TLB entry that a shootdown removes. -/
def shotDown (ctx : BitVec 16) (va size : Nat) (e : TlbEntry) : Bool :=
  match shootBits size with
  | some b => e.ctx == ctx && decide (e.va < va / 2 ^ b * 2 ^ b + 2 ^ b) && decide (va / 2 ^ b * 2 ^ b < e.va + 2 ^ e.bits)
  | none => size == 7 || e.ctx == ctx

/-- A decision-cache entry's PA lies in one of some frames, given as first PA and size. -/
def inFrames (fs : List (Nat × Nat)) (pa : Nat) : Bool := fs.any (fun f => f.1 ≤ pa && pa < f.1 + f.2)

/-- Remove the TLB entries that satisfy a test from a core and a cluster. -/
def Core.dropTlb (c : Core) (p : TlbEntry → Bool) : Core :=
  { c with itlb := c.itlb.filter (fun e => !p e), dtlb := c.dtlb.filter (fun e => !p e) }
/-- The same for a cluster. -/
def Cluster.dropTlb (c : Cluster) (p : TlbEntry → Bool) : Cluster :=
  { c with mtlb := c.mtlb.filter (fun e => !p e), ctlb := c.ctlb.filter (fun e => !p e) }

/-- Drop decision-cache entries by PA. -/
def State.dropDecisions (s : State) (p : Nat → Bool) : State :=
  { s with clusters := s.clusters.map (fun (c : Nat × Cluster) => (c.1, { c.2 with decisions := c.2.decisions.filter (fun d => !p d.pa) })) }

/-- Whole 64 KiB frames named by the TLB entries that satisfy a test, as first PA and size (R264 step 5, R368). -/
def State.tlbPages (s : State) (p : TlbEntry → Bool) : List (Nat × Nat) :=
  ((s.cores.flatMap (fun c => c.2.itlb ++ c.2.dtlb) ++ s.clusters.flatMap (fun c => c.2.mtlb ++ c.2.ctlb)).filter p).map
    (fun e => (normPa (ptePfn e.pte * 4096) / 0x10000 * 0x10000, max 0x10000 (2 ^ e.bits)))

/-- Every hart's pending weak stores reach their point of coherence: what R264 step 6 and R168 wait for, here for every
address, which R159 permits (log 5). -/
def State.publishAll (s : State) : State :=
  let s := s.hartIds.foldl (fun s h => s.publishNear h) s
  ((s.lines.filter (·.dirty)).map (·.cluster)).eraseDups.foldl (fun s k => s.writeBack k (fun _ => true)) s

/-- The invalidations of a shootdown of the TLB entries that satisfy a test: entries, the walk-cache entries of the contexts that
`ctxs` admits, decision-cache entries of their frames, and fetch buffers (R264 steps 2 to 6). `fetch` says which buffered blocks go. -/
def State.invalidate (s : State) (p : TlbEntry → Bool) (ctxs : BitVec 16 → Bool) (fetch : Hart → Nat → Bool) : State :=
  let pages := s.tlbPages p
  let s := { s with
    walks := s.walks.filter (fun w => !ctxs w.ctx)
    cores := s.cores.map (fun (c : Nat × Core) => (c.1, c.2.dropTlb p))
    clusters := s.clusters.map (fun (c : Nat × Cluster) => (c.1, c.2.dropTlb p)) }
  let s := s.dropDecisions (inFrames pages)
  let clear (h : Hart) : Hart := { h with fetch := h.fetch.filter (fun b => !fetch h b.va) }
  let s := { s with hart := clear s.hart, others := s.others.map (fun (e : Nat × Hart) => (e.1, clear e.2)) }
  s.publishAll

/-- A fetch buffer that holds a block of the range is emptied (R264 step 4). -/
def fetchHit (ctx : BitVec 16) (va size : Nat) (h : Hart) : Bool :=
  h.mode != .m && (match shootBits size with
    | some b => ctxOf h.csr.ptroot == ctx
        && h.fetch.any (fun f => f.va < va / 2 ^ b * 2 ^ b + 2 ^ b && va / 2 ^ b * 2 ^ b < f.va + 64)
    | none => size == 7 || ctxOf h.csr.ptroot == ctx)

/-- A migration in progress whose page a shootdown meets is abandoned; its command completes by the next check. -/
def migrationHit (ctx : BitVec 16) (va size : Nat) (m : Migration) : Bool :=
  let mva := m.cmd.word.extractLsb' 64 57
  let mctx := m.cmd.word.extractLsb' 32 16
  match shootBits size with
  | some b => mctx == ctx && decide (mva.toNat < va / 2 ^ b * 2 ^ b + 2 ^ b) && decide (va / 2 ^ b * 2 ^ b < mva.toNat + m.size)
  | none => size == 7 || mctx == ctx

/-- A migration is to be abandoned for a reason; the first event counts (Table 16-1). -/
def Migration.abandonFor (m : Migration) (reason : Nat) : Migration :=
  { m with abandon := match m.abandon with
      | some r => some r
      | none => some reason }

/-- The shootdown of a range and context; sizes 6 and 7 also invalidate the cached context page (R253, R264). -/
def State.shootdown (s : State) (ctx : BitVec 16) (va size : Nat) : State :=
  let named (c : BitVec 16) : Bool := size == 7 || c == ctx
  let s : State := { s with
    ctxPages := if (shootBits size).isNone then s.ctxPages.filter (fun p => !named p.ctx) else s.ctxPages
    migrations := s.migrations.map (fun (m : Migration) => if migrationHit ctx va size m then m.abandonFor 5 else m) }
  s.invalidate (shotDown ctx va size) named (fun h _ => fetchHit ctx va size h)

/-- The package-wide shootdown of a frame: every translation of it goes (R371, R373, R378). -/
def State.shootFrame (s : State) (frame : Nat) : State :=
  let lo := frame * 0x10000
  let hit (e : TlbEntry) : Bool :=
    let pa := normPa (ptePfn e.pte * 4096)
    decide (pa < lo + (if inBlanket lo then 0x200000 else 0x10000)) && decide (lo < pa + 2 ^ e.bits)
  let s := s.invalidate hit (fun _ => true) (fun h _ => h.mode != .m)
  s.dropDecisions (fun pa => frameAt pa == frame)

/-! ### The end of a launch (R155, Table 07-5) -/

/-- STATUS of a launch-end entry. -/
def LaunchStatus.code : LaunchStatus → Nat
  | .complete => 0 | .killed => 1 | .stalled => 2 | .tasksFault => 3 | .hang => 4 | .joinFailed => 5 | .peerLost => 6

/-- The launch-end entry (Table 07-5). -/
def launchEndEntry (l : Launch) (st : LaunchStatus) : VBits :=
  inboxEntry 3 st.code (BitVec.ofNat 16 l.id) 0xFFFF (BitVec.ofNat 64 l.sstep)
    (BitVec.ofNat 128 (l.sent % 2 ^ 64 + l.retired % 2 ^ 64 * 2 ^ 64))

/-- Every decision cache of some clusters is emptied (R199). -/
def State.clearDecisions (s : State) (ks : List Nat) : State :=
  { s with clusters := s.clusters.map (fun (c : Nat × Cluster) => (c.1, if ks.contains c.1 then { c.2 with decisions := [] } else c.2)) }

/-- The last of a launch that has ended, once no party of it is left: the decision caches, and its launch-end entries (R155). No rule
says what becomes of the entry for COMPLETION RANK when that rank is away: it is dropped. DESIGN CHOICE (log 67). -/
def State.tellEnd (s : State) (id : Nat) : State :=
  match s.launches.find? (fun l => l.id == id && l.ended.isSome && !l.told) with
  | none => s
  | some l =>
    if s.parties.any (fun p => p.launch == id) then s
    else
      let s := s.clearDecisions l.clusters
      let s : State := { s with launches := s.launches.map (fun (k : Launch) => if k = l then { k with told := true } else k) }
      let e := launchEndEntry l (l.ended.getD .complete)
      let s := if l.completion < l.ranks ∧ s.rankAway l l.completion = false then
          (match l.hartOf l.completion with
            | some h => s.notice h e
            | none => s) else s
      s.notice l.submitter e

/-- The end of a launch: stores published, holdings scrubbed, then the entries sent (R155). A party that is being saved or restored ends
that first (Table 07-4). -/
def State.endLaunch (s : State) (id : Nat) (st : LaunchStatus) : State :=
  match s.launch? id with
  | none => s
  | some l =>
    let ps := s.parties.filter (fun p => p.launch == id)
    let s := ((ps.filter (fun p => p.savedHarts.isEmpty)).flatMap Party.harts).foldl (fun s h => s.publishHart h) s
    let s := ps.foldl (fun s p => s.killParty p.id) s
    let s := s.mapLaunch id (fun l => { l with ended := some st })
    let s := s.mapCtx l.ctx (fun c => { c with stopReq := none, midExchange := false, lines := [] })
    let s : State := { s with broken := s.broken.filter (fun b => b.key.1 != some id) }
    s.tellEnd id

/-- MIGR commands of a context that is killed are cancelled: one under way at its next check (Table 16-1, R293). -/
def State.cancelMigrations (s : State) (ctx : BitVec 16) : State :=
  let of_ (c : Command) : Bool := c.cmd == 0x26 && c.word.extractLsb' 32 16 == ctx
  let s : State := { s with migrations := s.migrations.map (fun (m : Migration) => if of_ m.cmd then m.abandonFor 0 else m) }
  (s.engines.filter (fun a => of_ a.cmd && !a.started)).foldl (fun s a => s.raise (.commandCompletion a.cmd 7 0 0)) s

/-- Kill a context: its launch ends with a status (R357, R358, R361, R407). -/
def State.killContext (s : State) (ctx : BitVec 16) (st : LaunchStatus) : State :=
  let s := s.cancelMigrations ctx
  match s.ctxLaunch ctx with
  | some l => s.endLaunch l.id st
  | none => (s.parties.filter (fun p => p.ctx == ctx)).foldl (fun s p => s.killParty p.id) s

end Sys2Proof.Machine
end

