-- ==== Sys2Proof/Machine/Record.lean ====
section
/-! DEFINITION. The frame record: batches (R372 to R374), notices (R377), revocation (R378, R379), and the accesses of
other devices (R371). -/

namespace Sys2Proof.Machine

/-- A bit field of an entry, written. -/
def entSet (e : BitVec 32) (lo n v : Nat) : BitVec 32 :=
  BitVec.ofNat 32 (e.toNat % 2 ^ lo + v % 2 ^ n * 2 ^ lo + e.toNat / 2 ^ (lo + n) * 2 ^ (lo + n))
/-- OWNER written. -/
def setOwner (e : BitVec 32) (v : Nat) : BitVec 32 := entSet e 0 2 v
/-- STATE written. -/
def setEntState (e : BitVec 32) (v : Nat) : BitVec 32 := entSet e 2 2 v
/-- PEER written. -/
def setPeer (e : BitVec 32) (v : Nat) : BitVec 32 := entSet e 4 2 v
/-- RIGHTS written. -/
def setRights (e : BitVec 32) (v : Nat) : BitVec 32 := entSet e 6 1 v
/-- SEALED written. -/
def setSealed (e : BitVec 32) (v : Nat) : BitVec 32 := entSet e 7 1 v
/-- REVOKED written. -/
def setRevoked (e : BitVec 32) (v : Nat) : BitVec 32 := entSet e 8 1 v
/-- DL written. -/
def setDl (e : BitVec 32) (v : Nat) : BitVec 32 := entSet e 9 5 v
/-- DOMAIN written. -/
def setDomain (e : BitVec 32) (v : Nat) : BitVec 32 := entSet e 14 1 v
/-- LSEQ written. -/
def setLseq (e : BitVec 32) (v : Nat) : BitVec 32 := entSet e 16 8 v
/-- TIMER written. -/
def setTimer (e : BitVec 32) (v : Nat) : BitVec 32 := entSet e 24 8 v
/-- DL. -/
def entDl (e : BitVec 32) : Nat := bitsNat e 9 5
/-- LSEQ. -/
def entLseq (e : BitVec 32) : Nat := bitsNat e 16 8

/-- An entry changed by a transaction; a migration that names the frame is to be abandoned (Table 16-1, reason 4). -/
def State.changeEntry (s : State) (frame : Nat) (e : BitVec 32) : State :=
  let named (m : Migration) : Bool :=
    (decide (m.src / 0x10000 ≤ frame) && decide (frame < (m.src + m.size) / 0x10000))
      || (decide (m.dst / 0x10000 ≤ frame) && decide (frame < (m.dst + m.size) / 0x10000))
  { s.setEntry frame e with migrations := s.migrations.map (fun (m : Migration) => if named m then m.abandonFor 4 else m) }

/-- The recall deadline of a code, in cycles (R372, R378). -/
def recallCycles (dl : Nat) : Nat := (if dl = 17 then 1000000 else 8 * 2 ^ dl) * 3000

/-- A notice to a kernel (R377): `done` for RECALL_DONE. -/
def State.notify (s : State) (kernel frame : Nat) (done late : Bool) (lseq dl : Nat) : State :=
  if kernel = 2 then
    s.notice (Config.computeHarts + s.accNote.toNat)
      (inboxEntry 5 (if done then 1 else 0) (BitVec.ofNat 16 lseq) 0xFFFF (BitVec.ofNat 64 frame)
        (BitVec.ofNat 128 ((if late then 1 else 0) + dl * 256)))
  else if kernel = 1 ∧ ringNamed s.hostNring = true then
    s.post s.hostNring ([BitVec.ofNat 8 (if done then 2 else 1), BitVec.ofNat 8 (if late then 1 else 0), BitVec.ofNat 8 lseq,
      BitVec.ofNat 8 dl] ++ bytesOfNat 4 frame ++ bytesOfNat 56 0)
  else s

/-- The lowest recall timer that is free (log 15). -/
def State.freeTimer (s : State) : Nat :=
  ((List.range 256).find? (fun i => !s.recalls.any (fun r => bitsNat (s.entry r.frame) 24 8 == i))).getD 0

/-- FRAME names a frame of the record (R368, reason BAD_FRAME). -/
def frameKnown (s : State) (frame : Nat) : Bool :=
  let pa := frame * 0x10000
  inLocalHbm s pa || (inBlanket pa && frame % 32 == 0)

/-- The kernel code an issuer acts for. -/
def issuerCode : Issuer → Nat
  | .host => 1 | .accel => 2 | .monitor => 2

/-- LEND to a kernel is suspended (R379). -/
def State.suspended (s : State) (k : Nat) : Bool := if k = 1 then s.suspHost else s.suspAccel

/-- One operation of a batch, on the working copy (R373, Table 23-4): the state after it, or the reason.
DEDUCED (log 50). -/
def recordOp (s : State) (iss : Issuer) (op peer rights dl lseq res frame : Nat) : Except Nat State :=
  let k := issuerCode iss
  let e := s.entry frame
  let st := entState e
  let revoking := s.recalls.any (fun r => r.frame == frame && r.revoking)
  let owns := entOwner e == k
  let isPeer := entPeer e == k
  let byOwner := op == 1 || op == 2 || op == 5 || op == 7
  let byPeer := op == 3 || op == 4 || op == 6
  if 12 ≤ op ∨ ((op = 8 ∨ op = 9) ∧ iss ≠ .monitor) ∨ res ≠ 0 ∨ (peer ≠ 0 ∧ op ≠ 1 ∧ op ≠ 5)
      ∨ ((rights ≠ 0 ∨ dl ≠ 0) ∧ op ≠ 5) ∨ (lseq ≠ 0 ∧ op ≠ 6 ∧ op ≠ 7) then .error 1
  else if frameKnown s frame = false then .error 2
  else if (byOwner && !owns) || (byPeer && !isPeer) || (8 ≤ op && (entOwner e != 2 || k != 2)) then .error 3
  else if (op = 1 ∧ (peer = k ∨ 3 ≤ peer)) ∨ (op = 5 ∧ (peer = k ∨ peer = 0 ∨ 3 ≤ peer)) then .error 5
  else if op = 5 ∧ (17 < dl ∨ 1 < rights) then .error 8
  else if (op = 1 ∨ op = 5) ∧ entSealed e = true then .error 7
  else
    let bad := match op with
      | 0 => false
      | 1 => st != 0 || entDomain e
      | 2 | 3 | 4 => st != 1
      | 5 | 8 | 9 => st != 0
      | 6 => st < 2 || revoking
      | 7 => st != 2
      | 10 => st == 1 || st == 3
      | _ => st == 1
    if bad then .error 4
    else if (op = 6 ∨ op = 7) ∧ lseq ≠ entLseq e then .error 6
    else if op = 5 ∧ s.suspended peer = true then .error 9
    else if op = 7 ∧ 256 ≤ s.recalls.length then .error 10
    else .ok (match op with
      | 1 =>
        if peer = 0 then s.changeEntry frame (setPeer (setOwner e 0) k)
        else s.changeEntry frame (setRevoked (setPeer (setEntState e 1) peer) 0)
      | 2 | 4 => s.changeEntry frame (setPeer (setEntState e 0) 0)
      | 3 => (s.shootFrame frame).changeEntry frame (setPeer (setOwner (setEntState e 0) (entPeer e)) 0)
      | 5 =>
        s.changeEntry frame (setRevoked (setLseq (setDl (setRights (setPeer (setEntState e 2) peer) rights) dl) (entLseq e + 1)) 0)
      | 6 =>
        let s := (s.shootFrame frame).changeEntry frame (setTimer (setDl (setRights (setPeer (setEntState e 0) 0) 0) 0) 0)
        if st = 3 then
          ({ s with recalls := s.recalls.filter (fun r => r.frame ≠ frame) } : State).notify (entOwner e) frame true false (entLseq e) (entDl e)
        else s
      | 7 =>
        let t := s.freeTimer
        let s := s.changeEntry frame (setTimer (setEntState e 3) t)
        ({ s with recalls := s.recalls ++ [{ frame := frame, deadline := s.clock + recallCycles (entDl e), revoking := false }] } : State).notify
          (entPeer e) frame false false (entLseq e) (entDl e)
      | 8 => s.changeEntry frame (setSealed e 1)
      | 9 => s.changeEntry frame (setSealed e 0)
      | 10 => s.changeEntry frame (setDomain e 1)
      | 11 => (s.shootFrame frame).changeEntry frame (setDomain e 0)
      | _ => s)

/-- The operations of a batch from index `i` on: the working copy and the RESULT words, or (index << 8) | reason. -/
def recordOps (s : State) (iss : Issuer) (b i : Nat) : Nat → Except Nat (State × List (Nat × Nat))
  | 0 => .ok (s, [])
  | n + 1 =>
    let f (off len : Nat) : Nat := s.loadNat (b + off) len
    match recordOp s iss (f 0 1) (f 1 1) (f 2 1) (f 3 1) (f 4 1) (f 5 3) (f 8 4) with
    | .error r => .error (i * 256 + r)
    | .ok s' =>
      match recordOps s' iss (b + 16) (i + 1) n with
      | .error r => .error r
      | .ok (s'', rs) => .ok (s'', (b + 12, (s'.entry (f 8 4)).toNat) :: rs)

/-- The batch can be read, and its frames belong to the issuer (R372, reason BATCH_FAULT). -/
def batchOk (s : State) (iss : Issuer) (b n : Nat) : Bool :=
  b % 16 == 0 && inLocalHbm s b && inLocalHbm s (b + 16 * n - 1) && !poisoned s.poison b (16 * n)
    && entOwner (s.entry (b / 0x10000)) == issuerCode iss && entOwner (s.entry ((b + 16 * n - 1) / 0x10000)) == issuerCode iss

/-- A batch commits whole or not at all; the result word (R374, R375). -/
def State.commitBatch (s : State) (iss : Issuer) (b n : Nat) : State × Nat :=
  if n = 0 ∨ 32 < n then (s, 0xFF01)
  else if batchOk s iss b n = false then (s, 0xFF0C)
  else match recordOps s iss b 0 n with
    | .error r => (s, r)
    | .ok (s, rs) => (rs.foldl (fun s r => s.store r.1 (bytesOfNat 4 r.2)) s, 0)

/-- BATCH_COMMIT: a batch is applied; a batch of the record port gives its result to its group, and the next store held
there starts (R374, R376). -/
def execBatchCommit (iss : Issuer) (pa : BitVec 48) (n : Nat) (s : State) : Out :=
  let (s, r) := s.commitBatch iss pa.toNat n
  .next (match iss with
    | .host =>
      match s.ports.find? (fun p => p.2.busy == some (pa.toNat, n)) with
      | some (c, g) =>
        let g := { g with busy := none, result := r, done := g.done + 1 }
        (match g.held with
          | v :: rest =>
            (s.setPort c { g with held := rest, busy := some (bitsNat g.batch 4 44 * 16, bitsNat v 0 6) }).raise
              (.batchCommit .host (BitVec.ofNat 48 (bitsNat g.batch 4 44 * 16)) (bitsNat v 0 6))
          | [] => s.setPort c g)
      | none => s
    | _ => s)

/-- A store to RP_GO starts the batch at RP_BATCH, or is held while BUSY (R376). -/
def State.storeRpGo (s : State) (c : Nat) (v : Word) : State :=
  let g := s.portGroup c
  if g.busy.isSome then s.setPort c { g with held := g.held ++ [v] }
  else
    let b := bitsNat g.batch 4 44 * 16
    (s.setPort c { g with busy := some (b, bitsNat v 0 6) }).raise (.batchCommit .host (BitVec.ofNat 48 b) (bitsNat v 0 6))

/-- RP_GO (R376). -/
def execRpGo (c : Nat) (v : Word) (s : State) : Out := .next (if c < 32 then s.storeRpGo c v else s)

/-- FIRMWARE_RELEASE: a frame that was offered to firmware returns to the kernel that offered it, HELD (Table 23-4). -/
def execFirmwareRelease (frame : Nat) (s : State) : Out :=
  let e := s.entry frame
  .next (if entOwner e = 0 ∧ entPeer e ≠ 0 then s.changeEntry frame (setPeer (setOwner (setEntState e 0) (entPeer e)) 0) else s)

/-- RECALL_DEADLINE_EXPIRY: the entry is marked as revoking, and the revocation follows (R378). The event brings the
clock to the deadline (log 16). -/
def execRecallDeadlineExpiry (frame : Nat) (s : State) : Out :=
  match s.recalls.find? (fun r => r.frame == frame && !r.revoking) with
  | none => .next s
  | some r =>
    let s := { s with
      clock := max s.clock r.deadline
      recalls := s.recalls.map (fun (r : Recall) => if r.frame = frame then { r with revoking := true } else r) }
    .next (s.raise (.revocationCommit frame))

/-- Count an overrun of a kernel, and suspend it at the 16th within 1 s (R379). -/
def State.overrun (s : State) (k : Nat) : State :=
  let late (l : List Nat) : List Nat := (s.clock :: l).take 16
  let full (l : List Nat) : Bool := l.length == 16 && decide (s.clock ≤ l.getLastD 0 + 3000000000)
  if k = 1 then
    { s with overHost := late s.overHost, ovrHost := s.ovrHost + 1, suspHost := s.suspHost || full (late s.overHost) }
  else if k = 2 then
    { s with overAccel := late s.overAccel, ovrAccel := s.ovrAccel + 1, suspAccel := s.suspAccel || full (late s.overAccel) }
  else s

/-- REVOCATION_COMMIT: the borrower's translations go, its pending stores reach the frame, the entry becomes HELD with
REVOKED, and both kernels hear of it (R378). -/
def execRevocationCommit (frame : Nat) (s : State) : Out :=
  if s.recalls.any (fun r => r.frame == frame && r.revoking) then
    let e := s.entry frame
    let s := s.shootFrame frame
    let s := s.changeEntry frame (setTimer (setDl (setRights (setRevoked (setEntState e 0) 1) 0) 0) 0)
    let s := { s with recalls := s.recalls.filter (fun r => r.frame ≠ frame) }
    let s := s.notify 1 frame true true (entLseq e) (entDl e)
    let s := s.notify 2 frame true true (entLseq e) (entDl e)
    .next (s.overrun (entPeer e))
  else .next s

/-- SUSP_CLEAR: management clears SUSP for a kernel; the counts stay (R379). -/
def execSuspClear (k : Kernel) (s : State) : Out :=
  .next (match k with
    | .host => { s with suspHost := false }
    | .accel => { s with suspAccel := false }
    | .firmware => s)

/-- DOMAIN_WINDOW_ACCESS: an access of another device is checked against this device's record and served at its site
(R371); one of another device's host cores is refused. DESIGN CHOICE (log 41). -/
def execDomainWindowAccess (a : DomainAccess) (s : State) : Out :=
  let e := s.entry (frameOf a.pa)
  let ok := match frameRights s 2 (frameOf a.pa) a.store.isSome with
    | .ok r => !(a.store.isSome && r == 1)
    | .error _ => false
  .next (match a.store with
    | some bs =>
      if !a.byHost && inLocalHbm s a.pa && inLocalHbm s (a.pa + bs.length - 1) && entDomain e && !entSealed e && ok
      then s.storeWhole a.pa bs else s
    | none => s)

end Sys2Proof.Machine
end

