-- ==== Sys2Proof/Machine/Engine.lean ====
section
/-! DEFINITION. What the engines share: acceptance (R286, R290), BAD_CMD (R289), the accesses they make (R251, R255,
R259), and completion with its posts (R292, R347). -/

namespace Sys2Proof.Machine

/-- The copy TLB of a command (Table 15-7). -/
def copyTlb (c : Command) : Tlb := .copy (engineCluster c.by_.hart) c.id
/-- The matrix operand TLB of a command (Table 15-7). -/
def matrixTlb (c : Command) : Tlb := .matrix (engineCluster c.by_.hart)

/-- Units of a class that waiting releases take from a command's view of the holding (R218). -/
def Party.cutFor (p : Party) (c : Command) (cls : Nat) : Nat :=
  ((p.cuts.filter (fun r => r.cls == cls && decide (r.since ≤ c.id))).map (·.count)).sum

/-- The party of a command's pusher, with the holding that the command sees: one pushed after a `rel` has begun sees the reduced one
(R218). -/
def State.pusherParty (s : State) (c : Command) : Option Party :=
  (c.by_.party.bind s.party?).map (fun p => { p with
    spad := p.spad.take (p.spad.length - p.cutFor c 1)
    hamper := p.hamper.take (p.hamper.length - p.cutFor c 2) })

/-! ### Completion (R292, R347) -/

/-- A TYPE 0 entry for the slot that pushed a command; it follows the slot's rank when its party has moved (R292). -/
def State.postCompletion (s : State) (c : Command) (status : Nat) (word1 : Word) (payload : BitVec 128) : State :=
  let e := inboxEntry 0 status (cmdTag c) c.by_.port word1 payload
  match c.by_.launch with
  | some l => s.toRank l c.by_.rank.toNat e
  | none => s.notice c.by_.hart e

/-- Put the result of a SHIP at its place among its hart's results (R287). -/
def shipResult (l : List (Option Word)) (k : Nat) (r : Word) : List (Option Word) :=
  match l with
  | [] => []
  | some v :: t => some v :: shipResult t k r
  | none :: t => if k = 0 then some r :: t else none :: shipResult t (k - 1) r

/-- Deliver the result of a SHIP. -/
def State.deliverShip (s : State) (c : Command) (r : Word) : State :=
  let mine (a : Accepted) : Bool := a.cmd.by_.hart == c.by_.hart && a.cmd.cmd == 0x42
  let k := ((s.engines.takeWhile (fun a => a.cmd != c)).filter mine).length
  let h := s.getHart c.by_.hart
  s.setHart c.by_.hart { h with ships := shipResult h.ships k r }

/-- A command completes: it leaves its engine, and its completion is posted when NOTIFY is set or the status is not OK
(R292). -/
def State.complete (s : State) (c : Command) (status : Nat) (word1 : Word) (payload : BitVec 128) : State :=
  if s.engines.any (fun a => a.cmd == c) then
    let s := if c.cmd = 0x42 ∧ status ≠ 0 then s.deliverShip c 0 else s
    let s := { s with engines := s.engines.eraseP (fun a => a.cmd == c) }
    let s := if cmdNotify c = true ∨ status ≠ 0 then s.postCompletion c status word1 payload else s
    if c.by_.port = 0 then s.leaseCheck (engineCluster c.by_.hart) else s
  else s

/-- The status of a failed access by its hart-style cause (R252, R347). -/
def causeStatus (cause : Nat) : Nat :=
  if cause = 29 then 3 else if cause = 30 then 4 else if cause = 34 then 5 else if cause = 27 then 6 else 2

/-- A command completes with a status for a cause; statuses 2 to 5 are posted to the pusher's KFAULTQ with a new tag, which
payload bytes 30 and 31 carry (R347). -/
def State.completeAs (s : State) (status : Nat) (c : Command) (cause : Nat) (write : Bool) (addr word1 : Word) (payload : BitVec 128) : State :=
  if status = 6 ∨ ringNamed c.by_.kfaultq = false then s.complete c status word1 payload
  else
    let (tag, s) := s.takeTag c.by_.ctxid
    let s := s.postFault c.by_.ctxid c.by_.kfaultq
      (faultEntry tag cause (1 + (if write then 2 else 0)) c.by_.ctxid c.by_.port addr 0 c.by_.rank (cmdTag c) status word1)
    let s := match c.by_.party with
      | some p => s.mapParty p (fun p => { p with faultTags := p.faultTags ++ [(c.by_.hart, tag)] })
      | none => s
    s.complete c status word1 (payload ||| BitVec.ofNat 128 (tag * 2 ^ 112))

/-- A command completes with the status of a failed access (R252, R347). -/
def State.completeFault (s : State) (c : Command) (cause : Nat) (write : Bool) (addr word1 : Word) (payload : BitVec 128) : State :=
  s.completeAs (causeStatus cause) c cause write addr word1 payload

/-- The statuses with which a command may complete (Tables 17-5 and 19-13): OK, BAD_CMD and CANCELLED, and those of its kind. -/
def mayPost (c : Command) (status : Nat) : Bool :=
  let further : List Nat :=
    if c.cmd < 0x20 then [2, 3, 4, 5, 6]
    else match c.cmd with
      | 0x20 | 0x21 | 0x22 | 0x23 | 0x24 => [2, 3, 4, 5, 6]
      | 0x25 => []
      | 0x26 => [2, 5, 9]
      | 0x40 | 0x41 | 0x42 => [2, 3, 4, 5, 6]
      | 0x43 => [5]
      | 0x60 | 0x61 | 0x62 | 0x63 | 0x64 => [2, 3, 4, 5, 6, 8]
      | 0x80 | 0x81 | 0x82 | 0x83 => [2, 3, 4, 5, 6, 8, 10]
      | _ => []
  ([0, 1, 7] ++ further).contains status

/-- COMMAND_COMPLETION (R292): with a status that the command's kind has (R333). -/
def execCommandCompletion (c : Command) (status : BitVec 16) (word1 : Word) (payload : BitVec 128) (s : State) : Out :=
  .next (if mayPost c status.toNat then s.complete c status.toNat word1 payload else s)

/-- A command begins to wait for what completes it. -/
def State.startCommand (s : State) (c : Command) : State :=
  { s with engines := s.engines.map (fun (a : Accepted) => if a.cmd = c then { a with started := true, since := s.clock } else a) }

/-- A command is rejected (R289): `resume`, `atomic` and `kernel` say what it defines, `reserved` that a reserved field
is nonzero. -/
def badCommand (c : Command) (resume atomic kernel reserved : Bool) : Bool :=
  c.cmd / 0x20 != c.by_.port || bitsNat c.word 14 2 != 0 || (cmdResume c && !resume) || (cmdAtomic c && !atomic)
    || (kernel && c.by_.mode == .u) || reserved

/-! ### Engine accesses (R251, R252, R254, R259, Table 15-5A) -/

/-- The cause of a refused engine access by kind of access. -/
def engCause (write : Bool) (r w : Nat) : Nat := if write then w else r

/-- The permission that an engine access needs of a leaf; on a sealed page, where every engine write is SEALED_VIOLATION (R316), that of
a read. -/
def engPermits (c : Command) (write : Bool) (p : Word) : Bool :=
  permits p c.by_.mode (if write && pteKind p != 1 then .write else .read)

/-- Check an access of `n` bytes that lie in one 256-byte block, as an engine makes it for a command: the place, or the
hart-style cause (27 stands for UNHELD); `sealedOk` is MLOADW's reading of sealed pages (R308). `quiet` leaves the data unread: a read
of it meets uncorrectable bytes elsewhere. -/
def engPlaceWith (sealedOk quiet : Bool) (s : State) (c : Command) (t : Tlb) (va n : Nat) (write : Bool) : State × Except Nat Place :=
  let page := engCause write 13 15
  let access := engCause write 5 7
  let need : Need := if write then .write else .read
  let seen (s : State) (key : Nat) : Bool := !write && !quiet && (poisoned s.poison key n || s.linkCut key n)
  if 2 ^ 57 ≤ va then (s, .error page)
  else if inWindow va then
    match (s.pusherParty c).bind (fun p => if (va - windowBase) / extentBytes < 31 then p.windowKey (va - windowBase) else none) with
    | none => (s, .error 27)
    | some k =>
      if seen s k then (s, .error 34)
      else (s, .ok { key := k, mmio := false, window := true, pte := 0, meta_ := none, va := va })
  else match translate s t c.by_.root c.by_.ctx va write (engPermits c write) with
    | (s, .error (.inl f)) => (s, .error (walkCause page f))
    | (s, .error (.inr (cause, e))) =>
      if engPermits c write e.pte = false then (s, .error page)
      else if pmpOk c.by_.pmp c.by_.mode (entryPa e va) n need = false then (s, .error access)
      else (s, .error cause)
    | (s, .ok (e, r)) =>
      let pa := entryPa e va
      let place : Place := { key := normPa pa, mmio := false, window := false, pte := e.pte, meta_ := none, va := va }
      if engPermits c write e.pte = false then (s, .error page)
      else
        let (s, m) := metaFor s t c.by_.root c.by_.ctx c.by_.mode e.pte va write
        if m = .error 34 then (s, .error 34)
        else if pmpOk c.by_.pmp c.by_.mode pa n need = false then (s, .error access)
        else if r = 1 ∧ write = true then (s, .error 31)
        else if pteKind e.pte = 1 ∧ sealedOk = false then (s, .error 29)
        else if pteKind e.pte = 4 ∨ inMmio pa = true ∨ s.answers pa = false then (s, .error access)
        else if pteKind e.pte = 2 ∧ write = true then (s, .error 32)
        else match m with
          | .error _ => (s, .error access)
          | .ok m =>
            if seen s (normPa pa) || (!write && !quiet && s.maskBad m (normPa pa)) then (s, .error 34)
            else (s, .ok { place with meta_ := m })

/-- The check of every other engine access. -/
def engPlace (s : State) (c : Command) (t : Tlb) (va n : Nat) (write : Bool) : State × Except Nat Place :=
  engPlaceWith false false s c t va n write

/-- The place of the scale word of a block for a command, or the cause and address, whatever lies there (R91, R254, R347). -/
def engArenaAt (s : State) (c : Command) (t : Tlb) (p : Place) (blk : Nat) (write : Bool) : State × Except (Nat × Nat) Place :=
  match arenaPlace s t c.by_.root c.by_.ctx c.by_.mode c.by_.pmp p.pte p.va blk write with
  | (s, .error (cause, a)) =>
    (s, .error (if cause = 0 then engCause write 5 7 else if cause = 1 then engCause write 13 15 else cause, a))
  | (s, .ok q) => (s, .ok q)

/-- The same for an access that reads the word or writes it. -/
def engArena (s : State) (c : Command) (t : Tlb) (p : Place) (blk : Nat) (write : Bool) : State × Except (Nat × Nat) Place :=
  match engArenaAt s c t p blk write with
  | (s, .error e) => (s, .error e)
  | (s, .ok q) => if write = false ∧ (poisoned s.poison q.key 4 || s.linkCut q.key 4) = true then (s, .error (34, q.va)) else (s, .ok q)

/-- Cut `n` bytes at an address at every 256-byte boundary. -/
def chunksFuel (fuel a n : Nat) : List (Nat × Nat) :=
  match fuel with
  | 0 => []
  | fuel + 1 =>
    if n = 0 then []
    else
      let k := min n (256 - a % 256)
      (a, k) :: chunksFuel fuel (a + k) (n - k)

/-- Cut `n` bytes at an address at every 256-byte boundary. -/
def chunks (a n : Nat) : List (Nat × Nat) := chunksFuel (n / 256 + 2) a n

/-- The bytes that an engine reads at a place: the matrix array and the copy engine through the group agent of their cluster, the
others at the site (R166). -/
def State.engLoad (s : State) (c : Command) (p : Place) (n : Nat) : List Byte :=
  if c.by_.port < 2 ∧ p.window = false then s.readOver (s.agentCells (some (engineCluster c.by_.hart))) p n
  else decoded s p p.key n

/-- Read bytes for a command; the first failing part gives its cause and address. -/
def engReadFrom (s : State) (c : Command) (t : Tlb) : List (Nat × Nat) → State × Except (Nat × Nat) (List Byte)
  | [] => (s, .ok [])
  | (a, n) :: rest =>
    match engPlace s c t a n false with
    | (s, .error e) => (s, .error (e, a))
    | (s, .ok p) =>
      let bs := s.engLoad c p n
      match engReadFrom (s.chargeCxl c.by_.ctx p n) c t rest with
      | (s, .ok more) => (s, .ok (bs ++ more))
      | (s, .error e) => (s, .error e)

/-- Read `n` bytes at an address for a command. -/
def engRead (s : State) (c : Command) (t : Tlb) (va n : Nat) : State × Except (Nat × Nat) (List Byte) := engReadFrom s c t (chunks va n)

/-- Check that a command may write some parts; the first failing one gives its cause and address. -/
def engCheckFrom (s : State) (c : Command) (t : Tlb) (write : Bool) : List (Nat × Nat) → State × Option (Nat × Nat)
  | [] => (s, none)
  | (a, n) :: rest =>
    match engPlace s c t a n write with
    | (s, .error e) => (s, some (e, a))
    | (s, .ok _) => engCheckFrom s c t write rest

/-- Check that a command may access `n` bytes at an address. -/
def engCheck (s : State) (c : Command) (t : Tlb) (va n : Nat) (write : Bool) : State × Option (Nat × Nat) :=
  engCheckFrom s c t write (chunks va n)

/-- The group agent through which the matrix array or the copy engine writes gives up the lines of a range: what it holds of them goes
to the site first (R166). -/
def State.engSettle (s : State) (c : Command) (lo hi : Nat) : State :=
  if c.by_.port < 2 then
    let k := engineCluster c.by_.hart
    (s.writeBack k (lineMeets lo hi)).dropLines k (fun _ => true) (fun a => lo ≤ a && a < hi)
  else s

/-- An engine's write at a place: DIRTY in the window (R231), the replicated commit on KIND 3 (R169), the page's
compression (R258). -/
def State.engStore (s : State) (c : Command) (p : Place) (bs : List Byte) : State :=
  let s := if c.by_.port = 1 then s.charge c.by_.ctx 3 bs.length else s
  if p.window then (s.storeWhole p.key bs).setDirty (s.pusherParty c) p.key
  else
    let s := s.noteKey c.by_.ctx p.va p.key
    let s := if pteCmp p.pte ≠ 0 then storeCompressed (s.engSettle c (p.key / 256 * 256) (p.key / 256 * 256 + 256)) none p bs
      else (s.engSettle c p.key (p.key + bs.length)).storeWhole p.key bs
    let s := s.chargeCxl c.by_.ctx p bs.length
    if pteKind p.pte = 3 then (s.replicas c.by_.root p.key).foldl (fun s k => s.storeWhole k bs) s else s

/-- Write bytes for a command, part by part. -/
def engWriteFrom (s : State) (c : Command) (t : Tlb) (bs : List Byte) : List (Nat × Nat) → State
  | [] => s
  | (a, n) :: rest =>
    match engPlace s c t a n true with
    | (s, .ok p) => engWriteFrom (s.engStore c p (bs.take n)) c t (bs.drop n) rest
    | (s, .error _) => engWriteFrom s c t (bs.drop n) rest

/-- Write bytes at an address for a command whose check has passed. -/
def engWrite (s : State) (c : Command) (t : Tlb) (va : Nat) (bs : List Byte) : State := engWriteFrom s c t bs (chunks va bs.length)

/-! ### What commands name (R318, R327) -/

/-- A run of consecutive bytes: source and destination addresses, transfer offset, length. -/
structure Run where
  src : Nat
  dst : Nat
  off : Nat
  len : Nat
  deriving DecidableEq, Repr

/-- The rows of a CPYT from its descriptor (R318, Table 19-2). -/
def tensorRows (src dst : Word) (d : List Byte) : List Run :=
  let u (o : Nat) : Nat := natOfBytes (takeBytes d o 4)
  let w (o : Nat) : Word := wordOf (takeBytes d o 8)
  (List.range (u 12)).flatMap (fun i3 => (List.range (u 8)).flatMap (fun i2 => (List.range (u 4)).map (fun i1 =>
    let at_ (base : Word) (o : Nat) : Nat :=
      (base + BitVec.ofNat 64 i1 * w o + BitVec.ofNat 64 i2 * w (o + 8) + BitVec.ofNat 64 i3 * w (o + 16)).toNat
    { src := at_ src 16, dst := at_ dst 40, off := ((i3 * u 8 + i2) * u 4 + i1) * u 0, len := u 0 })))

/-- TYPE. -/
def collType (c : Command) : ETy := ETy.ofBits (c.word.extractLsb' 32 3)
/-- The element type is a float type (Table 03-4). -/
def collFloat (c : Command) : Bool := decide (cmdBits c 32 3 < 4)
/-- OP. -/
def collOp (c : Command) : Nat := cmdBits c 35 3
/-- RANK0. -/
def collRank0 (c : Command) : Nat := cmdBits c 44 20
/-- NRANK. -/
def collRanks (c : Command) : Nat := cmdBits c 224 20
/-- COUNT. -/
def collCount (c : Command) : Nat := cmdBits c 192 32
/-- The pusher's participant index. -/
def collIndex (c : Command) : Nat := c.by_.rank.toNat - collRank0 c
/-- The bytes of COUNT elements, a chunk. -/
def chunkBytes (c : Command) : Nat := collCount c * (etyBits (collType c) / 8)

/-- The bytes of SRC that a participant gives (Table 19-10). -/
def collSource (c : Command) : Nat :=
  match c.cmd with
  | 0x61 | 0x64 => collRanks c * chunkBytes c
  | 0x63 => if collIndex c = 0 then chunkBytes c else 0
  | _ => chunkBytes c

/-- The bytes of DST that a participant receives (Table 19-10). -/
def collDest (c : Command) : Nat :=
  match c.cmd with
  | 0x62 | 0x64 => collRanks c * chunkBytes c
  | _ => chunkBytes c

end Sys2Proof.Machine
end

