-- ==== Sys2Proof/Machine/Banker.lean ====
section
/-! DEFINITION. The banker (R203 to R221): free units, the safety check, grants, and what a release waits for. -/

namespace Sys2Proof.Machine

/-- Resident parties, whose holdings count: not those whose record lies in the save area (R210, R220). -/
def Party.resident (p : Party) : Bool := p.savedHarts.isEmpty

/-- Granules of vector registers a party holds: the sum over its harts (R204). -/
def State.heldV (s : State) (p : Party) : Nat := (p.harts.map (fun h => (s.getHart h).held)).sum
/-- Granules a party claims. -/
def State.maxV (s : State) (p : Party) : Nat := (p.harts.map (fun h => (s.getHart h).maxHeld)).sum

/-- Free granules of a core, of 24 (Table 11-1). -/
def State.freeV (s : State) (core : Nat) : Nat :=
  24 - ((s.parties.filter (fun p => p.resident && p.core == core)).map s.heldV).sum
/-- Physical extents of a core that no party holds; extent 0 is never granted. -/
def State.freeExtents (s : State) (core : Nat) : List Nat :=
  (List.range 32).filter (fun e => e != 0 && !s.parties.any (fun p => p.resident && p.core == core && p.spad.contains e))
/-- Physical segments of a cluster that no party holds. -/
def State.freeSegments (s : State) (k : Nat) : List Nat :=
  (List.range 32).filter (fun g => !s.parties.any (fun p => p.resident && clusterOfCore p.core == k && p.hamper.contains g))

/-- A party in the state of R210: core, held and needed units of the three classes. -/
structure Claim where
  core : Nat
  held : Nat × Nat × Nat
  need : Nat × Nat × Nat
  deriving DecidableEq, Repr

/-- A party's part of the state of R210. -/
def State.claimOf (s : State) (p : Party) : Claim :=
  { core := p.core
    held := (s.heldV p, p.spad.length, p.hamper.length)
    need := (s.maxV p - s.heldV p, p.spadMax - p.spad.length, p.hamperMax - p.hamper.length) }

/-- The procedure Safe of R210; `work` holds free granules and extents by core. -/
def safeFrom (fuel : Nat) (work : List (Nat × Nat × Nat)) (workH : Nat) (left : List Claim) : Bool :=
  match fuel with
  | 0 => left.isEmpty
  | fuel + 1 =>
    let at_ (c : Nat) : Nat × Nat := assocGet work (0, 0) c
    match left.find? (fun p => decide (p.need.1 ≤ (at_ p.core).1) && decide (p.need.2.1 ≤ (at_ p.core).2) && decide (p.need.2.2 ≤ workH)) with
    | none => left.isEmpty
    | some p =>
      safeFrom fuel (assocSet work p.core ((at_ p.core).1 + p.held.1, (at_ p.core).2 + p.held.2.1)) (workH + p.held.2.2)
        (left.erase p)

/-- Safe(state) for a cluster (R210). -/
def State.safe (s : State) (k : Nat) : Bool :=
  let ps := s.parties.filter (fun p => p.resident && clusterOfCore p.core == k)
  safeFrom (ps.length + 1) ((List.range 16).map (fun j => (16 * k + j, s.freeV (16 * k + j), (s.freeExtents (16 * k + j)).length)))
    (s.freeSegments k).length (ps.map s.claimOf)

/-- The domain of a class for a hart: the core, or the cluster for HAMPER (Table 11-1). -/
def sameDomain (cls h1 h2 : Nat) : Bool := if cls = 2 then clusterOf h1 == clusterOf h2 else coreOf h1 == coreOf h2

/-- Free units in the domain of a hart's request. -/
def State.freeUnits (s : State) (h cls : Nat) : Nat :=
  match cls with
  | 0 => s.freeV (coreOf h)
  | 1 => (s.freeExtents (coreOf h)).length
  | _ => (s.freeSegments (clusterOf h)).length

/-- An urgent request among some requests holds the domain of hart `h` (R212). -/
def urgentAmong (older : List AcqRequest) (h cls : Nat) : Bool :=
  older.any (fun r => r.urgent && r.cls == cls && sameDomain cls r.hart h)

/-- An urgent request holds the domain of hart `h`, for whatever is younger (R212). -/
def State.urgentHolds (s : State) (h cls : Nat) : Bool := urgentAmong (s.cluster (clusterOf h)).requests h cls

/-- Registers of a hart from `lo` up to `hi` zero with tag RAW (R214). -/
def Hart.zeroV (h : Hart) (lo hi : Nat) : Hart :=
  { h with
    v := (List.range 32).foldl (fun v i => if h : i < 32 then (if lo ≤ i ∧ i < hi then v.set i VecReg.zero else v) else v) h.v
    inflight := h.inflight.filter (fun e => !(lo ≤ e.reg.toNat && e.reg.toNat < hi)) }

/-- Units granted to a hart, or to its party; they read zero (R207, R214 to R216). -/
def State.grantUnits (s : State) (h cls n : Nat) : State :=
  let x := s.getHart h
  match cls, x.party.bind s.party? with
  | 0, _ => s.setHart h { x.zeroV (4 * x.held) (4 * (x.held + n)) with held := x.held + n }
  | 1, some p =>
    let es := (s.freeExtents p.core).take n
    (es.foldl (fun s e => s.clearExtent p.core e) s).mapParty p.id (fun p => { p with spad := p.spad ++ es })
  | 2, some p =>
    let gs := (s.freeSegments (clusterOfCore p.core)).take n
    (gs.foldl (fun s g => s.clearSegment (clusterOfCore p.core) g) s).mapParty p.id (fun p => { p with hamper := p.hamper ++ gs })
  | _, _ => s

/-- What a hart or its party holds and claims of a class; a hart outside any party neither (R204, R214). -/
def State.holding (s : State) (h cls : Nat) : Nat × Nat :=
  let x := s.getHart h
  match x.party.bind s.party? with
  | none => (0, 0)
  | some p => match cls with
    | 0 => (x.held, x.maxHeld)
    | 1 => (p.spad.length, p.spadMax)
    | 2 => (p.hamper.length, p.hamperMax)
    | _ => (0, 0)

/-- A request that some older ones precede is available and safe now (R207, R212). A holding never exceeds its claim (R204): a blocked
request that has come to ask for more, through another hart's grant or `claim`, stays blocked. DESIGN CHOICE (log 64). -/
def State.grantableAfter (s : State) (older : List AcqRequest) (h cls n : Nat) : Bool :=
  decide (n ≤ s.freeUnits h cls) && !urgentAmong older h cls && decide ((s.holding h cls).1 + n ≤ (s.holding h cls).2)
    && (s.grantUnits h cls n).safe (clusterOf h)

/-- A new request is available and safe now (R207). -/
def State.grantable (s : State) (h cls n : Nat) : Bool := s.grantableAfter (s.cluster (clusterOf h)).requests h cls n

/-- A waiting instruction completes with a result (Table 22-2). -/
def Hart.finishWait (x : Hart) (rd : Reg) (w : Word) : Hart :=
  let x := if rd = 0 then x else { x with x := x.x.set rd.toNat w }
  { (x.retire 0 none).settle with blocked := none }

/-- The waiting instruction of a hart completes with a result. -/
def State.finishWait (s : State) (h : Nat) (rd : Reg) (w : Word) : State := s.setHart h ((s.getHart h).finishWait rd w)

/-- The blocked request of a hart is granted: its `acq` completes with 0 (R207, R212). -/
def State.grantRequest (s : State) (k : Nat) (r : AcqRequest) : State :=
  let s := s.grantUnits r.hart r.cls r.count
  let c := s.cluster k
  let s := s.setCluster k { c with requests := c.requests.erase r }
  match (s.getHart r.hart).blocked with
  | some (.acq rd) => s.finishWait r.hart rd 0
  | _ => s

/-- Examine the blocked requests of a cluster from oldest to youngest, `older` those that stay blocked before (R212). A request that an
older urgent one of its domain precedes is not granted. -/
def State.examineRequests (s : State) (k : Nat) (older : List AcqRequest) : List AcqRequest → State
  | [] => s
  | r :: rest =>
    if s.grantableAfter older r.hart r.cls r.count then (s.grantRequest k r).examineRequests k older rest
    else s.examineRequests k (older ++ [r]) rest

/-- ACQ_GRANT (R212). -/
def execAcqGrant (cluster : Nat) (s : State) : Out := .next (s.examineRequests cluster [] (s.cluster cluster).requests)

/-- ACQ_URGENT: the oldest request not yet urgent has been blocked for 2^20 cycles (R212; log 16). -/
def execAcqUrgent (cluster : Nat) (s : State) : Out :=
  let c := s.cluster cluster
  match c.requests.find? (fun r => !r.urgent) with
  | none => .next s
  | some r =>
    let s := { s with clock := max s.clock (r.since + 0x100001) }
    .next (s.setCluster cluster { c with requests := c.requests.map (fun (q : AcqRequest) => if q = r then { q with urgent := true } else q) })

/-- CLAIM_EXCEEDED's xtval (R205). -/
def claimVal (n cls : Nat) : Word := BitVec.ofNat 64 (n * 256 + cls)
/-- The class of a request word (R205). -/
def reqClass (w : Word) : Nat := bitsNat w 0 2
/-- The count of a request word (R205). -/
def reqCount (w : Word) : Nat := bitsNat w 8 8

/-- After a release or a lowered claim the blocked requests are examined (R208, R209, R212). -/
def State.askAgain (s : State) : State :=
  if (s.cluster (clusterOf s.hid)).requests.isEmpty then s else s.raise (.acqGrant (clusterOf s.hid))

/-! ### What a release waits for (R208, R218) -/

/-- A range of virtual addresses reaches offsets of the window's held part, at or above `lo`. -/
def reaches (lo a n : Nat) : Bool := max a (windowBase + lo) < min (a + n) (windowBase + 31 * extentBytes)

/-- A view reaches window offsets at or above `lo`. -/
def viewReaches (lo : Nat) (w : Word) : Bool :=
  let v := viewOf w
  decide (lo < v.row (v.rows - 1) + v.rb)

/-- The rows of a memory destination of MDRAIN reach such offsets. -/
def drainReaches (c : Command) (lo : Nat) : Bool :=
  let v := viewOf (cmdOp0 c)
  let n := match cmdBits c 32 3 with
    | 0 => 4 * v.cols
    | 1 => 2 * v.cols
    | 2 => v.cols
    | _ => v.cols / 2
  (List.range v.rows).any (fun i => reaches lo ((cmdOp1 c).toNat + i * (64 * cmdBits c 54 10)) n)

/-- The columns that an MLOADW reads reach such offsets. -/
def loadReaches (c : Command) (lo : Nat) : Bool :=
  (List.range (cmdBits c 44 8 + 1)).any (fun n =>
    reaches lo ((cmdOp0 c).toNat + n * cmdBits c 128 32) ((cmdBits c 41 3 + 1) * elemBytes (cmdBits c 37 4) 32))

/-- The rows of a CPYT, as its descriptor now stands, reach such offsets. -/
def tensorReaches (s : State) (c : Command) (lo : Nat) : Bool :=
  match (engRead s c (copyTlb c) (cmdOp2 c).toNat 64).2 with
  | .ok d => (tensorRows (cmdOp0 c) (cmdOp1 c) d).any (fun r => reaches lo r.src r.len || reaches lo r.dst r.len)
  | .error _ => false

/-- A command references window bytes at or above offset `lo` (R218). -/
def refsWindow (s : State) (c : Command) (lo : Nat) : Bool :=
  let a := (cmdOp0 c).toNat
  let b := (cmdOp1 c).toNat
  let d := (cmdOp2 c).toNat
  let len := cmdBits c 192 32
  match c.cmd with
  | 0x00 => viewReaches lo (cmdOp1 c)
  | 0x01 => loadReaches c lo
  | 0x02 => viewReaches lo (cmdOp0 c) || viewReaches lo (cmdOp1 c)
  | 0x03 => viewReaches lo (cmdOp0 c) || (if c.word.getLsbD 35 then drainReaches c lo else viewReaches lo (cmdOp1 c))
      || (cmdAtomic c && reaches lo d 4)
  | 0x20 => reaches lo a len || reaches lo b len
  | 0x21 => reaches lo d 64 || tensorReaches s c lo
  | 0x22 => reaches lo b len
  | 0x23 => decide (lo < 256 * (cmdBits c 128 11 + cmdBits c 32 11 + 1)) || reaches lo a (256 * (cmdBits c 32 11 + 1))
  | 0x24 => decide (lo < 256 * (cmdBits c 128 11 + cmdBits c 32 11 + 1))
  | 0x40 | 0x41 => reaches lo d (cmdBits c 40 24 * (cmdBits c 32 8 + 1)) || reaches lo b (cmdBits c 40 24 * 4)
  | 0x60 | 0x61 | 0x62 | 0x63 | 0x64 => reaches lo a (collSource c) || reaches lo b (collDest c)
  | 0x25 | 0x80 | 0x81 | 0x82 | 0x83 => reaches lo a len
  | _ => false

/-- A command references hamper segments at or above `g` (R218). -/
def refsHamper (c : Command) (g : Nat) : Bool :=
  (c.cmd == 1 || c.cmd == 2) && decide (g < (imageSegs c).2)

/-- The first command that does not delay a hart's `rel` of a class: one accepted after it began (R218). -/
def State.relStart (s : State) (p : Party) (h cls : Nat) : Nat :=
  match p.cuts.find? (fun r => r.hart == h && r.cls == cls) with
  | some r => r.since
  | none => s.nextCmd

/-- Some command of a party that was accepted before hart `h` began its `rel`, and is uncompleted, references units at or above the new
count (R218). -/
def State.releaseWaits (s : State) (p : Party) (h cls count : Nat) : Bool :=
  s.engines.any (fun a => a.cmd.by_.party == some p.id && decide (a.cmd.id < s.relStart p h cls)
    && (if cls = 1 then refsWindow s a.cmd (count * extentBytes) else refsHamper a.cmd count))

/-- Hart `h` of a party has begun a `rel` of `n` units, which waits: commands accepted from now on see the reduced holding (R218). -/
def State.beginCut (s : State) (p : Party) (h cls n : Nat) : State :=
  (s.dropCut h).mapParty p.id (fun q => { q with
    cuts := { hart := h, cls := cls, count := n, since := s.relStart p h cls } :: q.cuts.filter (fun r => r.hart != h) })

/-- The records to keep, in acceptance order, where a party holds `held` segments: the last MLOADW of each segment (R306). -/
def keepLoads (held : Nat) : List Command → List Command
  | [] => []
  | c :: newer =>
    let segs := (List.range (min (imageSegs c).2 held - (imageSegs c).1)).map (fun i => (imageSegs c).1 + i)
    let rest := keepLoads held newer
    if segs.all (fun g => newer.any (fun d => decide ((imageSegs d).1 ≤ g) && decide (g < (imageSegs d).2))) then rest else c :: rest

/-- Take the last `n` extents or segments, or the top granules, from a holder, cleared (R208, R219). -/
def State.releaseUnits (s : State) (h cls n : Nat) : State :=
  let x := s.getHart h
  match cls, x.party.bind s.party? with
  | 0, _ =>
    let x := x.complete
    s.setHart h { x.zeroV (4 * (x.held - n)) 32 with held := x.held - n }
  | 1, some p =>
    let keep := p.spad.length - n
    let s := (p.spad.drop keep).foldl (fun s e => s.clearExtent p.core e) s
    let c := s.core p.core
    let s := s.setCore p.core { c with tags := c.tags.filter (fun t => !(t.party == p.id && decide (keep * 64 ≤ t.slot))) }
    s.mapParty p.id (fun p => { p with spad := p.spad.take keep })
  | 2, some p =>
    let keep := p.hamper.length - n
    let s := (p.hamper.drop keep).foldl (fun s g => s.clearSegment (clusterOfCore p.core) g) s
    s.mapParty p.id (fun p => { p with hamper := p.hamper.take keep, mloads := keepLoads keep p.mloads })
  | _, _ => s

/-- The lowest queue of the party whose ring lies in an extent at or above a count (R208). -/
def State.ringAbove (s : State) (p : Party) (count : Nat) : Option Nat :=
  ([4, 5, 6, 7] : List Nat).find? (fun n =>
    let q := (s.core p.core).queue n
    q.owner == some p.id && decide (windowBase + count * extentBytes < q.base + 64 * q.cap))

end Sys2Proof.Machine
end

