-- ==== Sys2Proof/Machine/Cipher.lean ====
section
/-! DEFINITION. The two published functions that the spec names and whose outputs take part in what it lays down: SHA-256, in the
hashes of paired partitions (R427), and AES-256-XTS, in sealed data (R411). PRESUMED (log 55): the functions are those of
FIPS 180-4, FIPS 197 and IEEE 1619. -/

namespace Sys2Proof.Machine

/-! ### SHA-256 -/

/-- The round constants. -/
def shaK : List (BitVec 32) :=
  [0x428A2F98, 0x71374491, 0xB5C0FBCF, 0xE9B5DBA5, 0x3956C25B, 0x59F111F1, 0x923F82A4, 0xAB1C5ED5]
    ++ [0xD807AA98, 0x12835B01, 0x243185BE, 0x550C7DC3, 0x72BE5D74, 0x80DEB1FE, 0x9BDC06A7, 0xC19BF174]
    ++ [0xE49B69C1, 0xEFBE4786, 0x0FC19DC6, 0x240CA1CC, 0x2DE92C6F, 0x4A7484AA, 0x5CB0A9DC, 0x76F988DA]
    ++ [0x983E5152, 0xA831C66D, 0xB00327C8, 0xBF597FC7, 0xC6E00BF3, 0xD5A79147, 0x06CA6351, 0x14292967]
    ++ [0x27B70A85, 0x2E1B2138, 0x4D2C6DFC, 0x53380D13, 0x650A7354, 0x766A0ABB, 0x81C2C92E, 0x92722C85]
    ++ [0xA2BFE8A1, 0xA81A664B, 0xC24B8B70, 0xC76C51A3, 0xD192E819, 0xD6990624, 0xF40E3585, 0x106AA070]
    ++ [0x19A4C116, 0x1E376C08, 0x2748774C, 0x34B0BCB5, 0x391C0CB3, 0x4ED8AA4A, 0x5B9CCA4F, 0x682E6FF3]
    ++ [0x748F82EE, 0x78A5636F, 0x84C87814, 0x8CC70208, 0x90BEFFFA, 0xA4506CEB, 0xBEF9A3F7, 0xC67178F2]

/-- The first chaining value. -/
def shaInit : List (BitVec 32) :=
  [0x6A09E667, 0xBB67AE85, 0x3C6EF372, 0xA54FF53A, 0x510E527F, 0x9B05688C, 0x1F83D9AB, 0x5BE0CD19]

/-- Four bytes, the first the most significant. -/
def shaWord (bs : List Byte) : BitVec 32 := BitVec.ofNat 32 (natOfBytes (bs.take 4).reverse)

/-- The message padded to a multiple of 64 bytes: a 1 bit, zeros, and the length in bits in 8 bytes. -/
def shaPad (bs : List Byte) : List Byte :=
  bs ++ [0x80] ++ List.replicate ((119 - bs.length % 64) % 64) 0 ++ (bytesOfNat 8 (8 * bs.length)).reverse

/-- The schedule of a block, last word first: its 16 words, then `n` more. -/
def shaSchedule (block : List Byte) : Nat → List (BitVec 32)
  | 0 => ((List.range 16).map (fun i => shaWord (block.drop (4 * i)))).reverse
  | n + 1 =>
    let w := shaSchedule block n
    let at_ (k : Nat) : BitVec 32 := (w.drop (k - 1)).headD 0
    let s0 := (at_ 15).rotateRight 7 ^^^ (at_ 15).rotateRight 18 ^^^ (at_ 15) >>> 3
    let s1 := (at_ 2).rotateRight 17 ^^^ (at_ 2).rotateRight 19 ^^^ (at_ 2) >>> 10
    (at_ 16 + s0 + at_ 7 + s1) :: w

/-- One round on the eight working words, with its constant and schedule word. -/
def shaRound (v : List (BitVec 32)) (kw : BitVec 32 × BitVec 32) : List (BitVec 32) :=
  match v with
  | [a, b, c, d, e, f, g, h] =>
    let t1 := h + (e.rotateRight 6 ^^^ e.rotateRight 11 ^^^ e.rotateRight 25) + ((e &&& f) ^^^ (~~~e &&& g)) + kw.1 + kw.2
    let t2 := (a.rotateRight 2 ^^^ a.rotateRight 13 ^^^ a.rotateRight 22) + ((a &&& b) ^^^ (a &&& c) ^^^ (b &&& c))
    [t1 + t2, a, b, c, d + t1, e, f, g]
  | v => v

/-- The chaining value after a block. -/
def shaBlock (v : List (BitVec 32)) (block : List Byte) : List (BitVec 32) :=
  let r := (shaK.zip (shaSchedule block 48).reverse).foldl shaRound v
  (v.zip r).map (fun x => x.1 + x.2)

/-- The digest of a message as a number whose first byte is the most significant. -/
def sha256 (bs : List Byte) : BitVec 256 :=
  let p := shaPad bs
  let v := (List.range (p.length / 64)).foldl (fun v i => shaBlock v ((p.drop (64 * i)).take 64)) shaInit
  v.foldl (fun (n : BitVec 256) w => n <<< 32 ||| w.setWidth 256) 0

/-! ### AES-256 -/

/-- A byte times x in the field of AES. -/
def aesDouble (b : Byte) : Byte := b <<< 1 ^^^ (if b.getLsbD 7 then 0x1B else 0)

/-- The product in the field. -/
def aesMul (a b : Byte) : Byte :=
  ((List.range 8).foldl (fun (s : Byte × Byte) i => (if b.getLsbD i then s.1 ^^^ s.2 else s.1, aesDouble s.2)) (0, a)).1

/-- The inverse in the field, 0 for 0: the power 254. -/
def aesInv (b : Byte) : Byte :=
  ((List.range 7).foldl (fun (s : Byte × Byte) _ => (aesMul s.1 (aesMul s.2 s.2), aesMul s.2 s.2)) (1, b)).1

/-- The substitution of a byte. -/
def aesSub (b : Byte) : Byte :=
  let c := aesInv b
  c ^^^ c.rotateLeft 1 ^^^ c.rotateLeft 2 ^^^ c.rotateLeft 3 ^^^ c.rotateLeft 4 ^^^ 0x63

/-- Its inverse. -/
def aesUnsub (b : Byte) : Byte := aesInv (b.rotateLeft 1 ^^^ b.rotateLeft 3 ^^^ b.rotateLeft 6 ^^^ 0x05)

/-- Two lists of bytes, xored. -/
def xorBytes (a b : List Byte) : List Byte := (a.zip b).map (fun x => x.1 ^^^ x.2)

/-- The words of the key schedule, last first: the 8 of the key, then `n` more. -/
def aesWords (key : List Byte) : Nat → List (List Byte)
  | 0 => ((List.range 8).map (fun i => takeBytes key (4 * i) 4)).reverse
  | n + 1 =>
    let w := aesWords key n
    let t := w.headD []
    let rcon : Byte := BitVec.ofNat 8 (2 ^ (n / 8))
    let t := if n % 8 = 0 then xorBytes ((t.rotateLeft 1).map aesSub) [rcon, 0, 0, 0] else if n % 8 = 4 then t.map aesSub else t
    xorBytes ((w.drop 7).headD []) t :: w

/-- The 15 round keys of 16 bytes. -/
def aesKeys (key : List Byte) : List (List Byte) :=
  let bs := (aesWords key 52).reverse.flatten
  (List.range 15).map (fun i => takeBytes bs (16 * i) 16)

/-- Row `r` of the state moves `k r` columns; the state lies in columns. -/
def aesShift (k : Nat → Nat) (s : List Byte) : List Byte :=
  (List.range 16).map (fun i => (s.drop (4 * ((i / 4 + k (i % 4)) % 4) + i % 4)).headD 0)

/-- Each column times a circulant matrix, given by its first row. -/
def aesMix (m : List Byte) (s : List Byte) : List Byte :=
  (List.range 16).map (fun i => (List.range 4).foldl (fun acc j =>
    acc ^^^ aesMul ((m.drop ((j + 4 - i % 4) % 4)).headD 0) ((s.drop (i / 4 * 4 + j)).headD 0)) 0)

/-- A block of 16 bytes, encrypted. -/
def aesEncrypt (key block : List Byte) : List Byte :=
  let ks := aesKeys key
  let k (n : Nat) : List Byte := (ks.drop n).headD []
  let s := (List.range 13).foldl (fun s n => xorBytes (aesMix [2, 3, 1, 1] (aesShift id (s.map aesSub))) (k (n + 1))) (xorBytes block (k 0))
  xorBytes (aesShift id (s.map aesSub)) (k 14)

/-- A block of 16 bytes, decrypted. -/
def aesDecrypt (key block : List Byte) : List Byte :=
  let ks := aesKeys key
  let k (n : Nat) : List Byte := (ks.drop n).headD []
  let back (s : List Byte) : List Byte := (aesShift (fun r => 4 - r) s).map aesUnsub
  let s := (List.range 13).foldl (fun s n => aesMix [14, 11, 13, 9] (xorBytes (back s) (k (13 - n)))) (xorBytes block (k 14))
  xorBytes (back s) (k 0)

/-- The tweak of block `n` of a data unit: the encrypted tweak times the n-th power of x in the field of 2^128. -/
def xtsTweak (t : BitVec 128) : Nat → BitVec 128
  | 0 => t
  | n + 1 =>
    let u := xtsTweak t n
    u <<< 1 ^^^ (if u.getLsbD 127 then 0x87 else 0)

/-- AES-256-XTS decryption of a data unit of whole blocks. The key pair is 64 bytes, the first the least significant of the
number: the data key, then the tweak key. -/
def xtsDecrypt (pair : BitVec 512) (tweak : Word) (bs : List Byte) : List Byte :=
  let key := bytesOfNat 64 pair.toNat
  let t : BitVec 128 := BitVec.ofNat 128 (natOfBytes (aesEncrypt (key.drop 32) (bytesOfNat 16 tweak.toNat)))
  (List.range (bs.length / 16)).flatMap (fun i =>
    let u := bytesOfNat 16 (xtsTweak t i).toNat
    xorBytes (aesDecrypt (key.take 32) (xorBytes (takeBytes bs (16 * i) 16) u)) u)

end Sys2Proof.Machine
end

