-- ==== Sys2Proof/Machine/Preempt.lean ====
section
/-! DEFINITION. Waiting at a blocking point (R354), and pre-emption: requests (R352, R353), saving and restoring a party
(R355, R360), the watchdog and the save deadline (R357, R358), and retirement (R146). -/

namespace Sys2Proof.Machine

/-- The wait is at a blocking point of Table 22-2. -/
def blockingPoint (w : Wake) (mode : Mode) : Bool :=
  match w with
  | .queues _ _ | .stage _ | .allowance _ _ | .acq _ | .cell _ _ _ _ | .cellRetry | .barrier _ _ | .ring => true
  | .remote _ _ _ _ _ => true
  | .purge pa | .retire pa _ => isRemote pa
  | .interrupt => mode == .u
  | _ => false

/-- Hart `h` is blocked at a blocking point, and its wake condition does not hold; or it has executed `task.done`. -/
def State.hartBlocked (s : State) (h : Nat) : Bool :=
  let x := s.getHart h
  x.finished || (match x.blocked with
    | some w => blockingPoint w x.mode && !s.wakes h x w && (s.interrupt? h x).isNone
    | none => false)

/-- A party is BLOCKED (Table 07-4). -/
def State.partyBlocked (s : State) (p : Party) : Bool :=
  p.state == .running && p.harts.all s.hartBlocked && p.harts.any (fun h => !(s.getHart h).finished)

/-- Commands that a save parks between two pieces, slots or elements, to resume from there (Table 22-3). -/
def parkable (c : Command) : Bool :=
  match c.cmd with
  | 0x20 | 0x21 | 0x22 | 0x23 | 0x24 | 0x40 | 0x41 => true
  | _ => false

/-- NSEND and NPOST, which a save parks unless they have begun placing bytes (Table 22-3). A post places a message in one step; whether a
peer has found a post for an NSEND that was sent is not seen here, and free. -/
def State.parksPost (s : State) (n : Nat) (a : Accepted) : Bool :=
  a.cmd.cmd == 0x83 || (a.cmd.cmd == 0x80 && !(a.started && (Config.freeWord (s.choices + n)).getLsbD 0))

/-- What a save does at once to the commands of a party (Table 22-3): a post waits for the restore, PREF ends with the bytes covered,
none of those that have not begun, and collectives whose data has not moved are CANCELLED, while the others of such a collective
complete PEER_ERROR (R329). Copies are parked at their next piece, and the rest run to completion. -/
def State.parkCommands (s : State) (p : Nat) : State :=
  let mine (c : Command) : Bool := c.by_.party == some p
  let s : State := { s with
    engines := (s.engines.zipIdx).map (fun e =>
      if mine e.1.cmd && s.parksPost e.2 e.1 then { e.1 with parked := true, started := false } else e.1)
    choices := s.choices + s.engines.length }
  let cs := (s.engines.filter (fun a => mine a.cmd && (isCollective a.cmd || a.cmd.cmd == 0x25))).map Accepted.cmd
  cs.foldl (fun s c => if isCollective c then (s.loseCollective c).complete c 7 0 0 else s.complete c 0 0 0) s

/-- A command of a party in SAVING that is not parked has still to be completed or parked (R355). -/
def State.saveHeld (s : State) (p : Party) : Bool := s.engines.any (fun a => a.cmd.by_.party == some p.id && !a.parked)

/-- A hart's Publish made by hardware; a lost store becomes a cause taken before its next instruction (R384). -/
def State.hardPublish (s : State) (h : Nat) : State :=
  let s := s.publishHart h
  let x := s.getHart h
  if x.lostStore then s.setHart h { x with lostStore := false, trapDue := some (7, 0) } else s

/-- A party enters SAVING: its harts are published, its requests withdrawn, its commands parked (R355 steps 1 and 2,
R194, R221, R242). -/
def State.enterSave (s : State) (p : Party) : State :=
  let s := p.harts.foldl (fun s h => s.hardPublish h) s
  let s := s.parkCommands p.id
  let k := clusterOfCore p.core
  let c := s.cluster k
  let s := s.setCluster k { c with requests := c.requests.filter (fun r => !p.harts.contains r.hart) }
  let s : State := { s with waiters := s.waiters.filter (fun w => !p.harts.contains w.hart) }
  let qs := (List.range 8).filter (fun n => p.slots.contains n || ((s.core p.core).queue n).owner == some p.id)
  let s := qs.foldl (fun s n => (s.mapQueue p.core n (fun q => { q with closing := true })).raise (.allowanceReclaim p.core n)) s
  s.mapParty p.id (fun p => { p with state := .saving, saveSince := s.clock })

/-- The parties of a context that is being saved and that are BLOCKED enter SAVING (R353); a gang stop freezes them as they
are (R148). -/
def State.enterSaves (s : State) (ctx : BitVec 16) : State :=
  match s.ctx? ctx with
  | some c =>
    if c.state = .saving ∧ c.stopped = false then
      (s.parties.filter (fun p => p.ctx == ctx && s.partyBlocked p)).foldl (fun s p => s.enterSave p) s
    else s
  | none => s

/-- The hart waits: the instruction has had no effect and is executed again on waking (Table 22-2). A party that is now
BLOCKED under a pending pre-emption enters SAVING. -/
def State.block (s : State) (w : Wake) : Out :=
  let x := s.hart
  let began : Option (Word × Word × Nat) := some (x.pc, x.csr.instret, x.waitTime s.choices)
  let s : State := { s with hart := { x with blocked := some w, since := began } }
  .next (match s.ownParty with
    | some p => s.enterSaves p.ctx
    | none => s)

/-! ### Requests of a register group (R352) -/

/-- A request of a group completes. -/
def State.finishPre (s : State) (h result : Nat) : State :=
  let g := s.svcRegs h
  s.setSvc h { g with preBusy := false, preResult := result, preDone := g.preDone + 1 }

/-- The request in progress for a context, if any, completes; and the watchdog is disarmed. -/
def State.finishCtx (s : State) (ctx : BitVec 16) (result : Nat) : State :=
  let s := match (s.ctx? ctx).bind Context.group with
    | some h => s.finishPre h result
    | none => s
  s.mapCtx ctx (fun c => { c with group := none, watchdog := none })

/-- A context's keys leave their slots (R402, R358). -/
def State.eraseKeys (s : State) (ctx : BitVec 16) : State := { s with keys := s.keys.filter (fun k => k.kind != .context ctx) }

/-- The lowest free key slot (R404). -/
def State.freeSlot (s : State) : Option Nat := (List.range 128).find? (fun n => !s.keys.any (fun k => k.slot == n))

/-- The cores of a context's launch, or of its partition. -/
def State.ctxClusters (s : State) (c : Context) : List Nat :=
  match s.ctxLaunch c.id with
  | some l => l.clusters
  | none => c.clusters

/-- `n` bytes of a save area: AES-256-XTS ciphertext, in a layout that Table 22-5 gives in outline only, and that no software reads. What
lies there is free; the model keeps the contents themselves in the records. DESIGN CHOICE (log 42). -/
def State.writeArea (s : State) (lo n : Nat) : State :=
  if inLocalHbm s (lo + n - 1) = false then s
  else
    let hit (a : Nat) : Bool := lo ≤ a && a < lo + n
    { s with
      mem := Memory.write s.mem lo ((List.range n).map (fun i => Config.freeByte (s.choices + i)))
      poison := unpoison s.poison lo n
      blocks := s.blocks.filter (fun b => !hit (b.1 * 256))
      deltas := s.deltas.filter (fun d => !hit (d.1 * 64))
      raws := s.raws.filter (fun d => !hit (d.1 * 64))
      stale := s.stale.filter (fun e => !hit e.2.1)
      lines := s.lines.filter (fun l => !hit l.addr)
      choices := s.choices + n }

/-- The queues of a core that no party of a launch takes with it. -/
def State.idleQueues (s : State) (l : Launch) (core : Nat) : List Nat :=
  (List.range 8).filter (fun n => !s.parties.any (fun p => p.launch == l.id && p.core == core
    && (p.slots.contains n || p.savedQueues.any (fun q => q.1 == n))))

/-- Every party of a launch on a core is SAVED, and the core's record is not yet complete (R353). -/
def State.coreLeaves (s : State) (l : Launch) (core : Nat) : Bool :=
  (s.parties.filter (fun p => p.launch == l.id && p.core == core)).all (fun p => p.state == .saved)
    && !l.away.any (fun r => r.core == core)

/-- The allowances of a core's idle slots that are outstanding (R241, Table 14-7). -/
def State.idleGranted (s : State) (l : Launch) (core : Nat) : List Nat :=
  (s.idleQueues l core).filter (fun n => ((s.core core).queue n).granted != 0)

/-- A core of a context that is being saved does its next part: its idle slots' allowances are reclaimed, and then its record is
completed, with their inboxes and task slots (R353, R355). -/
def State.leaveCore (s : State) (l : Launch) (area : Nat × Nat) (core : Nat) : State :=
  if s.coreLeaves l core = false then s
  else
    let ns := s.idleQueues l core
    match s.idleGranted l core with
    | [] =>
      let lo := spadKey core 0x2000
      let r : IdleRecord := {
        core := core
        queues := ns.map (fun n => (n, { (s.core core).queue n with closing := false }))
        tasks := (Memory.slice s.mem lo (lo + 256)).filter (fun c => ns.contains (c.1 / 64)) }
      let s := ns.foldl (fun s n => s.mapQueue core n (fun _ => Queue.empty)) s
      (s.writeArea (area.1 + 0x1000 + 0x90000 * area.2) 0x90000).mapLaunch l.id (fun l => { l with away := l.away ++ [r] })
    | out => out.foldl (fun s n =>
        if ((s.core core).queue n).closing then s
        else (s.mapQueue core n (fun q => { q with closing := true })).raise (.allowanceReclaim core n)) s

/-- A core of a context that is being saved has something to do. -/
def State.mayLeave (s : State) (l : Launch) (core : Nat) : Bool :=
  s.coreLeaves l core && ((s.idleGranted l core).isEmpty || (s.idleGranted l core).any (fun n => !((s.core core).queue n).closing))

/-- The cores of a context that is being saved do what they can. -/
def State.leaveCores (s : State) (c : Context) : State :=
  match s.ctxLaunch c.id with
  | none => s
  | some l =>
    let base := s.ctxField c.root 0x158 8
    ((coresOf l.clusters).zipIdx).foldl (fun s k => match s.launch? l.id with
      | some l => s.leaveCore l (base, k.2) k.1
      | none => s) s

/-- Every party of a saving context is SAVED, every core's record is complete, and no rotation of its key is in progress (R353, R410). -/
def State.saveReady (s : State) (c : Context) : Bool :=
  c.state == .saving && (s.parties.filter (fun p => p.ctx == c.id)).all (fun p => p.state == .saved)
    && !s.rotations.any (fun r => r.ctx == c.id)
    && (match s.ctxLaunch c.id with
      | some l => (coresOf l.clusters).all (fun k => l.away.any (fun r => r.core == k))
      | none => true)

/-- The last steps of a save, once every core's record is complete: the header, the wrapped key, the clusters, the meter, the result
(R353). -/
def State.finishSave (s : State) (ctx : BitVec 16) : State :=
  match s.ctx? ctx with
  | none => s
  | some c =>
    let ks := s.ctxClusters c
    let s := if (s.ctxLaunch ctx).isSome then s.writeArea (s.ctxField c.root 0x158 8) 0x1000 else s
    let s := (coresOf ks).foldl (fun s k => s.setCore k { s.core k with
      queues := (Vector.replicate 8 Queue.empty), allowances := [] }) s
    let key := s.keys.find? (fun k => k.kind == .context ctx && !k.pending)
    let s := s.eraseKeys ctx
    let s := s.clearDecisions ks
    let s := s.mapCtx ctx (fun c => { c with state := .saved, wrapped := key, meter := c.meter.set 12 (c.meter[12] + 1) })
    s.finishCtx ctx 1

/-- A context that is being saved goes on: the cores' records, and the last steps once they are complete (R353). -/
def State.advanceSave (s : State) (ctx : BitVec 16) : State :=
  match s.ctx? ctx with
  | none => s
  | some c =>
    if c.state ≠ .saving then s
    else
      let s := s.leaveCores c
      if s.saveReady c then s.finishSave ctx else s

/-- A context that is being saved can go on now. -/
def State.saveAdvances (s : State) (c : Context) : Bool :=
  c.state == .saving && (s.saveReady c || (match s.ctxLaunch c.id with
    | some l => (coresOf l.clusters).any (s.mayLeave l)
    | none => false))

/-- A pre-empt request (R353); while the partition is stopped it is held until release (R426), and while parties are being
restored until that ends (Table 07-4). -/
def State.preempt (s : State) (h : Nat) (v : Word) : State :=
  let ctx := v.extractLsb' 0 16
  match s.ctx? ctx with
  | none => s.finishPre h 5
  | some c =>
    if c.state = .saved then s.finishPre h 5
    else if c.stopped || (c.state == .resident && c.group.isSome) then s.mapCtx ctx (fun c => { c with heldPreempt := c.heldPreempt ++ [(h, v)] })
    else if c.state ≠ .resident then s.finishPre h 5
    else if s.ctxField c.root 0x160 8 < 0x1000 + 0x90000 * (16 * (s.ctxClusters c).length) then s.finishPre h 4
    else
      let wdog := if bitsNat v 18 10 = 0 then 20 else min (bitsNat v 18 10) 1000
      let s := s.mapCtx ctx (fun c => { c with state := .saving, group := some h, watchdog := some (s.clock + wdog * 3000000) })
      (s.enterSaves ctx).advanceSave ctx

/-- Pre-empt requests held for a context are made, in their order. DEDUCED (log 42). -/
def State.serveHeldPreempt (s : State) (ctx : BitVec 16) : State :=
  match s.ctx? ctx with
  | none => s
  | some c => c.heldPreempt.foldl (fun s r => s.preempt r.1 r.2) (s.mapCtx ctx (fun c => { c with heldPreempt := [] }))

/-- Bits set in a mask, rising. -/
def maskList (n : Nat) (w : Nat) : List Nat := (List.range n).filter (fun i => w / 2 ^ i % 2 == 1)

/-- Core of a launch's new clusters that takes the place of an old one (R360). -/
def movedCore (old new : List Nat) (core : Nat) : Nat :=
  match old.findIdx? (fun k => k == core / 16) with
  | some i => 16 * (new.drop i).headD 0 + core % 16
  | none => core

/-- A hart that has moved with its core. -/
def movedHart (old new : List Nat) (h : Nat) : Nat := 4 * movedCore old new (coreOf h) + slotOf h

/-- A pusher whose party has moved. -/
def movedPusher (old new : List Nat) (b : Pusher) : Pusher := { b with hart := movedHart old new b.hart }

/-- Held hardware entries of a launch reach their ranks, where these have returned (Table 14-7). -/
def State.deliverHeld (s : State) (id : Nat) : State :=
  match s.launch? id with
  | none => s
  | some l =>
    let s := s.mapLaunch id (fun l => { l with held := [] })
    l.held.foldl (fun s e => s.toRank id e.1 e.2) s

/-- Allowance requests held for a core's queues are looked at again (R240). -/
def State.serveCore (s : State) (core : Nat) : State := (List.range 8).foldl (fun s n => s.serveRequests core n) s

/-- The idle slots of a core record are in place again. -/
def State.returnIdle (s : State) (r : IdleRecord) : State :=
  let s : State := { s with mem := Memory.place s.mem (spadKey r.core 0x2000) r.tasks }
  r.queues.foldl (fun s q => s.mapQueue r.core q.1 (fun x => { q.2 with requests := x.requests })) s

/-- The idle slots of a launch return with its clusters, and what was held for their ranks arrives (R353, R360, Table 14-7). -/
def State.returnCores (s : State) (id : Nat) : State :=
  match s.launch? id with
  | none => s
  | some l =>
    let s := (l.away.foldl State.returnIdle s).mapLaunch id (fun l => { l with away := [] })
    l.away.foldl (fun s r => s.serveCore r.core) (s.deliverHeld id)

/-- A resume request (R360): the checks, then every saved party begins its restore on the named clusters. -/
def State.resume (s : State) (h : Nat) (v : Word) : State :=
  let ctx := v.extractLsb' 0 16
  match s.ctx? ctx with
  | none => s.finishPre h 5
  | some c =>
    let mask := maskList 64 (s.svcRegs h).preMask.toNat
    let old := s.ctxClusters c
    let taken (k : Nat) : Bool := s.contexts.any (fun o => o.id != ctx && o.state != .saved && o.clusters.contains k)
    if c.state ≠ .saved then s.finishPre h 5
    else if mask.length ≠ old.length ∨ mask.any (fun k => !c.clusters.contains k || taken k) = true then s.finishPre h 7
    else if c.protected_ = true ∧ s.freeSlot.isNone = true then s.finishPre h 6
    else
      let s := match c.wrapped, s.freeSlot with
        | some k, some n => { s with keys := s.keys ++ [{ k with slot := n }] }
        | _, _ => s
      let s := s.mapCtx ctx (fun c => { c with state := .resident, wrapped := none, group := some h })
      let id := (s.ctxLaunch ctx).map Launch.id
      let moved (c : Command) : Command := { c with by_ := movedPusher old mask c.by_ }
      let mine (a : Accepted) : Bool := a.cmd.by_.ctx == ctx && a.cmd.by_.party.isSome
      let s : State := { s with
        engines := s.engines.map (fun (a : Accepted) => if mine a then { a with cmd := moved a.cmd } else a)
        launches := s.launches.map (fun (l : Launch) => if some l.id = id ∧ l.ended = none then
          { l with
            clusters := mask
            appends := l.appends.map (fun a => (movedHart old mask a.1, movedCore old mask a.2.1, a.2.2))
            arrivals := l.arrivals.map (fun a => (movedHart old mask a.1, a.2))
            deadTags := l.deadTags.map (fun a => (movedHart old mask a.1, a.2))
            away := l.away.map (fun (r : IdleRecord) => { r with core := movedCore old mask r.core }) } else l)
        parties := s.parties.map (fun (p : Party) => if p.ctx = ctx ∧ p.state = .saved then
          { p with
            state := .restoring
            core := movedCore old mask p.core
            mloads := p.mloads.map moved
            faultTags := p.faultTags.map (fun a => (movedHart old mask a.1, a.2))
            savedQueues := p.savedQueues.map (fun (q : Nat × Queue) => (q.1, { q.2 with requests := [] }))
            savedHarts := p.savedHarts.map (fun x => (movedHart old mask x.1, x.2)) } else p) }
      let s := match id with
        | some l => s.returnCores l
        | none => s
      if s.parties.any (fun p => p.ctx == ctx && p.state == .restoring) then s else s.finishCtx ctx 0

/-- A kill request (R361): a resident context is scrubbed, a saved one's save area and wrapped key are discarded.
DESIGN CHOICE (log 18). -/
def State.killRequest (s : State) (h : Nat) (v : Word) : State :=
  let ctx := v.extractLsb' 0 16
  match s.ctx? ctx with
  | none => s.finishPre h 5
  | some c =>
    let s := (s.killContext ctx .killed).finishCtx ctx 5
    let s := if c.state = .saved then c.heldPreempt.foldl (fun s r => s.finishPre r.1 5) { s with contexts := s.contexts.filter (fun c => c.id != ctx) }
      else (s.mapCtx ctx (fun c => { c with state := .resident })).serveHeldPreempt ctx
    s.finishPre h 0

/-- A request of a group begins (R352): by OP. -/
def State.startPre (s : State) (h : Nat) (v : Word) : State :=
  let g := s.svcRegs h
  let s := s.setSvc h { g with preBusy := true }
  match bitsNat v 16 2 with
  | 0 => s.preempt h v
  | 1 => s.resume h v
  | 2 => s.killRequest h v
  | _ => s.setSvc h { g with preBusy := false }

/-- Requests held at a group begin in order, while none is in progress (R352). -/
def State.servePre (s : State) (h : Nat) : List Word → State
  | [] => s
  | v :: rest =>
    if (s.svcRegs h).preBusy then s
    else
      let s := s.setSvc h { s.svcRegs h with preHeld := rest }
      (s.startPre h v).servePre h rest

/-- Serve what every group holds, once. -/
def State.servePreRound (s : State) : State := s.svc.foldl (fun s g => s.servePre g.1 (s.svcRegs g.1).preHeld) s

/-- Serve what every group holds until nothing more can begin, as a request may end that of another group: `n` rounds. -/
def State.servePreRounds (s : State) : Nat → State
  | 0 => s
  | n + 1 => s.servePreRound.servePreRounds n

/-- Serve what every group holds: a round for each request held suffices (R352). -/
def State.serveAllPre (s : State) : State := s.servePreRounds ((s.svc.map (fun g => g.2.preHeld.length)).sum)

/-- A store to PRE_REQ (R352). -/
def State.storePreReq (s : State) (h : Nat) (v : Word) : State :=
  let g := s.svcRegs h
  (s.setSvc h { g with preHeld := g.preHeld ++ [v] }).serveAllPre

/-- PRE_REQ_PREEMPT (R353). -/
def execPreReqPreempt (h : Nat) (v : Word) (s : State) : Out := .next (s.storePreReq h v)
/-- PRE_REQ_RESUME (R360). -/
def execPreReqResume (h : Nat) (v : Word) (s : State) : Out := .next (s.storePreReq h v)
/-- PRE_REQ_KILL (R361). -/
def execPreReqKill (h : Nat) (v : Word) (s : State) : Out := .next (s.storePreReq h v)

/-! ### Saving and restoring a party (R355, R360) -/

/-- What a save keeps of a party: its task slots, then its extents. -/
def State.savedBytes (s : State) (p : Party) : List (List Host.Cell) :=
  Memory.slice s.mem (spadKey p.core 0x2000) (spadKey p.core 0x2100)
    :: p.spad.map (fun e => Memory.slice s.mem (spadKey p.core (e * extentBytes)) (spadKey p.core (e * extentBytes + extentBytes)))

/-- Queues that a party takes with it: the inboxes of its slots and the queues it made. -/
def State.partyQueues (s : State) (p : Party) : List (Nat × Queue) :=
  ((List.range 8).filter (fun n => p.slots.contains n || ((s.core p.core).queue n).owner == some p.id)).map
    (fun n => (n, (s.core p.core).queue n))

/-- What the hart's area holds: its results complete, and no load still to be performed (R37, R355). -/
def Hart.recorded (x : Hart) : Hart := { x.complete with late := none, since := none }

/-- A hart in place of another at the same position: `instret` and the monitor CSRs stay with the position, as the record leaves them
out (R359). -/
def Hart.keepMonitor (x old : Hart) : Hart :=
  { x with csr := { x.csr with
      instret := old.csr.instret
      mstat := old.csr.mstat
      rklist := old.csr.rklist
      rkctl := old.csr.rkctl } }

/-- The party's core record is written, its units return to the banker in one event, and its slots are left (R355).
DEDUCED (log 42). -/
def State.writeRecord (s : State) (p : Party) : State :=
  let qs := s.partyQueues p
  let r : Party := { p with
    state := .saved
    savedHarts := p.harts.map (fun h => (h, (s.getHart h).recorded))
    savedSpad := s.savedBytes p
    savedTags := (s.core p.core).tags.filter (fun t => t.party == p.id)
    savedQueues := qs.map (fun q => (q.1, { q.2 with closing := false }))
    savedHold := (p.spad.length, p.hamper.length) }
  let s := p.spad.foldl (fun s e => s.clearExtent p.core e) s
  let s := p.hamper.foldl (fun s g => s.clearSegment (clusterOfCore p.core) g) s
  let s := p.harts.foldl (fun s h => s.setHart h (Hart.reset.keepMonitor (s.getHart h))) s
  let s := s.setCore p.core { s.core p.core with tags := (s.core p.core).tags.filter (fun t => t.party != p.id) }
  let s := qs.foldl (fun s q => s.mapQueue p.core q.1 (fun _ => Queue.empty)) s
  let s := s.mapParty p.id (fun _ => { r with spad := [], hamper := [] })
  if (s.cluster (clusterOfCore p.core)).requests.isEmpty then s else s.raise (.acqGrant (clusterOfCore p.core))

/-- A party that was killed while it was being saved or restored is scrubbed once that has ended, and its launch may then be told (R155,
R357, Table 07-4). -/
def State.scrubDoomed (s : State) (p : Party) : State := (s.scrubParty p).tellEnd p.launch

/-- SAVE_COMPLETE: a party's save finishes, once its commands have been completed or parked; the context is SAVED when all its cores'
records are complete (R353, R355). -/
def execSaveComplete (party : Nat) (s : State) : Out :=
  match s.party? party with
  | none => .next s
  | some p =>
    if p.state ≠ .saving ∨ s.saveHeld p = true then .next s
    else if p.doomed then .next (s.scrubDoomed p)
    else .next ((s.writeRecord p).advanceSave p.ctx).serveAllPre

/-- COORD of a hart of a stage (Table 02-4). -/
def coordOf (h stage : Nat) : Word :=
  BitVec.ofNat 64 (h % 4 + h / 4 % 16 * 4 + h / 64 % 64 * 2 ^ 6 + Config.devno * 2 ^ 12 + stage % 8 * 2 ^ 20)

/-- A restored hart: its fetch buffer is empty, and a wait that Table 22-2 re-executes is over; at a barrier, for a value or for a
remote answer it goes on waiting (R354, R360). -/
def restoredHart (h stage : Nat) (old x : Hart) : Hart :=
  Hart.keepMonitor { x with
    fetch := []
    lastFetch := none
    csr := { x.csr with coord := coordOf h stage }
    blocked := match x.blocked with
      | some (.barrier rd c) => some (.barrier rd c)
      | some (.remote rd p n sg st) => some (.remote rd p n sg st)
      | some (.retire pa aq) => some (.retire pa aq)
      | _ => none } old

/-- The saved holding is granted and the core record written back; the recorded MLOADWs are at the matrix engine again (R306, R360 steps
1 to 3). -/
def State.readRecord (s : State) (p : Party) : State :=
  let k := clusterOfCore p.core
  let es := (s.freeExtents p.core).take p.savedHold.1
  let gs := (s.freeSegments k).take p.savedHold.2
  let s := es.foldl (fun s e => s.clearExtent p.core e) s
  let s := gs.foldl (fun s g => s.clearSegment k g) s
  let tasks := (p.savedSpad.headD []).filter (fun c => p.slots.contains (c.1 / 64))
  let mem := Memory.place s.mem (spadKey p.core 0x2000) tasks
  let mem := (es.zip (p.savedSpad.drop 1)).foldl (fun m x => Memory.place m (spadKey p.core (x.1 * extentBytes)) x.2) mem
  let s : State := { s with mem := mem }
  let s := s.setCore p.core { s.core p.core with tags := (s.core p.core).tags ++ p.savedTags }
  let s := p.savedQueues.foldl (fun s q => s.mapQueue p.core q.1 (fun x => { q.2 with requests := q.2.requests ++ x.requests })) s
  let s := p.savedHarts.foldl (fun s x => s.setHart x.1 (restoredHart x.1 p.stage (s.getHart x.1) x.2)) s
  let again : List Accepted := p.mloads.map (fun c =>
    { cmd := { c with word := c.word &&& ~~~(0x100#256) }, site := 0, parked := false, started := false, since := 0 })
  let s : State := { s with engines := again ++ s.engines }
  s.mapParty p.id (fun p => { p with
    spad := es, hamper := gs, mloads := [], savedHarts := [], savedSpad := [], savedTags := [], savedQueues := [],
    savedHold := (0, 0) })

/-- The saved holding of a restoring party is free on its core, and Safe holds with the party added; the parties of a core are restored
in slot order (R220, R360). -/
def State.restorable (s : State) (p : Party) : Bool :=
  let k := clusterOfCore p.core
  let v := (p.savedHarts.map (fun x => x.2.held)).sum
  let urgent (cls : Nat) : Bool := s.urgentHolds (4 * p.core) cls
  let e := (s.core p.core).encl
  decide (v ≤ s.freeV p.core) && decide (p.savedHold.1 ≤ (s.freeExtents p.core).length)
    && decide (p.savedHold.2 ≤ (s.freeSegments k).length)
    && !(decide (0 < v) && urgent 0) && !(decide (0 < p.savedHold.1) && urgent 1) && !(decide (0 < p.savedHold.2) && urgent 2)
    && !(e.getLsbD 16 && e.extractLsb' 0 16 != p.ctx)
    && !s.parties.any (fun q => q.core == p.core && q.state == .restoring && decide (q.slots.headD 0 < p.slots.headD 0))
    && (s.readRecord p).safe k

/-- The recorded loads of a restoring party have been performed. -/
def State.replayed (s : State) (p : Party) : Bool := !s.engines.any (fun a => a.cmd.by_.party == some p.id && a.cmd.cmd == 1)

/-- RESTORE_COMPLETE: the party is written back once its holding is granted, and its harts resume when its MLOADW records have been
performed again: its parked commands go on, and each hart's phase is opened (R306, R360). -/
def execRestoreComplete (party : Nat) (s : State) : Out :=
  match s.party? party with
  | none => .next s
  | some p =>
    if p.state ≠ .restoring then .next s
    else if p.doomed then .next (s.scrubDoomed p)
    else if p.savedHarts ≠ [] then .next (if s.restorable p then s.readRecord p else s)
    else if s.replayed p = false then .next s
    else
      let s : State := { s with engines := s.engines.map (fun (a : Accepted) =>
        if a.cmd.by_.party = some party then { a with parked := false } else a) }
      let s := (s.openHarts p.harts).mapParty party (fun p => { p with state := .running })
      let s := (s.deliverHeld p.launch).serveCore p.core
      .next (if s.parties.any (fun q => q.ctx == p.ctx && (q.state == .restoring || q.state == .saved)) then s
        else ((s.finishCtx p.ctx 0).serveHeldPreempt p.ctx).serveAllPre)

/-- Some party of a context is neither being saved nor saved, so that the watchdog runs (R357, Table 07-4). -/
def State.saveLeft (s : State) (ctx : BitVec 16) : Bool := s.parties.any (fun p => p.ctx == ctx && p.state != .saving && p.state != .saved)

/-- WATCHDOG_EXPIRY: the partition is gang-stopped and the context killed with HANG (R357). The watchdog never interrupts a
save, and while the partition is stopped it pauses (R358). -/
def execWatchdogExpiry (ctx : BitVec 16) (s : State) : Out :=
  match s.ctx? ctx with
  | none => .next s
  | some c => match c.watchdog with
    | none => .next s
    | some t =>
      if c.stopped || !s.saveLeft ctx then .next s
      else
        let s : State := { s with clock := max s.clock t }
        let s := (s.gangStop ctx 4 none).killContext ctx .hang
        let s := s.mapCtx ctx (fun c => { c with state := .resident })
        .next ((s.finishCtx ctx 2).serveAllPre)

/-- SAVE_DEADLINE_EXPIRY: the whole context is lost, and the party whose save has not ended is scrubbed at once (R358, Table 07-4). -/
def execSaveDeadlineExpiry (party : Nat) (s : State) : Out :=
  match s.party? party with
  | none => .next s
  | some p =>
    if p.state ≠ .saving ∨ s.contexts.any (fun c => c.id == p.ctx && c.stopped) = true then .next s
    else
      let s : State := { s with clock := max s.clock (p.saveSince + 6000000) }
      let s := (s.killContext p.ctx .killed).eraseKeys p.ctx
      let s := match s.party? party with
        | some p => s.scrubDoomed p
        | none => s
      let s := s.mapCtx p.ctx (fun c => { c with state := .resident, wrapped := none })
      .next ((s.finishCtx p.ctx 3).serveAllPre)

/-- The partition of a context is gang-stopped, which freezes its parties (R148, R153). -/
def State.stoppedCtx (s : State) (ctx : BitVec 16) : Bool := s.contexts.any (fun c => c.id == ctx && c.stopped)

/-- PARTY_RETIRE: once its commands have completed, a party's completions and fault notices are removed, its holdings
released and its slots freed (R146). -/
def execPartyRetire (party : Nat) (s : State) : Out :=
  match s.party? party with
  | none => .next s
  | some p =>
    if p.state ≠ .retiring ∨ s.stoppedCtx p.ctx = true ∨ s.engines.any (fun a => a.cmd.by_.party == some party) = true then .next s
    else
      let s := s.mapLaunch p.launch (fun l => { l with retired := l.retired + 1 })
      .next (s.releaseParty p)

/-- THERMAL_FAULT: the resident contexts are pre-empted and the accelerator halts once they are saved; a fault that
persists removes power, which acts as a package reset (R433). -/
def execThermalFault (persists : Bool) (s : State) : Out :=
  if persists then
    .next { State.reset with
      boot := { Boot.reset with flashOk := s.boot.flashOk, startOk := s.boot.startOk, faulty := s.boot.faulty }
      generated := s.generated
      choices := s.choices }
  else
    let live := s.contexts.filter (fun c => c.state == .resident && !c.stopped)
    let s := live.foldl (fun s c =>
      (s.mapCtx c.id (fun c => { c with state := .saving, watchdog := some (s.clock + 60000000) })).enterSaves c.id) s
    let s := live.foldl (fun s c => s.advanceSave c.id) s
    .next { s with halted := some .thermal }

/-- The accelerator is halted: by the alarm, or by a thermal fault once no context is being saved (R414, R433). -/
def State.isHalted (s : State) : Bool :=
  match s.halted with
  | none => false
  | some .alarm => true
  | some .thermal => !s.contexts.any (fun c => c.state == .saving)

end Sys2Proof.Machine
end

