-- ==== Sys2Proof/Machine/Superstep.lean ====
section
/-! DEFINITION. The dispatcher and the headcount tree: initial tasks (R137), placement (R141 to R144), the exchange and
the party barrier (R150, R176 to R178, R425, R427), the sweeps (R149, R154) and joined launches (R385). -/

namespace Sys2Proof.Machine

/-! ### Initial tasks (R137) -/

/-- The records of a task list from an address on; none when some byte cannot be read. -/
def taskRecords (s : State) (ctx : BitVec 16) (root a slice : Nat) (step : Nat) : Nat → Option (List Task)
  | 0 => some []
  | n + 1 =>
    match deviceRead s ctx root a 64, taskRecords s ctx root (a + 64) (slice + step) step n with
    | some bs, some ts => some ({ bits := BitVec.ofNat 512 (natOfBytes bs), slice := slice } :: ts)
    | _, _ => none

/-- A launch's task list, when every byte of it can be read and COUNT is legal; in a REPRO launch task k has the slice k, after those of
the lower devices of a join (R137, R140, R386). A list that is not 64-byte aligned cannot be read (log 23). -/
def taskList (s : State) (l : Launch) : Option (List Task) :=
  let a := l.tasksPtr.toNat
  let root := match s.ctx? l.ctx with
    | some c => c.root
    | none => 0
  if a % 64 ≠ 0 then none
  else match deviceRead s l.ctx root a 64 with
    | none => none
    | some h =>
      let n := natOfBytes (h.take 4)
      let repro := l.flags.getLsbD 1
      let zeroOk := l.join.any (fun j => (List.range Config.devno).any (fun d => j.2.getLsbD d))
      let reproOk := !repro || l.join.isSome || n == l.slices
      if reproOk && (n != 0 || zeroOk) then
        taskRecords s l.ctx root (a + 64) (if repro then l.sliceBase else 0) (if repro then 1 else 0) n
      else none

/-- A task enters a stage queue; the first of an empty queue becomes its oldest (R142). -/
def pushTask (t : Task) (clock : Nat) (q : StageQueue) : StageQueue :=
  { q with tasks := q.tasks ++ [t], since := if q.tasks.isEmpty then clock else q.since }

/-- INITIAL_TASKS: the list is read, so that no task of a list that cannot be read starts; then its records move into stage 0, one at a
time, as capacity allows (R137). -/
def execInitialTasks (launch : Nat) (s : State) : Out :=
  match s.launch? launch with
  | none => .next s
  | some l =>
    match l.initial with
    | none => .next s
    | some none =>
      (match taskList s l with
        | none => .next (s.endLaunch launch .tasksFault)
        | some ts => .next (s.mapLaunch launch (fun l => { l with initial := some (some ts) })))
    | some (some []) => .next (s.mapLaunch launch (fun l => { l with initial := none }))
    | some (some (t :: rest)) =>
      if stageFull l 0 then .next s
      else .next (s.mapLaunch launch (fun l => { l with
        initial := some (some rest)
        queues := l.queues.modify 0 (pushTask t s.clock) }))

/-! ### Placement (R141 to R143) -/

/-- The clusters adjacent to a site (R132). -/
def adjacentClusters (site : Nat) : List Nat := (List.range 4).map (fun row => 16 * (site / 4) + 4 * row + site % 4)

/-- |a - b|. -/
def absDiff (a b : Nat) : Nat := (a - b) + (b - a)

/-- The key by which clusters are near a site (R142). -/
def nearKey (site k : Nat) : Nat := (absDiff (k / 16) (site / 4) * 4 + absDiff (k % 4) (site % 4)) * 1024 + k

/-- The site of a data-affinity task: its address maps local HBM through the context, as an S-mode access (R141, R251). -/
def affinitySite (s : State) (ctx : BitVec 16) (root va : Nat) : Option Nat :=
  if 2 ^ 57 ≤ va ∨ inWindow va = true then none
  else match walk s 0 ctx root va with
    | .error _ => none
    | .ok (p, level, _) =>
      let pa := normPa (ptePfn p * 4096 + va % 2 ^ leafBits level (pteSpan p))
      if permits p .s .read && inLocalHbm s pa then some (s.siteOf pa) else none

/-- The clusters that may take the oldest task of a stage, in the order they are tried (R141, R142). -/
def placeClusters (s : State) (l : Launch) (st : StageEntry) (q : StageQueue) (t : Task) : List Nat :=
  let w := bitsNat t.bits 0 64
  match st.affinity with
  | 0 =>
    let root := match s.ctx? l.ctx with
      | some c => c.root
      | none => 0
    (match affinitySite s l.ctx root w with
      | none => l.clusters
      | some site =>
        let near := (adjacentClusters site).filter (fun k => l.clusters.contains k)
        if near.isEmpty then l.clusters
        else if s.clock < q.since + 6000 then near
        else l.clusters.mergeSort (fun a b => nearKey site a ≤ nearKey site b))
  | 2 => if l.clusters.isEmpty then [] else [(l.clusters.drop (w % l.clusters.length)).headD 0]
  | _ => l.clusters

/-- The free hart slots of a core for a launch: idle, with the logical slot VALID (R141, R242). -/
def State.freeSlots (s : State) (l : Launch) (core : Nat) : List Nat :=
  (List.range 4).filter (fun j => !s.parties.any (fun p => p.core == core && p.slots.contains j && (p.state != .saved || p.launch == l.id)))

/-- Granules for a number of registers (R135). -/
def granules (n : Nat) : Nat := (n + 3) / 4

/-- The party of a stage on some slots of a core, before its harts start (R144). -/
def newParty (s : State) (l : Launch) (k : Nat) (st : StageEntry) (slice core : Nat) (slots : List Nat) : Party :=
  { id := s.nextParty, launch := l.id, ctx := l.ctx, stage := k, core := core, slots := slots, slice := slice
    state := .running
    spad := (s.freeExtents core).take st.spadInit, spadMax := st.spadMax
    hamper := (s.freeSegments (clusterOfCore core)).take st.hamperInit, hamperMax := st.hamperMax
    cuts := [], barriers := 0, faultTags := [], mloads := [], saveSince := 0, savedHarts := [], savedSpad := [], savedTags := []
    savedQueues := [], savedHold := (0, 0), doomed := false }

/-- One hart of a new party (R46, R144, R339). ARG is passed unread to the program and no rule says where a program finds it: the launch
keeps it, and no hart is shown it. DESIGN CHOICE (log 63). -/
def newHart (s : State) (l : Launch) (st : StageEntry) (p : Party) (h ix : Nat) : Hart :=
  let root := match s.ctx? l.ctx with
    | some c => c.root
    | none => 0
  let slotAddr := windowBase + 0x7C000 + 0x2000 + 64 * (p.slots.headD 0)
  let x := Hart.reset.x.set 10 (BitVec.ofNat 64 slotAddr)
  let x := x.set 11 (BitVec.ofNat 64 ix)
  let x := x.set 12 (BitVec.ofNat 64 windowBase)
  let x := x.set 13 (BitVec.ofNat 64 p.slice)
  { Hart.reset with
    running := true
    mode := .u
    pc := pcOf st.entry
    x := x
    held := granules st.vregInit
    maxHeld := granules st.vregMax
    party := some p.id
    csr := { Csrs.reset with
      ptroot := BitVec.ofNat 64 (root + l.ctx.toNat * 2 ^ 48)
      ctxid := BitVec.ofNat 64 l.ctx.toNat
      rank := BitVec.ofNat 64 ((l.rankOf h).getD 0)
      coord := coordOf h p.stage
      sstep := BitVec.ofNat 64 l.sstep
      party := BitVec.ofNat 64 (p.id % 65536 + ix % 4 * 65536)
      kfaultq := BitVec.ofNat 64 (s.ctxField root 0x140 8) &&& 0x003FFFFFFFFFFFCF
      stvec := writeTvec 0 (BitVec.ofNat 64 (s.ctxField root 0x148 8)) } }

/-- The state with a party created: its holdings cleared, its task in its first hart's task slot, its harts started,
in a free-running launch with their phase opened (R144). -/
def State.createParty (s : State) (l : Launch) (k : Nat) (st : StageEntry) (t : Task) (core : Nat) (slots : List Nat) : State :=
  let p := newParty s l k st t.slice core slots
  let harts := (p.harts.zipIdx).map (fun x => (x.1, newHart s l st p x.1 x.2))
  let s := p.spad.foldl (fun s e => s.clearExtent core e) s
  let s := p.hamper.foldl (fun s g => s.clearSegment (clusterOfCore core) g) s
  let s := s.storeWhole (spadKey core (0x2000 + 64 * slots.headD 0)) (bytesOfNat 64 t.bits.toNat)
  let s := harts.foldl (fun s x => s.setHart x.1 x.2) s
  let s := if l.flags.getLsbD 0 then s else s.openHarts p.harts
  { s with parties := s.parties ++ [p], nextParty := s.nextParty + 1 }

/-- A core can start a task of a stage: its slots, or none (R141, R212, R213, R406). -/
def State.startSlots (s : State) (l : Launch) (k : Nat) (st : StageEntry) (t : Task) (core : Nat) : Option (List Nat) :=
  let slots := (s.freeSlots l core).take st.harts
  let v := st.harts * granules st.vregInit
  let e := (s.core core).encl
  let fits := slots.length == st.harts && !(e.getLsbD 16 && e.extractLsb' 0 16 != l.ctx)
    && decide (v ≤ s.freeV core) && decide (st.spadInit ≤ (s.freeExtents core).length)
    && decide (st.hamperInit ≤ (s.freeSegments (clusterOfCore core)).length)
    && !(decide (0 < v) && s.urgentHolds (4 * core) 0) && !(decide (0 < st.spadInit) && s.urgentHolds (4 * core) 1)
    && !(decide (0 < st.hamperInit) && s.urgentHolds (4 * core) 2)
  if fits && (s.createParty l k st t core slots).safe (clusterOfCore core) then some slots else none

/-- The first core among some that can start a task. -/
def State.firstCore (s : State) (l : Launch) (k : Nat) (st : StageEntry) (t : Task) : List Nat → Option (Nat × List Nat)
  | [] => none
  | c :: rest => match s.startSlots l k st t c with
    | some slots => some (c, slots)
    | none => s.firstCore l k st t rest

/-- The stages that are candidates (R143). -/
def stageCands (l : Launch) : List Nat :=
  (List.range l.stages.length).filter (fun k =>
    match l.stages[k]?, l.queues[k]? with
    | some st, some q => !q.tasks.isEmpty && !(List.range 8).any (fun j => st.downstream.getLsbD j && stageFull l j)
    | _, _ => false)

/-- The sampled occupancy ratio of stage `k`. -/
def stageRatio (l : Launch) (k : Nat) : Nat × Nat :=
  match l.queues[k]? with
  | some q => q.sample
  | none => (0, 1)

/-- Put a stage before those whose sampled ratio is not larger (R143). -/
def byRatio (l : Launch) (k : Nat) (ks : List Nat) : List Nat :=
  match ks with
  | [] => [k]
  | j :: rest =>
    if (stageRatio l j).1 * (stageRatio l k).2 ≤ (stageRatio l k).1 * (stageRatio l j).2 then k :: j :: rest else j :: byRatio l k rest

/-- The candidates in the order they are tried: larger sampled ratio first, then the lower number (R143). -/
def orderedCands (l : Launch) : List Nat := (stageCands l).foldr (byRatio l) []

/-- The task the dispatcher would place among some stages, with its core and slots. -/
def State.placeFrom (s : State) (l : Launch) : List Nat → Option (Nat × StageEntry × Task × Nat × List Nat)
  | [] => none
  | k :: rest =>
    match l.stages[k]?, l.queues[k]? with
    | some st, some q =>
      (match q.tasks with
        | t :: _ => (match s.firstCore l k st t (coresOf (placeClusters s l st q t)) with
          | some (c, slots) => some (k, st, t, c, slots)
          | none => s.placeFrom l rest)
        | [] => s.placeFrom l rest)
    | _, _ => s.placeFrom l rest

/-- The dispatcher may place tasks of a launch's context now (R353, R360, R385). -/
def State.placing (s : State) (l : Launch) : Bool :=
  !l.joining && (match s.ctx? l.ctx with
    | some c => c.state == .resident && c.group.isNone && !c.stopped && !c.midExchange
    | none => true)

/-- The next placement of a launch. -/
def State.placement (s : State) (l : Launch) : Option (Nat × StageEntry × Task × Nat × List Nat) := s.placeFrom l (orderedCands l)

/-- TASK_PLACEMENT (R141 to R144). -/
def execTaskPlacement (launch : Nat) (s : State) : Out :=
  match s.launch? launch with
  | none => .next s
  | some l =>
    if s.placing l = false then .next s
    else match s.placement l with
      | none => .next s
      | some (k, st, t, c, slots) =>
        let s := s.createParty l k st t c slots
        .next (s.mapLaunch launch (fun l => { l with
          queues := l.queues.modify k (fun q => { q with tasks := q.tasks.drop 1, since := s.clock }) }))

/-- AFFINITY_PATIENCE_EXPIRY: the oldest data-affinity task has waited 6,000 cycles (R142; log 16). -/
def execAffinityPatienceExpiry (launch : Nat) (s : State) : Out :=
  match s.launch? launch with
  | none => .next s
  | some l =>
    let waits := (l.stages.zip l.queues).filter (fun x => x.1.affinity == 0 && !x.2.tasks.isEmpty)
    match waits with
    | [] => .next s
    | x :: _ => .next { s with clock := max s.clock (x.2.since + 6000) }

/-- The occupancy ratios of a launch are sampled (R143). -/
def Launch.sampled (l : Launch) (clock : Nat) : Launch :=
  { l with
    sampledAt := clock
    queues := (l.queues.zip l.stages).map (fun (x : StageQueue × StageEntry) => { x.1 with sample := (StageQueueOccupancy x.1, x.2.capacity) }) }

/-- OCCUPANCY_SAMPLE: a free-running launch samples its ratios (R143). -/
def execOccupancySample (launch : Nat) (s : State) : Out :=
  .next (s.mapLaunch launch (fun l => if l.flags.getLsbD 0 then l else l.sampled s.clock))

/-! ### Combining contributions (R178, Table 09-1) -/

/-- The identity of an operation. -/
def redIdentity : RedOp → Word
  | .sum => 0 | .min => 0x7FFFFFFFFFFFFFFF | .max => 0x8000000000000000 | .and => BitVec.allOnes 64 | .or => 0

/-- One step of a reduction. -/
def redCombine : RedOp → Word → Word → Word
  | .sum, a, b => a + b
  | .min, a, b => if b.slt a then b else a
  | .max, a, b => if a.slt b then b else a
  | .and, a, b => a &&& b
  | .or, a, b => a ||| b

/-- The contribution of a hart that waits at a barrier. -/
def barrierValue (x : Hart) : Option (RedOp × Word) :=
  match x.blocked with
  | some (.barrier _ c) => c
  | _ => none

/-- The combined value of an operation over some harts. -/
def redOver (op : RedOp) (hs : List Hart) : Word :=
  (hs.filterMap barrierValue).foldl (fun acc c => if c.1 = op then redCombine op acc c.2 else acc) (redIdentity op)

/-- A hart waits at a barrier. -/
def atBarrier (x : Hart) : Bool :=
  match x.blocked with
  | some (.barrier _ _) => true
  | _ => false

/-- A hart that waits at a barrier completes it: `hred` with its own operation's value, `sync` with a number. -/
def leaveBarrier (value : RedOp → Word) (n : Word) (x : Hart) : Hart :=
  match x.blocked with
  | some (.barrier rd (some (op, _))) => x.finishWait rd (value op)
  | some (.barrier rd none) => x.finishWait rd n
  | _ => x

/-! ### Joined launches (R385, R386) -/

/-- The launch runs on other devices too, whose part of its tree is not seen here (R386). DESIGN CHOICE (log 24): what they contribute
is free. -/
def Launch.far (l : Launch) : Bool :=
  !l.joining && (match l.join with
    | some (_, m) => m != 1#128 <<< Config.devno
    | none => false)

/-- The other devices of a launch have arrived at the tree, or find nothing more to do there. -/
def State.farReady (s : State) (l : Launch) : Bool := !l.far || (Config.freeWord s.choices).getLsbD 0

/-- The number of an operation. -/
def redIndex : RedOp → Nat
  | .sum => 0 | .min => 1 | .max => 2 | .and => 3 | .or => 4

/-- The value of each operation over the harts of a launch; with those of other devices it is free (R178, R386). -/
def State.redValue (s : State) (l : Launch) (hs : List Hart) (op : RedOp) : Word :=
  if l.far then Config.freeWord (s.choices + redIndex op) else redOver op hs

/-! ### The party barrier (R177) -/

/-- The party barrier completes once every hart that has not executed `task.done` waits in it. -/
def State.checkBarrier (s : State) (id : Nat) : State :=
  match s.party? id with
  | none => s
  | some p =>
    let hs := (p.harts.map s.getHart).filter (fun x => !x.finished)
    if hs.isEmpty || !hs.all atBarrier then s
    else
      let n := p.barriers + 1
      let s := p.harts.foldl (fun s h => s.setHart h (leaveBarrier (fun op => redOver op hs) (BitVec.ofNat 64 n) (s.getHart h))) s
      (s.openHarts p.harts).mapParty id (fun p => { p with barriers := n })

/-! ### The exchange (R150, R152, R425, R427) -/

/-- The harts of a party, present or in its core record. -/
def State.partyHarts (s : State) (p : Party) : List (Nat × Hart) :=
  if p.savedHarts.isEmpty then p.harts.map (fun h => (h, s.getHart h)) else p.savedHarts

/-- The harts of a launch, in rank order of their present slots. -/
def State.launchHarts (s : State) (id : Nat) : List (Nat × Hart) :=
  (s.parties.filter (fun p => p.launch == id)).flatMap s.partyHarts

/-- Every slot of a launch has arrived (R150, R176). DEDUCED (log 40). -/
def State.allArrived (s : State) (l : Launch) : Bool :=
  (s.launchHarts l.id).all (fun x => atBarrier x.2 || x.2.finished) && !(s.placing l && (s.placement l).isSome)

/-- Something asks for an exchange (R150). -/
def State.exchangeAsked (s : State) (l : Launch) : Bool :=
  (s.launchHarts l.id).any (fun x => atBarrier x.2) || l.queues.any (fun q => !q.emitted.isEmpty) || !l.appends.isEmpty

/-- A precise stop falls due at the exchange that ends superstep `n` (R425). -/
def stopDue (c : Context) (n : Nat) : Bool :=
  match c.stopReq with
  | some (_, none) => true
  | some (_, some k) => k == n
  | none => false

/-- An accepted command of a launch has not completed. -/
def State.commandsLeft (s : State) (id : Nat) : Bool := s.engines.any (fun a => a.cmd.by_.launch == some id)

/-- The exchange of a launch can run now. -/
def State.exchangeReady (s : State) (l : Launch) : Bool :=
  l.flags.getLsbD 0 && !l.joining && s.allArrived l && s.exchangeAsked l && s.farReady l && (match s.ctx? l.ctx with
    | some c => !c.stopped && !c.midExchange && c.state != .saved
        && !((stopDue c l.sstep || c.pairedWith.isSome) && s.commandsLeft l.id)
    | none => true)

/-- An entry sent under an allowance reaches an inbox or a ring in a core record (R244). -/
def Party.savedAppend (p : Party) (n : Nat) (e : VBits) : Party :=
  match p.savedQueues.find? (fun q => q.1 == n) with
  | none => p
  | some (_, q) =>
    if n < 4 then { p with savedQueues := p.savedQueues.map (fun (q : Nat × Queue) => if q.1 = n then
      (n, { q.2 with entries := q.2.entries ++ [e], granted := q.2.granted - 1 }) else q) } else
    let off := q.base - windowBase + 64 * ((q.head + q.count) % q.cap)
    { p with
      savedSpad := p.savedSpad.modify (off / extentBytes + 1) (fun cs => Memory.write cs (off % extentBytes) (bytesOfNat 64 e.toNat))
      savedQueues := p.savedQueues.map (fun (q : Nat × Queue) => if q.1 = n then
        (n, { q.2 with count := q.2.count + 1, granted := q.2.granted - 1 }) else q) }

/-- The records of a context that is wholly saved stand for no place on the device. -/
def State.isSaved (s : State) (ctx : BitVec 16) : Bool := s.contexts.any (fun c => c.id == ctx && c.state == .saved)

/-- A party in whose core record queue `n` of a core lies. -/
def State.recordOf (s : State) (core n : Nat) : Option Party :=
  s.parties.find? (fun p => p.core == core && p.savedQueues.any (fun q => q.1 == n) && !s.isSaved p.ctx)

/-- A launch among whose idle records queue `n` of a core lies. -/
def State.idleRecordOf (s : State) (core n : Nat) : Option Launch :=
  s.launches.find? (fun l => l.ended.isNone && l.away.any (fun r => r.core == core && r.queues.any (fun q => q.1 == n)) && !s.isSaved l.ctx)

/-- Change queue `n` in an idle record of a core. -/
def IdleRecord.mapQueue (core n : Nat) (f : Queue → Queue) (r : IdleRecord) : IdleRecord :=
  if r.core = core then { r with queues := r.queues.map (fun q => if q.1 = n then (n, f q.2) else q) } else r

/-- Queue `n` of a core where it now is, in a record or in place, changed by counts or by its held requests. -/
def State.mapQueueAt (s : State) (core n : Nat) (f : Queue → Queue) : State :=
  match s.recordOf core n with
  | some p => s.mapParty p.id (fun p => { p with savedQueues := p.savedQueues.map (fun (q : Nat × Queue) => if q.1 = n then (n, f q.2) else q) })
  | none => match s.idleRecordOf core n with
    | some l => s.mapLaunch l.id (fun l => { l with away := l.away.map (IdleRecord.mapQueue core n f) })
    | none => (s.mapQueue core n f).serveRequests core n

/-- Queue `n` of a core where it now is. -/
def State.queueAt (s : State) (core n : Nat) : Queue :=
  let from_ (qs : List (Nat × Queue)) : Queue := ((qs.find? (fun q => q.1 == n)).map (·.2)).getD Queue.empty
  match s.recordOf core n with
  | some p => from_ p.savedQueues
  | none => match s.idleRecordOf core n with
    | some l => from_ ((l.away.filter (fun r => r.core == core)).flatMap (·.queues))
    | none => (s.core core).queue n

/-- An entry sent under an allowance reaches its queue, which uses the allowance (R240). -/
def State.appendGranted (s : State) (core n : Nat) (e : VBits) : State :=
  match s.recordOf core n with
  | some p => s.mapParty p.id (fun p => p.savedAppend n e)
  | none => match s.idleRecordOf core n with
    | some l => s.mapLaunch l.id (fun l => { l with away := l.away.map (IdleRecord.mapQueue core n (fun q =>
        { q with entries := q.entries ++ [e], granted := q.granted - 1 })) })
    | none => (s.mapQueue core n (fun q => { q with granted := q.granted - 1 })).enqueue core n e

/-- A core has received a message (R153, R154). -/
def State.countReceived (s : State) (id core : Nat) : State :=
  (s.setCore core { s.core core with received := (s.core core).received + 1 }).mapLaunch id (fun l => { l with received := l.received + 1 })

/-- Emitted tasks reach their stage queue, in slice order under REPRO (R150, R151). -/
def deliverEmitted (repro : Bool) (clock : Nat) (q : StageQueue) : StageQueue :=
  let ts := if repro then q.emitted.mergeSort (fun a b => a.slice ≤ b.slice) else q.emitted
  ts.foldl (fun q t => pushTask t clock q) { q with emitted := [] }

/-- Steps 1 and 2 of the exchange: every phase closed, and every append, task and store delivered. -/
def State.closeStep (s : State) (l : Launch) : State :=
  let hs := (s.parties.filter (fun p => p.launch == l.id && p.savedHarts.isEmpty)).flatMap Party.harts
  let s := hs.foldl (fun s h => s.hardPublish h) s
  let s := l.appends.foldl (fun s a => (s.appendGranted a.2.1 a.2.2.1 a.2.2.2).countReceived l.id a.2.1) s
  let n := (l.queues.map (fun q => q.emitted.length)).sum
  s.mapLaunch l.id (fun l => { l with
    appends := []
    received := l.received + n
    queues := l.queues.map (deliverEmitted (l.flags.getLsbD 1) s.clock) })

/-- A number as an arrival time saturates. -/
def saturate32 (n : Nat) : Nat := min n 0xFFFFFFFF

/-- The imbalance record of a superstep (R152, Table 07-6). DEDUCED (log 40). That of a launch joined across devices tells of all of
them: what it says of arrivals is free (R386). -/
def State.imbalance (s : State) (l : Launch) : List Byte :=
  let ts := l.arrivals.map (fun a => saturate32 (a.2 - l.stepStart))
  let last := l.arrivals.foldl (fun (m : Nat × Nat) a => if m.2 ≤ a.2 then a else m) (0, 0)
  if l.far then bytesOfNat 8 l.sstep ++ (List.range 20).map (fun i => Config.freeByte (s.choices + i)) ++ bytesOfNat 4 0
  else bytesOfNat 8 l.sstep ++ bytesOfNat 4 (ts.foldl min (if ts.isEmpty then 0 else 0xFFFFFFFF)) ++ bytesOfNat 4 (ts.foldl max 0)
    ++ bytesOfNat 8 ts.sum ++ bytesOfNat 2 (traceCore (last.1 / 4)) ++ bytesOfNat 2 ts.length ++ bytesOfNat 4 0

/-- Steps 3 and 4: every phase opened, SSTEP advanced, the record written, each `sync` returned. -/
def State.openStep (s : State) (l : Launch) : State :=
  let hs := s.launchHarts l.id
  let n := BitVec.ofNat 64 (l.sstep + 1)
  let xs := hs.map (·.2)
  let after (x : Hart) : Hart :=
    let y := leaveBarrier (s.redValue l xs) n x
    { y with csr := { y.csr with sstep := n } }
  let s := (s.parties.filter (fun p => p.launch == l.id && p.savedHarts.isEmpty)).foldl (fun s p =>
    (p.harts.foldl (fun s h => s.setHart h (after (s.getHart h))) s).openHarts p.harts) s
  let s : State := { s with parties := s.parties.map (fun (p : Party) =>
    if p.launch = l.id then { p with savedHarts := p.savedHarts.map (fun x => (x.1, after x.2)) } else p) }
  let s := s.mapCtx l.ctx (fun c => { c with midExchange := false, lines := [] })
  let s := s.trace (match s.ctx? l.ctx with
    | some c => c.root
    | none => 0) (s.imbalance l)
  let s : State := { s with choices := if l.far then s.choices + 32 else s.choices }
  s.mapLaunch l.id (fun l => { l.sampled s.clock with sstep := l.sstep + 1, stepStart := s.clock, arrivals := [] })

/-- A partition that stands between steps 2 and 3 stops, when a precise stop is due, or goes on (R425). -/
def State.stopOrOpen (s : State) (ctx : BitVec 16) : State :=
  match s.ctx? ctx, s.ctxLaunch ctx with
  | some c, some l =>
    if stopDue c l.sstep then (s.mapCtx ctx (fun c => { c with stopReq := none })).gangStop ctx 1 none
    else s.openStep l
  | _, _ => s

/-- What a line adds to its site's hash: the low 64 bits of SHA-256 of VA[56:6] as 8 bytes and the line (R427; log 55). -/
def lineHash (n : Nat) (line : List Byte) : Word := (sha256 (bytesOfNat 8 n ++ line)).setWidth 64

/-- The hash of a site's lines that a context has written (R427). -/
def State.siteHash (s : State) (c : Context) (site : Nat) : Word :=
  (c.lines.filter (fun l => s.siteOf l.2 == site)).foldl (fun acc l => acc + lineHash (l.1 / 64) (s.load l.2 64)) 0

/-- The sites whose hashes differ between two partitions. -/
def State.hashDiff (s : State) (a b : Context) : List Nat := (List.range 16).filter (fun i => s.siteHash a i != s.siteHash b i)

/-- A partition stops for divergence; its record names the lowest differing site's hashes (R427; log 24). -/
def State.divergeStop (s : State) (c o : Context) (sites : List Nat) : State :=
  let i := sites.headD 0
  let n := match s.ctxLaunch c.id with
    | some l => l.sstep
    | none => 0
  let due := stopDue c n
  (s.mapCtx c.id (fun c => { c with stopReq := if due then none else c.stopReq })).gangStop c.id 3
    (some (traceRecord n (s.siteHash c i).toNat (s.siteHash o i).toNat ((sites.map (fun i => 2 ^ i)).sum) Config.devno 2))

/-- A context has completed step 2: a paired one waits for the other, and their hashes are compared (R427). -/
def State.afterClose (s : State) (ctx : BitVec 16) : State :=
  match s.ctx? ctx with
  | none => s
  | some c =>
    if !c.midExchange || c.stopped then s
    else match c.pairedWith.bind s.ctx? with
      | none => s.stopOrOpen ctx
      | some o =>
        if (s.ctxLaunch o.id).isNone then s.stopOrOpen ctx
        else if !o.midExchange then s
        else
          let sites := s.hashDiff c o
          if sites.isEmpty then (s.stopOrOpen c.id).stopOrOpen o.id
          else (s.divergeStop c o sites).divergeStop o c sites

/-- EXCHANGE (R150). -/
def execExchange (launch : Nat) (s : State) : Out :=
  match s.launch? launch with
  | none => .next s
  | some l =>
    if s.exchangeReady l = false then .next s
    else match s.ctx? l.ctx with
      | none => .next ((s.closeStep l).openStep ((s.closeStep l).launch? launch |>.getD l))
      | some _ => .next (((s.closeStep l).mapCtx l.ctx (fun c => { c with midExchange := true })).afterClose l.ctx)

/-! ### Sweeps (R149, R154) -/

/-- Every slot of a launch is idle and every stage queue empty. -/
def State.allIdle (s : State) (l : Launch) : Bool :=
  !s.parties.any (fun p => p.launch == l.id) && l.initial.isNone && l.appends.isEmpty
    && l.queues.all (fun q => q.tasks.isEmpty && q.emitted.isEmpty)

/-- A hart is blocked in `emit`. -/
def inEmit (x : Hart) : Bool :=
  match x.blocked with
  | some (.stage _) => true
  | _ => false

/-- The state of R149: every slot is idle, at `sync` or blocked in `emit`, at least one of them there, and nothing can be placed. A hart
that has executed `task.done` is at none of these, and its slot is not idle before its party has retired. -/
def State.stuck (s : State) (l : Launch) : Bool :=
  let hs := s.launchHarts l.id
  hs.any (fun x => inEmit x.2) && hs.all (fun x => atBarrier x.2 || inEmit x.2)
    && hs.all (fun x => match x.2.blocked with
      | some (.stage k) => stageFull l k
      | _ => true)
    && (s.placement l).isNone && s.placing l

/-- HEADCOUNT_SWEEP: two successive sweeps detect the end of a launch or a stall (R149, R154). -/
def execHeadcountSweep (launch : Nat) (s : State) : Out :=
  match s.launch? launch with
  | none => .next s
  | some l =>
    if s.farReady l = false then .next { s with choices := s.choices + 1 }
    else if s.allIdle l then
      if l.sweep = some (l.sent, l.received) ∧ l.sent = l.received then .next (s.raise (.launchEnd launch))
      else .next (s.mapLaunch launch (fun l => { l with sweep := some (l.sent, l.received), stallSeen := false }))
    else if s.stuck l then
      if l.stallSeen then .next ((s.gangStop l.ctx 5 none).endLaunch launch .stalled)
      else .next (s.mapLaunch launch (fun l => { l with sweep := none, stallSeen := true }))
    else .next (s.mapLaunch launch (fun l => { l with sweep := none, stallSeen := false }))

/-- LAUNCH_END: the launch has ended (R154, R155). -/
def execLaunchEnd (launch : Nat) (s : State) : Out :=
  match s.launch? launch with
  | none => .next s
  | some l =>
    .next (if s.allIdle l = true ∧ l.sent = l.received then s.endLaunch launch .complete else s)

/-! ### Joined launches (R385) -/

/-- The launch of a service-core hart that waits to be joined. -/
def State.joiningOf (s : State) (h : Nat) : Option Launch :=
  s.launches.find? (fun l => l.submitter == Config.computeHarts + h && l.joining && l.ended.isNone)

/-- JOIN_START: every device of the mask has submitted a matching record; `before` is the number of initial tasks of the
lower devices (R385, R386). -/
def execJoinStart (h before : Nat) (s : State) : Out :=
  match s.joiningOf h with
  | none => .next s
  | some l =>
    let s := s.setSvc h { s.svcRegs h with joinStat := 2 }
    .next (s.mapLaunch l.id (fun l => { l with joining := false, sliceBase := before, stepStart := s.clock }))

/-- JOIN_TIMEOUT: a device is missing after 1 s; the launch ends JOIN_FAILED (R385; log 16). -/
def execJoinTimeout (h : Nat) (s : State) : Out :=
  match s.joiningOf h with
  | none => .next s
  | some l =>
    let s : State := { s with clock := max s.clock (l.stepStart + 3000000000) }
    .next ((s.setSvc h { s.svcRegs h with joinStat := 3 }).endLaunch l.id .joinFailed)

end Sys2Proof.Machine
end

