-- ==== Sys2Proof/Machine/Debug.lean ====
section
/-! DEFINITION. The debug groups (R424 to R427): precise and immediate stops, release, and pairs. -/

namespace Sys2Proof.Machine

/-- A stop is released: watchdog and save deadlines run on, an interrupted exchange continues at its step 3, and pre-empt
requests held meanwhile are made (R352, R425, R426, R358). -/
def State.releaseStop (s : State) (ctx : BitVec 16) : State :=
  match s.ctx? ctx with
  | none => s
  | some c =>
    if c.stopped = false then s
    else
      let s := s.mapCtx ctx (fun c => { c with stopped := false, watchdog := c.watchdog.map (fun t => t + s.clock) })
      let s : State := { s with parties := s.parties.map (fun (p : Party) =>
        if p.ctx = ctx ∧ p.state = .saving then { p with saveSince := s.clock - p.saveSince } else p) }
      let s := match s.ctxLaunch ctx with
        | some l => if c.midExchange then s.openStep l else s
        | none => s
      (s.serveHeldPreempt ctx).serveAllPre

/-- A request of a debug group completes with a result (R424). -/
def State.finishDbg (s : State) (h : Nat) (ctx : BitVec 16) (result : Nat) : State :=
  let g := s.svcRegs h
  s.setSvc h { g with dbgCtx := ctx, dbgResult := result, dbgDone := g.dbgDone + 1 }

/-- A context that is resident, being saved or not (R353). -/
def State.residentCtx (s : State) (ctx : BitVec 16) : Option Context := (s.ctx? ctx).filter (fun c => c.state != .saved)

/-- A precise stop is asked for: at the next exchange, or at the one that ends superstep `at_` (R425). A context without a
launch gives BAD_STATE (log 25). -/
def State.dbgStop (s : State) (h : Nat) (v : Word) (at_ : Option Nat) : State :=
  let ctx := v.extractLsb' 0 16
  match s.residentCtx ctx, s.ctxLaunch ctx with
  | some c, some l =>
    if l.flags.getLsbD 0 = false then s.finishDbg h ctx 2
    else if (match at_ with
      | some n => decide (n < l.sstep) || (c.midExchange && n == l.sstep)
      | none => false) then s.finishDbg h ctx 3
    else (s.mapCtx ctx (fun c => { c with stopReq := some (h, at_) })).finishDbg h ctx 0
  | _, _ => s.finishDbg h ctx 1

/-- A partition is released; one stopped at an exchange with its pair is released with it (R425, R427). -/
def State.dbgRelease (s : State) (h : Nat) (v : Word) : State :=
  let ctx := v.extractLsb' 0 16
  match s.residentCtx ctx with
  | none => s.finishDbg h ctx 1
  | some c =>
    if c.stopped = false then s.finishDbg h ctx 1
    else
      let s := s.releaseStop ctx
      let s := match c.pairedWith.bind s.ctx? with
        | some o => if c.midExchange && o.midExchange then s.releaseStop o.id else s
        | none => s
      s.finishDbg h ctx 0

/-- The partition is gang-stopped at once (R425). -/
def State.dbgImmediate (s : State) (h : Nat) (v : Word) : State :=
  let ctx := v.extractLsb' 0 16
  match s.residentCtx ctx with
  | none => s.finishDbg h ctx 1
  | some _ => (s.gangStop ctx 2 none).finishDbg h ctx 0

/-- Two resident contexts are paired before either has launched (R427). -/
def State.dbgPair (s : State) (h : Nat) (v : Word) : State :=
  let a := v.extractLsb' 0 16
  let b := (s.svcRegs h).dbgArg.extractLsb' 0 16
  match s.residentCtx a, s.residentCtx b with
  | some ca, some cb =>
    if a = b ∨ (s.ctxLaunch a).isSome = true ∨ (s.ctxLaunch b).isSome = true ∨ ca.pairedWith.isSome = true ∨ cb.pairedWith.isSome = true then
      s.finishDbg h a 1
    else ((s.mapCtx a (fun c => { c with pairedWith := some b, lines := [] })).mapCtx b
      (fun c => { c with pairedWith := some a, lines := [] })).finishDbg h a 0
  | _, _ => s.finishDbg h a 1

/-- A pair is dissolved; a partition that waits for the other goes on. -/
def State.unpair (s : State) (a : BitVec 16) : State :=
  match (s.ctx? a).bind Context.pairedWith with
  | none => s
  | some b =>
    let s := s.mapCtx a (fun c => { c with pairedWith := none, lines := [] })
    let s := s.mapCtx b (fun c => { c with pairedWith := none, lines := [] })
    (s.afterClose a).afterClose b

/-- A pairing is dissolved on request (R424). -/
def State.dbgUnpair (s : State) (h : Nat) (v : Word) : State :=
  let ctx := v.extractLsb' 0 16
  if ((s.ctx? ctx).bind Context.pairedWith).isSome then (s.unpair ctx).finishDbg h ctx 0 else s.finishDbg h ctx 1

/-- A store to DBG_REQ: by OP; 6 and 7 have no effect (R424). -/
def State.storeDbgReq (s : State) (h : Nat) (v : Word) : State :=
  match bitsNat v 16 3 with
  | 0 => s.dbgStop h v none
  | 1 => s.dbgStop h v (some (s.svcRegs h).dbgArg.toNat)
  | 2 => s.dbgRelease h v
  | 3 => s.dbgImmediate h v
  | 4 => s.dbgPair h v
  | 5 => s.dbgUnpair h v
  | _ => s

/-- DBG_STOP_NEXT (R425). -/
def execDbgStopNext (h : Nat) (v : Word) (s : State) : Out := .next (s.dbgStop h v none)

/-- DBG_STOP_AT: the superstep is in DBG_ARG (R425). -/
def execDbgStopAt (h : Nat) (v : Word) (s : State) : Out := .next (s.dbgStop h v (some (s.svcRegs h).dbgArg.toNat))

/-- DBG_RELEASE (R425). -/
def execDbgRelease (h : Nat) (v : Word) (s : State) : Out := .next (s.dbgRelease h v)

/-- DBG_IMMEDIATE_STOP (R425). -/
def execDbgImmediateStop (h : Nat) (v : Word) (s : State) : Out := .next (s.dbgImmediate h v)

/-- DBG_PAIR (R427). -/
def execDbgPair (h : Nat) (v : Word) (s : State) : Out := .next (s.dbgPair h v)

/-- DBG_UNPAIR (R424). -/
def execDbgUnpair (h : Nat) (v : Word) (s : State) : Out := .next (s.dbgUnpair h v)

end Sys2Proof.Machine
end

