-- ==== Sys2Proof/Machine/Mmio.lean ====
section
/-! DEFINITION. The memory-mapped registers (R249): who reads and writes each block and what a store to it does, and the
events of the register groups (R36, R264, R344, R363, R413). -/

namespace Sys2Proof.Machine

/-! ### Shootdown requests (R263, R264) -/

/-- A store to SD_REQ starts a shootdown, or is held while BUSY (R263). -/
def State.storeSdReq (s : State) (h : Nat) (v : Word) : State :=
  let g := s.svcRegs h
  if g.sdBusy then s.setSvc h { g with sdHeld := g.sdHeld ++ [v] }
  else (s.setSvc h { g with sdReq := v, sdBusy := true }).raise (.shootdownDone h)

/-- SD_REQ (R264). -/
def execSdReq (h : Nat) (v : Word) (s : State) : Out := .next (s.storeSdReq h v)

/-- SHOOTDOWN_DONE: the shootdown of the group's range and context, DONE, and the next store held (R264). -/
def execShootdownDone (h : Nat) (s : State) : Out :=
  let g := s.svcRegs h
  if g.sdBusy = false then .next s
  else
    let s := s.shootdown (g.sdReq.extractLsb' 48 16) (bitsNat g.sdReq 0 45 * 4096) (bitsNat g.sdReq 45 3)
    let g := { s.svcRegs h with sdBusy := false, sdDone := g.sdDone + 1 }
    .next (match g.sdHeld with
      | v :: rest => (s.setSvc h { g with sdHeld := rest }).storeSdReq h v
      | [] => s.setSvc h g)

/-! ### Notices and replies (R344, R363) -/

/-- A hardware entry for the rank that FN_TARGET names. -/
def State.toTarget (s : State) (h : Nat) (e : VBits) : State :=
  let t := (s.svcRegs h).fnTarget
  match s.ctxLaunch (t.extractLsb' 32 16) with
  | some l => s.toRank l.id (bitsNat t 0 32) e
  | none => s

/-- A fault notice's tag belongs to a party that has retired (R146). -/
def State.deadTag (s : State) (h tag : Nat) : Bool :=
  let t := (s.svcRegs h).fnTarget
  match s.ctxLaunch (t.extractLsb' 32 16) with
  | some l => (match l.hartOf (bitsNat t 0 32) with
    | some x => l.deadTags.contains (x, tag)
    | none => false)
  | none => false

/-- FN_POST: a TYPE 1 entry with TAG and STATUS as stored (R344); a notice whose tag a retired party left is discarded
(R146). -/
def State.storeFnPost (s : State) (h : Nat) (v : Word) : State :=
  if s.deadTag h (bitsNat v 0 16) then s
  else s.toTarget h (inboxEntry 1 (bitsNat v 16 16) (v.extractLsb' 0 16) 0xFFFF 0 0)

/-- FN_POST (R344). -/
def execFnPost (h : Nat) (v : Word) (s : State) : Out := .next (s.storeFnPost h v)

/-- SC_REPLY: a TYPE 4 entry with TAG, STATUS and VALUE as stored (R363). -/
def State.storeScReply (s : State) (h : Nat) (v : Word) : State :=
  s.toTarget h (inboxEntry 4 (bitsNat v 16 16) (v.extractLsb' 0 16) 0xFFFF (v >>> 32) 0)

/-- SC_REPLY (R363). -/
def execScReply (h : Nat) (v : Word) (s : State) : Out := .next (s.storeScReply h v)

/-! ### The software-interrupt block (R36) -/

/-- Harts of the device. -/
def harts : Nat := Config.computeHarts + Config.serviceHarts

/-- A hart's MSIP bit, which the block holds for its position. -/
def State.setMsip (s : State) (h : Nat) (b : Bool) : State :=
  { s with msips := if b then (if s.msips.contains h then s.msips else h :: s.msips) else s.msips.filter (fun k => k != h) }
/-- A hart's mip.SSIP. -/
def State.setSsip (s : State) (h : Nat) : State :=
  let x := s.getHart h
  s.setHart h { x with csr := { x.csr with ssip := true } }

/-- MSIP: the target's machine software interrupt follows the bit (R36). -/
def execMsip (h : Nat) (value : Bool) (s : State) : Out := .next (if h < harts then s.setMsip h value else s)
/-- SSIP: a store with the bit set sets the target's mip.SSIP (R36). -/
def execSsip (h : Nat) (value : Bool) (s : State) : Out := .next (if h < harts ∧ value = true then s.setSsip h else s)

/-- A store to the block by a hart of a mode (R36). -/
def State.storeSoft (s : State) (mode : Mode) (by_ h : Nat) (v : Word) : State :=
  let ss (s : State) : State := if v.getLsbD 1 then s.setSsip h else s
  match mode with
  | .m => ss (s.setMsip h (v.getLsbD 0))
  | .s => if isCompute by_ then s else ss s
  | .u => s

/-! ### Attestation (R413) -/

/-- ATT_REQ starts a report. DESIGN CHOICE (log 26): a store while one is being made is ignored. -/
def State.storeAttReq (s : State) (v : Word) : State :=
  if s.attBusy then s else ({ s with attReq := v &&& 0x0000FFFFFFFFFFC0, attBusy := true }).raise .attestationReportDone

/-- ATT_REQ (R413). -/
def execAttReq (v : Word) (s : State) : Out := .next (s.storeAttReq v)

/-- The report of Table 25-3 for a request of 64 bytes. -/
def attReport (req : List Byte) : List Byte :=
  let body := bytesOfNat 4 1 ++ bytesOfNat 4 0 ++ takeBytes req 0 32 ++ bytesOfNat 32 Config.fwHash.toNat
    ++ bytesOfNat 32 Config.monHash.toNat ++ takeBytes req 32 32 ++ bytesOfNat 64 Config.kaPub.toNat
  body ++ bytesOfNat 64 (Config.identitySign body).toNat

/-- ATTESTATION_REPORT_DONE: the hub writes the report behind the request (R413). A request outside local HBM gets no
report (log 26). -/
def execAttestationReportDone (s : State) : Out :=
  if s.attBusy = false then .next s
  else
    let a := s.attReq.toNat
    let s := if inLocalHbm s (a + 64 + 263) then s.storeWhole (a + 64) (attReport (s.load a 64)) else s
    .next { s with attBusy := false, attDone := s.attDone + 1 }

/-! ### Reading (R249) -/

/-- Which of the blocks' groups an address lies in: index and offset; none outside `n` groups of `size` bytes. -/
def groupOf (base size n pa : Nat) : Option (Nat × Nat) :=
  if base ≤ pa ∧ pa < base + size * n then some ((pa - base) / size, (pa - base) % size) else none

/-- A status word of BUSY, a 3-bit result from bit `r`, and DONE. -/
def statusWord (busy : Bool) (r result : Nat) (done : BitVec 32) : Word :=
  BitVec.ofNat 64 ((if busy then 1 else 0) + result * 2 ^ r + done.toNat * 2 ^ 32)

/-- The translation control block (Tables 15-8, 21-5, 22-1): SD_STAT and PRE_STAT read, the rest is write-only. -/
def SvcRegs.read (g : SvcRegs) (off : Nat) : Word :=
  match off with
  | 0x08 => statusWord g.sdBusy 0 0 g.sdDone
  | 0x30 => statusWord g.preBusy 1 g.preResult g.preDone
  | _ => 0

/-- DBG_STAT (R424). -/
def State.dbgStat (s : State) (g : SvcRegs) : Word :=
  let stopped := match s.ctx? g.dbgCtx with
    | some c => c.stopped
    | none => false
  BitVec.ofNat 64 ((if stopped then 2 else 0) + g.dbgResult * 4 + g.dbgDone.toNat * 2 ^ 32)

/-- The domain control block (Table 24-1). -/
def State.readDomain (s : State) (off : Nat) : Word :=
  if off = 0 then BitVec.ofNat 64 Config.devno
  else if off = 0x08 then s.present.extractLsb' 0 64
  else if off = 0x10 then s.present.extractLsb' 64 64
  else if off = 0x18 then s.linksUp.setWidth 64
  else if 0x100 ≤ off ∧ off < 0x900 then
    let g := s.svcRegs ((off - 0x100) / 32)
    match (off - 0x100) % 32 with
    | 0 => g.joinId.setWidth 64
    | 8 => g.joinMask.extractLsb' 0 64
    | 16 => g.joinMask.extractLsb' 64 64
    | _ => BitVec.ofNat 64 g.joinStat
  else if 0x1000 ≤ off ∧ off < 0x1200 then assocGet s.jobs 0 ((off - 0x1000) / 8)
  else 0

/-- Port `p`. -/
def State.port (s : State) (p : Nat) : PciePort := if h : p < 8 then s.pcie[p] else PciePort.reset
/-- Replace it. -/
def State.setPcie (s : State) (p : Nat) (x : PciePort) : State := if h : p < 8 then { s with pcie := s.pcie.set p x } else s

/-- Window `w` of a port: IN_BASE, IN_LEN, IN_PA, IN_W. -/
def PciePort.window (p : PciePort) (w : Nat) : Word × Word × Word × Bool := assocGet p.windows (0, 0, 0, false) w

/-- A port block (Table 24-2). -/
def PciePort.read (p : PciePort) (off : Nat) : Word :=
  if off = 0 then BitVec.ofNat 64 (p.role % 4 + p.owner % 4 * 4 + (if p.linkUp then 16 else 0) + p.speed.toNat * 32)
  else if off = 8 then p.dropped.setWidth 64
  else if 0x100 ≤ off ∧ off < 0x900 then
    let w := p.window ((off - 0x100) / 32)
    match (off - 0x100) % 32 with
    | 0 => w.1
    | 8 => w.2.1
    | 16 => w.2.2.1
    | _ => if w.2.2.2 then 1 else 0
  else 0

/-- A share controller (Table 16-4). -/
def Share.read (x : Share) (off : Nat) : Word :=
  if off = 0 then x.pool.setWidth 64
  else if off = 8 then x.collected.setWidth 64
  else if off = 16 then x.intervals
  else if 0x100 ≤ off ∧ off < 0x300 then (assocGet x.entries 0 ((off - 0x100) / 8)).setWidth 64
  else 0

/-- Word `i` of the meter record that METER_SEL names (Table 22-7, R367). -/
def State.meterWord (s : State) (ctx : BitVec 16) (i : Nat) : Word :=
  match s.ctx? ctx with
  | none => 0
  | some c =>
    if i = 0 then BitVec.ofNat 64 (ctx.toNat + 0x10000 + 0x1000000)
    else if i = 1 then BitVec.ofNat 64 c.seq
    else if h : i - 2 < 14 then BitVec.ofNat 64 c.meter[i - 2]
    else 0

/-- The register groups of a service core that is left out read 0, and stores to them are ignored (Table 30-3). -/
def State.groupOut (s : State) (i : Nat) : Bool := s.leftOut.services.contains (i / 4)

/-- What a load of a register by a hart of this device reads (R249); an address that no block claims reads zero. -/
def State.readRegister (s : State) (mode : Mode) (h pa : Nat) : Word :=
  if pa = 0xF00000010800 then s.accNote.setWidth 64
  else match groupOf 0xF00000020000 64 64 pa with
  | some (i, off) => if s.groupOut i then 0 else (s.svcRegs i).read off
  | none => match groupOf 0xF00000030000 0x1000 4 pa with
  | some (d, off) => if h : d < 4 then s.shares[d].read off else 0
  | none => match groupOf 0xF00000040000 0x10000 1 pa with
  | some (_, off) => s.readDomain off
  | none => match groupOf 0xF00000050000 0x1000 8 pa with
  | some (p, off) => (s.port p).read off
  | none => match groupOf 0xF00000060000 8 32 pa with
  | some (i, _) => if mode = .s ∧ isCompute h = false then s.meterWord ((s.getHart h).csr.meterSel.extractLsb' 0 16) i else 0
  | none => match groupOf 0xF00000070000 16 1 pa with
  | some (_, off) => if mode = .m ∧ off = 8 then statusWord s.attBusy 0 0 s.attDone else 0
  | none => match groupOf 0xF00000080000 64 64 pa with
  | some (i, off) => if off = 0x10 ∧ s.groupOut i = false then s.dbgStat (s.svcRegs i) else 0
  | none => match groupOf 0xF00000090000 8 harts pa with
  | some (i, _) => if mode = .m ∧ s.msips.contains i = true then 1 else 0
  | none => 0

/-! ### Root-port spaces (R388) -/

/-- The root port whose ECAM or memory space an address lies in. -/
def State.rootPort (s : State) (pa : Nat) : Option Nat :=
  let p := if 0xF80000000000 ≤ pa then some ((pa - 0xF80000000000) / 0x10000000000)
    else if 0xF40000000000 ≤ pa ∧ pa < 0xF40080000000 then some ((pa - 0xF40000000000) / 0x10000000)
    else none
  p.filter (fun p => (s.port p).role == 1)

/-! ### Writing (R249) -/

/-- A store to the translation control block. -/
def State.writeGroup (s : State) (h off : Nat) (v : Word) : State :=
  let g := s.svcRegs h
  match off with
  | 0x00 => s.storeSdReq h v
  | 0x10 => s.setSvc h { g with fnTarget := v &&& 0x0000FFFFFFFFFFFF }
  | 0x18 => s.storeFnPost h v
  | 0x20 => s.storePreReq h v
  | 0x28 => s.setSvc h { g with preMask := v }
  | 0x38 => s.storeScReply h v
  | _ => s

/-- A store to the domain control block by the accelerator kernel. -/
def State.writeDomain (s : State) (off : Nat) (v : Word) : State :=
  if 0x100 ≤ off ∧ off < 0x900 then
    let h := (off - 0x100) / 32
    let g := s.svcRegs h
    match (off - 0x100) % 32 with
    | 0 => s.setSvc h { g with joinId := v.setWidth 32 }
    | 8 => s.setSvc h { g with joinMask := (g.joinMask.extractLsb' 64 64) ++ v }
    | 16 => s.setSvc h { g with joinMask := v ++ (g.joinMask.extractLsb' 0 64) }
    | _ => s
  else if 0x1000 ≤ off ∧ off < 0x1200 then { s with jobs := assocSet s.jobs ((off - 0x1000) / 8) (v &&& 0x1FFFFFFFFFFFF) }
  else s

/-- A store to a port block's windows by the port's OWNER. -/
def State.writePort (s : State) (p off : Nat) (owner : Nat) (v : Word) : State :=
  let x := s.port p
  if x.owner ≠ owner ∨ off < 0x100 ∨ 0x900 ≤ off then s
  else
    let i := (off - 0x100) / 32
    let w := x.window i
    let w := match (off - 0x100) % 32 with
      | 0 => (v &&& ~~~0xFFF#64, w.2.1, w.2.2.1, w.2.2.2)
      | 8 => (w.1, v &&& ~~~0xFFF#64, w.2.2.1, w.2.2.2)
      | 16 => (w.1, w.2.1, v &&& 0x0000FFFFFFFFF000, w.2.2.2)
      | _ => (w.1, w.2.1, w.2.2.1, v.getLsbD 0)
    s.setPcie p { x with windows := assocSet x.windows i w }

/-- A store to a share controller by management (R282). -/
def Share.write (x : Share) (off : Nat) (v : Word) : Share :=
  if off = 0 then { x with pool := v.setWidth 16 }
  else if 0x100 ≤ off ∧ off < 0x300 then { x with entries := assocSet x.entries ((off - 0x100) / 8) (v.setWidth 33) }
  else x

/-- A store by a hart of this device. -/
def State.writeByHart (s : State) (mode : Mode) (by_ pa : Nat) (v : Word) : State :=
  if pa = 0xF00000010800 then { s with accNote := v.setWidth 6 }
  else match groupOf 0xF00000020000 64 64 pa with
  | some (i, off) => if s.groupOut i then s else s.writeGroup i off v
  | none => match groupOf 0xF00000040000 0x10000 1 pa with
  | some (_, off) => s.writeDomain off v
  | none => match groupOf 0xF00000050000 0x1000 8 pa with
  | some (p, off) => s.writePort p off 2 v
  | none => match groupOf 0xF00000080000 64 64 pa with
  | some (i, 0x00) => if s.groupOut i then s else s.storeDbgReq i v
  | some (i, 0x08) => if s.groupOut i then s else s.setSvc i { s.svcRegs i with dbgArg := v }
  | some _ => s
  | none => match groupOf 0xF00000090000 8 harts pa with
  | some (i, _) => s.storeSoft mode by_ i v
  | none =>
    if pa = 0xF00000070000 ∧ mode = .m then s.storeAttReq v
    else match s.rootPort pa with
      | some p => if (s.port p).linkUp then s else s.setPcie p { s.port p with dropped := (s.port p).dropped + 1 }
      | none => s

/-- A store by a host core (R376, R387, R388). -/
def State.writeByHost (s : State) (pa : Nat) (v : Word) : State :=
  match groupOf 0xF00000010000 64 32 pa with
  | some (c, 0x00) => s.setPort c { s.portGroup c with batch := v &&& 0x0000FFFFFFFFFFF0 }
  | some (c, 0x08) => s.storeRpGo c v
  | some _ => s
  | none =>
    if pa = 0xF00000010808 then { s with hostNring := v &&& 0x003FFFFFFFFFFFCF }
    else match groupOf 0xF00000050000 0x1000 8 pa with
      | some (p, off) => s.writePort p off 1 v
      | none => match s.rootPort pa with
        | some p => if (s.port p).linkUp then s else s.setPcie p { s.port p with dropped := (s.port p).dropped + 1 }
        | none => s

/-- The interval that a controller counts from: while it is disabled, the present one (R284). -/
def State.shareInterval (s : State) (x : Share) : Nat := if x.pool = 0 then s.clock / 1024 else x.interval

/-- A store by management (R282). -/
def State.writeByManagement (s : State) (pa : Nat) (v : Word) : State :=
  match groupOf 0xF00000030000 0x1000 4 pa with
  | some (d, off) =>
    if h : d < 4 then { s with shares := s.shares.set d { s.shares[d].write off v with interval := s.shareInterval s.shares[d] } } else s
  | none => s

/-- A store to a register of this device by an agent (R249). -/
def State.writeRegister (s : State) (who : Agent) (pa size : Nat) (v : Word) : State :=
  if mmioSize pa size = false then s
  else match who with
    | .hart mode h => s.writeByHart mode h pa v
    | .hostCore _ => s.writeByHost pa v
    | .management => s.writeByManagement pa v
    | .peer => s

/-- A store or an AMO of a host core at a location of local HBM or of the blanket that the record gives the host kernel: performed at its
home as a strong access of system scope (R167, R368, R371). A host fence finds nothing to publish. DESIGN CHOICE (log 38). -/
def State.hostStore (s : State) (pa size : Nat) (v : Word) : State :=
  let may : Bool := match frameRights s (kernelCode .host) (frameOf pa) true with
    | .ok r => r != 1
    | .error _ => false
  if ([1, 2, 4, 8] : List Nat).contains size && pa % size == 0 && !entSealed (s.entry (frameOf pa)) && may && s.answers pa then (s.recallLine none pa).storeWhole pa (lowBytes size v) else s

/-- REGISTER_WRITE (R249); of a host core also what it writes in memory (R167). -/
def execRegisterWrite (who : Agent) (pa : BitVec 48) (size : Nat) (v : Word) (s : State) : Out :=
  .next (match who with
    | .hostCore _ => if inLocalHbm s (normPa pa.toNat) || inBlanket pa.toNat then s.hostStore (normPa pa.toNat) size v else s.writeRegister who pa.toNat size v
    | _ => s.writeRegister who pa.toNat size v)

/-- RKCTL_GO: hart `h` writes RKCTL.GO for the context its RKCTL holds (R410). -/
def execRkctlGo (h : Nat) (s : State) : Out :=
  let back := s.hid
  let s := s.focus h
  .next ((s.startRotation (s.hart.csr.rkctl.extractLsb' 0 16)).focus back)

end Sys2Proof.Machine
end

