-- ==== Sys2Proof/Machine/Queue.lean ====
section
/-! DEFINITION. Core queues and messages: `recv`, `peek`, `wait`, `qmake`, `qdrop`, `send`, `rput` (R180 to R183, R238,
R239), allowances (R240, R241), arriving entries (R242) and the mesh streams of protected contexts (R407, R408). -/

namespace Sys2Proof.Machine

/-! ### Reading a queue (R180 to R182) -/

/-- The hart in focus may not read queue `n` (R180). -/
def State.queueBarred (s : State) (n : Nat) : Bool :=
  if n < 4 then (match s.ownParty with
    | some p => !p.slots.contains n
    | none => false)
  else (match s.ownParty with
    | some p => ((s.core p.core).queue n).owner != some p.id
    | none => true)

/-- Queue `n` of the own core is empty. -/
def State.queueEmpty (s : State) (n : Nat) : Bool := ((s.core s.ownCore).queue n).length n == 0

/-- A read of the head entry of a queue; `remove` pops it. While harts that began to wait before it have yet to take the entries there
are, the hart waits behind them (R180). Dequeuing a completion acquires the command's writes for the core (R166). -/
def State.takeHead (s : State) (vd : VReg) (q : BitVec 5) (remove : Bool) : Out :=
  let n := q.toNat
  if s.queueBarred n then s.trapOut 35 (BitVec.ofNat 64 n)
  else match s.vheld [vd] with
    | some (c, v) => s.trapOut c v
    | none =>
      if s.queueEmpty n || (remove && decide (((s.core s.ownCore).queue n).length n ≤ s.takersBefore s.hid (s.hart.waitTime s.choices) n)) then
        s.block (.queues (BitVec.ofNat 8 (2 ^ n)) remove)
      else
        let e := s.headEntry s.ownCore n
        let s := s.withHart (fun h => h.setV vd ⟨e, .raw⟩)
        let s := if remove && n < 4 && entryType e == 0 then s.openHarts ((List.range 4).map (fun j => 4 * s.ownCore + j)) else s
        .next ((if remove then s.pop s.ownCore n else s).advance)

/-- `recv` (R180). -/
def execRecv (vd : VReg) (q : BitVec 5) (s : State) : Out := s.takeHead vd q true

/-- `peek` (R180). -/
def execPeek (vd : VReg) (q : BitVec 5) (s : State) : Out := s.takeHead vd q false

/-- `wait` (R181). -/
def execWait (rd rs1 : Reg) (s : State) : Out :=
  let mask := (s.x rs1).setWidth 8
  let named := (List.range 8).filter (fun n => mask.getLsbD n)
  if named.isEmpty then s.trapOut 35 8
  else match named.find? s.queueBarred with
    | some n => s.trapOut 35 (BitVec.ofNat 64 n)
    | none => match named.find? (fun n => !s.queueEmpty n) with
      | none => s.block (.queues mask false)
      | some n => (s.withCsr (fun c => { c with lastq := BitVec.ofNat 64 n })).writeRd rd (BitVec.ofNat 64 n)

/-! ### Making and dropping a queue (R238) -/

/-- The first of the `n` bytes at an address outside the held extents of the own party's window. -/
def State.unheldByte (s : State) (a n : Nat) : Option Nat :=
  let held := match s.ownParty with
    | some p => p.spad.length * extentBytes
    | none => 0
  if a < windowBase ∨ windowBase + held ≤ a then some a
  else if windowBase + held < a + n then some (windowBase + held) else none

/-- A range meets a ring of the own party. -/
def State.ringMeets (s : State) (a n : Nat) : Bool :=
  match s.ownParty with
  | none => false
  | some p => ([4, 5, 6, 7] : List Nat).any (fun i =>
      let q := (s.core p.core).queue i
      q.owner == some p.id && decide (q.base < a + n) && decide (a < q.base + 64 * q.cap))

/-- `qmake` (R238). -/
def execQmake (q : BitVec 5) (rs1 rs2 : Reg) (s : State) : Out :=
  let n := q.toNat
  let b := (s.x rs1).toNat
  let c := (s.x rs2).toNat
  if s.mode ≠ .u then s.illegal (.qmake q rs1 rs2)
  else if ((s.core s.ownCore).queue n).owner.isSome then s.trapOut 35 (BitVec.ofNat 64 n)
  else if c = 0 ∨ 4096 < c ∨ b % 64 ≠ 0 then s.trapOut 35 (BitVec.ofNat 64 n)
  else match s.unheldByte b (64 * c) with
    | some a => s.trapOut 27 (BitVec.ofNat 64 a)
    | none =>
      if s.ringMeets b (64 * c) then s.trapOut 35 (BitVec.ofNat 64 n)
      else
        let s := s.mapQueue s.ownCore n (fun q => { q with
          owner := s.hart.party, base := b, cap := c, head := 0, count := 0, entries := [], granted := 0, closing := false })
        .next ((s.serveRequests s.ownCore n).advance)

/-- `qdrop`: it waits for the outstanding allowances (R238). -/
def execQdrop (q : BitVec 5) (s : State) : Out :=
  let n := q.toNat
  let x := (s.core s.ownCore).queue n
  if s.mode ≠ .u then s.illegal (.qdrop q)
  else if s.queueBarred n ∨ n < 4 then s.trapOut 35 (BitVec.ofNat 64 n)
  else if x.granted ≠ 0 then
    let s := s.mapQueue s.ownCore n (fun q => { q with closing := true })
    (if x.closing then s else s.raise (.allowanceReclaim s.ownCore n)).block (.reclaim n)
  else .next (s.mapQueue s.ownCore n (fun q => { Queue.empty with requests := q.requests })).advance

/-! ### Mesh streams (R407, R408) -/

/-- The key under which a context's messages go: the PENDING one once it is programmed (R408). -/
def State.meshKey (s : State) (ctx : BitVec 16) : Option KeySlot :=
  match s.keys.find? (fun k => k.kind == .context ctx && k.pending) with
  | some k => some k
  | none => s.keys.find? (fun k => k.kind == .context ctx)

/-- A message of a core leaves under its context's key: the stream's counter advances, and its limits raise their events. -/
def State.sealMessage (s : State) (core : Nat) : State :=
  let e := (s.core core).encl
  if e.getLsbD 16 = false then s
  else match s.meshKey (e.extractLsb' 0 16) with
    | none => s
    | some k =>
      let n := assocGet k.streams 0 core + 1
      let s : State := { s with keys := s.keys.map (fun (o : KeySlot) => if o.slot = k.slot then { o with streams := assocSet o.streams core n } else o) }
      if k.pending then s
      else if n = 2 ^ 38 then s.raise (.rotationRequest core)
      else if n = 2 ^ 39 then s.raise (.streamStop core)
      else s

/-- ROTATION_REQUEST: interrupt 11 becomes pending at hart 0 of the interface's core (R408). -/
def execRotationRequest (core : Nat) (s : State) : Out :=
  let x := s.getHart (4 * core)
  .next (s.setHart (4 * core) { x with csr := { x.csr with meip := true } })

/-- STREAM_STOP: without a PENDING key the stream stops sending (R408). -/
def execStreamStop (core : Nat) (s : State) : Out :=
  let ctx := (s.core core).encl.extractLsb' 0 16
  .next (if s.keys.any (fun k => k.kind == .context ctx && k.pending) then s
    else s.setCore core { s.core core with meshStopped := true })

/-! ### Allowances (R240, R241) -/

/-- Unused allowances of a core's interface for (target core, queue). -/
def Core.unused (c : Core) (dst q : Nat) : Nat :=
  match c.allowances.find? (fun a => a.1 == dst && a.2.1 == q) with
  | some a => a.2.2
  | none => 0

/-- The entry of a pair removed. -/
def Core.dropPair (c : Core) (dst q : Nat) : Core := { c with allowances := c.allowances.filter (fun a => !(a.1 == dst && a.2.1 == q)) }

/-- The entry of a pair written, as the most recently used. -/
def Core.setUnused (c : Core) (dst q n : Nat) : Core := { c.dropPair dst q with allowances := (dst, q, n) :: (c.dropPair dst q).allowances }

/-- The place of a rank of another device of a joined launch, as this device's interfaces name it: no core here (R386). -/
def farCore (k : Nat) : Nat := 0x10000 + k / 4
/-- A core of another device. -/
def isFarCore (dst : Nat) : Bool := 0x10000 ≤ dst

/-- Allowances of a queue come back, where it now is. -/
def State.giveBack (s : State) (dst q n : Nat) : State :=
  if isFarCore dst then s else s.mapQueueAt dst q (fun x => { x with granted := x.granted - n })

/-- ALLOWANCE_REQUEST: granted at once where possible, else held in arrival order (R240). What a core of another device grants is free
(R386; log 24). -/
def execAllowanceRequest (src dst q : Nat) (s : State) : Out :=
  .next (if isFarCore dst then
      ({ s with choices := s.choices + 1 } : State).raise (.allowanceGrant src dst q (1 + (Config.freeWord s.choices).toNat % 8))
    else s.mapQueueAt dst q (fun x => { x with requests := x.requests ++ [src] }))

/-- ALLOWANCE_GRANT: the interface's entry grows; a 65th pair sends the least recently used one back (R241). -/
def execAllowanceGrant (src dst q n : Nat) (s : State) : Out :=
  let c := s.core src
  let others := (c.dropPair dst q).allowances
  let s := s.setCore src (c.setUnused dst q (c.unused dst q + n))
  .next (match others.getLast? with
    | some a => if 64 ≤ others.length then s.raise (.allowanceReturn src a.1 a.2.1) else s
    | none => s)

/-- ALLOWANCE_RETURN: the unused allowances of a pair go back to their target (R241). -/
def execAllowanceReturn (src dst q : Nat) (s : State) : Out :=
  let c := s.core src
  .next ((s.setCore src (c.dropPair dst q)).giveBack dst q (c.unused dst q))

/-- ALLOWANCE_RECLAIM: every outstanding allowance of a queue comes back (R241). -/
def execAllowanceReclaim (dst q : Nat) (s : State) : Out :=
  let n := (s.cores.map (fun c => c.2.unused dst q)).sum
  let s := { s with cores := s.cores.map (fun (c : Nat × Core) => (c.1, c.2.dropPair dst q)) }
  .next (s.giveBack dst q n)

/-! ### Sending (R183, R239) -/

/-- Ask a target for allowances, once, and wait. -/
def State.askAllowance (s : State) (dst q : Nat) : Out :=
  let coming (e : Instr) : Bool := match e with
    | .allowanceRequest c d n => c == s.ownCore && d == dst && n == q
    | .allowanceGrant c d n _ => c == s.ownCore && d == dst && n == q
    | _ => false
  let asked := (s.queueAt dst q).requests.contains s.ownCore || s.events.any coming
  (if asked then s else s.raise (.allowanceRequest s.ownCore dst q)).block (.allowance dst q)

/-- A message leaves the own core: its allowance is used and it is counted; one for another device is counted there (R153, R154, R240). -/
def State.useAllowance (s : State) (l : Launch) (dst q : Nat) : State :=
  let c := s.core s.ownCore
  let s := s.setCore s.ownCore { c.setUnused dst q (c.unused dst q - 1) with sent := c.sent + 1 }
  (s.mapLaunch l.id (fun l => { l with sent := if isFarCore dst then l.sent else l.sent + 1 })).sealMessage s.ownCore

/-- The allowance for a pair is held and the stream sends. -/
def State.maySend (s : State) (dst q : Nat) : Bool := (s.core s.ownCore).unused dst q != 0 && !(s.core s.ownCore).meshStopped

/-- The message of `send`: TYPE, STATUS and SOURCE are stamped (R183). -/
def rankMessage (rank : Word) (v : VBits) : VBits :=
  let m := bitsNat v 0 256
  let keep := m / 2 ^ 32 % 2 ^ 16 * 2 ^ 32 + m / 2 ^ 64 * 2 ^ 64
  BitVec.ofNat 512 (keep + 2 + bitsNat rank 16 16 * 2 ^ 16 + bitsNat rank 0 16 * 2 ^ 48)

/-- The number of ranks of the hart's launch, those of other devices of a join among them; 0 outside a launch (R386). -/
def State.rankCount (s : State) : Nat :=
  match s.ownLaunch with
  | some l => if l.far then l.ranks + Config.farRanks l.id % 0x80000 else l.ranks
  | none => 0

/-- The core and the hart slot at rank `k` of the own launch; ranks of other devices follow those of this one (R386; log 12). -/
def State.rankPlace (s : State) (k : Nat) : Nat × Nat :=
  match s.ownLaunch.bind (fun l => l.hartOf k) with
  | some h => (coreOf h, slotOf h)
  | none => (farCore k, k % 4)

/-- Checks of `send` and `rput`: the rank, then the register (R183, R239). -/
def State.sendCheck (s : State) (k : Nat) (vs : VReg) : Option (Nat × Word) :=
  if s.rankCount ≤ k then some (35, BitVec.ofNat 64 k)
  else match s.vheld [vs] with
    | some t => some t
    | none => s.vearly [⟨vs, none⟩]

/-- `send` (R183). -/
def execSend (rs1 : Reg) (vs : VReg) (s : State) : Out :=
  let k := bitsNat (s.x rs1) 0 32
  match s.sendCheck k vs, s.ownLaunch with
  | some (c, v), _ => s.trapOut c v
  | none, none => s.trapOut 35 (BitVec.ofNat 64 k)
  | none, some l =>
    let (dst, q) := s.rankPlace k
    if s.maySend dst q then
      let m := rankMessage s.hart.csr.rank (s.hart.readV vs).bits
      let s := s.useAllowance l dst q
      .next ((if isFarCore dst then s else s.raise (.queueEntryArrival dst q m .message)).advance)
    else s.askAllowance dst q

/-- `rput`: appended on arrival, or at the exchange in a BSP launch (R239). -/
def execRput (q : BitVec 5) (rs1 : Reg) (vs : VReg) (s : State) : Out :=
  let k := bitsNat (s.x rs1) 0 32
  let n := q.toNat
  if s.mode ≠ .u then s.illegal (.rput q rs1 vs)
  else match s.sendCheck k vs, s.ownLaunch with
  | some (c, v), _ => s.trapOut c v
  | none, none => s.trapOut 35 (BitVec.ofNat 64 k)
  | none, some l =>
    let dst := (s.rankPlace k).1
    if s.maySend dst n then
      let e := (s.hart.readV vs).bits
      let s := s.useAllowance l dst n
      .next ((if isFarCore dst then s else if l.flags.getLsbD 0 then s.mapLaunch l.id (fun l => { l with appends := l.appends ++ [(s.hid, dst, n, e)] })
        else s.raise (.queueEntryArrival dst n e .message)).advance)
    else s.askAllowance dst n

/-! ### Arrival (R237, R242, R407) -/

/-- The launch that runs on a core. -/
def State.coreLaunch (s : State) (core : Nat) : Option Launch :=
  s.launches.find? (fun l => l.ended.isNone && l.clusters.contains (clusterOfCore core))

/-- QUEUE_ENTRY_ARRIVAL: a message under its allowance, a hardware entry through the rank table, or a message whose tag
check failed, which kills its context (R237, R242, R407). -/
def execQueueEntryArrival (core q : Nat) (e : VBits) (kind : ArrivalKind) (s : State) : Out :=
  .next (match kind with
    | .message =>
      let s := s.appendGranted core q e
      (match s.coreLaunch core with
        | some l => s.countReceived l.id core
        | none => s)
    | .hardware =>
      (match s.coreLaunch core with
        | some l => (match l.rankOf (4 * core + q) with
          | some r => s.toRank l.id r e
          | none => s.arrive core q e)
        | none => s.arrive core q e)
    | .tagFailure ctx => s.killContext ctx .killed)

end Sys2Proof.Machine
end

