-- ==== Sys2Proof/Machine/LoadStore.lean ====
section
/-! DEFINITION. Scalar loads and stores (R66 to R68), the AMOs (R69, R70) and strong loads and stores (R173 to R175). -/

namespace Sys2Proof.Machine

/-- A place whose loads are remote: another device's memory, or the blanket window (R175, R383). -/
def Place.isFar (p : Place) : Bool := !p.window && (isRemote p.key || inBlanket p.key)

/-- The load just issued may be performed later than it stands (R159). DESIGN CHOICE (log 4): never one of local memory. -/
def State.markLate (s : State) (rd : Reg) (p : Place) (n : Nat) (signed : Bool) : State :=
  if rd = 0 ∨ p.window = true then s else { s with hart := { s.hart with late := some (rd, p, n, signed) } }

/-- A load of `n` bytes at an address: the checks of Table 04-7, then a register of the MMIO range, a wait for a root
port's completion (R388) or for the value of a remote load (R383), or memory as the hart sees it (R66). -/
def State.loadAt (s : State) (rd : Reg) (a : Word) (n : Nat) (signed : Bool) : Out :=
  match check s .load a n false with
  | (s, .error c) => s.trapOut c a
  | (s, .ok p) =>
    if p.mmio then
      match s.rootPort p.key with
      | some _ => s.block (.pcie rd a n signed)
      | none => s.writeRd rd (extend signed (lowBytes n (s.readRegister s.mode s.hid p.key)))
    else if p.isFar then s.block (.remote rd p n signed none)
    else .next ((s.setX rd (extend signed (s.readPlace p n))).advance.markLate rd p n signed)

/-- A store of the low `n` bytes of a word at an address (R66). -/
def State.storeAt (s : State) (a : Word) (n : Nat) (w : Word) : Out :=
  match check s .store a n false with
  | (s, .error c) => s.trapOut c a
  | (s, .ok p) =>
    .next ((if p.mmio then s.writeRegister (.hart s.mode s.hid) p.key n (BitVec.ofNat 64 (natOfBytes (lowBytes n w)))
      else (s.writeWeak p (lowBytes n w)).chargeBlanket p n).advance)

/-- `lb` (R66). -/
def execLb (rd rs1 : Reg) (imm : BitVec 12) (s : State) : Out := s.loadAt rd (s.addr rs1 imm) 1 true

/-- `lh` (R66). -/
def execLh (rd rs1 : Reg) (imm : BitVec 12) (s : State) : Out := s.loadAt rd (s.addr rs1 imm) 2 true

/-- `lw` (R66). -/
def execLw (rd rs1 : Reg) (imm : BitVec 12) (s : State) : Out := s.loadAt rd (s.addr rs1 imm) 4 true

/-- `ld` (R66). -/
def execLd (rd rs1 : Reg) (imm : BitVec 12) (s : State) : Out := s.loadAt rd (s.addr rs1 imm) 8 true

/-- `lbu` (R66). -/
def execLbu (rd rs1 : Reg) (imm : BitVec 12) (s : State) : Out := s.loadAt rd (s.addr rs1 imm) 1 false

/-- `lhu` (R66). -/
def execLhu (rd rs1 : Reg) (imm : BitVec 12) (s : State) : Out := s.loadAt rd (s.addr rs1 imm) 2 false

/-- `lwu` (R66). -/
def execLwu (rd rs1 : Reg) (imm : BitVec 12) (s : State) : Out := s.loadAt rd (s.addr rs1 imm) 4 false

/-- `sb` (R66). -/
def execSb (rs1 rs2 : Reg) (imm : BitVec 12) (s : State) : Out := s.storeAt (s.addr rs1 imm) 1 (s.x rs2)

/-- `sh` (R66). -/
def execSh (rs1 rs2 : Reg) (imm : BitVec 12) (s : State) : Out := s.storeAt (s.addr rs1 imm) 2 (s.x rs2)

/-- `sw` (R66). -/
def execSw (rs1 rs2 : Reg) (imm : BitVec 12) (s : State) : Out := s.storeAt (s.addr rs1 imm) 4 (s.x rs2)

/-- `sd` (R66). -/
def execSd (rs1 rs2 : Reg) (imm : BitVec 12) (s : State) : Out := s.storeAt (s.addr rs1 imm) 8 (s.x rs2)

/-! ### Loads performed late (R159, R170) -/

/-- The weak load last issued may be performed only now, behind the stores issued since (R159, R170). Whether it is is free.
DESIGN CHOICE (log 4). -/
def State.maybeLate (s : State) : State :=
  match s.hart.late with
  | none => s
  | some (rd, p, n, signed) =>
    if Config.lateNow s.choices then
      ({ s with hart := { s.hart with late := none } } : State).setX rd (extend signed (s.readPlace p n))
    else s

/-- Two ranges of bytes meet in the low 12 bits of their addresses, which translation does not change. -/
def pageMeets (a n b m : Nat) : Bool :=
  (List.range n).any (fun i => (List.range m).any (fun j => (a + i) % 4096 == (b + j) % 4096))

/-- Whether the weak load last issued may still be performed behind an instruction: a scalar store that does not use its result and
does not reach its bytes (R66, R159). DESIGN CHOICE (log 4): behind nothing else. -/
def keepsLate (s : State) (i : Instr) : Bool :=
  match s.hart.late with
  | none => false
  | some (rd, p, n, _) =>
    let apart (rs1 rs2 : Reg) (imm : BitVec 12) (m : Nat) : Bool :=
      rs1 != rd && rs2 != rd && !pageMeets (s.x rs1 + imm.signExtend 64).toNat m p.key n
    match i with
    | .sb rs1 rs2 imm => apart rs1 rs2 imm 1
    | .sh rs1 rs2 imm => apart rs1 rs2 imm 2
    | .sw rs1 rs2 imm => apart rs1 rs2 imm 4
    | .sd rs1 rs2 imm => apart rs1 rs2 imm 8
    | _ => false

/-! ### Root-port loads (R388) -/

/-- A trap taken by hart `h`, whichever hart is in focus. -/
def State.trapHart (s : State) (h c : Nat) (tval : Word) : State := ((s.focus h).trap c tval).focus s.hid

/-- PCIE_LOAD_COMPLETION: the value, or an Unsupported Request or Completer Abort, which is cause 5 (R388). -/
def execPcieLoadCompletion (h : Nat) (value : Option Word) (s : State) : Out :=
  match (s.getHart h).blocked, value with
  | some (.pcie rd _ n signed), some w => .next (s.finishWait h rd (extend signed (lowBytes n w)))
  | some (.pcie _ a _ _), none => .next (s.trapHart h 5 a)
  | _, _ => .next s

/-- PCIE_LOAD_TIMEOUT: no completion within 50 ms is cause 5 (R388; log 16). -/
def execPcieLoadTimeout (h : Nat) (s : State) : Out :=
  match (s.getHart h).blocked with
  | some (.pcie _ a _ _) => .next (({ s with clock := s.clock + 150000000 } : State).trapHart h 5 a)
  | _ => .next s

/-! ### Strong accesses (R157, R164, R173) -/

/-- The hart's SHIPs that are not yet performed, which a strong access waits for (R324). -/
def State.shipsOut (s : State) : Bool := s.hart.ships.any Option.isNone

/-- The cell being purged that a place lies in: a store or an AMO to it waits at the home (R197). -/
def State.heldCell? (s : State) (p : Place) : Option Nat :=
  if p.window then none else s.purging.find? (fun c => c == p.key / 16 * 16)

/-- A strong load: the hart's pending stores to the line go first, then the value at its home, for which it waits where that is remote
(R173, R175). -/
def State.strongLoad (s : State) (near : Bool) (rd : Reg) (a : Word) (n : Nat) : Out :=
  match check s .strongLoad a n false with
  | (s, .error c) => s.trapOut c a
  | (s, .ok p) =>
    if s.shipsOut then s.block .ships
    else if p.isFar then s.block (.remote rd p n true (some near))
    else
      let s := s.atHome near p n
      s.writeRd rd (extend true (s.readHome near p n))

/-- A strong store (R173). -/
def State.strongStore (s : State) (near : Bool) (a : Word) (n : Nat) (w : Word) : Out :=
  match check s .strongStore a n false with
  | (s, .error c) => s.trapOut c a
  | (s, .ok p) =>
    if s.shipsOut then s.block .ships
    else match s.heldCell? p with
      | some c => s.block (.purge c)
      | none => .next ((s.writeStrong near p (lowBytes n w)).chargeBlanket p n).advance

/-- `ld.s` (R173). -/
def execLdS (rd rs1 : Reg) (imm : BitVec 10) (sc : Scope) (s : State) : Out := s.strongLoad (nearScope sc) rd (s.x rs1 + sext imm) 8

/-- `lw.s` (R173). -/
def execLwS (rd rs1 : Reg) (imm : BitVec 10) (sc : Scope) (s : State) : Out := s.strongLoad (nearScope sc) rd (s.x rs1 + sext imm) 4

/-- `sd.s` (R173). -/
def execSdS (rs1 rs2 : Reg) (imm : BitVec 10) (sc : Scope) (s : State) : Out :=
  s.strongStore (nearScope sc) (s.x rs1 + sext imm) 8 (s.x rs2)

/-- `sw.s` (R173). -/
def execSwS (rs1 rs2 : Reg) (imm : BitVec 10) (sc : Scope) (s : State) : Out :=
  s.strongStore (nearScope sc) (s.x rs1 + sext imm) 4 (s.x rs2)

/-! ### The values of remote loads (R175, R354, R383) -/

/-- A location that a remote load names can be reached: its device is present (R384). -/
def State.reaches (s : State) (p : Place) : Bool := !inDomain p.key || s.present.getLsbD (domainDev p.key)

/-- Hart `h`, in focus, gets the value of the remote load that it waits for: a weak one as the hart sees memory, a strong one at its
home. -/
def State.remoteValue (s : State) (rd : Reg) (p : Place) (n : Nat) (signed : Bool) : Option Bool → State
  | none => ({ s with hart := s.hart.finishWait rd (extend signed (s.readPlace p n)) } : State).chargeBlanket p n
  | some near =>
    let s := s.atHome near p n
    ({ s with hart := s.hart.finishWait rd (extend signed (s.readHome near p n)) } : State).chargeBlanket p n

/-- The value of a remote load arrives at a hart. -/
def State.remoteArrival (s : State) (h : Nat) : State :=
  match (s.getHart h).blocked with
  | some (.remote rd p n signed strong) => if s.reaches p then ((s.focus h).remoteValue rd p n signed strong).focus s.hid else s
  | _ => s

/-- The value of a remote load is written into a saved hart, whose stores and copies are gone: the load is performed at its site
(R175, R354). -/
def Hart.remoteSaved (s : State) (x : Hart) : Hart :=
  match x.blocked with
  | some (.remote rd p n signed _) => if s.reaches p then x.finishWait rd (extend signed (decoded s p p.key n)) else x
  | _ => x

/-- A saved hart of a party waits for the value of a remote load. -/
def waitsRemote (x : Hart) : Option (Place × Nat) :=
  match x.blocked with
  | some (.remote _ p n _ _) => some (p, n)
  | _ => none

/-- The values for the saved harts of a party arrive. -/
def State.remoteSaved (s : State) (party : Nat) : State :=
  match s.party? party with
  | none => s
  | some p =>
    let moved := ((p.savedHarts.filterMap (fun e => waitsRemote e.2)).filter (fun e => inBlanket e.1.key)).map (·.2)
    (s.mapParty party (fun p => { p with savedHarts := p.savedHarts.map (fun e => (e.1, e.2.remoteSaved s)) })).charge p.ctx 7 moved.sum

/-! ### Atomic memory operations (R69, R70) -/

/-- SCOPE.S names core or group scope (R70). -/
def State.scopeNear (s : State) : Bool := !s.hart.csr.scope.getLsbD 1

/-- An AMO of `8 n` bits at the scope in SCOPE: checked, closed under rl, performed at the home, opened under aq. -/
def State.amo (n : Nat) (rd rs1 rs2 : Reg) (aq rl : Bool) (op : BitVec (8 * n) → BitVec (8 * n) → BitVec (8 * n)) (s : State) : Out :=
  let a := s.x rs1
  let near := s.scopeNear
  match check s .amo a n false with
  | (s, .error c) => s.trapOut c a
  | (s, .ok p) =>
    if s.shipsOut then s.block .ships
    else match s.heldCell? p with
      | some c => s.block (.purge c)
      | none =>
        let go (s : State) : Out :=
          let s := s.atHome near p n
          let t := BitVec.ofNat (8 * n) (natOfBytes (s.readHome near p n))
          let r := op t ((s.x rs2).setWidth (8 * n))
          let s := (s.writeStrong near p (bytesOfNat n r.toNat)).chargeBlanket p n
          (if aq then s.openAt near else s).writeRd rd (t.signExtend 64)
        if rl then s.publishThenAt near go else go s

/-- `amoswap.w` (Table 04-8). -/
def execAmoswapW (rd rs1 rs2 : Reg) (aq rl : Bool) (s : State) : Out := s.amo 4 rd rs1 rs2 aq rl (fun _ b => b)

/-- `amoadd.w` (Table 04-8). -/
def execAmoaddW (rd rs1 rs2 : Reg) (aq rl : Bool) (s : State) : Out := s.amo 4 rd rs1 rs2 aq rl (fun t b => t + b)

/-- `amoxor.w` (Table 04-8). -/
def execAmoxorW (rd rs1 rs2 : Reg) (aq rl : Bool) (s : State) : Out := s.amo 4 rd rs1 rs2 aq rl (fun t b => t ^^^ b)

/-- `amoand.w` (Table 04-8). -/
def execAmoandW (rd rs1 rs2 : Reg) (aq rl : Bool) (s : State) : Out := s.amo 4 rd rs1 rs2 aq rl (fun t b => t &&& b)

/-- `amoor.w` (Table 04-8). -/
def execAmoorW (rd rs1 rs2 : Reg) (aq rl : Bool) (s : State) : Out := s.amo 4 rd rs1 rs2 aq rl (fun t b => t ||| b)

/-- `amomin.w` (Table 04-8). -/
def execAmominW (rd rs1 rs2 : Reg) (aq rl : Bool) (s : State) : Out := s.amo 4 rd rs1 rs2 aq rl (fun t b => if b.slt t then b else t)

/-- `amomax.w` (Table 04-8). -/
def execAmomaxW (rd rs1 rs2 : Reg) (aq rl : Bool) (s : State) : Out := s.amo 4 rd rs1 rs2 aq rl (fun t b => if t.slt b then b else t)

/-- `amominu.w` (Table 04-8). -/
def execAmominuW (rd rs1 rs2 : Reg) (aq rl : Bool) (s : State) : Out := s.amo 4 rd rs1 rs2 aq rl (fun t b => if b.ult t then b else t)

/-- `amomaxu.w` (Table 04-8). -/
def execAmomaxuW (rd rs1 rs2 : Reg) (aq rl : Bool) (s : State) : Out := s.amo 4 rd rs1 rs2 aq rl (fun t b => if t.ult b then b else t)

/-- `amoswap.d` (Table 04-8). -/
def execAmoswapD (rd rs1 rs2 : Reg) (aq rl : Bool) (s : State) : Out := s.amo 8 rd rs1 rs2 aq rl (fun _ b => b)

/-- `amoadd.d` (Table 04-8). -/
def execAmoaddD (rd rs1 rs2 : Reg) (aq rl : Bool) (s : State) : Out := s.amo 8 rd rs1 rs2 aq rl (fun t b => t + b)

/-- `amoxor.d` (Table 04-8). -/
def execAmoxorD (rd rs1 rs2 : Reg) (aq rl : Bool) (s : State) : Out := s.amo 8 rd rs1 rs2 aq rl (fun t b => t ^^^ b)

/-- `amoand.d` (Table 04-8). -/
def execAmoandD (rd rs1 rs2 : Reg) (aq rl : Bool) (s : State) : Out := s.amo 8 rd rs1 rs2 aq rl (fun t b => t &&& b)

/-- `amoor.d` (Table 04-8). -/
def execAmoorD (rd rs1 rs2 : Reg) (aq rl : Bool) (s : State) : Out := s.amo 8 rd rs1 rs2 aq rl (fun t b => t ||| b)

/-- `amomin.d` (Table 04-8). -/
def execAmominD (rd rs1 rs2 : Reg) (aq rl : Bool) (s : State) : Out := s.amo 8 rd rs1 rs2 aq rl (fun t b => if b.slt t then b else t)

/-- `amomax.d` (Table 04-8). -/
def execAmomaxD (rd rs1 rs2 : Reg) (aq rl : Bool) (s : State) : Out := s.amo 8 rd rs1 rs2 aq rl (fun t b => if t.slt b then b else t)

/-- `amominu.d` (Table 04-8). -/
def execAmominuD (rd rs1 rs2 : Reg) (aq rl : Bool) (s : State) : Out := s.amo 8 rd rs1 rs2 aq rl (fun t b => if b.ult t then b else t)

/-- `amomaxu.d` (Table 04-8). -/
def execAmomaxuD (rd rs1 rs2 : Reg) (aq rl : Bool) (s : State) : Out := s.amo 8 rd rs1 rs2 aq rl (fun t b => if t.ult b then b else t)

end Sys2Proof.Machine
end

