-- ==== Sys2Proof/Machine/System.lean ====
section
/-! DEFINITION. CSR instructions (R71, R72), fences (R73, R74), calls and returns (R75), `wfi` (R76), `upret` (R341),
waking (R147, R182), timers (R35), interrupts (R338) and illegal words (R48). -/

namespace Sys2Proof.Machine

/-! ### CSR instructions -/

/-- Registers whose access waits for the hart's vector operations (R72). -/
def csrWaits (n : BitVec 12) : Bool := n == 0x801#12 || n == 0x802#12 || n == 0x804#12

/-- A CSR instruction: the value to write, if any, from the old one (R33, R71, R72). -/
def State.csrOp (s : State) (i : Instr) (rd : Reg) (csr : BitVec 12) (new : Option (Word → Word)) : Out :=
  match csrName csr with
  | none => s.illegal i
  | some n =>
    if csrAllowed csr s.mode new.isSome = false then s.illegal i
    else
      let s := if csrWaits csr then s.withHart Hart.complete else s
      let t := s.csrGet n
      (match new with
        | some f => s.csrSet n (f t)
        | none => s).writeRd rd t

/-- `csrrw` (Table 04-9). -/
def execCsrrw (rd : Reg) (csr : BitVec 12) (rs1 : Reg) (s : State) : Out :=
  s.csrOp (.csrrw rd csr rs1) rd csr (some (fun _ => s.x rs1))

/-- `csrrs` (Table 04-9). -/
def execCsrrs (rd : Reg) (csr : BitVec 12) (rs1 : Reg) (s : State) : Out :=
  s.csrOp (.csrrs rd csr rs1) rd csr (if rs1 = 0 then none else some (fun t => t ||| s.x rs1))

/-- `csrrc` (Table 04-9). -/
def execCsrrc (rd : Reg) (csr : BitVec 12) (rs1 : Reg) (s : State) : Out :=
  s.csrOp (.csrrc rd csr rs1) rd csr (if rs1 = 0 then none else some (fun t => t &&& ~~~s.x rs1))

/-- `csrrwi` (Table 04-9). -/
def execCsrrwi (rd : Reg) (csr : BitVec 12) (uimm : BitVec 5) (s : State) : Out :=
  s.csrOp (.csrrwi rd csr uimm) rd csr (some (fun _ => uimm.setWidth 64))

/-- `csrrsi` (Table 04-9). -/
def execCsrrsi (rd : Reg) (csr : BitVec 12) (uimm : BitVec 5) (s : State) : Out :=
  s.csrOp (.csrrsi rd csr uimm) rd csr (if uimm = 0 then none else some (fun t => t ||| uimm.setWidth 64))

/-- `csrrci` (Table 04-9). -/
def execCsrrci (rd : Reg) (csr : BitVec 12) (uimm : BitVec 5) (s : State) : Out :=
  s.csrOp (.csrrci rd csr uimm) rd csr (if uimm = 0 then none else some (fun t => t &&& ~~~(uimm.setWidth 64)))

/-! ### Fences, calls and returns -/

/-- `fence`: `phase.co device`, whatever its fields (R73). -/
def execFence (_fm _pred _succ : BitVec 4) (_rs1 _rd : Reg) (s : State) : Out := s.publishThen (fun s => .next s.openPhase.advance)

/-- `fence.i`: the hart's own stores leave for its group agent, where fetches read, and the fetch buffer and the core's
instruction-cache lines of the hart's context go (R45, R74). DEDUCED (log 5). -/
def execFenceI (s : State) : Out :=
  let s := s.publishNear s.hid
  let c := s.core s.ownCore
  let s := s.setCore s.ownCore { c with icache := c.icache.filter (fun l => l.1 != ctxOf s.hart.csr.ptroot) }
  .next (s.withHart (fun h => { h with fetch := [] })).advance

/-- `ecall` (Table 04-10). -/
def execEcall (s : State) : Out :=
  s.trapOut (match s.mode with
    | .u => 8
    | .s => 9
    | .m => 11) 0

/-- `ebreak` (Table 04-10). -/
def execEbreak (s : State) : Out := s.trapOut 3 s.hart.pc

/-- `sret`: legal in S- and M-mode (R75). -/
def execSret (s : State) : Out := if s.mode = .u then s.illegal .sret else .next (s.afterReturn s.hart.leaveS)

/-- `mret`: legal in M-mode (R75). -/
def execMret (s : State) : Out := if s.mode ≠ .m then s.illegal .mret else .next (s.afterReturn s.hart.leaveM)

/-- `upret`: legal in U-mode (R341). -/
def execUpret (s : State) : Out := if s.mode ≠ .u then s.illegal .upret else .next (s.afterReturn s.hart.leaveU)

/-- `wfi` (R76). -/
def execWfi (s : State) : Out :=
  if s.wfiInterrupt s.hid s.hart || s.inboxFull s.hid then .next s.advance else s.block .interrupt

/-! ### Waking, timers, interrupts -/

/-- WAKE: a hart whose wake condition holds resumes; a `wfi` is complete, any other waiting instruction is executed again
(R76, R147, R182, Table 22-2). -/
def execWake (h : Nat) (s : State) : Out :=
  let x := s.getHart h
  .next (match x.blocked with
    | some .interrupt => if s.wakes h x .interrupt then s.setHart h { (x.retire 0 none).settle with blocked := none } else s
    | some w => if s.wakes h x w then s.setHart h { x with blocked := none } else s
    | none => s)

/-- S_TIMER: `time` reaches stimecmp, which makes interrupt 5 pending (R35; log 16). -/
def execSTimer (h : Nat) (s : State) : Out := .next { s with clock := max s.clock (3 * (s.getHart h).csr.stimecmp.toNat) }

/-- M_TIMER: `time` reaches MTIMECMP, which makes interrupt 7 pending (R35; log 16). -/
def execMTimer (h : Nat) (s : State) : Out := .next { s with clock := max s.clock (3 * (s.getHart h).csr.mtimecmp.toNat) }

/-- INTERRUPT_ENTRY: the takeable pending interrupt that is first in the order is taken (R338). -/
def execInterruptEntry (s : State) : Out :=
  match s.interrupt? s.hid s.hart with
  | some n => .next (s.takeInterrupt n)
  | none => .next s

/-- ILLEGAL_INSTRUCTION: a word that names no instruction (R48). -/
def execIllegalInstruction (word : BitVec 32) (s : State) : Out := s.trapOut 2 (word.setWidth 64)

end Sys2Proof.Machine
end

