-- ==== Sys2Proof/Machine/Sync.lean ====
section
/-! DEFINITION. Phases (R172), the barrier and the reduction (R176 to R178), `emit` and `task.done` (R145, R146), and
the instructions of the banker (R205 to R209). -/

namespace Sys2Proof.Machine

/-! ### Phases -/

/-- `phase.c` (R172). -/
def execPhaseC (sc : Scope) (s : State) : Out := s.publishThenAt (nearScope sc) (fun s => .next s.advance)

/-- `phase.o` (R172). -/
def execPhaseO (sc : Scope) (s : State) : Out := .next (s.openAt (nearScope sc)).advance

/-- `phase.co` (R172). -/
def execPhaseCo (sc : Scope) (s : State) : Out := s.publishThenAt (nearScope sc) (fun s => .next (s.openAt (nearScope sc)).advance)

/-! ### Barrier and reduction -/

/-- The hart in focus arrives at the exchange of a BSP launch and waits (R176). -/
def State.arriveStep (s : State) (l : Launch) (rd : Reg) (c : Option (RedOp × Word)) : Out :=
  (s.mapLaunch l.id (fun l => { l with arrivals := l.arrivals ++ [(s.hid, s.clock)] })).block (.barrier rd c)

/-- The hart in focus arrives at the barrier of its party, which may complete it (R177). -/
def State.arriveParty (s : State) (p : Party) (rd : Reg) (c : Option (RedOp × Word)) : State :=
  ((s.withHart (fun h => { h with blocked := some (.barrier rd c) })).checkBarrier p.id).enterSaves p.ctx

/-- `sync` and `hred`: a contribution stands for `hred` (R176 to R178). A hart outside any launch waits for none, and no
rule gives its result: a free value (log 30). -/
def State.barrier (s : State) (rd : Reg) (c : Option (RedOp × Word)) : Out :=
  match s.ownParty, s.ownLaunch with
  | some p, some l =>
    if l.flags.getLsbD 0 then s.arriveStep l rd c
    else s.publishThen (fun s => .next (s.arriveParty p rd c))
  | _, _ => s.publishThen (fun s => ({ s with choices := s.choices + 1 } : State).writeRd rd (Config.freeWord s.choices))

/-- `sync` (R176, R177). -/
def execSync (rd : Reg) (s : State) : Out := if s.mode ≠ .u then s.illegal (.sync rd) else s.barrier rd none

/-- `hred` (R178). -/
def execHred (rd rs1 : Reg) (op : RedOp) (s : State) : Out :=
  if s.mode ≠ .u then s.illegal (.hred rd rs1 op) else s.barrier rd (some (op, s.x rs1))

/-! ### Tasks -/

/-- Stage `k` exists and is downstream of the own stage (R145). -/
def mayEmit (l : Launch) (own k : Nat) : Bool :=
  decide (k < l.stages.length) && (match l.stages[own]? with
    | some st => st.downstream.getLsbD k
    | none => false)

/-- A task record enters a stage queue: at once, or at the exchange of a BSP launch (R145, R150). -/
def State.emitTask (s : State) (l : Launch) (k : Nat) (t : Task) : State :=
  let c := s.core s.ownCore
  let bsp := l.flags.getLsbD 0
  (s.setCore s.ownCore { c with sent := c.sent + 1 }).mapLaunch l.id (fun l => { l with
    sent := l.sent + 1
    received := if bsp then l.received else l.received + 1
    queues := l.queues.modify k (fun q => if bsp then { q with emitted := q.emitted ++ [t] } else pushTask t s.clock q) })

/-- `emit` (R140, R145); a hart that belongs to no launch has no stage to emit to. DESIGN CHOICE (log 30): QUEUE_MISUSE. -/
def execEmit (vs : VReg) (rs1 : Reg) (s : State) : Out :=
  let k := (s.x rs1).toNat
  if s.mode ≠ .u then s.illegal (.emit vs rs1)
  else match s.ownParty, s.ownLaunch with
    | some p, some l =>
      if mayEmit l p.stage k = false then s.trapOut 35 (s.x rs1)
      else match s.vheld [vs] with
        | some (c, v) => s.trapOut c v
        | none => match s.vearly [⟨vs, none⟩] with
          | some (c, v) => s.trapOut c v
          | none =>
            let t : Task := { bits := (s.hart.readV vs).bits, slice := p.slice }
            if stageFull l k then s.block (.stage k)
            else if l.flags.getLsbD 0 then .next (s.emitTask l k t).advance
            else s.publishThen (fun s => .next (s.emitTask l k t).advance)
    | _, _ => s.trapOut 35 (s.x rs1)

/-- The hart in focus has ended its part: the party retires with its last hart; else its barrier or a pending
pre-emption may go on (R146, R147, R177). A hart of no party only stops issuing. DESIGN CHOICE (log 65). -/
def State.endTask (s : State) : State :=
  let s := (s.withHart (fun h => { h with finished := true, stage := Vector.replicate 5 ⟨0, 0⟩ })).advance
  match s.ownParty with
  | none => s
  | some p =>
    if p.harts.all (fun h => (s.getHart h).finished) then s.mapParty p.id (fun p => { p with state := .retiring })
    else
      let bsp := (s.launch? p.launch).any (fun l => l.flags.getLsbD 0)
      (if bsp then s else s.checkBarrier p.id).enterSaves p.ctx

/-- `task.done` (R146). -/
def execTaskDone (s : State) : Out :=
  if s.mode ≠ .u then s.illegal .taskDone
  else match s.ownLaunch with
    | some l => if l.flags.getLsbD 0 then .next s.endTask else s.publishThen (fun s => .next s.endTask)
    | none => s.publishThen (fun s => .next s.endTask)

/-! ### Resource claims -/

/-- The trap of a request word whose class is reserved or whose count exceeds a bound (R205). -/
def claimTrap (w : Word) (bound : Nat) : Option (Nat × Word) :=
  if reqClass w = 3 ∨ bound < reqCount w then some (28, claimVal (reqCount w) (reqClass w)) else none

/-- `acq` (R207). -/
def execAcq (rd rs1 : Reg) (s : State) : Out :=
  let w := s.x rs1
  let (c, n) := (reqClass w, reqCount w)
  if s.mode ≠ .u then s.illegal (.acq rd rs1)
  else match claimTrap w ((s.holding s.hid c).2 - (s.holding s.hid c).1) with
    | some (c, v) => s.trapOut c v
    | none =>
      if n = 0 then s.writeRd rd 0
      else if s.grantable s.hid c n then (s.grantUnits s.hid c n).writeRd rd 0
      else
        let k := clusterOf s.hid
        let r : AcqRequest := { hart := s.hid, cls := c, count := n, since := s.clock, urgent := false }
        (s.setCluster k { s.cluster k with requests := (s.cluster k).requests ++ [r] }).block (.acq rd)

/-- `acq.try` (R207). -/
def execAcqTry (rd rs1 : Reg) (s : State) : Out :=
  let w := s.x rs1
  let (c, n) := (reqClass w, reqCount w)
  if s.mode ≠ .u then s.illegal (.acqTry rd rs1)
  else match claimTrap w ((s.holding s.hid c).2 - (s.holding s.hid c).1) with
    | some (c, v) => s.trapOut c v
    | none =>
      if n = 0 then s.writeRd rd 0
      else if s.freeUnits s.hid c < n ∨ s.urgentHolds s.hid c = true then s.writeRd rd 1
      else if s.grantable s.hid c n = false then s.writeRd rd 2
      else (s.grantUnits s.hid c n).writeRd rd 0

/-- `rel` (R208, R218). -/
def execRel (rs1 : Reg) (s : State) : Out :=
  let w := s.x rs1
  let (c, n) := (reqClass w, reqCount w)
  let left := (s.holding s.hid c).1 - n
  if s.mode ≠ .u then s.illegal (.rel rs1)
  else match claimTrap w (s.holding s.hid c).1, s.ownParty with
    | some (c, v), _ => s.trapOut c v
    | none, none => .next s.advance
    | none, some p =>
      match (if c = 1 then s.ringAbove p left else none) with
      | some q => s.trapOut 35 (BitVec.ofNat 64 q)
      | none =>
        if n = 0 then .next s.advance
        else if c ≠ 0 ∧ s.releaseWaits p s.hid c left = true then (s.beginCut p s.hid c n).block .release
        else .next ((s.releaseUnits s.hid c n).dropCut s.hid).askAgain.advance

/-- A maximum claim written (R209). -/
def State.setClaim (s : State) (c n : Nat) : State :=
  match c, s.hart.party with
  | 0, some _ => s.withHart (fun h => { h with maxHeld := n })
  | 1, some p => s.mapParty p (fun p => { p with spadMax := n })
  | 2, some p => s.mapParty p (fun p => { p with hamperMax := n })
  | _, _ => s

/-- `claim` (R209). -/
def execClaim (rs1 : Reg) (s : State) : Out :=
  let w := s.x rs1
  let (c, n) := (reqClass w, reqCount w)
  if s.mode ≠ .u then s.illegal (.claim rs1)
  else match claimTrap w (s.holding s.hid c).2 with
    | some (c, v) => s.trapOut c v
    | none =>
      if n < (s.holding s.hid c).1 then s.trapOut 28 (claimVal n c)
      else .next (s.setClaim c n).askAgain.advance

end Sys2Proof.Machine
end

