-- ==== Sys2Proof/Machine/Cell.lean ====
section
/-! DEFINITION. Decide-once cells (R187 to R202): the checks of Table 10-3, the home's answers, the decision caches and
the waiters. -/

namespace Sys2Proof.Machine

/-! ### The cell in memory (R187 to R189) -/

/-- The two words of a cell, its control word taken apart (Table 10-1). -/
structure CellView where
  value    : Word
  state    : Nat
  gen      : Nat
  winner   : BitVec 20
  reserved : Nat
  deriving DecidableEq, Repr

/-- The cell at a location. -/
def State.cellAt (s : State) (pa : Nat) : CellView :=
  let c := wordOf (s.load (pa + 8) 8)
  { value := wordOf (s.load pa 8), state := bitsNat c 0 2, gen := bitsNat c 2 24, winner := c.extractLsb' 26 20
    reserved := bitsNat c 46 18 }

/-- A malformed cell (R188). -/
def State.malformed (s : State) (pa : Nat) : Bool :=
  let c := s.cellAt pa
  c.reserved != 0 || c.state == 3 || (c.state == 2 && !s.purging.contains pa)

/-- Both words of a cell written at its home. -/
def State.setCell (s : State) (pa : Nat) (value : Word) (state gen : Nat) (winner : BitVec 20) : State :=
  s.storeWhole pa (bytesOfNat 8 value.toNat ++ bytesOfNat 8 (state + gen * 4 + winner.toNat * 2 ^ 26))

/-- Hart `h`, which has written a cell at its home, reads it there (R158). -/
def State.seesCell (s : State) (h pa : Nat) : State := s.seesSite h (fun a => pa ≤ a && a < pa + 16)

/-- (q - g) mod 2^24 (R189). -/
def genAhead (q g : Nat) : Nat := (q + 2 ^ 24 - g) % 2 ^ 24

/-- The WINNER a hart proposes as: RANK[19:0], or all ones outside a launch. -/
def State.ownRank (s : State) (x : Hart) : BitVec 20 :=
  match (x.party.bind s.party?).bind (fun p => s.launch? p.launch) with
  | some _ => x.csr.rank.extractLsb' 0 20
  | none => BitVec.allOnes 20

/-- OSTAT (Table 10-4). -/
def ostatWord (res gen : Nat) (winner : BitVec 20) : Word := BitVec.ofNat 64 (res + gen * 256 + winner.toNat * 2 ^ 32)

/-! ### Checks 1 to 8 of Table 10-3 (R191) -/

/-- The location of a cell named by `a`, or the first cause that applies; `store` for `offer` and `cretire`. -/
def cellCheck (s : State) (store : Bool) (a q : Word) : State × Except Nat Place :=
  let access := if store then 7 else 5
  let page := if store then 15 else 13
  let w := a.toNat
  let plain : Place := { key := normPa w, mmio := false, window := false, pte := 0, meta_ := none, va := w }
  let late (pa : Nat) (p : Place) : Except Nat Place :=
    if 2 ^ 24 ≤ q.toNat then .error 38 else if s.answers pa = false then .error access else .ok p
  if 2 ^ 57 ≤ w then (s, .error access)
  else if w % 16 ≠ 0 then (s, .error 38)
  else if inWindow w = true ∧ (s.mode ≠ .m ∨ s.hart.party.isSome = true) then (s, .error 38)
  else if s.mode = .m then
    if 2 ^ 48 ≤ w ∨ pmpOk s.hart.csr.pmp .m w 16 .read = false ∨ (store = true ∧ pmpOk s.hart.csr.pmp .m w 16 .write = false)
        ∨ s.named w = false then (s, .error access)
    else if inBlanket w = true ∨ inMmio w = true then (s, .error 38)
    else (s, late w plain)
  else match translate s (.data s.ownCore) (rootOf s.hart.csr.ptroot) (ctxOf s.hart.csr.ptroot) w store
      (fun p => permits p s.mode .read && (!store || permits p s.mode .write)) with
    | (s, .error (.inl f)) => (s, .error (walkCause page f))
    | (s, .error (.inr (c, e))) =>
      if permits e.pte s.mode .read = false ∨ (store = true ∧ permits e.pte s.mode .write = false) then (s, .error page) else (s, .error c)
    | (s, .ok (e, r)) =>
      let pa := entryPa e w
      if permits e.pte s.mode .read = false ∨ (store = true ∧ permits e.pte s.mode .write = false) then (s, .error page)
      else if pmpOk s.hart.csr.pmp s.mode pa 16 .read = false ∨ (store = true ∧ pmpOk s.hart.csr.pmp s.mode pa 16 .write = false) then
        (s, .error access)
      else if r = 1 ∧ store = true then (s, .error 31)
      else if inBlanket pa = true ∨ inMmio pa = true then (s, .error 38)
      else if pteKind e.pte = 1 then (s, .error 29)
      else if pteKind e.pte ≠ 0 ∨ pteFmt e.pte ≠ 0 ∨ pteCmp e.pte ≠ 0 then (s, .error 38)
      else if s.keyGone (ctxOf s.hart.csr.ptroot) (normPa pa) then (s, .error 36)
      else (s, late pa { plain with key := normPa pa, pte := e.pte })

/-! ### Decision caches (R198) -/

/-- The decision cached in a hart's cluster; service cores have no cache. -/
def State.decision? (s : State) (h pa q : Nat) : Option Decision :=
  if isCompute h then (s.cluster (clusterOf h)).decisions.find? (fun d => d.pa == pa && d.gen == q) else none

/-- A decision enters a hart's cluster cache, or is used there, as the most recently used of at most 4,096. -/
def State.fillDecision (s : State) (h : Nat) (d : Decision) : State :=
  if isCompute h then
    let c := s.cluster (clusterOf h)
    s.setCluster (clusterOf h) { c with
      decisions := (d :: c.decisions.filter (fun e => !(e.pa == d.pa && e.gen == d.gen))).take 4096 }
  else s

/-! ### Waiters (R194) -/

/-- A waiting hart is answered: OSTAT and its register are written, its core opens under aq, and its `cwait` completes (R193, R194). -/
def State.answer (s : State) (h : Nat) (res gen : Nat) (value : Word) (winner : BitVec 20) : State :=
  let x := s.getHart h
  match x.blocked with
  | some (.cell rd _ _ aq) =>
    let s := s.setHart h (({ x with csr := { x.csr with ostat := ostatWord res gen winner } } : Hart).finishWait rd value)
    if aq then s.openHart false h else s
  | _ => s

/-- Look at one waiter of a cell: the decision of its generation, STALE once that has passed, or it waits on. -/
def State.lookWaiter (s : State) (w : Waiter) : State :=
  let c := s.cellAt w.pa
  let d := genAhead w.gen c.gen
  let gone (s : State) : State := { s with waiters := s.waiters.erase w }
  if d = 0 ∧ c.state = 1 then
    let res := if c.winner = s.ownRank (s.getHart w.hart) then 0 else 1
    ((gone s).fillDecision w.hart { pa := w.pa, gen := w.gen, value := c.value, winner := c.winner }).answer w.hart res w.gen c.value c.winner
  else if 2 ^ 23 ≤ d then (gone s).answer w.hart 2 c.gen 0 0
  else s

/-- Every waiter of a cell is looked at, in the order of registration. -/
def State.lookCell (s : State) (pa : Nat) : State := (s.waiters.filter (fun w => w.pa == pa)).foldl State.lookWaiter s

/-- Every waiter is looked at, as stores reach the cells (R194); a cell being purged answers nobody. -/
def State.lookCells (s : State) : State :=
  (s.waiters.filter (fun w => !s.purging.contains w.pa && !s.malformed w.pa)).foldl State.lookWaiter s

/-! ### The instructions -/

/-- The site processor that is a location's home, with its device (R188, R431). -/
def State.cellSite (s : State) (pa : Nat) : Nat := pa / 0x10000000000 * 16 + s.siteOf pa

/-- A cell operation is performed at its home, and counted there for its context (R290). -/
def State.chargeSite (s : State) : State := s.charge (ctxOf s.hart.csr.ptroot) 4 1

/-- What a cell operation shares (R192, R201): the checks, the close under rl, the wait for the previous strong access
and for a purge, and checks 9 and 10. DESIGN CHOICE (log 6). -/
def State.cellOp (s : State) (store : Bool) (a q : Word) (rl : Bool) (k : State → Place → Out) : Out :=
  match cellCheck s store a q with
  | (s, .error c) => s.trapOut c a
  | (s, .ok p) =>
    let go (s : State) : Out :=
      if s.shipsOut then s.block .ships
      else if s.purging.contains p.key then s.block (.purge p.key)
      else
        let s := s.atHome false p 16
        if s.malformed p.key then s.trapOut 38 a
        else if poisoned s.poison p.key 16 then s.trapOut 34 a
        else k s.chargeSite p
    if rl then s.publishThen go else go s

/-- A cell operation completes: OSTAT, x[rd], and the open under aq. -/
def State.cellDone (s : State) (rd : Reg) (aq : Bool) (res gen : Nat) (value : Word) (winner : BitVec 20) : Out :=
  let s := s.withCsr (fun c => { c with ostat := ostatWord res gen winner })
  (if aq then s.openPhase else s).writeRd rd value

/-- `offer` (R192). -/
def execOffer (rd rs1 rs2 rs3 : Reg) (aq rl : Bool) (s : State) : Out :=
  let v := s.x rs2
  let q := (s.x rs3).toNat
  s.cellOp true (s.x rs1) (s.x rs3) rl (fun s p =>
    let c := s.cellAt p.key
    let d := genAhead q c.gen
    let own := s.ownRank s.hart
    if d = 0 ∧ c.state = 0 then
      let s := (s.noteKey (ctxOf s.hart.csr.ptroot) p.va p.key).setCell p.key v 1 c.gen own
      let s := s.seesCell s.hid p.key
      let s := (s.lookCell p.key).fillDecision s.hid { pa := p.key, gen := c.gen, value := v, winner := own }
      s.cellDone rd aq 0 c.gen v own
    else if d = 0 then
      let s := s.fillDecision s.hid { pa := p.key, gen := c.gen, value := c.value, winner := c.winner }
      s.cellDone rd aq 1 c.gen c.value c.winner
    else s.cellDone rd aq (if d < 2 ^ 23 then 3 else 2) c.gen 0 0)

/-- The decision of a generation as a reader sees it: WON when its winner is the reader (R193). -/
def State.readDecision (s : State) (rd : Reg) (aq : Bool) (d : Decision) : Out :=
  (s.fillDecision s.hid d).cellDone rd aq (if d.winner = s.ownRank s.hart then 0 else 1) d.gen d.value d.winner

/-- What `cread` and `cwait` share: a hit in the decision cache needs no home; `undecided` answers VACANT and FUTURE. -/
def State.cellRead (s : State) (rd rs1 rs2 : Reg) (aq rl : Bool) (undecided : State → Place → CellView → Nat → Out) : Out :=
  let q := (s.x rs2).toNat
  let home (s : State) (p : Place) : Out :=
    let c := s.cellAt p.key
    let d := genAhead q c.gen
    if d = 0 ∧ c.state = 1 then s.readDecision rd aq { pa := p.key, gen := q, value := c.value, winner := c.winner }
    else if d < 2 ^ 23 then undecided s p c d
    else s.cellDone rd aq 2 c.gen 0 0
  match cellCheck s false (s.x rs1) (s.x rs2) with
  | (_, .error _) => s.cellOp false (s.x rs1) (s.x rs2) rl home
  | (t, .ok p) => match s.decision? s.hid p.key q with
    | none => s.cellOp false (s.x rs1) (s.x rs2) rl home
    | some d =>
      let go (s : State) : Out := if s.shipsOut then s.block .ships else (s.freshen s.hid p.key 16).readDecision rd aq d
      if rl then t.publishThen go else go t

/-- `cread` (R193). -/
def execCread (rd rs1 rs2 : Reg) (aq rl : Bool) (s : State) : Out :=
  s.cellRead rd rs1 rs2 aq rl (fun s _ c d => s.cellDone rd aq (if d = 0 then 4 else 3) c.gen 0 0)

/-- `cwait` (R194). -/
def execCwait (rd rs1 rs2 : Reg) (aq rl : Bool) (s : State) : Out :=
  let q := (s.x rs2).toNat
  s.cellRead rd rs1 rs2 aq rl (fun s p _ _ =>
    if 2048 ≤ (s.waiters.filter (fun w => s.cellSite w.pa == s.cellSite p.key)).length then s.block .cellRetry
    else ({ s with waiters := s.waiters ++ [{ hart := s.hid, pa := p.key, gen := q }] } : State).block (.cell rd p.key q aq))

/-- `cretire` (R195, R199). -/
def execCretire (rs1 rs2 : Reg) (aq rl : Bool) (s : State) : Out :=
  let q := (s.x rs2).toNat
  s.cellOp true (s.x rs1) (s.x rs2) rl (fun s p =>
    let c := s.cellAt p.key
    let d := genAhead q c.gen
    let n := s.noteKey (ctxOf s.hart.csr.ptroot) p.va p.key
    if d = 0 ∧ c.state = 1 then
      if q < 2 ^ 24 - 1 then (((n.setCell p.key 0 0 (q + 1) 0).seesCell s.hid p.key).lookCell p.key).cellDone 0 aq 0 (q + 1) 0 0
      else
        let s := (n.setCell p.key c.value 2 c.gen c.winner).seesCell s.hid p.key
        ({ s with purging := s.purging ++ [p.key], events := s.events ++ [.cellPurgeComplete p.key] } : State).block (.retire p.key aq)
    else s.cellDone 0 aq (if d = 0 then 4 else if d < 2 ^ 23 then 3 else 2) c.gen 0 0)

/-- The wait of a `cretire` for a cell's purge, and its aq. -/
def Hart.retires (x : Hart) (pa : Nat) : Option Bool :=
  match x.blocked with
  | some (.retire c aq) => if c = pa then some aq else none
  | _ => none

/-- A `cretire` completes with the purge: OSTAT is written (R195). -/
def Hart.retired (x : Hart) : Hart := ({ x with csr := { x.csr with ostat := ostatWord 0 0 0 } } : Hart).finishWait 0 0

/-- The hart that retired a cell's last generation completes with the purge, and its core opens under aq (R195). -/
def State.finishRetire (s : State) (pa h : Nat) : State :=
  match (s.getHart h).retires pa with
  | none => s
  | some aq =>
    let s := (s.seesCell h pa).setHart h (s.getHart h).retired
    if aq then s.openHart false h else s

/-- The answer to a saved hart's `cretire` is written into its saved state (R201). -/
def State.finishRetireSaved (s : State) (pa : Nat) : State :=
  { s with parties := s.parties.map (fun (p : Party) => { p with
      savedHarts := p.savedHarts.map (fun e => (e.1, if (e.2.retires pa).isSome then e.2.retired else e.2)) }) }

/-- CELL_PURGE_COMPLETE: every decision of the cell has left the caches; the cell is VACANT(0), and what was held is
applied (R195, R197, R199). -/
def execCellPurgeComplete (pa : Nat) (s : State) : Out :=
  if s.purging.contains pa then
    let s := s.dropDecisions (fun a => a == pa)
    let s := { s with purging := s.purging.erase pa }.setCell pa 0 0 0 0
    .next ((s.hartIds.foldl (fun s h => s.finishRetire pa h) (s.lookCell pa)).finishRetireSaved pa)
  else .next s

/-- CWAIT_RETRY: the core repeats a `cwait` that found the table full (R194). -/
def execCwaitRetry (h : Nat) (s : State) : Out :=
  let x := s.getHart h
  .next (if x.blocked = some .cellRetry then s.setHart h { x with blocked := none } else s)

end Sys2Proof.Machine
end

