-- ==== Sys2Proof/Machine/Vector.lean ====
section
/-! DEFINITION. The vector instructions (R101 to R126) and `rep` (R41, R42). -/

namespace Sys2Proof.Machine

/-! ### Shapes -/

/-- T is a float type (Table 03-4). -/
def etyFloat : ETy → Bool
  | .f32 | .bf16 | .f16 | .f64 => true
  | _ => false

/-- The flags of some results together. -/
def allFlags (l : List (Nat × Fl)) : Fl := l.foldl (fun f r => f ||| r.2) 0

/-- An element-wise instruction: `f` computes an active element from the source elements, and an inactive element keeps
its bits (R102, R108). -/
def State.laneOp (s : State) (ty : ETy) (vd : VReg) (rs : List VReg) (m : Bool) (w : BitVec 2) (lat : Nat)
    (f : List Nat → Nat × Fl) : Out :=
  let vd := s.rot vd
  let rs := rs.map s.rot
  let t := etyTag ty
  let wd := etyBits ty
  s.vector (vd :: rs) (rs.map (fun r => ⟨r, some t⟩)) w (fun s =>
    let act := s.active m
    let ops := rs.map (fun r => s.vread r t act)
    let ls := (List.range (etyLanes ty)).map (fun i => if act i then f (ops.map (fun o => laneOf wd o.1 i)) else (0, 0))
    s.vwrite vd (mergeLanes wd (s.hart.finalV vd).bits act (ls.map (·.1))) t lat
      (ops.foldl (fun fl o => fl ||| o.2) (allFlags ls)))

/-- An operation of one element, by its type: a float operation, or one on signed integers (R86). -/
def lane1 (ty : ETy) (md : FMode) (ff : Fmt → FMode → FVal → Nat × Fl) (fi : Nat → Int → Nat × Fl) (ls : List Nat) : Nat × Fl :=
  let a := ls.headD 0
  if etyFloat ty then ff (etyFmt ty) md ((etyFmt ty).decode md.ftz a) else fi (etyBits ty) (toSigned (etyBits ty) a)

/-- An operation of two elements. -/
def lane2 (ty : ETy) (md : FMode) (ff : Fmt → FMode → FVal → FVal → Nat × Fl) (fi : Nat → Int → Int → Nat × Fl) (ls : List Nat) : Nat × Fl :=
  let a := ls.headD 0
  let b := (ls.drop 1).headD 0
  if etyFloat ty then ff (etyFmt ty) md ((etyFmt ty).decode md.ftz a) ((etyFmt ty).decode md.ftz b)
  else fi (etyBits ty) (toSigned (etyBits ty) a) (toSigned (etyBits ty) b)

/-- An integer result modulo 2^w (R86). -/
def wrapInt (w : Nat) (v : Int) : Nat × Fl := (ofSigned w v, 0)
/-- An integer result clamped to the range (R86). -/
def satInt (w : Nat) (v : Int) : Nat × Fl := (ofSigned w (clampInt w v).1, flagIf (clampInt w v).2 fSV)

/-- a − b. -/
def fSub (m : Fmt) (md : FMode) (a b : FVal) : Nat × Fl := fAdd m md a b.neg
/-- A float operation of a type that has none: the word does not decode (R53). -/
def noFloat (_ : Fmt) (_ : FMode) (_ _ : FVal) : Nat × Fl := (0, 0)
/-- The same for an integer operation. -/
def noInt (_ : Nat) (_ _ : Int) : Nat × Fl := (0, 0)

/-- The latency of `vadd` and `vsub` (Table 06-2). -/
def addLat (ty : ETy) : Nat := if etyFloat ty then 2 else 1
/-- The latency of `vmul` and of the FMA family (Table 06-2). -/
def mulLat (ty : ETy) : Nat := if ty = .f64 then 4 else 2

/-- `vabs` and `vneg` on floats (R110). -/
def fSign (neg : Bool) (m : Fmt) (_ : FMode) (a : FVal) : Nat × Fl :=
  match a with
  | .nan q => (m.nan, flagIf q fNV)
  | .inf s => (m.inf (neg && !s), 0)
  | .fin s mag e => (m.encode (.fin (neg && !s) mag e), 0)

/-! ### Arithmetic (R108 to R112) -/

/-- `vadd` (Table 06-3). -/
def execVadd (ty : ETy) (vd vs1 vs2 : VReg) (m : Bool) (w : BitVec 2) (s : State) : Out :=
  s.laneOp ty vd [vs1, vs2] m w (addLat ty) (lane2 ty s.fm fAdd (fun w a b => wrapInt w (a + b)))

/-- `vsub` (Table 06-3). -/
def execVsub (ty : ETy) (vd vs1 vs2 : VReg) (m : Bool) (w : BitVec 2) (s : State) : Out :=
  s.laneOp ty vd [vs1, vs2] m w (addLat ty) (lane2 ty s.fm fSub (fun w a b => wrapInt w (a - b)))

/-- `vmul` (Table 06-3). -/
def execVmul (ty : ETy) (vd vs1 vs2 : VReg) (m : Bool) (w : BitVec 2) (s : State) : Out :=
  s.laneOp ty vd [vs1, vs2] m w (mulLat ty) (lane2 ty s.fm fMul (fun w a b => wrapInt w (a * b)))

/-- `vdiv` (Table 06-3). -/
def execVdiv (ty : ETy) (vd vs1 vs2 : VReg) (m : Bool) (w : BitVec 2) (s : State) : Out :=
  s.laneOp ty vd [vs1, vs2] m w 4 (lane2 ty s.fm fDiv noInt)

/-- `vmin` (R109). -/
def execVmin (ty : ETy) (vd vs1 vs2 : VReg) (m : Bool) (w : BitVec 2) (s : State) : Out :=
  s.laneOp ty vd [vs1, vs2] m w 1 (lane2 ty s.fm (fun m _ a b => fMinMax m false a b) (fun w a b => wrapInt w (min a b)))

/-- `vmax` (R109). -/
def execVmax (ty : ETy) (vd vs1 vs2 : VReg) (m : Bool) (w : BitVec 2) (s : State) : Out :=
  s.laneOp ty vd [vs1, vs2] m w 1 (lane2 ty s.fm (fun m _ a b => fMinMax m true a b) (fun w a b => wrapInt w (max a b)))

/-- `vabs` (R110). -/
def execVabs (ty : ETy) (vd vs1 : VReg) (m : Bool) (w : BitVec 2) (s : State) : Out :=
  s.laneOp ty vd [vs1] m w 1 (lane1 ty s.fm (fSign false) (fun w a => wrapInt w a.natAbs))

/-- `vneg` (R110). -/
def execVneg (ty : ETy) (vd vs1 : VReg) (m : Bool) (w : BitVec 2) (s : State) : Out :=
  s.laneOp ty vd [vs1] m w 1 (lane1 ty s.fm (fSign true) (fun w a => wrapInt w (-a)))

/-- `vsqrt` (R111). -/
def execVsqrt (ty : ETy) (vd vs1 : VReg) (m : Bool) (w : BitVec 2) (s : State) : Out :=
  s.laneOp ty vd [vs1] m w 4 (lane1 ty s.fm fSqrt (fun _ _ => (0, 0)))

/-- `vrecip` (R111). -/
def execVrecip (ty : ETy) (vd vs1 : VReg) (m : Bool) (w : BitVec 2) (s : State) : Out :=
  s.laneOp ty vd [vs1] m w 4 (lane1 ty s.fm fRecip (fun _ _ => (0, 0)))

/-- `vrsqrt` (R111). -/
def execVrsqrt (ty : ETy) (vd vs1 : VReg) (m : Bool) (w : BitVec 2) (s : State) : Out :=
  s.laneOp ty vd [vs1] m w 4 (lane1 ty s.fm fRsqrt (fun _ _ => (0, 0)))

/-- `vexp2` (R111). -/
def execVexp2 (ty : ETy) (vd vs1 : VReg) (m : Bool) (w : BitVec 2) (s : State) : Out :=
  s.laneOp ty vd [vs1] m w 4 (lane1 ty s.fm fExp2 (fun _ _ => (0, 0)))

/-- `vlog2` (R111). -/
def execVlog2 (ty : ETy) (vd vs1 : VReg) (m : Bool) (w : BitVec 2) (s : State) : Out :=
  s.laneOp ty vd [vs1] m w 4 (lane1 ty s.fm fLog2 (fun _ _ => (0, 0)))

/-- `vadds` (Table 06-3). -/
def execVadds (ty : ETy) (vd vs1 vs2 : VReg) (m : Bool) (w : BitVec 2) (s : State) : Out :=
  s.laneOp ty vd [vs1, vs2] m w 1 (lane2 ty s.fm noFloat (fun w a b => satInt w (a + b)))

/-- `vsubs` (Table 06-3). -/
def execVsubs (ty : ETy) (vd vs1 vs2 : VReg) (m : Bool) (w : BitVec 2) (s : State) : Out :=
  s.laneOp ty vd [vs1, vs2] m w 1 (lane2 ty s.fm noFloat (fun w a b => satInt w (a - b)))

/-- `vmulh` (Table 06-3). -/
def execVmulh (ty : ETy) (vd vs1 vs2 : VReg) (m : Bool) (w : BitVec 2) (s : State) : Out :=
  s.laneOp ty vd [vs1, vs2] m w 2 (lane2 ty s.fm noFloat (fun w a b => wrapInt w (a * b / 2 ^ w)))

/-- Round(s × a × b + t × c) on every lane (R112). -/
def fusedLane (ty : ETy) (md : FMode) (negP negC : Bool) (ls : List Nat) : Nat × Fl :=
  let m := etyFmt ty
  let x (i : Nat) : FVal := m.decode md.ftz ((ls.drop i).headD 0)
  fFma m md (if negP then (x 0).neg else x 0) (x 1) (if negC then (x 2).neg else x 2)

/-- `vfma` (R112). -/
def execVfma (ty : ETy) (vd va vb vc : VReg) (w : BitVec 2) (s : State) : Out :=
  s.laneOp ty vd [va, vb, vc] false w (mulLat ty) (fusedLane ty s.fm false false)

/-- `vfms` (R112). -/
def execVfms (ty : ETy) (vd va vb vc : VReg) (w : BitVec 2) (s : State) : Out :=
  s.laneOp ty vd [va, vb, vc] false w (mulLat ty) (fusedLane ty s.fm false true)

/-- `vfnma` (R112). -/
def execVfnma (ty : ETy) (vd va vb vc : VReg) (w : BitVec 2) (s : State) : Out :=
  s.laneOp ty vd [va, vb, vc] false w (mulLat ty) (fusedLane ty s.fm true true)

/-- `vfnms` (R112). -/
def execVfnms (ty : ETy) (vd va vb vc : VReg) (w : BitVec 2) (s : State) : Out :=
  s.laneOp ty vd [va, vb, vc] false w (mulLat ty) (fusedLane ty s.fm true false)

/-! ### Bitwise, shifts and moves (R113 to R118) -/

/-- An instruction on Bits() under a byte mask, with the tag it gives (R102, R113). -/
def State.bitsOp (s : State) (vd : VReg) (rs : List VReg) (m : Bool) (w : BitVec 2) (f : List VBits → VBits) (tag : List Tag → Tag) : Out :=
  let vd := s.rot vd
  let rs := rs.map s.rot
  s.vector (vd :: rs) (rs.map (fun r => ⟨r, none⟩)) w (fun s =>
    let xs := rs.map s.hart.readV
    let b := f (xs.map VecReg.bits)
    s.vwrite vd (mergeLanes 8 (s.hart.finalV vd).bits (s.active m) (lanesOf 8 b)) (tag (xs.map VecReg.tag)) 1 0)

/-- The tag of a logic result. -/
def logicTag : List Tag → Tag
  | [a, b] => if a = b then a else .raw
  | l => l.headD .raw

/-- The two operands of a logic instruction. -/
def bits2 (f : VBits → VBits → VBits) : List VBits → VBits
  | [a, b] => f a b
  | l => l.headD 0

/-- `vand` (R113). -/
def execVand (vd vs1 vs2 : VReg) (m : Bool) (w : BitVec 2) (s : State) : Out :=
  s.bitsOp vd [vs1, vs2] m w (bits2 (fun a b => a &&& b)) logicTag

/-- `vor` (R113). -/
def execVor (vd vs1 vs2 : VReg) (m : Bool) (w : BitVec 2) (s : State) : Out :=
  s.bitsOp vd [vs1, vs2] m w (bits2 (fun a b => a ||| b)) logicTag

/-- `vxor` (R113). -/
def execVxor (vd vs1 vs2 : VReg) (m : Bool) (w : BitVec 2) (s : State) : Out :=
  s.bitsOp vd [vs1, vs2] m w (bits2 (fun a b => a ^^^ b)) logicTag

/-- `vmvv` (R113). -/
def execVmvv (vd vs1 : VReg) (m : Bool) (w : BitVec 2) (s : State) : Out :=
  s.bitsOp vd [vs1] m w (fun l => l.headD 0) logicTag

/-- A shift of an element by the low log2(w) bits of another (R114). -/
def shiftLane (ty : ETy) (f : Nat → Nat → Nat → Nat) (ls : List Nat) : Nat × Fl :=
  let wd := etyBits ty
  (f wd (ls.headD 0) ((ls.drop 1).headD 0 % wd) % 2 ^ wd, 0)

/-- `vsll` (R114). -/
def execVsll (ty : ETy) (vd vs1 vs2 : VReg) (m : Bool) (w : BitVec 2) (s : State) : Out :=
  s.laneOp ty vd [vs1, vs2] m w 1 (shiftLane ty (fun _ a k => a * 2 ^ k))

/-- `vsrl` (R114). -/
def execVsrl (ty : ETy) (vd vs1 vs2 : VReg) (m : Bool) (w : BitVec 2) (s : State) : Out :=
  s.laneOp ty vd [vs1, vs2] m w 1 (shiftLane ty (fun _ a k => a / 2 ^ k))

/-- `vsra` (R114). -/
def execVsra (ty : ETy) (vd vs1 vs2 : VReg) (m : Bool) (w : BitVec 2) (s : State) : Out :=
  s.laneOp ty vd [vs1, vs2] m w 1 (shiftLane ty (fun w a k => ofSigned w (toSigned w a / 2 ^ k)))

/-- An instruction that gives each active element of `vd` from whole registers read: `f` gives element `i` (R103). -/
def State.moveOp (s : State) (ty : ETy) (vd : VReg) (named : List VReg) (srcs : List Src) (m : Bool) (w : BitVec 2)
    (f : State → (Nat → Nat) × Fl) : Out :=
  s.vector (vd :: named) srcs w (fun s =>
    let r := f s
    s.vwrite vd (mergeLanes (etyBits ty) (s.hart.finalV vd).bits (s.active m) ((List.range (etyLanes ty)).map r.1)) (etyTag ty) 1 r.2)

/-- `vsel`: it always reads VMASK, and m changes nothing (R115). -/
def execVsel (ty : ETy) (vd vs1 vs2 : VReg) (_m : Bool) (w : BitVec 2) (s : State) : Out :=
  let a := s.rot vs1
  let b := s.rot vs2
  let t := etyTag ty
  s.moveOp ty (s.rot vd) [a, b] [⟨a, some t⟩, ⟨b, some t⟩] false w (fun s =>
    let x := s.vread a t allLanes
    let y := s.vread b t allLanes
    (fun i => laneOf (etyBits ty) (if s.hart.csr.vmask.getLsbD i then x.1 else y.1) i, x.2 ||| y.2))

/-- The elements of a source that the active elements of a destination of `n` elements read: `f` gives which element element `i`
reads. No other element of a mistagged source is converted or counted for flags (R32, R85, R102). -/
def lanesRead (n : Nat) (act : Nat → Bool) (f : Nat → Option Nat) (j : Nat) : Bool :=
  (List.range n).any (fun i => act i && f i == some j)

/-- `vperm` (R116). DEDUCED (log 44). -/
def execVperm (ty : ETy) (vd vs1 vs2 : VReg) (m : Bool) (w : BitVec 2) (s : State) : Out :=
  let a := s.rot vs1
  let b := s.rot vs2
  let t := etyTag ty
  s.moveOp ty (s.rot vd) [a, b] [⟨a, some t⟩, ⟨b, none⟩] m w (fun s =>
    let y := (s.hart.readV b).bits
    let src (i : Nat) : Nat := laneOf (etyBits ty) y i % etyLanes ty
    let x := s.vread a t (lanesRead (etyLanes ty) (s.active m) (fun i => some (src i)))
    (fun i => laneOf (etyBits ty) x.1 (src i), x.2))

/-- `vslide` (R117). DEDUCED (log 44). -/
def execVslide (ty : ETy) (vd vs1 : VReg) (rs : Reg) (m : Bool) (w : BitVec 2) (s : State) : Out :=
  let a := s.rot vs1
  let t := etyTag ty
  let k := (s.x rs).toInt
  s.moveOp ty (s.rot vd) [a] [⟨a, some t⟩] m w (fun s =>
    let src (i : Nat) : Option Nat := if 0 ≤ (i : Int) + k ∧ (i : Int) + k < etyLanes ty then some ((i : Int) + k).toNat else none
    let x := s.vread a t (lanesRead (etyLanes ty) (s.active m) src)
    (fun i => match src i with
      | some j => laneOf (etyBits ty) x.1 j
      | none => 0, x.2))

/-- `vbcast` (R118). -/
def execVbcast (ty : ETy) (vd : VReg) (rs : Reg) (m : Bool) (w : BitVec 2) (s : State) : Out :=
  s.moveOp ty (s.rot vd) [] [] m w (fun s => (fun _ => (s.x rs).toNat % 2 ^ etyBits ty, 0))

/-- `vid` (R118). -/
def execVid (ty : ETy) (vd : VReg) (m : Bool) (w : BitVec 2) (s : State) : Out :=
  s.moveOp ty (s.rot vd) [] [] m w (fun _ => (fun i => i, 0))

/-- `vmvx` (R118). -/
def execVmvx (ty : ETy) (rd : Reg) (vs1 : VReg) (rs : Reg) (w : BitVec 2) (s : State) : Out :=
  let a := s.rot vs1
  let t := etyTag ty
  s.vector [a] [⟨a, some t⟩] w (fun s =>
    let x := s.vread a t allLanes
    let e := laneOf (etyBits ty) x.1 ((s.x rs).toNat % etyLanes ty)
    (s.orFlags x.2).setX rd (if etyFloat ty then BitVec.ofNat 64 e else BitVec.ofInt 64 (toSigned (etyBits ty) e)))

/-! ### Compares and masks (R119) -/

/-- VMASK written from the results of the lanes below N(T); the bits above become 0. -/
def maskWord (n : Nat) (f : Nat → Bool) : Word := BitVec.ofNat 64 (((List.range n).map (fun i => if f i then 2 ^ i else 0)).sum)

/-- A compare: `fi` of the order, −1, 0 or 1; a NaN is false and sets NV where `quiet` does not excuse it. -/
def State.compareOp (s : State) (ty : ETy) (vs1 vs2 : VReg) (m : Bool) (w : BitVec 2) (quiet : Bool) (f : Int → Bool) : Out :=
  let a := s.rot vs1
  let b := s.rot vs2
  let t := etyTag ty
  s.vector [a, b] [⟨a, some t⟩, ⟨b, some t⟩] w (fun s =>
    let act := s.active m
    let x := s.vread a t act
    let y := s.vread b t act
    let one (i : Nat) : Nat × Fl :=
      let p := laneOf (etyBits ty) x.1 i
      let q := laneOf (etyBits ty) y.1 i
      if etyFloat ty then
        let u := (etyFmt ty).decode s.fm.ftz p
        let v := (etyFmt ty).decode s.fm.ftz q
        if u.isNan || v.isNan then (0, flagIf (!quiet || u.isSig || v.isSig) fNV)
        else (if f (fCmp u v) then 1 else 0, 0)
      else
        let d := toSigned (etyBits ty) p - toSigned (etyBits ty) q
        (if f (if d < 0 then -1 else if d = 0 then 0 else 1) then 1 else 0, 0)
    let rs := (List.range (etyLanes ty)).map (fun i => if act i then one i else (0, 0))
    (s.orFlags (x.2 ||| y.2 ||| allFlags rs)).withCsr (fun c => { c with vmask := maskWord (etyLanes ty) (fun i => ((rs.map (·.1)).drop i).headD 0 == 1) }))

/-- `vcmpeq`. -/
def execVcmpeq (ty : ETy) (vs1 vs2 : VReg) (m : Bool) (w : BitVec 2) (s : State) : Out :=
  s.compareOp ty vs1 vs2 m w true (fun c => c == 0)
/-- `vcmplt`. -/
def execVcmplt (ty : ETy) (vs1 vs2 : VReg) (m : Bool) (w : BitVec 2) (s : State) : Out :=
  s.compareOp ty vs1 vs2 m w false (fun c => c == -1)
/-- `vcmple`. -/
def execVcmple (ty : ETy) (vs1 vs2 : VReg) (m : Bool) (w : BitVec 2) (s : State) : Out :=
  s.compareOp ty vs1 vs2 m w false (fun c => c != 1)

/-- `vsetm`: ±0 counts as zero, under FTZ a subnormal too, and a NaN as nonzero; a signalling NaN sets NV (R83, R84, R119).
DEDUCED (log 31). -/
def execVsetm (ty : ETy) (vs1 : VReg) (w : BitVec 2) (s : State) : Out :=
  let a := s.rot vs1
  let t := etyTag ty
  s.vector [a] [⟨a, some t⟩] w (fun s =>
    let x := s.vread a t allLanes
    let val (i : Nat) : FVal := (etyFmt ty).decode s.fm.ftz (laneOf (etyBits ty) x.1 i)
    let nz (i : Nat) : Bool := if etyFloat ty then !(val i).isZero else laneOf (etyBits ty) x.1 i != 0
    let sig : Bool := etyFloat ty && (List.range (etyLanes ty)).any (fun i => (val i).isSig)
    (s.orFlags (x.2 ||| flagIf sig fNV)).withCsr (fun c => { c with vmask := maskWord (etyLanes ty) nz }))

/-- 1 as an element of a type. -/
def oneOf (ty : ETy) : Nat := if etyFloat ty then (etyFmt ty).encode (.fin false 1 0) else 1

/-- `vgetm`. -/
def execVgetm (ty : ETy) (vd : VReg) (w : BitVec 2) (s : State) : Out :=
  s.moveOp ty (s.rot vd) [] [] false w (fun s => (fun i => if s.hart.csr.vmask.getLsbD i then oneOf ty else 0, 0))

/-! ### Reductions and dot product (R120 to R122) -/

/-- One level of the tree: neighbours combined, with the flags so far. -/
def treeLevel (f : Nat → Nat → Nat × Fl) : List Nat → List Nat × Fl
  | a :: b :: t =>
    let r := f a b
    let (rest, fl) := treeLevel f t
    (r.1 :: rest, r.2 ||| fl)
  | l => (l, 0)

/-- Tree(e, 2^n, f) with the flags of its nodes (R120). -/
def treeFrom (f : Nat → Nat → Nat × Fl) (n : Nat) (l : List Nat) (fl : Fl) : Nat × Fl :=
  match n with
  | 0 => (l.headD 0, fl)
  | n + 1 => let (l, g) := treeLevel f l
    treeFrom f n l (fl ||| g)

/-- A node of a reduction over the elements of a type. -/
def redNode (ty : ETy) (md : FMode) (ff : Fmt → FMode → FVal → FVal → Nat × Fl) (fi : Nat → Int → Int → Nat × Fl) (a b : Nat) : Nat × Fl :=
  lane2 ty md ff fi [a, b]

/-- A reduction: inactive elements enter as the identity, and every element but 0 is written 0 (R121). -/
def State.reduceOp (s : State) (ty : ETy) (vd vs1 : VReg) (m : Bool) (w : BitVec 2) (ident : Nat) (node : Nat → Nat → Nat × Fl) : Out :=
  let vd := s.rot vd
  let a := s.rot vs1
  let t := etyTag ty
  s.vector [vd, a] [⟨a, some t⟩] w (fun s =>
    let act := s.active m
    let x := s.vread a t act
    let ls := (List.range (etyLanes ty)).map (fun i => if act i then laneOf (etyBits ty) x.1 i else ident)
    let r := treeFrom node (Nat.log2 (etyLanes ty)) ls x.2
    s.vwrite vd (BitVec.ofNat 512 (r.1 % 2 ^ etyBits ty)) t 4 r.2)

/-- `vredsum` (R121). -/
def execVredsum (ty : ETy) (vd vs1 : VReg) (m : Bool) (w : BitVec 2) (s : State) : Out :=
  s.reduceOp ty vd vs1 m w (if etyFloat ty then (etyFmt ty).signBit true else 0) (redNode ty s.fm fAdd (fun w a b => wrapInt w (a + b)))

/-- `vredmax` (R121). -/
def execVredmax (ty : ETy) (vd vs1 : VReg) (m : Bool) (w : BitVec 2) (s : State) : Out :=
  s.reduceOp ty vd vs1 m w (if etyFloat ty then (etyFmt ty).inf true else 2 ^ (etyBits ty - 1))
    (redNode ty s.fm (fun m _ a b => fMinMax m true a b) (fun w a b => wrapInt w (max a b)))

/-- `vredmin` (R121). -/
def execVredmin (ty : ETy) (vd vs1 : VReg) (m : Bool) (w : BitVec 2) (s : State) : Out :=
  s.reduceOp ty vd vs1 m w (if etyFloat ty then (etyFmt ty).inf false else 2 ^ (etyBits ty - 1) - 1)
    (redNode ty s.fm (fun m _ a b => fMinMax m false a b) (fun w a b => wrapInt w (min a b)))

/-- The result type of `vdot` (R122). -/
def dotType : ETy → ETy
  | .f32 | .bf16 | .f16 => .f32
  | .f64 => .f64
  | .i8 => .i32
  | _ => .i64

/-- The first level of `vdot` on floats: exact sums of two products, each rounded once (R122). -/
def dotLevel (m : Fmt) (md : FMode) : List (FVal × FVal) → List Nat × Fl
  | p :: q :: t =>
    let r := fMulAdd2 m md p.1 p.2 q.1 q.2
    let (rest, fl) := dotLevel m md t
    (r.1 :: rest, r.2 ||| fl)
  | _ => ([], 0)

/-- The value of `vdot` from the lanes of its operands (R122). -/
def dotValue (ty : ETy) (md : FMode) (act : Nat → Bool) (x y : VBits) : Nat × Fl :=
  let wd := etyBits ty
  let n := etyLanes ty
  let rt := dotType ty
  if etyFloat ty then
    let ps := (List.range n).map (fun i =>
      if act i then ((etyFmt ty).decode md.ftz (laneOf wd x i), (etyFmt ty).decode md.ftz (laneOf wd y i))
      else (FVal.fin true 0 0, FVal.fin false 1 0))
    let (l, fl) := dotLevel (etyFmt rt) md ps
    treeFrom (redNode rt md fAdd noInt) (Nat.log2 n - 1) l fl
  else
    let v := ((List.range n).map (fun i => if act i then toSigned wd (laneOf wd x i) * toSigned wd (laneOf wd y i) else 0)).sum
    (ofSigned (etyBits rt) v, 0)

/-- `vdot` (R122). -/
def execVdot (ty : ETy) (vd vs1 vs2 : VReg) (m : Bool) (w : BitVec 2) (s : State) : Out :=
  let vd := s.rot vd
  let a := s.rot vs1
  let b := s.rot vs2
  let t := etyTag ty
  s.vector [vd, a, b] [⟨a, some t⟩, ⟨b, some t⟩] w (fun s =>
    let act := s.active m
    let x := s.vread a t act
    let y := s.vread b t act
    let r := dotValue ty s.fm act x.1 y.1
    s.vwrite vd (BitVec.ofNat 512 r.1) (etyTag (dotType ty)) 4 (x.2 ||| y.2 ||| r.2))

/-! ### Format instructions (R123 to R126) -/

/-- The type a quantised source is read as (R125). -/
def quantSource : Tag → Tag
  | .bf16 => .bf16
  | .f16 => .f16
  | _ => .f32

/-- The format of a float tag. -/
def tagFmt (t : Tag) : Fmt :=
  match tagKind t with
  | .float m => m
  | _ => fmtF32

/-- Values of the lanes of some bits read as a float tag. -/
def floatVals (t : Tag) (ftz : Bool) (b : VBits) : List FVal := (lanesOf (tagFmt t).width b).map ((tagFmt t).decode ftz)

/-- The quantiser's result for a target tag (R92, R125). -/
def quantResult (md : FMode) (qdelta : Word) (src t : Tag) (lo hi : VBits) : VBits × Fl :=
  match tagKind t with
  | .block w =>
    let xs := if src = .f32 then floatVals src md.ftz lo ++ floatVals src md.ftz hi else floatVals src md.ftz lo
    let (b, f) := quantise w (bitsNat qdelta 0 8) (tagFmt src) xs
    (BitVec.ofNat 512 (blockBits b), f)
  | .float m =>
    let rs := (floatVals src md.ftz lo).map (quantOfp8 m)
    (packLanes m.width (rs.map (·.1)), allFlags rs)
  | _ => (0, 0)

/-- Quantise to a tag: `vqnt`, and `vcvt` to a block (R123, R125). -/
def State.quantOp (s : State) (vd vs1 : VReg) (t : Tag) (w : BitVec 2) : Out :=
  let vd := s.rot vd
  let a := s.rot vs1
  let src := quantSource (s.hart.readV a).tag
  let pair := (t == .bx8p || t == .bx4p) && src == .f32
  let b := pairOf a
  s.vector (if pair then [vd, a, b] else [vd, a]) (if pair then [⟨a, some src⟩, ⟨b, some .f32⟩] else [⟨a, some src⟩]) w (fun s =>
    let x := s.vread a src allLanes
    let y := if pair then s.vread b .f32 allLanes else (0, 0)
    let r := quantResult s.fm s.hart.csr.qdelta src t x.1 y.1
    s.vwrite vd r.1 t 2 (x.2 ||| y.2 ||| r.2))

/-- `vqnt` (R125). -/
def execVqnt (vd vs1 : VReg) (t : Tag) (w : BitVec 2) (s : State) : Out := s.quantOp vd vs1 t w

/-- `vcvt` (R123). Both of R123's first two cases name a RAW source with a target of 11 or 12; the second is taken, so the bits are
read as F32 and quantised. DESIGN CHOICE (log 61). -/
def execVcvt (vd vs1 : VReg) (t : Tag) (m : Bool) (w : BitVec 2) (s : State) : Out :=
  if t = .bx8p ∨ t = .bx4p then s.quantOp vd vs1 t w
  else
    let vd := s.rot vd
    let a := s.rot vs1
    s.vector [vd, a] [⟨a, some (s.hart.readV a).tag⟩] w (fun s =>
      let r := s.hart.readV a
      let act := s.active m
      let wd := tagBits t
      let ls := if r.tag = .raw then (lanesOf wd r.bits).map (fun v => (v, (0 : Fl))) else convertLanes s.fm r t act
      s.vwrite vd (mergeLanes wd (s.hart.finalV vd).bits act (ls.map (·.1))) t 2 (allFlags ls))

/-- `vretag` (R124). -/
def execVretag (vd vs1 : VReg) (t : Tag) (w : BitVec 2) (s : State) : Out :=
  let vd := s.rot vd
  let a := s.rot vs1
  s.vector [vd, a] [⟨a, none⟩] w (fun s => s.vwrite vd (s.hart.readV a).bits t 1 0)

/-- `vtag` (R124). -/
def execVtag (rd : Reg) (vs1 : VReg) (w : BitVec 2) (s : State) : Out :=
  let a := s.rot vs1
  s.vector [a] [⟨a, none⟩] w (fun s => s.setX rd ((s.hart.readV a).tag.bits.setWidth 64))

/-- The type a decoded source is read as (R126). -/
def decodeSource : Tag → Tag
  | .bx4p => .bx4p
  | .e4m3 => .e4m3
  | .e5m2 => .e5m2
  | _ => .bx8p

/-- `vdeq` (R126). -/
def execVdeq (vd vs1 : VReg) (t : Tag) (w : BitVec 2) (s : State) : Out :=
  let vd := s.rot vd
  let a := s.rot vs1
  let src := decodeSource (s.hart.readV a).tag
  let two := t == .f32
  s.vector (if two then [vd, pairOf vd, a] else [vd, a]) [⟨a, some src⟩] w (fun s =>
    let x := s.vread a src allLanes
    let val (i : Nat) : FVal := match tagKind src with
      | .block n => blockVal (blockOf n x.1.toNat) i
      | .float m => m.decode s.fm.ftz (laneOf m.width x.1 i)
      | _ => .fin false 0 0
    let rs := (List.range 32).map (fun i => fToF (tagFmt t) s.fm (val i))
    let f := x.2 ||| allFlags rs
    let ls := rs.map (·.1)
    if two then (s.vwrite vd (packLanes 32 (ls.take 16)) t 2 f).vwrite (pairOf vd) (packLanes 32 (ls.drop 16)) t 2 0
    else s.vwrite vd (packLanes 16 ls) t 2 f)

/-! ### Repetition (R41, R42) -/

/-- The major opcodes allowed in a body (R42). -/
def repOpcode (w : BitVec 32) : Bool := ([0x07, 0x27, 0x43, 0x47, 0x4B, 0x4F, 0x57, 0x77] : List Nat).contains (bitsNat w 0 7)

/-- The word at an address, from the fetch buffer, which is filled where it does not hold the block (R44). -/
def State.bodyWord (s : State) (a : Word) : State × Except (Nat × Word) (BitVec 32) :=
  match s.loadBlocks [a.toNat / 64 * 64] with
  | (s, some e) => (s, .error e)
  | (s, none) => match s.hart.block (a.toNat / 64 * 64) with
    | some b => (s, b.word a)
    | none => match s.loadBlock a with
      | (s, .error c) => (s, .error (c, a))
      | (s, .ok _) => (s, .error (1, a))

/-- The first cause among the body's words: a fetch's own (log 32), or REP_ILLEGAL at the first offender. -/
def State.scanBody (s : State) (a : Word) (n : Nat) : State × Option (Nat × Word) :=
  match n with
  | 0 => (s, none)
  | n + 1 =>
    match s.bodyWord a with
    | (s, .error e) => (s, some e)
    | (s, .ok w) => if repOpcode w then s.scanBody (pcOf (a + 4)) n else (s, some (37, a))

/-- `rep` (R42); `len1` is len − 1. -/
def execRep (len1 : BitVec 4) (rs1 : Reg) (stride base : BitVec 5) (s : State) : Out :=
  let n := s.x rs1
  let len := len1.toNat + 1
  if 0xFFFFF < n.toNat then s.trapOut 37 s.hart.pc
  else match s.scanBody (pcOf (s.hart.pc + 4)) len with
    | (s, some (c, v)) => s.trapOut c v
    | (s, none) =>
      if n = 0 then .next (s.jumpTo (pcOf (s.hart.pc + 4 + BitVec.ofNat 64 (4 * len))))
      else .next ((s.withCsr (fun c => { c with
        repstate := repPack true 0 n.toNat 0 len1.toNat stride.toNat base.toNat })).jumpTo (pcOf (s.hart.pc + 4)))

end Sys2Proof.Machine
end

