-- ==== Sys2Proof/Machine/VectorMem.lean ====
section
/-! DEFINITION. Vector loads and stores (R127 to R130, R254). -/

namespace Sys2Proof.Machine

/-! ### Checks -/

/-- Checks 1 to 3 of Table 06-4: a cause, or the leaf of the page (0 for the window and for physical memory). -/
def checkEarly (s : State) (k : Acc) (a : Word) (n : Nat) : State × Except Nat Word :=
  let w := a.toNat
  let page := if k.isStore then 15 else 13
  let align := if k.isStore then 6 else 4
  let need : Need := if k.isStore then .write else .read
  let t : Tlb := .data s.ownCore
  let root := rootOf s.hart.csr.ptroot
  let ctx := ctxOf s.hart.csr.ptroot
  let seen (s : State) (e : TlbEntry) : State × Except Nat Word :=
    if permits e.pte s.mode need = false then (s, .error page)
    else
      let (s, m) := metaFor s t root ctx s.mode e.pte w k.isStore
      if m = .error 34 then (s, .error 34)
      else if pmpOk s.hart.csr.pmp s.mode (entryPa e w) n need = false then (s, .error (accessCause k))
      else (s, .ok e.pte)
  let windowed := inWindow w && (s.mode != .m || s.hart.party.isSome)
  if s.mode = .m ∧ windowed = false then
    if 2 ^ 48 ≤ w ∨ pmpOk s.hart.csr.pmp .m w n need = false ∨ s.named w = false then (s, .error (accessCause k))
    else if w % n ≠ 0 then (s, .error align) else (s, .ok 0)
  else if 2 ^ 57 ≤ w then (s, .error (accessCause k))
  else if w % n ≠ 0 then (s, .error align)
  else if windowed then (s, .ok 0)
  else match translate s t root ctx w k.isStore (fun p => permits p s.mode need) with
    | (s, .error (.inl f)) => (s, .error (walkCause page f))
    | (s, .error (.inr (_, e))) => seen s e
    | (s, .ok (e, _)) => seen s e

/-- Check every element of a list in increasing order: the places, or the cause and address of the lowest that fails
(R128, R129). -/
def checkAll (s : State) (k : Acc) (n : Nat) : List (Nat × Word) → State × Except (Nat × Word) (List (Nat × Place))
  | [] => (s, .ok [])
  | (i, a) :: rest =>
    match check s k a n false with
    | (s, .error c) => (s, .error (c, a))
    | (s, .ok p) =>
      match checkAll s k n rest with
      | (s, .error e) => (s, .error e)
      | (s, .ok l) => (s, .ok ((i, p) :: l))

/-! ### Elements in memory -/

/-- The elements of a load: those that are moved, over the register's bits in program order (R102, R128). -/
def State.loadElems (s : State) (ty : ETy) (vd : VReg) (l : List (Nat × Place)) : State :=
  let wd := etyBits ty
  let vals := l.map (fun x => (x.1, natOfBytes (s.readPlace x.2 (wd / 8))))
  let old := (s.hart.finalV vd).bits
  let lanes := (List.range (etyLanes ty)).map (fun i => match vals.find? (fun x => x.1 == i) with
    | some x => x.2
    | none => laneOf wd old i)
  s.withHart (fun h => h.setV vd ⟨packLanes wd lanes, etyTag ty⟩)

/-- Elements whose bytes adjoin in one 256-byte block are one store (R348; log 33). -/
def joinRuns : List (Place × List Byte) → List (Place × List Byte)
  | [] => []
  | (p, b) :: rest =>
    match joinRuns rest with
    | (q, c) :: more =>
      if q.key = p.key + b.length ∧ q.key % 256 ≠ 0 ∧ q.window = p.window ∧ q.pte = p.pte then (p, b ++ c) :: more
      else (p, b) :: (q, c) :: more
    | [] => [(p, b)]

/-- The elements of a store, in increasing order. -/
def State.storeElems (s : State) (ty : ETy) (d : VBits) (l : List (Nat × Place)) : State :=
  let n := etyBits ty / 8
  (joinRuns (l.map (fun x => (x.2, bytesOfNat n (laneOf (etyBits ty) d x.1))))).foldl (fun s x => s.writeWeak x.1 x.2) (s.chargeAll n (l.map (·.2)))

/-- A vector load of some elements. -/
def State.vload (s : State) (ty : ETy) (vd : VReg) (addrs : List (Nat × Word)) : Out :=
  match checkAll s .vload (etyBits ty / 8) addrs with
  | (s, .error (c, a)) => s.trapOut c a
  | (s, .ok l) => .next ((s.chargeAll (etyBits ty / 8) (l.map (·.2))).loadElems ty vd l).advance

/-- A vector store of some elements of `d`; `f` are the flags of its conversion. -/
def State.vstore (s : State) (ty : ETy) (d : VBits × Fl) (addrs : List (Nat × Word)) : Out :=
  match checkAll s .vstore (etyBits ty / 8) addrs with
  | (s, .error (c, a)) => s.trapOut c a
  | (s, .ok l) => .next ((s.storeElems ty d.1 l).orFlags d.2).advance

/-! ### Pages with a format (R130, R254) -/

/-- Bytes of a block in memory, by FMT (R91, R130). -/
def fmtBytes (fmt : Nat) : Nat := if fmt = 2 then 16 else 32
/-- The packed tag of a page's FMT. -/
def fmtTag (fmt : Nat) : Tag :=
  match fmt with
  | 1 => .bx8p
  | 2 => .bx4p
  | 3 => .e4m3
  | _ => .e5m2
/-- The page holds BX blocks, whose scale words lie in an arena. -/
def fmtBx (fmt : Nat) : Bool := fmt == 1 || fmt == 2

/-- The arena place of a block for the hart in focus, with the hart's own causes. -/
def State.hartArena (s : State) (p : Place) (blk : Nat) (write : Bool) : State × Except (Nat × Word) Place :=
  match arenaPlace s (.data s.ownCore) (rootOf s.hart.csr.ptroot) (ctxOf s.hart.csr.ptroot) s.mode s.hart.csr.pmp p.pte p.va blk write with
  | (s, .error (c, a)) =>
    (s, .error (if c = 0 then (if write then 7 else 5) else if c = 1 then (if write then 15 else 13) else c, BitVec.ofNat 64 a))
  | (s, .ok q) => (s, .ok q)

/-- The values of a block's elements (R95, R130). -/
def fmtValues (ftz : Bool) (fmt : Nat) (bs : List Byte) (scale : Nat) : List FVal :=
  match tagKind (fmtTag fmt) with
  | .block w => (List.range 32).map (blockVal { w := w, bytes := bs.map BitVec.toNat, scale := scale })
  | .float m => bs.map (fun b => m.decode ftz b.toNat)
  | _ => []

/-- `vle` on a page with a format: the block decoded to BF16 (R130). A type or an address that R130 refuses, and then the arena,
come at order 8; the data and the CHK at order 10 (Table 06-4). -/
def State.loadBlockFmt (s : State) (ty : ETy) (vd : VReg) (a : Word) (leaf : Word) : Out :=
  let fmt := pteFmt leaf
  let n := fmtBytes fmt
  let bad := ty != .bf16 || a.toNat % n != 0
  match check s .vload a (if bad then etyBits ty / 8 else n) true with
  | (s, .error c) => s.trapOut (if bad && c == 36 then 5 else c) a
  | (s, .ok p) =>
    let finish (s : State) (scale : Nat) : Out :=
      let rs := (fmtValues s.fm.ftz fmt (s.readPlace p n) scale).map (fToF fmtBf16 s.fm)
      .next (((s.chargeBlanket p n).orFlags (allFlags rs)).withHart (fun h => h.setV vd ⟨packLanes 16 (rs.map (·.1)), .bf16⟩)).advance
    if bad then s.trapOut 5 a
    else if fmtBx fmt then
      match s.hartArena p n false with
      | (s, .error (c, v)) => s.trapOut c v
      | (s, .ok q) =>
        let scale := natOfBytes (s.readPlace q 4)
        let b : Block := { w := if fmt = 1 then 8 else 4, bytes := (s.readPlace p n).map BitVec.toNat, scale := scale }
        if s.badRead false p.key n || s.maskBad p.meta_ p.key || s.badRead false q.key 4 || !blockOk b then s.trapOut 34 a
        else finish (s.chargeBlanket q 4) scale
    else if s.badRead false p.key n || s.maskBad p.meta_ p.key then s.trapOut 34 a else finish s 0

/-- `vse` on a page with a format: the packed register and its scale word (R106, R130). The register's tag, the alignment and the arena
come at order 8, KIND 2 at order 9, and the register's CHK at order 10 (Table 06-4). DESIGN CHOICE (log 62): xtval of that CHK mismatch
is the address, as R129 has it. -/
def State.storeBlockFmt (s : State) (ty : ETy) (vs : VReg) (a : Word) (leaf : Word) : Out :=
  let fmt := pteFmt leaf
  let n := fmtBytes fmt
  let r := s.hart.readV vs
  let bad := r.tag != fmtTag fmt || a.toNat % n != 0
  match check s .vstore a (if bad then etyBits ty / 8 else n) true with
  | (s, .error c) => s.trapOut (if bad && c == 36 then 7 else c) a
  | (s, .ok p) =>
    let bs := bytesOfNat n r.bits.toNat
    if bad then s.trapOut 7 a
    else if fmtBx fmt then
      match s.hartArena p n true with
      | (s, .error (c, v)) => s.trapOut c v
      | (s, .ok q) =>
        if pteKind leaf = 2 then s.trapOut 32 a
        else if chkBad r r.tag then s.trapOut 34 a
        else .next ((((s.chargeBlanket p n).chargeBlanket q 4).writeWeak p bs).writeWeak q (bytesOfNat 4 (bitsNat r.bits (8 * n) 32))).advance
    else if pteKind leaf = 2 then s.trapOut 32 a
    else .next ((s.chargeBlanket p n).writeWeak p bs).advance

/-! ### The instructions -/

/-- The address of a unit-stride access (Table 06-3A). -/
def State.unitAddr (s : State) (rs1 : Reg) (off : BitVec 9) : Word := s.x rs1 + sext off * 64

/-- The addresses of consecutive elements. -/
def unitAddrs (ty : ETy) (a : Word) : List (Nat × Word) :=
  (List.range (etyLanes ty)).map (fun i => (i, a + BitVec.ofNat 64 (i * (etyBits ty / 8))))

/-- The addresses of strided active elements. -/
def State.strideAddrs (s : State) (ty : ETy) (rs1 rs2 : Reg) (m : Bool) : List (Nat × Word) :=
  ((List.range (etyLanes ty)).filter (s.active m)).map (fun i => (i, s.x rs1 + BitVec.ofNat 64 i * s.x rs2))

/-- The addresses of indexed active elements. -/
def State.indexAddrs (s : State) (ty : ETy) (rs1 : Reg) (ix : VBits) (m : Bool) : List (Nat × Word) :=
  ((List.range (min (etyLanes ty) 16)).filter (s.active m)).map
    (fun i => (i, s.x rs1 + BitVec.ofInt 64 (toSigned 32 (laneOf 32 ix i))))

/-- `vle` (R128, R130). -/
def execVle (ty : ETy) (vd : VReg) (rs1 : Reg) (off : BitVec 9) (s : State) : Out :=
  let vd := s.rot vd
  let a := s.unitAddr rs1 off
  match s.vheld [vd] with
  | some (c, v) => s.trapOut c v
  | none =>
    match checkEarly s .vload a (etyBits ty / 8) with
    | (s, .error c) => s.trapOut c a
    | (s, .ok leaf) => if pteFmt leaf ≠ 0 then s.loadBlockFmt ty vd a leaf else s.vload ty vd (unitAddrs ty a)

/-- `vse` (R106, R128, R130). -/
def execVse (ty : ETy) (vs : VReg) (rs1 : Reg) (off : BitVec 9) (s : State) : Out :=
  let vs := s.rot vs
  let a := s.unitAddr rs1 off
  let src : List Src := [⟨vs, some (etyTag ty)⟩]
  match s.vheld [vs] with
  | some (c, v) => s.trapOut c v
  | none => match s.vearly src with
    | some (c, v) => s.trapOut c v
    | none =>
      match checkEarly s .vstore a (etyBits ty / 8) with
      | (s, .error c) => s.trapOut c a
      | (s, .ok leaf) =>
        if pteFmt leaf ≠ 0 then s.storeBlockFmt ty vs a leaf
        else match s.vcheck [vs] src with
          | some (c, v) => s.trapOut c v
          | none => s.vstore ty (s.vread vs (etyTag ty) allLanes) (unitAddrs ty a)

/-- `vlds` (R128). -/
def execVlds (ty : ETy) (vd : VReg) (rs1 rs2 : Reg) (m : Bool) (s : State) : Out :=
  let vd := s.rot vd
  match s.vheld [vd] with
  | some (c, v) => s.trapOut c v
  | none => s.vload ty vd (s.strideAddrs ty rs1 rs2 m)

/-- `vsds` (R128). -/
def execVsds (ty : ETy) (vs : VReg) (rs1 rs2 : Reg) (m : Bool) (s : State) : Out :=
  let vs := s.rot vs
  match s.vcheck [vs] [⟨vs, some (etyTag ty)⟩] with
  | some (c, v) => s.trapOut c v
  | none => s.vstore ty (s.vread vs (etyTag ty) (s.active m)) (s.strideAddrs ty rs1 rs2 m)

/-- `vlx` (R128). -/
def execVlx (ty : ETy) (vd : VReg) (rs1 : Reg) (vs2 : VReg) (m : Bool) (s : State) : Out :=
  let vd := s.rot vd
  let ix := s.rot vs2
  match s.vcheck [vd, ix] [⟨ix, none⟩] with
  | some (c, v) => s.trapOut c v
  | none => s.vload ty vd (s.indexAddrs ty rs1 (s.hart.readV ix).bits m)

/-- `vsx` (R128). -/
def execVsx (ty : ETy) (vs : VReg) (rs1 : Reg) (vs2 : VReg) (m : Bool) (s : State) : Out :=
  let vs := s.rot vs
  let ix := s.rot vs2
  match s.vcheck [vs, ix] [⟨vs, some (etyTag ty)⟩, ⟨ix, none⟩] with
  | some (c, v) => s.trapOut c v
  | none => s.vstore ty (s.vread vs (etyTag ty) (fun i => s.active m i && decide (i < 16))) (s.indexAddrs ty rs1 (s.hart.readV ix).bits m)

end Sys2Proof.Machine
end

