-- ==== Sys2Proof/Machine/Tile.lean ====
section
/-! DEFINITION. The tag table (R231 to R234), tile registers (R294 to R297) and the queue ports (R285 to R290), with
the array lease that a push to q0 needs (R299, R300). -/

namespace Sys2Proof.Machine

/-! ### The tag table (R232) -/

/-- The tag of an operand address: VA[56:8]. -/
def tagOf (a : Word) : Nat := bitsNat a 8 49

/-- The valid entry with a tag of the own party. -/
def State.tagEntry (s : State) (t : Nat) : Option TagEntry :=
  s.hart.party.bind (fun p => (s.core s.ownCore).tags.find? (fun e => e.party == p && e.tag == t))

/-- Change the own core's table. -/
def State.mapTags (s : State) (f : List TagEntry → List TagEntry) : State :=
  s.setCore s.ownCore { s.core s.ownCore with tags := f (s.core s.ownCore).tags }

/-- `slook`. -/
def execSlook (rd rs1 : Reg) (s : State) : Out :=
  if s.mode ≠ .u then s.illegal (.slook rd rs1)
  else s.writeRd rd (match s.tagEntry (tagOf (s.x rs1)) with
    | some e => BitVec.ofNat 64 (e.slot + e.user.toNat * 2 ^ 16 + (if e.dirty then 2 ^ 24 else 0))
    | none => BitVec.allOnes 64)

/-- `sinst`. -/
def execSinst (rs1 rs2 : Reg) (s : State) : Out :=
  let w := s.x rs2
  let slot := bitsNat w 0 11
  let t := tagOf (s.x rs1)
  if s.mode ≠ .u then s.illegal (.sinst rs1 rs2)
  else match s.ownParty with
    | none => s.trapOut 27 (BitVec.ofNat 64 (windowBase + 256 * slot))
    | some p =>
      if p.spad.length ≤ slot / 64 then s.trapOut 27 (BitVec.ofNat 64 (windowBase + 256 * slot))
      else
        let e : TagEntry := { party := p.id, slot := slot, tag := t, dirty := w.getLsbD 31, user := w.extractLsb' 16 8 }
        .next (s.mapTags (fun l => l.filter (fun o => !(o.party == p.id && (o.tag == t || o.slot == slot))) ++ [e])).advance

/-- `sinv`. -/
def execSinv (rs1 : Reg) (s : State) : Out :=
  if s.mode ≠ .u then s.illegal (.sinv rs1)
  else match s.tagEntry (tagOf (s.x rs1)) with
    | some e => .next (s.mapTags (fun l => l.erase e)).advance
    | none => .next s.advance

/-- `sclean`. -/
def execSclean (rs1 : Reg) (s : State) : Out :=
  if s.mode ≠ .u then s.illegal (.sclean rs1)
  else match s.tagEntry (tagOf (s.x rs1)) with
    | some e => .next (s.mapTags (fun l => l.map (fun o => if o = e then { o with dirty := false } else o))).advance
    | none => .next s.advance

/-! ### Tile registers (R294 to R296) -/

/-- The TYPE of a view is in Table 17-6. -/
def viewType (t : Nat) : Bool := ([1, 2, 3, 9, 10, 11, 12] : List Nat).contains t
/-- The TYPE is a BX type. -/
def viewBx (t : Nat) : Bool := t == 11 || t == 12

/-- `mtcfg` (R295). -/
def execMtcfg (mt : BitVec 5) (rs1 rs2 : Reg) (s : State) : Out :=
  let base := bitsNat (s.x rs1) 0 19
  let w := s.x rs2
  let rows := bitsNat w 0 8 + 1
  let cols := bitsNat w 8 8 + 1
  let stride := bitsNat w 16 16
  let t := bitsNat w 32 4
  let rb := rowBytes t cols
  let held := match s.ownParty with
    | some p => p.spad.length * extentBytes
    | none => 0
  if s.mode ≠ .u then s.illegal (.mtcfg mt rs1 rs2)
  else if base % 64 ≠ 0 ∨ stride % 64 ≠ 0 ∨ viewType t = false ∨ (viewBx t = true ∧ cols % 32 ≠ 0) ∨ (1 < rows ∧ stride < rb)
      ∨ held < base + (rows - 1) * stride + rb then s.trapOut 33 (mt.setWidth 64)
  else
    let v : BitVec 53 := BitVec.ofNat 53 (base + (rows - 1) * 2 ^ 19 + (cols - 1) * 2 ^ 27 + stride / 64 * 2 ^ 35 + t * 2 ^ 48 + 2 ^ 52)
    .next (s.withHart (fun h => { h with mt := h.mt.set (mt.toNat % 8) v (Nat.mod_lt _ (by decide)) })).advance

/-- Tile register `n`. -/
def Hart.tile (h : Hart) (n : BitVec 5) : BitVec 53 := h.mt[n.toNat % 8]'(Nat.mod_lt _ (by decide))

/-- `mtpack` (R296); `hi` chooses op1. -/
def execMtpack (vd : VReg) (mt : BitVec 5) (hi : Bool) (s : State) : Out :=
  if s.mode ≠ .u then s.illegal (.mtpack vd mt hi)
  else match s.vheld [vd] with
    | some (c, v) => s.trapOut c v
    | none =>
      let t := s.hart.tile mt
      if t.getLsbD 52 = false then s.trapOut 33 (mt.setWidth 64)
      else
        let lo := if hi then 128 else 64
        let old := (s.hart.finalV vd).bits
        let b := (old &&& ~~~((BitVec.allOnes 64).setWidth 512 <<< lo)) ||| ((t.extractLsb' 0 52).setWidth 512 <<< lo)
        .next (s.withHart (fun h => h.setV vd ⟨b, .raw⟩)).advance

/-! ### Queue ports (R285 to R290) -/

/-- The hart may use a port: a service-core hart has no q0 (Table 17-1). -/
def portOpen (h port : Nat) : Bool := isCompute h || port != 0

/-- What the engine takes from the hart in focus (R290, R251, R311, R347, R400). -/
def State.pusher (s : State) (port : Nat) : Pusher :=
  { hart := s.hid, port := port, root := rootOf s.hart.csr.ptroot, ctx := ctxOf s.hart.csr.ptroot
    ctxid := s.hart.csr.ctxid.extractLsb' 0 16, mode := s.mode, kfaultq := s.hart.csr.kfaultq
    rank := s.hart.csr.rank.extractLsb' 0 32, party := s.hart.party, launch := s.ownLaunch.map Launch.id, pmp := s.hart.csr.pmp, near := s.scopeNear }

/-- A command accepted on q0 counts in its lease: the 64th command and MEND end it (R299, Table 18-2). -/
def Lease.count (l : Lease) (mend : Bool) : Lease :=
  { l with commands := l.commands + 1, draining := l.draining || mend || decide (64 ≤ l.commands + 1) }

/-- The site to which a command of q2 goes: that of its routing address (R322). -/
def State.routeSite (s : State) (port : Nat) (w : BitVec 256) : Nat :=
  let va := bitsNat w 64 64
  if port ≠ 2 ∨ 2 ^ 57 ≤ va ∨ inWindow va = true then 0
  else match (translate s (.copy (engineCluster s.hid) s.nextCmd) (rootOf s.hart.csr.ptroot) (ctxOf s.hart.csr.ptroot) va false (fun _ => true)).2 with
    | .ok (e, _) => s.siteOf (normPa (entryPa e va))
    | .error _ => 0

/-- The hart's earlier weak stores go where the engine of a port reads: for the matrix array and the copy engine to the group agent of
their cluster, for the others to the sites, with what the hart has acquired (R166). For a hart of a service core the agent then reads its
sites. -/
def State.publishFor (s : State) (port : Nat) : State :=
  let k := engineCluster s.hid
  if 2 ≤ port then s.publish
  else if isCompute s.hid then s.publishNear s.hid
  else ((s.writeBack k (fun _ => true)).publish).dropLines k (fun _ => true) (fun _ => true)

/-- Accept a command: the hart's earlier weak stores go first, and a SHIP awaits its result (R166, R286, R287). -/
def State.accept (s : State) (port : Nat) (w : BitVec 256) : State :=
  let s := s.publishFor port
  let c : Command := { word := w, by_ := s.pusher port, done := 0, id := s.nextCmd }
  let s : State := { s with
    engines := s.engines ++ [{ cmd := c, site := s.routeSite port w, parked := false, started := false, since := s.clock }]
    nextCmd := s.nextCmd + 1 }
  let s := if c.cmd = 0x42 then s.withHart (fun h => { h with ships := h.ships ++ [none] }) else s
  if port = 0 then
    let k := clusterOf s.hid
    s.setCluster k { s.cluster k with lease := (s.cluster k).lease.count (c.cmd == 4) }
  else s

/-- A SHIP that finds eight results of the hart unpopped or pending (R287). -/
def State.shipFull (s : State) (w : BitVec 256) : Bool := bitsNat w 0 8 == 0x42 && decide (8 ≤ s.hart.ships.length)

/-- Submit(N, w), with what the hart does besides (R287). -/
def State.submit (s : State) (port : Nat) (w : BitVec 256) (k : State → State) : Out :=
  if s.shipFull w then s.trapOut 35 (BitVec.ofNat 64 port)
  else if s.engineReady s.hid (s.hart.waitTime s.choices) port (s.routeSite port w) then .next (k (s.accept port w)).advance
  else s.block (.engine port (s.routeSite port w))

/-- The staging buffer of a port. -/
def Hart.staged (h : Hart) (port : Nat) : Stage := if hp : port < 5 then h.stage[port] else ⟨0, 0⟩
/-- Replace it. -/
def Hart.setStaged (h : Hart) (port : Nat) (x : Stage) : Hart := if hp : port < 5 then { h with stage := h.stage.set port x } else h

/-- `qpush`; `hi` chooses the upper half (R287). -/
def execQpush (port : BitVec 5) (vs : VReg) (hi : Bool) (s : State) : Out :=
  let n := port.toNat
  if s.mode = .m then s.illegal (.qpush port vs hi)
  else if portOpen s.hid n = false then s.trapOut 35 (BitVec.ofNat 64 n)
  else match s.vcheck [vs] [⟨vs, none⟩] with
    | some (c, v) => s.trapOut c v
    | none =>
      if (s.hart.staged n).fill ≠ 0 then s.trapOut 35 (BitVec.ofNat 64 n)
      else s.submit n ((s.hart.readV vs).bits.extractLsb' (if hi then 256 else 0) 256) (fun s => s)

/-- `qput` (R287). -/
def execQput (port : BitVec 5) (rs : Reg) (s : State) : Out :=
  let n := port.toNat
  if s.mode = .m then s.illegal (.qput port rs)
  else if portOpen s.hid n = false then s.trapOut 35 (BitVec.ofNat 64 n)
  else
    let st := s.hart.staged n
    let w : BitVec 256 := (st.word &&& ~~~((BitVec.allOnes 64).setWidth 256 <<< (64 * st.fill))) ||| ((s.x rs).setWidth 256 <<< (64 * st.fill))
    if st.fill = 3 then s.submit n w (fun s => s.withHart (fun h => h.setStaged n ⟨0, 0⟩))
    else .next (s.withHart (fun h => h.setStaged n ⟨st.fill + 1, w⟩)).advance

/-- `qpop` (R287). -/
def execQpop (rd : Reg) (port : BitVec 5) (s : State) : Out :=
  if s.mode = .m then s.illegal (.qpop rd port)
  else if port ≠ 2 then s.trapOut 35 (port.setWidth 64)
  else match s.hart.ships with
    | [] => s.trapOut 35 (port.setWidth 64)
    | none :: _ => s.block .ship
    | some r :: rest => (s.withHart (fun h => { h with ships := rest })).writeRd rd r

/-! ### The array lease (R299, R300) -/

/-- The cores of a cluster with a hart that waits in Submit to q0. -/
def State.leaseSeekers (s : State) (k : Nat) : List Nat :=
  (coresOf [k]).filter (fun c => ([0, 1, 2, 3] : List Nat).any (fun j => match (s.getHart (4 * c + j)).blocked with
    | some (.engine q _) => q == 0
    | _ => false))

/-- The next core in order after the last holder. -/
def nextCore (last : Nat) (cs : List Nat) : Option Nat :=
  match cs.find? (fun c => last < c) with
  | some c => some c
  | none => cs.head?

/-- LEASE_GRANT: a free array goes to the next requesting core, its counts at zero (R299, R300). -/
def execLeaseGrant (cluster : Nat) (s : State) : Out :=
  let c := s.cluster cluster
  match c.lease.holder, nextCore c.lease.last (s.leaseSeekers cluster) with
  | none, some core =>
    .next (s.setCluster cluster { c with
      lease := { holder := some core, draining := false, last := core, commands := 0, cycles := 0, idleSince := none }, loadedB := none })
  | _, _ => .next s

/-- The holder has no accepted command and no waiting hart while another core requests (R299). -/
def State.leaseIdle (s : State) (k : Nat) : Bool :=
  match (s.cluster k).lease.holder with
  | none => false
  | some core =>
    let seekers := s.leaseSeekers k
    !seekers.isEmpty && !seekers.contains core && !s.engines.any (fun a => a.cmd.by_.port == 0 && coreOf a.cmd.by_.hart == core)

/-- The cycle at which the idle holder's 64 cycles are over (R299). -/
def State.leaseIdleEnd (s : State) (k : Nat) : Nat := (s.cluster k).lease.idleSince.getD s.clock + 64

/-- A lease notes since when its holder is idle while another core requests (R299). -/
def State.lookLease (s : State) (k : Nat) : State :=
  let c := s.cluster k
  s.setCluster k { c with lease := { c.lease with
    idleSince := if s.leaseIdle k then some (c.lease.idleSince.getD s.clock) else none } }

/-- Every lease is looked at. -/
def State.lookLeases (s : State) : State := (s.clusters.map (·.1)).foldl State.lookLease s

/-- LEASE_IDLE_EXPIRY: 64 such cycles have passed, and the lease passes (R299; log 16). -/
def execLeaseIdleExpiry (cluster : Nat) (s : State) : Out :=
  let c := s.cluster cluster
  .next (if s.leaseIdle cluster then
      { s.setCluster cluster { c with lease := { c.lease with holder := none, draining := false, idleSince := none } } with
        clock := max s.clock (s.leaseIdleEnd cluster) }
    else s)

end Sys2Proof.Machine
end

