-- ==== Sys2Proof/Machine/Kernel.lean ====
section
/-! DEFINITION. System calls (R362), `mprobe` and `mhint` (R266, R267), `launch` (R134 to R139, R385), `frec` (R375), the
monitor's instructions (R402 to R406) and the rotation of keys (R410). -/

namespace Sys2Proof.Machine

/-! ### System calls (R362) -/

/-- The context page's word of the hart in focus at an offset. -/
def State.ownField (s : State) (off n : Nat) : Nat := s.ctxField (rootOf s.hart.csr.ptroot) off n

/-- An entry of the system-call ring from the request's bytes (Table 22-6). -/
def scallEntry (req : List Byte) (ctx rank : Nat) : List Byte :=
  takeBytes req 0 4 ++ bytesOfNat 2 ctx ++ bytesOfNat 2 0 ++ bytesOfNat 4 rank ++ bytesOfNat 4 0 ++ takeBytes req 16 48

/-- `scall`. -/
def execScall (rs1 : Reg) (s : State) : Out :=
  let ring : Word := BitVec.ofNat 64 (s.ownField 0x150 8)
  if s.mode ≠ .u then s.illegal (.scall rs1)
  else if ringNamed ring = false then s.trapOut 8 0
  else match check s .load (s.x rs1) 64 false with
    | (s, .error c) => s.trapOut c (s.x rs1)
    | (s, .ok p) =>
      let req := s.readPlace p 64
      s.publishThen (fun s =>
        if s.ringFull ring then s.block .ring
        else .next ((s.chargeBlanket p 64).ringWrite ring
          (scallEntry req (bitsNat s.hart.csr.ctxid 0 16) (bitsNat s.hart.csr.rank 0 32))).advance)

/-! ### `mprobe` (R266) -/

/-- SIZE of a leaf (Table 15-9). -/
def probeSize (bits : Nat) : Nat := ([12, 16, 21, 25, 30, 34] : List Nat).findIdx (fun b => b == bits)

/-- The leaf's bits and fields as a report shows them, with RIGHTS (Table 15-9). -/
def probeLeaf (p : Word) (level rights : Nat) : Nat :=
  bitsNat p 1 6 * 2 + (if ptePin p then 2 ^ 7 else 0) + probeSize (leafBits level (pteSpan p)) * 2 ^ 8 + pteArena p * 2 ^ 11
    + pteFmt p * 2 ^ 14 + pteCmp p * 2 ^ 18 + pteKind p * 2 ^ 21 + bitsNat p 62 2 * 2 ^ 24
    + (if pteKind p = 1 then 2 ^ 26 else 0) + rights * 2 ^ 28

/-- A report that only fails. -/
def probeFail (n : Nat) : Nat := n * 2 ^ 32

/-- WINDOW. -/
def probeWindow : Nat := 2 ^ 27

/-- The report on a window address. -/
def State.probeInWindow (s : State) (a : Nat) : Nat :=
  match s.ownParty.bind (fun p => windowPlace p a 1) with
  | none => probeFail 6 + probeWindow
  | some _ => probeWindow + (if (a - windowBase) / extentBytes < 31 then 0x7F else 0x77)

/-- The report on an address (Table 15-9): FAIL 1, the walk, 7, then 4 and 5. M-mode walks as S-mode. DEDUCED (log 57). -/
def State.probe (s : State) (a : Nat) : Nat :=
  if 2 ^ 57 ≤ a then probeFail 1
  else if inWindow a then s.probeInWindow a
  else match walk s (dieOfCore s.ownCore) (ctxOf s.hart.csr.ptroot) (rootOf s.hart.csr.ptroot) a with
    | .error .notMapped => probeFail 2
    | .error .malformed => probeFail 3
    | .error .unowned => probeFail 4
    | .error .revoked => probeFail 5
    | .error .integrity => probeFail 8
    | .ok (p, level, _) =>
      let pa := ptePfn p * 4096 + a % 2 ^ leafBits level (pteSpan p)
      let r := leafRights s pa (pteKind p) false
      if permits p (if s.mode = .u then .u else .s) .read = false then
        probeFail 7 + probeLeaf p level (match r with
          | .ok n => n
          | .error _ => 0)
      else match r with
        | .ok n => 1 + probeLeaf p level n
        | .error c => probeFail (if c = 30 then 5 else 4)

/-- `mprobe`. -/
def execMprobe (rd rs1 : Reg) (s : State) : Out := s.writeRd rd (BitVec.ofNat 64 (s.probe (s.x rs1).toNat))

/-! ### `mhint` (R267) -/

/-- The hint ring's entry. -/
def hintEntry (ctx temp n : Nat) (va : Word) : List Byte :=
  bytesOfNat 8 (ctx + temp * 2 ^ 16 + n * 2 ^ 32) ++ bytesOfNat 8 va.toNat

/-- Count a dropped hint. -/
def State.dropHint (s : State) (root : Nat) : State :=
  s.store (pageAt root 0x12C) (bytesOfNat 4 (s.loadNat (pageAt root 0x12C) 4 + 1))

/-- Write a hint, or drop and count it; the ring's cursors are not cached (R253). -/
def State.hint (s : State) (root : Nat) (bs : List Byte) : State :=
  let size := 2 ^ s.ctxField root 0x120 4
  let head := s.loadNat (pageAt root 0x124) 4
  let tail := s.loadNat (pageAt root 0x128) 4
  if (head + 0x100000000 - tail) % 0x100000000 = size then s.dropHint root
  else match deviceWrite s (s.rootCtx root) root (s.ctxField root 0x118 8 + 16 * (head % size)) bs with
    | some s => s.store (pageAt root 0x124) (bytesOfNat 4 (head + 1))
    | none => s.dropHint root

/-- `mhint`. -/
def execMhint (rs1 rs2 : Reg) (s : State) : Out :=
  let w := s.x rs2
  let root := rootOf s.hart.csr.ptroot
  let temp := bitsNat w 0 2
  let n := bitsNat w 16 16
  .next ((if temp = 3 ∨ root = 0 ∨ s.ctxField root 0x120 4 = 0 then s
    else s.hint root (hintEntry (bitsNat s.hart.csr.ctxid 0 16) temp (if n = 0 then 1 else n) (s.x rs1))).advance)

/-! ### `launch` (R134 to R139, R385) -/

/-- A field of a record. -/
def recField (bs : List Byte) (off n : Nat) : Nat := natOfBytes (takeBytes bs off n)

/-- The bytes of a launch record, when it is aligned, in local HBM and readable (LAUNCH_FAULT). -/
def State.launchRecord (s : State) (a : Nat) : Option (List Byte) :=
  let k := normPa a
  if a % 64 ≠ 0 ∨ inLocalHbm s (k + 63) = false ∨ poisoned s.poison k 64 = true then none
  else
    let n := 64 * (s.loadNat (k + 2) 1 + 1)
    if inLocalHbm s (k + n - 1) = false ∨ poisoned s.poison k n = true then none else some (s.load k n)

/-- A stage entry (Table 07-2). -/
def stageOf (bs : List Byte) (k : Nat) : StageEntry :=
  let f (off n : Nat) : Nat := recField bs (64 * (k + 1) + off) n
  { entry := BitVec.ofNat 64 (f 0 8), harts := f 8 1, vregInit := f 9 1, vregMax := f 10 1, spadInit := f 11 1, spadMax := f 12 1
    hamperInit := f 13 1, hamperMax := f 14 1, affinity := f 15 1, capacity := f 16 4, downstream := BitVec.ofNat 8 (f 20 1) }

/-- A stage entry that LAUNCH_BAD_HEADER refuses. -/
def badStage (stages : Nat) (e : StageEntry) : Bool :=
  decide (e.harts = 0 ∨ 4 < e.harts ∨ 32 < e.vregMax ∨ 31 < e.spadMax ∨ 32 < e.hamperMax ∨ e.vregMax < e.vregInit
    ∨ e.spadMax < e.spadInit ∨ e.hamperMax < e.hamperInit ∨ 2 < e.affinity ∨ e.capacity = 0 ∨ e.entry.toNat % 4 ≠ 0
    ∨ 2 ^ stages ≤ e.downstream.toNat)

/-- The record's reserved bytes are zero. -/
def reservedZero (bs : List Byte) (stages : Nat) : Bool :=
  recField bs 36 28 == 0 && (List.range stages).all (fun k => recField bs (64 * (k + 1) + 21) 43 == 0)

/-- LAUNCH_BAD_HEADER. -/
def badHeader (bs : List Byte) : Bool :=
  let stages := recField bs 2 1
  let flags := recField bs 3 1
  decide (recField bs 0 2 ≠ 1 ∨ stages = 0 ∨ 8 < stages ∨ 8 ≤ flags ∨ (flags / 2 % 2 = 1 ∧ recField bs 4 4 = 0))
    || !reservedZero bs stages || (List.range stages).any (fun k => badStage stages (stageOf bs k))

/-- The partition of a context that is on the device. -/
def State.partition (s : State) (ctx : BitVec 16) : List Nat :=
  match s.ctx? ctx with
  | some c => if c.state = .saved then [] else c.clusters
  | none => []

/-- The clusters of a launch: those of the mask, or the whole partition (Table 07-1). -/
def launchClusters (mask : Nat) (part : List Nat) : List Nat := if mask = 0 then part else maskList 64 mask

/-- The joined launch that the hart asks for (R385). -/
def State.joinAsked (s : State) : Option (Nat × BitVec 128) :=
  if isCompute s.hid then none
  else
    let g := s.svcRegs (s.hid - Config.computeHarts)
    if g.joinId = 0 then none else some (g.joinId.toNat, g.joinMask)

/-- JOIN_MASK names this device, and only devices present. -/
def State.joinOk (s : State) (mask : BitVec 128) : Bool := mask.getLsbD Config.devno && (mask &&& ~~~s.present) == 0

/-- Validate (Table 07-3): the status of a record, in order. -/
def State.launchStatus (s : State) (bs : List Byte) (ctx : BitVec 16) : Nat :=
  let stages := (List.range (recField bs 2 1)).map (stageOf bs)
  let cs := launchClusters (recField bs 8 8) (s.partition ctx)
  if badHeader bs then 1
  else if (match s.joinAsked with
    | some j => !s.joinOk j.2
    | none => false) then 7
  else if (s.partition ctx).isEmpty || !cs.all (fun k => (s.partition ctx).contains k) then 2
  else if stages.any (fun e => decide (24 < e.harts * granules e.vregMax)) then 4
  else if recField bs 3 1 / 4 % 2 = 1 ∧ s.keys.any (fun k => k.kind == .context ctx) = false then 6
  else if s.launches.any (fun l => l.ctx == ctx && (l.ended.isNone || !l.told)) then 3
  else 0

/-- The launch that a record describes. -/
def State.newLaunch (s : State) (bs : List Byte) (ctx : BitVec 16) : Launch :=
  let n := recField bs 2 1
  let stages := (List.range n).map (stageOf bs)
  { id := s.nextLaunch, ctx := ctx, flags := BitVec.ofNat 8 (recField bs 3 1), slices := recField bs 4 4
    clusters := launchClusters (recField bs 8 8) (s.partition ctx), arg := BitVec.ofNat 64 (recField bs 16 8)
    tasksPtr := BitVec.ofNat 64 (recField bs 24 8), initial := some none, completion := recField bs 32 4
    submitter := s.hid, stages := stages
    queues := stages.map (fun e => { tasks := [], emitted := [], sample := (0, e.capacity), since := 0 })
    sstep := 0, appends := [], sent := 0, received := 0, retired := 0, sweep := none, stallSeen := false, stepStart := s.clock
    arrivals := [], join := s.joinAsked, joining := s.joinAsked.isSome, sliceBase := 0, sampledAt := s.clock, held := [], away := []
    deadTags := [], ended := none, told := false }

/-- A context that launches without BSP loses its pair, and the groups that watch either hear NOT_BSP (R427). -/
def State.unpairAtLaunch (s : State) (ctx : BitVec 16) (bsp : Bool) : State :=
  match (s.ctx? ctx).bind Context.pairedWith with
  | none => s
  | some o =>
    if bsp then s
    else
      let s := s.unpair ctx
      { s with svc := s.svc.map (fun (g : Nat × SvcRegs) =>
          if g.2.dbgCtx = ctx ∨ g.2.dbgCtx = o then (g.1, { g.2 with dbgResult := 2 }) else g) }

/-- JOIN_ID is cleared and JOIN_STAT reads 1 (R385). -/
def State.noteJoin (s : State) : State :=
  match s.joinAsked with
  | none => s
  | some _ =>
    let h := s.hid - Config.computeHarts
    s.setSvc h { s.svcRegs h with joinId := 0, joinStat := 1 }

/-- A launch starts (R138): the next id follows, 0 skipped. -/
def State.startLaunch (s : State) (bs : List Byte) (ctx : BitVec 16) : State :=
  let l := s.newLaunch bs ctx
  let s : State := { s with launches := s.launches ++ [l], nextLaunch := if s.nextLaunch = 0xFFFF then 1 else s.nextLaunch + 1 }
  (s.unpairAtLaunch ctx (l.flags.getLsbD 0)).noteJoin

/-- `launch` (R138). -/
def execLaunch (rd rs1 : Reg) (s : State) : Out :=
  let ctx := s.hart.csr.ctxid.extractLsb' 0 16
  if s.mode = .u then s.illegal (.launch rd rs1)
  else match s.launchRecord (s.x rs1).toNat with
    | none => s.writeRd rd 5
    | some bs =>
      let st := s.launchStatus bs ctx
      if st ≠ 0 then s.writeRd rd (BitVec.ofNat 64 st)
      else (s.startLaunch bs ctx).writeRd rd (BitVec.ofNat 64 (s.nextLaunch * 65536))

/-! ### `frec` (R375) -/

/-- `frec`. -/
def execFrec (rd rs1 rs2 : Reg) (s : State) : Out :=
  if s.mode = .u then s.illegal (.frec rd rs1 rs2)
  else s.publishThen (fun s =>
    let (s', r) := s.commitBatch (if s.mode = .m then .monitor else .accel) (s.x rs1).toNat (bitsNat (s.x rs2) 0 6)
    s'.writeRd rd (BitVec.ofNat 64 r))

/-! ### The monitor (R402 to R406) -/

/-- RESULT written, SLOT kept. -/
def State.result (s : State) (r : Nat) : State := s.withCsr (fun c => { c with mstat := setResult c.mstat r })
/-- RESULT and SLOT written. -/
def State.resultSlot (s : State) (r slot : Nat) : State :=
  s.withCsr (fun c => { c with mstat := BitVec.ofNat 64 (r % 16 + slot % 128 * 256) })

/-- Slot `n` is FREE. -/
def State.slotFree (s : State) (n : Nat) : Bool := !s.keys.any (fun k => k.slot == n)

/-- A key fills a slot. -/
def State.addKey (s : State) (k : KeySlot) : State := { s with keys := s.keys ++ [k] }

/-- A new PENDING key lets the streams that stopped for want of it go on (R408). -/
def State.restartStreams (s : State) (ctx : BitVec 16) : State :=
  { s with cores := s.cores.map (fun (c : Nat × Core) =>
      if c.2.encl.getLsbD 16 = true ∧ c.2.encl.extractLsb' 0 16 = ctx then (c.1, { c.2 with meshStopped := false }) else c) }

/-- A generated key (R402). -/
def State.generate (s : State) (slot : Nat) (pending : Bool) (kind : KeyKind) : State :=
  let s := s.addKey { slot := slot, pending := pending, kind := kind, xts := Config.generatedKey s.generated
                      gcm := Config.generatedGcm s.generated, streams := [] }
  { s with generated := s.generated + 1 }

/-- USE 0: a context key, ACTIVE or PENDING (R402, R404). -/
def State.contextKey (s : State) (slot : Nat) (ctx : BitVec 16) : State :=
  let has (pending : Bool) : Bool := s.keys.any (fun k => k.kind == .context ctx && k.pending == pending)
  if has false && has true then s.result 5
  else
    let pending := has false || has true
    let s := (s.generate slot pending (.context ctx)).mapCtx ctx (fun c => { c with protected_ := true })
    ((if pending then s.restartStreams ctx else s).resultSlot 0 slot)

/-- The bytes at a physical address, when each can be read. -/
def State.readPhysical (s : State) (a n : Nat) : Option (List Byte) :=
  if (List.range n).all (fun i => decide (a + i < 2 ^ 48) && s.named (a + i) && !inMmio (a + i) && s.answers (a + i)
      && !poisoned s.poison (normPa (a + i)) 1 && !s.linkCut (a + i) 1) then
    some ((List.range n).map (fun i => Memory.get s.mem (normPa (a + i))))
  else none

/-- A failed unwrap is counted; the 16th within 1 s raises the alarm (R414). -/
def State.countBlob (s : State) : State :=
  let l := (s.clock :: s.badBlobs).take 16
  let s : State := { s with badBlobs := l }
  if l.length = 16 ∧ s.clock ≤ l.getLastD 0 + 3000000000 then s.raise .alarm else s

/-- USE 1: a model key, imported from a blob (R404). -/
def State.modelKey (s : State) (slot a : Nat) : State :=
  match s.readPhysical a 160 with
  | none => s.result 3
  | some bs => match Config.unwrapModelKey bs with
    | none => s.countBlob.result 3
    | some k => (s.addKey { slot := slot, pending := false, kind := .model, xts := k, gcm := 0, streams := [] }).resultSlot 0 slot

/-- USE 3: a slot becomes FREE, and the sealed-key entries that name it empty (R404). -/
def State.eraseSlot (s : State) (slot : Nat) : State :=
  { s with keys := s.keys.filter (fun k => k.slot != slot), sealedKeys := s.sealedKeys.filter (fun e => e.2 != slot) }

/-- What `monkey` does with the slot it has chosen. -/
def State.useKey (s : State) (use slot : Nat) (ctx : BitVec 16) (blob : Nat) : State :=
  match use with
  | 0 => s.contextKey slot ctx
  | 1 => s.modelKey slot blob
  | 2 => (s.generate slot false .kernel).resultSlot 0 slot
  | _ => (s.eraseSlot slot).resultSlot 0 slot

/-- `monkey` (R404). -/
def execMonkey (rs1 rs2 : Reg) (s : State) : Out :=
  let w := s.x rs1
  let use := bitsNat w 8 2
  let slot := bitsNat w 0 7
  if s.mode ≠ .m then s.illegal (.monkey rs1 rs2)
  else s.publishThen (fun s =>
    let go (n : Nat) : State := s.useKey use n (w.extractLsb' 16 16) (s.x rs2).toNat
    .next ((if w.getLsbD 7 then (match s.freeSlot with
        | none => s.result 1
        | some n => go n)
      else if use ≠ 3 ∧ s.slotFree slot = false then s.result 2
      else go slot).advance))

/-- `monseal` (R405). DEDUCED (log 51). -/
def execMonseal (rs1 rs2 : Reg) (s : State) : Out :=
  let entry := bitsNat (s.x rs1) 0 16 * 8 + bitsNat (s.x rs1) 16 3
  let slot := bitsNat (s.x rs2) 0 7
  if s.mode ≠ .m then s.illegal (.monseal rs1 rs2)
  else s.publishThen (fun s =>
    let others := s.sealedKeys.filter (fun e => e.1 != entry)
    .next ((if (s.x rs2).getLsbD 7 then ({ s with sealedKeys := others } : State).resultSlot 0 slot
      else if s.keys.any (fun k => k.slot == slot && !k.pending && k.kind == .model) then
        ({ s with sealedKeys := others ++ [(entry, slot)] } : State).resultSlot 0 slot
      else s.resultSlot 2 slot).advance))

/-- `monenter` (R406). -/
def execMonenter (rs1 : Reg) (s : State) : Out :=
  let ctx := (s.x rs1).extractLsb' 0 16
  if s.mode ≠ .m then s.illegal (.monenter rs1)
  else s.publishThen (fun s =>
    let c := s.core s.ownCore
    .next ((if s.keys.any (fun k => k.kind == .context ctx && !k.pending) = false then s.result 4
      else if c.encl.getLsbD 16 = true ∧ c.encl.extractLsb' 0 16 ≠ ctx then s.result 5
      else (s.setCore s.ownCore { c with encl := ctx.setWidth 17 ||| 0x10000 }).result 0).advance))

/-- A hart of a core that leaves its enclave: vector registers, tile registers and fetch buffer (R406). -/
def Hart.wipe (h : Hart) : Hart :=
  { h with v := Vector.replicate 32 VecReg.zero, inflight := [], mt := Vector.replicate 8 0, fetch := [] }

/-- A core that leaves its enclave: tag table, instruction cache, interface binding, and the bytes of its inboxes, which lie
in its scratchpad (R406). -/
def Core.wipe (c : Core) : Core :=
  { c with
    encl := 0
    tags := []
    icache := []
    queues := c.queues.map (fun q => { q with entries := q.entries.map (fun _ => 0) }) }

/-- `monleave` (R406). DEDUCED (log 51). -/
def execMonleave (s : State) : Out :=
  if s.mode ≠ .m then s.illegal .monleave
  else s.publishThen (fun s =>
    let k := s.ownCore
    let s := ([0, 1, 2, 3] : List Nat).foldl (fun s j => s.setHart (4 * k + j) (s.getHart (4 * k + j)).wipe) s
    let s : State := { s with
      mem := Memory.clear s.mem (spadKey k 0) (spadKey k spadBytes)
      poison := unpoison s.poison (spadKey k 0) spadBytes }
    .next ((((s.openCore k).setCore k (s.core k).wipe).result 0).advance))

/-! ### Rotation (R410) -/

/-- The bytes of a frame become free values: they were not re-encrypted and are decrypted under the new key (R410).
DEDUCED (log 51). -/
def State.scrambleFrame (s : State) (frame : Nat) : State :=
  (List.range 0x10000).foldl (fun s i =>
    { s with mem := Memory.put s.mem (frame * 0x10000 + i) (Config.freeByte s.choices), choices := s.choices + 1 }) s

/-- ROTATION_COMPLETE: BUSY becomes 0 and interrupt 11 pending at the starting hart; then old messages are delivered (R410). -/
def execRotationComplete (ctx : BitVec 16) (s : State) : Out :=
  match s.rotations.find? (fun r => r.ctx == ctx && !r.done) with
  | none => .next s
  | some r =>
    let left := (s.encrypted.filter (fun e => e.2 == ctx && !r.frames.contains e.1)).map (·.1)
    let s := left.foldl State.scrambleFrame s
    let s : State := { s with rotations := s.rotations.map (fun (o : Rotation) => if o.ctx = ctx then { o with done := true } else o) }
    let x := s.getHart r.hart
    .next ((s.setHart r.hart { x with csr := { x.csr with meip := true } }).raise (.oldKeyRetire ctx))

/-- OLD_KEY_RETIRE: the old slot becomes FREE and the PENDING key ACTIVE (R410). -/
def execOldKeyRetire (ctx : BitVec 16) (s : State) : Out :=
  .next (if s.rotations.any (fun r => r.ctx == ctx && r.done) then
    { s with
      rotations := s.rotations.filter (fun r => !(r.ctx == ctx && r.done))
      keys := (s.keys.filter (fun k => !(k.kind == .context ctx && !k.pending))).map (fun (k : KeySlot) =>
        if k.kind = .context ctx then { k with pending := false } else k) }
  else s)

end Sys2Proof.Machine
end

