-- ==== Sys2Proof/Machine/Matrix.lean ====
section
/-! DEFINITION. The matrix engine: MZERO, MLOADW, MMA, MDRAIN and MEND (R298 to R315). -/

namespace Sys2Proof.Machine

/-- An engine performs a command that it has accepted; of any other nothing is performed (R286, R292).
DESIGN CHOICE (log 7). -/
def State.perform (s : State) (c : Command) (k : State → State) : Out :=
  .next (if s.engines.any (fun a => a.cmd == c) then k s else s)

/-! ### Views (R294, R307) -/

/-- The virtual address of row `i`. -/
def View.rowVa (v : View) (i : Nat) : Nat := windowBase + v.row i

/-- An operand that is no view a command accepts (R307). DEDUCED (log 45). -/
def badView (w : Word) : Bool :=
  let v := viewOf w
  bitsNat w 52 12 != 0 || v.base % 64 != 0 || !viewType v.type || (viewBx v.type && v.cols % 32 != 0)
    || (decide (1 < v.rows) && decide (v.stride < v.rb))

/-- Two views share a byte (R309, R311). -/
def View.meets (a b : View) : Bool :=
  (List.range a.rows).any (fun i => (List.range b.rows).any (fun j =>
    decide (a.row i < b.row j + b.rb) && decide (b.row j < a.row i + a.rb)))

/-- The view reaches outside the extents that the pusher's party holds (R217). -/
def State.viewUnheld (s : State) (c : Command) (v : View) : Bool :=
  let held := match s.pusherParty c with
    | some p => p.spad.length * extentBytes
    | none => 0
  decide (held < v.row (v.rows - 1) + v.rb)

/-- The image of a command runs past the held segments (R216, R308, R309). -/
def State.imageUnheld (s : State) (c : Command) : Bool :=
  let held := match s.pusherParty c with
    | some p => p.hamper.length * segmentBytes
    | none => 0
  decide (held < cmdBits c 32 5 * segmentBytes + imageBytes c)

/-! ### Elements (R87, R96, R98) -/

/-- The float format of a view or image type that is not BX. -/
def typeFmt (t : Nat) : Fmt :=
  match t with
  | 1 => fmtF32 | 2 => fmtBf16 | 3 => fmtF16 | 9 => fmtE4m3 | _ => fmtE5m2
/-- The block width of a BX type. -/
def typeWidth (t : Nat) : Nat := if t = 11 then 8 else 4
/-- A BX block from its element bytes and scale word. -/
def blockFrom (t : Nat) (elems scale : List Byte) : Block :=
  { w := typeWidth t, bytes := elems.map BitVec.toNat, scale := natOfBytes scale }

/-- The exact values of 32 elements. -/
def values32 (t : Nat) (elems scale : List Byte) : List FVal :=
  if viewBx t then (List.range 32).map (blockVal (blockFrom t elems scale))
  else
    let k := elemBytes t 1
    (List.range 32).map (fun i => (typeFmt t).decode false (natOfBytes (takeBytes elems (k * i) k)))

/-- Block `j` of a row of a view: element bytes and scale word (R294). -/
def rowBlock (t cols : Nat) (row : List Byte) (j : Nat) : List Byte × List Byte :=
  let k := elemBytes t 32
  (takeBytes row (k * j) k, if viewBx t then takeBytes row (elemBytes t cols + 4 * j) 4 else [])

/-- Every BX block of a row has a good CHK (R89). -/
def rowOk (t cols : Nat) (row : List Byte) : Bool :=
  !viewBx t || (List.range (cols / 32)).all (fun j =>
    blockOk (blockFrom t (rowBlock t cols row j).1 (rowBlock t cols row j).2))

/-- The F32 elements of a row. -/
def f32Row (row : List Byte) (cols : Nat) : List Nat := (List.range cols).map (fun n => natOfBytes (takeBytes row (4 * n) 4))
/-- A row from its F32 elements. -/
def rowOfF32 (xs : List Nat) : List Byte := xs.flatMap (bytesOfNat 4)

/-! ### The hamper (R304, R305) -/

/-- Where a byte of the image that starts in segment `seg` lies. -/
def Party.hamperAt (p : Party) (seg off : Nat) : Nat :=
  hamperKey (clusterOfCore p.core) ((p.hamper.drop (seg + off / segmentBytes)).headD 0 * segmentBytes + off % segmentBytes)

/-- Bytes of an image; none when some are uncorrectable. -/
def State.hamperRead (s : State) (p : Party) (seg off n : Nat) : Option (List Byte) :=
  let ks := (List.range n).map (fun i => p.hamperAt seg (off + i))
  if ks.any (fun k => poisoned s.poison k 1) then none else some (ks.map (Memory.get s.mem))

/-- Write bytes into an image, segment by segment. -/
def State.hamperWrite (s : State) (p : Party) (seg off : Nat) (bs : List Byte) : State :=
  let room := segmentBytes - off % segmentBytes
  let s := s.storeWhole (p.hamperAt seg off) (bs.take room)
  if bs.length ≤ room then s else s.storeWhole (p.hamperAt seg (off + room)) (bs.drop room)

/-! ### MZERO (R307) -/

/-- MZERO: +0 in every element of the C view. -/
def execMzero (c : Command) (s : State) : Out :=
  s.perform c (fun s =>
    let v := viewOf (cmdOp1 c)
    if badCommand c false false false (cmdBits c 32 32 != 0 || cmdOp0 c != 0 || cmdOp2 c != 0) || badView (cmdOp1 c) || v.type != 1 then
      s.complete c 1 0 0
    else if s.viewUnheld c v then s.complete c 6 0 0
    else
      let s := (List.range v.rows).foldl (fun s i => engWrite s c (matrixTlb c) (v.rowVa i) (List.replicate v.rb 0)) s
      s.complete c 0 (BitVec.ofNat 64 (v.rows * v.rb)) 0)

/-! ### MLOADW (R308) -/

/-- Bytes of a source block by FORMAT (R308). -/
def sourceBytes (format : Nat) : Nat := elemBytes format 32

/-- A FORMAT of Table 18-4. -/
def formatKnown (format : Nat) : Bool := recBytes format != 0

/-- The page's FMT is one that a FORMAT reads (R308). -/
def sourceFmtOk (format fmt : Nat) : Bool :=
  match format with
  | 11 => fmt == 1
  | 12 => fmt == 2
  | 9 => fmt == 0 || fmt == 3
  | 10 => fmt == 0 || fmt == 4
  | _ => fmt == 0

/-- The rules on a MLOADW's fields (R308). -/
def badLoad (c : Command) : Bool :=
  let f := cmdBits c 37 4
  let kb := cmdBits c 41 3
  let ncol := cmdBits c 44 8
  let col0 := cmdBits c 52 9
  let stride := bitsNat c.word 128 32
  badCommand c true false false (cmdBits c 61 3 != 0 || bitsNat c.word 160 96 != 0) || !formatKnown f
    || stride % sourceBytes f != 0 || (decide (0 < ncol) && decide (stride < (kb + 1) * sourceBytes f))
    || (if cmdResume c then decide (ncol < col0) else col0 != 0)

/-- The key of a sealed page, through entry KEYIX of the context's table (R308, R405). -/
def State.sealedKey (s : State) (ctx : BitVec 16) (p : Word) : Option (BitVec 512) :=
  let slot := (s.sealedKeys.find? (fun e => e.1 == 8 * ctx.toNat + pteKeyix p)).map (·.2)
  slot.bind (fun n => (s.keys.find? (fun k => k.slot == n && !k.pending && k.kind == .model)).map KeySlot.xts)

/-- A piece of a source block that lies in one 256-byte block of memory: its place, length and, on a sealed page, key. -/
structure Source where
  place : Place
  len   : Nat
  key   : Option (BitVec 512)
  deriving DecidableEq, Repr

/-- Find the pieces of a source block: the places, or the cause and address of the first that fails. -/
def loadPieces (s : State) (c : Command) (format : Nat) : List (Nat × Nat) → State × Except (Nat × Nat) (List Source)
  | [] => (s, .ok [])
  | (a, n) :: rest =>
    match engPlaceWith true true s c (matrixTlb c) a n false with
    | (s, .error e) => (s, .error (e, a))
    | (s, .ok p) =>
      if sourceFmtOk format (pteFmt p.pte) = false then (s, .error (5, a))
      else
        let key := s.sealedKey c.by_.ctx p.pte
        if pteKind p.pte = 1 ∧ key.isNone = true then (s, .error (36, a))
        else match loadPieces s c format rest with
          | (s, .error e) => (s, .error e)
          | (s, .ok l) => (s, .ok ({ place := p, len := n, key := if pteKind p.pte = 1 then key else none } :: l))

/-- The pieces of block `j` of a column and, for BX, its scale word. -/
def loadBlockPlaces (s : State) (c : Command) (format va : Nat) : State × Except (Nat × Nat) (List Source × Option Source) :=
  match loadPieces s c format (chunks va (sourceBytes format)) with
  | (s, .error e) => (s, .error e)
  | (s, .ok l) =>
    if viewBx format = false then (s, .ok (l, none))
    else match l with
      | [] => (s, .ok (l, none))
      | x :: _ =>
        match engArenaAt s c (matrixTlb c) x.place (sourceBytes format) false with
        | (s, .error e) => (s, .error e)
        | (s, .ok q) => (s, .ok (l, some { place := q, len := 4, key := x.key }))

/-- The places of a column's blocks from block `j` on: every page is translated before any block is read (R308). -/
def loadColumnPlaces (s : State) (c : Command) (format va : Nat) : Nat → State × Except (Nat × Nat) (List (Nat × List Source × Option Source))
  | 0 => (s, .ok [])
  | n + 1 =>
    match loadBlockPlaces s c format va with
    | (s, .error e) => (s, .error e)
    | (s, .ok b) =>
      match loadColumnPlaces s c format (va + sourceBytes format) n with
      | (s, .error e) => (s, .error e)
      | (s, .ok l) => (s, .ok ((va, b) :: l))

/-- The bytes of a piece: on a sealed page, out of its decrypted 64-byte units (R411, R412). -/
def State.sourceRead (s : State) (c : Command) (x : Source) : List Byte :=
  match x.key with
  | none => s.engLoad c x.place x.len
  | some k =>
    (List.range x.len).map (fun i =>
      let va := x.place.va + i
      let at_ := x.place.key + i
      ((xtsDecrypt k (BitVec.ofNat 64 (va / 64)) (s.load (at_ / 64 * 64) 64)).drop (va % 64)).headD 0)

/-- A piece that meets an uncorrectable word, on a sealed page in its 64-byte units (R348, R412). -/
def State.sourceBad (s : State) (x : Source) : Bool :=
  let lo := if x.key.isSome then x.place.key / 64 * 64 else x.place.key
  let hi := if x.key.isSome then (x.place.key + x.len + 63) / 64 * 64 else x.place.key + x.len
  poisoned s.poison lo (hi - lo) || s.linkCut lo (hi - lo) || s.maskBad x.place.meta_ x.place.key

/-- The record of a block at `va`: its elements, then its scale word; or the address at which it meets an uncorrectable word or fails
CHK (R304, R308). -/
def State.loadRecord (s : State) (c : Command) (format va : Nat) (b : List Source × Option Source) : Except Nat (List Byte) :=
  match (b.1 ++ b.2.toList).find? s.sourceBad with
  | some x => .error x.place.va
  | none =>
    let elems := b.1.flatMap (s.sourceRead c)
    match b.2 with
    | none => .ok elems
    | some x =>
      let scale := s.sourceRead c x
      if blockOk (blockFrom format elems scale) then .ok (elems ++ scale) else .error va

/-- The records of a column, or the address of the first bad block. -/
def State.loadRecords (s : State) (c : Command) (format : Nat) : List (Nat × List Source × Option Source) → Except Nat (List (List Byte))
  | [] => .ok []
  | b :: rest => match s.loadRecord c format b.1 b.2 with
    | .error a => .error a
    | .ok r => match s.loadRecords c format rest with
      | .error a => .error a
      | .ok l => .ok (r :: l)

/-- Write the records of column `n` from block `j` on. -/
def State.writeColumn (s : State) (p : Party) (seg rec cols n : Nat) : Nat → List (List Byte) → State
  | _, [] => s
  | j, r :: rest => (s.hamperWrite p seg ((j * cols + n) * rec) r).writeColumn p seg rec cols n (j + 1) rest

/-- What the pieces of a column move over CXL is counted (R281). -/
def State.chargeSources (s : State) (c : Command) (l : List (Nat × List Source × Option Source)) : State :=
  (l.flatMap (fun b => b.2.1 ++ b.2.2.toList)).foldl (fun s x => s.chargeCxl c.by_.ctx x.place x.len) s

/-- Load the columns from `n` on, `left` of them: the failing column with cause and address, or none. -/
def loadColumns (s : State) (c : Command) (p : Party) (n : Nat) : Nat → State × Option (Nat × Nat × Nat)
  | 0 => (s, none)
  | left + 1 =>
    let f := cmdBits c 37 4
    let va := (cmdOp0 c).toNat + n * bitsNat c.word 128 32
    match loadColumnPlaces s c f va (cmdBits c 41 3 + 1) with
    | (s, .error (e, a)) => (s, some (n, e, a))
    | (s, .ok l) =>
      match s.loadRecords c f l with
      | .error a => (s, some (n, 34, a))
      | .ok rs => loadColumns ((s.chargeSources c l).writeColumn p (cmdBits c 32 5) (recBytes f) (cmdBits c 44 8 + 1) n 0 rs) c p (n + 1) left

/-- The physical segments of a command's B image from party-relative segment `lo` up to `hi`. -/
def Party.segments (p : Party) (lo hi : Nat) : List Nat := (p.hamper.drop lo).take (hi - lo)

/-- The physical segments that an MLOADW of columns `n` up to `stop` writes (R304). -/
def loadedSegments (c : Command) (p : Party) (n stop : Nat) : List Nat :=
  if stop ≤ n then []
  else
    let rec_ := recBytes (cmdBits c 37 4)
    let cols := cmdBits c 44 8 + 1
    let seg := cmdBits c 32 5
    (List.range (cmdBits c 41 3 + 1)).flatMap (fun j =>
      p.segments (seg + (j * cols + n) * rec_ / segmentBytes) (seg + ((j * cols + stop) * rec_ - 1) / segmentBytes + 1))

/-- The array's B image is stale once an MLOADW has written some of its segments (R310). -/
def State.staleB (s : State) (c : Command) (p : Party) (n stop : Nat) : State :=
  let k := engineCluster c.by_.hart
  let cl := s.cluster k
  let wrote := loadedSegments c p n stop
  if cl.loadedB.any (fun b => b.segments.any (fun g => wrote.contains g)) then s.setCluster k { cl with loadedB := none } else s

/-- A load that fails when performed again at a restore leaves its segments at zero (R306). -/
def State.zeroFailedLoad (s : State) (c : Command) (p : Party) : State :=
  if p.state = .restoring then
    (List.range ((imageSegs c).2 - (imageSegs c).1)).foldl (fun s i =>
      match p.hamper[(imageSegs c).1 + i]? with
      | some g => s.clearSegment (clusterOfCore p.core) g
      | none => s) s
  else s

/-- MLOADW. -/
def execMloadw (c : Command) (s : State) : Out :=
  s.perform c (fun s =>
    let ncol := cmdBits c 44 8
    let n := if cmdResume c then cmdBits c 52 9 else 0
    if badLoad c then s.complete c 1 0 0
    else match s.pusherParty c with
      | none => s.complete c 6 0 0
      | some p =>
        if s.imageUnheld c then (s.zeroFailedLoad c p).complete c 6 0 0
        else
          match loadColumns s c p n (ncol + 1 - n) with
          | (s, some (col, cause, a)) =>
            ((s.staleB c p n col).zeroFailedLoad c p).completeAs (if cause = 36 then 2 else causeStatus cause) c cause false (BitVec.ofNat 64 a)
              (BitVec.ofNat 64 col) 0
          | (s, none) =>
            let s := (s.staleB c p n (ncol + 1)).mapParty p.id (fun p => { p with mloads := keepLoads p.hamper.length (p.mloads ++ [c]) })
            s.complete c 0 (BitVec.ofNat 64 ((ncol + 1 - cmdBits c 52 9) * (cmdBits c 41 3 + 1) * recBytes (cmdBits c 37 4))) 0)

/-! ### MMA (R309, R310, R314) -/

/-- A's TYPE is paired with BFORMAT (Table 18-1). -/
def paired (a b : Nat) : Bool :=
  if b = 9 ∨ b = 10 then a == 9 || a == 10 else (b == 2 || b == 3 || b == 11 || b == 12) && a == b

/-- The cases in which an MMA is BAD_CMD (R309). -/
def badMma (c : Command) : Bool :=
  let a := viewOf (cmdOp0 c)
  let d := viewOf (cmdOp1 c)
  badCommand c false false false (cmdBits c 52 12 != 0 || cmdOp2 c != 0) || badView (cmdOp0 c) || badView (cmdOp1 c) || d.type != 1
    || !paired a.type (cmdBits c 37 4) || a.cols != 32 * (cmdBits c 41 3 + 1) || d.rows != a.rows || d.cols != cmdBits c 44 8 + 1
    || a.meets d

/-- The blocks of B's column `n`, each as 32 values; none when some byte is uncorrectable. -/
def State.bColumn (s : State) (p : Party) (c : Command) (n : Nat) : Option (List (List FVal)) :=
  let f := cmdBits c 37 4
  let rec_ := recBytes f
  let one (j : Nat) : Option (List FVal) :=
    (s.hamperRead p (cmdBits c 32 5) ((j * (cmdBits c 44 8 + 1) + n) * rec_) rec_).map (fun bs =>
      values32 f (bs.take (sourceBytes f)) (bs.drop (sourceBytes f)))
  let l := (List.range (cmdBits c 41 3 + 1)).map one
  if l.any Option.isNone then none else some (l.filterMap (fun x => x))

/-- The columns of B. -/
def State.bColumns (s : State) (p : Party) (c : Command) : Option (List (List (List FVal))) :=
  let l := (List.range (cmdBits c 44 8 + 1)).map (s.bColumn p c)
  if l.any Option.isNone then none else some (l.filterMap (fun x => x))

/-- The chunk of a row of A and a column of B (R96 to R98). -/
def chunkOf (a b : List (List FVal)) : Nat := chunkTree ((List.range 8).map (fun j =>
  match a[j]?, b[j]? with
  | some x, some y => blockSum (x.zip y)
  | _, _ => 0))

/-- A row of A as blocks of values. -/
def aBlocks (v : View) (row : List Byte) : List (List FVal) :=
  (List.range (v.cols / 32)).map (fun j => values32 v.type (rowBlock v.type v.cols row j).1 (rowBlock v.type v.cols row j).2)

/-- The rows of a view, or the cause and address of the first that cannot be read. -/
def readRows (s : State) (c : Command) (v : View) : List Nat → Except (Nat × Nat) (List (List Byte))
  | [] => .ok []
  | i :: rest =>
    match engRead s c (matrixTlb c) (v.rowVa i) v.rb with
    | (_, .error e) => .error e
    | (_, .ok bs) => match readRows s c v rest with
      | .error e => .error e
      | .ok l => .ok (bs :: l)

/-- The new rows of C (R309). -/
def mmaRows (a : View) (as_ cs : List (List Byte)) (bs : List (List (List FVal))) (cols : Nat) : List (List Nat) :=
  (as_.zip cs).map (fun r =>
    let x := aBlocks a r.1
    ((f32Row r.2 cols).zip bs).map (fun e => arrayAdd e.1 (chunkOf x e.2)))

/-- Lines of 64 bytes that a view's rows touch, by physical extent (R314). -/
def viewLines (p : Party) (v : View) : List Nat :=
  (List.range v.rows).flatMap (fun i =>
    (List.range ((v.row i + v.rb + 63) / 64 - v.row i / 64)).map (fun l =>
      (p.spad.drop ((v.row i / 64 + l) * 64 / extentBytes)).headD 0))

/-- The array cycles of an MMA before any stall: the load of B, and the larger of S and each bank's count (R298, R310,
R314). -/
def mmaBase (p : Party) (a d : View) (f : Nat) (loaded : Bool) : Nat :=
  let passes := (d.cols + (if f = 11 ∨ f = 12 then 255 else 63)) / (if f = 11 ∨ f = 12 then 256 else 64)
  let s := passes * ((a.rows + (if f = 12 then 1 else 0)) / (if f = 12 then 2 else 1))
  let al := viewLines p a
  let cl := viewLines p d
  let bank := ((List.range 32).map (fun e => passes * al.count e + cl.count e)).foldl max 0
  (if loaded && passes == 1 then 0 else 128) + max s bank

/-- The B image that an MMA of a party loads (R310). -/
def loadedImage (c : Command) (p : Party) : LoadedImage :=
  { party := p.id, seg := cmdBits c 32 5, format := cmdBits c 37 4, kb := cmdBits c 41 3, ncol := cmdBits c 44 8
    segments := p.segments (imageSegs c).1 (imageSegs c).2 }

/-- The array has loaded B and used its cycles, which are counted for the command's context; at 8,192 the lease ends (R290, R299,
R310). -/
def State.chargeArray (s : State) (c : Command) (p : Party) (cycles : Nat) : State :=
  let k := engineCluster c.by_.hart
  let s := s.charge c.by_.ctx 0 cycles
  let cl := s.cluster k
  s.setCluster k { cl with
    lease := { cl.lease with cycles := cl.lease.cycles + cycles, draining := cl.lease.draining || decide (8192 ≤ cl.lease.cycles + cycles) }
    loadedB := some (loadedImage c p) }

/-- An MMA that completes DATA_INTEGRITY has used array cycles that no rule states. -/
def State.chargeFailed (s : State) (c : Command) (p : Party) : State :=
  ({ s with choices := s.choices + 1 } : State).chargeArray c p (Config.mmaCycles s.choices).toNat

/-- Write the rows of C. -/
def State.writeRows (s : State) (c : Command) (v : View) : Nat → List (List Nat) → State
  | _, [] => s
  | i, r :: rest => (engWrite s c (matrixTlb c) (v.rowVa i) (rowOfF32 r)).writeRows c v (i + 1) rest

/-- Elements of C after DATA_INTEGRITY: each its old value or its new one, as the free values choose (R309). -/
def halfRows (n : Nat) (old new : List (List Nat)) : List (List Nat) :=
  ((old.zip new).zipIdx).map (fun r => ((r.1.1.zip r.1.2).zipIdx).map (fun e =>
    if (Config.freeWord (n + 256 * r.2 + e.2)).getLsbD 0 then e.1.2 else e.1.1))

/-- An MMA that has met bad data: rows whose A blocks are good may have been written in part. -/
def State.failMma (s : State) (c : Command) (v : View) (old new : List (List Nat)) (addr : Word) : State :=
  let s := s.writeRows c v 0 (halfRows s.choices old new)
  ({ s with choices := s.choices + 0x10000 } : State).completeFault c 34 false addr 0 0

/-- MMA. -/
def execMma (c : Command) (s : State) : Out :=
  s.perform c (fun s =>
    let a := viewOf (cmdOp0 c)
    let d := viewOf (cmdOp1 c)
    if badMma c then s.complete c 1 0 0
    else match s.pusherParty c with
      | none => s.complete c 6 0 0
      | some p =>
        if s.viewUnheld c a || s.viewUnheld c d || s.imageUnheld c then s.complete c 6 0 0
        else
          let free := Config.freeWord s.choices
          match readRows s c d (List.range d.rows), s.bColumns p c with
          | .error e, _ => (s.chargeFailed c p).completeFault c e.1 false (BitVec.ofNat 64 e.2) 0 0
          | .ok _, none => (s.chargeFailed c p).completeFault c 34 false free 0 0
          | .ok cs, some bs =>
            let old := cs.map (fun r => f32Row r d.cols)
            let tried := (List.range a.rows).map (fun i => readRows s c a [i])
            let good (r : Except (Nat × Nat) (List (List Byte))) : Option (List Byte) := match r with
              | .ok (x :: _) => if rowOk a.type a.cols x then some x else none
              | _ => none
            let as_ := tried.map good
            match as_.findIdx? Option.isNone with
            | some i =>
              let new := (as_.zip old).map (fun r => match r.1 with
                | some x => (mmaRows a [x] [rowOfF32 r.2] bs d.cols).headD r.2
                | none => r.2)
              (s.chargeFailed c p).failMma c d old new (BitVec.ofNat 64 (a.rowVa i))
            | none =>
              let base := mmaBase p a d (cmdBits c 37 4) (decide ((s.cluster (engineCluster c.by_.hart)).loadedB
                = some (loadedImage c p)))
              let cycles := base + (Config.mmaCycles s.choices).toNat
              let s : State := { s with choices := s.choices + 1 }
              let s := s.writeRows c d 0 (mmaRows a (as_.filterMap (fun x => x)) cs bs d.cols)
              (s.chargeArray c p cycles).complete c 0 (BitVec.ofNat 64 cycles) 0)

/-! ### MDRAIN (R311) -/

/-- The view TYPE that OUT writes. -/
def outType (out : Nat) : Nat :=
  match out with
  | 0 => 1 | 1 => 2 | 2 => 11 | _ => 12
/-- The FMT of a memory destination of OUT. -/
def outFmt (out : Nat) : Nat :=
  match out with
  | 2 => 1 | 3 => 2 | _ => 0

/-- A row converted: its element bytes, and the scale words of its blocks (R92, R93). -/
def drainRow (out d : Nat) (xs : List Nat) : List Byte × List (List Byte) :=
  let vals := xs.map (fmtF32.decode false)
  match out with
  | 0 => (rowOfF32 xs, [])
  | 1 => (vals.flatMap (fun v => bytesOfNat 2 (fToF fmtBf16 arrayMode v).1), [])
  | _ =>
    let bs := (List.range (xs.length / 32)).map (fun j => (quantise (if out = 2 then 8 else 4) d fmtF32 ((vals.drop (32 * j)).take 32)).1)
    (bs.flatMap (fun b => b.bytes.map (fun v => BitVec.ofNat 8 v)), bs.map (fun b => bytesOfNat 4 b.scale))

/-- The largest magnitude of a row, by F32 bits; a NaN gives 0x7FC0_0000. -/
def rowMax (m : Nat) (xs : List Nat) : Nat :=
  xs.foldl (fun m x => max m (if (fmtF32.decode false x).isNan then 0x7FC00000 else x % 0x80000000)) m

/-- The cases in which an MDRAIN is BAD_CMD (R289, R307, R311). -/
def badDrain (c : Command) : Bool :=
  let out := cmdBits c 32 3
  let dst := c.word.getLsbD 35
  let v := viewOf (cmdOp0 c)
  let d := viewOf (cmdOp1 c)
  let reserved := (if dst then bitsNat (cmdOp1 c) 57 7 != 0 else cmdBits c 54 10 != 0)
    || (if cmdAtomic c then bitsNat (cmdOp2 c) 57 7 != 0 else cmdOp2 c != 0) || (!cmdResume c && cmdBits c 45 9 != 0)
  badCommand c dst (out == 2 || out == 3) false reserved || decide (3 < out) || badView (cmdOp0 c) || v.type != 1
    || (decide (2 ≤ out) && v.cols % 32 != 0)
    || (if dst then decide (1 < v.rows) && decide (64 * cmdBits c 54 10 < elemBytes (outType out) v.cols)
      else badView (cmdOp1 c) || d.type != outType out || d.rows != v.rows || d.cols != v.cols || d.meets v)

/-- The arena places of a row's blocks in memory. -/
def drainArenas (s : State) (c : Command) (blk : Nat) : List Place → State × Except (Nat × Nat) (List Place)
  | [] => (s, .ok [])
  | p :: rest =>
    match engArena s c (matrixTlb c) p blk true with
    | (s, .error e) => (s, .error e)
    | (s, .ok q) => match drainArenas s c blk rest with
      | (s, .error e) => (s, .error e)
      | (s, .ok l) => (s, .ok (q :: l))

/-- The places of `n` bytes of memory for a drain, each on a page with the FMT of OUT. -/
def drainPlaces (s : State) (c : Command) (out : Nat) : List (Nat × Nat) → State × Except (Nat × Nat) (List (Place × Nat))
  | [] => (s, .ok [])
  | (a, n) :: rest =>
    match engPlace s c (matrixTlb c) a n true with
    | (s, .error e) => (s, .error (e, a))
    | (s, .ok p) =>
      if pteFmt p.pte ≠ outFmt out then (s, .error (7, a))
      else match drainPlaces s c out rest with
        | (s, .error e) => (s, .error e)
        | (s, .ok l) => (s, .ok ((p, n) :: l))

/-- Write pieces of a row at their places. -/
def State.drainWrite (s : State) (c : Command) (bs : List Byte) : List (Place × Nat) → State
  | [] => s
  | (p, n) :: rest => (s.engStore c p (bs.take n)).drainWrite c (bs.drop n) rest

/-- Write a row to memory: its pages and arena words are found before any byte is written. -/
def drainToMemory (s : State) (c : Command) (out va : Nat) (row : List Byte × List (List Byte)) : State × Option (Nat × Nat) :=
  match drainPlaces s c out (chunks va row.1.length) with
  | (s, .error e) => (s, some e)
  | (s, .ok l) =>
    let blk := elemBytes (outType out) 32
    let each : List (Nat × Nat) := if 2 ≤ out then (List.range row.2.length).map (fun j => (va + blk * j, blk)) else []
    match drainPlaces s c out each with
    | (s, .error e) => (s, some e)
    | (s, .ok bl) =>
      match drainArenas s c blk (bl.map (·.1)) with
      | (s, .error e) => (s, some e)
      | (s, .ok qs) =>
        let s := s.drainWrite c row.1 l
        ((qs.zip row.2).foldl (fun s x => s.engStore c x.1 x.2) s, none)

/-- Drain the rows from `r` on, `left` of them: the row it ended at, the maximum, and a failure's cause, side and address. -/
def drainRows (s : State) (c : Command) (r m : Nat) : Nat → State × Nat × Nat × Option (Nat × Bool × Nat)
  | 0 => (s, r, m, none)
  | left + 1 =>
    let v := viewOf (cmdOp0 c)
    let out := cmdBits c 32 3
    match engRead s c (matrixTlb c) (v.rowVa r) v.rb with
    | (s, .error (e, a)) => (s, r, m, some (e, false, a))
    | (s, .ok bs) =>
      let xs := f32Row bs v.cols
      let row := drainRow out (cmdBits c 37 8) xs
      let done : State × Option (Nat × Nat) :=
        if c.word.getLsbD 35 then drainToMemory s c out ((cmdOp1 c).toNat + r * (64 * cmdBits c 54 10)) row
        else (engWrite s c (matrixTlb c) ((viewOf (cmdOp1 c)).rowVa r) (row.1 ++ row.2.flatten), none)
      match done with
      | (s, some (e, a)) => (s, r, m, some (e, true, a))
      | (s, none) =>
        let s := if c.word.getLsbD 36 then engWrite s c (matrixTlb c) (v.rowVa r) (List.replicate v.rb 0) else s
        drainRows s c (r + 1) (rowMax m xs) left

/-- The page of an AMO of `n` bytes that a command makes outside the window, with its checks but for what it reads
(Table 04-7, R311, R324). -/
def engAmoPage (s : State) (c : Command) (t : Tlb) (va n : Nat) : State × Except Nat TlbEntry :=
  match translate s t c.by_.root c.by_.ctx va true (engPermits c true) with
  | (s, .error (.inl f)) => (s, .error (walkCause 15 f))
  | (s, .error (.inr (cause, e))) =>
    if engPermits c true e.pte = false then (s, .error 15)
    else if pmpOk c.by_.pmp c.by_.mode (entryPa e va) n .write = false then (s, .error 7)
    else (s, .error cause)
  | (s, .ok (e, r)) =>
    let pa := entryPa e va
    if engPermits c true e.pte = false then (s, .error 15)
    else if pmpOk c.by_.pmp c.by_.mode pa n .write = false then (s, .error 7)
    else if r = 1 then (s, .error 31)
    else match kindCause s .amo e pa n false with
      | some cause => (s, .error cause)
      | none => if inMmio pa then (s, .error 7) else (s, .ok e)

/-- The check of an AMO to a 4-byte word, for a command (Table 04-7, R311). -/
def engAmo (s : State) (c : Command) (t : Tlb) (va : Nat) : State × Except Nat Place :=
  if va % 4 ≠ 0 then (s, .error 6)
  else if 2 ^ 57 ≤ va then (s, .error 15)
  else if inWindow va then engPlace s c t va 4 false
  else match engAmoPage s c t va 4 with
    | (s, .error cause) => (s, .error cause)
    | (s, .ok e) =>
      let key := normPa (entryPa e va)
      let place : Place := { key := key, mmio := false, window := false, pte := e.pte, meta_ := none, va := va }
      if poisoned s.poison key 4 then (s, .error 34)
      else if pteCmp e.pte < 3 then (s, .ok place)
      else match metaKey s t c.by_.root c.by_.ctx c.by_.mode va true with
        | (s, .error 0) => (s, .error 7)
        | (s, .error cause) => (s, .error cause)
        | (s, .ok m) => if s.maskBad (some m) key then (s, .error 34) else (s, .ok { place with meta_ := some m })

/-- The completion status of a failed AMAX check (R217, R311). -/
def amaxStatus (cause : Nat) : Nat := if cause = 29 then 3 else if cause = 30 then 4 else if cause = 27 then 6 else 2

/-- The maximum at its home: word := max_unsigned(word, m). With SCOPE 0 or 1 that is the group agent of the array's cluster, where the
page has one; else the site, to which the agents give up what they hold of the line (R157, R165, R311). -/
def State.amax (s : State) (c : Command) (p : Place) (m : Nat) : State :=
  let k := engineCluster c.by_.hart
  let word (s : State) (other : List Host.Cell) : List Byte := bytesOfNat 4 (max (natOfBytes (s.readOver other p 4)) m)
  if c.by_.near && !p.window && pteCmp p.pte == 0 then
    let s := s.noteKey c.by_.ctx p.va p.key
    (pendStore [] p.key (word s (s.agentCells (some k)))).reverse.foldl (fun s b => s.agentPut k c.by_.hart true b) s
  else
    let s := if p.window then s else (s.writeBack k (fun l => l == p.key / 64)).recallLine (some k) p.key
    s.engStore c p (word s [])

/-- The end of a drain: the maximum, then the completion. -/
def State.finishDrain (s : State) (c : Command) (amax : Option Place) (r m : Nat) (fail : Option (Nat × Bool × Nat)) : State :=
  let s := match amax with
    | some p => if cmdBits c 45 9 < r then s.amax c p m else s
    | none => s
  match fail with
  | none => s.complete c 0 (BitVec.ofNat 64 r) (BitVec.ofNat 128 m)
  | some (e, w, a) => s.completeFault c e w (BitVec.ofNat 64 a) (BitVec.ofNat 64 r) (BitVec.ofNat 128 m)

/-- MDRAIN. -/
def execMdrain (c : Command) (s : State) : Out :=
  s.perform c (fun s =>
    let v := viewOf (cmdOp0 c)
    let row0 := cmdBits c 45 9
    let go (s : State) (amax : Option Place) : State :=
      match drainRows s c row0 0 (v.rows - row0) with
      | (s, r, m, fail) => s.finishDrain c amax r m fail
    if badDrain c then s.complete c 1 0 0
    else if s.viewUnheld c v || (!c.word.getLsbD 35 && s.viewUnheld c (viewOf (cmdOp1 c))) then s.complete c 6 0 0
    else if cmdAtomic c then
      match engAmo s c (matrixTlb c) (cmdOp2 c).toNat with
      | (s, .error e) => s.completeAs (amaxStatus e) c e true (cmdOp2 c) (BitVec.ofNat 64 row0) 0
      | (s, .ok p) => go s (some p)
    else go s none)

/-! ### MEND (R312) -/

/-- MEND: its acceptance has moved the lease to DRAINING; it completes. -/
def execMend (c : Command) (s : State) : Out :=
  s.perform c (fun s =>
    s.complete c (if badCommand c false false false (cmdBits c 32 32 != 0 || cmdOp0 c != 0 || cmdOp1 c != 0 || cmdOp2 c != 0) then 1 else 0) 0 0)

end Sys2Proof.Machine
end

