-- ==== Sys2Proof/Machine/Copy.lean ====
section
/-! DEFINITION. The copy engine: CPY, CPYT, FILL, SFILL, SEVICT, PREF and MIGR (R316 to R321), and the rounds and the
commit of a migration (R269 to R277). -/

namespace Sys2Proof.Machine

/-! ### The transfer as a sequence of pieces (R316) -/

/-- Cut a run at every 4 KiB boundary of either address. -/
def cutFuel (fuel : Nat) (r : Run) : List Run :=
  match fuel with
  | 0 => []
  | fuel + 1 =>
    if r.len = 0 then []
    else
      let k := min r.len (min (4096 - r.src % 4096) (4096 - r.dst % 4096))
      { r with len := k } :: cutFuel fuel { src := r.src + k, dst := r.dst + k, off := r.off + k, len := r.len - k }

/-- Cut a run at every 4 KiB boundary of either address. -/
def cutRun (r : Run) : List Run := cutFuel (r.len / 2048 + 3) r

/-- The part of a run from a transfer offset on. -/
def Run.from (r : Run) (off : Nat) : Run :=
  let k := min r.len (off - r.off)
  { src := r.src + k, dst := r.dst + k, off := r.off + k, len := r.len - k }

/-- Two runs that lie in the same source and destination pages. -/
def Run.with_ (a b : Run) : Bool := a.src / 4096 == b.src / 4096 && a.dst / 4096 == b.dst / 4096

/-- Runs gathered into pieces. -/
def gather (l : List Run) : List (List Run) :=
  match l with
  | [] => []
  | r :: rest =>
    match gather rest with
    | (q :: qs) :: ps => if r.with_ q then (r :: q :: qs) :: ps else [r] :: (q :: qs) :: ps
    | ps => [r] :: ps

/-- The pieces of a transfer from an offset on. -/
def pieces (rows : List Run) (off : Nat) : List (List Run) :=
  gather ((rows.map (fun r => r.from off)).flatMap cutRun)

/-! ### Bytes that are both source and destination (R316) -/

/-- The transfer reads address `a`. -/
def readsAt (rows : List Run) (a : Nat) : Bool := rows.any (fun r => r.src ≤ a && a < r.src + r.len)
/-- The sources of the bytes that some runs write to address `a`. -/
def sourcesOf (rows : List Run) (a : Nat) : List Nat :=
  rows.filterMap (fun r => if r.dst ≤ a ∧ a < r.dst + r.len then some (r.src + (a - r.dst)) else none)
/-- Some byte is both source and destination of the transfer. DEDUCED (log 46). -/
def overlapping (rows : List Run) : Bool :=
  rows.any (fun r => rows.any (fun q => decide (r.src < q.dst + q.len) && decide (q.dst < r.src + r.len) && decide (0 < r.len) && decide (0 < q.len)))

/-- The byte at an address before the transfer. -/
def oldByte (s : State) (c : Command) (a : Nat) : Byte :=
  match (engRead s c (copyTlb c) a 1).2 with
  | .ok bs => bs.headD 0
  | .error _ => Config.freeByte s.choices

/-- A byte that the transfer reads at address `a` once `done` have been written or are being written: its old value, or
one of the values so written, as the free values from `pick` on choose. -/
def chainByte (fuel : Nat) (s : State) (c : Command) (done : List Run) (step pick a : Nat) : Byte :=
  match fuel with
  | 0 => oldByte s c a
  | fuel + 1 =>
    let l := sourcesOf done a
    let k := (Config.freeWord pick).toNat % (l.length + 1)
    match l[k]? with
    | none => oldByte s c a
    | some b => chainByte fuel s c done step (pick + step) b

/-- What a run writes when the transfer overlaps itself: each byte a value its source may have held, or, where the
destination byte is itself a source, perhaps its own old value. -/
def lappedRun (s : State) (c : Command) (rows done : List Run) (n : Nat) (r : Run) : List Byte :=
  (List.range r.len).map (fun i =>
    let pick := s.choices + r.off + i
    if readsAt rows (r.dst + i) && (Config.freeWord (pick + n)).getLsbD 0 then oldByte s c (r.dst + i)
    else chainByte n s c done n (pick + 2 * n) (r.src + i))

/-! ### Performing the pieces (R316) -/

/-- Read the sources of a piece; the first that fails gives its cause and address. -/
def readPiece (s : State) (c : Command) : List Run → State × Except (Nat × Nat) (List (Nat × List Byte))
  | [] => (s, .ok [])
  | r :: rest =>
    match engRead s c (copyTlb c) r.src r.len with
    | (s, .error e) => (s, .error e)
    | (s, .ok bs) => match readPiece s c rest with
      | (s, .error e) => (s, .error e)
      | (s, .ok l) => (s, .ok ((r.dst, bs) :: l))

/-- Check the destinations of a piece. -/
def checkPiece (s : State) (c : Command) : List Run → State × Option (Nat × Nat)
  | [] => (s, none)
  | r :: rest =>
    match engCheck s c (copyTlb c) r.dst r.len true with
    | (s, some e) => (s, some e)
    | (s, none) => checkPiece s c rest

/-- What a transfer is made of. -/
structure Transfer where
  rows : List Run
  /-- FILL's pattern -/
  fill : Option Word
  len  : Nat
  deriving DecidableEq, Repr

/-- The bytes a piece writes, by destination. -/
def pieceBytes (s0 s : State) (c : Command) (t : Transfer) (done p : List Run) : State × Except (Nat × Nat) (List (Nat × List Byte)) :=
  match t.fill with
  | some w => (s, .ok (p.map (fun r => (r.dst, (List.range r.len).map (fun i => (bytesOfNat 8 w.toNat).getD ((r.off + i) % 8) 0)))))
  | none =>
    match readPiece s c p with
    | (s, .error e) => (s, .error e)
    | (s, .ok l) =>
      if overlapping t.rows then (s, .ok (p.map (fun r => (r.dst, lappedRun s0 c t.rows (done ++ p) (t.len + 1) r))))
      else (s, .ok l)

/-- Perform pieces in order, `done` the runs already written: none, or the failing piece's cause, side, address and
transfer offset. DEDUCED (log 46). -/
def performPieces (s0 : State) (c : Command) (t : Transfer) (done : List Run) (s : State) :
    List (List Run) → State × Option (Nat × Bool × Nat × Nat)
  | [] => (s, none)
  | p :: rest =>
    let off := (p.map (·.off)).headD 0
    match pieceBytes s0 s c t done p with
    | (s, .error (e, a)) => (s, some (e, false, a, off))
    | (s, .ok l) => match checkPiece s c p with
      | (s, some (e, a)) => (s, some (e, true, a, off))
      | (s, none) =>
        let s := l.foldl (fun s w => engWrite s c (copyTlb c) w.1 w.2) s
        performPieces s0 c t (done ++ p) s rest

/-- A command of a party that is being saved is parked, to resume at `done` (Table 22-3). -/
def State.park (s : State) (c : Command) (done : Nat) : State :=
  { s with engines := s.engines.map (fun (a : Accepted) =>
      if a.cmd = c then { a with cmd := { c with done := done }, parked := true, started := false } else a) }

/-- A transfer from its OFFSET, or from where it was parked, to its end; or, with a `limit`, that many pieces, after which it is parked
(R318, R355). -/
def State.copyRows (s : State) (c : Command) (t : Transfer) (limit : Option Nat) : State :=
  let off := cmdBits c 32 32
  if t.len < off ∨ (off ≠ 0 ∧ cmdResume c = false) then s.complete c 1 0 0
  else
    let lap := t.fill.isNone && overlapping t.rows
    let all := pieces t.rows (max off c.done)
    let now := match limit with
      | some k => all.take k
      | none => all
    match performPieces s c t [] s now with
    | (s, fail) =>
      let s : State := if lap then { s with choices := s.choices + (t.len + 4) * (t.len + 4) } else s
      match fail, (all.drop now.length).head? with
      | some (e, w, a, o), _ => s.completeFault c e w (BitVec.ofNat 64 a) (BitVec.ofNat 64 o) 0
      | none, some p => s.park c ((p.map (·.off)).headD 0)
      | none, none => s.complete c 0 (BitVec.ofNat 64 t.len) 0

/-- The transfer of a CPY. -/
def State.copyCpy (c : Command) (limit : Option Nat) (s : State) : State :=
  let n := cmdBits c 192 32
  if badCommand c true false false (cmdBits c 224 32 != 0) then s.complete c 1 0 0
  else s.copyRows c { rows := [{ src := (cmdOp0 c).toNat, dst := (cmdOp1 c).toNat, off := 0, len := n }], fill := none, len := n } limit

/-- The transfer of a FILL. -/
def State.copyFill (c : Command) (limit : Option Nat) (s : State) : State :=
  let n := cmdBits c 192 32
  let dst := (cmdOp1 c).toNat
  if badCommand c true false false (cmdBits c 224 32 != 0) then s.complete c 1 0 0
  else s.copyRows c { rows := [{ src := dst, dst := dst, off := 0, len := n }], fill := some (cmdOp0 c), len := n } limit

/-- The transfer of a CPYT, by its descriptor (R217, R317). -/
def State.copyCpyt (c : Command) (limit : Option Nat) (s : State) : State :=
  if badCommand c true false false false || (cmdOp2 c).toNat % 64 != 0 then s.complete c 1 0 0
  else match engRead s c (copyTlb c) (cmdOp2 c).toNat 64 with
    | (s, .error (e, a)) => s.completeAs (if e = 27 then 6 else 2) c e false (BitVec.ofNat 64 a) (BitVec.ofNat 64 (cmdBits c 32 32)) 0
    | (s, .ok d) =>
      let u (o : Nat) : Nat := natOfBytes (takeBytes d o 4)
      let n := u 0 * u 4 * u 8 * u 12
      if n = 0 ∨ 2 ^ 32 ≤ n then s.complete c 1 0 0
      else s.copyRows c { rows := tensorRows (cmdOp0 c) (cmdOp1 c) d, fill := none, len := n } limit

/-- CPY. -/
def execCpy (c : Command) (s : State) : Out := s.perform c (State.copyCpy c none)

/-- FILL. -/
def execFill (c : Command) (s : State) : Out := s.perform c (State.copyFill c none)

/-- CPYT. -/
def execCpyt (c : Command) (s : State) : Out := s.perform c (State.copyCpyt c none)

/-! ### SFILL and SEVICT (R319) -/

/-- NSLOT + 1. -/
def slotCount (c : Command) : Nat := cmdBits c 32 11 + 1
/-- SLOT. -/
def firstSlot (c : Command) : Nat := cmdBits c 128 11

/-- Some slot of the command lies in an extent that the pusher's party does not hold. -/
def State.slotUnheld (s : State) (c : Command) : Bool :=
  let held := match s.pusherParty c with
    | some p => p.spad.length
    | none => 0
  (List.range (slotCount c)).any (fun k => decide (held ≤ (firstSlot c + k) / 64))

/-- Where a slot lies. -/
def Party.slotKey (p : Party) (slot : Nat) : Nat := (p.windowKey (256 * slot)).getD 0

/-- The tag-table entry of a party's slot, changed. -/
def State.mapTag (s : State) (p : Party) (slot : Nat) (f : TagEntry → Option TagEntry) : State :=
  let c := s.core p.core
  s.setCore p.core { c with tags := c.tags.filterMap (fun t => if t.party = p.id ∧ t.slot = slot then f t else some t) }

/-- SFILL from slot `k` on, `left` slots: the failing one, with cause and address. -/
def fillSlots (c : Command) (p : Party) (s : State) (k : Nat) : Nat → State × Option (Nat × Nat × Nat)
  | 0 => (s, none)
  | left + 1 =>
    let src := (cmdOp0 c).toNat + 256 * k
    let slot := firstSlot c + k
    match engRead s c (copyTlb c) src 256 with
    | (s, .error (e, a)) => (s, some (e, a, k))
    | (s, .ok bs) =>
      let s := (s.charge c.by_.ctx 3 256).storeWhole (p.slotKey slot) bs
      let core := s.core p.core
      let e : TagEntry := { party := p.id, slot := slot, tag := tagOf (BitVec.ofNat 64 src), dirty := false, user := BitVec.ofNat 8 (cmdBits c 139 8) }
      let s := s.setCore p.core { core with tags := e :: core.tags.filter (fun t => !(t.party == p.id && (t.slot == slot || t.tag == e.tag))) }
      fillSlots c p s (k + 1) left

/-- The units to do of a command that goes from `done` to `count`, and whether it is parked after them (R355). -/
def unitsNow (done count : Nat) (limit : Option Nat) : Nat × Bool :=
  match limit with
  | some k => (min k (count - done), decide (k < count - done))
  | none => (count - done, false)

/-- An SFILL from the slot where it stands, to its end or to be parked. -/
def State.slotFill (c : Command) (limit : Option Nat) (s : State) : State :=
  if badCommand c false false false (cmdBits c 43 21 != 0 || cmdBits c 147 109 != 0) || (cmdOp0 c).toNat % 256 != 0
      || decide (1983 < firstSlot c + cmdBits c 32 11) then s.complete c 1 0 0
  else match s.pusherParty c with
    | none => s.complete c 6 0 0
    | some p =>
      let (n, parks) := unitsNow c.done (slotCount c) limit
      if s.slotUnheld c then s.complete c 6 0 0
      else match fillSlots c p s c.done n with
        | (s, some (e, a, k)) => s.completeFault c e false (BitVec.ofNat 64 a) (BitVec.ofNat 64 k) 0
        | (s, none) => if parks then s.park c (c.done + n) else s.complete c 0 (BitVec.ofNat 64 (slotCount c)) 0

/-- SFILL. -/
def execSfill (c : Command) (s : State) : Out := s.perform c (State.slotFill c none)

/-- SEVICT from slot `k` on, `left` slots: the failing one, with cause, side and address. -/
def evictSlots (c : Command) (p : Party) (s : State) (k : Nat) : Nat → State × Option (Nat × Bool × Nat × Nat)
  | 0 => (s, none)
  | left + 1 =>
    let slot := firstSlot c + k
    let gone (s : State) : State := if c.word.getLsbD 139 then s.mapTag p slot (fun _ => none) else s
    match (s.core p.core).tags.find? (fun t => t.party == p.id && t.slot == slot) with
    | none => evictSlots c p s (k + 1) left
    | some t =>
      if t.dirty then
        let key := p.slotKey slot
        let va := t.tag * 256
        if poisoned s.poison key 256 then (s, some (34, false, windowBase + 256 * slot, k))
        else match engCheck s c (copyTlb c) va 256 true with
          | (s, some (e, a)) => (s, some (e, true, a, k))
          | (s, none) =>
            let s := s.mapTag p slot (fun t => some { t with dirty := false })
            evictSlots c p (gone (engWrite s c (copyTlb c) va (s.load key 256))) (k + 1) left
      else evictSlots c p (gone s) (k + 1) left

/-- A SEVICT from the slot where it stands, to its end or to be parked. -/
def State.slotEvict (c : Command) (limit : Option Nat) (s : State) : State :=
  if badCommand c false false false (cmdBits c 43 21 != 0 || cmdOp0 c != 0 || cmdBits c 140 116 != 0)
      || decide (1983 < firstSlot c + cmdBits c 32 11) then s.complete c 1 0 0
  else match s.pusherParty c with
    | none => s.complete c 6 0 0
    | some p =>
      let (n, parks) := unitsNow c.done (slotCount c) limit
      if s.slotUnheld c then s.complete c 6 0 0
      else match evictSlots c p s c.done n with
        | (s, some (e, w, a, k)) => s.completeFault c e w (BitVec.ofNat 64 a) (BitVec.ofNat 64 k) 0
        | (s, none) => if parks then s.park c (c.done + n) else s.complete c 0 (BitVec.ofNat 64 (slotCount c)) 0

/-- SEVICT. -/
def execSevict (c : Command) (s : State) : Out := s.perform c (State.slotEvict c none)

/-! ### PREF (R320) -/

/-- PREF translates the lines from `va` on, `left` of them, and stops at the first it cannot cover. -/
def prefLines (c : Command) (s : State) (va : Nat) : Nat → State × Nat
  | 0 => (s, va)
  | left + 1 =>
    if inWindow va then
      match (s.pusherParty c).bind (fun p => if (va - windowBase) / extentBytes < 31 then p.windowKey (va - windowBase) else none) with
      | none => (s, va)
      | some _ => prefLines c s ((va / 64 + 1) * 64) left
    else match engPlaceWith false true s c (copyTlb c) va 1 false with
      | (s, .ok _) => prefLines c s ((va / 64 + 1) * 64) left
      | (s, .error _) => (s, va)

/-- PREF. -/
def execPref (c : Command) (s : State) : Out :=
  s.perform c (fun s =>
    let va := (cmdOp0 c).toNat
    let n := cmdBits c 192 32
    if badCommand c false false false (cmdBits c 32 32 != 0 || cmdOp1 c != 0 || cmdBits c 224 32 != 0) then s.complete c 1 0 0
    else
      match prefLines c s va (if n = 0 then 0 else (va + n - 1) / 64 - va / 64 + 1) with
      | (s, stop) => s.complete c 0 (BitVec.ofNat 64 (min n (stop - va))) 0)

/-! ### MIGR (R269 to R277, R321) -/

/-- CTX of a MIGR. -/
def migrCtx (c : Command) : BitVec 16 := c.word.extractLsb' 32 16
/-- The bytes of a MIGR's page. -/
def migrSize (c : Command) : Nat := if c.word.getLsbD 48 then 0x200000 else 0x10000
/-- DSTPA. -/
def migrDst (c : Command) : Nat := normPa (cmdOp1 c).toNat

/-- The records of LIST: the PA of each leaf entry and its new value. -/
def State.migrLeaves (s : State) (c : Command) : List (Nat × Word) :=
  (List.range (cmdBits c 52 12 + 1)).map (fun i =>
    let a := (cmdOp2 c).toNat + 16 * i
    (s.loadNat a 8, wordOf (s.load (a + 8) 8)))

/-- A PA in memory allowed for tables (R248): a device's HBM, the frame owned by the accelerator kernel. -/
def State.tableMemory (s : State) (pa : Nat) : Bool :=
  (inLocalHbm s (normPa pa) || (inDomain pa && s.present.getLsbD (domainDev pa))) && entOwner (s.entry (frameAt pa)) == 2

/-- The cases in which a MIGR is BAD_CMD by its word alone (R289, R321), and by a blanket destination (R269). -/
def badMigr (s : State) (c : Command) : Bool :=
  let size := migrSize c
  badCommand c false false true (cmdBits c 49 3 != 0) || (cmdOp0 c).toNat % size != 0 || (cmdOp1 c).toNat % size != 0
    || (cmdOp2 c).toNat % 16 != 0 || !inLocalHbm s ((cmdOp2 c).toNat + 16 * (cmdBits c 52 12 + 1) - 1)
    || (inBlanket (migrDst c) && size == 0x10000)

/-- The frames of a page. -/
def pageFrames (pa size : Nat) : List Nat :=
  if inBlanket pa then [frameAt pa] else (List.range (size / 0x10000)).map (fun i => frameAt pa + i)

/-- The frames of a page are held by the accelerator kernel, those of another device exported too, since this device's engine reaches
them (R269, R371). DEDUCED (log 47). -/
def State.accelHolds (s : State) (pa size : Nat) : Bool :=
  (inLocalHbm s pa || inBlanket pa || (isRemote pa && s.present.getLsbD (domainDev pa)))
    && (pageFrames pa size).all (fun f => entOwner (s.entry f) == 2 && entState (s.entry f) == 0 && (!isRemote pa || entDomain (s.entry f)))

/-- The device whose HBM holds a PA; none for the blanket. -/
def homeDevice (s : State) (pa : Nat) : Option Nat :=
  if inLocalHbm s pa then some Config.devno else if inDomain pa then some (domainDev pa) else none

/-- A move between devices (R276): from one device's HBM to another's. -/
def betweenDevices (s : State) (src dst : Nat) : Option (Nat × Nat) :=
  match homeDevice s src, homeDevice s dst with
  | some a, some b => if a = b then none else some (a, b)
  | _, _ => none

/-- The page key of a command (R277). DEDUCED (log 47). -/
def moveKey (c : Command) : Nat := (migrCtx c).toNat * 2 ^ 57 + (cmdOp0 c).toNat

/-- The cycles within which four moves pin a page (R276). -/
def moveWindow : Nat := 6000000

/-- The page is pinned at its home (R276). -/
def State.pinned (s : State) (key : Nat) : Bool :=
  s.moves.any (fun m => m.key == key && (match m.pinned with
    | some t => decide (s.clock < t)
    | none => false))

/-- An entry that a new key may replace (R277). -/
def State.replaceable (s : State) (m : MoveEntry) : Bool :=
  decide (m.times.headD 0 + moveWindow < s.clock) && (match m.pinned with
    | some t => decide (t ≤ s.clock)
    | none => true)

/-- The move table of a device has no place for a new key (R277). -/
def State.movesFull (s : State) (device key : Nat) : Bool :=
  let l := s.moves.filter (fun m => m.device == device)
  decide (1024 ≤ l.length) && !l.any (fun m => m.key == key)
    && (match l.foldl (fun (o : Option MoveEntry) m => match o with
          | none => some m
          | some b => if m.times.headD 0 < b.times.headD 0 then some m else some b) none with
      | some m => !s.replaceable m
      | none => false)

/-- The table of `device` with its oldest entry gone, when it is full. -/
def State.makeRoom (s : State) (device : Nat) : State :=
  let l := s.moves.filter (fun m => m.device == device)
  if l.length < 1024 then s
  else
    let oldest := l.foldl (fun (t : Nat) m => min t (m.times.headD 0)) s.clock
    { s with moves := s.moves.eraseP (fun m => m.device == device && m.times.headD 0 == oldest) }

/-- The commit of a move between devices: the entry moves with the page; a fourth move in the window pins it (R276, R277). -/
def State.noteMove (s : State) (c : Command) (dst : Nat) : State :=
  let key := moveKey c
  let times := s.clock :: ((s.moves.filter (fun m => m.key == key)).flatMap (·.times)).take 3
  let pin := if times.length = 4 ∧ s.clock ≤ (times.getLastD 0) + moveWindow then some (s.clock + 60000000) else none
  let s := ({ s with moves := s.moves.filter (fun m => m.key != key) } : State).makeRoom dst
  { s with moves := { device := dst, key := key, times := times, pinned := pin } :: s.moves }

/-- The filter has room for one more page (R270): 256 frames of 64 KiB on a device's base dies, 8 pages at the hub. -/
def filterRoom (s : State) (ms : List Migration) (src size : Nat) : Bool :=
  if inBlanket src then decide ((ms.filter (fun m => inBlanket m.src)).length < 8)
  else decide ((((ms.filter (fun m => homeDevice s m.src == homeDevice s src)).map (fun m => m.size / 0x10000)).sum) + size / 0x10000 ≤ 256)

/-- The source page of a MIGR: its leaf, the bits of its size, and its PA. DEDUCED (log 47). -/
def State.migrSource (s : State) (c : Command) : Except WalkFail (Word × Nat × Nat) :=
  match s.ctx? (migrCtx c) with
  | none => .error .notMapped
  | some x =>
    if 2 ^ 57 ≤ (cmdOp0 c).toNat then .error .notMapped
    else match walk s (copyTlb c).die (migrCtx c) x.root (cmdOp0 c).toNat with
      | .error f => .error f
      | .ok (p, level, _) => .ok (p, leafBits level (pteSpan p), normPa (ptePfn p * 4096))

/-- A MIGR waits in its queue until there is filter room (R270). -/
def State.migrWaits (s : State) (c : Command) : Bool :=
  match s.migrSource c with
  | .ok (_, _, src) => !filterRoom s s.migrations src (migrSize c)
  | .error _ => false

/-- Copy `n` bytes as they lie, with the descriptors of their blocks (R258, R271). The blanket has no descriptors: a block
that comes from there through a mapping of CMP 3 or 4 gets METHOD 3 (DEDUCED, log 47). -/
def State.copyRaw (s : State) (cmp src dst n : Nat) : State :=
  let inSrc (u k : Nat) : Bool := decide (src / u ≤ k) && decide (k < (src + n + u - 1) / u)
  let inDst (u k : Nat) : Bool := decide (dst / u ≤ k) && decide (k < (dst + n + u - 1) / u)
  let kept := s.blocks.filter (fun b => !inDst 256 b.1)
  let moved : List (Nat × BitVec 6) :=
    if inBlanket dst then []
    else if inBlanket src = false then s.blocks.filter (fun b => inSrc 256 b.1)
    else if cmp < 3 then []
    else (List.range ((src + n + 255) / 256 - src / 256)).map (fun i => (src / 256 + i, 0x30))
  let sectors (l : List (Nat × List Byte)) : List (Nat × List Byte) :=
    l.filter (fun d => !inDst 64 d.1) ++ (l.filter (fun d => inSrc 64 d.1)).map (fun d => (dst / 64 + (d.1 - src / 64), d.2))
  { s with
    mem := Memory.place (Memory.clear s.mem dst (dst + n)) dst (Memory.slice s.mem src (src + n))
    poison := unpoison s.poison dst n
    blocks := moved.foldl (fun l b => assocSet l (dst / 256 + (b.1 - src / 256)) b.2) kept
    deltas := sectors s.deltas
    raws := if inBlanket dst then s.raws.filter (fun d => !inDst 64 d.1) else sectors s.raws
    migrations := (List.range (n / 64)).foldl (fun ms i => noteDirty ms (dst + 64 * i)) s.migrations }

/-- A block that METHOD 0 to 2 holds in HBM is encoded again in the blanket, where a mapping of CMP 3 or 4 decodes by the metadata
region (R258, R271). -/
def State.encodeAgain (c : Command) (root : Nat) (pte : Word) (src dst va : Nat) (s : State) (i : Nat) : State :=
  let at_ := 256 * i
  if s.method (src + at_) = 3 then s
  else match metaFor s (copyTlb c) root (migrCtx c) .s pte (va + at_) true with
    | (s, .ok m) => storeCompressed s none { key := dst + at_, mmio := false, window := false, pte := pte, meta_ := m, va := va + at_ }
        (s.load (src + at_) 256)
    | (s, .error _) => s

/-- The destination of a migration receives the page (R271); what harts and agents hold of either frame is not read again (R272). -/
def State.copyPage (s : State) (m : Migration) : State :=
  let s := s.copyRaw m.cmp m.src m.dst m.size
  let s := match s.ctx? (migrCtx m.cmd), s.migrSource m.cmd with
    | some x, .ok (p, _, _) =>
      if inBlanket m.dst = true ∧ 3 ≤ m.cmp then
        (List.range (m.size / 256)).foldl (State.encodeAgain m.cmd x.root p m.src m.dst (cmdOp0 m.cmd).toNat) s
      else s
    | _, _ => s
  let old (a : Nat) : Bool := decide (m.src ≤ a) && decide (a < m.src + m.size) || decide (m.dst ≤ a) && decide (a < m.dst + m.size)
  { s with
    stale := s.stale.filter (fun k => !old k.2.1)
    lines := s.lines.filter (fun l => !(old l.addr && !(l.dirty && decide (m.src ≤ l.addr) && decide (l.addr < m.src + m.size)))) }

/-- A MIGR ends without moving its page. -/
def State.dropMigr (s : State) (c : Command) : State := { s with migrations := s.migrations.filter (fun m => m.cmd != c) }

/-- A migration ends without its commit: whether its rounds have written its destination, which nothing maps, is free (R166, R275).
DESIGN CHOICE (log 47): the copy is then that of the source as it stands. -/
def State.spillMigr (s : State) (c : Command) : State :=
  match s.migrations.find? (fun m => m.cmd == c) with
  | some m =>
    let t : State := { s with choices := s.choices + 1 }
    if (Config.freeWord s.choices).getLsbD 0 then t.copyPage m else t
  | none => s

/-- A MIGR meets an uncorrectable byte of its source (R271). -/
def State.failMigr (s : State) (c : Command) : State := ((s.spillMigr c).dropMigr c).completeFault c 34 false (cmdOp0 c) 0 0

/-- A MIGR is abandoned for a reason of Table 16-2, which payload byte 16 carries (R275). -/
def State.abandonMigr (s : State) (c : Command) (reason : Nat) : State :=
  ((s.spillMigr c).dropMigr c).complete c 9 0 (BitVec.ofNat 128 reason)

/-- MIGR: its checks, then round 0, whose copy no hart sees before the commit (R166). -/
def execMigr (c : Command) (s : State) : Out :=
  s.perform c (fun s =>
    let size := migrSize c
    let dst := migrDst c
    let list := (cmdOp2 c).toNat
    if badMigr s c then s.complete c 1 0 0
    else if poisoned s.poison list (16 * (cmdBits c 52 12 + 1)) then s.completeFault c 34 false 0 0 0
    else
      let leaves := s.migrLeaves c
      if leaves.any (fun l => !s.tableMemory l.1) then s.complete c 1 0 0
      else match s.migrSource c with
        | .error .integrity => s.completeFault c 34 false (cmdOp0 c) 0 0
        | .error f => s.completeAs 2 c (walkCause 13 f) false (cmdOp0 c) 0 0
        | .ok (p, bits, src) =>
          if 2 ^ bits ≠ size ∨ (inBlanket src = true ∧ size = 0x10000) then s.complete c 1 0 0
          else if ptePin p = true ∨ pteKind p ≠ 0 then s.abandonMigr c 2
          else if s.accelHolds src size = false ∨ s.accelHolds dst size = false then s.abandonMigr c 4
          else
            let move := betweenDevices s src dst
            if move.isSome = true ∧ s.pinned (moveKey c) = true then s.abandonMigr c 3
            else if (match move with
                | some (_, d) => s.movesFull d (moveKey c)
                | none => false) = true then s.abandonMigr c 6
            else if filterRoom s s.migrations src size = false then s
            else if poisoned s.poison src size || s.linkCut src size then s.failMigr c
            else
              let m : Migration := { cmd := c, cmp := pteCmp p, round := 0, src := src, dst := dst, size := size, cluster := engineCluster c.by_.hart,
                                     dirty := [], abandon := none, leaves := leaves }
              (({ s with migrations := s.migrations ++ [m] } : State).charge (migrCtx c) 3 size).startCommand c)

/-- Move what lies at the source of a page to the same offset of its destination: accesses held at the source are
performed on the destination (R272 step 5). -/
def redirect (src dst size pa : Nat) : Nat := if src ≤ pa ∧ pa < src + size then dst + (pa - src) else pa

/-- What a hart waits for at a location, after a commit. -/
def Wake.redirect (f : Nat → Nat) (w : Wake) : Wake :=
  match w with
  | .cell rd pa q aq => .cell rd (f pa) q aq
  | .purge pa => .purge (f pa)
  | .retire pa aq => .retire (f pa) aq
  | .remote rd p n signed strong => .remote rd { p with key := f p.key } n signed strong
  | w => w

/-- A hart's pending stores, its load not yet performed, and what it waits for, after a commit. -/
def Hart.redirect (h : Hart) (f : Nat → Nat) : Hart :=
  { h with
    pending := h.pending.map (fun c => (f c.1, c.2))
    late := h.late.map (fun l => (l.1, { l.2.1 with key := f l.2.1.key }, l.2.2))
    blocked := h.blocked.map (Wake.redirect f) }

/-- The completion of a purge, at the location to which its cell has moved. -/
def redirectEvent (f : Nat → Nat) (e : Instr) : Instr :=
  match e with
  | .cellPurgeComplete pa => .cellPurgeComplete (f pa)
  | e => e

/-- Marks of the record at a commit: the destination is the accelerator kernel's with the source's SEALED and RIGHTS, the
source is held (R272 step 3). -/
def State.markFrames (s : State) (m : Migration) : State :=
  let fs := pageFrames m.src m.size
  let ds := pageFrames m.dst m.size
  let s := (ds.zipIdx).foldl (fun (s : State) (d : Nat × Nat) =>
    let e := s.entry ((fs[d.2]?).getD (fs.headD 0))
    s.changeEntry d.1 (setRights (setSealed (setEntState (setOwner (s.entry d.1) 2) 0) (if entSealed e then 1 else 0)) (if entRw e then 1 else 0))) s
  fs.foldl (fun s f => s.changeEntry f (setEntState (setOwner (s.entry f) 2) 0)) s

/-- What stands at the source of a page stands at the same offset of its destination: harts' stores and waits, agents' lines, cells being
purged, the lines of a paired context, the frames written for a protected one (R272 step 5). -/
def State.redirect (s : State) (m : Migration) : State :=
  let f := Sys2Proof.Machine.redirect m.src m.dst m.size
  { s with
    hart := s.hart.redirect f
    others := s.others.map (fun (e : Nat × Hart) => (e.1, e.2.redirect f))
    parties := s.parties.map (fun (p : Party) => { p with savedHarts := p.savedHarts.map (fun e => (e.1, e.2.redirect f)) })
    waiters := s.waiters.map (fun w => { w with pa := f w.pa })
    lines := s.lines.map (fun l => { l with addr := f l.addr })
    purging := s.purging.map f
    events := s.events.map (redirectEvent f)
    contexts := s.contexts.map (fun (x : Context) => { x with lines := x.lines.map (fun l => (l.1, f l.2)) })
    encrypted := ((s.encrypted.filter (fun e => (pageFrames m.src m.size).contains e.1)).filterMap (fun e =>
        let d := (frameAt m.dst + (e.1 - frameAt m.src), e.2)
        if s.encrypted.contains d || inBlanket m.dst then none else some d)) ++ s.encrypted }

/-- The commit of a migration (R272), unless the move table has no room for it by then (R277). DEDUCED (log 47). -/
def State.commitMigr (s : State) (m : Migration) : State :=
  let move := betweenDevices s m.src m.dst
  if (match move with
      | some (_, d) => s.movesFull d (moveKey m.cmd)
      | none => false) = true then s.abandonMigr m.cmd 6
  else
    let s := ((s.copyPage m).dropMigr m.cmd).redirect m
    let s := m.leaves.foldl (fun (s : State) l => s.storeWhole (normPa l.1) (bytesOfNat 8 l.2.toNat)) s
    let s := s.markFrames m
    let s := s.shootdown (migrCtx m.cmd) (cmdOp0 m.cmd).toNat (if m.size = 0x10000 then 1 else 2)
    let s := s.dropDecisions (inFrames [(m.src, m.size), (m.dst, m.size)])
    let s := match move with
      | some (_, d) => s.noteMove m.cmd d
      | none => s
    s.complete m.cmd 0 (BitVec.ofNat 64 m.size) 0

/-- The next round copies the granules that were written (R271). -/
def State.nextRound (s : State) (m : Migration) (whole : Bool) : State :=
  let grains := if whole then (List.range (m.size / 64)).map (fun i => m.src / 64 + i) else m.dirty
  if grains.any (fun g => poisoned s.poison (64 * g) 64 || s.linkCut (64 * g) 64) then s.failMigr m.cmd
  else
    ({ s with migrations := s.migrations.erase m ++ [{ m with round := m.round + 1, dirty := [] }] } : State).charge (migrCtx m.cmd) 3
      (64 * grains.length)

/-- MIGR_ROUND_DONE: the check of the oldest migration (R271, Table 16-1). `dirty` says that a write this device does not
see has reached the source. -/
def execMigrRoundDone (dirty : Bool) (s : State) : Out :=
  .next (match s.migrations with
    | [] => s
    | m :: _ =>
      match m.abandon with
      | some 0 => (s.dropMigr m.cmd).complete m.cmd 7 0 0
      | some reason => s.abandonMigr m.cmd reason
      | none =>
        if m.dirty.isEmpty && !dirty then s.commitMigr m
        else if m.round = 3 then s.abandonMigr m.cmd 1
        else s.nextRound m dirty)

end Sys2Proof.Machine
end

