-- ==== Sys2Proof/Machine/Site.lean ====
section
/-! DEFINITION. The site engine: GATHER, SCATTER, SHIP with its routines, and TABLOAD (R322 to R326). -/

namespace Sys2Proof.Machine

/-! ### GATHER and SCATTER (R322, R323) -/

/-- The routing translation of a q2 command: none, or the cause of its failure (R322). -/
def route (s : State) (c : Command) (va : Nat) : State × Option Nat :=
  if 2 ^ 57 ≤ va ∨ inWindow va = true then (s, some 13)
  else match translate s (copyTlb c) c.by_.root c.by_.ctx va false (fun _ => true) with
    | (s, .error (.inl f)) => (s, some (walkCause 13 f))
    | (s, .error (.inr (cause, _))) => (s, some cause)
    | (s, .ok _) => (s, none)

/-- A cause for an address where no command may name the window: it lies outside local HBM (R323, Table 19-13). -/
def notWindow (write : Bool) (cause : Nat) : Nat := if cause = 27 then engCause write 5 7 else cause

/-- Check the parts of a table element: each on an ordinary page of local HBM (R323). -/
def checkElement (s : State) (c : Command) (write : Bool) : List (Nat × Nat) → State × Option (Nat × Nat)
  | [] => (s, none)
  | (a, n) :: rest =>
    match engPlace s c (copyTlb c) a n write with
    | (s, .error e) => (s, some (notWindow write e, a))
    | (s, .ok p) => if inLocalHbm s p.key then checkElement s c write rest else (s, some (engCause write 5 7, a))

/-- An element's move in a GATHER or SCATTER. -/
structure Element where
  table : Nat
  dense : Nat
  len   : Nat
  deriving DecidableEq, Repr

/-- The move as a run of R316. -/
def Element.run (e : Element) (scatter : Bool) (k : Nat) : Run :=
  { src := if scatter then e.dense else e.table, dst := if scatter then e.table else e.dense, off := k * e.len, len := e.len }

/-- Element `k` of a command whose index is `x`. -/
def element (c : Command) (k x : Nat) : Element :=
  let n := cmdBits c 32 8 + 1
  { table := (cmdOp0 c + BitVec.ofNat 64 (x * n)).toNat, dense := (cmdOp2 c + BitVec.ofNat 64 (k * n)).toNat, len := n }

/-- The elements as the index list stood before the command, as runs. -/
def elementRuns (s : State) (c : Command) (scatter : Bool) : List Run :=
  (List.range (cmdBits c 40 24)).map (fun k =>
    let x := match (engRead s c (copyTlb c) ((cmdOp1 c).toNat + 4 * k) 4).2 with
      | .ok bs => natOfBytes bs
      | .error _ => 0
    (element c k x).run scatter k)

/-- The bytes of an index: where the command may have written them, each its old value or the one that stands there, as the free values
from `pick` on choose (R316). -/
def lappedIndex (pick : Nat) (old new : List Byte) : List Byte :=
  ((old.zip new).zipIdx).map (fun e => if (Config.freeWord (pick + e.2)).getLsbD 0 then e.1.1 else e.1.2)

/-- Element `k` moves: its index, its source, its destination; a failure gives cause, side and address, else the run it made. `lap`
holds the command's runs when its bytes overlap, `done` those it has made. -/
def moveElement (s0 s : State) (c : Command) (scatter : Bool) (lap : Option (List Run)) (done : List Run) (k : Nat) :
    State × Except (Nat × Bool × Nat) Run :=
  let ia := (cmdOp1 c).toNat + 4 * k
  match engRead s c (copyTlb c) ia 4 with
  | (s, .error (e, a)) => (s, .error (notWindow false e, false, a))
  | (s, .ok ix) =>
    let ix := match lap, (engRead s0 c (copyTlb c) ia 4).2 with
      | some _, .ok old => lappedIndex (s.choices + 4 * k) old ix
      | _, _ => ix
    let e := element c k (natOfBytes ix)
    let run := e.run scatter k
    let read : State × Except (Nat × Nat) (List Byte) := match (if scatter then (s, none) else checkElement s c false (chunks e.table e.len)) with
      | (s, some f) => (s, .error f)
      | (s, none) => engRead s c (copyTlb c) run.src e.len
    match read with
    | (s, .error (f, a)) => (s, .error (f, false, a))
    | (s, .ok bs) =>
      let write := if scatter then checkElement s c true (chunks e.table e.len) else engCheck s c (copyTlb c) e.dense e.len true
      match write with
      | (s, some (f, a)) => (s, .error (f, true, a))
      | (s, none) =>
        let bs := match lap with
          | some rows => lappedRun s0 c rows (done ++ [run]) (cmdBits c 40 24 * e.len + 1) run
          | none => bs
        (engWrite (s.charge c.by_.ctx 4 1) c (copyTlb c) run.dst bs, .ok run)

/-- The elements from `k` on, `left` of them: the failing one, with cause, side and address. -/
def moveElements (s0 s : State) (c : Command) (scatter : Bool) (lap : Option (List Run)) (done : List Run) (k : Nat) :
    Nat → State × Option (Nat × Bool × Nat × Nat)
  | 0 => (s, none)
  | left + 1 =>
    match moveElement s0 s c scatter lap done k with
    | (s, .error (e, w, a)) => (s, some (e, w, a, k))
    | (s, .ok run) => moveElements s0 s c scatter lap (done ++ [run]) (k + 1) left

/-- A GATHER or SCATTER, its word checked, from the element where it stands, to its end or to be parked (R323, R355).
DEDUCED (log 46). -/
def State.moveTable (c : Command) (scatter : Bool) (limit : Option Nat) (s : State) : State :=
  let count := cmdBits c 40 24
  if badCommand c false false false false || (cmdOp1 c).toNat % 4 != 0 then s.complete c 1 0 0
  else match route s c (cmdOp0 c).toNat with
    | (s, some e) => s.completeFault c e false (cmdOp0 c) 0 0
    | (s, none) =>
      let rows := elementRuns s c scatter
      let index : Run := { src := (cmdOp1 c).toNat, dst := (cmdOp1 c).toNat, off := 0, len := 4 * count }
      let hit := overlapping rows || rows.any (fun r => decide (r.dst < index.src + index.len) && decide (index.src < r.dst + r.len))
      let n := count * (cmdBits c 32 8 + 1)
      let (units, parks) := unitsNow c.done count limit
      match moveElements s s c scatter (if hit then some rows else none) [] c.done units with
      | (s, fail) =>
        let s : State := if hit then { s with choices := s.choices + (n + 4) * (n + 4) + 4 * count } else s
        match fail with
        | some (e, w, a, k) => s.completeFault c e w (BitVec.ofNat 64 a) (BitVec.ofNat 64 k) 0
        | none => if parks then s.park c (c.done + units) else s.complete c 0 (BitVec.ofNat 64 count) 0

/-- GATHER. -/
def execGather (c : Command) (s : State) : Out := s.perform c (State.moveTable c false none)

/-- SCATTER. -/
def execScatter (c : Command) (s : State) : Out := s.perform c (State.moveTable c true none)

/-! ### Routines (R325) -/

/-- Fields of a micro-instruction. -/
def uOp (u : BitVec 32) : Nat := bitsNat u 26 6
/-- d. -/
def uD (u : BitVec 32) : Nat := bitsNat u 23 3
/-- a. -/
def uA (u : BitVec 32) : Nat := bitsNat u 20 3
/-- b. -/
def uB (u : BitVec 32) : Nat := bitsNat u 17 3
/-- imm. -/
def uImm (u : BitVec 32) : BitVec 17 := u.extractLsb' 0 17

/-- The result of a register operation of Table 19-7, from G[a] and G[b]. -/
def uAlu (u : BitVec 32) (a b : Word) : Option Word :=
  match uOp u with
  | 0x03 => some (a + b)
  | 0x04 => some (a - b)
  | 0x05 => some (a &&& b)
  | 0x06 => some (a ||| b)
  | 0x07 => some (a ^^^ b)
  | 0x08 => some (a * b)
  | 0x09 => some (if b.slt a then b else a)
  | 0x0A => some (if a.slt b then b else a)
  | 0x0B => some (if b.ult a then b else a)
  | 0x0C => some (if a.ult b then b else a)
  | 0x0D => some (a <<< bitsNat b 0 6)
  | 0x0E => some (a >>> bitsNat b 0 6)
  | 0x0F => some ((uImm u).signExtend 64)
  | 0x13 => some (BitVec.ofNat 64 (fAdd fmtF32 arrayMode (fmtF32.decode false (bitsNat a 0 32)) (fmtF32.decode false (bitsNat b 0 32))).1)
  | 0x14 => some (BitVec.ofNat 64 (fAdd fmtF64 arrayMode (fmtF64.decode false a.toNat) (fmtF64.decode false b.toNat)).1)
  | _ => none

/-- A branch of Table 19-7 is taken. -/
def uTaken (u : BitVec 32) (a b : Word) : Bool :=
  match uOp u with
  | 0x10 => a == b
  | 0x11 => a != b
  | 0x12 => a.ult b
  | _ => false

/-- What a routine comes to: its result and its held writes, oldest first; or a read of an uncorrectable word. -/
inductive Routine where
  | halt (result : Word) (writes : List (Nat × Word))
  | bad (word : Nat)
  deriving DecidableEq, Repr

/-- Run a routine from index `ix` on a line: `line` its eight words from the addressed one, `badWord` which of them are
uncorrectable. Its branches go forward (R326), so 32 steps are enough. -/
def runRoutine (fuel : Nat) (r : List (BitVec 32)) (line : List Word) (badWord : Nat → Bool) (g : Vector Word 8)
    (held : List (Nat × Word)) (ix : Nat) : Routine :=
  match fuel with
  | 0 => .halt (g.toList.headD 0) held
  | fuel + 1 =>
    match r[ix]? with
    | none => .halt (g.toList.headD 0) held
    | some u =>
      let a := g.toList.getD (uA u) 0
      let b := g.toList.getD (uB u) 0
      let w := bitsNat (uImm u) 0 3
      let set (v : Word) : Vector Word 8 := g.setIfInBounds (uD u) v
      if uOp u = 0x00 then .halt (g.toList.getD (uD u) 0) held
      else if uOp u = 0x01 then
        if badWord w then .bad w else runRoutine fuel r line badWord (set (line.getD w 0)) held (ix + 1)
      else if uOp u = 0x02 then runRoutine fuel r line badWord g (held ++ [(w, a)]) (ix + 1)
      else if uTaken u a b then runRoutine fuel r line badWord g held (bitsNat (uImm u) 0 5)
      else match uAlu u a b with
        | some v => runRoutine fuel r line badWord (set v) held (ix + 1)
        | none => runRoutine fuel r line badWord g held (ix + 1)

/-- The location of word `i` of the line of a location, counted from the addressed word (R325). -/
def shipWord (key i : Nat) : Nat := key / 64 * 64 + (key / 8 + i) % 8 * 8

/-- The cause of a SHIP whose page allows none (R324): the blanket, KIND other than 0, FMT or CMP 3 to 4. -/
def shipCause (e : TlbEntry) (pa : Nat) : Option Nat :=
  if inBlanket pa ∨ pteKind e.pte ≠ 0 ∨ pteFmt e.pte ≠ 0 ∨ 3 ≤ pteCmp e.pte then some 7 else none

/-- The place of a SHIP's line. DEDUCED (log 46). -/
def shipPlace (s : State) (c : Command) (va : Nat) : State × Except Nat Place :=
  if 2 ^ 57 ≤ va then (s, .error 15)
  else if inWindow va then (s, .error 7)
  else match engAmoPage s c (copyTlb c) va 8 with
    | (s, .error cause) => (s, .error cause)
    | (s, .ok e) =>
      let pa := entryPa e va
      match shipCause e pa with
      | some cause => (s, .error cause)
      | none => (s, .ok { key := normPa pa, mmio := false, window := false, pte := e.pte, meta_ := none, va := va })

/-- A SHIP comes to the home of its line as a strong access of the hart that pushed it (R165, R324). -/
def State.atShip (s : State) (h key : Nat) : State :=
  ((s.settleRange h (key / 64 * 64) (key / 64 * 64 + 64)).recallLine (agentOf h) key).freshen h (key / 64 * 64) 64

/-- SHIP. -/
def execShip (c : Command) (s : State) : Out :=
  s.perform c (fun s =>
    let va := (cmdOp0 c).toNat
    if badCommand c false true false (cmdBits c 38 26 != 0) || va % 8 != 0 then s.complete c 1 0 0
    else match s.routines.find? (fun r => r.1 == cmdBits c 32 6) with
      | none => s.complete c 1 0 0
      | some (_, r) =>
        match shipPlace s c va with
        | (s, .error e) => s.completeFault c e true (cmdOp0 c) 0 0
        | (s, .ok p) =>
          let s := s.atShip c.by_.hart p.key
          let at_ (i : Nat) : Place := { p with key := shipWord p.key i, va := va / 64 * 64 + (va / 8 + i) % 8 * 8 }
          let line := (List.range 8).map (fun i => wordOf (decoded s (at_ i) (shipWord p.key i) 8))
          match runRoutine 33 r line (fun i => poisoned s.poison (shipWord p.key i) 8)
              ((Vector.replicate 8 (0 : Word)).setIfInBounds 0 (cmdOp1 c) |>.setIfInBounds 1 (cmdOp2 c)) [] 0 with
          | .bad i => s.completeFault c 34 false (BitVec.ofNat 64 (at_ i).va) 0 0
          | .halt result writes =>
            let s := s.charge c.by_.ctx 4 1
            let s := writes.foldl (fun (s : State) w => s.engStore c (at_ w.1) (bytesOfNat 8 w.2.toNat)) s
            ({ s.deliverShip c result with choices := s.choices + 1 } : State).complete c 0 (Config.freeWord s.choices) 0)

/-! ### TABLOAD (R326) -/

/-- A micro-instruction at an index that TABLOAD refuses. -/
def badMicro (ix : Nat) (u : BitVec 32) : Bool :=
  decide (0x15 ≤ uOp u) || (decide (0x10 ≤ uOp u) && decide (uOp u ≤ 0x12) && decide (bitsNat (uImm u) 0 5 ≤ ix))

/-- The routine of 128 bytes. -/
def routineOf (bs : List Byte) : List (BitVec 32) := (List.range 32).map (fun i => BitVec.ofNat 32 (natOfBytes (takeBytes bs (4 * i) 4)))

/-- TABLOAD refuses a routine. -/
def badRoutine (r : List (BitVec 32)) : Bool := (r.zipIdx).any (fun u => badMicro u.2 u.1)

/-- TABLOAD. -/
def execTabload (c : Command) (s : State) : Out :=
  s.perform c (fun s =>
    let first := cmdBits c 32 6
    let n := cmdBits c 38 6 + 1
    let image := (cmdOp0 c).toNat
    if badCommand c false false true (cmdBits c 44 20 != 0 || cmdOp1 c != 0 || cmdOp2 c != 0) || decide (63 < first + n - 1)
        || image % 128 != 0 || !inLocalHbm s (image + 128 * n - 1) then s.complete c 1 0 0
    else if poisoned s.poison image (128 * n) then s.completeFault c 34 false (cmdOp0 c) 0 0
    else
      let rs := (List.range n).map (fun i => routineOf (s.load (image + 128 * i) 128))
      if rs.any badRoutine then s.complete c 1 0 0
      else
        let s : State := { s with routines := (rs.zipIdx).foldl (fun l r => assocSet l (first + r.2) r.1) s.routines }
        s.complete c 0 (BitVec.ofNat 64 (128 * n)) 0)

end Sys2Proof.Machine
end

