-- ==== Sys2Proof/Machine/Collective.lean ====
section
/-! DEFINITION. The collective engine (R327 to R329). -/

namespace Sys2Proof.Machine

/-- The cases in which a collective's command is BAD_CMD at once (R289, R327). -/
def badCollective (c : Command) : Bool :=
  badCommand c false false false (cmdBits c 38 6 != 0)
    || c.by_.launch.isNone || decide (c.by_.rank.toNat < collRank0 c) || decide (collRank0 c + collRanks c ≤ c.by_.rank.toNat)

/-- The cases in which a collective is BAD_CMD for every participant, by the OP and COUNT that their commands have in common (R327,
Table 19-9). DESIGN CHOICE (log 35): COUNT 0 is one. -/
def badFold (c : Command) : Bool :=
  let folds := c.cmd == 0x60 || c.cmd == 0x61
  (!folds && collOp c != 0) || (folds && (decide (4 < collOp c) || (collFloat c && decide (3 ≤ collOp c)))) || collCount c == 0

/-- Translate and check parts of a buffer, whatever its bytes hold (R329). -/
def collCheckFrom (s : State) (c : Command) (write : Bool) : List (Nat × Nat) → State × Option (Nat × Nat)
  | [] => (s, none)
  | (a, n) :: rest =>
    match engPlaceWith false true s c (copyTlb c) a n write with
    | (s, .error e) => (s, some (e, a))
    | (s, .ok _) => collCheckFrom s c write rest

/-- Translate and check a buffer, whatever its bytes hold (R329). -/
def collCheck (s : State) (c : Command) (va n : Nat) (write : Bool) : State × Option (Nat × Nat) :=
  collCheckFrom s c write (chunks va n)

/-- A participant fails before any data moves: the others complete PEER_ERROR (R329). -/
def State.failCollective (s : State) (c : Command) (cause : Nat) (write : Bool) (addr : Nat) : State :=
  (s.loseCollective c).completeFault c cause write (BitVec.ofNat 64 addr) 0 0

/-- A collective is accepted: its buffers are translated, where it has any to move, and it waits for its peers (R327, R329). -/
def State.joinCollective (s : State) (c : Command) : State :=
  if badCollective c then s.complete c 1 0 0
  else if s.broken.any (fun b => b.key == collectiveKey c) then
    (s.noteBroken (collectiveKey c) [c.by_.rank.toNat]).complete c 8 0 0
  else if badFold c then s.startCommand c
  else match collCheck s c (cmdOp0 c).toNat (collSource c) false with
    | (s, some (e, a)) => s.failCollective c e false a
    | (s, none) => match collCheck s c (cmdOp1 c).toNat (collDest c) true with
      | (s, some (e, a)) => s.failCollective c e true a
      | (s, none) => s.startCommand c

/-- CALLRED. -/
def execCallred (c : Command) (s : State) : Out := s.perform c (fun s => s.joinCollective c)
/-- CREDSC. -/
def execCredsc (c : Command) (s : State) : Out := s.perform c (fun s => s.joinCollective c)
/-- CALLGATH. -/
def execCallgath (c : Command) (s : State) : Out := s.perform c (fun s => s.joinCollective c)
/-- CBCAST. -/
def execCbcast (c : Command) (s : State) : Out := s.perform c (fun s => s.joinCollective c)
/-- CXCHG. -/
def execCxchg (c : Command) (s : State) : Out := s.perform c (fun s => s.joinCollective c)

/-! ### The data (R328) -/

/-- Two elements of a type folded under an OP (R328). -/
def foldTwo (ty : ETy) (op : Nat) (a b : Nat) : Nat :=
  let w := etyBits ty
  let m := etyFmt ty
  match ty with
  | .f32 | .bf16 | .f16 | .f64 =>
    let x := m.decode false a
    let y := m.decode false b
    match op with
    | 0 => (fAdd m arrayMode x y).1
    | 1 => (fMinMax m false x y).1
    | _ => (fMinMax m true x y).1
  | .i32 | .i16 | .i8 | .i64 =>
    match op with
    | 0 => (a + b) % 2 ^ w
    | 1 => if toSigned w b < toSigned w a then b else a
    | 2 => if toSigned w a < toSigned w b then b else a
    | 3 => a &&& b
    | _ => a ||| b

/-- Element `i` of a buffer. -/
def elemAt (ty : ETy) (bs : List Byte) (i : Nat) : Nat :=
  let n := etyBits ty / 8
  natOfBytes (takeBytes bs (i * n) n)

/-- The fold of elements, from the left. -/
def foldElems (ty : ETy) (op : Nat) : List Nat → Nat
  | [] => 0
  | a :: rest => rest.foldl (foldTwo ty op) a

/-- DST of participant `j`: `srcs` the sources by participant index, `order` the participants in the order of the fold. -/
def collResult (c : Command) (srcs : List (List Byte)) (order : List Nat) (j : Nat) : List Byte :=
  let ty := collType c
  let n := chunkBytes c
  let fold (first : Nat) : List Byte :=
    (List.range (collCount c)).flatMap (fun i =>
      bytesOfNat (etyBits ty / 8) (foldElems ty (collOp c) (order.map (fun p => elemAt ty (srcs.getD p []) (first + i)))))
  match c.cmd with
  | 0x60 => fold 0
  | 0x61 => fold (j * collCount c)
  | 0x62 => srcs.flatten
  | 0x63 => srcs.headD []
  | _ => srcs.flatMap (fun b => takeBytes b (j * n) n)

/-! ### The match (R327, R329) -/

/-- A rank that another device holds, whose command and data are not seen here (R386). DESIGN CHOICE (log 48). -/
def State.farRank (s : State) (launch : Option Nat) (rank : Nat) : Bool :=
  match launch.bind s.launch? with
  | some l => l.far && decide (l.ranks ≤ rank)
  | none => false

/-- The started command of each participant of this device with its index, in order; none while one is missing, or where all are on
other devices. -/
def State.participants (s : State) (key : Option Nat × Nat × Nat × Nat) : Option (List (Nat × Command)) :=
  let mine := s.engines.filter (fun a => a.started && !a.parked && isCollective a.cmd && collectiveKey a.cmd == key)
  let n := s.ranksHere key
  let l := (List.range n).map (fun j => (mine.find? (fun a => a.cmd.by_.rank.toNat == key.2.1 + j)).map (fun a => (j, a.cmd)))
  if n = 0 ∨ mine.length < n then none
  else if (n < key.2.2.1 && !s.farRank key.1 (key.2.1 + n)) || l.any Option.isNone then none
  else some (l.filterMap (fun x => x))

/-- Two commands of one collective agree (R327). -/
def sameCollective (a b : Command) : Bool :=
  a.cmd == b.cmd && cmdBits a 32 3 == cmdBits b 32 3 && collOp a == collOp b && collCount a == collCount b

/-- Put (slice, j) into a list in rising order of slice, before its equals. -/
def bySlice (a : Nat × Nat) (l : List (Nat × Nat)) : List (Nat × Nat) :=
  match l with
  | [] => [a]
  | b :: rest => if a.1 ≤ b.1 then a :: b :: rest else b :: bySlice a rest

/-- The slice of a participant: of one on another device, free (R386; log 48). -/
def State.sliceOf (s : State) (cs : List (Nat × Command)) (j : Nat) : Nat :=
  match cs.find? (fun c => c.1 == j) with
  | some (_, c) => (match s.pusherParty c with
    | some p => p.slice
    | none => 0)
  | none => (Config.freeWord (s.choices + 1 + j)).toNat

/-- `n` participants in the order of a fold: by j, in a REPRO launch by (slice, j) (R328). -/
def State.foldOrder (s : State) (launch n : Nat) (cs : List (Nat × Command)) : List Nat :=
  let repro := match s.launch? launch with
    | some l => l.flags.getLsbD 1
    | none => false
  if repro then (((List.range n).map (fun j => (s.sliceOf cs j, j))).foldr bySlice []).map (·.2) else List.range n

/-- Read every participant's source; the first that fails gives its command, cause and address. -/
def readSources (s : State) : List (Nat × Command) → State × Except (Command × Nat × Nat) (List (Nat × List Byte))
  | [] => (s, .ok [])
  | (j, c) :: rest =>
    match engRead s c (copyTlb c) (cmdOp0 c).toNat (collSource c) with
    | (s, .error (e, a)) => (s, .error (c, e, a))
    | (s, .ok bs) => match readSources s rest with
      | (s, .error f) => (s, .error f)
      | (s, .ok l) => (s, .ok ((j, bs) :: l))

/-- Check every participant's destination. -/
def checkDests (s : State) : List (Nat × Command) → State × Option (Command × Nat × Nat)
  | [] => (s, none)
  | (_, c) :: rest =>
    match engCheck s c (copyTlb c) (cmdOp1 c).toNat (collDest c) true with
    | (s, some (e, a)) => (s, some (c, e, a))
    | (s, none) => checkDests s rest

/-- The source of participant `j`: what was read, and of one on another device, free bytes from the choice `n` on (R386; log 48). -/
def sourceOf (n size : Nat) (srcs : List (Nat × List Byte)) (j : Nat) : List Byte :=
  match srcs.find? (fun b => b.1 == j) with
  | some b => b.2
  | none => (List.range size).map (fun i => Config.freeByte (n + j * size + i))

/-- Bytes of a transfer that ended in failure: each its old value or the new one, as the free values choose (R329, R331).
DEDUCED (log 49). -/
def halfBytes (n : Nat) (old new : List Byte) : List Byte :=
  ((old.zip new).zipIdx).map (fun e => if (Config.freeWord (n + e.2)).getLsbD 0 then e.1.2 else e.1.1)

/-- Write bytes that a failure has left each old or new. -/
def State.engHalf (s : State) (c : Command) (va : Nat) (bs : List Byte) : State :=
  match (engRead s c (copyTlb c) va bs.length).2 with
  | .error _ => s
  | .ok old =>
    let t := engWrite s c (copyTlb c) va (halfBytes s.choices old bs)
    { t with choices := t.choices + bs.length }

/-- How a collective that spans devices ends, as far as this device does not decide it (R327, R329, R386; log 48). -/
inductive FarEnd where
  /-- every participant has passed its checks, and the data moves -/
  | moves
  /-- the commands of the other devices do not agree with those of this one -/
  | differs
  /-- a participant of another device fails before data moves -/
  | lost
  /-- a Fenys link fails while data moves -/
  | broken
  deriving DecidableEq, Repr

/-- The choice of one. -/
def farEnd (w : Word) : FarEnd :=
  match bitsNat w 0 2 with
  | 0 => .moves
  | 1 => .differs
  | 2 => .lost
  | _ => .broken

/-- Every command of a list completes with a status. -/
def State.completeAll (s : State) (cs : List (Nat × Command)) (status : Nat) : State := cs.foldl (fun s d => s.complete d.2 status 0 0) s

/-- The data of a collective moves, `n` the participants: every DST is written, or, when a link fails, each of its bytes may be (R328,
R329). -/
def State.moveCollective (s : State) (launch n : Nat) (cs : List (Nat × Command)) (whole : Bool) : State :=
  match cs.head? with
  | none => s
  | some (_, c) =>
    let fail (s : State) (bad : Command) (e : Nat) (write : Bool) (a : Nat) : State :=
      (s.completeFault bad e write (BitVec.ofNat 64 a) 0 0).completeAll (cs.filter (fun d => d.2 != bad)) 8
    match readSources s cs with
    | (s, .error (bad, e, a)) => fail s bad e false a
    | (s, .ok srcs) => match checkDests s cs with
      | (s, some (bad, e, a)) => fail s bad e true a
      | (s, none) =>
        let order := s.foldOrder launch n cs
        let size := (if c.cmd = 0x61 ∨ c.cmd = 0x64 then n else 1) * chunkBytes c
        let all := (List.range n).map (sourceOf (s.choices + 1 + n) size srcs)
        let s : State := { s with choices := s.choices + 1 + n + n * size }
        let put (s : State) (d : Nat × Command) : State :=
          let bs := collResult d.2 all order d.1
          if whole then engWrite s d.2 (copyTlb d.2) (cmdOp1 d.2).toNat bs else s.engHalf d.2 (cmdOp1 d.2).toNat bs
        let s := cs.foldl put s
        if whole then cs.foldl (fun s d => s.complete d.2 0 (BitVec.ofNat 64 (collDest d.2)) 0) s else s.completeAll cs 8

/-- COLLECTIVE_MATCH: every participant has pushed and translated, so the data moves (R327 to R329). Of a collective that spans devices
the others' part is free. DESIGN CHOICE (log 48). -/
def execCollectiveMatch (launch rank0 nrank seq : Nat) (s : State) : Out :=
  .next (match s.participants (some launch, rank0, nrank, seq) with
    | none => s
    | some [] => s
    | some ((j, c) :: rest) =>
      let cs := (j, c) :: rest
      let ends := if cs.length < nrank then farEnd (Config.freeWord s.choices) else .moves
      if rest.any (fun d => !sameCollective c d.2) || badFold c then s.completeAll cs 1
      else match ends with
        | .moves => s.moveCollective launch nrank cs true
        | .differs => ({ s with choices := s.choices + 1 } : State).completeAll cs 1
        | .lost => ({ s with choices := s.choices + 1 } : State).completeAll cs 8
        | .broken => s.moveCollective launch nrank cs false)

end Sys2Proof.Machine
end

