-- ==== Sys2Proof/Machine/Network.lean ====
section
/-! DEFINITION. The network engine (R330 to R332) and the packets that arrive for it (R397, R398). -/

namespace Sys2Proof.Machine

/-- PEER. -/
def netPeer (c : Command) : Nat := cmdBits c 32 16
/-- QMODE. -/
def netQmode (c : Command) : Bool := c.word.getLsbD 48
/-- The queue of a QMODE post. -/
def netQueue (c : Command) : Nat := 4 + cmdBits c 49 2
/-- LENGTH. -/
def netLength (c : Command) : Nat := cmdBits c 192 32
/-- KEY. -/
def netKey (c : Command) : Nat := cmdBits c 224 32

/-- The endpoint of a context's table is VALID (R397, R398). -/
def State.endpoint (s : State) (root peer : Nat) : Bool :=
  let base := s.ctxField root 0x168 8
  decide (peer < s.ctxField root 0x170 4) && inLocalHbm s (base + 32 * peer + 31) && s.loadNat (base + 32 * peer + 22) 2 % 2 == 1

/-- A context was given a protection key (R131). -/
def State.protectedCtx (s : State) (ctx : BitVec 16) : Bool := s.contexts.any (fun x => x.id == ctx && x.protected_)

/-- The cases in which a network command is BAD_CMD by its word (R289, Table 19-11): `region` for NWRITE and NREAD. -/
def badNetwork (c : Command) (region post : Bool) : Bool :=
  badCommand c false false false (cmdBits c 51 13 != 0 || (!region && cmdOp1 c != 0) || (!post && netQmode c)
    || (!netQmode c && cmdBits c 49 2 != 0) || (netQmode c && (cmdOp0 c != 0 || netLength c % 64 != 0)))

/-- The checks before a packet leaves: the endpoint, the local pages, a key slot for a protected context (R330, R398).
DESIGN CHOICE (log 36): a stream cannot obtain a slot when none of the 128 is free. -/
def State.openNetwork (s : State) (c : Command) (n : Nat) (write : Bool) (k : State → State) : State :=
  if !(netPeer c == 0xFFFF && c.cmd == 0x83) && !s.endpoint c.by_.root (netPeer c) then s.complete c 8 0 0
  else match (if write then engCheck s c (copyTlb c) (cmdOp0 c).toNat n true
      else match engRead s c (copyTlb c) (cmdOp0 c).toNat n with
        | (s, .error e) => (s, some e)
        | (s, .ok _) => (s, none)) with
    | (s, some (e, a)) => s.completeFault c e write (BitVec.ofNat 64 a) 0 0
    | (s, none) =>
      if s.protectedCtx c.by_.ctx && s.freeSlot.isNone then s.complete c 10 0 0 else k s

/-- NSEND: it starts, and waits for its peer (R331). -/
def execNsend (c : Command) (s : State) : Out :=
  s.perform c (fun s =>
    if badNetwork c false false then s.complete c 1 0 0 else s.openNetwork c (netLength c) false (fun s => s.startCommand c))

/-- NWRITE: it starts, and waits for its peer (R331). -/
def execNwrite (c : Command) (s : State) : Out :=
  s.perform c (fun s =>
    if badNetwork c true false then s.complete c 1 0 0 else s.openNetwork c (netLength c) false (fun s => s.startCommand c))

/-- NREAD: it starts, and waits for its peer (R331). -/
def execNread (c : Command) (s : State) : Out :=
  s.perform c (fun s =>
    if badNetwork c true false then s.complete c 1 0 0 else s.openNetwork c (netLength c) true (fun s => s.startCommand c))

/-- The made queue of a QMODE post: the core, when the pushing party owns the queue there. -/
def State.postQueue (s : State) (c : Command) : Option Nat :=
  (s.pusherParty c).bind (fun p => if ((s.core p.core).queue (netQueue c)).owner = some p.id then some p.core else none)

/-- NPOST: a buffer or a queue is posted for messages (R331). -/
def execNpost (c : Command) (s : State) : Out :=
  s.perform c (fun s =>
    if badNetwork c false true || (netQmode c && (s.postQueue c).isNone) then s.complete c 1 0 0
    else s.openNetwork c (if netQmode c then 0 else netLength c) true (fun s =>
      if netQmode c = true ∧ netLength c / 64 ≤ c.done then s.complete c 0 (BitVec.ofNat 64 c.done) 0 else s.startCommand c))

/-- An NSEND that has begun and found no post (R331). -/
def seeksPost (a : Accepted) : Bool := a.started && !a.parked && a.cmd.cmd == 0x80

/-- The cycle at which the 1 s of a message or an NSEND that looks for a post is over (R331). -/
def postLimit (since : Nat) : Nat := since + 3000000000

/-- NSEND_TIMEOUT: the message found no post within 1 s (R331). -/
def execNsendTimeout (c : Command) (s : State) : Out :=
  .next (match s.engines.find? (fun a => a.cmd == c && seeksPost a) with
    | some a => ({ s with clock := max s.clock (postLimit a.since) } : State).complete c 8 0 0
    | none => s)

/-! ### Arriving packets (R331, R398) -/

/-- The context that receives a JOB's traffic, by the domain control block's job table (R398). -/
def State.jobCtx (s : State) (job : Nat) : Option Context :=
  ((s.jobs.find? (fun j => j.2.getLsbD 48 && bitsNat j.2 0 32 == job)).map (fun j => j.2.extractLsb' 32 16)).bind s.ctx?

/-- The lowest-indexed VALID region entry of a context with a KEY: its FLAGS, BASE and LENGTH (R398). -/
def State.region (s : State) (root key : Nat) : Option (Nat × Nat × Nat) :=
  let base := s.ctxField root 0x178 8
  let at_ (i : Nat) : Nat := base + 32 * i
  ((List.range (s.ctxField root 0x180 4)).find? (fun i =>
    inLocalHbm s (at_ i + 31) && s.loadNat (at_ i + 4) 4 % 2 == 1 && s.loadNat (at_ i) 4 == key)).map
      (fun i => (s.loadNat (at_ i + 4) 4, s.loadNat (at_ i + 8) 8, s.loadNat (at_ i + 16) 8))

/-- The agent of a packet: an engine access for the receiving context, as S-mode. DEDUCED (log 49). -/
def packetAgent (x : Context) : Command :=
  { word := 0x80, done := 0, by_ := { hart := 0, port := 4, root := x.root, ctx := x.id, ctxid := x.id, mode := .s, kfaultq := 0,
                                      rank := 0, party := none, launch := none, pmp := Pmp.reset, near := false }, id := 0 }

/-- A write of a peer to a region: a packet that any check refuses does nothing (R398). -/
def State.packetWrite (s : State) (job key off : Nat) (data : List Byte) : State :=
  match s.jobCtx job with
  | none => s
  | some x => match s.region x.root key with
    | none => s
    | some (flags, base, len) =>
      if flags / 4 % 2 = 0 ∨ len < off + data.length then s
      else
        let c := packetAgent x
        match engCheck s c (copyTlb c) (base + off) data.length true with
        | (_, some _) => s
        | (t, none) => { engWrite t c (copyTlb c) (base + off) data with clusters := s.clusters }

/-- A post of a context for a match value and a sender (R331). -/
def postFor (x : Context) (m peer : Nat) (a : Accepted) : Bool :=
  a.started && !a.parked && a.cmd.cmd == 0x83 && a.cmd.by_.ctx == x.id && netKey a.cmd == m
    && (netPeer a.cmd == peer || netPeer a.cmd == 0xFFFF)

/-- The oldest post of a context that takes a message (R331). -/
def State.matchPost (s : State) (x : Context) (m peer len : Nat) : Option Command :=
  (s.engines.find? (fun a => postFor x m peer a
    && (if netQmode a.cmd then len == 64 else decide (len ≤ netLength a.cmd)))).map Accepted.cmd

/-- A message is larger than a post that is there for it: it is refused, and the post stays (R331). DEDUCED (log 49): a QMODE post takes
64 bytes. -/
def State.outgrows (s : State) (x : Context) (m peer len : Nat) : Bool :=
  s.engines.any (fun a => postFor x m peer a && decide ((if netQmode a.cmd then 64 else netLength a.cmd) < len))

/-- The payload of a post's completion: the sender's endpoint index and the match value (R331). -/
def postPayload (peer m : Nat) : BitVec 128 := BitVec.ofNat 128 (peer % 2 ^ 16 + m % 2 ^ 32 * 2 ^ 32)

/-- A message is placed whole in the buffer of its post. -/
def State.placeMessage (s : State) (c : Command) (m peer : Nat) (data : List Byte) : State :=
  match engCheck s c (copyTlb c) (cmdOp0 c).toNat data.length true with
  | (s, some (e, a)) => s.completeFault c e true (BitVec.ofNat 64 a) 0 0
  | (s, none) =>
    ((engWrite s c (copyTlb c) (cmdOp0 c).toNat data).charge c.by_.ctx 9 data.length).complete c 0 (BitVec.ofNat 64 data.length)
      (postPayload peer m)

/-- The queue of a QMODE post can take an entry: its core (R331). -/
def State.postRoom (s : State) (c : Command) : Option Nat :=
  (s.postQueue c).bind (fun core =>
    let q := (s.core core).queue (netQueue c)
    if q.closing || !q.hasFree (netQueue c) then none else some core)

/-- A message is appended to the queue of its post. -/
def State.queueMessage (s : State) (c : Command) (core m peer : Nat) (data : List Byte) : State :=
  let s := (s.enqueue core (netQueue c) (BitVec.ofNat 512 (natOfBytes data))).charge c.by_.ctx 9 data.length
  if c.done + 1 = netLength c / 64 then s.complete c 0 (BitVec.ofNat 64 (c.done + 1)) (postPayload peer m)
  else { s with engines := s.engines.map (fun (a : Accepted) => if a.cmd = c then { a with cmd := { c with done := c.done + 1 } } else a) }

/-- What becomes of a message that has arrived (R331, R398). -/
inductive Fate where
  /-- it is placed in the buffer of a post -/
  | place (c : Command)
  /-- it is appended to the queue of a post -/
  | append (c : Command) (core : Nat)
  | refuse
  /-- it waits: for a post, or for room in the queue of its post -/
  | wait
  deriving DecidableEq, Repr

/-- What becomes of it now. -/
def State.fate (s : State) (g : Message) : Fate :=
  match s.jobCtx g.job with
  | none => .refuse
  | some x => match s.matchPost x g.match_ g.peer g.data.length with
    | some c =>
      if netQmode c then (match s.postRoom c with
        | some core => .append c core
        | none => .wait)
      else .place c
    | none =>
      if s.outgrows x g.match_ g.peer g.data.length || decide (postLimit g.since ≤ s.clock) then .refuse else .wait

/-- A message that waits no longer leaves the transport. -/
def State.deliverMessage (s : State) (g : Message) : State :=
  let t : State := { s with messages := s.messages.erase g }
  match s.fate g with
  | .place c => t.placeMessage c g.match_ g.peer g.data
  | .append c core => t.queueMessage c core g.match_ g.peer g.data
  | .refuse => t
  | .wait => s

/-- The oldest message that need not wait. -/
def State.readyMessage (s : State) : Option Message := s.messages.find? (fun g => s.fate g != .wait)

/-- The peer's answer to a command: its bytes are placed, for an NREAD, and it completes (R331). -/
def State.answered (s : State) (c : Command) (ok : Bool) (data : List Byte) : State :=
  let va := (cmdOp0 c).toNat
  let n := netLength c
  if c.cmd ≠ 0x82 then (if ok then (s.charge c.by_.ctx 9 n).complete c 0 (BitVec.ofNat 64 n) 0 else s.complete c 8 0 0)
  else match engCheck s c (copyTlb c) va n true with
    | (s, some (e, a)) => s.completeFault c e true (BitVec.ofNat 64 a) 0 0
    | (s, none) =>
      if ok then ((engWrite s c (copyTlb c) va (takeBytes data 0 n)).charge c.by_.ctx 9 n).complete c 0 (BitVec.ofNat 64 n) 0
      else (s.engHalf c va (data.take n)).complete c 8 0 0

/-- NETWORK_PACKET_ARRIVAL: a packet is delivered to the context of its JOB, or refused; a message may have to wait (R331, R398). What
is sent back leaves the device. -/
def execNetworkPacketArrival (p : Packet) (s : State) : Out :=
  .next (match p with
    | .write job key off data => s.packetWrite job key off data
    | .read _ _ _ _ => s
    | .message job m peer data =>
      let g : Message := { job := job, match_ := m, peer := peer, data := data, since := s.clock }
      ({ s with messages := s.messages ++ [g] } : State).deliverMessage g
    | .answer tag hart ok data =>
      (match s.engines.find? (fun a => a.started && !a.parked && a.cmd.by_.port == 4 && a.cmd.cmd != 0x83
          && cmdTag a.cmd == tag && a.cmd.by_.hart == hart) with
        | none => s
        | some a => s.answered a.cmd ok data))

end Sys2Proof.Machine
end

