-- ==== Sys2Proof/Machine/Fabric.lean ====
section
/-! DEFINITION. The device around the cores: the ramp limiter (R303), the bandwidth shares (R282 to R284), the meters
(R364 to R367), the links and the loss of a device (R381 to R386), the PCI Express ports and the virtio devices (R387 to
R392), waiting fault-queue posts (R343) and the alarm (R414). -/

namespace Sys2Proof.Machine

/-! ### The ramp limiter (R303) -/

/-- Issue slots of the window after one with `last`, at a demand, under a bound. -/
def rampSlots (bound last demand : Nat) : Nat := max (min (min demand 3000) (last + bound)) (last - bound)

/-- The bound as management sets it: 375, or lower (R303, R433). DESIGN CHOICE (log 53). -/
def State.rampBound (s : State) : Nat := min 375 (Config.rampBound s.choices)

/-- RAMP_WINDOW: the slots of a window; empty slots count in the leaseholder's array cycles (R299, R303). -/
def execRampWindow (cluster demand : Nat) (s : State) : Out :=
  let c := s.cluster cluster
  let slots := rampSlots s.rampBound c.slots demand
  let empty := min demand 3000 - slots
  let cycles := c.lease.cycles + empty
  let lease := if c.lease.holder.isSome then { c.lease with cycles := cycles, draining := c.lease.draining || decide (8192 ≤ cycles) } else c.lease
  .next ((s.setCluster cluster { c with slots := slots, lease := lease }).leaseCheck cluster)

/-! ### Bandwidth shares (R282 to R284) -/

/-- A list without repeats, rising. -/
def insertOnce (a : Nat) (l : List Nat) : List Nat :=
  match l with
  | [] => [a]
  | b :: rest => if a = b then l else if a < b then a :: l else b :: insertOnce a rest

/-- The cores of a die on which a hart runs in a context, rising. DEDUCED (log 53). -/
def State.portsOf (s : State) (die : Nat) (ctx : BitVec 16) : List Nat :=
  (s.hartIds.filter (fun h => dieOfCore (coreOf h) == die && (s.getHart h).running && ctxOf (s.getHart h).csr.ptroot == ctx)).foldl
    (fun l h => insertOnce (coreOf h) l) []

/-- The valid entries of a controller: context and SHARE (Table 16-4). -/
def Share.valid (x : Share) : List (BitVec 16 × Nat) :=
  (x.entries.filter (fun e => e.2.getLsbD 32)).map (fun e => (e.2.extractLsb' 0 16, bitsNat e.2 16 16))

/-- Tokens split over cores: the remainder goes one each to the lowest-numbered; a bucket holds at least 1 (R284). -/
def splitTokens (a : Nat) (cores : List Nat) : List (Nat × Nat) :=
  (cores.zipIdx).map (fun c => (c.1, max 1 (a / cores.length + (if c.2 < a % cores.length then 1 else 0))))

/-- The boundary of a die's interval (R284). -/
def State.boundary (s : State) (die : Nat) (x : Share) (unspent : List (Nat × Nat)) (waiting : List (BitVec 16)) : Share :=
  let left := (unspent.map (fun u => min u.2 (assocGet x.buckets 0 u.1))).sum
  let u := min x.pool.toNat (left + x.remainder)
  let present := x.valid.filter (fun e => !(s.portsOf die e.1).isEmpty)
  let w := present.filter (fun e => waiting.contains e.1)
  let total := (w.map (·.2)).sum
  let extra (e : BitVec 16 × Nat) : Nat := if waiting.contains e.1 ∧ 0 < total then u * e.2 / total else 0
  let given := present.flatMap (fun e => splitTokens (x.pool.toNat * e.2 / 65536 + extra e) (s.portsOf die e.1))
  let others := ((s.hartIds.filter (fun h => dieOfCore (coreOf h) == die && (s.getHart h).running)).foldl (fun l h => insertOnce (coreOf h) l) []).filter
    (fun c => !given.any (fun g => g.1 == c))
  { x with
    collected := BitVec.ofNat 32 u
    intervals := x.intervals + 1
    buckets := (given ++ others.map (fun c => (c, 1))).foldl (fun (l : List (Nat × Nat)) (g : Nat × Nat) => assocSet l g.1 g.2) []
    remainder := u - (present.map extra).sum
    waiting := [] }

/-- INTERVAL_BOUNDARY: the controller refills its die's buckets; POOL 0 disables it (R284, Table 16-4). -/
def execIntervalBoundary (die : Nat) (unspent : List (Nat × Nat)) (waiting : List (BitVec 16)) (s : State) : Out :=
  .next (if h : die < 4 then
      if s.shares[die].pool = 0 then s else { s with shares := s.shares.set die (s.boundary die s.shares[die] unspent waiting) }
    else s)

/-- The contexts with a request held at a port of a die (R284). -/
def State.heldCtxs (s : State) (x : Share) : List (BitVec 16) :=
  (s.hartIds.filter (fun h => (s.getHart h).running && x.waiting.contains (coreOf h))).map (fun h => ctxOf (s.getHart h).csr.ptroot)

/-- An enabled controller's next boundary has come: they fall every 1,024 cycles (R284). -/
def State.boundaryDue (s : State) (x : Share) : Bool := x.pool != 0 && decide (x.interval < s.clock / 1024)

/-- The boundary of a die, with what its ports have left and whose requests they hold. Where several have gone by, one refills the
buckets and all are counted. DESIGN CHOICE (log 53). -/
def State.fallBoundary (s : State) (die : Nat) : Out :=
  if h : die < 4 then
    let x := s.shares[die]
    let now := s.clock / 1024
    let y := { x with interval := now, intervals := x.intervals + BitVec.ofNat 64 (now - x.interval - 1) }
    execIntervalBoundary die x.buckets (s.heldCtxs x) { s with shares := s.shares.set die y }
  else .next s

/-- The share controller of a core's die. -/
def State.shareOf (s : State) (core : Nat) : Share := if h : dieOfCore core < 4 then s.shares[dieOfCore core] else Share.reset

/-- Replace it. -/
def State.setShare (s : State) (core : Nat) (x : Share) : State :=
  if h : dieOfCore core < 4 then { s with shares := s.shares.set (dieOfCore core) x } else s

/-- The port of a core holds its requests until the next boundary (R283). -/
def State.portHolds (s : State) (core : Nat) : Bool := (s.shareOf core).pool != 0 && (s.shareOf core).waiting.contains core

/-- An instruction or a command of a core makes its requests to local HBM, which cost tokens; none where the bucket is empty, and then the
port holds what the core asks for until the next boundary (R283). DESIGN CHOICE (log 53): how many there are is free, and those of one
instruction are not parted. -/
def State.spendTokens (s : State) (core : Nat) : Option State :=
  let x := s.shareOf core
  if x.pool = 0 then some s
  else
    let left := assocGet x.buckets 0 core
    let cost := Config.tokens s.choices
    if cost = 0 then some s
    else if left = 0 then none
    else some (s.setShare core { x with buckets := assocSet x.buckets core (left - cost) })

/-- What the core asks for waits at its port (R283). -/
def State.holdPort (s : State) (core : Nat) : State :=
  let x := s.shareOf core
  s.setShare core { x with waiting := if x.waiting.contains core then x.waiting else core :: x.waiting }

/-! ### Meters (R364 to R367) -/

/-- The counters that the model counts itself: array, issue, copies, sites, blanket and network (Table 22-7; log 53). -/
def counted (i : Nat) : Bool := ([0, 2, 3, 4, 7, 9] : List Nat).contains i

/-- A context's activity is added to its record, with its part of the energy; SEQ ends even (R365, R366). `counts` gives what the model
does not count itself; PREEMPTIONS and FAULTS are counted as they happen. -/
def Context.metered (c : Context) (counts : List Nat) (energy : Nat) : Context :=
  { c with
    seq := (c.seq + 2) % 2 ^ 64
    meter := Vector.ofFn (fun (i : Fin 14) =>
      let add := if i.val = 10 then energy else if i.val = 12 ∨ i.val = 13 then 0
        else if counted i.val then (c.gathered[i.val]?).getD 0 else counts.getD i.val 0
      (c.meter[i] + add) % 2 ^ 64)
    gathered := Vector.replicate 10 0 }

/-- The energy that a context is charged (R366). -/
def energyShare (a est total : Nat) : Nat := if total = 0 then 0 else a * est / total

/-- METER_UPDATE (R365, R366). DEDUCED (log 53). -/
def execMeterUpdate (acts : List Activity) (energy floor : Nat) (s : State) : Out :=
  let known := acts.filter (fun a => s.contexts.any (fun c => c.id == a.ctx))
  let a := (energy - floor) + s.energyCarry
  let total := (known.map (·.estimate)).sum
  let of_ (c : Context) : List Activity := known.filter (fun x => x.ctx == c.id)
  let part (c : Context) : Nat := ((of_ c).map (fun x => energyShare a x.estimate total)).sum
  .next { s with
    contexts := s.contexts.map (fun (c : Context) => c.metered (((of_ c).map (·.counts)).headD []) (part c))
    energyCarry := a - (s.contexts.map part).sum }

/-- GET_SENSOR_READING: a counter of a context's record is returned out of band (R367). -/
def execGetSensorReading (ctx : BitVec 16) (counter : Nat) (s : State) : Out :=
  .next { s with sensor := (s.ctx? ctx).bind (fun c => c.meter[counter]?) }

/-! ### Fenys links and the loss of a device (R381 to R386, R430) -/

/-- FLIT_CRC_FAILURE: the flit is retried on the link, and nothing else changes (R384). -/
def execFlitCrcFailure (_link : Nat) (s : State) : Out := .next s

/-- LINK_FAILURE: the link's bit of LINKS_UP is cleared; its traffic takes other links (R381, R384). -/
def execLinkFailure (link : Nat) (s : State) : Out :=
  .next { s with linksUp := s.linksUp &&& ~~~(if link < 32 then 1#32 <<< link else 0) }

/-- LINK_RECOVERY (R381). -/
def execLinkRecovery (link : Nat) (s : State) : Out :=
  .next { s with linksUp := s.linksUp ||| (if link < 32 then 1#32 <<< link else 0) }

/-- LANE_FAILURE: the lane is retrained onto its spare, and flits are retried (R430). -/
def execLaneFailure (_link : Nat) (s : State) : Out := .next s

/-- An access that was outstanding to the lost device: its cause is taken before the hart's next instruction, when it
resumes if it is saved (R384). -/
def trapOutstanding (o : Outstanding) (h : Nat) (x : Hart) : Hart :=
  if h = o.hart then { x with trapDue := some (if o.store then 7 else 5, o.addr), blocked := none } else x

/-- A remote load that waits for the lost device takes cause 5 with its address (R384). -/
def loseRemote (d : Nat) (x : Hart) : Hart :=
  match x.blocked with
  | some (.remote _ p _ _ _) =>
    if inDomain p.key ∧ domainDev p.key = d then { x with trapDue := some (5, BitVec.ofNat 64 p.va), blocked := none } else x
  | _ => x

/-- A weak store of the hart was lost (R384). -/
def loseStore (lost : List Nat) (h : Nat) (x : Hart) : Hart := if lost.contains h then { x with lostStore := true } else x

/-- A change to harts, those running and those in the save area, by number. -/
def State.mapHarts (s : State) (f : Nat → Hart → Hart) : State :=
  { s with
    hart := f s.hid s.hart
    others := s.others.map (fun (e : Nat × Hart) => (e.1, f e.1 e.2))
    parties := s.parties.map (fun (p : Party) => { p with savedHarts := p.savedHarts.map (fun (e : Nat × Hart) => (e.1, f e.1 e.2)) }) }

/-- DEVICE_LOSS: the device leaves PRESENT, accesses outstanding to it take their causes, lost stores are remembered, and
launches joined with it are gang-stopped, with a REASON that no rule states, and end PEER_LOST (R384, R386).
DESIGN CHOICE (log 52). -/
def execDeviceLoss (d : Nat) (lostStores : List Nat) (outstanding : List Outstanding) (s : State) : Out :=
  if d = Config.devno ∨ 128 ≤ d ∨ s.present.getLsbD d = false then .next s
  else
    let s : State := { s with present := s.present &&& ~~~(1#128 <<< d) }
    let s := s.mapHarts (fun h x => outstanding.foldl (fun x o => trapOutstanding o h x) (loseStore lostStores h (loseRemote d x)))
    let joined := s.launches.filter (fun l => l.ended.isNone && (match l.join with
      | some (_, m) => m.getLsbD d
      | none => false))
    let reason := (Config.freeWord s.choices).toNat
    .next ({ joined.foldl (fun s l => (s.gangStop l.ctx reason none).endLaunch l.id .peerLost) s with choices := s.choices + 1 })

/-! ### PCI Express and CXL ports (R387 to R389) -/

/-- PORT_LINK_UP: the link is trained at a speed; a disabled port has none (Table 24-2). -/
def execPortLinkUp (p : Nat) (speed : BitVec 8) (s : State) : Out :=
  .next (if (s.port p).role = 0 then s else s.setPcie p { s.port p with linkUp := true, speed := speed })

/-- PORT_LINK_DOWN: LINK_UP is cleared; later stores are dropped and counted (R388, R395). DESIGN CHOICE (log 52). -/
def execPortLinkDown (p : Nat) (s : State) : Out := .next (s.setPcie p { s.port p with linkUp := false, speed := 0 })

/-- The PA of a peer's access of `n` bytes at a bus address: the lowest enabled inbound window that holds all of it, with
its PA range in local HBM, and whether it allows writes (R389). -/
def State.inbound (s : State) (p : PciePort) (bus n : Nat) : Option (Nat × Bool) :=
  (p.windows.find? (fun w => decide (w.2.2.1 ≠ 0) && decide (w.2.1.toNat ≤ bus) && decide (bus + n ≤ w.2.1.toNat + w.2.2.1.toNat))).bind
    (fun w =>
      let pa := w.2.2.2.1.toNat
      if inLocalHbm s (pa + w.2.2.1.toNat - 1) then some (pa + (bus - w.2.1.toNat), w.2.2.2.2) else none)

/-- The record allows the port's OWNER an access to every frame of a range (R370, R389). DEDUCED (log 50). -/
def State.peerMay (s : State) (owner pa n : Nat) (write : Bool) : Bool :=
  (List.range ((pa + n - 1) / 0x10000 - pa / 0x10000 + 1)).all (fun i =>
    let f := pa / 0x10000 + i
    !entSealed (s.entry f) && (match frameRights s owner f write with
      | .ok r => !(write && r == 1)
      | .error _ => false))

/-- PEER_MEMORY_REQUEST: a write that passes its checks is performed at its site; what fails is answered Unsupported Request
(R389). A read changes nothing. DESIGN CHOICE (log 52). -/
def execPeerMemoryRequest (port : Nat) (r : PeerRequest) (s : State) : Out :=
  .next (match r with
    | .read _ _ => s
    | .atomic _ => s
    | .write bus data =>
      let p := s.port port
      (match s.inbound p bus data.length with
        | some (pa, w) => if p.role = 1 ∧ w = true ∧ s.peerMay p.owner pa data.length true = true then s.storeWhole pa data else s
        | none => s))

/-! ### The virtio devices (R391, R392) -/

/-- Virtio device `d`: 0 vsock, 1 net, 2 console. -/
def State.mapVirtio (s : State) (d : Nat) (f : Virtio → Virtio) : State :=
  if h : d < 3 then { s with virtio := s.virtio.set d (f s.virtio[d]) } else s

/-- VIRTIO_NOTIFICATION: the hub processes the queue of a live device. A descriptor that names a frame the host kernel may
not use (`ok` false) sets DEVICE_NEEDS_RESET, and the device processes nothing further (R391, R392).
DESIGN CHOICE (log 52). -/
def execVirtioNotification (dev queue : Nat) (ok : Bool) (s : State) : Out :=
  .next (s.mapVirtio dev (fun v =>
    if v.needsReset = true ∨ v.status.getLsbD 2 = false then v
    else if ok then { v with notified := v.notified ++ [queue] }
    else { v with needsReset := true, status := v.status ||| 0x40 }))

/-- DEVICE_STATUS_WRITE: 0 resets the device; FEATURES_OK fails for a driver that does not accept packed rings (R391). -/
def execDeviceStatusWrite (dev : Nat) (v : BitVec 8) (packed : Bool) (s : State) : Out :=
  .next (s.mapVirtio dev (fun o =>
    if v = 0 then { status := 0, needsReset := false, notified := [] }
    else { o with status := (if packed || o.status.getLsbD 3 then v else v &&& ~~~8#8) ||| (if o.needsReset then 0x40 else 0) }))

/-! ### Waiting posts (R343) and the alarm (R414) -/

/-- The oldest waiting post whose ring has room, each ring's posts in their order. -/
def State.readyPost (s : State) : Option Post := s.posts.find? (fun p => !s.ringFull p.ring)

/-- FAULT_QUEUE_POST: a waiting post is written and HEAD advances (R343). -/
def execFaultQueuePost (s : State) : Out :=
  .next (match s.readyPost with
    | none => s
    | some p => ({ s with posts := s.posts.erase p } : State).ringWrite p.ring p.bytes)

/-- ALARM: every key slot and sealed-key table is zeroised and the accelerator halts until a package reset (R414). -/
def execAlarm (s : State) : Out :=
  .next { s with keys := [], sealedKeys := [], rotations := [], halted := some .alarm }

end Sys2Proof.Machine
end

