-- ==== Sys2Proof/Machine/Scalar.lean ====
section
/-! DEFINITION. Register, immediate, multiply, divide and control-transfer instructions (R60 to R65). -/

namespace Sys2Proof.Machine

/-- `add` (R60). -/
def execAdd (rd rs1 rs2 : Reg) (s : State) : Out := s.writeRd rd (s.x rs1 + s.x rs2)

/-- `sub` (R60). -/
def execSub (rd rs1 rs2 : Reg) (s : State) : Out := s.writeRd rd (s.x rs1 - s.x rs2)

/-- `sll`: shift by x[rs2][5:0] (R60). -/
def execSll (rd rs1 rs2 : Reg) (s : State) : Out := s.writeRd rd (s.x rs1 <<< shamt6 (s.x rs2))

/-- `slt` (R60). -/
def execSlt (rd rs1 rs2 : Reg) (s : State) : Out := s.writeRd rd (boolWord ((s.x rs1).slt (s.x rs2)))

/-- `sltu` (R60). -/
def execSltu (rd rs1 rs2 : Reg) (s : State) : Out := s.writeRd rd (boolWord ((s.x rs1).ult (s.x rs2)))

/-- `xor` (R60). -/
def execXor (rd rs1 rs2 : Reg) (s : State) : Out := s.writeRd rd (s.x rs1 ^^^ s.x rs2)

/-- `srl` (R60). -/
def execSrl (rd rs1 rs2 : Reg) (s : State) : Out := s.writeRd rd (s.x rs1 >>> shamt6 (s.x rs2))

/-- `sra` (R60). -/
def execSra (rd rs1 rs2 : Reg) (s : State) : Out := s.writeRd rd ((s.x rs1).sshiftRight (shamt6 (s.x rs2)))

/-- `or` (R60). -/
def execOr (rd rs1 rs2 : Reg) (s : State) : Out := s.writeRd rd (s.x rs1 ||| s.x rs2)

/-- `and` (R60). -/
def execAnd (rd rs1 rs2 : Reg) (s : State) : Out := s.writeRd rd (s.x rs1 &&& s.x rs2)

/-- `addw` (R60). -/
def execAddw (rd rs1 rs2 : Reg) (s : State) : Out := s.writeRd rd (sext32 (low32 (s.x rs1) + low32 (s.x rs2)))

/-- `subw` (R60). -/
def execSubw (rd rs1 rs2 : Reg) (s : State) : Out := s.writeRd rd (sext32 (low32 (s.x rs1) - low32 (s.x rs2)))

/-- `sllw`: shift by x[rs2][4:0] (R60). -/
def execSllw (rd rs1 rs2 : Reg) (s : State) : Out := s.writeRd rd (sext32 (low32 (s.x rs1) <<< shamt5 (s.x rs2)))

/-- `srlw` (R60). -/
def execSrlw (rd rs1 rs2 : Reg) (s : State) : Out := s.writeRd rd (sext32 (low32 (s.x rs1) >>> shamt5 (s.x rs2)))

/-- `sraw` (R60). -/
def execSraw (rd rs1 rs2 : Reg) (s : State) : Out := s.writeRd rd (sext32 ((low32 (s.x rs1)).sshiftRight (shamt5 (s.x rs2))))

/-- `mul` (R62). -/
def execMul (rd rs1 rs2 : Reg) (s : State) : Out := s.writeRd rd (s.x rs1 * s.x rs2)

/-- `mulh`: signed by signed (R62). -/
def execMulh (rd rs1 rs2 : Reg) (s : State) : Out := s.writeRd rd (highHalf ((s.x rs1).toInt * (s.x rs2).toInt))

/-- `mulhsu`: signed by unsigned (R62). -/
def execMulhsu (rd rs1 rs2 : Reg) (s : State) : Out := s.writeRd rd (highHalf ((s.x rs1).toInt * ((s.x rs2).toNat : Int)))

/-- `mulhu`: unsigned by unsigned (R62). -/
def execMulhu (rd rs1 rs2 : Reg) (s : State) : Out := s.writeRd rd (highHalf (((s.x rs1).toNat : Int) * ((s.x rs2).toNat : Int)))

/-- `div` (R62, R63). -/
def execDiv (rd rs1 rs2 : Reg) (s : State) : Out := s.writeRd rd (divS (s.x rs1) (s.x rs2))

/-- `divu` (R62, R63). -/
def execDivu (rd rs1 rs2 : Reg) (s : State) : Out := s.writeRd rd (divU (s.x rs1) (s.x rs2))

/-- `rem` (R62, R63). -/
def execRem (rd rs1 rs2 : Reg) (s : State) : Out := s.writeRd rd (remS (s.x rs1) (s.x rs2))

/-- `remu` (R62, R63). -/
def execRemu (rd rs1 rs2 : Reg) (s : State) : Out := s.writeRd rd (remU (s.x rs1) (s.x rs2))

/-- `mulw` (R62). -/
def execMulw (rd rs1 rs2 : Reg) (s : State) : Out := s.writeRd rd (sext32 (low32 (s.x rs1) * low32 (s.x rs2)))

/-- `divw` (R62, R63). -/
def execDivw (rd rs1 rs2 : Reg) (s : State) : Out := s.writeRd rd (sext32 (divS (low32 (s.x rs1)) (low32 (s.x rs2))))

/-- `divuw` (R62, R63). -/
def execDivuw (rd rs1 rs2 : Reg) (s : State) : Out := s.writeRd rd (sext32 (divU (low32 (s.x rs1)) (low32 (s.x rs2))))

/-- `remw` (R62, R63). -/
def execRemw (rd rs1 rs2 : Reg) (s : State) : Out := s.writeRd rd (sext32 (remS (low32 (s.x rs1)) (low32 (s.x rs2))))

/-- `remuw` (R62, R63). -/
def execRemuw (rd rs1 rs2 : Reg) (s : State) : Out := s.writeRd rd (sext32 (remU (low32 (s.x rs1)) (low32 (s.x rs2))))

/-- `addi` (R61). -/
def execAddi (rd rs1 : Reg) (imm : BitVec 12) (s : State) : Out := s.writeRd rd (s.x rs1 + sext imm)

/-- `slti` (R61). -/
def execSlti (rd rs1 : Reg) (imm : BitVec 12) (s : State) : Out := s.writeRd rd (boolWord ((s.x rs1).slt (sext imm)))

/-- `sltiu` (R61). -/
def execSltiu (rd rs1 : Reg) (imm : BitVec 12) (s : State) : Out := s.writeRd rd (boolWord ((s.x rs1).ult (sext imm)))

/-- `xori` (R61). -/
def execXori (rd rs1 : Reg) (imm : BitVec 12) (s : State) : Out := s.writeRd rd (s.x rs1 ^^^ sext imm)

/-- `ori` (R61). -/
def execOri (rd rs1 : Reg) (imm : BitVec 12) (s : State) : Out := s.writeRd rd (s.x rs1 ||| sext imm)

/-- `andi` (R61). -/
def execAndi (rd rs1 : Reg) (imm : BitVec 12) (s : State) : Out := s.writeRd rd (s.x rs1 &&& sext imm)

/-- `addiw` (R61). -/
def execAddiw (rd rs1 : Reg) (imm : BitVec 12) (s : State) : Out := s.writeRd rd (sext32 (low32 (s.x rs1 + sext imm)))

/-- `slli` (R61). -/
def execSlli (rd rs1 : Reg) (shamt : BitVec 6) (s : State) : Out := s.writeRd rd (s.x rs1 <<< shamt.toNat)

/-- `srli` (R61). -/
def execSrli (rd rs1 : Reg) (shamt : BitVec 6) (s : State) : Out := s.writeRd rd (s.x rs1 >>> shamt.toNat)

/-- `srai` (R61). -/
def execSrai (rd rs1 : Reg) (shamt : BitVec 6) (s : State) : Out := s.writeRd rd ((s.x rs1).sshiftRight shamt.toNat)

/-- `slliw` (R61). -/
def execSlliw (rd rs1 : Reg) (shamt : BitVec 5) (s : State) : Out := s.writeRd rd (sext32 (low32 (s.x rs1) <<< shamt.toNat))

/-- `srliw` (R61). -/
def execSrliw (rd rs1 : Reg) (shamt : BitVec 5) (s : State) : Out := s.writeRd rd (sext32 (low32 (s.x rs1) >>> shamt.toNat))

/-- `sraiw` (R61). -/
def execSraiw (rd rs1 : Reg) (shamt : BitVec 5) (s : State) : Out := s.writeRd rd (sext32 ((low32 (s.x rs1)).sshiftRight shamt.toNat))

/-- `lui` (R61). -/
def execLui (rd : Reg) (imm : BitVec 20) (s : State) : Out := s.writeRd rd (immU imm)

/-- `auipc` (R61). -/
def execAuipc (rd : Reg) (imm : BitVec 20) (s : State) : Out := s.writeRd rd (s.hart.pc + immU imm)

/-- `jal` (R64). -/
def execJal (rd : Reg) (imm : BitVec 20) (s : State) : Out := s.transfer (s.hart.pc + immJ imm) (some rd)

/-- `jalr`: the target is formed before rd is written (R64). -/
def execJalr (rd rs1 : Reg) (imm : BitVec 12) (s : State) : Out := s.transfer ((s.x rs1 + sext imm) &&& ~~~1#64) (some rd)

/-- `beq` (R64). -/
def execBeq (rs1 rs2 : Reg) (imm : BitVec 12) (s : State) : Out := s.branch (s.x rs1 == s.x rs2) imm

/-- `bne` (R64). -/
def execBne (rs1 rs2 : Reg) (imm : BitVec 12) (s : State) : Out := s.branch (s.x rs1 != s.x rs2) imm

/-- `blt` (R64). -/
def execBlt (rs1 rs2 : Reg) (imm : BitVec 12) (s : State) : Out := s.branch ((s.x rs1).slt (s.x rs2)) imm

/-- `bge` (R64). -/
def execBge (rs1 rs2 : Reg) (imm : BitVec 12) (s : State) : Out := s.branch (!(s.x rs1).slt (s.x rs2)) imm

/-- `bltu` (R64). -/
def execBltu (rs1 rs2 : Reg) (imm : BitVec 12) (s : State) : Out := s.branch ((s.x rs1).ult (s.x rs2)) imm

/-- `bgeu` (R64). -/
def execBgeu (rs1 rs2 : Reg) (imm : BitVec 12) (s : State) : Out := s.branch (!(s.x rs1).ult (s.x rs2)) imm

end Sys2Proof.Machine
end

