-- ==== Sys2Proof/Machine/Dispatch.lean ====
section
/-! DEFINITION. Dispatch: one arm per constructor of `Instr`, each a direct call of that instruction's meaning. -/

namespace Sys2Proof.Machine
open Sys2Proof

/-- What an instruction, command or event does to a state. -/
def exec (i : Instr) (s : State) : Host.Outcome State Fault Refusal :=
  match i with
  | .lui rd imm => Sys2Proof.Machine.execLui rd imm s
  | .auipc rd imm => Sys2Proof.Machine.execAuipc rd imm s
  | .jal rd imm => Sys2Proof.Machine.execJal rd imm s
  | .jalr rd rs1 imm => Sys2Proof.Machine.execJalr rd rs1 imm s
  | .beq rs1 rs2 imm => Sys2Proof.Machine.execBeq rs1 rs2 imm s
  | .bne rs1 rs2 imm => Sys2Proof.Machine.execBne rs1 rs2 imm s
  | .blt rs1 rs2 imm => Sys2Proof.Machine.execBlt rs1 rs2 imm s
  | .bge rs1 rs2 imm => Sys2Proof.Machine.execBge rs1 rs2 imm s
  | .bltu rs1 rs2 imm => Sys2Proof.Machine.execBltu rs1 rs2 imm s
  | .bgeu rs1 rs2 imm => Sys2Proof.Machine.execBgeu rs1 rs2 imm s
  | .lb rd rs1 imm => Sys2Proof.Machine.execLb rd rs1 imm s
  | .lh rd rs1 imm => Sys2Proof.Machine.execLh rd rs1 imm s
  | .lw rd rs1 imm => Sys2Proof.Machine.execLw rd rs1 imm s
  | .ld rd rs1 imm => Sys2Proof.Machine.execLd rd rs1 imm s
  | .lbu rd rs1 imm => Sys2Proof.Machine.execLbu rd rs1 imm s
  | .lhu rd rs1 imm => Sys2Proof.Machine.execLhu rd rs1 imm s
  | .lwu rd rs1 imm => Sys2Proof.Machine.execLwu rd rs1 imm s
  | .sb rs1 rs2 imm => Sys2Proof.Machine.execSb rs1 rs2 imm s
  | .sh rs1 rs2 imm => Sys2Proof.Machine.execSh rs1 rs2 imm s
  | .sw rs1 rs2 imm => Sys2Proof.Machine.execSw rs1 rs2 imm s
  | .sd rs1 rs2 imm => Sys2Proof.Machine.execSd rs1 rs2 imm s
  | .addi rd rs1 imm => Sys2Proof.Machine.execAddi rd rs1 imm s
  | .slti rd rs1 imm => Sys2Proof.Machine.execSlti rd rs1 imm s
  | .sltiu rd rs1 imm => Sys2Proof.Machine.execSltiu rd rs1 imm s
  | .xori rd rs1 imm => Sys2Proof.Machine.execXori rd rs1 imm s
  | .ori rd rs1 imm => Sys2Proof.Machine.execOri rd rs1 imm s
  | .andi rd rs1 imm => Sys2Proof.Machine.execAndi rd rs1 imm s
  | .slli rd rs1 shamt => Sys2Proof.Machine.execSlli rd rs1 shamt s
  | .srli rd rs1 shamt => Sys2Proof.Machine.execSrli rd rs1 shamt s
  | .srai rd rs1 shamt => Sys2Proof.Machine.execSrai rd rs1 shamt s
  | .add rd rs1 rs2 => Sys2Proof.Machine.execAdd rd rs1 rs2 s
  | .sub rd rs1 rs2 => Sys2Proof.Machine.execSub rd rs1 rs2 s
  | .sll rd rs1 rs2 => Sys2Proof.Machine.execSll rd rs1 rs2 s
  | .slt rd rs1 rs2 => Sys2Proof.Machine.execSlt rd rs1 rs2 s
  | .sltu rd rs1 rs2 => Sys2Proof.Machine.execSltu rd rs1 rs2 s
  | .xor rd rs1 rs2 => Sys2Proof.Machine.execXor rd rs1 rs2 s
  | .srl rd rs1 rs2 => Sys2Proof.Machine.execSrl rd rs1 rs2 s
  | .sra rd rs1 rs2 => Sys2Proof.Machine.execSra rd rs1 rs2 s
  | .or rd rs1 rs2 => Sys2Proof.Machine.execOr rd rs1 rs2 s
  | .and rd rs1 rs2 => Sys2Proof.Machine.execAnd rd rs1 rs2 s
  | .addiw rd rs1 imm => Sys2Proof.Machine.execAddiw rd rs1 imm s
  | .slliw rd rs1 shamt => Sys2Proof.Machine.execSlliw rd rs1 shamt s
  | .srliw rd rs1 shamt => Sys2Proof.Machine.execSrliw rd rs1 shamt s
  | .sraiw rd rs1 shamt => Sys2Proof.Machine.execSraiw rd rs1 shamt s
  | .addw rd rs1 rs2 => Sys2Proof.Machine.execAddw rd rs1 rs2 s
  | .subw rd rs1 rs2 => Sys2Proof.Machine.execSubw rd rs1 rs2 s
  | .sllw rd rs1 rs2 => Sys2Proof.Machine.execSllw rd rs1 rs2 s
  | .srlw rd rs1 rs2 => Sys2Proof.Machine.execSrlw rd rs1 rs2 s
  | .sraw rd rs1 rs2 => Sys2Proof.Machine.execSraw rd rs1 rs2 s
  | .fence fm pred succ rs1 rd => Sys2Proof.Machine.execFence fm pred succ rs1 rd s
  | .mul rd rs1 rs2 => Sys2Proof.Machine.execMul rd rs1 rs2 s
  | .mulh rd rs1 rs2 => Sys2Proof.Machine.execMulh rd rs1 rs2 s
  | .mulhsu rd rs1 rs2 => Sys2Proof.Machine.execMulhsu rd rs1 rs2 s
  | .mulhu rd rs1 rs2 => Sys2Proof.Machine.execMulhu rd rs1 rs2 s
  | .div rd rs1 rs2 => Sys2Proof.Machine.execDiv rd rs1 rs2 s
  | .divu rd rs1 rs2 => Sys2Proof.Machine.execDivu rd rs1 rs2 s
  | .rem rd rs1 rs2 => Sys2Proof.Machine.execRem rd rs1 rs2 s
  | .remu rd rs1 rs2 => Sys2Proof.Machine.execRemu rd rs1 rs2 s
  | .mulw rd rs1 rs2 => Sys2Proof.Machine.execMulw rd rs1 rs2 s
  | .divw rd rs1 rs2 => Sys2Proof.Machine.execDivw rd rs1 rs2 s
  | .divuw rd rs1 rs2 => Sys2Proof.Machine.execDivuw rd rs1 rs2 s
  | .remw rd rs1 rs2 => Sys2Proof.Machine.execRemw rd rs1 rs2 s
  | .remuw rd rs1 rs2 => Sys2Proof.Machine.execRemuw rd rs1 rs2 s
  | .amoswapW rd rs1 rs2 aq rl => Sys2Proof.Machine.execAmoswapW rd rs1 rs2 aq rl s
  | .amoaddW rd rs1 rs2 aq rl => Sys2Proof.Machine.execAmoaddW rd rs1 rs2 aq rl s
  | .amoxorW rd rs1 rs2 aq rl => Sys2Proof.Machine.execAmoxorW rd rs1 rs2 aq rl s
  | .amoandW rd rs1 rs2 aq rl => Sys2Proof.Machine.execAmoandW rd rs1 rs2 aq rl s
  | .amoorW rd rs1 rs2 aq rl => Sys2Proof.Machine.execAmoorW rd rs1 rs2 aq rl s
  | .amominW rd rs1 rs2 aq rl => Sys2Proof.Machine.execAmominW rd rs1 rs2 aq rl s
  | .amomaxW rd rs1 rs2 aq rl => Sys2Proof.Machine.execAmomaxW rd rs1 rs2 aq rl s
  | .amominuW rd rs1 rs2 aq rl => Sys2Proof.Machine.execAmominuW rd rs1 rs2 aq rl s
  | .amomaxuW rd rs1 rs2 aq rl => Sys2Proof.Machine.execAmomaxuW rd rs1 rs2 aq rl s
  | .amoswapD rd rs1 rs2 aq rl => Sys2Proof.Machine.execAmoswapD rd rs1 rs2 aq rl s
  | .amoaddD rd rs1 rs2 aq rl => Sys2Proof.Machine.execAmoaddD rd rs1 rs2 aq rl s
  | .amoxorD rd rs1 rs2 aq rl => Sys2Proof.Machine.execAmoxorD rd rs1 rs2 aq rl s
  | .amoandD rd rs1 rs2 aq rl => Sys2Proof.Machine.execAmoandD rd rs1 rs2 aq rl s
  | .amoorD rd rs1 rs2 aq rl => Sys2Proof.Machine.execAmoorD rd rs1 rs2 aq rl s
  | .amominD rd rs1 rs2 aq rl => Sys2Proof.Machine.execAmominD rd rs1 rs2 aq rl s
  | .amomaxD rd rs1 rs2 aq rl => Sys2Proof.Machine.execAmomaxD rd rs1 rs2 aq rl s
  | .amominuD rd rs1 rs2 aq rl => Sys2Proof.Machine.execAmominuD rd rs1 rs2 aq rl s
  | .amomaxuD rd rs1 rs2 aq rl => Sys2Proof.Machine.execAmomaxuD rd rs1 rs2 aq rl s
  | .csrrw rd csr rs1 => Sys2Proof.Machine.execCsrrw rd csr rs1 s
  | .csrrs rd csr rs1 => Sys2Proof.Machine.execCsrrs rd csr rs1 s
  | .csrrc rd csr rs1 => Sys2Proof.Machine.execCsrrc rd csr rs1 s
  | .csrrwi rd csr uimm => Sys2Proof.Machine.execCsrrwi rd csr uimm s
  | .csrrsi rd csr uimm => Sys2Proof.Machine.execCsrrsi rd csr uimm s
  | .csrrci rd csr uimm => Sys2Proof.Machine.execCsrrci rd csr uimm s
  | .vadd ty vd vs1 vs2 m w => Sys2Proof.Machine.execVadd ty vd vs1 vs2 m w s
  | .vsub ty vd vs1 vs2 m w => Sys2Proof.Machine.execVsub ty vd vs1 vs2 m w s
  | .vmul ty vd vs1 vs2 m w => Sys2Proof.Machine.execVmul ty vd vs1 vs2 m w s
  | .vdiv ty vd vs1 vs2 m w => Sys2Proof.Machine.execVdiv ty vd vs1 vs2 m w s
  | .vmin ty vd vs1 vs2 m w => Sys2Proof.Machine.execVmin ty vd vs1 vs2 m w s
  | .vmax ty vd vs1 vs2 m w => Sys2Proof.Machine.execVmax ty vd vs1 vs2 m w s
  | .vabs ty vd vs1 m w => Sys2Proof.Machine.execVabs ty vd vs1 m w s
  | .vneg ty vd vs1 m w => Sys2Proof.Machine.execVneg ty vd vs1 m w s
  | .vsqrt ty vd vs1 m w => Sys2Proof.Machine.execVsqrt ty vd vs1 m w s
  | .vrecip ty vd vs1 m w => Sys2Proof.Machine.execVrecip ty vd vs1 m w s
  | .vrsqrt ty vd vs1 m w => Sys2Proof.Machine.execVrsqrt ty vd vs1 m w s
  | .vexp2 ty vd vs1 m w => Sys2Proof.Machine.execVexp2 ty vd vs1 m w s
  | .vlog2 ty vd vs1 m w => Sys2Proof.Machine.execVlog2 ty vd vs1 m w s
  | .vadds ty vd vs1 vs2 m w => Sys2Proof.Machine.execVadds ty vd vs1 vs2 m w s
  | .vsubs ty vd vs1 vs2 m w => Sys2Proof.Machine.execVsubs ty vd vs1 vs2 m w s
  | .vmulh ty vd vs1 vs2 m w => Sys2Proof.Machine.execVmulh ty vd vs1 vs2 m w s
  | .vand vd vs1 vs2 m w => Sys2Proof.Machine.execVand vd vs1 vs2 m w s
  | .vor vd vs1 vs2 m w => Sys2Proof.Machine.execVor vd vs1 vs2 m w s
  | .vxor vd vs1 vs2 m w => Sys2Proof.Machine.execVxor vd vs1 vs2 m w s
  | .vsll ty vd vs1 vs2 m w => Sys2Proof.Machine.execVsll ty vd vs1 vs2 m w s
  | .vsrl ty vd vs1 vs2 m w => Sys2Proof.Machine.execVsrl ty vd vs1 vs2 m w s
  | .vsra ty vd vs1 vs2 m w => Sys2Proof.Machine.execVsra ty vd vs1 vs2 m w s
  | .vcmpeq ty vs1 vs2 m w => Sys2Proof.Machine.execVcmpeq ty vs1 vs2 m w s
  | .vcmplt ty vs1 vs2 m w => Sys2Proof.Machine.execVcmplt ty vs1 vs2 m w s
  | .vcmple ty vs1 vs2 m w => Sys2Proof.Machine.execVcmple ty vs1 vs2 m w s
  | .vsel ty vd vs1 vs2 m w => Sys2Proof.Machine.execVsel ty vd vs1 vs2 m w s
  | .vperm ty vd vs1 vs2 m w => Sys2Proof.Machine.execVperm ty vd vs1 vs2 m w s
  | .vslide ty vd vs1 rs m w => Sys2Proof.Machine.execVslide ty vd vs1 rs m w s
  | .vbcast ty vd rs m w => Sys2Proof.Machine.execVbcast ty vd rs m w s
  | .vmvx ty rd vs1 rs w => Sys2Proof.Machine.execVmvx ty rd vs1 rs w s
  | .vid ty vd m w => Sys2Proof.Machine.execVid ty vd m w s
  | .vredsum ty vd vs1 m w => Sys2Proof.Machine.execVredsum ty vd vs1 m w s
  | .vredmax ty vd vs1 m w => Sys2Proof.Machine.execVredmax ty vd vs1 m w s
  | .vredmin ty vd vs1 m w => Sys2Proof.Machine.execVredmin ty vd vs1 m w s
  | .vdot ty vd vs1 vs2 m w => Sys2Proof.Machine.execVdot ty vd vs1 vs2 m w s
  | .vcvt vd vs1 t m w => Sys2Proof.Machine.execVcvt vd vs1 t m w s
  | .vretag vd vs1 t w => Sys2Proof.Machine.execVretag vd vs1 t w s
  | .vtag rd vs1 w => Sys2Proof.Machine.execVtag rd vs1 w s
  | .vqnt vd vs1 t w => Sys2Proof.Machine.execVqnt vd vs1 t w s
  | .vdeq vd vs1 t w => Sys2Proof.Machine.execVdeq vd vs1 t w s
  | .vmvv vd vs1 m w => Sys2Proof.Machine.execVmvv vd vs1 m w s
  | .vsetm ty vs1 w => Sys2Proof.Machine.execVsetm ty vs1 w s
  | .vgetm ty vd w => Sys2Proof.Machine.execVgetm ty vd w s
  | .vfma ty vd va vb vc w => Sys2Proof.Machine.execVfma ty vd va vb vc w s
  | .vfms ty vd va vb vc w => Sys2Proof.Machine.execVfms ty vd va vb vc w s
  | .vfnma ty vd va vb vc w => Sys2Proof.Machine.execVfnma ty vd va vb vc w s
  | .vfnms ty vd va vb vc w => Sys2Proof.Machine.execVfnms ty vd va vb vc w s
  | .vle ty vd rs1 off => Sys2Proof.Machine.execVle ty vd rs1 off s
  | .vse ty vs rs1 off => Sys2Proof.Machine.execVse ty vs rs1 off s
  | .vlds ty vd rs1 rs2 m => Sys2Proof.Machine.execVlds ty vd rs1 rs2 m s
  | .vsds ty vs rs1 rs2 m => Sys2Proof.Machine.execVsds ty vs rs1 rs2 m s
  | .vlx ty vd rs1 vs2 m => Sys2Proof.Machine.execVlx ty vd rs1 vs2 m s
  | .vsx ty vs rs1 vs2 m => Sys2Proof.Machine.execVsx ty vs rs1 vs2 m s
  | .rep len1 rs1 stride base => Sys2Proof.Machine.execRep len1 rs1 stride base s
  | .qpush port vs h => Sys2Proof.Machine.execQpush port vs h s
  | .qput port rs => Sys2Proof.Machine.execQput port rs s
  | .qpop rd port => Sys2Proof.Machine.execQpop rd port s
  | .recv vd q => Sys2Proof.Machine.execRecv vd q s
  | .peek vd q => Sys2Proof.Machine.execPeek vd q s
  | .wait rd rs1 => Sys2Proof.Machine.execWait rd rs1 s
  | .qmake q rs1 rs2 => Sys2Proof.Machine.execQmake q rs1 rs2 s
  | .qdrop q => Sys2Proof.Machine.execQdrop q s
  | .send rs1 vs => Sys2Proof.Machine.execSend rs1 vs s
  | .rput q rs1 vs => Sys2Proof.Machine.execRput q rs1 vs s
  | .slook rd rs1 => Sys2Proof.Machine.execSlook rd rs1 s
  | .sinst rs1 rs2 => Sys2Proof.Machine.execSinst rs1 rs2 s
  | .sinv rs1 => Sys2Proof.Machine.execSinv rs1 s
  | .sclean rs1 => Sys2Proof.Machine.execSclean rs1 s
  | .mtcfg mt rs1 rs2 => Sys2Proof.Machine.execMtcfg mt rs1 rs2 s
  | .mtpack vd mt h => Sys2Proof.Machine.execMtpack vd mt h s
  | .phaseC sc => Sys2Proof.Machine.execPhaseC sc s
  | .phaseO sc => Sys2Proof.Machine.execPhaseO sc s
  | .phaseCo sc => Sys2Proof.Machine.execPhaseCo sc s
  | .sync rd => Sys2Proof.Machine.execSync rd s
  | .hred rd rs1 op => Sys2Proof.Machine.execHred rd rs1 op s
  | .emit vs rs1 => Sys2Proof.Machine.execEmit vs rs1 s
  | .acq rd rs1 => Sys2Proof.Machine.execAcq rd rs1 s
  | .acqTry rd rs1 => Sys2Proof.Machine.execAcqTry rd rs1 s
  | .rel rs1 => Sys2Proof.Machine.execRel rs1 s
  | .claim rs1 => Sys2Proof.Machine.execClaim rs1 s
  | .ldS rd rs1 imm sc => Sys2Proof.Machine.execLdS rd rs1 imm sc s
  | .lwS rd rs1 imm sc => Sys2Proof.Machine.execLwS rd rs1 imm sc s
  | .sdS rs1 rs2 imm sc => Sys2Proof.Machine.execSdS rs1 rs2 imm sc s
  | .swS rs1 rs2 imm sc => Sys2Proof.Machine.execSwS rs1 rs2 imm sc s
  | .offer rd rs1 rs2 rs3 aq rl => Sys2Proof.Machine.execOffer rd rs1 rs2 rs3 aq rl s
  | .cread rd rs1 rs2 aq rl => Sys2Proof.Machine.execCread rd rs1 rs2 aq rl s
  | .cwait rd rs1 rs2 aq rl => Sys2Proof.Machine.execCwait rd rs1 rs2 aq rl s
  | .cretire rs1 rs2 aq rl => Sys2Proof.Machine.execCretire rs1 rs2 aq rl s
  | .scall rs1 => Sys2Proof.Machine.execScall rs1 s
  | .mprobe rd rs1 => Sys2Proof.Machine.execMprobe rd rs1 s
  | .mhint rs1 rs2 => Sys2Proof.Machine.execMhint rs1 rs2 s
  | .launch rd rs1 => Sys2Proof.Machine.execLaunch rd rs1 s
  | .frec rd rs1 rs2 => Sys2Proof.Machine.execFrec rd rs1 rs2 s
  | .monenter rs1 => Sys2Proof.Machine.execMonenter rs1 s
  | .monkey rs1 rs2 => Sys2Proof.Machine.execMonkey rs1 rs2 s
  | .monseal rs1 rs2 => Sys2Proof.Machine.execMonseal rs1 rs2 s
  | .mzero c => Sys2Proof.Machine.execMzero c s
  | .mloadw c => Sys2Proof.Machine.execMloadw c s
  | .mma c => Sys2Proof.Machine.execMma c s
  | .mdrain c => Sys2Proof.Machine.execMdrain c s
  | .mend c => Sys2Proof.Machine.execMend c s
  | .cpy c => Sys2Proof.Machine.execCpy c s
  | .cpyt c => Sys2Proof.Machine.execCpyt c s
  | .fill c => Sys2Proof.Machine.execFill c s
  | .sfill c => Sys2Proof.Machine.execSfill c s
  | .sevict c => Sys2Proof.Machine.execSevict c s
  | .pref c => Sys2Proof.Machine.execPref c s
  | .migr c => Sys2Proof.Machine.execMigr c s
  | .gather c => Sys2Proof.Machine.execGather c s
  | .scatter c => Sys2Proof.Machine.execScatter c s
  | .ship c => Sys2Proof.Machine.execShip c s
  | .tabload c => Sys2Proof.Machine.execTabload c s
  | .callred c => Sys2Proof.Machine.execCallred c s
  | .credsc c => Sys2Proof.Machine.execCredsc c s
  | .callgath c => Sys2Proof.Machine.execCallgath c s
  | .cbcast c => Sys2Proof.Machine.execCbcast c s
  | .cxchg c => Sys2Proof.Machine.execCxchg c s
  | .nsend c => Sys2Proof.Machine.execNsend c s
  | .nwrite c => Sys2Proof.Machine.execNwrite c s
  | .nread c => Sys2Proof.Machine.execNread c s
  | .npost c => Sys2Proof.Machine.execNpost c s
  | .acqGrant cluster => Sys2Proof.Machine.execAcqGrant cluster s
  | .allowanceRequest src dst q => Sys2Proof.Machine.execAllowanceRequest src dst q s
  | .allowanceGrant src dst q n => Sys2Proof.Machine.execAllowanceGrant src dst q n s
  | .allowanceReturn src dst q => Sys2Proof.Machine.execAllowanceReturn src dst q s
  | .allowanceReclaim dst q => Sys2Proof.Machine.execAllowanceReclaim dst q s
  | .queueEntryArrival core q e kind => Sys2Proof.Machine.execQueueEntryArrival core q e kind s
  | .exchange launch => Sys2Proof.Machine.execExchange launch s
  | .headcountSweep launch => Sys2Proof.Machine.execHeadcountSweep launch s
  | .launchEnd launch => Sys2Proof.Machine.execLaunchEnd launch s
  | .taskPlacement launch => Sys2Proof.Machine.execTaskPlacement launch s
  | .initialTasks launch => Sys2Proof.Machine.execInitialTasks launch s
  | .partyRetire party => Sys2Proof.Machine.execPartyRetire party s
  | .saveComplete party => Sys2Proof.Machine.execSaveComplete party s
  | .restoreComplete party => Sys2Proof.Machine.execRestoreComplete party s
  | .cellPurgeComplete pa => Sys2Proof.Machine.execCellPurgeComplete pa s
  | .commandCompletion c status word1 payload => Sys2Proof.Machine.execCommandCompletion c status word1 payload s
  | .migrRoundDone dirty => Sys2Proof.Machine.execMigrRoundDone dirty s
  | .collectiveMatch launch rank0 nrank seq => Sys2Proof.Machine.execCollectiveMatch launch rank0 nrank seq s
  | .shootdownDone h => Sys2Proof.Machine.execShootdownDone h s
  | .batchCommit iss pa n => Sys2Proof.Machine.execBatchCommit iss pa n s
  | .revocationCommit frame => Sys2Proof.Machine.execRevocationCommit frame s
  | .rotationComplete ctx => Sys2Proof.Machine.execRotationComplete ctx s
  | .oldKeyRetire ctx => Sys2Proof.Machine.execOldKeyRetire ctx s
  | .rotationRequest core => Sys2Proof.Machine.execRotationRequest core s
  | .streamStop core => Sys2Proof.Machine.execStreamStop core s
  | .leaseGrant cluster => Sys2Proof.Machine.execLeaseGrant cluster s
  | .joinStart h before => Sys2Proof.Machine.execJoinStart h before s
  | .wake h => Sys2Proof.Machine.execWake h s
  | .illegalInstruction word => Sys2Proof.Machine.execIllegalInstruction word s
  | .sTimer h => Sys2Proof.Machine.execSTimer h s
  | .mTimer h => Sys2Proof.Machine.execMTimer h s
  | .msip h value => Sys2Proof.Machine.execMsip h value s
  | .ssip h value => Sys2Proof.Machine.execSsip h value s
  | .sdReq h v => Sys2Proof.Machine.execSdReq h v s
  | .fnPost h v => Sys2Proof.Machine.execFnPost h v s
  | .scReply h v => Sys2Proof.Machine.execScReply h v s
  | .preReqPreempt h v => Sys2Proof.Machine.execPreReqPreempt h v s
  | .preReqResume h v => Sys2Proof.Machine.execPreReqResume h v s
  | .preReqKill h v => Sys2Proof.Machine.execPreReqKill h v s
  | .rpGo c v => Sys2Proof.Machine.execRpGo c v s
  | .firmwareRelease frame => Sys2Proof.Machine.execFirmwareRelease frame s
  | .recallDeadlineExpiry frame => Sys2Proof.Machine.execRecallDeadlineExpiry frame s
  | .attReq v => Sys2Proof.Machine.execAttReq v s
  | .dbgStopNext h v => Sys2Proof.Machine.execDbgStopNext h v s
  | .dbgStopAt h v => Sys2Proof.Machine.execDbgStopAt h v s
  | .dbgRelease h v => Sys2Proof.Machine.execDbgRelease h v s
  | .dbgImmediateStop h v => Sys2Proof.Machine.execDbgImmediateStop h v s
  | .dbgPair h v => Sys2Proof.Machine.execDbgPair h v s
  | .dbgUnpair h v => Sys2Proof.Machine.execDbgUnpair h v s
  | .rkctlGo h => Sys2Proof.Machine.execRkctlGo h s
  | .registerWrite who pa size v => Sys2Proof.Machine.execRegisterWrite who pa size v s
  | .nsendTimeout c => Sys2Proof.Machine.execNsendTimeout c s
  | .leaseIdleExpiry cluster => Sys2Proof.Machine.execLeaseIdleExpiry cluster s
  | .rampWindow cluster demand => Sys2Proof.Machine.execRampWindow cluster demand s
  | .intervalBoundary die unspent waiting => Sys2Proof.Machine.execIntervalBoundary die unspent waiting s
  | .meterUpdate acts energy floor => Sys2Proof.Machine.execMeterUpdate acts energy floor s
  | .getSensorReading ctx counter => Sys2Proof.Machine.execGetSensorReading ctx counter s
  | .cwaitRetry h => Sys2Proof.Machine.execCwaitRetry h s
  | .acqUrgent cluster => Sys2Proof.Machine.execAcqUrgent cluster s
  | .affinityPatienceExpiry launch => Sys2Proof.Machine.execAffinityPatienceExpiry launch s
  | .occupancySample launch => Sys2Proof.Machine.execOccupancySample launch s
  | .saveDeadlineExpiry party => Sys2Proof.Machine.execSaveDeadlineExpiry party s
  | .watchdogExpiry ctx => Sys2Proof.Machine.execWatchdogExpiry ctx s
  | .joinTimeout h => Sys2Proof.Machine.execJoinTimeout h s
  | .networkPacketArrival p => Sys2Proof.Machine.execNetworkPacketArrival p s
  | .peerMemoryRequest port r => Sys2Proof.Machine.execPeerMemoryRequest port r s
  | .pcieLoadCompletion h value => Sys2Proof.Machine.execPcieLoadCompletion h value s
  | .pcieLoadTimeout h => Sys2Proof.Machine.execPcieLoadTimeout h s
  | .virtioNotification dev queue ok => Sys2Proof.Machine.execVirtioNotification dev queue ok s
  | .flitCrcFailure link => Sys2Proof.Machine.execFlitCrcFailure link s
  | .linkFailure link => Sys2Proof.Machine.execLinkFailure link s
  | .linkRecovery link => Sys2Proof.Machine.execLinkRecovery link s
  | .laneFailure link => Sys2Proof.Machine.execLaneFailure link s
  | .deviceLoss d lostStores outstanding => Sys2Proof.Machine.execDeviceLoss d lostStores outstanding s
  | .thermalFault persists => Sys2Proof.Machine.execThermalFault persists s
  | .portLinkDown p => Sys2Proof.Machine.execPortLinkDown p s
  | .portLinkUp p speed => Sys2Proof.Machine.execPortLinkUp p speed s
  | .deviceStatusWrite dev v packed => Sys2Proof.Machine.execDeviceStatusWrite dev v packed s
  | .suspClear k => Sys2Proof.Machine.execSuspClear k s
  | .domainWindowAccess a => Sys2Proof.Machine.execDomainWindowAccess a s
  | .dhcpv6Reply addr bootUrl => Sys2Proof.Machine.execDhcpv6Reply addr bootUrl s
  | .recoveryImageReceived verified => Sys2Proof.Machine.execRecoveryImageReceived verified s
  | .ecall => Sys2Proof.Machine.execEcall s
  | .ebreak => Sys2Proof.Machine.execEbreak s
  | .fenceI => Sys2Proof.Machine.execFenceI s
  | .sret => Sys2Proof.Machine.execSret s
  | .mret => Sys2Proof.Machine.execMret s
  | .wfi => Sys2Proof.Machine.execWfi s
  | .taskDone => Sys2Proof.Machine.execTaskDone s
  | .upret => Sys2Proof.Machine.execUpret s
  | .monleave => Sys2Proof.Machine.execMonleave s
  | .interruptEntry => Sys2Proof.Machine.execInterruptEntry s
  | .attestationReportDone => Sys2Proof.Machine.execAttestationReportDone s
  | .faultQueuePost => Sys2Proof.Machine.execFaultQueuePost s
  | .packageReset => Sys2Proof.Machine.execPackageReset s
  | .recoveryFetchRetry => Sys2Proof.Machine.execRecoveryFetchRetry s
  | .dhcpv6Retry => Sys2Proof.Machine.execDhcpv6Retry s
  | .announcementRetry => Sys2Proof.Machine.execAnnouncementRetry s
  | .alarm => Sys2Proof.Machine.execAlarm s

end Sys2Proof.Machine
end

