-- ==== Sys2Proof/Machine/Due.lean ====
section
/-! DEFINITION. What is due now without a hart: accepted commands that may start, and what the dispatcher, the tree, the
banker, the timers and the rings do by themselves when their condition holds. -/

namespace Sys2Proof.Machine

/-- Something the device does by itself. -/
inductive Act where
  /-- an accepted command starts; `none` is a CMD value that names none (R289) -/
  | command (c : Command)
  /-- a copy or a table move of a party that is being saved reaches a place where it is parked; `starts`: it may have begun (R355) -/
  | park (c : Command) (starts : Bool)
  /-- the value of a remote load arrives at a waiting hart, -/
  | remote (h : Nat)
  /-- or at the saved harts of a party (R175) -/
  | remoteSaved (party : Nat)
  | nsendTimeout (c : Command)
  /-- a message that waited at the transport is placed or refused (R331) -/
  | message
  | boundary (die : Nat)
  | saveComplete (party : Nat)
  | restoreComplete (party : Nat)
  | partyRetire (party : Nat)
  | enterSaves (ctx : BitVec 16)
  | finishSave (ctx : BitVec 16)
  | closed (ctx : BitVec 16)
  | exchange (launch : Nat)
  | sweep (launch : Nat)
  | placement (launch : Nat)
  | initial (launch : Nat)
  | sample (launch : Nat)
  | joinStart (h : Nat)
  | joinTimeout (h : Nat)
  | leaseGrant (cluster : Nat)
  | leaseIdle (cluster : Nat)
  | acqUrgent (cluster : Nat)
  | matched (launch rank0 nrank seq : Nat)
  | round
  | post
  | cwaitRetry (h : Nat)
  | recall (frame : Nat)
  | watchdog (ctx : BitVec 16)
  | saveDeadline (party : Nat)
  deriving DecidableEq, Repr

/-! ### Commands that may start (R291, R301, R322, R324) -/

/-- Segments that two commands name meet. -/
def sharesSegment (a b : Command) : Bool :=
  decide ((imageSegs a).1 < (imageSegs b).2) && decide ((imageSegs b).1 < (imageSegs a).2)

/-- A matrix command waits for an earlier one of its core (R301): MLOADW for earlier loads and for the MMAs that read its
segments, MMA for the loads of its segments and the commands before it, MEND for all. -/
def matrixWaits (c e : Command) : Bool :=
  match c.cmd, e.cmd with
  | 0x01, 0x01 => true
  | 0x01, 0x02 => sharesSegment c e
  | 0x01, _ => false
  | 0x02, 0x01 => sharesSegment c e
  | 0x04, _ => true
  | _, 0x01 => false
  | _, _ => true

/-- The line that a SHIP is to be performed on: in memory, or its address where that has no place. -/
def State.shipLine (s : State) (c : Command) : Nat :=
  match (shipPlace s c (cmdOp0 c).toNat).2 with
  | .ok p => p.key / 64
  | .error _ => (cmdOp0 c).toNat / 64

/-- A command waits for an earlier accepted one: by ORDER (R291), in the lease (R301), or as a SHIP of the same hart to the
same line (R324). -/
def State.waitsFor (s : State) (c e : Command) : Bool :=
  coreOf e.by_.hart == coreOf c.by_.hart && e.by_.port == c.by_.port
    && (c.word.getLsbD 9 || (c.by_.port == 0 && matrixWaits c e)
      || (c.cmd == 0x42 && e.cmd == 0x42 && c.by_.hart == e.by_.hart && s.shipLine c == s.shipLine e))

/-- A command may start. A MIGR that finds no filter room waits (R270), and so does a command whose core's port holds its requests
(R283). -/
def State.mayStart (s : State) (earlier : List Accepted) (a : Accepted) : Bool :=
  !a.parked && !a.started && !earlier.any (fun b => s.waitsFor a.cmd b.cmd) && !(a.cmd.cmd == 0x26 && s.migrWaits a.cmd)
    && !s.portHolds (coreOf a.cmd.by_.hart)

/-- A command that a save parks at its next piece, slot or element (R355). -/
def State.parks (s : State) (a : Accepted) : Bool :=
  parkable a.cmd && !a.parked && !a.started && s.parties.any (fun p => some p.id == a.cmd.by_.party && p.state == .saving)

/-- The commands that may start, or are to be parked. -/
def State.startable (s : State) (earlier : List Accepted) : List Accepted → List Act
  | [] => []
  | a :: rest =>
    let tail := s.startable (earlier ++ [a]) rest
    if s.parks a then .park a.cmd (s.mayStart earlier a) :: tail
    else if s.mayStart earlier a then .command a.cmd :: tail else tail

/-- A copy or a table move goes on for a number of pieces, slots or elements and is then parked (Table 22-3); one that may not yet start
is parked as it stands. How far it goes is free. -/
def State.parkNow (s : State) (c : Command) (starts : Bool) : State :=
  let k := if starts then some (Config.freeWord s.choices).toNat else none
  match k, c.cmd with
  | none, _ => s.park c c.done
  | k, 0x20 => s.copyCpy c k
  | k, 0x21 => s.copyCpyt c k
  | k, 0x22 => s.copyFill c k
  | k, 0x23 => s.slotFill c k
  | k, 0x24 => s.slotEvict c k
  | k, 0x40 => s.moveTable c false k
  | k, _ => s.moveTable c true k

/-! ### What else is due -/

/-- A deadline has passed. -/
def State.passed (s : State) (t : Nat) : Bool := decide (t ≤ s.clock)

/-- What is due for a party. -/
def State.partyDue (s : State) (p : Party) : List Act :=
  match p.state with
  | .saving =>
    if s.passed (p.saveSince + 6000000) && !s.stoppedCtx p.ctx then [.saveDeadline p.id]
    else if s.saveHeld p then [] else [.saveComplete p.id]
  | .saved => if p.savedHarts.any (fun e => (waitsRemote e.2).any (fun w => s.reaches w.1)) then [.remoteSaved p.id] else []
  | .restoring => if p.doomed || (if p.savedHarts.isEmpty then s.replayed p else s.restorable p) then [.restoreComplete p.id] else []
  | .retiring => if s.stoppedCtx p.ctx || s.engines.any (fun a => a.cmd.by_.party == some p.id) then [] else [.partyRetire p.id]
  | _ => []

/-- What is due for a context. -/
def State.ctxDue (s : State) (c : Context) : List Act :=
  (if c.state == .saving && !c.stopped && s.parties.any (fun p => p.ctx == c.id && s.partyBlocked p) then [.enterSaves c.id] else [])
    ++ (if s.saveAdvances c then [.finishSave c.id] else [])
    ++ (match c.watchdog with
        | some t => if !c.stopped && s.saveLeft c.id && s.passed t then [.watchdog c.id] else []
        | none => [])
    ++ (if c.midExchange && !c.stopped && (match c.pairedWith.bind s.ctx? with
          | none => true
          | some o => (s.ctxLaunch o.id).isNone || o.midExchange) then [.closed c.id] else [])

/-- A sweep of a launch finds something new (R149, R154). -/
def State.sweepDue (s : State) (l : Launch) : Bool :=
  if l.joining then false
  else if s.allIdle l then l.sent == l.received || l.sweep != some (l.sent, l.received)
  else s.stuck l || l.sweep.isSome || l.stallSeen

/-- A joined launch waits only for this device (R385). -/
def loneJoin (l : Launch) : Bool :=
  l.joining && (match l.join with
    | some (_, m) => m == 1#128 <<< Config.devno
    | none => false)

/-- What is due for a launch. -/
def State.launchDue (s : State) (l : Launch) : List Act :=
  if l.ended.isSome then []
  else
    (if loneJoin l then [.joinStart (l.submitter - Config.computeHarts)] else [])
      ++ (if l.joining && s.passed (l.stepStart + 3000000000) then [.joinTimeout (l.submitter - Config.computeHarts)] else [])
      ++ (if s.placing l && (s.placement l).isSome then [.placement l.id] else [])
      ++ (match l.initial with
          | none => []
          | some none => if l.joining then [] else [.initial l.id]
          | some (some ts) => if !l.joining && (ts.isEmpty || !stageFull l 0) then [.initial l.id] else [])
      ++ (if s.exchangeReady l then [.exchange l.id] else [])
      ++ (if s.sweepDue l then [.sweep l.id] else [])
      ++ (if !l.flags.getLsbD 0 && !l.joining && s.passed (l.sampledAt + 30000) then [.sample l.id] else [])

/-- What is due for a cluster. -/
def State.clusterDue (s : State) (k : Nat) (c : Cluster) : List Act :=
  (if c.lease.holder.isNone && !(s.leaseSeekers k).isEmpty then [.leaseGrant k] else [])
    ++ (if s.leaseIdle k && s.passed (s.leaseIdleEnd k) then [.leaseIdle k] else [])
    ++ (if c.requests.any (fun r => !r.urgent && s.passed (r.since + 0x100001)) then [.acqUrgent k] else [])

/-- Clusters that anything may be due for: those not as at reset, and those of harts that wait for a lease. -/
def State.dueClusters (s : State) : List Nat :=
  (s.hartIds.filter (fun h => isCompute h && (match (s.getHart h).blocked with
    | some (.engine q _) => q == 0
    | _ => false))).foldl (fun l h => insertOnce (clusterOf h) l) (s.clusters.map (·.1))

/-- Collectives whose participants have all started (R329). -/
def State.matches_ (s : State) : List Act :=
  ((s.engines.filter (fun a => a.started && !a.parked && isCollective a.cmd)).map (fun a => collectiveKey a.cmd)).filterMap (fun k =>
    match k.1, s.participants k with
    | some l, some _ => some (.matched l k.2.1 k.2.2.1 k.2.2.2)
    | _, _ => none)

/-- The harts that wait for the value of a remote load which can arrive: not those whose core's stream has stopped (R408). -/
def State.remoteHarts (s : State) : List Nat :=
  s.hartIds.filter (fun h => !(s.core (coreOf h)).meshStopped && (waitsRemote (s.getHart h)).any (fun w => s.reaches w.1))

/-- The dies whose share controller has come to a boundary (R284). -/
def State.boundaries (s : State) : List Act :=
  ((s.shares.toList.zipIdx).filter (fun x => s.boundaryDue x.1)).map (fun x => .boundary x.2)

/-- What is due now. -/
def State.due (s : State) : List Act :=
  s.startable [] s.engines
    ++ s.parties.flatMap s.partyDue ++ s.contexts.flatMap s.ctxDue ++ s.launches.flatMap s.launchDue
    ++ s.dueClusters.flatMap (fun k => s.clusterDue k (s.cluster k))
    ++ s.matches_
    ++ (if s.migrations.isEmpty then [] else [.round])
    ++ (if s.readyPost.isSome then [.post] else [])
    ++ (s.hartIds.filter (fun h => (s.getHart h).blocked == some .cellRetry)).map .cwaitRetry
    ++ s.remoteHarts.map .remote
    ++ (s.engines.filter (fun a => seeksPost a && s.passed (postLimit a.since))).map (fun a => .nsendTimeout a.cmd)
    ++ (if s.readyMessage.isSome then [.message] else [])
    ++ s.boundaries
    ++ (s.recalls.filter (fun r => !r.revoking && s.passed r.deadline)).map (fun r => .recall r.frame)

/-- One of the due acts: no rule orders them (R291, R434). DESIGN CHOICE (log 4). -/
def State.pickDue (s : State) : Option Act :=
  match s.due with
  | [] => none
  | [e] => some e
  | l => l[Config.enginePick s.choices % l.length]?

/-- The harts that can issue and whose core's port holds no requests (R283). -/
def State.issuers (s : State) : List Nat := s.readyHarts.filter (fun h => !s.portHolds (coreOf h))

/-- The first ready hart of a core after the slot that issued last (R156). -/
def State.inTurn (s : State) (core : Nat) (ready : List Nat) : Option Nat :=
  (([1, 2, 3, 4] : List Nat).map (fun i => 4 * core + ((s.core core).turn + i) % 4)).find? (fun h => ready.contains h)

/-- The hart that issues next: among the ready harts of a core they take turns, and no rule orders those of different cores (R156).
DESIGN CHOICE (log 4). -/
def State.pickHart (s : State) : Option Nat :=
  match s.issuers with
  | [] => none
  | [h] => some h
  | l => (pickOf l (Config.nextHart s.choices)).bind (fun h => s.inTurn (coreOf h) l)

end Sys2Proof.Machine
end

