-- ==== Sys2Proof/Machine/Run.lean ====
section
/-! DEFINITION. What one step consists of: the acts of the device, the next instruction of a hart (R44, R48, R338), and the
passing of time. -/

namespace Sys2Proof.Machine
open Sys2Proof

/-- An act of the device, by the meaning of its instruction, command or event. -/
def Act.run (a : Act) (s : State) : Out :=
  match a with
  | .command c => (match s.spendTokens (coreOf c.by_.hart) with
    | none => .next (s.holdPort (coreOf c.by_.hart))
    | some s => (match commandInstr c with
      | some i => exec i s
      | none => exec (.commandCompletion c 1 0 0) s))
  | .park c starts => .next (s.parkNow c starts)
  | .remote h => .next (s.remoteArrival h)
  | .remoteSaved p => .next (s.remoteSaved p)
  | .nsendTimeout c => execNsendTimeout c s
  | .message => .next (match s.readyMessage with
    | some g => s.deliverMessage g
    | none => s)
  | .boundary die => s.fallBoundary die
  | .saveComplete p => execSaveComplete p s
  | .restoreComplete p => execRestoreComplete p s
  | .partyRetire p => execPartyRetire p s
  | .enterSaves ctx => .next (s.enterSaves ctx)
  | .finishSave ctx => .next (s.advanceSave ctx).serveAllPre
  | .closed ctx => .next (s.afterClose ctx)
  | .exchange l => execExchange l s
  | .sweep l => execHeadcountSweep l s
  | .placement l => execTaskPlacement l s
  | .initial l => execInitialTasks l s
  | .sample l => execOccupancySample l s
  | .joinStart h => execJoinStart h 0 s
  | .joinTimeout h => execJoinTimeout h s
  | .leaseGrant k => execLeaseGrant k s
  | .leaseIdle k => execLeaseIdleExpiry k s
  | .acqUrgent k => execAcqUrgent k s
  | .matched l r n q => execCollectiveMatch l r n q s
  | .round => execMigrRoundDone false s
  | .post => execFaultQueuePost s
  | .cwaitRetry h => execCwaitRetry h s
  | .recall f => execRecallDeadlineExpiry f s
  | .watchdog ctx => execWatchdogExpiry ctx s
  | .saveDeadline p => execSaveDeadlineExpiry p s

/-- Time passes with a step that goes on, waiters of cells see what reached them (R194), and leases see who is idle (R299). -/
def ticked (o : Out) : Out :=
  match o with
  | .next s => .next s.lookCells.lookLeases.tick
  | .fault f => .fault f
  | .refused r => .refused r

/-- The weak load last issued can no longer be performed late (R159). -/
def State.noLate (s : State) : State := { s with hart := { s.hart with late := none } }

/-- What issuing an instruction comes with: the turn of the core's slots moves on (R156), the issue slot is counted for the hart's
context (R290, Table 22-7), and the weak load issued before has been performed, unless it may yet be performed behind this instruction
(R159). -/
def State.issuing (s : State) (i : Instr) : State :=
  let s := s.setCore s.ownCore { s.core s.ownCore with turn := slotOf s.hid }
  let s := s.charge (ctxOf s.hart.csr.ptroot) 2 1
  if keepsLate s i then s else s.noLate

/-- The hart in focus executes the word it fetches (R44, R48). -/
def issue (s : State) : Out :=
  match s.fetch with
  | (s, .error (c, v)) => s.noLate.trapOut c v
  | (s, .ok w) =>
    match decodeWord w with
    | .ok i => exec i (s.issuing i)
    | .error _ => exec (.illegalInstruction w) (s.issuing (.illegalInstruction w))

/-- The hart in focus acts: a pending cause of R384, the end of a `wfi` (R76), an interrupt at the boundary (R338), else
its next instruction, for whose requests its core may have no tokens (R283). -/
def runHart (s : State) : Out :=
  match s.hart.trapDue with
  | some (c, v) => ({ s with hart := { s.hart with trapDue := none } }).noLate.trapOut c v
  | none =>
    if s.hart.blocked = some .interrupt then exec (.wake s.hid) s.noLate
    else match s.interrupt? s.hid s.hart with
      | some _ => exec .interruptEntry s.noLate
      | none =>
        match s.spendTokens s.ownCore with
        | none => .next (s.holdPort s.ownCore)
        | some s =>
          let s := s.maybeDrain.maybeLate
          issue { s with hart := { s.hart with blocked := none } }

/-- The machine once boot is done: one of its own acts, or one hart. -/
def run (s : State) : Out :=
  match s.pickHart, s.pickDue with
  | none, none => .next s
  | none, some e => e.run s
  | some h, none => runHart (s.focus h)
  | some h, some e => if Config.engineGo s.choices then e.run s else runHart (s.focus h)

/-- The machine as its boot stands (R428, R429). -/
def advanceBoot (s : State) : Out :=
  match s.boot.stage with
  | .stopped => .fault .bootStopped
  | .recovery => .next s
  | .step n => .next (bootStep n s)
  | .done => run s

end Sys2Proof.Machine
end

