-- ==== Sys2Proof/Machine/Step.lean ====
section
/-! DEFINITION. One step of the machine: an event that has arrived; else a boot step, one of the device's own acts, or one
instruction of one hart. -/

namespace Sys2Proof.Machine
open Sys2Proof

/-- One step. -/
def step (s : State) : Host.Outcome State Fault Refusal :=
  match s.events with
  | e :: rest => ticked (exec e { s with events := rest })
  | [] => if s.isHalted then .fault .halted else ticked (advanceBoot s)

/-- `s` with the instruction stored where the hart in focus fetches next, and nothing due before it.
DESIGN CHOICE (log 2). -/
def State.withFetchWord (s : State) (nbits w : Nat) : State :=
  placeWord s (bytesOfWord (BitVec.ofNat 32 (w % 2 ^ nbits)))

end Sys2Proof.Machine
end

