-- ==== Sys2Proof/Safety.lean ====
section
/-! DEFINITION. The terms in which the statements are put: what an instruction leaves alone, what it means that an instruction
retires or takes an exception, and what a safe step is. -/

namespace Sys2Proof.Safety
open Sys2Proof Sys2Proof.Machine

/-- A step is safe when the machine goes on. -/
def SafeStep (s : State) : Prop := ∃ t, step s = .next t

/-- Every part of the device outside the hart in focus is as before: memory byte for byte, the other harts, cores, engines,
tables and registers. -/
def SameDevice (s t : State) : Prop := { t with hart := s.hart } = s

/-- A byte of memory as the hart in focus sees it: its own latest store, else the older contents that it goes on seeing, else what its
group agent holds, else the site (R66, R157, R159). -/
def byteSeen (s : State) (a : Nat) : Byte := pendingGet (s.hart.pending ++ s.copies) s.mem a

/-- What a cluster's agent holds of the bytes that it has yet to write back (R160). -/
def owedCells (s : State) (k : Option Nat) : List Host.Cell :=
  (s.agentCells k).filter (fun c => (s.dirtyCells k).any (fun d => d.1 == c.1))

/-- What stands over the sites at a home of the hart in focus: what its group agent holds (`near`), or what the agent has yet to write
back. -/
def homeCells (s : State) (near : Bool) : List Host.Cell :=
  if near then s.agentCells (agentOf s.hid) else owedCells s (agentOf s.hid)

/-- A byte at a home of the hart in focus, with its own latest store there: at its group agent (`near`), or at the site, where the agent
has written back what it had not (R157, R160). -/
def homeByte (s : State) (near : Bool) (a : Nat) : Byte := pendingGet (s.hart.pending ++ homeCells s near) s.mem a

/-- Only memory may differ, with what is kept beside it: uncorrectable words, descriptors, older contents, agents' lines, and the dirty
filters of migrations. -/
def OnlyMemory (s t : State) : Prop :=
  { t with
    mem := s.mem, poison := s.poison, blocks := s.blocks, deltas := s.deltas, raws := s.raws, stale := s.stale, lines := s.lines,
    migrations := s.migrations } = s

/-- No other cluster's agent holds the 64-byte line of an access exclusively, and none of its bytes belongs to a cell that is being
purged (R165, R197). -/
def Unheld (s : State) (key n : Nat) : Prop :=
  (∀ l ∈ s.lines, l.exclusive = true → l.addr / 64 = key / 64 → some l.cluster = agentOf s.hid)
    ∧ ∀ b, key / 64 * 64 ≤ b → b < (key + n + 63) / 64 * 64 → s.heldByte b = false

/-- The parts of a hart that neither an instruction's retiring nor its writes of x, v or CSRs touch: mode, tile views, staging
buffers, holdings, party, fetch buffer, pending stores, SHIP results, waits. -/
def SameShell (h k : Hart) : Prop :=
  { k with pc := h.pc, x := h.x, v := h.v, csr := h.csr, steps := h.steps, inflight := h.inflight } = h

/-- Every vector register has the contents and tag that the hart's writes give it in program order (R39, R40). -/
def SameVectors (h k : Hart) : Prop := ∀ r : VReg, k.finalV r = h.finalV r

/-- Every CSR but `instret` and REPSTATE, which every retiring instruction updates, is as before. -/
def SameCsrs (h k : Hart) : Prop :=
  { k.csr with instret := h.csr.instret, repstate := h.csr.repstate } = h.csr

/-- What retiring in sequence does to pc, REPSTATE, `instret` and the issue steps, with `w` empty steps (R39, R42, R72). -/
structure Retired (h k : Hart) (w : Nat) : Prop where
  pc : k.pc = (nextPc h.pc h.csr.repstate).1
  repstate : k.csr.repstate = (nextPc h.pc h.csr.repstate).2
  instret : k.csr.instret = h.csr.instret + 1
  steps : k.steps = h.steps + 1 + w

/-- What retiring with a transfer of control to `pc` does (R64, R72). -/
structure Transferred (h k : Hart) (pc : Word) : Prop where
  pc : k.pc = pc
  repstate : k.csr.repstate = h.csr.repstate
  instret : k.csr.instret = h.csr.instret + 1
  steps : k.steps = h.steps + 1

/-- An instruction that writes x[rd] and nothing else, and is followed by the next in sequence. x0 reads zero. -/
structure WroteRd (s t : State) (rd : Reg) (w : Word) : Prop where
  result : t.x rd = if rd = 0 then 0 else w
  others : ∀ r : Reg, r ≠ rd → t.x r = s.x r
  retired : Retired s.hart t.hart 0
  vectors : SameVectors s.hart t.hart
  csrs : SameCsrs s.hart t.hart
  shell : SameShell s.hart t.hart
  device : SameDevice s t

/-- The instruction completes, its one effect the write of x[rd]. -/
def WritesRd (i : Instr) (s : State) (rd : Reg) (w : Word) : Prop := ∃ t, exec i s = .next t ∧ WroteRd s t rd w

/-- An instruction that writes nothing but what retiring writes. -/
structure OnlyRetired (s t : State) : Prop where
  x : ∀ r : Reg, t.x r = s.x r
  retired : Retired s.hart t.hart 0
  vectors : SameVectors s.hart t.hart
  csrs : SameCsrs s.hart t.hart
  shell : SameShell s.hart t.hart
  device : SameDevice s t

/-- The instruction completes with no effect but to retire. -/
def JustRetires (i : Instr) (s : State) : Prop := ∃ t, exec i s = .next t ∧ OnlyRetired s t

/-- A transfer of control that was taken: rd receives the link, control goes to the target, nothing else changes. -/
structure Jumped (s t : State) (rd : Reg) (link target : Word) : Prop where
  result : t.x rd = if rd = 0 then 0 else link
  others : ∀ r : Reg, r ≠ rd → t.x r = s.x r
  transferred : Transferred s.hart t.hart target
  vectors : SameVectors s.hart t.hart
  csrs : SameCsrs s.hart t.hart
  shell : SameShell s.hart t.hart
  device : SameDevice s t

/-- The instruction completes as a taken transfer. -/
def JumpsTo (i : Instr) (s : State) (rd : Reg) (link target : Word) : Prop :=
  ∃ t, exec i s = .next t ∧ Jumped s t rd link target

/-- A target that a transfer may take: bits [63:57] and bit 1 clear (R65). -/
def GoodTarget (w : Word) : Prop := w.extractLsb' 57 7 = 0 ∧ w.getLsbD 1 = false

/-- The instruction takes exception `c` with this xtval, and does nothing else (R37). -/
def Traps (i : Instr) (s : State) (c : Nat) (tval : Word) : Prop := exec i s = .next (s.trap c tval)

/-! ### Memory -/

/-- Only the own core's data TLB, the walk caches and the cached context pages may differ, as a translation leaves them (R253, R261). -/
structure OnlyTlb (s u : State) : Prop where
  hart : u.hart = s.hart
  device : { u with cores := s.cores, walks := s.walks, ctxPages := s.ctxPages } = s
  cores : ∀ c, { u.core c with dtlb := (s.core c).dtlb } = s.core c

/-- A place whose bytes lie in memory as they are: not in the MMIO range, and without compression (R256). -/
def PlainPlace (p : Place) : Prop := p.mmio = false ∧ p.meta_ = none ∧ pteCmp p.pte = 0

/-- The little-endian value of `n` bytes that the hart sees at a location, sign- or zero-extended (R8, R66). -/
def valueSeen (s : State) (key n : Nat) (signed : Bool) : Word :=
  let v := natOfBytes ((List.range n).map (fun k => byteSeen s (key + k)))
  if signed then (BitVec.ofNat (8 * n) v).signExtend 64 else BitVec.ofNat 64 v

/-- The little-endian value of `n` bytes at their home, the hart's own stores performed: what a strong access reads (R173). -/
def valueHome (s : State) (near : Bool) (key n : Nat) : Nat := natOfBytes ((List.range n).map (fun k => homeByte s near (key + k)))

/-- The little-endian value of `n` bytes of local memory, which no copy and no agent stands before. -/
def valueLocal (s : State) (key n : Nat) : Nat := natOfBytes ((List.range n).map (fun k => pendingGet s.hart.pending s.mem (key + k)))

/-- Two bytes lie in one aligned doubleword, or would with `n` bytes stored at `key`: what a core reads anew (R158). -/
abbrev NearBytes (key n a : Nat) : Prop := key / 8 ≤ a / 8 ∧ a / 8 < (key + n + 7) / 8

/-- Byte `k` of the low `n` bytes of a word. -/
def byteOf (w : Word) (k : Nat) : Byte := w.extractLsb' (8 * k) 8

/-- What the hart sees after it stored the low `n` bytes of `w` at their home: of the doublewords that the store meets, the home's bytes
(R158). -/
def SeesStrong (s t : State) (near : Bool) (key n : Nat) (w : Word) : Prop :=
  ∀ b, byteSeen t b = if key ≤ b ∧ b < key + n then byteOf w (b - key) else if NearBytes key n b then homeByte s near b else byteSeen s b

/-- Bytes written at a location of memory, and no other byte. -/
def Wrote (s t : State) (key n : Nat) (w : Word) : Prop :=
  ∀ a, Memory.get t.mem a = if key ≤ a ∧ a < key + n then byteOf w (a - key) else Memory.get s.mem a

/-- What the hart sees after it stored the low `n` bytes of `w` at a location, and of every other byte. -/
def SeesStore (s t : State) (key n : Nat) (w : Word) : Prop :=
  ∀ a, byteSeen t a = if key ≤ a ∧ a < key + n then byteOf w (a - key) else byteSeen s a

/-- The issuing hart after an instruction that reaches memory, may write x[rd], and retires: the other registers are as before and
the next instruction follows; only its pending stores, and a weak load that may yet be performed, may differ. -/
structure HartRetired (s t : State) (rd : Reg) (w : Word) : Prop where
  result : t.x rd = if rd = 0 then 0 else w
  regs : ∀ r : Reg, r ≠ rd → t.x r = s.x r
  retired : Retired s.hart t.hart 0
  vectors : SameVectors s.hart t.hart
  csrs : SameCsrs s.hart t.hart
  shell : SameShell s.hart { t.hart with pending := s.hart.pending, late := s.hart.late }
  hid : t.hid = s.hid

/-- The same, and every other hart is as before. -/
def MemRetired (s t : State) (rd : Reg) (w : Word) : Prop := HartRetired s t rd w ∧ t.others = s.others

/-! ### Traps -/

/-- The part of a hart that a trap entry leaves alone. -/
def TrapShell (h k : Hart) : Prop :=
  { k with pc := h.pc, mode := h.mode, v := h.v, inflight := h.inflight, csr := h.csr, blocked := h.blocked } = h

/-- What the entry to a trap of M- or S-mode does to the status register: xPIE := xIE, xIE := 0, xPP := the mode left (R37). -/
def EntersStatus (old new : Word) (toM : Bool) (mode : Mode) : Prop :=
  if toM then
    new.getLsbD 7 = old.getLsbD 3 ∧ new.getLsbD 3 = false ∧ (new.extractLsb' 11 2).toNat = modeLevel mode
      ∧ ∀ n, n ≠ 3 → n ≠ 7 → n ≠ 11 → n ≠ 12 → new.getLsbD n = old.getLsbD n
  else
    new.getLsbD 5 = old.getLsbD 1 ∧ new.getLsbD 1 = false ∧ new.getLsbD 8 = decide (mode ≠ .u)
      ∧ ∀ n, n ≠ 1 → n ≠ 5 → n ≠ 8 → new.getLsbD n = old.getLsbD n

/-- What a return does to the status register: xIE := xPIE, xPIE := 1, xPP := U (R37). -/
def LeavesStatus (old new : Word) (fromM : Bool) : Prop :=
  if fromM then
    new.getLsbD 3 = old.getLsbD 7 ∧ new.getLsbD 7 = true ∧ new.extractLsb' 11 2 = 0
      ∧ ∀ n, n ≠ 3 → n ≠ 7 → n ≠ 11 → n ≠ 12 → new.getLsbD n = old.getLsbD n
  else
    new.getLsbD 1 = old.getLsbD 5 ∧ new.getLsbD 5 = true ∧ new.getLsbD 8 = false
      ∧ ∀ n, n ≠ 1 → n ≠ 5 → n ≠ 8 → new.getLsbD n = old.getLsbD n

/-- ACTIVE of a REPSTATE or REP_PENDING of a cause register is written, and every other bit stays. -/
def BitWritten (old new : Word) (n : Nat) (b : Bool) : Prop := new.getLsbD n = b ∧ ∀ k, k ≠ n → new.getLsbD k = old.getLsbD k

/-- A cause register: CODE in [5:0], REP_PENDING in 62, INT in 63. -/
def CauseIs (w : Word) (int rep : Bool) (code : Nat) : Prop :=
  w = BitVec.ofNat 64 (code % 64) ||| (if rep then 0x4000000000000000 else 0) ||| (if int then 0x8000000000000000 else 0)

/-- Where a trap vector sends the hart (R37): BASE, and BASE + 4 × CODE for an interrupt under MODE 1. -/
def vectorOf (tvec : Word) (int : Bool) (code : Nat) : Word :=
  pcOf ((tvec &&& ~~~3#64) + (if int ∧ tvec.extractLsb' 0 2 = 1 then BitVec.ofNat 64 (4 * code) else 0))

/-- Trap entry into M-mode, as one step after every vector result is complete (R37). -/
structure EnteredM (s t : State) (int : Bool) (c : Nat) (v : Word) : Prop where
  mode : t.hart.mode = .m
  pc : t.hart.pc = vectorOf s.hart.csr.mtvec int c
  epc : t.hart.csr.mepc = s.hart.pc
  cause : CauseIs t.hart.csr.mcause int (s.hart.csr.repstate.getLsbD 63) c
  tval : t.hart.csr.mtval = v
  status : EntersStatus s.hart.csr.mstatus t.hart.csr.mstatus true s.hart.mode
  repstate : BitWritten s.hart.csr.repstate t.hart.csr.repstate 63 false
  csrs : { t.hart.csr with
    mepc := s.hart.csr.mepc, mcause := s.hart.csr.mcause, mtval := s.hart.csr.mtval,
    mstatus := s.hart.csr.mstatus, repstate := s.hart.csr.repstate } = s.hart.csr
  complete : t.hart.inflight = [] ∧ SameVectors s.hart t.hart
  unblocked : t.hart.blocked = none
  shell : TrapShell s.hart t.hart
  device : { t with hart := s.hart } = s.withdraw

/-- Trap entry into S-mode (R37). -/
structure EnteredS (s t : State) (int : Bool) (c : Nat) (v : Word) : Prop where
  mode : t.hart.mode = .s
  pc : t.hart.pc = vectorOf s.hart.csr.stvec int c
  epc : t.hart.csr.sepc = s.hart.pc
  cause : CauseIs t.hart.csr.scause int (s.hart.csr.repstate.getLsbD 63) c
  tval : t.hart.csr.stval = v
  status : EntersStatus s.hart.csr.mstatus t.hart.csr.mstatus false s.hart.mode
  repstate : BitWritten s.hart.csr.repstate t.hart.csr.repstate 63 false
  csrs : { t.hart.csr with
    sepc := s.hart.csr.sepc, scause := s.hart.csr.scause, stval := s.hart.csr.stval,
    mstatus := s.hart.csr.mstatus, repstate := s.hart.csr.repstate } = s.hart.csr
  complete : t.hart.inflight = [] ∧ SameVectors s.hart t.hart
  unblocked : t.hart.blocked = none
  shell : TrapShell s.hart t.hart
  device : { t with hart := s.hart } = s.withdraw

/-- The upcall entry (R340); the mode and the interrupt enables stay. The post of a page fault may change the rest of the
device, and a hart that gives a tag the party's list of tags. -/
structure EnteredU (s t : State) (c tag : Nat) (v : Word) : Prop where
  mode : t.hart.mode = s.hart.mode
  pc : t.hart.pc = pcOf s.hart.csr.uvec
  epc : t.hart.csr.uepc = s.hart.pc
  addr : t.hart.csr.uaddr = v
  cause : t.hart.csr.ucause = BitVec.ofNat 64 (c % 64 + tag * 2 ^ 32) ||| (if s.hart.csr.repstate.getLsbD 63 then 0x4000000000000000 else 0)
  repstate : BitWritten s.hart.csr.repstate t.hart.csr.repstate 63 false
  csrs : { t.hart.csr with
    uepc := s.hart.csr.uepc, ucause := s.hart.csr.ucause, uaddr := s.hart.csr.uaddr,
    repstate := s.hart.csr.repstate } = s.hart.csr
  complete : t.hart.inflight = [] ∧ SameVectors s.hart t.hart
  unblocked : t.hart.blocked = none
  shell : TrapShell s.hart t.hart

/-- A trap into this mode has a handler: only a compute-core hart whose vector has BASE 0 has none (R350; for mtvec, log 8). -/
def HasVector (s : State) (toM : Bool) : Prop :=
  isCompute s.hid = false ∨ (if toM then s.hart.csr.mtvec else s.hart.csr.stvec).extractLsb' 2 62 ≠ 0

/-- The word of an illegal instruction traps with cause 2 and the word in xtval, and nothing else happens (R48). -/
def IllegalHere (i : Instr) (s : State) : Prop := Traps i s 2 ((encodeWord i).setWidth 64)

/-- Interrupt `n` is takeable: enabled, pending, and its target mode is above the hart's or is the hart's with xIE = 1 (R338). -/
def Takeable (s : State) (n : Nat) : Prop :=
  n ∈ [11, 3, 7, 9, 1, 5, 17, 16] ∧ s.hart.csr.mie.getLsbD n = true ∧ s.mipBit s.hid s.hart n = true
    ∧ (if n ∈ [3, 7, 11] then (s.hart.mode ≠ .m ∨ s.hart.csr.mstatus.getLsbD 3 = true)
       else (s.hart.mode = .u ∨ (s.hart.mode = .s ∧ s.hart.csr.mstatus.getLsbD 1 = true)))

/-- The hart waits for an operation already performed at its home: it takes no interrupt before that completes (R195, R388). -/
def Committed (h : Hart) : Prop := (∃ pa aq, h.blocked = some (.retire pa aq)) ∨ ∃ rd a n g, h.blocked = some (.pcie rd a n g)

/-- A Publish of the hart in focus would go ahead: no lost store to report, and no store held at a cell being purged (R197, R384). -/
def MayPublish (s : State) : Prop := s.hart.lostStore = false ∧ s.publishHeld = none

/-! ### Waiting -/

/-- No save of the hart's context is under way, so that a wait does not start the save of its party (R353). -/
def NotSaving (s : State) : Prop := ∀ p c, s.ownParty = some p → s.ctx? p.ctx = some c → c.state ≠ .saving

/-- The state whose hart waits for `w`: the wait is that of this instruction, and began where it first began to wait (R180, R286). -/
def waiting (s : State) (w : Wake) : State :=
  { s with hart := { s.hart with
    blocked := some w, since := some (s.hart.pc, s.hart.csr.instret, s.hart.waitTime s.choices) } }

/-- The instruction has no effect but that its hart waits for `w`, to be executed again on waking (Table 22-2). -/
def Waits (i : Instr) (s : State) (w : Wake) : Prop :=
  exec i s = s.block w ∧ (NotSaving s → exec i s = .next (waiting s w))

/-- The hart may not read a core queue (R180): an inbox of another party's slot, or a queue its party has not made. -/
def Barred (s : State) (n : Nat) : Prop :=
  if n < 4 then ∃ p, s.ownParty = some p ∧ n ∉ p.slots
  else ∀ p, s.ownParty = some p → ((s.core p.core).queue n).owner ≠ some p.id

/-! ### Commands -/

/-- The command is at its engine, accepted and not completed (R286). -/
def AtEngine (s : State) (c : Command) : Prop := ∃ a ∈ s.engines, a.cmd = c

/-- The instructions that perform a command (Table 17-4). -/
def commandForms (c : Command) : List Instr :=
  [.mzero c, .mloadw c, .mma c, .mdrain c, .mend c, .cpy c, .cpyt c, .fill c, .sfill c, .sevict c, .pref c, .migr c, .gather c, .scatter c,
    .ship c, .tabload c, .callred c, .credsc c, .callgath c, .cbcast c, .cxchg c, .nsend c, .nwrite c, .nread c, .npost c]

/-- A command's performance has led to `u`, and it completes there with a status, WORD1 and payload (R292). -/
def Completes (i : Instr) (s u : State) (c : Command) (st : Nat) (w : Word) (p : BitVec 128) : Prop :=
  AtEngine s c → exec i s = .next (u.complete c st w p)

/-- The same, with the status, WORD1 and posts of an access that failed with a cause at an address (R252, R347). -/
def FailsAt (i : Instr) (s u : State) (c : Command) (cause : Nat) (write : Bool) (addr word1 : Word) (p : BitVec 128) : Prop :=
  AtEngine s c → exec i s = .next (u.completeFault c cause write addr word1 p)

/-- A command word with nothing of what R289 rejects in its first 16 bits: CMD belongs to the port, bits [15:14] are zero, RESUME
and ATOMIC only where the command defines them. -/
def PlainWord (c : Command) (resume atomic : Bool) : Prop :=
  c.cmd / 0x20 = c.by_.port ∧ c.word.extractLsb' 14 2 = 0 ∧ (resume = false → c.word.getLsbD 10 = false)
    ∧ (atomic = false → c.word.getLsbD 11 = false)

/-- A byte of a party's window, by its offset. -/
def windowByte (s : State) (p : Party) (off : Nat) : Option Byte := (p.windowKey off).map (Memory.get s.mem)

/-- An offset lies in a row of a view. -/
def InView (v : View) (off : Nat) : Prop := ∃ i, i < v.rows ∧ v.row i ≤ off ∧ off < v.row i + v.rb

/-- Only the bytes of a view, of those in memory, may differ. -/
def OnlyView (s u : State) (p : Party) (v : View) : Prop :=
  ∀ a, (∀ off, InView v off → p.windowKey off ≠ some a) → Memory.get u.mem a = Memory.get s.mem a

/-- A byte as an engine reads it for a command, at a place whose bytes lie in memory as they are: the matrix array and the copy engine
read outside the window what the group agent of their cluster holds (R166). -/
def engByte (s : State) (c : Command) (p : Place) (a : Nat) : Byte :=
  if c.by_.port < 2 ∧ p.window = false then pendingGet (s.agentCells (some (engineCluster c.by_.hart))) s.mem a else Memory.get s.mem a

/-- A byte of memory beside the `n` bytes that an engine writes at a place: those engines' agent writes back what it owes of the lines
of 64 bytes (R166). -/
def engBeside (s : State) (c : Command) (p : Place) (n a : Nat) : Byte :=
  if c.by_.port < 2 ∧ p.window = false ∧ lineMeets p.key (p.key + n) (a / 64) = true ∧ s.heldByte a = false then
    pendingGet (owedCells s (some (engineCluster c.by_.hart))) s.mem a
  else Memory.get s.mem a

/-- What an engine's write of `n` bytes at a plain place, byte `k` being `f k`, has done to memory. -/
def EngWrote (s u : State) (c : Command) (p : Place) (n : Nat) (f : Nat → Byte) : Prop :=
  ∀ a, Memory.get u.mem a = if p.key ≤ a ∧ a < p.key + n then f (a - p.key) else engBeside s c p n a

/-- What a transfer of `n` bytes from one plain place to another has done to memory. -/
def Copied (s u : State) (c : Command) (src dst : Place) (n : Nat) : Prop := EngWrote s u c dst n (fun k => engByte s c src (src.key + k))

/-- A place that a command writes as its bytes lie: no compression and no replicas. -/
def PlainTarget (p : Place) : Prop := pteCmp p.pte = 0 ∧ pteKind p.pte ≠ 3

/-- `n` bytes at an address lie in one 256-byte block. -/
def OneBlock (a n : Nat) : Prop := 0 < n ∧ a % 256 + n ≤ 256

/-- A command is being performed and only waits for what completes it: nothing but its own mark has changed. -/
def Starts (i : Instr) (s u : State) (c : Command) : Prop :=
  exec i s = .next { u with engines := u.engines.map (fun a => if a.cmd = c then { a with started := true, since := u.clock } else a) }

/-! ### Events -/

/-- Only the clock may differ, and it does not go back. -/
def OnlyClock (s t : State) : Prop := { t with clock := s.clock } = s ∧ s.clock ≤ t.clock

/-- The launch has ended with a status (R155). -/
def Ended (t : State) (id : Nat) (st : LaunchStatus) : Prop := t.launch? id = none ∧ ∃ m ∈ t.launches, m.id = id ∧ m.ended = some st

/-- A hart is idle: not running, in no party, its registers as at reset (R46). -/
def IsIdle (h : Hart) : Prop := h.running = false ∧ h.party = none ∧ h.x = Hart.reset.x ∧ h.v = Hart.reset.v ∧ h.pending = []

/-- No pre-empt, resume or kill request is held at any register group (R352). -/
def NothingHeld (s : State) : Prop := ∀ g ∈ s.svc, g.2.preHeld = []

/-- The cores of a context's launch can be left at once: the launch goes by its own number, its parties are the context's, and no
allowance for a queue of its cores is outstanding (R353, R355). -/
def LeavesFree (s : State) (ctx : BitVec 16) : Prop :=
  ∀ l, s.ctxLaunch ctx = some l → s.launch? l.id = some l ∧ (∀ p ∈ s.parties, p.launch = l.id → p.ctx = ctx)
    ∧ ∀ c ∈ coresOf l.clusters, ∀ n, n < 8 → ((s.core c).queue n).granted = 0

/-- The root table of a context; 0 for none. -/
def rootOfCtx (s : State) (ctx : BitVec 16) : Nat := ((s.ctx? ctx).map Context.root).getD 0

/-- Only a busy register group holds requests (R352). -/
def NoneDue (s : State) : Prop := ∀ k, (s.svcRegs k).preHeld ≠ [] → (s.svcRegs k).preBusy = true

/-- A register group has answered its request with RESULT `r`, DONE counting it (R352); nothing else has changed. -/
structure PreAnswer (s t : State) (h r : Nat) : Prop where
  regs : t.svcRegs h = { s.svcRegs h with
    preResult := r
    preDone := (s.svcRegs h).preDone + 1 }
  groups : ∀ k, k ≠ h → t.svcRegs k = s.svcRegs k
  device : { t with svc := s.svc } = s

/-- A group's request has been answered with RESULT `r`, whatever else has changed. -/
def PreDone (s t : State) (h r : Nat) : Prop :=
  (t.svcRegs h).preBusy = false ∧ (t.svcRegs h).preResult = r ∧ (t.svcRegs h).preDone = (s.svcRegs h).preDone + 1

/-- A debug group has answered its request, which led to `u` and changed nothing else (R424). -/
structure DbgAnswer (u t : State) (h : Nat) (ctx : BitVec 16) (r : Nat) : Prop where
  regs : t.svcRegs h = { u.svcRegs h with
    dbgCtx := ctx
    dbgResult := r
    dbgDone := (u.svcRegs h).dbgDone + 1 }
  groups : ∀ k, k ≠ h → t.svcRegs k = u.svcRegs k
  device : { t with svc := u.svc } = u

/-- A context is resident: its clusters are its own, whether or not it is being saved (R353). -/
def Resident (s : State) (ctx : BitVec 16) (c : Context) : Prop := s.ctx? ctx = some c ∧ c.state ≠ .saved

/-! ### What holds of every step -/

/-- The invariant of a step (R194, R299): no hart still waits for a cell that is decided for its generation or past it, unless
the cell is being purged or is malformed; and a lease counts its holder's idle time exactly while the holder is idle and another
core requests. -/
structure Inv (s : State) : Prop where
  waiters : ∀ w ∈ s.waiters, s.purging.contains w.pa = false → s.malformed w.pa = false →
    ¬ (genAhead w.gen (s.cellAt w.pa).gen = 0 ∧ (s.cellAt w.pa).state = 1) ∧ genAhead w.gen (s.cellAt w.pa).gen < 2 ^ 23
  leases : ∀ k, (s.cluster k).lease.idleSince.isSome = s.leaseIdle k

/-- Nothing stands between the hart in focus and its next instruction: no event, no boot step, no act of the device, no other hart,
no trap or interrupt due, no store of its own that might leave the buffer, copy that might go, line that an agent might write back or
load that might be performed late first, and no share controller that might hold its requests. -/
structure Issues (s : State) : Prop where
  events : s.events = []
  running : s.isHalted = false ∧ s.boot.stage = .done
  picked : s.pickHart = some s.hid ∧ s.pickDue = none
  quiet : s.hart.trapDue = none ∧ s.hart.blocked = none ∧ s.interrupt? s.hid s.hart = none ∧ s.hart.pending = []
    ∧ s.hartCopies s.hid = [] ∧ s.lines = [] ∧ s.hart.late = none
  share : (s.shareOf s.ownCore).pool = 0

/-- The little-endian word at an address of memory. -/
def wordAt (s : State) (a : Nat) : BitVec 32 :=
  BitVec.ofNat 32 (natOfBytes ((List.range 4).map (fun k => Memory.get s.mem (a + k))))

/-! ### CSRs -/

/-- The CSR numbers of Table 02-3. -/
def csrNumbers : List Nat :=
  [0xC00, 0xC01, 0xC02, 0x300, 0x305, 0x341, 0x342, 0x343, 0x304, 0x344, 0x340, 0x3A0, 0x3A2, 0x100, 0x105, 0x141, 0x142, 0x143,
    0x104, 0x144, 0x140, 0x14D, 0x800, 0x801, 0x802, 0x803, 0x804, 0x805, 0x806, 0x807, 0x808, 0x809, 0x80A, 0x80B, 0x80C,
    0xCC0, 0xCC1, 0xCC2, 0xCC3, 0x5C0, 0x5C1, 0x5C2, 0x5C3, 0x7D0]
    ++ (List.range 16).map (fun k => 0x3B0 + k) ++ (List.range 16).map (fun k => 0x7C0 + k)

/-- A CSR that is read-only to a mode: bits [11:10] are 0b11, or Table 02-3 says so (R33). -/
def readOnlyTo (csr : BitVec 12) (mode : Mode) : Prop :=
  csr.extractLsb' 10 2 = 3 ∨ csr = 0x80B ∨ csr = 0x80C ∨ (csr = 0x80A ∧ mode = .u)

/-- The hart's vector results are complete where a CSR access waits for them (R72). -/
def csrReady (s : State) (csr : BitVec 12) : State :=
  if csr = 0x801 ∨ csr = 0x802 ∨ csr = 0x804 then { s with hart := s.hart.complete } else s

/-! ### Cells -/

/-- What a cell operation has done before it looks at its cell: the close under rl, and its coming to the cell's home at system scope,
with the hart's own pending stores to the cell's line and without older contents of the cell. -/
def cellEntry (u : State) (p : Place) (rl : Bool) : State := (if rl then u.publish else u).atHome false p 16

/-- A cell operation goes on to its cell: nothing to wait for, a cell in order, and no uncorrectable data (Table 10-3). -/
structure CellReady (v : State) (p : Place) : Prop where
  ships : v.shipsOut = false
  purging : v.purging.contains p.key = false
  formed : v.malformed p.key = false
  whole : poisoned v.poison p.key 16 = false

/-- The state whose hart has this OSTAT: RESULT, GEN and WINNER (Table 10-4). -/
def withOstat (s : State) (res gen : Nat) (winner : BitVec 20) : State :=
  { s with hart := { s.hart with csr := { s.hart.csr with
    ostat := BitVec.ofNat 64 (res + gen * 256 + winner.toNat * 2 ^ 32) } } }

/-- How far generation `q` is ahead of the cell's, modulo 2^24 (R189). -/
def ahead (q : Word) (c : CellView) : Nat := (q.toNat + 2 ^ 24 - c.gen) % 2 ^ 24

/-! ### Vector instructions -/

/-- The checks of R106 that a vector instruction's operands must pass: every register it names is held; under SCB_CHECK no
source has a result in flight; under FMT_TRAP every source has its type's tag or RAW; and no source is a block whose check code
fails. -/
structure OperandsGood (s : State) (named : List VReg) (srcs : List Src) : Prop where
  held : ∀ r ∈ named, s.hart.party = none ∨ r.toNat < 4 * s.hart.held
  ready : s.hart.csr.vmode.getLsbD 1 = true → ∀ x ∈ srcs, ∀ e ∈ s.hart.inflight, e.reg = x.reg → e.ready ≤ s.hart.steps
  format : s.hart.csr.vmode.getLsbD 0 = true → ∀ x ∈ srcs, ∀ t, x.as_ = some t →
    (s.hart.readV x.reg).tag = t ∨ (s.hart.readV x.reg).tag = .raw
  intact : ∀ x ∈ srcs, ∀ t, x.as_ = some t → chkBad (s.hart.readV x.reg) t = false

/-- What a vector instruction leaves alone: every vector register it does not write, every CSR but VFLAGS and VMASK (and what
retiring writes), and the device; it retires with its stall count (R39). -/
structure VectorFrame (s t : State) (writes : List VReg) (w : Nat) : Prop where
  others : ∀ r, r ∉ writes → t.hart.finalV r = s.hart.finalV r
  retired : Retired s.hart t.hart w
  csrs : { t.hart.csr with
    instret := s.hart.csr.instret, repstate := s.hart.csr.repstate, vflags := s.hart.csr.vflags, vmask := s.hart.csr.vmask } = s.hart.csr
  shell : SameShell s.hart t.hart
  device : SameDevice s t

/-- The same for an instruction that writes no x register and leaves VMASK alone. -/
structure VectorOnly (s t : State) (writes : List VReg) (w : Nat) : Prop where
  frame : VectorFrame s t writes w
  x : ∀ r : Reg, t.x r = s.x r
  vmask : t.hart.csr.vmask = s.hart.csr.vmask

/-- VFLAGS after an instruction that raises these flags: they are only ever set (R85). -/
def RaisesFlags (s t : State) (f : BitVec 6) : Prop := t.hart.csr.vflags = s.hart.csr.vflags ||| f.setWidth 64

/-- When a register's new contents are seen by reads (R39, R40): a read that issues next finds them if the latency has passed with
the stall count, and else what a read would have found without the write. -/
def VisibleAfter (s t : State) (vd : VReg) (lat w : Nat) : Prop :=
  t.hart.readV vd = if lat ≤ 1 + w then t.hart.finalV vd else Hart.readV { s.hart with steps := t.hart.steps } vd

/-- Element `i` of a source as the instruction reads it, converted from the register's own format where that differs (R32, R102). -/
def laneIn (s : State) (ty : ETy) (m : Bool) (r : VReg) (i : Nat) : Nat :=
  laneOf (etyBits ty) (s.vread (s.rot r) (etyTag ty) (s.active m)).1 i

/-- The same, of a source read whole. -/
def laneAll (s : State) (ty : ETy) (r : VReg) (i : Nat) : Nat := laneOf (etyBits ty) (s.vread (s.rot r) (etyTag ty) allLanes).1 i

/-- The flags that the conversions of the sources raise. -/
def convFlags (s : State) (ty : ETy) (m : Bool) (rs : List VReg) : BitVec 6 :=
  rs.foldl (fun f r => f ||| (s.vread (s.rot r) (etyTag ty) (s.active m)).2) 0

/-- The union of some flags. -/
def unionFlags (l : List (BitVec 6)) : BitVec 6 := l.foldl (· ||| ·) 0

/-- An element-wise instruction has written `vd`: each active element is `f` of the source elements and each inactive one keeps its
bits in program order; the tag is the type's; VFLAGS has what the conversions and the active elements raise (R102, R104, R108). -/
structure LaneResult (s t : State) (ty : ETy) (vd : VReg) (rs : List VReg) (m : Bool) (w : BitVec 2) (lat : Nat)
    (f : List Nat → Nat × BitVec 6) : Prop where
  tag : (t.hart.finalV (s.rot vd)).tag = etyTag ty
  lanes : ∀ i, i < 512 / etyBits ty → laneOf (etyBits ty) (t.hart.finalV (s.rot vd)).bits i =
    if m = false ∨ s.hart.csr.vmask.getLsbD i = true then (f (rs.map (fun r => laneIn s ty m r i))).1 % 2 ^ etyBits ty
    else laneOf (etyBits ty) (s.hart.finalV (s.rot vd)).bits i
  flags : RaisesFlags s t (unionFlags ((List.range (512 / etyBits ty)).map (fun i =>
    if s.active m i then (f (rs.map (fun r => laneIn s ty m r i))).2 else 0)) ||| convFlags s ty m rs)
  visible : VisibleAfter s t (s.rot vd) lat w.toNat
  only : VectorOnly s t [s.rot vd] w.toNat

/-- Elements written one by one under the mask, with no flags but the conversions'. -/
structure MoveResult (s t : State) (ty : ETy) (vd : VReg) (m : Bool) (w : BitVec 2) (fl : BitVec 6) (f : Nat → Nat) : Prop where
  tag : (t.hart.finalV (s.rot vd)).tag = etyTag ty
  lanes : ∀ i, i < 512 / etyBits ty → laneOf (etyBits ty) (t.hart.finalV (s.rot vd)).bits i =
    if s.active m i then f i % 2 ^ etyBits ty else laneOf (etyBits ty) (s.hart.finalV (s.rot vd)).bits i
  flags : RaisesFlags s t fl
  visible : VisibleAfter s t (s.rot vd) 1 w.toNat
  only : VectorOnly s t [s.rot vd] w.toNat

/-- A whole register written. -/
structure WholeResult (s t : State) (vd : VReg) (val : VecReg) (w : BitVec 2) (lat : Nat) (fl : BitVec 6) : Prop where
  val : t.hart.finalV (s.rot vd) = val
  flags : RaisesFlags s t fl
  visible : VisibleAfter s t (s.rot vd) lat w.toNat
  only : VectorOnly s t [s.rot vd] w.toNat

/-- A type of floats (Table 03-4). -/
abbrev IsFloat (ty : ETy) : Prop := ty = .f32 ∨ ty = .bf16 ∨ ty = .f16 ∨ ty = .f64

/-- Sources of one type. -/
def sourcesAs (s : State) (ty : ETy) (rs : List VReg) : List Src := rs.map (fun r => ⟨s.rot r, some (etyTag ty)⟩)

end Sys2Proof.Safety
end

