-- ==== Sys2Proof/Certificates/Slice0/Obligations.lean ====
section
/-! DEFINITION. The statements of this model, for the provers: what the rules of the spec say its instructions, commands and
events do, when each of them completes, what it leaves alone, where it traps, and what holds of every step. -/

open Sys2Proof Sys2Proof.Machine Sys2Proof.Safety

/-! ### Scalar instructions -/

/-- Table 04-1: the register-register instructions complete on every state and operands, and write only x[rd]. -/
def Obligations.RegisterArithmetic : Prop := ∀ (s : State) (rd rs1 rs2 : Reg),
  let a := s.x rs1
  let b := s.x rs2
  let a32 := a.setWidth 32
  WritesRd (.add rd rs1 rs2) s rd (a + b)
  ∧ WritesRd (.sub rd rs1 rs2) s rd (a - b)
  ∧ WritesRd (.sll rd rs1 rs2) s rd (a <<< (b.toNat % 64))
  ∧ WritesRd (.slt rd rs1 rs2) s rd (if a.toInt < b.toInt then 1 else 0)
  ∧ WritesRd (.sltu rd rs1 rs2) s rd (if a.toNat < b.toNat then 1 else 0)
  ∧ WritesRd (.xor rd rs1 rs2) s rd (a ^^^ b)
  ∧ WritesRd (.or rd rs1 rs2) s rd (a ||| b)
  ∧ WritesRd (.and rd rs1 rs2) s rd (a &&& b)
  ∧ WritesRd (.srl rd rs1 rs2) s rd (a >>> (b.toNat % 64))
  ∧ WritesRd (.sra rd rs1 rs2) s rd (a.sshiftRight (b.toNat % 64))
  ∧ WritesRd (.addw rd rs1 rs2) s rd ((a + b).setWidth 32 |>.signExtend 64)
  ∧ WritesRd (.subw rd rs1 rs2) s rd ((a - b).setWidth 32 |>.signExtend 64)
  ∧ WritesRd (.sllw rd rs1 rs2) s rd ((a32 <<< (b.toNat % 32)).signExtend 64)
  ∧ WritesRd (.srlw rd rs1 rs2) s rd ((a32 >>> (b.toNat % 32)).signExtend 64)
  ∧ WritesRd (.sraw rd rs1 rs2) s rd ((a32.sshiftRight (b.toNat % 32)).signExtend 64)

/-- Table 04-2: the register-immediate instructions complete on every state and operands, and write only x[rd]. -/
def Obligations.ImmediateArithmetic : Prop := ∀ (s : State) (rd rs1 : Reg) (imm : BitVec 12) (sh : BitVec 6) (sh5 : BitVec 5)
    (imm20 : BitVec 20),
  let a := s.x rs1
  let i := imm.signExtend 64
  let a32 := a.setWidth 32
  let u : Word := (imm20.setWidth 32 <<< 12).signExtend 64
  WritesRd (.addi rd rs1 imm) s rd (a + i)
  ∧ WritesRd (.slti rd rs1 imm) s rd (if a.toInt < i.toInt then 1 else 0)
  ∧ WritesRd (.sltiu rd rs1 imm) s rd (if a.toNat < i.toNat then 1 else 0)
  ∧ WritesRd (.xori rd rs1 imm) s rd (a ^^^ i)
  ∧ WritesRd (.ori rd rs1 imm) s rd (a ||| i)
  ∧ WritesRd (.andi rd rs1 imm) s rd (a &&& i)
  ∧ WritesRd (.slli rd rs1 sh) s rd (a <<< sh.toNat)
  ∧ WritesRd (.srli rd rs1 sh) s rd (a >>> sh.toNat)
  ∧ WritesRd (.srai rd rs1 sh) s rd (a.sshiftRight sh.toNat)
  ∧ WritesRd (.addiw rd rs1 imm) s rd ((a + i).setWidth 32 |>.signExtend 64)
  ∧ WritesRd (.slliw rd rs1 sh5) s rd ((a32 <<< sh5.toNat).signExtend 64)
  ∧ WritesRd (.srliw rd rs1 sh5) s rd ((a32 >>> sh5.toNat).signExtend 64)
  ∧ WritesRd (.sraiw rd rs1 sh5) s rd ((a32.sshiftRight sh5.toNat).signExtend 64)
  ∧ WritesRd (.lui rd imm20) s rd u
  ∧ WritesRd (.auipc rd imm20) s rd (s.hart.pc + u)

/-- Table 04-3: products, and quotients and remainders of nonzero divisors; rounding is toward zero and a remainder has the
dividend's sign. -/
def Obligations.MultiplyDivide : Prop := ∀ (s : State) (rd rs1 rs2 : Reg),
  let a := s.x rs1
  let b := s.x rs2
  let a32 := a.setWidth 32
  let b32 := b.setWidth 32
  WritesRd (.mul rd rs1 rs2) s rd (a * b)
  ∧ WritesRd (.mulh rd rs1 rs2) s rd (BitVec.ofInt 64 (a.toInt * b.toInt / 2 ^ 64))
  ∧ WritesRd (.mulhsu rd rs1 rs2) s rd (BitVec.ofInt 64 (a.toInt * (b.toNat : Int) / 2 ^ 64))
  ∧ WritesRd (.mulhu rd rs1 rs2) s rd (BitVec.ofNat 64 (a.toNat * b.toNat / 2 ^ 64))
  ∧ WritesRd (.mulw rd rs1 rs2) s rd ((a * b).setWidth 32 |>.signExtend 64)
  ∧ (b ≠ 0 →
      WritesRd (.div rd rs1 rs2) s rd (BitVec.ofInt 64 (a.toInt.tdiv b.toInt))
      ∧ WritesRd (.divu rd rs1 rs2) s rd (BitVec.ofNat 64 (a.toNat / b.toNat))
      ∧ WritesRd (.rem rd rs1 rs2) s rd (BitVec.ofInt 64 (a.toInt.tmod b.toInt))
      ∧ WritesRd (.remu rd rs1 rs2) s rd (BitVec.ofNat 64 (a.toNat % b.toNat)))
  ∧ (b32 ≠ 0 →
      WritesRd (.divw rd rs1 rs2) s rd ((BitVec.ofInt 32 (a32.toInt.tdiv b32.toInt)).signExtend 64)
      ∧ WritesRd (.divuw rd rs1 rs2) s rd ((BitVec.ofNat 32 (a32.toNat / b32.toNat)).signExtend 64)
      ∧ WritesRd (.remw rd rs1 rs2) s rd ((BitVec.ofInt 32 (a32.toInt.tmod b32.toInt)).signExtend 64)
      ∧ WritesRd (.remuw rd rs1 rs2) s rd ((BitVec.ofNat 32 (a32.toNat % b32.toNat)).signExtend 64))

/-- R63: division by zero and signed overflow, with no trap and no flag. -/
def Obligations.DivisionCorners : Prop := ∀ (s : State) (rd rs1 rs2 : Reg),
  let a := s.x rs1
  let b := s.x rs2
  let a32 := a.setWidth 32
  let b32 := b.setWidth 32
  (b = 0 →
      WritesRd (.div rd rs1 rs2) s rd 0xFFFFFFFFFFFFFFFF ∧ WritesRd (.divu rd rs1 rs2) s rd 0xFFFFFFFFFFFFFFFF
      ∧ WritesRd (.rem rd rs1 rs2) s rd a ∧ WritesRd (.remu rd rs1 rs2) s rd a)
  ∧ (a = 0x8000000000000000 → b = 0xFFFFFFFFFFFFFFFF →
      WritesRd (.div rd rs1 rs2) s rd 0x8000000000000000 ∧ WritesRd (.rem rd rs1 rs2) s rd 0)
  ∧ (b32 = 0 →
      WritesRd (.divw rd rs1 rs2) s rd 0xFFFFFFFFFFFFFFFF ∧ WritesRd (.divuw rd rs1 rs2) s rd 0xFFFFFFFFFFFFFFFF
      ∧ WritesRd (.remw rd rs1 rs2) s rd (a32.signExtend 64) ∧ WritesRd (.remuw rd rs1 rs2) s rd (a32.signExtend 64))
  ∧ (a32 = 0x80000000 → b32 = 0xFFFFFFFF →
      WritesRd (.divw rd rs1 rs2) s rd 0xFFFFFFFF80000000 ∧ WritesRd (.remw rd rs1 rs2) s rd 0)

/-- Table 04-5: a branch that is taken goes to pc + B-imm and one that is not falls through; `jal` and `jalr` go to their
target and leave pc + 4 in x[rd]. R65: a taken transfer traps at the transfer instruction, with its target in xtval: cause 1
when any of bits [63:57] is set, else cause 0 when bit 1 is set. -/
def Obligations.ControlTransfer : Prop := ∀ (s : State) (rd rs1 rs2 : Reg) (imm : BitVec 12) (imm20 : BitVec 20),
  let a := s.x rs1
  let b := s.x rs2
  let bt := s.hart.pc + (imm ++ 0#1).signExtend 64
  let jt := s.hart.pc + (imm20 ++ 0#1).signExtend 64
  let rt := (a + imm.signExtend 64) &&& 0xFFFFFFFFFFFFFFFE
  (∀ c : Bool, ∀ i : Instr,
      (i, c) ∈ [(Instr.beq rs1 rs2 imm, decide (a = b)), (.bne rs1 rs2 imm, decide (a ≠ b)), (.blt rs1 rs2 imm, decide (a.toInt < b.toInt)),
        (.bge rs1 rs2 imm, decide (b.toInt ≤ a.toInt)), (.bltu rs1 rs2 imm, decide (a.toNat < b.toNat)),
        (.bgeu rs1 rs2 imm, decide (b.toNat ≤ a.toNat))] →
      (c = false → JustRetires i s) ∧ (c = true → GoodTarget bt → JumpsTo i s 0 0 (pcOf bt)))
  ∧ (GoodTarget jt → JumpsTo (.jal rd imm20) s rd (s.hart.pc + 4) (pcOf jt))
  ∧ (GoodTarget rt → JumpsTo (.jalr rd rs1 imm) s rd (s.hart.pc + 4) (pcOf rt))
  ∧ ∀ (i : Instr) (c : Bool) (t : Word),
    (i, c, t) ∈ [(Instr.beq rs1 rs2 imm, decide (a = b), bt), (.bne rs1 rs2 imm, decide (a ≠ b), bt),
      (.blt rs1 rs2 imm, decide (a.toInt < b.toInt), bt), (.bge rs1 rs2 imm, decide (b.toInt ≤ a.toInt), bt),
      (.bltu rs1 rs2 imm, decide (a.toNat < b.toNat), bt), (.bgeu rs1 rs2 imm, decide (b.toNat ≤ a.toNat), bt),
      (.jal rd imm20, true, jt), (.jalr rd rs1 imm, true, rt)] →
    (c = true → t.extractLsb' 57 7 ≠ 0 → Traps i s 1 t)
    ∧ (c = true → t.extractLsb' 57 7 = 0 → t.getLsbD 1 = true → Traps i s 0 t)

/-! ### Loads and stores -/

/-- R66, Table 04-6: a load whose checks pass and that lies in this device's memory completes with the bytes its hart sees, and changes
nothing but x[rd] and what translation caches; that it may be performed once more behind later stores is the model's choice (log 4). A
load of another device's memory or of the blanket waits for its value (R383), and has it when it arrives; a load of a register reads it,
and one behind a root port waits for the port's completion (R388). -/
def Obligations.LoadsComplete : Prop :=
  (∀ (s u : State) (p : Place) (rd rs1 : Reg) (imm : BitVec 12) (i : Instr) (n : Nat) (signed : Bool),
    (i, n, signed) ∈ [(Instr.lb rd rs1 imm, 1, true), (.lh rd rs1 imm, 2, true), (.lw rd rs1 imm, 4, true), (.ld rd rs1 imm, 8, true),
      (.lbu rd rs1 imm, 1, false), (.lhu rd rs1 imm, 2, false), (.lwu rd rs1 imm, 4, false)] →
    let a := s.x rs1 + imm.signExtend 64
    check s .load a n false = (u, .ok p) →
    OnlyTlb s u
    ∧ (p.mmio = false → p.isFar = false → ∃ t w, exec i s = .next t ∧ HartRetired u t rd w ∧ SameDevice u t
        ∧ t.hart.pending = s.hart.pending ∧ (PlainPlace p → w = valueSeen s p.key n signed))
    ∧ (p.mmio = false → p.isFar = true → exec i s = u.block (.remote rd p n signed none))
    ∧ (p.mmio = true → u.rootPort p.key = none →
        ∃ t, exec i s = .next t ∧ WroteRd u t rd (let w := (u.readRegister s.hart.mode s.hid p.key).setWidth (8 * n)
          if signed then w.signExtend 64 else w.setWidth 64))
    ∧ (p.mmio = true → u.rootPort p.key ≠ none → exec i s = u.block (.pcie rd a n signed)))
  ∧ (∀ (s : State) (p : Place) (rd : Reg) (n : Nat) (signed : Bool), n ∈ [1, 2, 4, 8] →
    s.hart.blocked = some (.remote rd p n signed none) → s.reaches p = true → PlainPlace p →
    let t := s.remoteArrival s.hid
    t.x rd = (if rd = 0 then 0 else valueSeen s p.key n signed) ∧ (∀ r, r ≠ rd → t.x r = s.x r)
    ∧ t.hart.blocked = none ∧ Retired s.hart t.hart 0 ∧ t.mem = s.mem)

/-- R66: a store whose checks pass completes; the hart sees its bytes at the place and every other byte as before. A weak store
to an uncompressed page of the device's own memory changes no byte at the point of coherence yet, nor does one to a cell that is being
purged (R197); one to another device, or one that corrects a whole ECC word, is performed at once (the model's choice within R159,
log 28). A store to a register writes it. -/
def Obligations.StoresComplete : Prop := ∀ (s u : State) (p : Place) (rs1 rs2 : Reg) (imm : BitVec 12) (i : Instr) (n : Nat),
  (i, n) ∈ [(Instr.sb rs1 rs2 imm, 1), (.sh rs1 rs2 imm, 2), (.sw rs1 rs2 imm, 4), (.sd rs1 rs2 imm, 8)] →
  check s .store (s.x rs1 + imm.signExtend 64) n false = (u, .ok p) →
  OnlyTlb s u
  ∧ (p.mmio = false → ∃ t, exec i s = .next t ∧ MemRetired s t 0 0
      ∧ (p.window = false → pteKind p.pte ≠ 3 → pteCmp p.pte = 0 →
          let now := (isRemote p.key || coversBad s.poison p.key n) && !s.heldRange p.key n
          (now = false → t.mem = s.mem ∧ SeesStore s t p.key n (s.x rs2))
          ∧ (now = true → Memory.wf s.mem = true → Memory.wf t.mem = true ∧ SeesStore s t p.key n (s.x rs2)
              ∧ ∀ b, p.key ≤ b → b < p.key + n → Memory.get t.mem b = byteOf (s.x rs2) (b - p.key)))
      ∧ (p.window = true → Memory.wf s.mem = true → Memory.wf t.mem = true ∧ Wrote s t p.key n (s.x rs2)))
  ∧ (p.mmio = true → exec i s
      = .next (u.writeRegister (.hart s.hart.mode s.hid) p.key n (((s.x rs2).setWidth (8 * n)).setWidth 64)).advance)

/-- R67, Table 04-7: a load or a store takes the cause of the first check that fails, with the address in xtval, and has no other
effect. For an M-mode access outside the window order 1 is the address and PMP, then alignment, then the sizes of the MMIO range,
then uncorrectable data. -/
def Obligations.AccessChecks : Prop :=
  (∀ (s u : State) (c : Nat) (rd rs1 rs2 : Reg) (imm : BitVec 12),
    let a := s.x rs1 + imm.signExtend 64
    (∀ i n, (i, n) ∈ [(Instr.lb rd rs1 imm, 1), (.lh rd rs1 imm, 2), (.lw rd rs1 imm, 4), (.ld rd rs1 imm, 8), (.lbu rd rs1 imm, 1),
        (.lhu rd rs1 imm, 2), (.lwu rd rs1 imm, 4)] →
      check s .load a n false = (u, .error c) → OnlyTlb s u ∧ exec i s = .next (u.trap c a))
    ∧ (∀ i n, (i, n) ∈ [(Instr.sb rs1 rs2 imm, 1), (.sh rs1 rs2 imm, 2), (.sw rs1 rs2 imm, 4), (.sd rs1 rs2 imm, 8)] →
      check s .store a n false = (u, .error c) → OnlyTlb s u ∧ exec i s = .next (u.trap c a)))
  ∧ (∀ (s : State) (a : Word) (n : Nat) (k : Acc), s.hart.mode = .m → s.hart.party = none → (k = .load ∨ k = .store ∨ k = .amo) →
    let r := check s k a n false
    let need : Need := if k = .load then .read else .write
    let fault := if k = .load then 5 else 7
    r.1 = s
    ∧ ((2 ^ 48 ≤ a.toNat ∨ pmpOk s.hart.csr.pmp .m a.toNat n need = false ∨ s.named a.toNat = false) → r.2 = .error fault)
    ∧ (a.toNat < 2 ^ 48 → pmpOk s.hart.csr.pmp .m a.toNat n need = true → s.named a.toNat = true →
        (a.toNat % n ≠ 0 → r.2 = .error (if k = .load then 4 else 6))
        ∧ (a.toNat % n = 0 → inMmio a.toNat = true → (k = .amo ∨ n = 1 ∨ n = 2 ∨ (n = 4 ∧ mmioWide a.toNat = true)) → r.2 = .error fault)
        ∧ (a.toNat % n = 0 → inMmio a.toNat = true → k ≠ .amo → (n = 8 ∨ (n = 4 ∧ mmioWide a.toNat = false)) →
            ∃ p, r.2 = .ok p ∧ p.mmio = true ∧ p.key = a.toNat)
        ∧ (a.toNat % n = 0 → inLocalHbm s a.toNat = true → s.poison = [] →
            ∃ p, r.2 = .ok p ∧ p.mmio = false ∧ p.window = false ∧ p.key = a.toNat ∧ p.pte = 0 ∧ p.meta_ = none)))

/-! ### Strong accesses and AMOs -/

/-- R157, R173: a strong load reads the value at the place's home for its scope (Table 08-1) and a strong store writes it there, after
the hart's own pending stores to that line; both wait while a SHIP of the hart is not yet performed (R324), a load of remote memory for
its value (R175), and a store to a cell being purged for the purge (R197). After the access the hart sees the doublewords it met as they
are at home (R158), and every other byte as before. -/
def Obligations.StrongAccesses : Prop := ∀ (s u : State) (p : Place) (rd rs1 rs2 : Reg) (imm : BitVec 10) (sc : Scope),
  let a := s.x rs1 + imm.signExtend 64
  let near := nearScope sc
  let home := s.atAgent near p
  (∀ i n, (i, n) ∈ [(Instr.ldS rd rs1 imm sc, 8), (.lwS rd rs1 imm sc, 4)] → check s .strongLoad a n false = (u, .ok p) →
    (u.shipsOut = true → exec i s = u.block .ships)
    ∧ (u.shipsOut = false → p.isFar = true → exec i s = u.block (.remote rd p n true (some near)))
    ∧ (u.shipsOut = false → p.isFar = false → ∃ t w, exec i s = .next t ∧ MemRetired s t rd w
        ∧ (Memory.wf s.mem = true → PlainPlace p → p.window = true →
            w = (BitVec.ofNat (8 * n) (valueLocal s p.key n)).signExtend 64 ∧ t.mem = s.mem ∧ ∀ b, byteSeen t b = byteSeen s b)
        ∧ (Memory.wf s.mem = true → PlainPlace p → p.window = false → Unheld s p.key n →
            w = (BitVec.ofNat (8 * n) (valueHome s home p.key n)).signExtend 64 ∧ Memory.wf t.mem = true
            ∧ ∀ b, byteSeen t b = if NearBytes p.key n b then homeByte s home b else byteSeen s b)))
  ∧ (∀ i n, (i, n) ∈ [(Instr.sdS rs1 rs2 imm sc, 8), (.swS rs1 rs2 imm sc, 4)] → check s .strongStore a n false = (u, .ok p) →
    (u.shipsOut = true → exec i s = u.block .ships)
    ∧ (u.shipsOut = false → ∀ c, u.heldCell? p = some c → exec i s = u.block (.purge c))
    ∧ (u.shipsOut = false → u.heldCell? p = none → ∃ t, exec i s = .next t ∧ MemRetired s t 0 0
        ∧ (Memory.wf s.mem = true → PlainPlace p → p.window = true → Memory.wf t.mem = true ∧ Wrote s t p.key n (s.x rs2))
        ∧ (Memory.wf s.mem = true → PlainPlace p → p.window = false → Unheld s p.key n →
            Memory.wf t.mem = true ∧ SeesStrong s t home p.key n (s.x rs2)
            ∧ ∀ b, p.key ≤ b → b < p.key + n → homeByte t home b = byteOf (s.x rs2) (b - p.key)
              ∧ (home = false → Memory.get t.mem b = byteOf (s.x rs2) (b - p.key)))))

/-- R69, R70, Table 04-8: an AMO whose checks pass reads the old value into x[rd], sign-extended, and writes op of it and of x[rs2]
at its home for the scope in SCOPE, under every aq and rl; only under rl can it meet the lost store of R384. Under aq an open follows, so
that the hart sees every byte as it is at home (R161). -/
def Obligations.AtomicOperations : Prop := ∀ (s u : State) (p : Place) (rd rs1 rs2 : Reg) (aq rl : Bool),
  let near := s.scopeNear
  let home := s.atAgent near p
  let done (i : Instr) (n : Nat) (op : BitVec (8 * n) → BitVec (8 * n) → BitVec (8 * n)) : Prop :=
    check s .amo (s.x rs1) n false = (u, .ok p) →
    (u.shipsOut = true → exec i s = u.block .ships)
    ∧ (u.shipsOut = false → ∀ c, u.heldCell? p = some c → exec i s = u.block (.purge c))
    ∧ (u.shipsOut = false → u.heldCell? p = none → rl = true → s.hart.lostStore = true →
        exec i s = .next (({ u with hart := { u.hart with lostStore := false } } : State).trap 7 0))
    ∧ (u.shipsOut = false → u.heldCell? p = none → (rl = true → MayPublish s) → ∃ t w, exec i s = .next t ∧ MemRetired s t rd w
        ∧ (Memory.wf s.mem = true → PlainPlace p → p.window = true →
            let v := if rl then u.publishAt near else u
            let old := BitVec.ofNat (8 * n) (valueLocal v p.key n)
            w = old.signExtend 64 ∧ Memory.wf t.mem = true ∧ Wrote v t p.key n ((op old ((s.x rs2).setWidth (8 * n))).setWidth 64))
        ∧ (Memory.wf s.mem = true → PlainPlace p → p.window = false → Unheld s p.key n →
            let old := BitVec.ofNat (8 * n) (valueHome s home p.key n)
            let new := ((op old ((s.x rs2).setWidth (8 * n))).setWidth 64 : Word)
            w = old.signExtend 64 ∧ Memory.wf t.mem = true
            ∧ (∀ b, byteSeen t b = if p.key ≤ b ∧ b < p.key + n then byteOf new (b - p.key)
                else if aq = true ∨ NearBytes p.key n b then homeByte s near b else byteSeen s b)
            ∧ (∀ b, p.key ≤ b → b < p.key + n → homeByte t home b = byteOf new (b - p.key)
                ∧ (home = false → Memory.get t.mem b = byteOf new (b - p.key)))
            ∧ (rl = true → t.hart.pending = [])))
  done (.amoswapW rd rs1 rs2 aq rl) 4 (fun _ b => b)
  ∧ done (.amoaddW rd rs1 rs2 aq rl) 4 (fun t b => t + b)
  ∧ done (.amoxorW rd rs1 rs2 aq rl) 4 (fun t b => t ^^^ b)
  ∧ done (.amoandW rd rs1 rs2 aq rl) 4 (fun t b => t &&& b)
  ∧ done (.amoorW rd rs1 rs2 aq rl) 4 (fun t b => t ||| b)
  ∧ done (.amominW rd rs1 rs2 aq rl) 4 (fun t b => if b.toInt < t.toInt then b else t)
  ∧ done (.amomaxW rd rs1 rs2 aq rl) 4 (fun t b => if t.toInt < b.toInt then b else t)
  ∧ done (.amominuW rd rs1 rs2 aq rl) 4 (fun t b => if b.toNat < t.toNat then b else t)
  ∧ done (.amomaxuW rd rs1 rs2 aq rl) 4 (fun t b => if t.toNat < b.toNat then b else t)
  ∧ done (.amoswapD rd rs1 rs2 aq rl) 8 (fun _ b => b)
  ∧ done (.amoaddD rd rs1 rs2 aq rl) 8 (fun t b => t + b)
  ∧ done (.amoxorD rd rs1 rs2 aq rl) 8 (fun t b => t ^^^ b)
  ∧ done (.amoandD rd rs1 rs2 aq rl) 8 (fun t b => t &&& b)
  ∧ done (.amoorD rd rs1 rs2 aq rl) 8 (fun t b => t ||| b)
  ∧ done (.amominD rd rs1 rs2 aq rl) 8 (fun t b => if b.toInt < t.toInt then b else t)
  ∧ done (.amomaxD rd rs1 rs2 aq rl) 8 (fun t b => if t.toInt < b.toInt then b else t)
  ∧ done (.amominuD rd rs1 rs2 aq rl) 8 (fun t b => if b.toNat < t.toNat then b else t)
  ∧ done (.amomaxuD rd rs1 rs2 aq rl) 8 (fun t b => if t.toNat < b.toNat then b else t)

/-! ### CSRs, fences, calls, returns, traps -/

/-- R33, R71, Table 04-9: a CSR instruction that R33 allows completes; x[rd] receives the old value, and the value of
Table 04-9 is written, with no write for a zero source of the set and clear forms. -/
def Obligations.CsrInstructions : Prop := ∀ (s : State) (rd rs1 : Reg) (csr : BitVec 12) (z : BitVec 5) (n : CsrName),
  csrName csr = some n → csr.extractLsb' 8 2 ≤ BitVec.ofNat 2 (modeLevel s.hart.mode) →
  let u := csrReady s csr
  let old := u.csrGet n
  let done (i : Instr) (new : Option Word) : Prop :=
    (new ≠ none → ¬ readOnlyTo csr s.hart.mode) →
    ∃ t, exec i s = .next t ∧ WroteRd (match new with
      | some w => u.csrSet n w
      | none => u) t rd old
  done (.csrrw rd csr rs1) (some (s.x rs1))
  ∧ done (.csrrs rd csr rs1) (if rs1 = 0 then none else some (old ||| s.x rs1))
  ∧ done (.csrrc rd csr rs1) (if rs1 = 0 then none else some (old &&& ~~~(s.x rs1)))
  ∧ done (.csrrwi rd csr z) (some (z.setWidth 64))
  ∧ done (.csrrsi rd csr z) (if z = 0 then none else some (old ||| z.setWidth 64))
  ∧ done (.csrrci rd csr z) (if z = 0 then none else some (old &&& ~~~(z.setWidth 64)))

/-- R33: an access to an absent number, an access from a mode below the CSR's privilege, and a write of a read-only CSR each
raise an illegal-instruction trap and change nothing; a write to a read-only field of a writable CSR is ignored. -/
def Obligations.CsrAccessRules : Prop :=
  (∀ (s : State) (rd rs1 : Reg) (csr : BitVec 12) (z : BitVec 5),
    let low := ¬ csr.extractLsb' 8 2 ≤ BitVec.ofNat 2 (modeLevel s.hart.mode)
    let ro := readOnlyTo csr s.hart.mode
    (csr.toNat ∉ csrNumbers ∨ low →
      IllegalHere (.csrrw rd csr rs1) s ∧ IllegalHere (.csrrs rd csr rs1) s ∧ IllegalHere (.csrrc rd csr rs1) s
      ∧ IllegalHere (.csrrwi rd csr z) s ∧ IllegalHere (.csrrsi rd csr z) s ∧ IllegalHere (.csrrci rd csr z) s)
    ∧ (ro →
      IllegalHere (.csrrw rd csr rs1) s ∧ IllegalHere (.csrrwi rd csr z) s
      ∧ (rs1 ≠ 0 → IllegalHere (.csrrs rd csr rs1) s ∧ IllegalHere (.csrrc rd csr rs1) s)
      ∧ (z ≠ 0 → IllegalHere (.csrrsi rd csr z) s ∧ IllegalHere (.csrrci rd csr z) s)))
  ∧ (∀ csr : BitVec 12, csr.toNat ∈ csrNumbers ↔ (csrName csr).isSome = true)
  ∧ 0x180 ∉ csrNumbers ∧ 0x3A1 ∉ csrNumbers ∧ 0x3A3 ∉ csrNumbers
  ∧ (∀ (s : State) (w : Word), s.csrSet .encl w = s ∧ s.csrSet .mstat w = s ∧ s.csrSet .monitor w = s)
  ∧ (∀ (s : State) (w : Word), w.getLsbD 16 = false →
      ((s.csrSet .rkctl w).csrGet .rkctl).getLsbD 17 = (s.csrGet .rkctl).getLsbD 17)
  ∧ (∀ (s : State) (rd rs1 : Reg) (csr : BitVec 12) (z : BitVec 5), s.hart.mode = .m → csr.toNat / 16 = 0x7C →
      ∀ i ∈ [Instr.csrrw rd csr rs1, .csrrs rd csr rs1, .csrrc rd csr rs1, .csrrwi rd csr z, .csrrsi rd csr z, .csrrci rd csr z],
        ∃ t, exec i s = .next t ∧ t.hart.mode = .m ∧ t.hart.csr.instret = s.hart.csr.instret + 1)
  ∧ (∀ (s : State) (w : Word), (s.csrSet .repstate w).hart.csr.repstate.getLsbD 63 = s.hart.csr.repstate.getLsbD 63)

/-- Tables 02-3, 02-4, 02-7 and 21-2, 21-3: what a CSR reads after a write of `w`: the writable fields as written, the fixed
fields as they read, and every other CSR of the hart as before. -/
def Obligations.CsrFields : Prop := ∀ (s : State) (w : Word),
  (∀ n : CsrName, n ∈ [CsrName.mscratch, .mtval, .stval, .sscratch, .stimecmp, .mtimecmp, .vmask, .uaddr] → (s.csrSet n w).csrGet n = w)
  ∧ (∀ n : CsrName, n ∈ [CsrName.mepc, .sepc, .uepc, .uvec] → (s.csrSet n w).csrGet n = w &&& 0x01FFFFFFFFFFFFFC)
  ∧ (s.csrSet .vflags w).csrGet .vflags = w &&& 0x3F
  ∧ (s.csrSet .scope w).csrGet .scope = w &&& 3
  ∧ (s.csrSet .qdelta w).csrGet .qdelta = w &&& 0xFF
  ∧ (s.csrSet .ctxid w).csrGet .ctxid = w &&& 0xFFFF
  ∧ (s.csrSet .meterSel w).csrGet .meterSel = w &&& 0xFFFF
  ∧ (s.csrSet .ptroot w).csrGet .ptroot = w &&& 0xFFFFFFFFFFFFF000
  ∧ (s.csrSet .mie w).csrGet .mie = w &&& 0x30AAA
  ∧ (s.csrSet .sie w).csrGet .sie = w &&& 0x30222
  ∧ (s.csrSet .sie w).csrGet .mie = (s.csrGet .mie &&& ~~~0x30222#64) ||| (w &&& 0x30222)
  ∧ (∀ b, b ∉ [2, 3, 24, 25, 26, 27, 28, 33, 35, 37, 38] → ((s.csrSet .udeleg w).csrGet .udeleg).getLsbD b = false)
  ∧ (∀ b, b ∈ [2, 3, 24, 25, 26, 27, 28, 33, 35, 37, 38] → ((s.csrSet .udeleg w).csrGet .udeleg).getLsbD b = w.getLsbD b)
  ∧ ((w.extractLsb' 2 3).toNat < 5 → (s.csrSet .vmode w).csrGet .vmode &&& 0x7F = w &&& 0x7F)
  ∧ (5 ≤ (w.extractLsb' 2 3).toNat → ((s.csrSet .vmode w).csrGet .vmode).extractLsb' 2 3 = (s.csrGet .vmode).extractLsb' 2 3
      ∧ (s.csrSet .vmode w).csrGet .vmode &&& 0x63 = w &&& 0x63)
  ∧ (2 ≤ (w.extractLsb' 0 2).toNat → (s.csrSet .stvec w).csrGet .stvec = (w &&& ~~~3#64) ||| (s.csrGet .stvec &&& 3))
  ∧ ((w.extractLsb' 0 2).toNat < 2 → (s.csrSet .stvec w).csrGet .stvec = w)
  ∧ (∀ n : CsrName, n ∈ [CsrName.mscratch, .vmode, .vflags, .vmask, .scope, .ptroot, .uvec, .sepc, .mepc] →
      ∀ m : CsrName, m ∈ [CsrName.mscratch, .vmode, .vflags, .vmask, .scope, .ptroot, .uvec, .sepc, .mepc, .mstatus, .sstatus, .mie, .mip] →
        m ≠ n → (s.csrSet n w).csrGet m = s.csrGet m)

/-- R73: `fence` is `phase.co device`, whatever its fields: Publish of the hart's stores and then Open, after which the hart sees
every byte as it is at home. It waits for no engine
command, and raises no trap but the store access fault of R384. -/
def Obligations.FenceIsPhase : Prop :=
  decodeWord 0x0FF0000F#32 = .ok (.fence 0 15 15 0 0)
  ∧ ∀ (s : State) (fm pred succ : BitVec 4) (rs1 rd : Reg),
    exec (.fence fm pred succ rs1 rd) s = exec (.phaseCo .device) s
    ∧ (MayPublish s → ∃ t, exec (.fence fm pred succ rs1 rd) s = .next t ∧ MemRetired s t 0 0 ∧ t.hart.pending = []
        ∧ t.engines = s.engines ∧ (Memory.wf s.mem = true → Memory.wf t.mem = true ∧ ∀ a, byteSeen t a = homeByte s false a))
    ∧ (s.hart.lostStore = true →
        exec (.fence fm pred succ rs1 rd) s = .next (({ s with hart := { s.hart with lostStore := false } } : State).trap 7 0))

/-- R74, R160 to R163: the phase instructions of every scope complete. A close performs the hart's pending stores at their home, the
group agent at core and group scope; at device and system scope the agent also writes back to the site what the hart stored or acquired;
it changes nothing that the hart sees. An open discards older copies, so that the hart sees every byte as it is at the home of the scope.
A close waits where a store is held at a cell being purged (R197). `fence.i` lets the hart's own stores leave for the agent, empties its
fetch buffer and the core's instruction-cache lines of its context, and opens no phase (log 5). -/
def Obligations.Phases : Prop := ∀ (s : State) (sc : Scope),
  let near := nearScope sc
  (∃ t, exec (.phaseO sc) s = .next t ∧ MemRetired s t 0 0 ∧ t.hart.pending = s.hart.pending ∧ t.mem = s.mem
    ∧ { t with hart := s.hart, stale := s.stale, lines := s.lines } = s ∧ ∀ a, byteSeen t a = homeByte s near a)
  ∧ (∀ i ∈ [Instr.phaseC sc, .phaseCo sc],
    (s.hart.lostStore = true → exec i s = .next (({ s with hart := { s.hart with lostStore := false } } : State).trap 7 0))
    ∧ (s.hart.lostStore = false → ∀ c, s.publishHeld = some c →
        exec i s = .next { s with hart := { s.hart with blocked := some (.purge c) } })
    ∧ (MayPublish s → ∃ t, exec i s = .next t ∧ MemRetired s t 0 0 ∧ t.hart.pending = []
        ∧ (Memory.wf s.mem = true → Memory.wf t.mem = true
          ∧ (∀ a, byteSeen t a = if i = .phaseC sc then byteSeen s a else homeByte s near a)
          ∧ (∀ a, homeByte t near a = homeByte s near a)
          ∧ ∀ a, near = false →
              (s.hart.pending.any (fun c => c.1 == a) = true ∨ ∃ k, agentOf s.hid = some k ∧ s.owes k s.hid (a / 64) = true) →
              Memory.get t.mem a = homeByte s false a)))
  ∧ (∃ t, exec .fenceI s = .next t ∧ MemRetired { s with hart := { s.hart with fetch := [] } } t 0 0
    ∧ t.hart.fetch = [] ∧ t.hart.pending = s.hart.pending.filter (fun c => s.heldByte c.1)
    ∧ OnlyMemory s { t with hart := s.hart, cores := s.cores } ∧ (Memory.wf s.mem = true → ∀ a, byteSeen t a = byteSeen s a)
    ∧ (t.core (coreOf s.hid)).icache
      = (s.core (coreOf s.hid)).icache.filter (fun l => l.1 != ctxOf s.hart.csr.ptroot)
    ∧ ∀ c, { t.core c with icache := (s.core c).icache } = s.core c)

/-- R48, R75, Table 04-10: `ecall` traps with cause 8, 9 or 11 and xtval 0, `ebreak` with cause 3 and xtval = pc, in every mode;
`sret` is legal in S- and M-mode, `mret` in M-mode and `upret` in U-mode only; a word that names no instruction takes cause 2 with the
word in xtval. -/
def Obligations.CallsAndIllegalWords : Prop := ∀ (s : State) (w : BitVec 32),
  (s.hart.mode = .u → Traps .ecall s 8 0) ∧ (s.hart.mode = .s → Traps .ecall s 9 0) ∧ (s.hart.mode = .m → Traps .ecall s 11 0)
  ∧ Traps .ebreak s 3 s.hart.pc
  ∧ (s.hart.mode = .u → IllegalHere .sret s) ∧ (s.hart.mode ≠ .m → IllegalHere .mret s) ∧ (s.hart.mode ≠ .u → IllegalHere .upret s)
  ∧ Traps (.illegalInstruction w) s 2 (w.setWidth 64)

/-- R37, R341: a return completes. The pc is the saved one, REPSTATE.ACTIVE comes back from REP_PENDING, which is cleared, and
`sret` and `mret` restore the mode and the interrupt enable; nothing else changes. -/
def Obligations.TrapReturns : Prop := ∀ s : State,
  let keep (t : State) (cause : Word) : Prop :=
    BitWritten s.hart.csr.repstate t.hart.csr.repstate 63 (cause.getLsbD 62) ∧ t.hart.csr.instret = s.hart.csr.instret + 1
    ∧ SameVectors s.hart t.hart ∧ t.hart.x = s.hart.x ∧ SameDevice s t
    ∧ SameShell { s.hart with mode := t.hart.mode } t.hart
  (s.hart.mode = .m → ∃ t, exec .mret s = .next t ∧ keep t s.hart.csr.mcause ∧ t.hart.pc = pcOf s.hart.csr.mepc
    ∧ modeLevel t.hart.mode = (if s.hart.csr.mstatus.extractLsb' 11 2 = 3 then 3 else if s.hart.csr.mstatus.extractLsb' 11 2 = 1 then 1 else 0)
    ∧ BitWritten s.hart.csr.mcause t.hart.csr.mcause 62 false ∧ LeavesStatus s.hart.csr.mstatus t.hart.csr.mstatus true
    ∧ { t.hart.csr with
        repstate := s.hart.csr.repstate, instret := s.hart.csr.instret, mcause := s.hart.csr.mcause,
        mstatus := s.hart.csr.mstatus } = s.hart.csr)
  ∧ (s.hart.mode ≠ .u → ∃ t, exec .sret s = .next t ∧ keep t s.hart.csr.scause ∧ t.hart.pc = pcOf s.hart.csr.sepc
    ∧ t.hart.mode = (if s.hart.csr.mstatus.getLsbD 8 then .s else .u)
    ∧ BitWritten s.hart.csr.scause t.hart.csr.scause 62 false ∧ LeavesStatus s.hart.csr.mstatus t.hart.csr.mstatus false
    ∧ { t.hart.csr with
        repstate := s.hart.csr.repstate, instret := s.hart.csr.instret, scause := s.hart.csr.scause,
        mstatus := s.hart.csr.mstatus } = s.hart.csr)
  ∧ (s.hart.mode = .u → ∃ t, exec .upret s = .next t ∧ keep t s.hart.csr.ucause ∧ t.hart.pc = pcOf s.hart.csr.uepc
    ∧ t.hart.mode = .u ∧ BitWritten s.hart.csr.ucause t.hart.csr.ucause 62 false
    ∧ { t.hart.csr with
        repstate := s.hart.csr.repstate, instret := s.hart.csr.instret, ucause := s.hart.csr.ucause } = s.hart.csr)

/-- R337: where a trap goes. From M to M; causes 9, 11 and 36 to M from every mode; any other exception of S-mode to S; of U-mode
the page faults to U as upcalls when UVEC is nonzero and KFAULTQ names a queue, any other when UDELEG delegates it and UVEC is
nonzero, else S. A trap never targets a mode below the mode it is taken in. -/
def Obligations.TrapDelegation : Prop := ∀ (s : State) (c : Nat) (v : Word),
  let t := s.trap c v
  let v' := if c = 36 then 8 else v
  let up := (c ∈ [12, 13, 15] ∧ s.hart.csr.uvec ≠ 0 ∧ ringNamed s.hart.csr.kfaultq = true)
    ∨ (c ∉ [12, 13, 15] ∧ s.hart.csr.udeleg.getLsbD c = true ∧ s.hart.csr.uvec ≠ 0)
  (s.hart.mode = .m ∨ c ∈ [9, 11, 36] → HasVector s true → EnteredM s t false c v')
  ∧ (c ∉ [9, 11, 36] → (s.hart.mode = .s ∨ (s.hart.mode = .u ∧ ¬ up)) → HasVector s false → EnteredS s t false c v')
  ∧ (c ∉ [9, 11, 36] → s.hart.mode = .u → up →
      EnteredU s t c (if c ∈ [12, 13, 15] then assocGet s.faultTags 1 (s.hart.csr.ctxid.extractLsb' 0 16).toNat else 0) v')

/-- R350: a trap for which a compute-core hart has no vector is unhandled: its party is killed, which frees all it holds; a hart
outside any party becomes idle (the model's choice, log 8). -/
def Obligations.UnhandledTraps : Prop := ∀ (s : State) (c : Nat) (v : Word),
  ((c ∉ [9, 11, 36] ∧ s.hart.mode = .s ∧ ¬ HasVector s false) ∨ ((s.hart.mode = .m ∨ c ∈ [9, 11, 36]) ∧ ¬ HasVector s true)) →
  let t := s.trap c v
  (s.hart.party = none → t.hart.running = false ∧ t.hart.x = Hart.reset.x ∧ t.hart.csr.mepc = 0)
  ∧ (∀ id p, s.hart.party = some id → s.party? id = some p →
      (p.state ≠ .saving → p.state ≠ .restoring → t.party? id = none)
      ∧ (p.state = .saving ∨ p.state = .restoring → ∃ q, t.party? id = some q ∧ q.doomed = true))

/-- R338: the interrupt taken is the takeable one that comes first in the order 11, 3, 7, 9, 1, 5, 17, 16; it enters M or S by its
target with xtval 0, or the queue index for INBOX; with none takeable nothing is taken; and a takeable interrupt is taken before
the next instruction executes. A hart whose operation is under way at its home (R195, R388), or that stands in the exchange of a paired
context (R179, R425), takes none before that completes. -/
def Obligations.InterruptEntry : Prop := ∀ s : State, (Committed s.hart ∨ s.inExchange s.hart = true → exec .interruptEntry s = .next s) ∧
  (¬ Committed s.hart → s.inExchange s.hart = false →
  (∀ pre n post, [11, 3, 7, 9, 1, 5, 17, 16] = pre ++ n :: post → Takeable s n → (∀ k ∈ pre, ¬ Takeable s k) →
    HasVector s (decide (n ∈ [3, 7, 11])) →
    let v : Word := if n = 16 then BitVec.ofNat 64 (s.hid % 4) else 0
    (∃ t, exec .interruptEntry s = .next t ∧ (n ∈ [3, 7, 11] → EnteredM s t true n v) ∧ (n ∉ [3, 7, 11] → EnteredS s t true n v))
    ∧ (s.hart.trapDue = none → s.hart.blocked ≠ some .interrupt → runHart s = exec .interruptEntry s.noLate))
  ∧ ((∀ n, ¬ Takeable s n) → exec .interruptEntry s = .next s))

/-- R35, R36, Table 02-7: when each interrupt is pending; and the events that make one pending: S_TIMER and M_TIMER, MSIP, SSIP, and
the rotation request of a mesh stream (R408). -/
def Obligations.InterruptPending : Prop := ∀ (s : State) (h c : Nat) (b : Bool),
  let mip := s.csrGet .mip
  let onlyCsr (t : State) (k : Nat) (csr : Csrs) : Prop :=
    t.getHart k = { s.getHart k with csr := csr } ∧ (∀ j, j ≠ k → t.getHart j = s.getHart j) ∧ { t with hart := s.hart, others := s.others } = s
  (mip.getLsbD 1 = s.hart.csr.ssip)
  ∧ (mip.getLsbD 3 = s.msips.contains s.hid)
  ∧ (mip.getLsbD 5 = decide (s.hart.csr.stimecmp.toNat ≤ s.clock / 3))
  ∧ (mip.getLsbD 7 = decide (s.hart.csr.mtimecmp.toNat ≤ s.clock / 3))
  ∧ (isCompute s.hid = true → mip.getLsbD 9 = false ∧ mip.getLsbD 17 = false)
  ∧ (mip.getLsbD 11 = s.hart.csr.meip)
  ∧ (mip.getLsbD 16 = !((s.core (s.hid / 4)).queue (s.hid % 4)).entries.isEmpty)
  ∧ (∀ n, n ∉ [1, 3, 5, 7, 9, 11, 16, 17] → mip.getLsbD n = false)
  ∧ s.csrGet .sip = mip &&& 0x30222
  ∧ (∃ t, exec (.sTimer h) s = .next t ∧ t.mipBit h (t.getHart h) 5 = true ∧ s.clock ≤ t.clock ∧ { t with clock := s.clock } = s)
  ∧ (∃ t, exec (.mTimer h) s = .next t ∧ t.mipBit h (t.getHart h) 7 = true ∧ s.clock ≤ t.clock ∧ { t with clock := s.clock } = s)
  ∧ (h < 4160 → ∃ t, exec (.msip h b) s = .next t ∧ { t with msips := s.msips } = s
      ∧ ∀ k, t.msips.contains k = if k = h then b else s.msips.contains k)
  ∧ (h < 4160 → ∃ t, exec (.ssip h b) s = .next t ∧ onlyCsr t h { (s.getHart h).csr with ssip := (s.getHart h).csr.ssip || b })
  ∧ (∃ t, exec (.rotationRequest c) s = .next t ∧ onlyCsr t (4 * c) { (s.getHart (4 * c)).csr with meip := true })

/-- R76, R182, Table 22-2: `wfi` completes at once when an interrupt is pending and enabled for a mode at or above the present one,
or the own inbox is non-empty, and else the hart waits; a hart whose wake condition holds resumes. -/
def Obligations.WaitAndWake : Prop :=
  (∀ s : State,
    let ready := (∃ n ∈ [11, 3, 7, 9, 1, 5, 17, 16], s.hart.csr.mie.getLsbD n = true ∧ s.mipBit s.hid s.hart n = true
        ∧ (n ∈ [3, 7, 11] ∨ s.hart.mode ≠ .m)) ∨ ((s.core (s.hid / 4)).queue (s.hid % 4)).entries ≠ []
    (ready → JustRetires .wfi s) ∧ (¬ ready → exec .wfi s = s.block .interrupt))
  ∧ (∀ (s : State) (h : Nat) (w : Wake), (s.getHart h).blocked = some w → s.wakes h (s.getHart h) w = true →
    ∃ t, exec (.wake h) s = .next t ∧ (t.getHart h).blocked = none ∧ (∀ k, k ≠ h → t.getHart k = s.getHart k)
      ∧ (w = .interrupt → (t.getHart h).pc = (nextPc (s.getHart h).pc (s.getHart h).csr.repstate).1)
      ∧ (w ≠ .interrupt → t.getHart h = { s.getHart h with blocked := none }))

/-! ### Barriers, tasks and claims -/

/-- R176 to R178: `sync` and `hred` are illegal outside U-mode. In a BSP launch the hart arrives and waits for the exchange; outside
any launch they publish and complete with a free value (the model's choice, log 30). -/
def Obligations.BarrierArrival : Prop := ∀ (s : State) (rd rs1 : Reg) (op : RedOp),
  (s.hart.mode ≠ .u → IllegalHere (.sync rd) s ∧ IllegalHere (.hred rd rs1 op) s)
  ∧ (s.hart.mode = .u → NotSaving s → ∀ p l, s.ownParty = some p → s.ownLaunch = some l → l.flags.getLsbD 0 = true →
      (∃ t, exec (.sync rd) s = .next t ∧ t.hart = (waiting s (.barrier rd none)).hart
        ∧ ∀ m, t.launch? l.id = some m → m.arrivals = l.arrivals ++ [(s.hid, s.clock)])
      ∧ (∃ t, exec (.hred rd rs1 op) s = .next t ∧ t.hart = (waiting s (.barrier rd (some (op, s.x rs1)))).hart
        ∧ ∀ m, t.launch? l.id = some m → m.arrivals = l.arrivals ++ [(s.hid, s.clock)]))
  ∧ (s.hart.mode = .u → s.ownLaunch = none → MayPublish s →
      ∀ i ∈ [Instr.sync rd, .hred rd rs1 op], ∃ t w, exec i s = .next t ∧ MemRetired s t rd w ∧ t.hart.pending = [])

/-- R145: `emit` to a stage that does not exist or is not downstream of the hart's own traps with QUEUE_MISUSE; to one with room, it
completes: in a BSP launch the task joins those emitted in this superstep, in any other it enters the stage's queue at once, after the
hart's stores are published; a full stage makes the hart wait. -/
def Obligations.EmitTask : Prop := ∀ (s : State) (vs : VReg) (rs1 : Reg) (p : Party) (l : Launch), s.hart.mode = .u →
  s.ownParty = some p → s.ownLaunch = some l →
  let k := (s.x rs1).toNat
  let down := k < l.stages.length ∧ ∃ st, l.stages[p.stage]? = some st ∧ st.downstream.getLsbD k = true
  (¬ down → Traps (.emit vs rs1) s 35 (s.x rs1))
  ∧ (down → 4 * s.hart.held ≤ vs.toNat → Traps (.emit vs rs1) s 26 (BitVec.ofNat 64 vs.toNat))
  ∧ (down → vs.toNat < 4 * s.hart.held → s.scbCheck = false →
      (stageFull l k = true → exec (.emit vs rs1) s = s.block (.stage k))
      ∧ (stageFull l k = false → l.flags.getLsbD 0 = true →
          ∃ t, exec (.emit vs rs1) s = .next t ∧ MemRetired s t 0 0
            ∧ ∀ m q, t.launch? l.id = some m → l.queues[k]? = some q →
                m.queues[k]? = some { q with emitted := q.emitted ++ [⟨(s.hart.readV vs).bits, p.slice⟩] }
                ∧ m.sent = l.sent + 1)
      ∧ (stageFull l k = false → l.flags.getLsbD 0 = false → MayPublish s →
          ∃ t, exec (.emit vs rs1) s = .next t ∧ MemRetired s t 0 0 ∧ t.hart.pending = []
            ∧ ∀ m q, t.launch? l.id = some m → l.queues[k]? = some q →
                m.queues[k]? = some { q with
                  tasks := q.tasks ++ [⟨(s.hart.readV vs).bits, p.slice⟩]
                  since := if q.tasks = [] then s.clock else q.since }
                ∧ m.sent = l.sent + 1 ∧ m.received = l.received + 1))

/-- R146: `task.done` is illegal outside U-mode. In U-mode it completes, in a BSP launch on every state and in any other where its Publish
goes ahead: the hart is finished and its staging buffers are empty, it retires, and in a launch without BSP its stores are published
first. With its party's last hart the party retires. That a hart of no party only stops issuing is the model's choice (log 65). -/
def Obligations.TaskDone : Prop := ∀ s : State,
  let bsp := s.ownLaunch.any (fun l => l.flags.getLsbD 0)
  (s.hart.mode ≠ .u → IllegalHere .taskDone s)
  ∧ (s.hart.mode = .u → s.hart.blocked = none → NotSaving s → (bsp = false → MayPublish s) →
      ∃ t, exec .taskDone s = .next t
        ∧ HartRetired { s with hart := { s.hart with finished := true, stage := Vector.replicate 5 ⟨0, 0⟩ } } t 0 0
        ∧ t.hart.finished = true ∧ t.hart.stage = Vector.replicate 5 ⟨0, 0⟩
        ∧ (bsp = true → t.hart.pending = s.hart.pending) ∧ (bsp = false → t.hart.pending = [])
        ∧ ∀ p, s.ownParty = some p → ∃ q, t.party? p.id = some q
          ∧ q.state = if ∀ h ∈ p.harts, h = s.hid ∨ (s.getHart h).finished = true then .retiring else p.state)
  ∧ (s.hart.mode = .u → MayPublish s → ∃ t, exec .taskDone s = .next t)
  ∧ (s.hart.mode = .u → MayPublish s → s.ownParty = none →
      ∃ t, exec .taskDone s = .next t ∧ t.hart.finished = true ∧ t.hart.pending = [] ∧ t.hart.stage = Vector.replicate 5 ⟨0, 0⟩
        ∧ t.hart.csr.instret = s.hart.csr.instret + 1)
  ∧ (∀ p l, s.hart.mode = .u → s.ownParty = some p → s.ownLaunch = some l → l.flags.getLsbD 0 = true → p.harts = [s.hid] →
      ∃ t, exec .taskDone s = .next t ∧ t.hart.finished = true ∧ ∀ q, t.party? p.id = some q → q.state = .retiring)

/-- R205, R207: the request word's class and count are checked against the claim; `acq` and `acq.try` of 0 units complete with 0; a
request that is available and safe is granted and completes with 0; else `acq.try` answers 1 or 2 and `acq` waits at the banker. -/
def Obligations.AcquireUnits : Prop := ∀ (s : State) (rd rs1 : Reg), s.hart.mode = .u →
  let w := s.x rs1
  let c := (w.extractLsb' 0 2).toNat
  let n := (w.extractLsb' 8 8).toNat
  let h := s.holding s.hid c
  let bad := c = 3 ∨ h.2 - h.1 < n
  (bad → Traps (.acq rd rs1) s 28 (BitVec.ofNat 64 (n * 256 + c)) ∧ Traps (.acqTry rd rs1) s 28 (BitVec.ofNat 64 (n * 256 + c)))
  ∧ (¬ bad → n = 0 → WritesRd (.acq rd rs1) s rd 0 ∧ WritesRd (.acqTry rd rs1) s rd 0)
  ∧ (¬ bad → n ≠ 0 → s.grantable s.hid c n = true → ∀ i ∈ [Instr.acq rd rs1, .acqTry rd rs1],
      ∃ t, exec i s = .next t ∧ WroteRd (s.grantUnits s.hid c n) t rd 0)
  ∧ (¬ bad → n ≠ 0 → s.grantable s.hid c n = false →
      (s.freeUnits s.hid c < n ∨ s.urgentHolds s.hid c = true → WritesRd (.acqTry rd rs1) s rd 1)
      ∧ (n ≤ s.freeUnits s.hid c → s.urgentHolds s.hid c = false → WritesRd (.acqTry rd rs1) s rd 2)
      ∧ (NotSaving s → ∃ t, exec (.acq rd rs1) s = .next t ∧ t.hart = (waiting s (.acq rd)).hart
          ∧ (t.cluster (s.hid / 64)).requests = (s.cluster (s.hid / 64)).requests ++ [⟨s.hid, c, n, s.clock, false⟩]))

/-- R208, R209: `rel` of units that no command accepted before it references returns the last units and completes, and else waits, while
commands accepted from then on see the reduced holding (R218); `claim` writes a maximum claim that is
no smaller than what is held; a count beyond the bound traps with CLAIM_EXCEEDED. -/
def Obligations.ReleaseAndClaim : Prop := ∀ (s : State) (rs1 : Reg) (p : Party), s.hart.mode = .u → s.ownParty = some p →
  let w := s.x rs1
  let c := (w.extractLsb' 0 2).toNat
  let n := (w.extractLsb' 8 8).toNat
  let h := s.holding s.hid c
  let v := BitVec.ofNat 64 (n * 256 + c)
  (c = 3 ∨ h.1 < n → Traps (.rel rs1) s 28 v)
  ∧ (c ≠ 3 → n ≤ h.1 → (c = 1 → s.ringAbove p (h.1 - n) = none) → (c ≠ 0 → s.releaseWaits p s.hid c (h.1 - n) = false) →
      ∃ t, exec (.rel rs1) s = .next t ∧ (∀ r, t.x r = s.x r) ∧ t.hart.csr.instret = s.hart.csr.instret + 1
        ∧ (c = 0 → t.hart.held = s.hart.held - n)
        ∧ (∀ q, t.party? p.id = some q → c = 1 → q.spad = p.spad.take (p.spad.length - n))
        ∧ (∀ q, t.party? p.id = some q → c = 2 → q.hamper = p.hamper.take (p.hamper.length - n)))
  ∧ (c ≠ 3 → c = 1 → n ≤ h.1 → ∀ q, s.ringAbove p (h.1 - n) = some q → Traps (.rel rs1) s 35 (BitVec.ofNat 64 q))
  ∧ (c ≠ 3 → c ≠ 0 → n ≠ 0 → n ≤ h.1 → (c = 1 → s.ringAbove p (h.1 - n) = none) →
      s.releaseWaits p s.hid c (h.1 - n) = true → exec (.rel rs1) s = (s.beginCut p s.hid c n).block .release)
  ∧ (c = 3 ∨ h.2 < n ∨ n < h.1 → Traps (.claim rs1) s 28 v)
  ∧ (c ≠ 3 → n ≤ h.2 → h.1 ≤ n → ∃ t, exec (.claim rs1) s = .next t ∧ (∀ r, t.x r = s.x r)
      ∧ t.hart.csr.instret = s.hart.csr.instret + 1 ∧ (t.holding s.hid c).1 = h.1 ∧ (t.holding s.hid c).2 = n)

/-! ### Decide-once cells -/

/-- R192, Table 10-4: an `offer` for a VACANT cell's generation decides it (WON, with the proposal); for a DECIDED one it answers the
decision (LOST); ahead of the cell FUTURE with 0, behind it STALE with 0. -/
def Obligations.CellOffer : Prop := ∀ (s u : State) (p : Place) (rd rs1 rs2 rs3 : Reg) (aq rl : Bool),
  cellCheck s true (s.x rs1) (s.x rs3) = (u, .ok p) → s.hart.blocked = none → (rl = true → MayPublish s) →
  let v := cellEntry u p rl
  CellReady v p → Memory.wf s.mem = true →
  let c := v.cellAt p.key
  let d := ahead (s.x rs3) c
  let own := v.ownRank v.hart
  let i := Instr.offer rd rs1 rs2 rs3 aq rl
  (d = 0 → c.state = 0 → ∃ t, exec i s = .next t ∧ HartRetired (withOstat v 0 c.gen own) t rd (s.x rs2)
      ∧ (t.cellAt p.key).value = s.x rs2 ∧ (t.cellAt p.key).state = 1 ∧ (t.cellAt p.key).gen = c.gen ∧ (t.cellAt p.key).winner = own)
  ∧ (d = 0 → c.state ≠ 0 → ∃ t, exec i s = .next t ∧ HartRetired (withOstat v 1 c.gen c.winner) t rd c.value ∧ t.mem = v.mem)
  ∧ (d ≠ 0 → d < 2 ^ 23 → ∃ t, exec i s = .next t ∧ HartRetired (withOstat v 3 c.gen 0) t rd 0 ∧ t.mem = v.mem)
  ∧ (2 ^ 23 ≤ d → ∃ t, exec i s = .next t ∧ HartRetired (withOstat v 2 c.gen 0) t rd 0 ∧ t.mem = v.mem)

/-- R193, R194, R198: `cread` and `cwait` answer a cached decision, a decided generation (WON or LOST by its winner) or STALE;
`cread` answers VACANT and FUTURE, where `cwait` registers as a waiter and waits. -/
def Obligations.CellRead : Prop := ∀ (s u : State) (p : Place) (rd rs1 rs2 : Reg) (aq rl : Bool),
  cellCheck s false (s.x rs1) (s.x rs2) = (u, .ok p) → (rl = true → MayPublish s) →
  let v := cellEntry u p rl
  let q := (s.x rs2).toNat
  (∀ d, s.decision? s.hid p.key q = some d → u.shipsOut = false → ∀ i ∈ [Instr.cread rd rs1 rs2 aq rl, .cwait rd rs1 rs2 aq rl],
    ∃ t, exec i s = .next t ∧ HartRetired (withOstat s (if d.winner = s.ownRank s.hart then 0 else 1) d.gen d.winner) t rd d.value)
  ∧ (s.decision? s.hid p.key q = none → CellReady v p →
    let c := v.cellAt p.key
    let d := ahead (s.x rs2) c
    (∀ i ∈ [Instr.cread rd rs1 rs2 aq rl, .cwait rd rs1 rs2 aq rl],
      (d = 0 → c.state = 1 → ∃ t, exec i s = .next t
          ∧ HartRetired (withOstat v (if c.winner = v.ownRank v.hart then 0 else 1) q c.winner) t rd c.value ∧ t.mem = v.mem)
      ∧ (2 ^ 23 ≤ d → ∃ t, exec i s = .next t ∧ HartRetired (withOstat v 2 c.gen 0) t rd 0 ∧ t.mem = v.mem))
    ∧ (d = 0 → c.state ≠ 1 →
        ∃ t, exec (.cread rd rs1 rs2 aq rl) s = .next t ∧ HartRetired (withOstat v 4 c.gen 0) t rd 0 ∧ t.mem = v.mem)
    ∧ (d ≠ 0 → d < 2 ^ 23 →
        ∃ t, exec (.cread rd rs1 rs2 aq rl) s = .next t ∧ HartRetired (withOstat v 3 c.gen 0) t rd 0 ∧ t.mem = v.mem)
    ∧ ((d = 0 ∧ c.state ≠ 1) ∨ (d ≠ 0 ∧ d < 2 ^ 23) → (v.waiters.filter (fun w => v.cellSite w.pa == v.cellSite p.key)).length < 2048 →
        exec (.cwait rd rs1 rs2 aq rl) s
          = State.block { v.chargeSite with waiters := v.waiters ++ [{ hart := v.hid, pa := p.key, gen := q }] } (.cell rd p.key q aq)))

/-- R195, R199: `cretire` of a decided generation below the last makes the cell VACANT at the next; of the last generation it starts
the purge, which completes with the cell VACANT(0) and no decision of it left in any cache; else it answers VACANT, FUTURE or STALE. -/
def Obligations.CellRetire : Prop :=
  (∀ (s u : State) (p : Place) (rs1 rs2 : Reg) (aq rl : Bool),
    cellCheck s true (s.x rs1) (s.x rs2) = (u, .ok p) → s.hart.blocked = none → (rl = true → MayPublish s) →
    let v := cellEntry u p rl
    CellReady v p → Memory.wf s.mem = true →
    let c := v.cellAt p.key
    let q := (s.x rs2).toNat
    let d := ahead (s.x rs2) c
    let i := Instr.cretire rs1 rs2 aq rl
    (d = 0 → c.state = 1 → q < 2 ^ 24 - 1 → ∃ t, exec i s = .next t ∧ HartRetired (withOstat v 0 (q + 1) 0) t 0 0
        ∧ (t.cellAt p.key).state = 0 ∧ (t.cellAt p.key).gen = q + 1 ∧ (t.cellAt p.key).value = 0 ∧ (t.cellAt p.key).winner = 0)
    ∧ (d = 0 → c.state = 1 → q = 2 ^ 24 - 1 → NotSaving v → ∃ t, exec i s = .next t ∧ t.hart.blocked = some (.retire p.key aq)
        ∧ t.purging = v.purging ++ [p.key] ∧ t.events = v.events ++ [.cellPurgeComplete p.key])
    ∧ (d = 0 → c.state ≠ 1 → ∃ t, exec i s = .next t ∧ HartRetired (withOstat v 4 c.gen 0) t 0 0 ∧ t.mem = v.mem)
    ∧ (d ≠ 0 → d < 2 ^ 23 → ∃ t, exec i s = .next t ∧ HartRetired (withOstat v 3 c.gen 0) t 0 0 ∧ t.mem = v.mem)
    ∧ (2 ^ 23 ≤ d → ∃ t, exec i s = .next t ∧ HartRetired (withOstat v 2 c.gen 0) t 0 0 ∧ t.mem = v.mem))
  ∧ (∀ (s : State) (pa : Nat), s.purging.contains pa = true → Memory.wf s.mem = true →
    ∃ t, exec (.cellPurgeComplete pa) s = .next t ∧ (t.cellAt pa).state = 0 ∧ (t.cellAt pa).gen = 0 ∧ (t.cellAt pa).value = 0
      ∧ t.purging = s.purging.erase pa ∧ ∀ k, ∀ d ∈ (t.cluster k).decisions, d.pa ≠ pa)

/-! ### Vector instructions -/

/-- R86, R102, R108 to R112, R114, Tables 06-2 and 06-3: the element-wise instructions complete when their operands pass the checks of
R106. Integers wrap modulo 2^w, saturate under `vadds` and `vsubs`, or give the upper half of the product; floats are rounded once
by their operation. -/
def Obligations.VectorArithmetic : Prop := ∀ (s : State) (ty : ETy) (vd a b c : VReg) (m : Bool) (w : BitVec 2),
  let wd := etyBits ty
  let fm := etyFmt ty
  let md := fmode s.hart.csr.vmode
  let dec (v : Nat) : FVal := fm.decode md.ftz v
  let sg (v : Nat) : Int := if v < 2 ^ (wd - 1) then v else (v : Int) - 2 ^ wd
  let wrap (v : Int) : Nat × BitVec 6 := ((v % 2 ^ wd).toNat, 0)
  let lo : Int := -(2 ^ (wd - 1))
  let hi : Int := 2 ^ (wd - 1) - 1
  let clamp (v : Int) : Nat × BitVec 6 := ((max lo (min hi v) % 2 ^ wd).toNat, if v < lo ∨ hi < v then 32 else 0)
  let done1 (i : Instr) (lat : Nat) (f : Nat → Nat × BitVec 6) : Prop :=
    OperandsGood s [s.rot vd, s.rot a] (sourcesAs s ty [a]) →
    ∃ t, exec i s = .next t ∧ LaneResult s t ty vd [a] m w lat (fun l => f (l.headD 0))
  let done2 (i : Instr) (lat : Nat) (f : Nat → Nat → Nat × BitVec 6) : Prop :=
    OperandsGood s [s.rot vd, s.rot a, s.rot b] (sourcesAs s ty [a, b]) →
    ∃ t, exec i s = .next t ∧ LaneResult s t ty vd [a, b] m w lat (fun l => f (l.headD 0) ((l.drop 1).headD 0))
  let done3 (i : Instr) (f : FVal → FVal → FVal → Nat × BitVec 6) : Prop :=
    OperandsGood s [s.rot vd, s.rot a, s.rot b, s.rot c] (sourcesAs s ty [a, b, c]) →
    ∃ t, exec i s = .next t ∧ LaneResult s t ty vd [a, b, c] false w (if ty = .f64 then 4 else 2)
      (fun l => f (dec (l.headD 0)) (dec ((l.drop 1).headD 0)) (dec ((l.drop 2).headD 0)))
  (¬ IsFloat ty →
      done2 (.vadd ty vd a b m w) 1 (fun x y => ((x + y) % 2 ^ wd, 0))
      ∧ done2 (.vsub ty vd a b m w) 1 (fun x y => wrap ((x : Int) - y))
      ∧ done2 (.vmul ty vd a b m w) 2 (fun x y => ((x * y) % 2 ^ wd, 0)))
  ∧ (¬ IsFloat ty →
      done2 (.vmin ty vd a b m w) 1 (fun x y => (if sg x ≤ sg y then x else y, 0))
      ∧ done2 (.vmax ty vd a b m w) 1 (fun x y => (if sg x ≤ sg y then y else x, 0))
      ∧ done1 (.vabs ty vd a m w) 1 (fun x => wrap (sg x).natAbs)
      ∧ done1 (.vneg ty vd a m w) 1 (fun x => wrap (-(sg x))))
  ∧ (¬ IsFloat ty →
      done2 (.vadds ty vd a b m w) 1 (fun x y => clamp (sg x + sg y))
      ∧ done2 (.vsubs ty vd a b m w) 1 (fun x y => clamp (sg x - sg y))
      ∧ done2 (.vmulh ty vd a b m w) 2 (fun x y => wrap (sg x * sg y / 2 ^ wd))
      ∧ done2 (.vsll ty vd a b m w) 1 (fun x y => ((x * 2 ^ (y % wd)) % 2 ^ wd, 0))
      ∧ done2 (.vsrl ty vd a b m w) 1 (fun x y => (x / 2 ^ (y % wd), 0))
      ∧ done2 (.vsra ty vd a b m w) 1 (fun x y => wrap (sg x / 2 ^ (y % wd))))
  ∧ (IsFloat ty →
      done2 (.vadd ty vd a b m w) 2 (fun x y => fAdd fm md (dec x) (dec y))
      ∧ done2 (.vsub ty vd a b m w) 2 (fun x y => fAdd fm md (dec x) (dec y).neg)
      ∧ done2 (.vmul ty vd a b m w) (if ty = .f64 then 4 else 2) (fun x y => fMul fm md (dec x) (dec y))
      ∧ done2 (.vdiv ty vd a b m w) 4 (fun x y => fDiv fm md (dec x) (dec y))
      ∧ done2 (.vmin ty vd a b m w) 1 (fun x y => fMinMax fm false (dec x) (dec y))
      ∧ done2 (.vmax ty vd a b m w) 1 (fun x y => fMinMax fm true (dec x) (dec y)))
  ∧ (IsFloat ty →
      done1 (.vabs ty vd a m w) 1 (fun x => fSign false fm md (dec x))
      ∧ done1 (.vneg ty vd a m w) 1 (fun x => fSign true fm md (dec x))
      ∧ done1 (.vsqrt ty vd a m w) 4 (fun x => fSqrt fm md (dec x))
      ∧ done1 (.vrecip ty vd a m w) 4 (fun x => fRecip fm md (dec x))
      ∧ done1 (.vrsqrt ty vd a m w) 4 (fun x => fRsqrt fm md (dec x))
      ∧ done1 (.vexp2 ty vd a m w) 4 (fun x => fExp2 fm md (dec x))
      ∧ done1 (.vlog2 ty vd a m w) 4 (fun x => fLog2 fm md (dec x)))
  ∧ (IsFloat ty →
      done3 (.vfma ty vd a b c w) (fun x y z => fFma fm md x y z)
      ∧ done3 (.vfms ty vd a b c w) (fun x y z => fFma fm md x y z.neg)
      ∧ done3 (.vfnma ty vd a b c w) (fun x y z => fFma fm md x.neg y z.neg)
      ∧ done3 (.vfnms ty vd a b c w) (fun x y z => fFma fm md x.neg y z))

/-- R113, R115 to R118: the logic instructions and `vmvv` work on bits under a byte mask and keep a common tag; `vsel` always reads
VMASK; `vperm`, `vslide`, `vbcast` and `vid` place elements; `vmvx` writes x[rd]. Each completes when its operands pass the checks. That
`vperm` and `vslide` convert, and raise flags for, the source elements that active elements read and no others is the model's reading of
R32 and R85 (log 44). -/
def Obligations.VectorMoves : Prop := ∀ (s : State) (ty : ETy) (vd a b : VReg) (rd rs : Reg) (m : Bool) (w : BitVec 2),
  let n := 512 / etyBits ty
  let ra := s.hart.readV (s.rot a)
  let rb := s.hart.readV (s.rot b)
  let bits2 (i : Instr) (f : VBits → VBits → VBits) : Prop :=
    OperandsGood s [s.rot vd, s.rot a, s.rot b] [⟨s.rot a, none⟩, ⟨s.rot b, none⟩] →
    ∃ t, exec i s = .next t ∧ VectorOnly s t [s.rot vd] w.toNat ∧ RaisesFlags s t 0 ∧ VisibleAfter s t (s.rot vd) 1 w.toNat
      ∧ (t.hart.finalV (s.rot vd)).tag = (if ra.tag = rb.tag then ra.tag else .raw)
      ∧ ∀ k, k < 64 → laneOf 8 (t.hart.finalV (s.rot vd)).bits k =
          if s.active m k then laneOf 8 (f ra.bits rb.bits) k else laneOf 8 (s.hart.finalV (s.rot vd)).bits k
  bits2 (.vand vd a b m w) (· &&& ·) ∧ bits2 (.vor vd a b m w) (· ||| ·) ∧ bits2 (.vxor vd a b m w) (· ^^^ ·)
  ∧ (OperandsGood s [s.rot vd, s.rot a] [⟨s.rot a, none⟩] →
      ∃ t, exec (.vmvv vd a m w) s = .next t ∧ VectorOnly s t [s.rot vd] w.toNat ∧ RaisesFlags s t 0
        ∧ VisibleAfter s t (s.rot vd) 1 w.toNat ∧ (t.hart.finalV (s.rot vd)).tag = ra.tag
        ∧ ∀ k, k < 64 → laneOf 8 (t.hart.finalV (s.rot vd)).bits k =
            if s.active m k then laneOf 8 ra.bits k else laneOf 8 (s.hart.finalV (s.rot vd)).bits k)
  ∧ (OperandsGood s [s.rot vd, s.rot a, s.rot b] (sourcesAs s ty [a, b]) →
      ∃ t, exec (.vsel ty vd a b m w) s = .next t ∧ MoveResult s t ty vd false w (convFlags s ty false [a, b])
        (fun i => if s.hart.csr.vmask.getLsbD i then laneAll s ty a i else laneAll s ty b i))
  ∧ (OperandsGood s [s.rot vd, s.rot a, s.rot b] [⟨s.rot a, some (etyTag ty)⟩, ⟨s.rot b, none⟩] →
      let src (i : Nat) : Nat := laneOf (etyBits ty) rb.bits i % n
      let x := s.vread (s.rot a) (etyTag ty) (lanesRead n (s.active m) (fun i => some (src i)))
      ∃ t, exec (.vperm ty vd a b m w) s = .next t ∧ MoveResult s t ty vd m w x.2 (fun i => laneOf (etyBits ty) x.1 (src i)))
  ∧ (OperandsGood s [s.rot vd, s.rot a] (sourcesAs s ty [a]) →
      let src (i : Nat) : Option Nat :=
        if 0 ≤ (i : Int) + (s.x rs).toInt ∧ (i : Int) + (s.x rs).toInt < n then some ((i : Int) + (s.x rs).toInt).toNat else none
      let x := s.vread (s.rot a) (etyTag ty) (lanesRead n (s.active m) src)
      ∃ t, exec (.vslide ty vd a rs m w) s = .next t ∧ MoveResult s t ty vd m w x.2
        (fun i => (src i).elim 0 (fun j => laneOf (etyBits ty) x.1 j)))
  ∧ (OperandsGood s [s.rot vd] [] →
      (∃ t, exec (.vbcast ty vd rs m w) s = .next t ∧ MoveResult s t ty vd m w 0 (fun _ => (s.x rs).toNat))
      ∧ (∃ t, exec (.vid ty vd m w) s = .next t ∧ MoveResult s t ty vd m w 0 (fun i => i)))
  ∧ (OperandsGood s [s.rot a] (sourcesAs s ty [a]) →
      let e := laneAll s ty a ((s.x rs).toNat % n)
      ∃ t, exec (.vmvx ty rd a rs w) s = .next t ∧ VectorFrame s t [] w.toNat ∧ t.hart.csr.vmask = s.hart.csr.vmask
        ∧ RaisesFlags s t (convFlags s ty false [a]) ∧ (∀ r, r ≠ rd → t.x r = s.x r)
        ∧ t.x rd = if rd = 0 then 0 else if IsFloat ty then BitVec.ofNat 64 e
            else (BitVec.ofNat (etyBits ty) e).signExtend 64)

/-- R119: the compares write VMASK: bit i the outcome of active element i, 0 for an inactive one and above the lanes; a NaN compares
false, and raises NV unless `vcmpeq` meets quiet NaNs. `vsetm` writes which elements are nonzero (a NaN is, ±0 is not), and
`vgetm` expands VMASK into ones and zeros. That under FTZ `vsetm` takes a subnormal for zero (R83), and that a signalling NaN sets NV
there (R84), is the model's inference (log 31). -/
def Obligations.VectorMasks : Prop := ∀ (s : State) (ty : ETy) (vd a b : VReg) (m : Bool) (w : BitVec 2),
  let n := 512 / etyBits ty
  let fm := etyFmt ty
  let md := fmode s.hart.csr.vmode
  let fx (i : Nat) : FVal := fm.decode md.ftz (laneIn s ty m a i)
  let fy (i : Nat) : FVal := fm.decode md.ftz (laneIn s ty m b i)
  let sg (v : Nat) : Int := if v < 2 ^ (etyBits ty - 1) then v else (v : Int) - 2 ^ etyBits ty
  let masked (t : State) (p : Nat → Prop) : Prop :=
    VectorFrame s t [] w.toNat ∧ (∀ r, t.x r = s.x r)
    ∧ (∀ i, i < n → (t.hart.csr.vmask.getLsbD i = true ↔ s.active m i = true ∧ p i)) ∧ (∀ i, n ≤ i → t.hart.csr.vmask.getLsbD i = false)
  let cmp (i : Instr) (quiet : Bool) (pf : Int → Prop) (pi : Int → Int → Prop) : Prop :=
    OperandsGood s [s.rot a, s.rot b] (sourcesAs s ty [a, b]) → ∃ t, exec i s = .next t
      ∧ (IsFloat ty → masked t (fun i => (fx i).isNan = false ∧ (fy i).isNan = false ∧ pf (fCmp (fx i) (fy i)))
          ∧ RaisesFlags s t (convFlags s ty m [a, b] ||| unionFlags ((List.range n).map (fun i =>
              if s.active m i && ((fx i).isNan || (fy i).isNan) && (!quiet || (fx i).isSig || (fy i).isSig) then 1 else 0))))
      ∧ (¬ IsFloat ty → masked t (fun i => pi (sg (laneIn s ty m a i)) (sg (laneIn s ty m b i)))
          ∧ RaisesFlags s t (convFlags s ty m [a, b]))
  cmp (.vcmpeq ty a b m w) true (fun c => c = 0) (fun x y => x = y)
  ∧ cmp (.vcmplt ty a b m w) false (fun c => c = -1) (fun x y => x < y)
  ∧ cmp (.vcmple ty a b m w) false (fun c => c ≠ 1) (fun x y => x ≤ y)
  ∧ (OperandsGood s [s.rot a] (sourcesAs s ty [a]) → ∃ t, exec (.vsetm ty a w) s = .next t ∧ VectorFrame s t [] w.toNat
      ∧ (∀ r, t.x r = s.x r)
      ∧ RaisesFlags s t (convFlags s ty false [a]
        ||| if IsFloat ty ∧ ∃ i, i < n ∧ (fm.decode md.ftz (laneAll s ty a i)).isSig = true then 1 else 0)
      ∧ (∀ i, i < n → (t.hart.csr.vmask.getLsbD i = true ↔
          if IsFloat ty then (fm.decode md.ftz (laneAll s ty a i)).isZero = false else laneAll s ty a i ≠ 0))
      ∧ (∀ i, n ≤ i → t.hart.csr.vmask.getLsbD i = false))
  ∧ (OperandsGood s [s.rot vd] [] → ∃ t, exec (.vgetm ty vd w) s = .next t ∧ MoveResult s t ty vd false w 0
      (fun i => if s.hart.csr.vmask.getLsbD i then (if IsFloat ty then fm.encode (.fin false 1 0) else 1) else 0))

/-- R120 to R122: the reductions write element 0 and zero every other element: integers sum modulo 2^w or take the extreme of the
active elements, floats combine in the tree of R120; `vdot` gives its wider type's result. -/
def Obligations.VectorReductions : Prop := ∀ (s : State) (ty : ETy) (vd a b : VReg) (m : Bool) (w : BitVec 2),
  let wd := etyBits ty
  let n := 512 / wd
  let md := fmode s.hart.csr.vmode
  let sg (v : Nat) : Int := if v < 2 ^ (wd - 1) then v else (v : Int) - 2 ^ wd
  let act := (List.range n).filter (s.active m)
  let xs := act.map (fun i => sg (laneIn s ty m a i))
  let all (id : Nat) := (List.range n).map (fun i => if s.active m i then laneIn s ty m a i else id)
  let whole (i : Instr) (v : Nat) (f : BitVec 6) : Prop :=
    ∃ t, exec i s = .next t ∧ WholeResult s t vd ⟨BitVec.ofNat 512 (v % 2 ^ wd), etyTag ty⟩ w 4 (convFlags s ty m [a] ||| f)
  (OperandsGood s [s.rot vd, s.rot a] (sourcesAs s ty [a]) →
    (¬ IsFloat ty →
      whole (.vredsum ty vd a m w) (xs.sum % 2 ^ wd).toNat 0
      ∧ whole (.vredmax ty vd a m w) ((xs.foldl max (-(2 ^ (wd - 1)))) % 2 ^ wd).toNat 0
      ∧ whole (.vredmin ty vd a m w) ((xs.foldl min (2 ^ (wd - 1) - 1)) % 2 ^ wd).toNat 0)
    ∧ (IsFloat ty →
      let fm := etyFmt ty
      let node (f : FVal → FVal → Nat × BitVec 6) (x y : Nat) : Nat × BitVec 6 := f (fm.decode md.ftz x) (fm.decode md.ftz y)
      let tree (f : FVal → FVal → Nat × BitVec 6) (id : Nat) := treeFrom (node f) (Nat.log2 n) (all id) 0
      whole (.vredsum ty vd a m w) (tree (fAdd fm md) (fm.signBit true)).1 (tree (fAdd fm md) (fm.signBit true)).2
      ∧ whole (.vredmax ty vd a m w) (tree (fMinMax fm true) (fm.inf true)).1 (tree (fMinMax fm true) (fm.inf true)).2
      ∧ whole (.vredmin ty vd a m w) (tree (fMinMax fm false) (fm.inf false)).1 (tree (fMinMax fm false) (fm.inf false)).2))
  ∧ (OperandsGood s [s.rot vd, s.rot a, s.rot b] (sourcesAs s ty [a, b]) →
    (¬ IsFloat ty →
      let rt : ETy := if ty = .i8 then .i32 else .i64
      let v : Int := (act.map (fun i => sg (laneIn s ty m a i) * sg (laneIn s ty m b i))).sum
      ∃ t, exec (.vdot ty vd a b m w) s = .next t
        ∧ WholeResult s t vd ⟨BitVec.ofNat 512 (v % 2 ^ etyBits rt).toNat, etyTag rt⟩ w 4 (convFlags s ty m [a, b]))
    ∧ (IsFloat ty →
      let r := dotValue ty md (s.active m) (s.vread (s.rot a) (etyTag ty) (s.active m)).1 (s.vread (s.rot b) (etyTag ty) (s.active m)).1
      ∃ t, exec (.vdot ty vd a b m w) s = .next t
        ∧ WholeResult s t vd ⟨BitVec.ofNat 512 r.1, if ty = .f64 then .f64 else .f32⟩ w 4 (convFlags s ty m [a, b] ||| r.2)))

/-- R123 to R126: `vretag` changes the tag alone; `vtag` reads it into x[rd]; `vcvt` converts element by element, a RAW source keeping
its bits; `vqnt`, and `vcvt` to a block, quantise; `vdeq` decodes, to a pair of registers for F32. That `vcvt` of a RAW source to a block
quantises, where R123's first two cases overlap, is the model's choice (log 61). -/
def Obligations.VectorFormats : Prop := ∀ (s : State) (vd a : VReg) (rd : Reg) (tg : Tag) (m : Bool) (w : BitVec 2),
  let ra := s.hart.readV (s.rot a)
  let md := fmode s.hart.csr.vmode
  (OperandsGood s [s.rot vd, s.rot a] [⟨s.rot a, none⟩] →
    ∃ t, exec (.vretag vd a tg w) s = .next t ∧ WholeResult s t vd ⟨ra.bits, tg⟩ w 1 0)
  ∧ (OperandsGood s [s.rot a] [⟨s.rot a, none⟩] →
    ∃ t, exec (.vtag rd a w) s = .next t ∧ VectorFrame s t [] w.toNat ∧ t.hart.csr.vmask = s.hart.csr.vmask
      ∧ t.hart.csr.vflags = s.hart.csr.vflags ∧ (∀ r, r ≠ rd → t.x r = s.x r)
      ∧ t.x rd = if rd = 0 then 0 else ra.tag.bits.setWidth 64)
  ∧ (tg ≠ .bx8p → tg ≠ .bx4p → OperandsGood s [s.rot vd, s.rot a] [⟨s.rot a, some ra.tag⟩] →
    ∃ t, exec (.vcvt vd a tg m w) s = .next t ∧ VectorOnly s t [s.rot vd] w.toNat ∧ VisibleAfter s t (s.rot vd) 2 w.toNat
      ∧ (t.hart.finalV (s.rot vd)).tag = tg
      ∧ RaisesFlags s t (if ra.tag = .raw then 0 else unionFlags ((List.range (tagLanes tg)).map (fun i =>
          if s.active m i && decide (i < tagLanes ra.tag) then (convertElem md (tagKind tg) (elemOf md ra i)).2 else 0)))
      ∧ ∀ i, i < 512 / tagBits tg → laneOf (tagBits tg) (t.hart.finalV (s.rot vd)).bits i =
          if s.active m i = false then laneOf (tagBits tg) (s.hart.finalV (s.rot vd)).bits i
          else if ra.tag = .raw then laneOf (tagBits tg) ra.bits i
          else if i < tagLanes ra.tag then (convertElem md (tagKind tg) (elemOf md ra i)).1 % 2 ^ tagBits tg else 0)
  ∧ (let src := quantSource ra.tag
     let pair := (tg = .bx8p ∨ tg = .bx4p) ∧ src = .f32
     (¬ pair → OperandsGood s [s.rot vd, s.rot a] [⟨s.rot a, some src⟩] →
       let x := s.vread (s.rot a) src allLanes
       let r := quantResult md s.hart.csr.qdelta src tg x.1 0
       (∃ t, exec (.vqnt vd a tg w) s = .next t ∧ WholeResult s t vd ⟨r.1, tg⟩ w 2 (x.2 ||| r.2))
       ∧ ((tg = .bx8p ∨ tg = .bx4p) → ∃ t, exec (.vcvt vd a tg m w) s = .next t ∧ WholeResult s t vd ⟨r.1, tg⟩ w 2 (x.2 ||| r.2)))
     ∧ (pair → OperandsGood s [s.rot vd, s.rot a, s.rot a + 1] [⟨s.rot a, some .f32⟩, ⟨s.rot a + 1, some .f32⟩] →
       let x := s.vread (s.rot a) .f32 allLanes
       let y := s.vread (s.rot a + 1) .f32 allLanes
       let r := quantResult md s.hart.csr.qdelta .f32 tg x.1 y.1
       ∀ i ∈ [Instr.vqnt vd a tg w, .vcvt vd a tg m w],
         ∃ t, exec i s = .next t ∧ WholeResult s t vd ⟨r.1, tg⟩ w 2 (x.2 ||| y.2 ||| r.2)))
  ∧ (let src := decodeSource ra.tag
     let x := s.vread (s.rot a) src allLanes
     let val (i : Nat) : FVal := match tagKind src with
       | .block n => blockVal (blockOf n x.1.toNat) i
       | .float f => f.decode md.ftz (laneOf f.width x.1 i)
       | _ => .fin false 0 0
     let e (i : Nat) : Nat × BitVec 6 := fToF (tagFmt tg) md (val i)
     (tg = .f32 → OperandsGood s [s.rot vd, s.rot vd + 1, s.rot a] [⟨s.rot a, some src⟩] →
       ∃ t, exec (.vdeq vd a tg w) s = .next t ∧ VectorOnly s t [s.rot vd, s.rot vd + 1] w.toNat
         ∧ RaisesFlags s t (x.2 ||| unionFlags ((List.range 32).map (fun i => (e i).2)))
         ∧ (t.hart.finalV (s.rot vd)).tag = .f32 ∧ (t.hart.finalV (s.rot vd + 1)).tag = .f32
         ∧ ∀ i, i < 16 → laneOf 32 (t.hart.finalV (s.rot vd)).bits i = (e i).1 % 2 ^ 32
             ∧ laneOf 32 (t.hart.finalV (s.rot vd + 1)).bits i = (e (i + 16)).1 % 2 ^ 32)
     ∧ ((tg = .bf16 ∨ tg = .f16) → OperandsGood s [s.rot vd, s.rot a] [⟨s.rot a, some src⟩] →
       ∃ t, exec (.vdeq vd a tg w) s = .next t ∧ VectorOnly s t [s.rot vd] w.toNat
         ∧ RaisesFlags s t (x.2 ||| unionFlags ((List.range 32).map (fun i => (e i).2)))
         ∧ (t.hart.finalV (s.rot vd)).tag = tg
         ∧ ∀ i, i < 32 → laneOf 16 (t.hart.finalV (s.rot vd)).bits i = (e i).1 % 2 ^ 16))

/-- R106, Table 06-1: a vector instruction whose operands fail a check traps, and does nothing else: VREG_UNHELD for the lowest register
it names that is not held; else SCB_UNDERSIZED for the lowest source read early under SCB_CHECK; else FORMAT_MISMATCH for the lowest
source of another format under FMT_TRAP, with the tag found; else DATA_INTEGRITY for a block whose check code fails. -/
def Obligations.VectorChecksTrap : Prop := ∀ (s : State) (ty : ETy) (vd a b c : VReg) (rd : Reg) (m : Bool) (w : BitVec 2) (tg : Tag)
    (i : Instr) (named : List VReg) (srcs : List Src),
  let d := s.rot vd
  let ra := s.rot a
  let rb := s.rot b
  (i, named, srcs) ∈ [(Instr.vadd ty vd a b m w, [d, ra, rb], sourcesAs s ty [a, b]), (.vsqrt ty vd a m w, [d, ra], sourcesAs s ty [a]),
      (.vfma ty vd a b c w, [d, ra, rb, s.rot c], sourcesAs s ty [a, b, c]), (.vand vd a b m w, [d, ra, rb], [⟨ra, none⟩, ⟨rb, none⟩]),
      (.vsel ty vd a b m w, [d, ra, rb], sourcesAs s ty [a, b]), (.vredsum ty vd a m w, [d, ra], sourcesAs s ty [a]),
      (.vdot ty vd a b m w, [d, ra, rb], sourcesAs s ty [a, b]), (.vcmpeq ty a b m w, [ra, rb], sourcesAs s ty [a, b]),
      (.vretag vd a tg w, [d, ra], [⟨ra, none⟩]), (.vtag rd a w, [ra], [⟨ra, none⟩])] →
  let unheld (r : VReg) : Prop := s.hart.party ≠ none ∧ 4 * s.hart.held ≤ r.toNat
  let early (r : VReg) : Prop := s.hart.csr.vmode.getLsbD 1 = true ∧ ∃ e ∈ s.hart.inflight, e.reg = r ∧ s.hart.steps < e.ready
  let wrong (r : VReg) : Prop := s.hart.csr.vmode.getLsbD 0 = true ∧ ∃ x ∈ srcs, x.reg = r ∧ ∃ t, x.as_ = some t
    ∧ (s.hart.readV r).tag ≠ t ∧ (s.hart.readV r).tag ≠ .raw
  let broken (r : VReg) : Prop := ∃ x ∈ srcs, x.reg = r ∧ ∃ t, x.as_ = some t ∧ chkBad (s.hart.readV r) t = true
  let lowest (p : VReg → Prop) (l : List VReg) (r : VReg) : Prop := r ∈ l ∧ p r ∧ ∀ q ∈ l, p q → r.toNat ≤ q.toNat
  let regs := srcs.map Src.reg
  ∀ r : VReg,
    (lowest unheld named r → Traps i s 26 (BitVec.ofNat 64 r.toNat))
    ∧ ((∀ q ∈ named, ¬ unheld q) → lowest early regs r → Traps i s 25 (BitVec.ofNat 64 r.toNat))
    ∧ ((∀ q ∈ named, ¬ unheld q) → (∀ q ∈ regs, ¬ early q) → lowest wrong regs r →
        Traps i s 24 (BitVec.ofNat 64 (r.toNat + (s.hart.readV r).tag.bits.toNat * 256)))
    ∧ ((∀ q ∈ named, ¬ unheld q) → (∀ q ∈ regs, ¬ early q) → (∀ q ∈ regs, ¬ wrong q) → lowest broken regs r →
        Traps i s 34 (BitVec.ofNat 64 r.toNat))

/-- R42: a count above 0xF_FFFF traps with the pc of the `rep`, and a body word of another opcode with its own address; a count of 0
skips the body; else REPSTATE is set up and the body follows. While it repeats, REPSTATE says where the hart goes after each
instruction and how a register field at or above BASE is rotated; with ACTIVE clear, pc + 4 follows and no field is rotated. -/
def Obligations.Repetition : Prop :=
  (∀ (s : State) (len1 : BitVec 4) (rs1 : Reg) (stride base : BitVec 5),
    let n := s.x rs1
    let i := Instr.rep len1 rs1 stride base
    (0xFFFFF < n.toNat → Traps i s 37 s.hart.pc)
    ∧ (n.toNat ≤ 0xFFFFF → ∀ u, s.scanBody (pcOf (s.hart.pc + 4)) (len1.toNat + 1) = (u, none) →
        (n = 0 → ∃ t, exec i s = .next t ∧ Transferred u.hart t.hart (pcOf (s.hart.pc + 4 + BitVec.ofNat 64 (4 * (len1.toNat + 1))))
            ∧ t.hart.x = s.hart.x)
        ∧ (n ≠ 0 → ∃ t, exec i s = .next t ∧ t.hart.pc = pcOf (s.hart.pc + 4) ∧ t.hart.x = s.hart.x
            ∧ t.hart.csr.instret = s.hart.csr.instret + 1 ∧ SameVectors s.hart t.hart ∧ SameShell u.hart t.hart ∧ SameDevice u t
            ∧ let r := t.hart.csr.repstate
              r.extractLsb' 0 20 = 0 ∧ r.extractLsb' 20 20 = n.setWidth 20 ∧ r.extractLsb' 40 4 = 0 ∧ r.extractLsb' 44 4 = len1
              ∧ r.extractLsb' 48 5 = stride ∧ r.extractLsb' 53 5 = base ∧ r.getLsbD 63 = true))
    ∧ (n.toNat ≤ 0xFFFFF → ∀ u c v, s.scanBody (pcOf (s.hart.pc + 4)) (len1.toNat + 1) = (u, some (c, v)) →
        exec i s = .next (u.trap c v))
    ∧ (n.toNat ≤ 0xFFFFF → ∀ (k : Nat) (word : Nat → BitVec 32), k ≤ len1.toNat →
        (∀ j, j ≤ k → let a := pcOf (s.hart.pc + 4) + BitVec.ofNat 64 (4 * j)
          a = pcOf a ∧ ∃ b, s.hart.block (a.toNat / 64 * 64) = some b ∧ b.word a = .ok (word j)) →
        (∀ j, j < k → ((word j).extractLsb' 0 7).toNat ∈ [0x07, 0x27, 0x43, 0x47, 0x4B, 0x4F, 0x57, 0x77]) →
        ((word k).extractLsb' 0 7).toNat ∉ [0x07, 0x27, 0x43, 0x47, 0x4B, 0x4F, 0x57, 0x77] →
        Traps i s 37 (pcOf (s.hart.pc + 4) + BitVec.ofNat 64 (4 * k))))
  ∧ (∀ (pc rep : Word) (f : VReg),
    let pass := (rep.extractLsb' 0 20).toNat
    let count := (rep.extractLsb' 20 20).toNat
    let index := (rep.extractLsb' 40 4).toNat
    let len := (rep.extractLsb' 44 4).toNat
    let stride := (rep.extractLsb' 48 5).toNat
    let base := (rep.extractLsb' 53 5).toNat
    let same (r : Word) : Prop := r.extractLsb' 20 20 = rep.extractLsb' 20 20 ∧ r.extractLsb' 44 14 = rep.extractLsb' 44 14 ∧ r.getLsbD 63 = true
    (rep.getLsbD 63 = false → nextPc pc rep = (pcOf (pc + 4), rep) ∧ rotate rep f = f)
    ∧ (rep.getLsbD 63 = true →
        (index < len → (nextPc pc rep).1 = pcOf (pc + 4) ∧ same (nextPc pc rep).2
          ∧ ((nextPc pc rep).2.extractLsb' 0 20).toNat = pass ∧ ((nextPc pc rep).2.extractLsb' 40 4).toNat = index + 1)
        ∧ (len ≤ index → pass + 1 < count → (nextPc pc rep).1 = pcOf (pc - BitVec.ofNat 64 (4 * len)) ∧ same (nextPc pc rep).2
          ∧ ((nextPc pc rep).2.extractLsb' 0 20).toNat = pass + 1 ∧ (nextPc pc rep).2.extractLsb' 40 4 = 0)
        ∧ (len ≤ index → count ≤ pass + 1 → nextPc pc rep = (pcOf (pc + 4), 0))
        ∧ (f.toNat < base → rotate rep f = f)
        ∧ (base ≤ f.toNat → (rotate rep f).toNat = base + (f.toNat - base + pass * stride) % (32 - base))))

/-- R127, R128: the vector loads from pages without a format complete when the register is held and every element's checks pass: each
element moved is the little-endian value the hart sees, an element not moved keeps its bits, the tag is the type's, and the new
contents are seen at once (R105). -/
def Obligations.VectorLoads : Prop := ∀ (s : State) (ty : ETy) (vd ix : VReg) (rs1 rs2 : Reg) (off : BitVec 9) (m : Bool),
  let n := etyBits ty / 8
  let d := s.rot vd
  let held := s.hart.party = none ∨ d.toNat < 4 * s.hart.held
  let loaded (i : Instr) (u : State) (l : List (Nat × Place)) : Prop :=
    ∃ t, exec i s = .next t ∧ VectorOnly { u with contexts := t.contexts } t [d] 0 ∧ u.hart = s.hart
      ∧ ((∀ e ∈ l, inBlanket e.2.key = false) → t.contexts = u.contexts) ∧ (t.hart.finalV d).tag = etyTag ty
      ∧ t.hart.readV d = t.hart.finalV d ∧ t.hart.csr.vflags = s.hart.csr.vflags
      ∧ ∀ k, k < 512 / etyBits ty →
          (∀ p, l.find? (fun e => e.1 == k) = some (k, p) → PlainPlace p →
            laneOf (etyBits ty) (t.hart.finalV d).bits k = natOfBytes ((List.range n).map (fun j => byteSeen u (p.key + j))))
          ∧ (l.find? (fun e => e.1 == k) = none → laneOf (etyBits ty) (t.hart.finalV d).bits k = laneOf (etyBits ty) (s.hart.finalV d).bits k)
  (∀ u0 leaf u l, held → checkEarly s .vload (s.unitAddr rs1 off) n = (u0, .ok leaf) → pteFmt leaf = 0 →
      checkAll u0 .vload n (unitAddrs ty (s.unitAddr rs1 off)) = (u, .ok l) → loaded (.vle ty vd rs1 off) u l)
  ∧ (∀ u l, held → checkAll s .vload n (s.strideAddrs ty rs1 rs2 m) = (u, .ok l) → loaded (.vlds ty vd rs1 rs2 m) u l)
  ∧ (∀ u l, OperandsGood s [d, s.rot ix] [⟨s.rot ix, none⟩] →
      checkAll s .vload n (s.indexAddrs ty rs1 (s.hart.readV (s.rot ix)).bits m) = (u, .ok l) → loaded (.vlx ty vd rs1 ix m) u l)

/-- R127, R128: the vector stores to pages without a format complete when their operands and every element's checks pass; in the
device's own uncompressed memory the hart sees each element's bytes, a later element over an earlier one, and every other byte as
before. -/
def Obligations.VectorStores : Prop := ∀ (s : State) (ty : ETy) (vs ix : VReg) (rs1 rs2 : Reg) (off : BitVec 9) (m : Bool),
  let n := etyBits ty / 8
  let d := s.rot vs
  let stored (i : Instr) (u : State) (v : VBits × BitVec 6) (l : List (Nat × Place)) : Prop :=
    ∃ t, exec i s = .next t ∧ t.others = s.others ∧ (∀ r, t.x r = s.x r) ∧ Retired s.hart t.hart 0 ∧ SameVectors s.hart t.hart
      ∧ SameShell s.hart { t.hart with pending := s.hart.pending } ∧ RaisesFlags s t v.2
      ∧ { t.hart.csr with
          instret := s.hart.csr.instret, repstate := s.hart.csr.repstate, vflags := s.hart.csr.vflags } = s.hart.csr
      ∧ ((∀ e ∈ l, e.2.window = false ∧ pteKind e.2.pte ≠ 3 ∧ pteCmp e.2.pte = 0 ∧ isRemote e.2.key = false) → u.poison = [] →
          t.mem = s.mem
          ∧ (∀ a, (∀ e ∈ l, ¬ (e.2.key ≤ a ∧ a < e.2.key + n)) → byteSeen t a = byteSeen s a)
          ∧ (∀ pre e post, l = pre ++ e :: post → ∀ j, j < n → (∀ f ∈ post, ¬ (f.2.key ≤ e.2.key + j ∧ e.2.key + j < f.2.key + n)) →
              byteSeen t (e.2.key + j) = BitVec.ofNat 8 (laneOf (etyBits ty) v.1 e.1 / 256 ^ j)))
  (∀ u0 leaf u l, OperandsGood s [d] (sourcesAs s ty [vs]) → checkEarly s .vstore (s.unitAddr rs1 off) n = (u0, .ok leaf) →
      pteFmt leaf = 0 → checkAll u0 .vstore n (unitAddrs ty (s.unitAddr rs1 off)) = (u, .ok l) →
      stored (.vse ty vs rs1 off) u (s.vread d (etyTag ty) allLanes) l)
  ∧ (∀ u l, OperandsGood s [d] (sourcesAs s ty [vs]) → checkAll s .vstore n (s.strideAddrs ty rs1 rs2 m) = (u, .ok l) →
      stored (.vsds ty vs rs1 rs2 m) u (s.vread d (etyTag ty) (s.active m)) l)
  ∧ (∀ u l, OperandsGood s [d, s.rot ix] [⟨d, some (etyTag ty)⟩, ⟨s.rot ix, none⟩] →
      checkAll s .vstore n (s.indexAddrs ty rs1 (s.hart.readV (s.rot ix)).bits m) = (u, .ok l) →
      stored (.vsx ty vs rs1 ix m) u (s.vread d (etyTag ty) (fun i => s.active m i && decide (i < 16))) l)

/-- R130: on a page with an FP8 format, an aligned `vle.bf16` decodes 32 elements to BF16; another type or a misaligned address takes
cause 5; and `vse` of a register whose tag is not the page's takes cause 7, and one to a KIND 2 page cause 32. -/
def Obligations.FormattedPages : Prop := ∀ (s u0 u : State) (ty : ETy) (v : VReg) (rs1 : Reg) (off : BitVec 9) (leaf : Word) (p : Place),
  let a := s.unitAddr rs1 off
  let d := s.rot v
  let held := s.hart.party = none ∨ d.toNat < 4 * s.hart.held
  let fmt := pteFmt leaf
  (held → checkEarly s .vload a (etyBits ty / 8) = (u0, .ok leaf) → fmt ≠ 0 →
    ((ty ≠ .bf16 ∨ a.toNat % fmtBytes fmt ≠ 0) → check u0 .vload a (etyBits ty / 8) true = (u, .ok p) →
        exec (.vle ty v rs1 off) s = .next (u.trap 5 a))
    ∧ (ty = .bf16 → (fmt = 3 ∨ fmt = 4) → a.toNat % 32 = 0 → check u0 .vload a 32 true = (u, .ok p) → u.badRead false p.key 32 = false →
        PlainPlace p →
        ∃ t, exec (.vle ty v rs1 off) s = .next t ∧ VectorOnly { u with contexts := t.contexts } t [d] 0
          ∧ (inBlanket p.key = false → t.contexts = u.contexts) ∧ (t.hart.finalV d).tag = .bf16
          ∧ ∀ k, k < 32 → laneOf 16 (t.hart.finalV d).bits k =
              (fToF fmtBf16 u.fm ((if fmt = 3 then fmtE4m3 else fmtE5m2).decode u.fm.ftz (byteSeen u (p.key + k)).toNat)).1 % 2 ^ 16))
  ∧ (OperandsGood s [d] [] → s.scbCheck = false → checkEarly s .vstore a (etyBits ty / 8) = (u0, .ok leaf) → fmt ≠ 0 →
      (((s.hart.readV d).tag ≠ fmtTag fmt ∨ a.toNat % fmtBytes fmt ≠ 0) → check u0 .vstore a (etyBits ty / 8) true = (u, .ok p) →
          exec (.vse ty v rs1 off) s = .next (u.trap 7 a))
      ∧ ((s.hart.readV d).tag = fmtTag fmt → (fmt = 3 ∨ fmt = 4) → a.toNat % 32 = 0 → check u0 .vstore a 32 true = (u, .ok p) →
          (pteKind leaf = 2 → exec (.vse ty v rs1 off) s = .next (u.trap 32 a))
          ∧ (pteKind leaf ≠ 2 → ∃ t, exec (.vse ty v rs1 off) s = .next t ∧ MemRetired s t 0 0
            ∧ (p.window = false → pteKind p.pte ≠ 3 → pteCmp p.pte = 0 → isRemote p.key = false → s.poison = [] →
                ∀ b, byteSeen t b = if p.key ≤ b ∧ b < p.key + 32 then BitVec.ofNat 8 ((s.hart.readV d).bits.toNat / 256 ^ (b - p.key))
                  else byteSeen s b))))

/-! ### Queues, messages, tiles and ports -/

/-- R166, R180 to R182, R235, R238: `recv`, `peek` and `wait` trap with QUEUE_MISUSE on a queue the hart may not read, wait on empty ones,
and else complete, `recv` of a completion with the core's older copies discarded; a `recv` also waits while the entries there are go to
harts that began to wait before it; `qmake` makes a queue over a ring in held window extents, and `qdrop` ends one once no allowance is out. -/
def Obligations.CoreQueues : Prop := ∀ (s : State) (vd : VReg) (rd rs1 rs2 : Reg) (q : BitVec 5),
  let n := q.toNat
  let own := coreOf s.hid
  let queue (k : Nat) : Queue := (s.core own).queue k
  let v := BitVec.ofNat 64 n
  let empty (k : Nat) : Prop := (if k < 4 then (queue k).entries.length else (queue k).count) = 0
  let named (k : Nat) : Prop := k < 8 ∧ (s.x rs1).getLsbD k = true
  let mayHold := s.hart.party = none ∨ vd.toNat < 4 * s.hart.held
  let before := s.takersBefore s.hid (s.hart.waitTime s.choices) n
  (Barred s n → Traps (.recv vd q) s 35 v ∧ Traps (.peek vd q) s 35 v)
  ∧ (¬ Barred s n → ¬ mayHold → Traps (.recv vd q) s 26 (BitVec.ofNat 64 vd.toNat) ∧ Traps (.peek vd q) s 26 (BitVec.ofNat 64 vd.toNat))
  ∧ (¬ Barred s n → mayHold → (empty n ∨ (queue n).length n ≤ before) → Waits (.recv vd q) s (.queues (BitVec.ofNat 8 (2 ^ n)) true))
  ∧ (¬ Barred s n → mayHold → empty n → Waits (.peek vd q) s (.queues (BitVec.ofNat 8 (2 ^ n)) false))
  ∧ (¬ Barred s n → mayHold → ¬ empty n →
      let e : VecReg := ⟨s.headEntry own n, .raw⟩
      (n < 4 → ∀ b rest, (queue n).entries = b :: rest → e.bits = b)
      ∧ (∃ t, exec (.peek vd q) s = .next t ∧ VectorOnly s t [vd] 0 ∧ t.hart.finalV vd = e ∧ t.hart.readV vd = e
          ∧ t.hart.csr.vflags = s.hart.csr.vflags)
      ∧ (before < (queue n).length n → ∃ t, exec (.recv vd q) s = .next t
          ∧ VectorOnly (if n < 4 ∧ e.bits.extractLsb' 0 16 = 0 then (s.openHarts ((List.range 4).map (fun j => 4 * own + j))).pop own n
            else s.pop own n) t [vd] 0
          ∧ (n < 4 → e.bits.extractLsb' 0 16 = 0 → ∀ a, byteSeen t a = homeByte s false a)
          ∧ t.hart.finalV vd = e ∧ t.hart.readV vd = e
          ∧ t.hart.csr.vflags = s.hart.csr.vflags
          ∧ ((queue n).waiting = [] → let r := (t.core own).queue n
              (n < 4 → r.entries = (queue n).entries.drop 1)
              ∧ (4 ≤ n → n < 8 → r.count = (queue n).count - 1 ∧ r.head = if (queue n).head + 1 = (queue n).cap then 0 else (queue n).head + 1))))
  ∧ ((∀ k, ¬ named k) → Traps (.wait rd rs1) s 35 8)
  ∧ (∀ k, named k → Barred s k → (∀ j, j < k → named j → ¬ Barred s j) → Traps (.wait rd rs1) s 35 (BitVec.ofNat 64 k))
  ∧ ((∀ k, named k → ¬ Barred s k) →
      (∀ k, named k → ¬ empty k → (∀ j, j < k → named j → empty j) →
        ∃ t, exec (.wait rd rs1) s = .next t
          ∧ WroteRd { s with hart := { s.hart with csr := { s.hart.csr with lastq := BitVec.ofNat 64 k } } } t rd (BitVec.ofNat 64 k))
      ∧ ((∃ k, named k) → (∀ k, named k → empty k) → Waits (.wait rd rs1) s (.queues ((s.x rs1).setWidth 8) false)))
  ∧ (s.hart.mode ≠ .u → IllegalHere (.qmake q rs1 rs2) s ∧ IllegalHere (.qdrop q) s)
  ∧ (s.hart.mode = .u → ∀ p, s.ownParty = some p → 4 ≤ n → n < 8 →
      let b := (s.x rs1).toNat
      let c := (s.x rs2).toNat
      let good := (queue n).owner = none ∧ 0 < c ∧ c ≤ 4096 ∧ b % 64 = 0
      let top := windowBase + 0x4000 * p.spad.length
      let meets := ∃ k ∈ [4, 5, 6, 7], ((s.core p.core).queue k).owner = some p.id
        ∧ ((s.core p.core).queue k).base < b + 64 * c ∧ b < ((s.core p.core).queue k).base + 64 * ((s.core p.core).queue k).cap
      (¬ good → Traps (.qmake q rs1 rs2) s 35 v)
      ∧ (good → b < windowBase ∨ top ≤ b → Traps (.qmake q rs1 rs2) s 27 (s.x rs1))
      ∧ (good → windowBase ≤ b → b < top → top < b + 64 * c → Traps (.qmake q rs1 rs2) s 27 (BitVec.ofNat 64 top))
      ∧ (good → windowBase ≤ b → b + 64 * c ≤ top → meets → Traps (.qmake q rs1 rs2) s 35 v)
      ∧ (good → windowBase ≤ b → b + 64 * c ≤ top → ¬ meets →
          ∃ t, exec (.qmake q rs1 rs2) s = .next t ∧ HartRetired s t 0 0 ∧ t.others = s.others ∧ t.mem = s.mem
            ∧ let r := (t.core own).queue n
              r.owner = some p.id ∧ r.base = b ∧ r.cap = c ∧ r.head = 0 ∧ r.count = 0)
      ∧ (Barred s n → Traps (.qdrop q) s 35 v)
      ∧ (¬ Barred s n → (queue n).granted = 0 →
          ∃ t, exec (.qdrop q) s = .next t ∧ HartRetired s t 0 0 ∧ t.others = s.others ∧ t.mem = s.mem
            ∧ (t.core own).queue n = { Queue.empty with requests := (queue n).requests })
      ∧ (¬ Barred s n → (queue n).granted ≠ 0 → NotSaving s →
          ∃ t, exec (.qdrop q) s = .next t ∧ t.hart = (waiting s (.reclaim n)).hart ∧ ((t.core own).queue n).closing = true))

/-- R153, R183, R239 to R242, R407, R408: `send` and `rput` check the rank and their register, and to a rank of this device leave under an
allowance or wait for one; a message that arrives is appended to its queue; allowances are asked for, granted, returned and reclaimed; a failed tag check
kills its context; a stream without a PENDING key stops. -/
def Obligations.Messages : Prop :=
  (∀ (s : State) (rs1 : Reg) (vs : VReg) (q : BitVec 5),
    let k := ((s.x rs1).extractLsb' 0 32).toNat
    let n := q.toNat
    let own := coreOf s.hid
    let bits := (s.hart.readV vs).bits
    let left (t : State) (l : Launch) (dst d : Nat) : Prop :=
      HartRetired s t 0 0 ∧ t.others = s.others ∧ t.mem = s.mem ∧ (t.core own).unused dst d = (s.core own).unused dst d - 1
      ∧ (t.core own).sent = (s.core own).sent + 1 ∧ ∀ m, t.launch? l.id = some m → m.sent = l.sent + 1
    let waits (i : Instr) (dst d : Nat) : Prop := NotSaving s →
      ∃ t, exec i s = .next t ∧ t.hart = (waiting s (.allowance dst d)).hart ∧ t.mem = s.mem
    (s.hart.mode ≠ .u → IllegalHere (.rput q rs1 vs) s)
    ∧ (∀ l, s.ownLaunch = some l → l.far = false → s.rankCount = 64 * l.clusters.length)
    ∧ (s.rankCount ≤ k →
        Traps (.send rs1 vs) s 35 (BitVec.ofNat 64 k) ∧ (s.hart.mode = .u → Traps (.rput q rs1 vs) s 35 (BitVec.ofNat 64 k)))
    ∧ (∀ l h, s.ownLaunch = some l → k < 64 * l.clusters.length → l.hartOf k = some h → isCompute h = true →
        let dst := coreOf h
        let m : VBits := BitVec.ofNat 512 ((bits.extractLsb' 0 256).toNat / 2 ^ 64 * 2 ^ 64 + (bits.extractLsb' 32 16).toNat * 2 ^ 32
          + (s.hart.csr.rank.extractLsb' 0 16).toNat * 2 ^ 48 + (s.hart.csr.rank.extractLsb' 16 16).toNat * 2 ^ 16 + 2)
        (4 * s.hart.held ≤ vs.toNat → Traps (.send rs1 vs) s 26 (BitVec.ofNat 64 vs.toNat)
          ∧ (s.hart.mode = .u → Traps (.rput q rs1 vs) s 26 (BitVec.ofNat 64 vs.toNat)))
        ∧ (vs.toNat < 4 * s.hart.held → s.scbCheck = false →
            (s.maySend dst (slotOf h) = true → ∃ t, exec (.send rs1 vs) s = .next t ∧ left t l dst (slotOf h)
                ∧ .queueEntryArrival dst (slotOf h) m .message ∈ t.events)
            ∧ (s.maySend dst (slotOf h) = false → waits (.send rs1 vs) dst (slotOf h))
            ∧ (s.hart.mode = .u → s.maySend dst n = true → ∃ t, exec (.rput q rs1 vs) s = .next t ∧ left t l dst n
                ∧ (l.flags.getLsbD 0 = false → .queueEntryArrival dst n bits .message ∈ t.events)
                ∧ (l.flags.getLsbD 0 = true → ∀ r, t.launch? l.id = some r → r.appends = l.appends ++ [(s.hid, dst, n, bits)]))
            ∧ (s.hart.mode = .u → s.maySend dst n = false → waits (.rput q rs1 vs) dst n))))
  ∧ (∀ (s : State) (c q src n : Nat) (e : VBits), s.recordOf c q = none → s.idleRecordOf c q = none → isFarCore c = false →
      let old := (s.core c).queue q
      (q < 4 → ∃ t, exec (.queueEntryArrival c q e .message) s = .next t ∧ ((t.core c).queue q).entries = old.entries ++ [e]
          ∧ ((t.core c).queue q).granted = old.granted - 1)
      ∧ (q < 4 → s.coreLaunch c = none → old.waiting = [] → old.entries.length + old.granted < 64 →
          ∃ t, exec (.queueEntryArrival c q e .hardware) s = .next t ∧ ((t.core c).queue q).entries = old.entries ++ [e])
      ∧ (q < 8 → old.requests = [] → old.closing = false → (q < 4 ∨ old.owner ≠ none) → 0 < old.free q →
          ∃ t, exec (.allowanceRequest src c q) s = .next t ∧ ((t.core c).queue q).granted = old.granted + min 8 (old.free q)
            ∧ ((t.core c).queue q).requests = [] ∧ t.events = s.events ++ [.allowanceGrant src c q (min 8 (old.free q))])
      ∧ (q < 8 → (old.closing = true ∨ (4 ≤ q ∧ old.owner = none) ∨ old.free q = 0) →
          ∃ t, exec (.allowanceRequest src c q) s = .next t ∧ ((t.core c).queue q).requests = old.requests ++ [src] ∧ t.events = s.events)
      ∧ (∃ t, exec (.allowanceGrant src c q n) s = .next t ∧ (t.core src).unused c q = (s.core src).unused c q + n)
      ∧ (∃ t, exec (.allowanceReturn src c q) s = .next t ∧ (t.core src).unused c q = 0)
      ∧ (∃ t, exec (.allowanceReclaim c q) s = .next t ∧ ∀ k, (t.core k).unused c q = 0))
  ∧ (∀ (s : State) (c q : Nat) (e : VBits) (ctx : BitVec 16) (l : Launch), s.ctxLaunch ctx = some l →
      ∃ t, exec (.queueEntryArrival c q e (.tagFailure ctx)) s = .next t ∧ t.launch? l.id = none)
  ∧ (∀ (s : State) (c : Nat),
      let waitsForKey := ∀ k ∈ s.keys, k.kind = .context ((s.core c).encl.extractLsb' 0 16) → k.pending = false
      (waitsForKey → ∃ t, exec (.streamStop c) s = .next t ∧ t.core c = { s.core c with meshStopped := true } ∧ { t with cores := s.cores } = s)
      ∧ (¬ waitsForKey → exec (.streamStop c) s = .next s))

/-- R231 to R233, R294 to R296: the tag-table instructions look up, install, remove and clean the entry of VA[56:8] for the own party;
`mtcfg` checks a view and writes the tile register, and `mtpack` packs a valid one into a vector register. All are illegal outside
U-mode. -/
def Obligations.TagsAndTiles : Prop := ∀ (s : State) (rd rs1 rs2 : Reg) (vd : VReg) (mt : BitVec 5) (hi : Bool),
  let own := coreOf s.hid
  let tg := ((s.x rs1).extractLsb' 8 49).toNat
  let tags := (s.core own).tags
  let found := tags.find? (fun e => some e.party == s.hart.party && e.tag == tg)
  let with_ (l : List TagEntry) : State := s.setCore own { s.core own with tags := l }
  let a := s.x rs2
  (s.hart.mode ≠ .u → ∀ i ∈ [Instr.slook rd rs1, .sinst rs1 rs2, .sinv rs1, .sclean rs1, .mtcfg mt rs1 rs2, .mtpack vd mt hi], IllegalHere i s)
  ∧ (s.hart.mode = .u →
      (found = none → WritesRd (.slook rd rs1) s rd 0xFFFFFFFFFFFFFFFF ∧ JustRetires (.sinv rs1) s ∧ JustRetires (.sclean rs1) s)
      ∧ (∀ e, found = some e →
          WritesRd (.slook rd rs1) s rd (BitVec.ofNat 64 (e.slot + e.user.toNat * 2 ^ 16 + if e.dirty then 2 ^ 24 else 0))
          ∧ (∃ t, exec (.sinv rs1) s = .next t ∧ OnlyRetired (with_ (tags.erase e)) t)
          ∧ (∃ t, exec (.sclean rs1) s = .next t
              ∧ OnlyRetired (with_ (tags.map (fun o => if o = e then { o with dirty := false } else o))) t))
      ∧ (let slot := (a.extractLsb' 0 11).toNat
         let held := match s.ownParty with
           | some p => p.spad.length
           | none => 0
         (held ≤ slot / 64 → Traps (.sinst rs1 rs2) s 27 (BitVec.ofNat 64 (windowBase + 256 * slot)))
         ∧ (∀ p, s.ownParty = some p → slot / 64 < held →
             let e : TagEntry := ⟨p.id, slot, tg, a.getLsbD 31, a.extractLsb' 16 8⟩
             ∃ t l, exec (.sinst rs1 rs2) s = .next t ∧ OnlyRetired (with_ l) t
               ∧ ∀ o, o ∈ l ↔ o = e ∨ (o ∈ tags ∧ ¬ (o.party = p.id ∧ (o.tag = tg ∨ o.slot = slot)))))
      ∧ (let base := ((s.x rs1).extractLsb' 0 19).toNat
         let rows := (a.extractLsb' 0 8).toNat + 1
         let cols := (a.extractLsb' 8 8).toNat + 1
         let stride := (a.extractLsb' 16 16).toNat
         let ty := (a.extractLsb' 32 4).toNat
         let rb := if ty = 1 then 4 * cols else if ty = 2 ∨ ty = 3 then 2 * cols else if ty = 11 then cols + cols / 8
           else if ty = 12 then cols / 2 + cols / 8 else cols
         let held := match s.ownParty with
           | some p => 0x4000 * p.spad.length
           | none => 0
         let bad := base % 64 ≠ 0 ∨ stride % 64 ≠ 0 ∨ ty ∉ [1, 2, 3, 9, 10, 11, 12] ∨ ((ty = 11 ∨ ty = 12) ∧ cols % 32 ≠ 0)
           ∨ (1 < rows ∧ stride < rb) ∨ held < base + (rows - 1) * stride + rb
         (bad → Traps (.mtcfg mt rs1 rs2) s 33 (mt.setWidth 64))
         ∧ (¬ bad → ∃ t v, exec (.mtcfg mt rs1 rs2) s = .next t
             ∧ OnlyRetired { s with hart := { s.hart with mt := s.hart.mt.set (mt.toNat % 8) v (Nat.mod_lt _ (by decide)) } } t
             ∧ (v.extractLsb' 0 19).toNat = base ∧ (v.extractLsb' 19 8).toNat = rows - 1 ∧ (v.extractLsb' 27 8).toNat = cols - 1
             ∧ (v.extractLsb' 35 13).toNat = stride / 64 ∧ (v.extractLsb' 48 4).toNat = ty ∧ v.getLsbD 52 = true))
      ∧ (let t0 := s.hart.mt[mt.toNat % 8]'(Nat.mod_lt _ (by decide))
         let mayHold := s.hart.party = none ∨ vd.toNat < 4 * s.hart.held
         (¬ mayHold → Traps (.mtpack vd mt hi) s 26 (BitVec.ofNat 64 vd.toNat))
         ∧ (mayHold → t0.getLsbD 52 = false → Traps (.mtpack vd mt hi) s 33 (mt.setWidth 64))
         ∧ (mayHold → t0.getLsbD 52 = true → ∃ t, exec (.mtpack vd mt hi) s = .next t ∧ VectorOnly s t [vd] 0
             ∧ t.hart.csr.vflags = s.hart.csr.vflags ∧ (t.hart.finalV vd).tag = .raw ∧ t.hart.readV vd = t.hart.finalV vd
             ∧ ∀ k, k < 8 → laneOf 64 (t.hart.finalV vd).bits k =
                 if k = (if hi then 2 else 1) then (t0.extractLsb' 0 52).toNat else laneOf 64 (s.hart.finalV vd).bits k)))

/-- R166, R285 to R287, R299, R300: `qput` stages three words and submits with the fourth, `qpush` submits half a register, `qpop` takes the
oldest SHIP's result; a submission without room, to q0 without the lease, or behind a hart of the core that began to wait for the port
before it, waits. The lease of an array passes in core order, and
from a holder that was idle for 64 cycles. Illegal in M-mode. -/
def Obligations.QueuePorts : Prop :=
  (∀ (s : State) (port : BitVec 5) (rd rs : Reg) (vs : VReg) (hi : Bool),
    let n := port.toNat
    let v := BitVec.ofNat 64 n
    let noPort := isCompute s.hid = false ∧ n = 0
    let submits (i : Instr) (w : BitVec 256) (st : Vector Stage 5) : Prop :=
      let ship := w.extractLsb' 0 8 = 0x42
      let site := s.routeSite n w
      let ready := s.engineReady s.hid (s.hart.waitTime s.choices) n site
      (ship → 8 ≤ s.hart.ships.length → Traps i s 35 v)
      ∧ (¬ (ship ∧ 8 ≤ s.hart.ships.length) → ready = false → Waits i s (.engine n site))
      ∧ (¬ (ship ∧ 8 ≤ s.hart.ships.length) → ready = true →
          ∃ t, exec i s = .next t
            ∧ HartRetired { s with hart := { s.hart with stage := st, ships := if ship then s.hart.ships ++ [none] else s.hart.ships } } t 0 0
            ∧ t.others = s.others ∧ t.hart.pending = s.hart.pending.filter (fun c => s.heldByte c.1)
            ∧ (isCompute s.hid = true → Memory.wf s.mem = true → ∀ a, byteSeen t a = byteSeen s a)
            ∧ t.nextCmd = s.nextCmd + 1
            ∧ t.engines = s.engines ++ [{
                cmd := { word := w, by_ := s.pusher n, done := 0, id := s.nextCmd }
                site := (s.publishFor n).routeSite n w, parked := false, started := false, since := s.clock }]
            ∧ (n = 0 → (t.cluster (s.hid / 64)).lease.commands = (s.cluster (s.hid / 64)).lease.commands + 1))
    (s.hart.mode = .m → ∀ i ∈ [Instr.qpush port vs hi, .qput port rs, .qpop rd port], IllegalHere i s)
    ∧ (s.hart.mode ≠ .m → noPort → Traps (.qpush port vs hi) s 35 v ∧ Traps (.qput port rs) s 35 v)
    ∧ (s.hart.mode ≠ .m → ¬ noPort → OperandsGood s [vs] [⟨vs, none⟩] → ∀ hn : n < 5,
        ((s.hart.stage[n]).fill ≠ 0 → Traps (.qpush port vs hi) s 35 v)
        ∧ ((s.hart.stage[n]).fill = 0 →
            submits (.qpush port vs hi) ((s.hart.readV vs).bits.extractLsb' (if hi then 256 else 0) 256) s.hart.stage))
    ∧ (s.hart.mode ≠ .m → ¬ noPort → ∀ hn : n < 5,
        let f := (s.hart.stage[n]).fill
        let w := (s.hart.stage[n]).word
        ∃ w' : BitVec 256, (∀ b, b < 256 → w'.getLsbD b = if 64 * f ≤ b ∧ b < 64 * f + 64 then (s.x rs).getLsbD (b - 64 * f) else w.getLsbD b)
          ∧ (f ≠ 3 → ∃ t, exec (.qput port rs) s = .next t
              ∧ OnlyRetired { s with hart := { s.hart with stage := s.hart.stage.set n ⟨f + 1, w'⟩ } } t)
          ∧ (f = 3 → submits (.qput port rs) w' (s.hart.stage.set n ⟨0, 0⟩)))
    ∧ (s.hart.mode ≠ .m → n ≠ 2 ∨ s.hart.ships = [] → Traps (.qpop rd port) s 35 v)
    ∧ (s.hart.mode ≠ .m → n = 2 → ∀ r rest, s.hart.ships = r :: rest →
        (r = none → Waits (.qpop rd port) s .ship)
        ∧ (∀ w, r = some w → ∃ t, exec (.qpop rd port) s = .next t
            ∧ WroteRd { s with hart := { s.hart with ships := rest } } t rd w)))
  ∧ (∀ (s : State) (k : Nat),
    let l := (s.cluster k).lease
    let seeks (c : Nat) : Prop := c / 16 = k ∧ ∃ h ∈ [4 * c, 4 * c + 1, 4 * c + 2, 4 * c + 3], ∃ site, (s.getHart h).blocked = some (.engine 0 site)
    (∀ c, l.holder = none → seeks c → (∀ d, seeks d → (l.last < c → l.last < d → c ≤ d) ∧ (c ≤ l.last → d ≤ l.last ∧ c ≤ d)) →
      ∃ t, exec (.leaseGrant k) s = .next t ∧ (t.cluster k).lease = ⟨some c, false, c, 0, 0, none⟩ ∧ (t.cluster k).loadedB = none
        ∧ { t with clusters := s.clusters } = s)
    ∧ (s.leaseIdle k = true → ∃ t, exec (.leaseIdleExpiry k) s = .next t ∧ (t.cluster k).lease.holder = none
        ∧ t.clock = max s.clock (l.idleSince.getD s.clock + 64)))

/-! ### Kernel and monitor -/

/-- R134 to R138, R266, R267, R362: `scall` appends the request to the context's ring after the stores are published, and waits while the
ring is full; `mprobe` reports a translation without a trap; `mhint` completes always; `launch` answers a status and no effect, or the
new launch's id. -/
def Obligations.KernelWords : Prop := ∀ (s : State) (rd rs1 rs2 : Reg),
  let root := rootOf s.hart.csr.ptroot
  let ring : Word := BitVec.ofNat 64 (s.ctxField root 0x150 8)
  let a := (s.x rs1).toNat
  let ctx := s.hart.csr.ctxid.extractLsb' 0 16
  let die := dieOfCore (coreOf s.hid)
  let tctx := ctxOf s.hart.csr.ptroot
  (s.hart.mode ≠ .u → IllegalHere (.scall rs1) s)
  ∧ (s.hart.mode = .u → ringNamed ring = false → Traps (.scall rs1) s 8 0)
  ∧ (s.hart.mode = .u → ringNamed ring = true → ∀ u, (∀ c, check s .load (s.x rs1) 64 false = (u, .error c) → exec (.scall rs1) s = .next (u.trap c (s.x rs1)))
      ∧ (∀ p, check s .load (s.x rs1) 64 false = (u, .ok p) →
          let req := u.readPlace p 64
          let w := u.publish
          let entry := takeBytes req 0 4 ++ bytesOfNat 2 ctx.toNat ++ bytesOfNat 2 0 ++ bytesOfNat 4 (s.hart.csr.rank.extractLsb' 0 32).toNat
            ++ bytesOfNat 4 0 ++ takeBytes req 16 48
          (MayPublish s → w.ringFull ring = true → exec (.scall rs1) s = w.block .ring)
          ∧ (MayPublish s → w.ringFull ring = false →
            ∃ t, exec (.scall rs1) s = .next t ∧ HartRetired s t 0 0 ∧ t.others = s.others ∧ t.hart.pending = []
              ∧ t.mem = (w.ringWrite ring entry).mem)))
  ∧ (∃ n, WritesRd (.mprobe rd rs1) s rd (BitVec.ofNat 64 n)
      ∧ (2 ^ 57 ≤ a → n = 1 * 2 ^ 32)
      ∧ (a < windowBase → ∀ f, walk s die tctx root a = .error f →
          n = (match f with
            | .notMapped => 2
            | .malformed => 3
            | .unowned => 4
            | .revoked => 5
            | .integrity => 8) * 2 ^ 32)
      ∧ (a < windowBase → ∀ p lvl l, walk s die tctx root a = .ok (p, lvl, l) → permits p (if s.hart.mode = .u then .u else .s) .read = true →
          ∀ r, leafRights s (ptePfn p * 4096 + a % 2 ^ leafBits lvl (pteSpan p)) (pteKind p) false = .ok r → n % 2 = 1 ∧ n / 2 ^ 32 = 0))
  ∧ (∃ t, exec (.mhint rs1 rs2) s = .next t ∧ MemRetired s t 0 0 ∧ t.hart.pending = s.hart.pending
      ∧ ((s.x rs2).extractLsb' 0 2 = 3 ∨ root = 0 ∨ s.ctxField root 0x120 4 = 0 → t.mem = s.mem))
  ∧ (s.hart.mode = .u → IllegalHere (.launch rd rs1) s)
  ∧ (s.hart.mode ≠ .u →
      (s.launchRecord a = none → WritesRd (.launch rd rs1) s rd 5)
      ∧ (∀ bs, s.launchRecord a = some bs →
          let st := s.launchStatus bs ctx
          (st ≠ 0 → WritesRd (.launch rd rs1) s rd (BitVec.ofNat 64 st))
          ∧ (st = 0 → ∃ t, exec (.launch rd rs1) s = .next t
              ∧ WroteRd (s.startLaunch bs ctx) t rd (BitVec.ofNat 64 (s.nextLaunch * 65536))
              ∧ t.nextLaunch = (if s.nextLaunch = 0xFFFF then 1 else s.nextLaunch + 1)
              ∧ ((∀ c, s.ctx? ctx = some c → c.pairedWith = none) → ∃ l, t.launches = s.launches ++ [l] ∧ l.id = s.nextLaunch
                  ∧ l.ctx = ctx ∧ l.submitter = s.hid ∧ l.sstep = 0 ∧ l.ended = none))))

/-- R402 to R406, R410: the monitor's instructions are illegal outside M-mode; each publishes the hart's stores and completes with RESULT
and SLOT in MSTAT and the effect of its table. A rotation completes with interrupt 11 pending at the hart that started it, and the old
key's slot becomes FREE once its messages are delivered. -/
def Obligations.MonitorWords : Prop :=
  (∀ (s : State) (rs1 rs2 : Reg),
    let all := [Instr.monkey rs1 rs2, .monseal rs1 rs2, .monenter rs1, .monleave]
    let own := coreOf s.hid
    let w := s.x rs1
    let slot := (w.extractLsb' 0 7).toNat
    let ctx := w.extractLsb' 16 16
    let done (i : Instr) (result : Nat) (p : State → Prop) : Prop :=
      ∃ t, exec i s = .next t ∧ (∀ r, t.x r = s.x r) ∧ Retired s.hart t.hart 0 ∧ t.hart.pending = [] ∧ t.others = s.publish.others
        ∧ (t.hart.csr.mstat.extractLsb' 0 4).toNat = result ∧ p t
    (s.hart.mode ≠ .m → ∀ i ∈ all, IllegalHere i s)
    ∧ (s.hart.mode = .m → s.hart.lostStore = true → ∀ i ∈ all,
        exec i s = .next (({ s with hart := { s.hart with lostStore := false } } : State).trap 7 0))
    ∧ (s.hart.mode = .m → MayPublish s →
        let keeps (t : State) : Prop := t.keys = s.keys ∧ t.sealedKeys = s.sealedKeys
        let slotOf_ (t : State) (n : Nat) : Prop := (t.hart.csr.mstat.extractLsb' 8 7).toNat = n
        let free (n : Nat) : Prop := ∀ k ∈ s.keys, k.slot ≠ n
        let chosen (n : Nat) : Prop := if w.getLsbD 7 then n < 128 ∧ free n ∧ ∀ j, j < n → ¬ free j else n = slot
        let use := (w.extractLsb' 8 2).toNat
        (w.getLsbD 7 = true → (∀ n, n < 128 → ¬ free n) → done (.monkey rs1 rs2) 1 keeps)
        ∧ (w.getLsbD 7 = false → use ≠ 3 → ¬ free slot → done (.monkey rs1 rs2) 2 keeps)
        ∧ (∀ n, chosen n → (use = 3 → w.getLsbD 7 = false) →
            (use = 3 → done (.monkey rs1 rs2) 0 (fun t => slotOf_ t n ∧ t.keys = s.keys.filter (fun k => k.slot != n)
              ∧ t.sealedKeys = s.sealedKeys.filter (fun e => e.2 != n)))
            ∧ (use = 2 → free n → done (.monkey rs1 rs2) 0 (fun t => slotOf_ t n
              ∧ ∃ k, t.keys = s.keys ++ [k] ∧ k.slot = n ∧ k.pending = false ∧ k.kind = .kernel))
            ∧ (use = 0 → free n →
                let has (b : Bool) : Prop := ∃ k ∈ s.keys, k.kind = .context ctx ∧ k.pending = b
                (has false → has true → done (.monkey rs1 rs2) 5 keeps)
                ∧ (¬ (has false ∧ has true) → done (.monkey rs1 rs2) 0 (fun t => slotOf_ t n
                    ∧ ∃ k, t.keys = s.keys ++ [k] ∧ k.slot = n ∧ k.kind = .context ctx ∧ (k.pending = true ↔ has false ∨ has true)))))
        ∧ (let e := (w.extractLsb' 0 16).toNat * 8 + (w.extractLsb' 16 3).toNat
           let n := ((s.x rs2).extractLsb' 0 7).toNat
           let rest := s.sealedKeys.filter (fun x => x.1 != e)
           let model := ∃ k ∈ s.keys, k.slot = n ∧ k.pending = false ∧ k.kind = .model
           ((s.x rs2).getLsbD 7 = true → done (.monseal rs1 rs2) 0 (fun t => t.sealedKeys = rest))
           ∧ ((s.x rs2).getLsbD 7 = false → model → done (.monseal rs1 rs2) 0 (fun t => t.sealedKeys = rest ++ [(e, n)]))
           ∧ ((s.x rs2).getLsbD 7 = false → ¬ model → done (.monseal rs1 rs2) 2 keeps))
        ∧ (let c := w.extractLsb' 0 16
           let active := ∃ k ∈ s.keys, k.kind = .context c ∧ k.pending = false
           let e := (s.core own).encl
           (¬ active → done (.monenter rs1) 4 (fun t => (t.core own).encl = e))
           ∧ (active → e.getLsbD 16 = true → e.extractLsb' 0 16 ≠ c → done (.monenter rs1) 5 (fun t => (t.core own).encl = e))
           ∧ (active → (e.getLsbD 16 = false ∨ e.extractLsb' 0 16 = c) →
               done (.monenter rs1) 0 (fun t => (t.core own).encl = c.setWidth 17 ||| 0x10000)))
        ∧ (∃ t, exec .monleave s = .next t ∧ Retired s.hart t.hart 0 ∧ (∀ r, t.x r = s.x r) ∧ (t.hart.csr.mstat.extractLsb' 0 4) = 0
            ∧ (t.core own).encl = 0 ∧ (t.core own).tags = [] ∧ (t.core own).icache = []
            ∧ (∀ h, coreOf h = own → (t.getHart h).fetch = [] ∧ ∀ r, (t.getHart h).finalV r = ⟨0, .raw⟩)
            ∧ (Memory.wf s.mem = true → ∀ off, off < 0x80000 → Memory.get t.mem (spadKey own off) = 0))))
  ∧ (∀ (s : State) (ctx : BitVec 16),
    (∀ r, s.rotations.find? (fun r => r.ctx == ctx && !r.done) = some r →
      ∃ t, exec (.rotationComplete ctx) s = .next t ∧ (t.getHart r.hart).csr.meip = true ∧ .oldKeyRetire ctx ∈ t.events
        ∧ ∀ o ∈ t.rotations, o.ctx = ctx → o.done = true)
    ∧ ((∃ r ∈ s.rotations, r.ctx = ctx ∧ r.done = true) → ∃ t, exec (.oldKeyRetire ctx) s = .next t
        ∧ (∀ k ∈ t.keys, k.kind = .context ctx → k.pending = false ∧ { k with pending := true } ∈ s.keys)
        ∧ (∀ k, k.kind ≠ .context ctx → (k ∈ t.keys ↔ k ∈ s.keys)))
    ∧ (∀ h, let c := (s.getHart h).csr.rkctl.extractLsb' 0 16
        let busy := ∃ r ∈ s.rotations, r.ctx = c ∧ r.done = false
        let ready := ∃ k ∈ s.keys, k.kind = .context c ∧ k.pending = true
        (busy → ∃ t, exec (.rkctlGo h) s = .next t ∧ ((t.getHart h).csr.mstat.extractLsb' 0 4) = 5 ∧ t.rotations = s.rotations)
        ∧ (¬ busy → ¬ ready → ∃ t, exec (.rkctlGo h) s = .next t ∧ ((t.getHart h).csr.mstat.extractLsb' 0 4) = 4 ∧ t.rotations = s.rotations)
        ∧ (¬ busy → ready → ∃ t, exec (.rkctlGo h) s = .next t ∧ ((t.getHart h).csr.mstat.extractLsb' 0 4) = 0
            ∧ .rotationComplete c ∈ t.events ∧ ∃ r, t.rotations = s.rotations ++ [r] ∧ r.ctx = c ∧ r.hart = h ∧ r.done = false)))

/-- R369, R374 to R379, R371: `frec`, the record port, releases, recalls and revocations. A batch commits whole with result 0 or answers
its reason and changes nothing. -/
def Obligations.FrameRecord : Prop :=
  (∀ (s : State) (rd rs1 rs2 : Reg),
    let n := ((s.x rs2).extractLsb' 0 6).toNat
    let iss : Issuer := if s.hart.mode = .m then .monitor else .accel
    let r := s.publish.commitBatch iss (s.x rs1).toNat n
    (s.hart.mode = .u → IllegalHere (.frec rd rs1 rs2) s)
    ∧ (s.hart.mode ≠ .u → MayPublish s →
        (∃ t, exec (.frec rd rs1 rs2) s = .next t ∧ WroteRd r.1 t rd (BitVec.ofNat 64 r.2) ∧ t.hart.pending = [])
        ∧ (n = 0 ∨ 32 < n → ∃ t, exec (.frec rd rs1 rs2) s = .next t ∧ WroteRd s.publish t rd 0xFF01)
        ∧ (r.2 ≠ 0 → r.1 = s.publish)))
  ∧ (∀ (s : State) (iss : Issuer) (pa : BitVec 48) (n c : Nat) (v : Word),
    let r := s.commitBatch iss pa.toNat n
    (iss ≠ .host → exec (.batchCommit iss pa n) s = .next r.1)
    ∧ (∀ g, iss = .host → (∀ p ∈ r.1.ports, p.2.busy = some (pa.toNat, n) → p = (c, g)) → (c, g) ∈ r.1.ports → g.busy = some (pa.toNat, n) →
        g.held = [] → ∃ t, exec (.batchCommit iss pa n) s = .next t
          ∧ t.portGroup c = { g with busy := none, result := r.2, done := g.done + 1 } ∧ t.mem = r.1.mem ∧ t.frames = r.1.frames)
    ∧ (c < 32 → (s.portGroup c).busy = none → ∃ t, exec (.rpGo c v) s = .next t
        ∧ (t.portGroup c).busy = some (((s.portGroup c).batch.extractLsb' 4 44).toNat * 16, (v.extractLsb' 0 6).toNat)
        ∧ ∃ e, t.events = s.events ++ [e])
    ∧ (c < 32 → (s.portGroup c).busy ≠ none → ∃ t, exec (.rpGo c v) s = .next t
        ∧ t.portGroup c = { s.portGroup c with held := (s.portGroup c).held ++ [v] } ∧ { t with ports := s.ports } = s))
  ∧ (∀ (s : State) (f : Nat) (k : Kernel),
    let e := s.entry f
    (e.extractLsb' 0 2 = 0 → e.extractLsb' 4 2 ≠ 0 → ∃ t, exec (.firmwareRelease f) s = .next t
        ∧ (t.entry f).extractLsb' 0 2 = e.extractLsb' 4 2 ∧ (t.entry f).extractLsb' 2 2 = 0 ∧ (t.entry f).extractLsb' 4 2 = 0 ∧ t.mem = s.mem)
    ∧ (∀ r ∈ s.recalls, r.frame = f → r.revoking = false → ∃ t, exec (.recallDeadlineExpiry f) s = .next t
        ∧ t.events = s.events ++ [.revocationCommit f] ∧ s.clock ≤ t.clock ∧ ∀ q ∈ t.recalls, q.frame = f → q.revoking = true)
    ∧ ((∃ r ∈ s.recalls, r.frame = f ∧ r.revoking = true) → ∃ t, exec (.revocationCommit f) s = .next t
        ∧ (t.entry f).extractLsb' 2 2 = 0 ∧ (t.entry f).getLsbD 8 = true ∧ (t.entry f).extractLsb' 0 2 = e.extractLsb' 0 2
        ∧ ∀ q ∈ t.recalls, q.frame ≠ f)
    ∧ (∃ t, exec (.suspClear k) s = .next t ∧ (k = .host → t.suspHost = false) ∧ (k = .accel → t.suspAccel = false)
        ∧ { t with suspHost := s.suspHost, suspAccel := s.suspAccel } = s)
    ∧ (∀ a : DomainAccess, ∃ t, exec (.domainWindowAccess a) s = .next t
        ∧ (∀ bs, a.store = some bs → a.byHost = false → inLocalHbm s a.pa = true → inLocalHbm s (a.pa + bs.length - 1) = true →
            let d := s.entry (frameOf a.pa)
            (d.getLsbD 14 = true → d.getLsbD 7 = false → d.extractLsb' 0 2 = 2 → t.mem = (s.storeWhole a.pa bs).mem)
            ∧ (d.getLsbD 14 = false ∨ d.getLsbD 7 = true → t = s))
        ∧ (a.store = none ∨ a.byHost = true → t = s)))


/-! ### Commands -/

/-- R286, R289, R292: an engine performs only what it has accepted; it rejects a CMD of another port, nonzero bits [15:14], RESUME or
ATOMIC where the command does not define it, and a kernel's command from U-mode, with BAD_CMD; a completion takes the command from its
engine and posts a TYPE 0 entry to the pushing slot when NOTIFY is set or the status is not OK. A status that a command of its kind has
not is none that it completes with (Table 19-13). -/
def Obligations.CommandRules : Prop := ∀ (s : State) (c : Command) (st : BitVec 16) (w : Word) (p : BitVec 128),
  (¬ AtEngine s c → ∀ i ∈ Instr.commandCompletion c st w p :: commandForms c, exec i s = .next s)
  ∧ (c.cmd / 0x20 ≠ c.by_.port ∨ c.word.extractLsb' 14 2 ≠ 0 → ∀ i ∈ commandForms c, Completes i s s c 1 0 0)
  ∧ (c.word.getLsbD 10 = true → ∀ i ∈ commandForms c, i ∉ [Instr.mloadw c, .mdrain c, .cpy c, .cpyt c, .fill c] → Completes i s s c 1 0 0)
  ∧ (c.word.getLsbD 11 = true → ∀ i ∈ commandForms c, i ∉ [Instr.mdrain c, .ship c] → Completes i s s c 1 0 0)
  ∧ (c.by_.mode = .u → ∀ i ∈ [Instr.migr c, .tabload c], Completes i s s c 1 0 0)
  ∧ (mayPost c st.toNat = false → exec (.commandCompletion c st w p) s = .next s)
  ∧ (AtEngine s c → mayPost c st.toNat = true → ∃ t pre a post, exec (.commandCompletion c st w p) s = .next t
      ∧ s.engines = pre ++ a :: post ∧ a.cmd = c ∧ (∀ b ∈ pre, b.cmd ≠ c) ∧ t.engines = pre ++ post ∧ t.mem = s.mem
      ∧ (c.word.getLsbD 8 = false → st = 0 → t.cores = s.cores ∧ t.launches = s.launches)
      ∧ (c.word.getLsbD 8 = true ∨ st ≠ 0 → c.by_.launch = none →
          let q := (s.core (c.by_.hart / 4)).queue (c.by_.hart % 4)
          q.waiting = [] → q.hasFree (c.by_.hart % 4) = true →
          ∃ e, ((t.core (c.by_.hart / 4)).queue (c.by_.hart % 4)).entries = q.entries ++ [e]
            ∧ e.extractLsb' 0 16 = 0 ∧ e.extractLsb' 16 16 = st ∧ e.extractLsb' 32 16 = c.word.extractLsb' 16 16
            ∧ e.extractLsb' 48 16 = BitVec.ofNat 16 c.by_.port ∧ e.extractLsb' 64 64 = w ∧ e.extractLsb' 128 128 = p))

/-- R307 to R309, R311, R312: the matrix commands. MZERO zeroes its view; MLOADW writes the records of its image; MMA adds to each element
of C the chunk of A's row and B's column; MDRAIN writes a converted row; MEND completes. A view outside the held extents, or an image
outside the held segments, is UNHELD. -/
def Obligations.MatrixCommands : Prop := ∀ (s : State) (c : Command),
  let v0 := viewOf (cmdOp0 c)
  let v1 := viewOf (cmdOp1 c)
  let goodZero := PlainWord c false false ∧ c.word.extractLsb' 32 96 = 0 ∧ cmdOp2 c = 0 ∧ badView (cmdOp1 c) = false ∧ v1.type = 1
  let windowOnly := c.word.getLsbD 35 = false
  (s.pusherParty c = none →
    (goodZero → Completes (.mzero c) s s c 6 0 0) ∧ (badLoad c = false → Completes (.mloadw c) s s c 6 0 0)
    ∧ (badMma c = false → Completes (.mma c) s s c 6 0 0) ∧ (badDrain c = false → Completes (.mdrain c) s s c 6 0 0))
  ∧ (∀ p, s.pusherParty c = some p → p.state ≠ .restoring →
    (goodZero → s.viewUnheld c v1 = true → Completes (.mzero c) s s c 6 0 0)
    ∧ (badLoad c = false → s.imageUnheld c = true → Completes (.mloadw c) s s c 6 0 0)
    ∧ (badMma c = false → s.viewUnheld c v0 = true ∨ s.viewUnheld c v1 = true ∨ s.imageUnheld c = true → Completes (.mma c) s s c 6 0 0)
    ∧ (badDrain c = false → s.viewUnheld c v0 = true ∨ (windowOnly ∧ s.viewUnheld c v1 = true) → Completes (.mdrain c) s s c 6 0 0))
  ∧ (∀ p, s.pusherParty c = some p → p.spad.Nodup → p.spad.length ≤ 31 → Memory.wf s.mem = true →
    (goodZero → s.viewUnheld c v1 = false →
      ∃ u, Completes (.mzero c) s u c 0 (BitVec.ofNat 64 (v1.rows * v1.rb)) 0 ∧ OnlyView s u p v1
        ∧ ∀ off, InView v1 off → windowByte u p off = some 0)
    ∧ (badLoad c = false → s.imageUnheld c = false →
      let col0 := if c.word.getLsbD 10 then cmdBits c 52 9 else 0
      let cols := cmdBits c 44 8 + 1
      let rec_ := recBytes (cmdBits c 37 4)
      let at_ (off : Nat) := p.hamperAt (cmdBits c 32 5) off
      (∀ u, loadColumns s c p col0 (cols - col0) = (u, none) →
        ∃ t, Completes (.mloadw c) s t c 0 (BitVec.ofNat 64 ((cols - cmdBits c 52 9) * (cmdBits c 41 3 + 1) * rec_)) 0 ∧ t.mem = u.mem
          ∧ (∀ a, (∀ off, off < imageBytes c → at_ off ≠ a) → Memory.get t.mem a = Memory.get s.mem a))
      ∧ (∀ u col e a, loadColumns s c p col0 (cols - col0) = (u, some (col, e, a)) → e ≠ 36 → p.state ≠ .restoring →
          FailsAt (.mloadw c) s (u.staleB c p col0 col) c e false (BitVec.ofNat 64 a) (BitVec.ofNat 64 col) 0)
      ∧ (∀ u q, cols = 1 → cmdBits c 41 3 = 0 → cmdBits c 37 4 ∈ [2, 3, 9, 10] → OneBlock (cmdOp0 c).toNat rec_ →
          engPlaceWith true true s c (matrixTlb c) (cmdOp0 c).toNat rec_ false = (u, .ok q) → PlainPlace q → pteKind q.pte ≠ 1 →
          pteFmt q.pte = 0 → poisoned s.poison q.key rec_ = false → s.linkCut q.key rec_ = false → ∃ t, Completes (.mloadw c) s t c 0 (BitVec.ofNat 64 rec_) 0
            ∧ ∀ k, k < rec_ → Memory.get t.mem (at_ k) = engByte s c q (q.key + k)))
    ∧ (badMma c = false → s.viewUnheld c v0 = false → s.viewUnheld c v1 = false → s.imageUnheld c = false →
      ∀ cs as_, readRows s c v1 (List.range v1.rows) = .ok cs → readRows s c v0 (List.range v0.rows) = .ok as_ →
      (s.bColumns p c = none → ∃ u a, FailsAt (.mma c) s u c 34 false a 0 0 ∧ u.mem = s.mem)
      ∧ (∀ bs, s.bColumns p c = some bs → (∀ r ∈ as_, rowOk v0.type v0.cols r = true) →
        ∃ u cycles, Completes (.mma c) s u c 0 cycles 0 ∧ OnlyView s u p v1
          ∧ ∀ i ra rc n b, as_[i]? = some ra → cs[i]? = some rc → bs[n]? = some b → n < v1.cols → ∀ k, k < 4 →
              windowByte u p (v1.row i + 4 * n + k)
                = some (byteOf (BitVec.ofNat 64 (arrayAdd (natOfBytes (takeBytes rc (4 * n) 4)) (chunkOf (aBlocks v0 ra) b))) k)))
    ∧ (badDrain c = false → c.word.getLsbD 11 = false → s.viewUnheld c v0 = false → (windowOnly → s.viewUnheld c v1 = false) →
      let row0 := cmdBits c 45 9
      (∀ u r m, drainRows s c row0 0 (v0.rows - row0) = (u, r, m, none) → Completes (.mdrain c) s u c 0 (BitVec.ofNat 64 r) (BitVec.ofNat 128 m))
      ∧ (∀ u r m e w a, drainRows s c row0 0 (v0.rows - row0) = (u, r, m, some (e, w, a)) →
          FailsAt (.mdrain c) s u c e w (BitVec.ofNat 64 a) (BitVec.ofNat 64 r) (BitVec.ofNat 128 m))
      ∧ (∀ u bs, windowOnly → v0.rows = 1 → row0 = 0 → engRead s c (matrixTlb c) (v0.rowVa 0) v0.rb = (u, .ok bs) →
          let xs := f32Row bs v0.cols
          let out := drainRow (cmdBits c 32 3) (cmdBits c 37 8) xs
          ∃ t, Completes (.mdrain c) s t c 0 1 (BitVec.ofNat 128 (rowMax 0 xs))
            ∧ (∀ k b, (out.1 ++ out.2.flatten)[k]? = some b → windowByte t p (v1.row 0 + k) = some b)
            ∧ (c.word.getLsbD 36 = true → ∀ k, k < v0.rb → windowByte t p (v0.row 0 + k) = some 0)
            ∧ (c.word.getLsbD 36 = false → OnlyView s t p v1))))
  ∧ (PlainWord c false false → c.word.extractLsb' 32 224 = 0 → Completes (.mend c) s s c 0 0 0)

/-- R316, R318 to R321, R269 to R277: the copy engine. A copy moves every byte, a fill repeats its pattern from its start, a tensor copy of one
row is a copy; OFFSET beyond the transfer, or without RESUME, is BAD_CMD; SFILL installs slots and SEVICT writes the dirty ones back; PREF
changes translations alone; MIGR copies a page round by round, and its commit gives the destination the page, which no hart reads before,
and writes its leaf entries. -/
def Obligations.CopyCommands : Prop :=
  (∀ (s : State) (c : Command),
    let src := (cmdOp0 c).toNat
    let dst := (cmdOp1 c).toNat
    let n := cmdBits c 192 32
    let off := cmdBits c 32 32
    let good := PlainWord c true false ∧ c.word.extractLsb' 224 32 = 0
    (∀ i ∈ [Instr.cpy c, .fill c], good → (n < off ∨ (off ≠ 0 ∧ c.word.getLsbD 10 = false)) → Completes i s s c 1 0 0)
    ∧ (∀ i ∈ [Instr.cpy c, .fill c], good → n = 0 → off = 0 → Completes i s s c 0 0 0)
    ∧ (good → off = 0 → c.done = 0 → OneBlock src n → OneBlock dst n → src + n ≤ dst ∨ dst + n ≤ src →
        (∀ u0 e, engPlace s c (copyTlb c) src n false = (u0, .error e) → FailsAt (.cpy c) s u0 c e false (cmdOp0 c) 0 0)
        ∧ (∀ u0 ps, engPlace s c (copyTlb c) src n false = (u0, .ok ps) →
          (∀ u1 e, engPlace (u0.chargeCxl c.by_.ctx ps n) c (copyTlb c) dst n true = (u1, .error e) → FailsAt (.cpy c) s u1 c e true (cmdOp1 c) 0 0)
          ∧ (∀ u1 pd, engPlace (u0.chargeCxl c.by_.ctx ps n) c (copyTlb c) dst n true = (u1, .ok pd) → PlainPlace ps → PlainTarget pd → Memory.wf s.mem = true →
              ∃ t, Completes (.cpy c) s t c 0 (BitVec.ofNat 64 n) 0 ∧ Copied s t c ps pd n)))
    ∧ (good → off = 0 → c.done = 0 → OneBlock dst n → ∀ u0 pd, engPlace s c (copyTlb c) dst n true = (u0, .ok pd) → PlainTarget pd →
        Memory.wf s.mem = true → ∃ t, Completes (.fill c) s t c 0 (BitVec.ofNat 64 n) 0
          ∧ EngWrote s t c pd n (fun k => byteOf (cmdOp0 c) (k % 8)))
    ∧ (PlainWord c true false → (cmdOp2 c).toNat % 64 = 0 → AtEngine s c →
        ∀ u e a, engRead s c (copyTlb c) (cmdOp2 c).toNat 64 = (u, .error (e, a)) →
          exec (.cpyt c) s = .next (u.completeAs (if e = 27 then 6 else 2) c e false (BitVec.ofNat 64 a) (BitVec.ofNat 64 off) 0))
    ∧ (PlainWord c true false → (cmdOp2 c).toNat % 64 = 0 →
        ∀ u d, engRead s c (copyTlb c) (cmdOp2 c).toNat 64 = (u, .ok d) →
          let f (o : Nat) : Nat := natOfBytes (takeBytes d o 4)
          let m := f 0 * f 4 * f 8 * f 12
          (m = 0 ∨ 2 ^ 32 ≤ m ∨ m < off ∨ (off ≠ 0 ∧ c.word.getLsbD 10 = false) → Completes (.cpyt c) s u c 1 0 0)
          ∧ (f 4 = 1 → f 8 = 1 → f 12 = 1 → off = 0 → c.done = 0 → OneBlock src (f 0) → OneBlock dst (f 0) →
              src + f 0 ≤ dst ∨ dst + f 0 ≤ src → ∀ u0 ps u1 pd, engPlace u c (copyTlb c) src (f 0) false = (u0, .ok ps) →
              engPlace (u0.chargeCxl c.by_.ctx ps (f 0)) c (copyTlb c) dst (f 0) true = (u1, .ok pd) → PlainPlace ps → PlainTarget pd → Memory.wf s.mem = true →
              ∃ t, Completes (.cpyt c) s t c 0 (BitVec.ofNat 64 (f 0)) 0 ∧ Copied s t c ps pd (f 0))))
  ∧ (∀ (s : State) (c : Command) (p : Party), s.pusherParty c = some p → p.spad.length ≤ 31 → PlainWord c false false →
    let slot := cmdBits c 128 11
    let key := spadKey p.core ((p.spad[slot / 64]?).getD 0 * 0x4000 + 256 * (slot % 64))
    let tags (t : State) : List TagEntry := (t.core p.core).tags
    let mine (e : TagEntry) : Prop := e.party = p.id ∧ e.slot = slot
    let tag := ((cmdOp0 c).extractLsb' 8 49).toNat
    let gone (e : TagEntry) : Prop := e.party = p.id ∧ (e.slot = slot ∨ e.tag = tag)
    c.done = 0 → (cmdBits c 32 32 = 0 → cmdBits c 147 109 = 0 → (cmdOp0 c).toNat % 256 = 0 → slot ≤ 1983 →
      (p.spad.length ≤ slot / 64 → Completes (.sfill c) s s c 6 0 0)
      ∧ (slot / 64 < p.spad.length → ∀ u bs, engRead s c (copyTlb c) (cmdOp0 c).toNat 256 = (u, .ok bs) → Memory.wf s.mem = true →
          ∃ t, Completes (.sfill c) s t c 0 1 0
            ∧ (∀ a, Memory.get t.mem a = if key ≤ a ∧ a < key + 256 then bs.getD (a - key) 0 else Memory.get s.mem a)
            ∧ (∃ e ∈ tags t, mine e ∧ e.tag = tag ∧ e.dirty = false ∧ e.user.toNat = cmdBits c 139 8)
            ∧ (∀ e ∈ tags t, gone e → e = (tags t).headD e) ∧ ∀ e, ¬ gone e → (e ∈ tags t ↔ e ∈ tags s)))
    ∧ (cmdBits c 32 32 = 0 → cmdOp0 c = 0 → cmdBits c 140 116 = 0 → slot ≤ 1983 → slot / 64 < p.spad.length →
      ((∀ e ∈ tags s, ¬ mine e) → Completes (.sevict c) s s c 0 1 0)
      ∧ (∀ e, (tags s).find? (fun e => e.party == p.id && e.slot == slot) = some e →
          (e.dirty = false → c.word.getLsbD 139 = false → Completes (.sevict c) s s c 0 1 0)
          ∧ (e.dirty = false → c.word.getLsbD 139 = true → ∃ t, Completes (.sevict c) s t c 0 1 0 ∧ t.mem = s.mem
              ∧ ∀ o, o ∈ tags t ↔ o ∈ tags s ∧ ¬ mine o)
          ∧ (e.dirty = true → poisoned s.poison key 256 = false → ∀ u pd, engPlace s c (copyTlb c) (e.tag * 256) 256 true = (u, .ok pd) →
              PlainTarget pd → pd.window = false → Memory.wf s.mem = true → ∃ t, Completes (.sevict c) s t c 0 1 0
                ∧ EngWrote s t c pd 256 (fun k => Memory.get s.mem (key + k))
                ∧ ∀ o ∈ tags t, mine o → o.dirty = false ∧ c.word.getLsbD 139 = false))))
  ∧ (∀ (s : State) (c : Command), PlainWord c false false → cmdBits c 32 32 = 0 → cmdOp1 c = 0 → cmdBits c 224 32 = 0 →
    ∃ u m, Completes (.pref c) s u c 0 (BitVec.ofNat 64 m) 0 ∧ m ≤ cmdBits c 192 32
      ∧ { u with clusters := s.clusters, walks := s.walks, ctxPages := s.ctxPages } = s
      ∧ ∀ k, { u.cluster k with ctlb := (s.cluster k).ctlb } = s.cluster k)
  ∧ (∀ (s : State) (c : Command), badMigr s c = false → poisoned s.poison (cmdOp2 c).toNat (16 * (cmdBits c 52 12 + 1)) = false →
    (s.migrLeaves c).all (fun l => s.tableMemory l.1) = true → (∀ m ∈ s.migrations, m.cmd ≠ c) →
    let size := if c.word.getLsbD 48 then 0x200000 else 0x10000
    let dst := migrDst c
    (s.migrSource c = .error .notMapped → AtEngine s c → exec (.migr c) s = .next (s.completeAs 2 c 13 false (cmdOp0 c) 0 0))
    ∧ (∀ p bits src, s.migrSource c = .ok (p, bits, src) →
        (2 ^ bits ≠ size ∨ (inBlanket src = true ∧ size = 0x10000) → Completes (.migr c) s s c 1 0 0)
        ∧ (2 ^ bits = size → (inBlanket src = false ∨ size = 0x200000) →
          let gone (r : Nat) : Prop := ∃ u, Completes (.migr c) s u c 9 0 (BitVec.ofNat 128 r) ∧ u.mem = s.mem
          let held := s.accelHolds src size = true ∧ s.accelHolds dst size = true
          let room := ∀ a d, betweenDevices s src dst = some (a, d) → s.pinned (moveKey c) = false ∧ s.movesFull d (moveKey c) = false
          (ptePin p = true ∨ pteKind p ≠ 0 → gone 2)
          ∧ (ptePin p = false → pteKind p = 0 → ¬ held → gone 4)
          ∧ (ptePin p = false → pteKind p = 0 → held → betweenDevices s src dst ≠ none → s.pinned (moveKey c) = true → gone 3)
          ∧ (ptePin p = false → pteKind p = 0 → held → ∀ a d, betweenDevices s src dst = some (a, d) → s.pinned (moveKey c) = false →
              s.movesFull d (moveKey c) = true → gone 6)
          ∧ (ptePin p = false → pteKind p = 0 → held → room → filterRoom s s.migrations src size = false → exec (.migr c) s = .next s)
          ∧ (ptePin p = false → pteKind p = 0 → held → room → filterRoom s s.migrations src size = true → poisoned s.poison src size = true ∨ s.linkCut src size = true →
              FailsAt (.migr c) s s c 34 false (cmdOp0 c) 0 0)
          ∧ (ptePin p = false → pteKind p = 0 → held → room → filterRoom s s.migrations src size = true → poisoned s.poison src size = false → s.linkCut src size = false →
              AtEngine s c → ∃ t m, exec (.migr c) s = .next t ∧ t.migrations = s.migrations ++ [m] ∧ m.cmd = c ∧ m.round = 0
                ∧ m.src = src ∧ m.dst = dst ∧ m.size = size ∧ m.dirty = [] ∧ m.abandon = none ∧ m.leaves = s.migrLeaves c
                ∧ t.mem = s.mem))))
  ∧ (∀ (s : State) (m : Migration) (rest : List Migration) (d : Bool), s.migrations = m :: rest →
    let i := Instr.migrRoundDone d
    let leaves (u : State) : Prop := ∀ x ∈ u.migrations, x.cmd ≠ m.cmd
    let beside (u : State) : Prop := inBlanket m.dst = false ∨ m.cmp < 3 → Memory.wf s.mem = true →
      ∀ a, a < m.dst ∨ m.dst + m.size ≤ a → Memory.get u.mem a = Memory.get s.mem a
    (m.abandon = some 0 → ∃ u, exec i s = .next (u.complete m.cmd 7 0 0) ∧ leaves u ∧ u.mem = s.mem)
    ∧ (∀ r, m.abandon = some r → r ≠ 0 → ∃ u, exec i s = .next (u.complete m.cmd 9 0 (BitVec.ofNat 128 r)) ∧ leaves u ∧ beside u)
    ∧ (m.abandon = none → (m.dirty ≠ [] ∨ d = true) → m.round = 3 →
        ∃ u, exec i s = .next (u.complete m.cmd 9 0 1) ∧ leaves u ∧ beside u)
    ∧ (m.abandon = none → (m.dirty ≠ [] ∨ d = true) → m.round ≠ 3 → s.poison = [] → (∀ p ∈ s.blanketPorts, p.linkUp = true) →
        ∃ t ms x, exec i s = .next t ∧ t.migrations = ms ++ [x] ∧ x.cmd = m.cmd ∧ x.round = m.round + 1 ∧ x.dirty = [] ∧ t.engines = s.engines
          ∧ t.mem = s.mem)
    ∧ (m.abandon = none → d = false → m.dirty = [] → (∀ a k, betweenDevices s m.src m.dst = some (a, k) → s.movesFull k (moveKey m.cmd) = false) →
        s.hart.pending = [] → (∀ e ∈ s.others, e.2.pending = []) → (∀ l ∈ s.lines, l.dirty = false) → Memory.wf s.mem = true →
        ∃ u, exec i s = .next (u.complete m.cmd 0 (BitVec.ofNat 64 m.size) 0) ∧ leaves u
          ∧ (∀ l, m.leaves = [l] → inBlanket m.dst = false → ∀ a, Memory.get u.mem a =
              if normPa l.1 ≤ a ∧ a < normPa l.1 + 8 then byteOf l.2 (a - normPa l.1)
              else if m.dst ≤ a ∧ a < m.dst + m.size then Memory.get s.mem (m.src + (a - m.dst)) else Memory.get s.mem a)
          ∧ (∀ k ∈ u.stale, k.2.1 < m.dst ∨ m.dst + m.size ≤ k.2.1 ∨ ∃ l ∈ m.leaves, normPa l.1 ≤ k.2.1 ∧ k.2.1 < normPa l.1 + 8)
          ∧ (m.size = 0x10000 → inBlanket m.src = false → inBlanket m.dst = false → frameAt m.src ≠ frameAt m.dst →
              let e := s.entry (frameAt m.src)
              let f := u.entry (frameAt m.dst)
              f.extractLsb' 0 2 = 2 ∧ f.extractLsb' 2 2 = 0 ∧ f.getLsbD 7 = e.getLsbD 7 ∧ f.getLsbD 6 = e.getLsbD 6)))


/-- R322 to R332, R397, R398: the site, collective and network engines. GATHER and SCATTER move elements by index, SHIP runs its routine on
one line, TABLOAD loads routines, a collective waits for its peers and then gives each its data, and the network commands check their
endpoint and pages before a packet leaves, and complete as their peer answers. That a collective of COUNT 0 is BAD_CMD, when a key slot is
wanting, and what other devices do in a collective that they share are the model's choices (logs 35, 36, 48). -/
def Obligations.SiteCommands : Prop :=
  (∀ (s : State) (c : Command) (scatter : Bool),
    let i := if scatter then Instr.scatter c else .gather c
    let tlb := copyTlb c
    let count := cmdBits c 40 24
    let n := cmdBits c 32 8 + 1
    let ia := (cmdOp1 c).toNat
    let dense := (cmdOp2 c).toNat
    let outside (e access : Nat) : Nat := if e = 27 then access else e
    PlainWord c false false → ia % 4 = 0 → c.by_.port = 2 → c.done = 0 →
    (∀ u e, route s c (cmdOp0 c).toNat = (u, some e) → FailsAt i s u c e false (cmdOp0 c) 0 0)
    ∧ (∀ u0, route s c (cmdOp0 c).toNat = (u0, none) →
        (count = 0 → Completes i s u0 c 0 0 0)
        ∧ (∀ u e, count = 1 → engPlace u0 c tlb ia 4 false = (u, .error e) →
            overlapping (elementRuns u0 c scatter) = false → (∀ r ∈ elementRuns u0 c scatter, r.dst + n ≤ ia ∨ ia + 4 ≤ r.dst) →
            FailsAt i s u c (outside e 5) false (cmdOp1 c) 0 0)
        ∧ (∀ u pi, count = 1 → engPlace u0 c tlb ia 4 false = (u, .ok pi) → PlainPlace pi →
            let u1 := u.chargeCxl c.by_.ctx pi 4
            let tbl := (cmdOp0 c + BitVec.ofNat 64 (s.loadNat pi.key 4 * n)).toNat
            let apart (a b k : Nat) : Prop := a + n ≤ b ∨ b + k ≤ a
            OneBlock tbl n → OneBlock dense n → apart tbl dense n → Memory.wf s.mem = true →
            (scatter = false → apart dense ia 4 → ∀ u2 e, engPlace u1 c tlb tbl n false = (u2, .error e) →
              FailsAt i s u2 c (outside e 5) false (BitVec.ofNat 64 tbl) 0 0)
            ∧ (scatter = false → apart dense ia 4 → ∀ u2 pt, engPlace u1 c tlb tbl n false = (u2, .ok pt) →
              (inLocalHbm s pt.key = false → FailsAt i s u2 c 5 false (BitVec.ofNat 64 tbl) 0 0)
              ∧ (inLocalHbm s pt.key = true → PlainPlace pt → ∀ u4 pd, engPlace (engPlace u2 c tlb tbl n false).1 c tlb dense n true = (u4, .ok pd) →
                  PlainTarget pd → ∃ t, Completes i s t c 0 1 0 ∧ Copied s t c pt pd n))
            ∧ (scatter = true → apart tbl ia 4 → ∀ u2 ps, engPlace u1 c tlb dense n false = (u2, .ok ps) → PlainPlace ps →
              (∀ u3 e, engPlace (u2.chargeCxl c.by_.ctx ps n) c tlb tbl n true = (u3, .error e) → FailsAt i s u3 c (outside e 7) true (BitVec.ofNat 64 tbl) 0 0)
              ∧ ∀ u3 pt, engPlace (u2.chargeCxl c.by_.ctx ps n) c tlb tbl n true = (u3, .ok pt) →
              (inLocalHbm s pt.key = false → FailsAt i s u3 c 7 true (BitVec.ofNat 64 tbl) 0 0)
              ∧ (inLocalHbm s pt.key = true → PlainTarget pt → ∃ t, Completes i s t c 0 1 0 ∧ Copied s t c ps pt n)))))
  ∧ (∀ (s : State) (c : Command), PlainWord c false true → c.word.extractLsb' 38 26 = 0 → (cmdOp0 c).toNat % 8 = 0 →
    let slot := cmdBits c 32 6
    (s.routines.find? (fun r => r.1 == slot) = none → Completes (.ship c) s s c 1 0 0)
    ∧ (∀ k r, s.routines.find? (fun r => r.1 == slot) = some (k, r) →
      (∀ u e, shipPlace s c (cmdOp0 c).toNat = (u, .error e) → FailsAt (.ship c) s u c e true (cmdOp0 c) 0 0)
      ∧ (∀ u p, shipPlace s c (cmdOp0 c).toNat = (u, .ok p) → PlainPlace p → Memory.wf s.mem = true →
        let word (m : State) (i : Nat) : Word := wordOf (m.load (shipWord p.key i) 8)
        let v := u.atShip c.by_.hart p.key
        ∀ result writes, runRoutine 33 r ((List.range 8).map (word v)) (fun i => poisoned v.poison (shipWord p.key i) 8)
            (((Vector.replicate 8 (0 : Word)).set 0 (cmdOp1 c)).set 1 (cmdOp2 c)) [] 0 = .halt result writes →
          ∃ t w, Completes (.ship c) s t c 0 w 0
            ∧ (∀ i, i < 8 → word t i = (((writes.filter (fun x => x.1 == i)).getLast?).map (·.2)).getD (word v i))
            ∧ (∀ a, a / 64 ≠ p.key / 64 → Memory.get t.mem a = Memory.get s.mem a)
            ∧ (s.engines.map Accepted.cmd = [c] → (s.getHart c.by_.hart).ships = [none] → (t.getHart c.by_.hart).ships = [some result]))))
  ∧ (∀ (s : State) (c : Command), PlainWord c false false → c.by_.mode ≠ .u → cmdBits c 44 20 = 0 → cmdOp1 c = 0 → cmdOp2 c = 0 →
    let first := cmdBits c 32 6
    let n := cmdBits c 38 6 + 1
    let image := (cmdOp0 c).toNat
    let micro (i k : Nat) : BitVec 32 := BitVec.ofNat 32 (s.loadNat (image + 128 * i + 4 * k) 4)
    let legal := ∀ i k, i < n → k < 32 → (micro i k).extractLsb' 26 6 < 0x15
      ∧ ((micro i k).extractLsb' 26 6 ∈ [0x10, 0x11, 0x12] → k < ((micro i k).extractLsb' 0 5).toNat)
    (64 < first + n ∨ image % 128 ≠ 0 ∨ inLocalHbm s (image + 128 * n - 1) = false → Completes (.tabload c) s s c 1 0 0)
    ∧ (first + n ≤ 64 → image % 128 = 0 → inLocalHbm s (image + 128 * n - 1) = true → poisoned s.poison image (128 * n) = false →
      (¬ legal → Completes (.tabload c) s s c 1 0 0)
      ∧ (legal → ∃ t, Completes (.tabload c) s t c 0 (BitVec.ofNat 64 (128 * n)) 0 ∧ { t with routines := s.routines } = s
          ∧ (∀ i, i < n → ∃ r, t.routines.find? (fun x => x.1 == first + i) = some (first + i, r) ∧ ∀ k, k < 32 → r[k]? = some (micro i k))
          ∧ ∀ j, j < first ∨ first + n ≤ j → t.routines.find? (fun x => x.1 == j) = s.routines.find? (fun x => x.1 == j))))
  ∧ (∀ (s : State) (c : Command), ∀ i ∈ [Instr.callred c, .credsc c, .callgath c, .cbcast c, .cxchg c],
    (badCollective c = true → Completes i s s c 1 0 0)
    ∧ (badCollective c = false → (∃ b ∈ s.broken, b.key = collectiveKey c) → ∃ u, Completes i s u c 8 0 0)
    ∧ (badCollective c = false → (∀ b ∈ s.broken, b.key ≠ collectiveKey c) →
      (badFold c = true → AtEngine s c → Starts i s s c)
      ∧ (badFold c = false → ∀ u e a, collCheck s c (cmdOp0 c).toNat (collSource c) false = (u, some (e, a)) →
        FailsAt i s (u.loseCollective c) c e false (BitVec.ofNat 64 a) 0 0)
      ∧ (badFold c = false → ∀ u, collCheck s c (cmdOp0 c).toNat (collSource c) false = (u, none) →
        (∀ v e a, collCheck u c (cmdOp1 c).toNat (collDest c) true = (v, some (e, a)) →
          FailsAt i s (v.loseCollective c) c e true (BitVec.ofNat 64 a) 0 0)
        ∧ (∀ v, collCheck u c (cmdOp1 c).toNat (collDest c) true = (v, none) → AtEngine s c → Starts i s v c))))
  ∧ (∀ (s : State) (l r0 nr seq : Nat),
    let i := Instr.collectiveMatch l r0 nr seq
    let found := s.participants (some l, r0, nr, seq)
    (found = none → exec i s = .next s)
    ∧ (∀ j c rest, found = some ((j, c) :: rest) →
      let cs := (j, c) :: rest
      let agree := ∀ d ∈ rest, sameCollective c d.2 = true
      (badFold c = true ∨ ¬ agree → exec i s = .next (s.completeAll cs 1))
      ∧ (badFold c = false → agree → cs.length = nr → ∀ u srcs, readSources s cs = (u, .ok srcs) → ∀ v, checkDests u cs = (v, none) →
        ∃ t, exec i s = .next (cs.foldl (fun v d => v.complete d.2 0 (BitVec.ofNat 64 (collDest d.2)) 0) t)
          ∧ (rest = [] → badCollective c = false → collRanks c = 1 → collRank0 c = c.by_.rank.toNat → OneBlock (cmdOp1 c).toNat (collDest c) →
              ∀ w pd, engPlace u c (copyTlb c) (cmdOp1 c).toNat (collDest c) true = (w, .ok pd) → PlainTarget pd → Memory.wf s.mem = true →
              EngWrote s t c pd (collDest c) (fun k => ((srcs.map (·.2)).headD []).getD k 0)))
      ∧ (badFold c = false → agree → cs.length < nr →
          exec i s = .next (s.moveCollective l nr cs true) ∨ exec i s = .next (s.moveCollective l nr cs false)
          ∨ exec i s = .next (({ s with choices := s.choices + 1 } : State).completeAll cs 1)
          ∨ exec i s = .next (({ s with choices := s.choices + 1 } : State).completeAll cs 8))))
  ∧ (∀ (s : State) (c : Command),
    let va := (cmdOp0 c).toNat
    let n := cmdBits c 192 32
    let peer := s.endpoint c.by_.root (netPeer c) = true
    let slot := s.protectedCtx c.by_.ctx = true → s.freeSlot ≠ none
    (∀ x ∈ [(Instr.nsend c, badNetwork c false false, false), (.nwrite c, badNetwork c true false, false), (.nread c, badNetwork c true false, true)],
      (x.2.1 = true → Completes x.1 s s c 1 0 0)
      ∧ (x.2.1 = false → ¬ peer → c.cmd ≠ 0x83 → Completes x.1 s s c 8 0 0)
      ∧ (x.2.1 = false → peer →
        let check : State × Option (Nat × Nat) := if x.2.2 then engCheck s c (copyTlb c) va n true else
          ((engRead s c (copyTlb c) va n).1, match (engRead s c (copyTlb c) va n).2 with
            | .error e => some e
            | .ok _ => none)
        (∀ e a, check.2 = some (e, a) → FailsAt x.1 s check.1 c e x.2.2 (BitVec.ofNat 64 a) 0 0)
        ∧ (check.2 = none → ¬ slot → Completes x.1 s check.1 c 10 0 0)
        ∧ (check.2 = none → slot → AtEngine s c → Starts x.1 s check.1 c)))
    ∧ (badNetwork c false true = true ∨ (netQmode c = true ∧ s.postQueue c = none) → Completes (.npost c) s s c 1 0 0)
    ∧ (badNetwork c false true = false → netQmode c = false → (peer ∨ (netPeer c = 0xFFFF ∧ c.cmd = 0x83)) →
        (∀ u, engCheck s c (copyTlb c) va n true = (u, none) → slot → AtEngine s c → Starts (.npost c) s u c)
        ∧ (∀ u e a, engCheck s c (copyTlb c) va n true = (u, some (e, a)) → FailsAt (.npost c) s u c e true (BitVec.ofNat 64 a) 0 0))
    ∧ (badNetwork c false true = false → netQmode c = true → s.postQueue c ≠ none → (peer ∨ (netPeer c = 0xFFFF ∧ c.cmd = 0x83)) → slot →
        (n / 64 ≤ c.done → Completes (.npost c) s s c 0 (BitVec.ofNat 64 c.done) 0)
        ∧ (c.done < n / 64 → AtEngine s c → Starts (.npost c) s s c))
    ∧ (∀ a, s.engines.find? (fun a => a.cmd == c && seeksPost a) = some a →
        exec (.nsendTimeout c) s = .next (({ s with clock := max s.clock (a.since + 3000000000) } : State).complete c 8 0 0))
    ∧ (s.engines.find? (fun a => a.cmd == c && seeksPost a) = none → exec (.nsendTimeout c) s = .next s))
  ∧ (∀ (s : State) (job m peer : Nat) (data : List Byte),
    let taker := (s.jobCtx job).bind (fun x => s.matchPost x m peer data.length)
    let g : Message := { job := job, match_ := m, peer := peer, data := data, since := s.clock }
    let i := Instr.networkPacketArrival (.message job m peer data)
    (s.jobCtx job = none → g ∉ s.messages → exec i s = .next s)
    ∧ (∀ x, s.jobCtx job = some x → taker = none → s.outgrows x m peer data.length = true → g ∉ s.messages → exec i s = .next s)
    ∧ (∀ x, s.jobCtx job = some x → taker = none → s.outgrows x m peer data.length = false →
        exec i s = .next { s with messages := s.messages ++ [g] })
    ∧ (∀ c, taker = some c → netQmode c = true → s.postRoom c = none → exec i s = .next { s with messages := s.messages ++ [g] })
    ∧ (∀ c, taker = some c → netQmode c = false → OneBlock (cmdOp0 c).toNat data.length → ∀ u pd,
        engPlace s c (copyTlb c) (cmdOp0 c).toNat data.length true = (u, .ok pd) → PlainTarget pd → Memory.wf s.mem = true →
        ∃ t : State, exec i s = .next (t.complete c 0 (BitVec.ofNat 64 data.length) (BitVec.ofNat 128 (peer % 2 ^ 16 + m % 2 ^ 32 * 2 ^ 32)))
          ∧ EngWrote s t c pd data.length (fun k => data.getD k 0)))
  ∧ (∀ (s : State) (job key off : Nat) (data : List Byte),
    let i := Instr.networkPacketArrival (.write job key off data)
    ((∀ x, s.jobCtx job = some x → s.region x.root key = none) → exec i s = .next s)
    ∧ (∀ x flags base len, s.jobCtx job = some x → s.region x.root key = some (flags, base, len) →
        let c := packetAgent x
        (flags / 4 % 2 = 0 ∨ len < off + data.length → exec i s = .next s)
        ∧ (flags / 4 % 2 = 1 → off + data.length ≤ len → OneBlock (base + off) data.length → ∀ u pd,
            engPlace s c (copyTlb c) (base + off) data.length true = (u, .ok pd) → PlainTarget pd → Memory.wf s.mem = true →
            ∃ t, exec i s = .next t ∧ EngWrote s t c pd data.length (fun k => data.getD k 0))))
  ∧ (∀ (s : State) (tag : BitVec 16) (hart : Nat) (data : List Byte) (a : Accepted) (ok : Bool),
    let i := Instr.networkPacketArrival (.answer tag hart ok data)
    let c := a.cmd
    let n := cmdBits c 192 32
    s.engines.find? (fun a => a.started && !a.parked && a.cmd.by_.port == 4 && a.cmd.cmd != 0x83 && cmdTag a.cmd == tag
        && a.cmd.by_.hart == hart) = some a →
      (c.cmd ≠ 0x82 → ok = true → exec i s = .next ((s.charge c.by_.ctx 9 n).complete c 0 (BitVec.ofNat 64 n) 0))
      ∧ (c.cmd ≠ 0x82 → ok = false → exec i s = .next (s.complete c 8 0 0))
      ∧ (c.cmd = 0x82 → ok = true → OneBlock (cmdOp0 c).toNat n → ∀ u pd, engPlace s c (copyTlb c) (cmdOp0 c).toNat n true = (u, .ok pd) →
          PlainTarget pd → Memory.wf s.mem = true → ∃ t : State, exec i s = .next (t.complete c 0 (BitVec.ofNat 64 n) 0)
            ∧ EngWrote s t c pd n (fun k => data.getD k 0)))


/-! ### Launches, parties, contexts -/

/-- R137, R141 to R144, R146, R149 to R155, R176 to R178, R194, R212, R355, R360, R385: the events of the dispatcher, the headcount tree and the
banker. That a sweep of a joined launch may find the other devices not ready, and that such a launch's `hred` gives a free value, is the
model's choice (log 24); so is what a saved party's record keeps (log 42). -/
def Obligations.LaunchEvents : Prop :=
  (∀ (s : State) (l : Launch), s.launch? l.id = some l → s.ctxLaunch l.ctx = some l →
    (s.exchangeReady l = false → exec (.exchange l.id) s = .next s)
    ∧ (∀ c, s.exchangeReady l = true → s.ctx? l.ctx = some c → c.stopReq = none → c.pairedWith = none →
      let n := BitVec.ofNat 64 (l.sstep + 1)
      let all := (s.launchHarts l.id).map (·.2)
      ∃ t m, exec (.exchange l.id) s = .next t ∧ t.launch? l.id = some m ∧ m.sstep = l.sstep + 1 ∧ m.appends = [] ∧ m.arrivals = []
        ∧ (∀ (k : Nat) (q : StageQueue) (st : StageEntry), l.queues[k]? = some q → l.stages[k]? = some st → ∃ r : StageQueue, m.queues[k]? = some r ∧ r.emitted = []
            ∧ (l.flags.getLsbD 1 = false → r.tasks = q.tasks ++ q.emitted))
        ∧ (∀ p ∈ s.parties, p.launch = l.id → p.savedHarts = [] → ∀ h ∈ p.harts,
            let x := s.getHart h
            let y := t.getHart h
            (s.purging = [] → y.pending = []) ∧ y.csr.sstep = n
            ∧ (∀ rd, x.blocked = some (.barrier rd none) → y.blocked = none ∧ (rd ≠ 0 → y.x[rd.toNat] = n) ∧ y.csr.instret = x.csr.instret + 1)
            ∧ (∀ rd op w, x.blocked = some (.barrier rd (some (op, w))) →
                y.blocked = none ∧ (rd ≠ 0 → l.far = false → y.x[rd.toNat] = redOver op all) ∧ y.csr.instret = x.csr.instret + 1)))
    ∧ (s.farReady l = true ∨ exec (.headcountSweep l.id) s = .next { s with choices := s.choices + 1 })
    ∧ (s.farReady l = true → s.allIdle l = true → l.sent = l.received → l.sweep = some (l.sent, l.received) →
        exec (.headcountSweep l.id) s = .next { s with events := s.events ++ [.launchEnd l.id] })
    ∧ (s.farReady l = true → s.allIdle l = true → l.sweep ≠ some (l.sent, l.received) →
        ∃ t m, exec (.headcountSweep l.id) s = .next t ∧ t.launch? l.id = some m ∧ m.sweep = some (l.sent, l.received))
    ∧ (s.farReady l = true → s.allIdle l = false → s.stuck l = true → l.stallSeen = true → ∃ t, exec (.headcountSweep l.id) s = .next t ∧ Ended t l.id .stalled)
    ∧ (s.farReady l = true → s.allIdle l = false → s.stuck l = false → ∃ t m, exec (.headcountSweep l.id) s = .next t ∧ t.launch? l.id = some m ∧ m.sweep = none)
    ∧ (s.allIdle l = true → l.sent = l.received →
        let q (u : State) : Queue := (u.core (l.submitter / 4)).queue (l.submitter % 4)
        ∃ t, exec (.launchEnd l.id) s = .next t ∧ Ended t l.id .complete
          ∧ (l.ranks ≤ l.completion → l.told = false → (∀ m ∈ s.launches, m.id = l.id → m = l) → (q s).waiting = [] →
              (q s).hasFree (l.submitter % 4) = true → ∃ e, (q t).entries = (q s).entries ++ [e]
              ∧ e.extractLsb' 0 16 = 3 ∧ e.extractLsb' 16 16 = 0 ∧ e.extractLsb' 32 16 = BitVec.ofNat 16 l.id))
    ∧ (s.allIdle l = false ∨ l.sent ≠ l.received → exec (.launchEnd l.id) s = .next s)
    ∧ (s.placing l = false ∨ s.placement l = none → exec (.taskPlacement l.id) s = .next s)
    ∧ (∀ k st task c slots, s.placing l = true → s.placement l = some (k, st, task, c, slots) →
        ∃ t p, exec (.taskPlacement l.id) s = .next t ∧ t.parties = s.parties ++ [p] ∧ p.id = s.nextParty ∧ t.nextParty = s.nextParty + 1
          ∧ p.launch = l.id ∧ p.stage = k ∧ p.core = c ∧ p.slots = slots ∧ slots.length = st.harts ∧ p.state = .running
          ∧ p.spad.length = st.spadInit ∧ p.hamper.length = st.hamperInit
          ∧ (∀ ix j, slots[ix]? = some j →
              let h := t.getHart (4 * c + j)
              h.running = true ∧ h.mode = .u ∧ h.pc = pcOf st.entry ∧ h.party = some p.id ∧ h.held = (st.vregInit + 3) / 4
              ∧ h.x[11] = BitVec.ofNat 64 ix ∧ h.x[12] = BitVec.ofNat 64 windowBase ∧ h.x[13] = BitVec.ofNat 64 task.slice)
          ∧ (∀ m q, t.launch? l.id = some m → l.queues[k]? = some q →
              ∃ r, m.queues[k]? = some r ∧ q.tasks = task :: r.tasks ∧ r.emitted = q.emitted)
          ∧ (Memory.wf s.mem = true → ∀ b, b < 64 →
              Memory.get t.mem (spadKey c (0x2000 + 64 * slots.headD 0 + b)) = task.bits.extractLsb' (8 * b) 8))
    ∧ (l.initial = some none →
        (taskList s l = none → ∃ t, exec (.initialTasks l.id) s = .next t ∧ Ended t l.id .tasksFault)
        ∧ (∀ ts, taskList s l = some ts → ∃ t, exec (.initialTasks l.id) s = .next t ∧ t.launch? l.id = some { l with initial := some (some ts) }))
    ∧ (l.initial = some (some []) → ∃ t, exec (.initialTasks l.id) s = .next t ∧ t.launch? l.id = some { l with initial := none })
    ∧ (∀ task rest, l.initial = some (some (task :: rest)) →
        (stageFull l 0 = true → exec (.initialTasks l.id) s = .next s)
        ∧ (stageFull l 0 = false → ∃ t m, exec (.initialTasks l.id) s = .next t ∧ t.launch? l.id = some m ∧ m.initial = some (some rest)
            ∧ ∀ q, l.queues[0]? = some q → ∃ r, m.queues[0]? = some r ∧ r.tasks = q.tasks ++ [task]))
    ∧ (let at_ (i : Nat) : Option (List Byte) := deviceRead s l.ctx (rootOfCtx s l.ctx) (l.tasksPtr.toNat + 64 * i) 64
       (l.tasksPtr.toNat % 64 ≠ 0 ∨ at_ 0 = none → taskList s l = none)
       ∧ ∀ bs, at_ 0 = some bs →
          let n := natOfBytes (bs.take 4)
          (l.join = none → n = 0 ∨ (l.flags.getLsbD 1 = true ∧ n ≠ l.slices) → taskList s l = none)
          ∧ (∀ i, i < n → at_ (i + 1) = none → taskList s l = none)
          ∧ (∀ ts, taskList s l = some ts → ts.length = n ∧ ∀ i, i < n → ∃ cs, at_ (i + 1) = some cs
              ∧ ts[i]? = some ⟨BitVec.ofNat 512 (natOfBytes cs), if l.flags.getLsbD 1 then l.sliceBase + i else 0⟩))
    ∧ (∃ t, exec (.affinityPatienceExpiry l.id) s = .next t ∧ OnlyClock s t
        ∧ ∀ x rest, (l.stages.zip l.queues).filter (fun x => x.1.affinity == 0 && !x.2.tasks.isEmpty) = x :: rest → x.2.since + 6000 ≤ t.clock)
    ∧ (∃ t m, exec (.occupancySample l.id) s = .next t ∧ t.launch? l.id = some m
        ∧ (l.flags.getLsbD 0 = false → m.sampledAt = s.clock ∧ ∀ (k : Nat) (q : StageQueue) (st : StageEntry), l.queues[k]? = some q → l.stages[k]? = some st →
            m.queues[k]? = some { q with sample := (q.tasks.length + q.emitted.length, st.capacity) })
        ∧ (l.flags.getLsbD 0 = true → m = l)))
  ∧ (∀ (s : State) (h b : Nat) (l : Launch), s.joiningOf h = some l →
    (∃ t, exec (.joinStart h b) s = .next t ∧ (t.svcRegs h).joinStat = 2 ∧ ∀ m, t.launch? l.id = some m → m.joining = false ∧ m.sliceBase = b)
    ∧ (∃ t, exec (.joinTimeout h) s = .next t ∧ (t.svcRegs h).joinStat = 3 ∧ Ended t l.id .joinFailed ∧ l.stepStart + 3000000000 ≤ t.clock))
  ∧ (∀ (s : State) (p : Party), s.party? p.id = some p →
    let busy := ∃ a ∈ s.engines, a.cmd.by_.party = some p.id
    (p.state = .retiring → s.stoppedCtx p.ctx = false → ¬ busy → ∃ t, exec (.partyRetire p.id) s = .next t ∧ t.party? p.id = none
        ∧ (p.savedHarts = [] → ∀ h ∈ p.harts, IsIdle (t.getHart h))
        ∧ ∀ l m, s.launch? p.launch = some l → t.launch? p.launch = some m → m.retired = l.retired + 1)
    ∧ (p.state ≠ .retiring ∨ s.stoppedCtx p.ctx = true ∨ busy → exec (.partyRetire p.id) s = .next s)
    ∧ (p.state ≠ .saving ∨ s.saveHeld p = true → exec (.saveComplete p.id) s = .next s)
    ∧ (p.state = .saving → s.saveHeld p = false → p.doomed = true → ∃ t, exec (.saveComplete p.id) s = .next t ∧ t.party? p.id = none)
    ∧ (p.state = .saving → s.saveHeld p = false → p.doomed = false → NothingHeld s →
        ∃ t q, exec (.saveComplete p.id) s = .next t ∧ t.party? p.id = some q ∧ q.state = .saved ∧ q.spad = [] ∧ q.hamper = []
          ∧ q.savedHold = (p.spad.length, p.hamper.length) ∧ q.savedHarts = p.harts.map (fun h => (h, (s.getHart h).recorded))
          ∧ (∀ h ∈ p.harts, IsIdle (t.getHart h))
          ∧ (∀ c, s.ctx? p.ctx = some c → c.state = .saving → (∀ o ∈ s.parties, o.ctx = p.ctx → o.id = p.id ∨ o.state = .saved) →
              LeavesFree s p.ctx → (∀ r ∈ s.rotations, r.ctx ≠ p.ctx) → ∃ d, t.ctx? p.ctx = some d ∧ d.state = .saved ∧ d.group = none ∧ d.watchdog = none
                ∧ ∀ g, c.group = some g → (t.svcRegs g).preResult = 1 ∧ (t.svcRegs g).preBusy = false
                    ∧ (t.svcRegs g).preDone = (s.svcRegs g).preDone + 1))
    ∧ (p.state = .restoring → p.doomed = true → ∃ t, exec (.restoreComplete p.id) s = .next t ∧ t.party? p.id = none)
    ∧ (p.state = .restoring → p.doomed = false → p.savedHarts ≠ [] → s.restorable p = false → exec (.restoreComplete p.id) s = .next s)
    ∧ (p.state = .restoring → p.doomed = false → p.savedHarts ≠ [] → s.restorable p = true → (p.savedHarts.map (·.1)).Nodup →
        ∃ t q, exec (.restoreComplete p.id) s = .next t ∧ t.party? p.id = some q ∧ q.state = .restoring ∧ q.savedHarts = []
          ∧ q.spad.length = p.savedHold.1 ∧ q.hamper.length = p.savedHold.2
          ∧ ∀ h x, (h, x) ∈ p.savedHarts → (t.getHart h).pc = x.pc ∧ (t.getHart h).x = x.x ∧ (t.getHart h).v = x.v ∧ (t.getHart h).mode = x.mode
              ∧ (t.getHart h).fetch = [])
    ∧ (p.state = .restoring → p.doomed = false → p.savedHarts = [] → s.replayed p = true → NothingHeld s →
        (∀ c, s.ctx? p.ctx = some c → c.heldPreempt = []) → ∃ t, exec (.restoreComplete p.id) s = .next t ∧ t.party? p.id = some { p with state := .running }))
  ∧ (∀ (s : State) (k h : Nat) (r : AcqRequest) (rd : Reg),
    ((s.cluster k).requests = [] → exec (.acqGrant k) s = .next s ∧ exec (.acqUrgent k) s = .next s)
    ∧ ((s.cluster k).requests = [r] →
      (s.grantableAfter [] r.hart r.cls r.count = false → exec (.acqGrant k) s = .next s)
      ∧ (s.grantableAfter [] r.hart r.cls r.count = true → (s.getHart r.hart).blocked = some (.acq rd) →
          ∃ t, exec (.acqGrant k) s = .next t ∧ (t.cluster k).requests = [] ∧ (t.getHart r.hart).blocked = none
            ∧ (rd ≠ 0 → (t.getHart r.hart).x[rd.toNat] = 0) ∧ (t.getHart r.hart).csr.instret = (s.getHart r.hart).csr.instret + 1
            ∧ (t.holding r.hart r.cls).1 = ((s.grantUnits r.hart r.cls r.count).holding r.hart r.cls).1)
      ∧ (r.urgent = false → ∃ t, exec (.acqUrgent k) s = .next t ∧ (t.cluster k).requests = [{ r with urgent := true }]
          ∧ r.since + 2 ^ 20 < t.clock ∧ s.clock ≤ t.clock ∧ t.mem = s.mem))
    ∧ ((s.getHart h).blocked = some .cellRetry → ∃ t, exec (.cwaitRetry h) s = .next t ∧ t.getHart h = { s.getHart h with blocked := none }
        ∧ (∀ j, j ≠ h → t.getHart j = s.getHart j) ∧ { t with hart := s.hart, others := s.others } = s)
    ∧ ((s.getHart h).blocked ≠ some .cellRetry → exec (.cwaitRetry h) s = .next s))

/-- R352, R353, R357, R358, R360, R361, R414, R424 to R427, R433: the requests of the pre-empt and debug groups, each with its RESULT;
the watchdog and the save deadline; thermal fault, alarm and package reset. That a stop of a context without a launch is answered BAD_STATE
is the model's choice (log 25). -/
def Obligations.ContextEvents : Prop :=
  (∀ (s : State) (h : Nat) (v : Word), NoneDue s →
    let ctx := v.extractLsb' 0 16
    let g := s.svcRegs h
    (g.preBusy = true → ∀ i ∈ [Instr.preReqPreempt h v, .preReqResume h v, .preReqKill h v],
      exec i s = .next (s.setSvc h { g with preHeld := g.preHeld ++ [v] }))
    ∧ (g.preBusy = false → v.extractLsb' 16 2 = 0 →
      ((∀ c, s.ctx? ctx = some c → c.state = .saved ∨ (c.stopped = false ∧ c.state = .saving)) → ∃ t, exec (.preReqPreempt h v) s = .next t ∧ PreAnswer s t h 5)
      ∧ (∀ c, s.ctx? ctx = some c → c.state ≠ .saved → c.stopped = true ∨ (c.state = .resident ∧ c.group ≠ none) →
          ∃ t, exec (.preReqPreempt h v) s = .next t ∧ t.ctx? ctx = some { c with heldPreempt := c.heldPreempt ++ [(h, v)] }
            ∧ (t.svcRegs h).preBusy = true)
      ∧ (∀ c, s.ctx? ctx = some c → c.state = .resident → c.group = none → c.stopped = false →
          let area := s.ctxField c.root 0x160 8
          let need := 0x1000 + 0x90000 * (16 * (s.ctxClusters c).length)
          let ms := if v.extractLsb' 18 10 = 0 then 20 else min (v.extractLsb' 18 10).toNat 1000
          (area < need → ∃ t, exec (.preReqPreempt h v) s = .next t ∧ PreAnswer s t h 4)
          ∧ (need ≤ area → (∃ p ∈ s.parties, p.ctx = ctx ∧ p.state ≠ .saved) →
              ∃ t d, exec (.preReqPreempt h v) s = .next t ∧ t.ctx? ctx = some d ∧ d.state = .saving ∧ d.group = some h
                ∧ d.watchdog = some (s.clock + ms * 3000000) ∧ (t.svcRegs h).preBusy = true
                ∧ ∀ p ∈ s.parties, p.ctx = ctx → p.state = .running → (∀ x ∈ p.harts, (s.getHart x).finished = true ∨ (s.getHart x).blocked = some .cellRetry) →
                    (∃ x ∈ p.harts, (s.getHart x).finished = false) → (∀ x ∈ p.harts, s.interrupt? x (s.getHart x) = none) →
                    ∃ q ∈ t.parties, q.id = p.id ∧ q.state = .saving)
          ∧ (need ≤ area → (∀ p ∈ s.parties, p.ctx = ctx → p.state = .saved) → LeavesFree s ctx → (∀ r ∈ s.rotations, r.ctx ≠ ctx) →
              ∃ t d, exec (.preReqPreempt h v) s = .next t ∧ PreDone s t h 1 ∧ t.ctx? ctx = some d ∧ d.state = .saved ∧ d.group = none
                ∧ d.watchdog = none ∧ d.meter = c.meter.set 12 (c.meter[12] + 1) ∧ ∀ k ∈ t.keys, k.kind ≠ .context ctx)))
    ∧ (g.preBusy = false → v.extractLsb' 16 2 = 1 →
      ((∀ c, s.ctx? ctx = some c → c.state ≠ .saved) → ∃ t, exec (.preReqResume h v) s = .next t ∧ PreAnswer s t h 5)
      ∧ (∀ c, s.ctx? ctx = some c → c.state = .saved →
          let mask := (List.range 64).filter (fun i => g.preMask.getLsbD i)
          let badMask := mask.length ≠ (s.ctxClusters c).length
            ∨ ∃ k ∈ mask, k ∉ c.clusters ∨ ∃ o ∈ s.contexts, o.id ≠ ctx ∧ o.state ≠ .saved ∧ k ∈ o.clusters
          (badMask → ∃ t, exec (.preReqResume h v) s = .next t ∧ PreAnswer s t h 7)
          ∧ (¬ badMask → c.protected_ = true → s.freeSlot = none → ∃ t, exec (.preReqResume h v) s = .next t ∧ PreAnswer s t h 6)
          ∧ (¬ badMask → c.protected_ = false ∨ s.freeSlot ≠ none →
              ∃ t d, exec (.preReqResume h v) s = .next t ∧ t.ctx? ctx = some d ∧ d.state = .resident ∧ d.wrapped = none
                ∧ (∀ key n, c.wrapped = some key → s.freeSlot = some n → { key with slot := n } ∈ t.keys)
                ∧ (∀ (i : Nat) (p : Party), s.parties[i]? = some p → p.ctx = ctx → p.state = .saved → ∃ q : Party, t.parties[i]? = some q
                    ∧ q.state = .restoring ∧ ∀ (j k n : Nat), (s.ctxClusters c)[j]? = some k → mask[j]? = some n → (∀ m, m < j → (s.ctxClusters c)[m]? ≠ some k) →
                        p.core / 16 = k → q.core = 16 * n + p.core % 16)
                ∧ ((∃ p ∈ s.parties, p.ctx = ctx ∧ (p.state = .saved ∨ p.state = .restoring)) → d.group = some h ∧ (t.svcRegs h).preBusy = true)
                ∧ ((∀ p ∈ s.parties, p.ctx = ctx → p.state ≠ .saved ∧ p.state ≠ .restoring) → d.group = none ∧ PreDone s t h 0))))
    ∧ (g.preBusy = false → v.extractLsb' 16 2 = 2 →
      (s.ctx? ctx = none → ∃ t, exec (.preReqKill h v) s = .next t ∧ PreAnswer s t h 5)
      ∧ (∀ c, s.ctx? ctx = some c → c.group = none → c.heldPreempt = [] →
          ∃ t, exec (.preReqKill h v) s = .next t ∧ PreDone s t h 0
            ∧ (c.state = .saved → t.ctx? ctx = none)
            ∧ (c.state ≠ .saved → ∃ d, t.ctx? ctx = some d ∧ d.state = .resident ∧ d.watchdog = none)
            ∧ ∀ l, s.ctxLaunch ctx = some l → ∃ m ∈ t.launches, m.id = l.id ∧ m.ended = some .killed)))
  ∧ (∀ (s : State) (ctx : BitVec 16) (c : Context), s.ctx? ctx = some c →
    (c.watchdog = none ∨ c.stopped = true ∨ (∀ p ∈ s.parties, p.ctx = ctx → p.state = .saving ∨ p.state = .saved) →
        exec (.watchdogExpiry ctx) s = .next s)
    ∧ (∀ w, c.watchdog = some w → c.stopped = false → (∃ p ∈ s.parties, p.ctx = ctx ∧ p.state ≠ .saving ∧ p.state ≠ .saved) → NothingHeld s →
        ∃ t d, exec (.watchdogExpiry ctx) s = .next t ∧ w ≤ t.clock ∧ s.clock ≤ t.clock ∧ t.ctx? ctx = some d ∧ d.stopped = true
          ∧ d.state = .resident ∧ d.watchdog = none ∧ d.group = none ∧ (∀ g, c.group = some g → PreDone s t g 2)
          ∧ ∀ l, s.ctxLaunch ctx = some l → ∃ m ∈ t.launches, m.id = l.id ∧ m.ended = some .hang)
    ∧ (∀ p, s.party? p.id = some p → p.ctx = ctx →
      (p.state ≠ .saving ∨ c.stopped = true → exec (.saveDeadlineExpiry p.id) s = .next s)
      ∧ (p.state = .saving → (∀ o ∈ s.contexts, o.id = ctx → o.stopped = false) → NothingHeld s →
          ∃ t d, exec (.saveDeadlineExpiry p.id) s = .next t ∧ p.saveSince + 6000000 ≤ t.clock ∧ t.ctx? ctx = some d ∧ d.state = .resident
            ∧ d.wrapped = none ∧ d.watchdog = none ∧ d.group = none ∧ (∀ g, c.group = some g → PreDone s t g 3) ∧ t.party? p.id = none
            ∧ (∀ k ∈ t.keys, k.kind ≠ .context ctx)
            ∧ ∀ l, s.ctxLaunch ctx = some l → ∃ m ∈ t.launches, m.id = l.id ∧ m.ended = some .killed)))
  ∧ (∀ (s : State) (h : Nat) (v : Word),
    let ctx := v.extractLsb' 0 16
    let n := (s.svcRegs h).dbgArg.toNat
    let b := (s.svcRegs h).dbgArg.extractLsb' 0 16
    ((∀ c, ¬ Resident s ctx c) → ∀ i ∈ [Instr.dbgStopNext h v, .dbgStopAt h v, .dbgRelease h v, .dbgImmediateStop h v, .dbgPair h v],
        ∃ t, exec i s = .next t ∧ DbgAnswer s t h ctx 1)
    ∧ (∀ c, Resident s ctx c →
      (s.ctxLaunch ctx = none → ∀ i ∈ [Instr.dbgStopNext h v, .dbgStopAt h v], ∃ t, exec i s = .next t ∧ DbgAnswer s t h ctx 1)
      ∧ (∀ l, s.ctxLaunch ctx = some l →
          let stop (at_ : Option Nat) : State := s.mapCtx ctx (fun c => { c with stopReq := some (h, at_) })
          (l.flags.getLsbD 0 = false → ∀ i ∈ [Instr.dbgStopNext h v, .dbgStopAt h v], ∃ t, exec i s = .next t ∧ DbgAnswer s t h ctx 2)
          ∧ (l.flags.getLsbD 0 = true → ∃ t, exec (.dbgStopNext h v) s = .next t ∧ DbgAnswer (stop none) t h ctx 0)
          ∧ (l.flags.getLsbD 0 = true → n < l.sstep ∨ (c.midExchange = true ∧ n = l.sstep) →
              ∃ t, exec (.dbgStopAt h v) s = .next t ∧ DbgAnswer s t h ctx 3)
          ∧ (l.flags.getLsbD 0 = true → l.sstep ≤ n → (c.midExchange = true → n ≠ l.sstep) →
              ∃ t, exec (.dbgStopAt h v) s = .next t ∧ DbgAnswer (stop (some n)) t h ctx 0))
      ∧ (c.stopped = false → ∃ t, exec (.dbgRelease h v) s = .next t ∧ DbgAnswer s t h ctx 1)
      ∧ (c.stopped = true → NothingHeld s → ∃ t d, exec (.dbgRelease h v) s = .next t ∧ t.ctx? ctx = some d ∧ d.stopped = false
          ∧ (t.svcRegs h).dbgResult = 0 ∧ (t.svcRegs h).dbgCtx = ctx ∧ (t.svcRegs h).dbgDone = (s.svcRegs h).dbgDone + 1
          ∧ (c.midExchange = false → c.heldPreempt = [] →
              d = { c with stopped := false, watchdog := c.watchdog.map (fun w => w + s.clock) } ∧ t.mem = s.mem ∧ t.cores = s.cores))
      ∧ (∃ t d, exec (.dbgImmediateStop h v) s = .next t ∧ t.ctx? ctx = some d ∧ d.stopped = true ∧ (t.svcRegs h).dbgResult = 0
          ∧ (t.svcRegs h).dbgCtx = ctx ∧ (t.svcRegs h).dbgDone = (s.svcRegs h).dbgDone + 1
          ∧ (c.stopped = false → d = { c with stopped := true, watchdog := c.watchdog.map (fun w => w - s.clock) })
          ∧ (c.stopped = true → DbgAnswer s t h ctx 0))
      ∧ (∀ o, Resident s b o → ctx ≠ b → s.ctxLaunch ctx = none → s.ctxLaunch b = none → c.pairedWith = none → o.pairedWith = none →
          ∃ t, exec (.dbgPair h v) s = .next t
            ∧ DbgAnswer ((s.mapCtx ctx (fun c => { c with pairedWith := some b, lines := [] })).mapCtx b
                (fun c => { c with pairedWith := some ctx, lines := [] })) t h ctx 0)
      ∧ ((∀ o, ¬ Resident s b o) ∨ ctx = b ∨ s.ctxLaunch ctx ≠ none ∨ s.ctxLaunch b ≠ none ∨ c.pairedWith ≠ none
            ∨ (∃ o, s.ctx? b = some o ∧ o.pairedWith ≠ none) →
          ∃ t, exec (.dbgPair h v) s = .next t ∧ DbgAnswer s t h ctx 1))
    ∧ ((∀ c, s.ctx? ctx = some c → c.pairedWith = none) → ∃ t, exec (.dbgUnpair h v) s = .next t ∧ DbgAnswer s t h ctx 1)
    ∧ (∀ c o, s.ctx? ctx = some c → c.pairedWith = some o.id → s.ctx? o.id = some o →
        ∃ t d e, exec (.dbgUnpair h v) s = .next t ∧ (t.svcRegs h).dbgResult = 0 ∧ (t.svcRegs h).dbgCtx = ctx
          ∧ (t.svcRegs h).dbgDone = (s.svcRegs h).dbgDone + 1 ∧ t.ctx? ctx = some d ∧ d.pairedWith = none ∧ t.ctx? o.id = some e ∧ e.pairedWith = none))
  ∧ (∀ s : State,
    let fresh : State := { State.reset with
      boot := { Boot.reset with
        flashOk := s.boot.flashOk
        startOk := s.boot.startOk
        faulty := s.boot.faulty }
      generated := s.generated
      choices := s.choices }
    exec .packageReset s = .next fresh
    ∧ exec (.thermalFault true) s = .next fresh
    ∧ (∃ t, exec (.thermalFault false) s = .next t ∧ t.halted = some .thermal ∧ t.clock = s.clock
        ∧ ∀ c ∈ s.contexts, s.ctx? c.id = some c → c.state = .resident → c.stopped = false →
            ∃ d, t.ctx? c.id = some d ∧ (d.state = .saving ∨ d.state = .saved)
              ∧ ((∀ p ∈ s.parties, p.ctx = c.id → p.state = .saved) → (s.parties.map (·.id)).Nodup → LeavesFree s c.id →
                  (∀ r ∈ s.rotations, r.ctx ≠ c.id) → d.state = .saved))
    ∧ (∃ t, exec .alarm s = .next t ∧ t.keys = [] ∧ t.sealedKeys = [] ∧ t.rotations = [] ∧ t.halted = some .alarm
        ∧ { t with keys := s.keys, sealedKeys := s.sealedKeys, rotations := s.rotations, halted := s.halted } = s))

/-- R167, R249, R263, R264, R282, R343, R344, R363, R371, R376, R377, R382, R385, R387, R398, R413, R424, Table 30-3: a store to a register has the effect of
its block, by who performs it; a host core's store to this device's memory is performed where the frame's record lets the host write (by one
event, the model's choice, log 38); shootdowns, notices and replies; waiting fault-queue posts; attestation (that a request made while one
is answered is ignored is the model's choice, log 26). -/
def Obligations.RegisterEvents : Prop :=
  (∀ (s : State) (h : Nat) (v : Word),
    let g := s.svcRegs h
    (g.sdBusy = true → exec (.sdReq h v) s = .next (s.setSvc h { g with sdHeld := g.sdHeld ++ [v] }))
    ∧ (g.sdBusy = false → ∃ t, exec (.sdReq h v) s = .next t ∧ t.svcRegs h = { g with sdReq := v, sdBusy := true }
        ∧ t.events = s.events ++ [.shootdownDone h] ∧ { t with svc := s.svc, events := s.events } = s)
    ∧ (g.sdBusy = false → exec (.shootdownDone h) s = .next s)
    ∧ (g.sdBusy = true → ∃ t, exec (.shootdownDone h) s = .next t
        ∧ (g.sdHeld = [] → t.svcRegs h = { g with sdBusy := false, sdDone := g.sdDone + 1 })
        ∧ (∀ w rest, g.sdHeld = w :: rest → t.svcRegs h = { g with sdReq := w, sdHeld := rest, sdDone := g.sdDone + 1 })
        ∧ (∀ c, ∀ e ∈ (t.core c).itlb ++ (t.core c).dtlb, shotDown (g.sdReq.extractLsb' 48 16) (bitsNat g.sdReq 0 45 * 4096) (bitsNat g.sdReq 45 3) e = false)
        ∧ (∀ k, ∀ e ∈ (t.cluster k).mtlb ++ (t.cluster k).ctlb, shotDown (g.sdReq.extractLsb' 48 16) (bitsNat g.sdReq 0 45 * 4096) (bitsNat g.sdReq 45 3) e = false)
        ∧ (∀ w ∈ t.walks, bitsNat g.sdReq 45 3 ≠ 7 ∧ w.ctx ≠ g.sdReq.extractLsb' 48 16)
        ∧ (6 ≤ bitsNat g.sdReq 45 3 → ∀ p ∈ t.ctxPages, bitsNat g.sdReq 45 3 ≠ 7 ∧ p.ctx ≠ g.sdReq.extractLsb' 48 16)
        ∧ (∀ k, (s.purging = [] → (t.getHart k).pending = []) ∧ (t.getHart k).x = (s.getHart k).x ∧ (t.getHart k).pc = (s.getHart k).pc))
    ∧ (let f := g.fnTarget
       let tag := v.extractLsb' 0 16
       let status := v.extractLsb' 16 16
       (s.ctxLaunch (f.extractLsb' 32 16) = none → exec (.fnPost h v) s = .next s ∧ exec (.scReply h v) s = .next s)
       ∧ (∀ l x, s.ctxLaunch (f.extractLsb' 32 16) = some l → s.launch? l.id = some l → l.hartOf (f.extractLsb' 0 32).toNat = some x → s.rankAway l (f.extractLsb' 0 32).toNat = false →
           ((s.core (coreOf x)).queue (slotOf x)).waiting = [] → ((s.core (coreOf x)).queue (slotOf x)).hasFree (slotOf x) = true →
           let q (u : State) : List VBits := ((u.core (coreOf x)).queue (slotOf x)).entries
           ((x, tag.toNat) ∈ l.deadTags → exec (.fnPost h v) s = .next s)
           ∧ ((x, tag.toNat) ∉ l.deadTags → ∃ t e, exec (.fnPost h v) s = .next t ∧ q t = q s ++ [e] ∧ e.extractLsb' 0 16 = 1 ∧ e.extractLsb' 16 16 = status
               ∧ e.extractLsb' 32 16 = tag ∧ e.extractLsb' 48 16 = 0xFFFF ∧ e.extractLsb' 64 448 = 0 ∧ { t with cores := s.cores } = s)
           ∧ (∃ t e, exec (.scReply h v) s = .next t ∧ q t = q s ++ [e] ∧ e.extractLsb' 0 16 = 4 ∧ e.extractLsb' 16 16 = status
               ∧ e.extractLsb' 32 16 = tag ∧ e.extractLsb' 48 16 = 0xFFFF ∧ e.extractLsb' 64 64 = v >>> 32 ∧ e.extractLsb' 128 384 = 0
               ∧ { t with cores := s.cores } = s))
       ∧ (∀ l, s.ctxLaunch (f.extractLsb' 32 16) = some l → s.launch? l.id = some l → s.rankAway l (f.extractLsb' 0 32).toNat = true →
           ∃ t m e, exec (.scReply h v) s = .next t ∧ t.launch? l.id = some m ∧ m.held = l.held ++ [((f.extractLsb' 0 32).toNat, e)]
             ∧ e.extractLsb' 0 16 = 4 ∧ { t with launches := s.launches } = s)))
  ∧ (∀ (s : State) (v : Word),
    let u : State := { s with attReq := v &&& 0x0000FFFFFFFFFFC0 }
    let a := s.attReq.toNat
    (s.attBusy = true → exec (.attReq v) s = .next s)
    ∧ (s.attBusy = false → exec (.attReq v) s = .next { u with attBusy := true, events := s.events ++ [.attestationReportDone] }
        ∧ exec .attestationReportDone s = .next s)
    ∧ (s.attBusy = true → ∃ t, exec .attestationReportDone s = .next t ∧ t.attBusy = false ∧ t.attDone = s.attDone + 1
        ∧ (Memory.wf s.mem = true → inLocalHbm s (a + 327) = true →
            let out (lo n : Nat) : List Byte := (List.range n).map (fun k => Memory.get t.mem (a + 64 + lo + k))
            let request (lo n : Nat) : List Byte := (List.range n).map (fun k => Memory.get s.mem (a + lo + k))
            out 0 4 = bytesOfNat 4 1 ∧ out 4 4 = bytesOfNat 4 0 ∧ out 8 32 = request 0 32 ∧ out 40 32 = bytesOfNat 32 Config.fwHash.toNat
              ∧ out 72 32 = bytesOfNat 32 Config.monHash.toNat ∧ out 104 32 = request 32 32 ∧ out 136 64 = bytesOfNat 64 Config.kaPub.toNat
              ∧ out 200 64 = bytesOfNat 64 (Config.identitySign (out 0 200)).toNat
              ∧ ∀ b, b < a + 64 ∨ a + 328 ≤ b → Memory.get t.mem b = Memory.get s.mem b)))
  ∧ (∀ s : State,
    ((∀ p ∈ s.posts, s.ringFull p.ring = true) → exec .faultQueuePost s = .next s)
    ∧ (∀ p, s.posts.find? (fun p => !s.ringFull p.ring) = some p → Memory.wf s.mem = true →
        let head := s.loadNat (ringBase p.ring) 4
        ∃ t, exec .faultQueuePost s = .next t ∧ t.posts = s.posts.erase p ∧ t.loadNat (ringBase p.ring) 4 = (head + 1) % 2 ^ 32
          ∧ (p.bytes.length = 64 → t.load (ringBase p.ring + 64 * (1 + head % ringSize p.ring)) 64 = p.bytes)
          ∧ ∀ b, ¬ (ringBase p.ring ≤ b ∧ b < ringBase p.ring + 4) →
              ¬ (ringBase p.ring + 64 * (1 + head % ringSize p.ring) ≤ b ∧ b < ringBase p.ring + 64 * (1 + head % ringSize p.ring) + 64) →
              Memory.get t.mem b = Memory.get s.mem b))
  ∧ (∀ (s : State) (mode : Mode) (k i : Nat) (v : Word),
    let put (who : Agent) (pa : Nat) : Out := exec (.registerWrite who (BitVec.ofNat 48 pa) 8 v) s
    let me := Agent.hart mode k
    let g := s.svcRegs i
    (∀ who pa size, mmioSize pa.toNat size = false → ((∃ c, who = Agent.hostCore c) → inLocalHbm s (normPa pa.toNat) = false ∧ inBlanket pa.toNat = false) →
        exec (.registerWrite who pa size v) s = .next s)
    ∧ (∀ c size (pa : BitVec 48), inLocalHbm s (normPa pa.toNat) = true ∨ inBlanket pa.toNat = true →
        let a := normPa pa.toNat
        let f := frameOf a
        let rights := frameRights s (kernelCode .host) f true
        (size ∈ [1, 2, 4, 8] → a % size = 0 → entSealed (s.entry f) = false → (∃ r, rights = .ok r ∧ r ≠ 1) → s.answers a = true →
            exec (.registerWrite (.hostCore c) pa size v) s = .next ((s.recallLine none a).storeWhole a (lowBytes size v)))
        ∧ (size ∉ [1, 2, 4, 8] ∨ a % size ≠ 0 ∨ entSealed (s.entry f) = true ∨ rights = .ok 1 ∨ (∃ e, rights = .error e) ∨ s.answers a = false →
            exec (.registerWrite (.hostCore c) pa size v) s = .next s))
    ∧ (∀ pa size, exec (.registerWrite .peer pa size v) s = .next s)
    ∧ put me 0xF00000010800 = .next { s with accNote := v.setWidth 6 }
    ∧ (∀ c, put (.hostCore c) 0xF00000010808 = .next { s with hostNring := v &&& 0x003FFFFFFFFFFFCF })
    ∧ (i < 64 →
        let at_ (off : Nat) : Nat := 0xF00000020000 + 64 * i + off
        let dbg (off : Nat) : Nat := 0xF00000080000 + 64 * i + off
        (s.groupOut i = true → ∀ off, off < 64 → put me (at_ off) = .next s ∧ put me (dbg off) = .next s)
        ∧ (s.groupOut i = false → put me (at_ 0x00) = exec (.sdReq i v) s
        ∧ put me (at_ 0x08) = .next s
        ∧ put me (at_ 0x10) = .next (s.setSvc i { g with fnTarget := v &&& 0x0000FFFFFFFFFFFF })
        ∧ put me (at_ 0x18) = exec (.fnPost i v) s
        ∧ (v.extractLsb' 16 2 = 0 → put me (at_ 0x20) = exec (.preReqPreempt i v) s)
        ∧ (v.extractLsb' 16 2 = 1 → put me (at_ 0x20) = exec (.preReqResume i v) s)
        ∧ (v.extractLsb' 16 2 = 2 → put me (at_ 0x20) = exec (.preReqKill i v) s)
        ∧ put me (at_ 0x28) = .next (s.setSvc i { g with preMask := v })
        ∧ put me (at_ 0x30) = .next s
        ∧ put me (at_ 0x38) = exec (.scReply i v) s
        ∧ (v.extractLsb' 16 3 = 0 → put me (dbg 0) = exec (.dbgStopNext i v) s)
        ∧ (v.extractLsb' 16 3 = 1 → put me (dbg 0) = exec (.dbgStopAt i v) s)
        ∧ (v.extractLsb' 16 3 = 2 → put me (dbg 0) = exec (.dbgRelease i v) s)
        ∧ (v.extractLsb' 16 3 = 3 → put me (dbg 0) = exec (.dbgImmediateStop i v) s)
        ∧ (v.extractLsb' 16 3 = 4 → put me (dbg 0) = exec (.dbgPair i v) s)
        ∧ (v.extractLsb' 16 3 = 5 → put me (dbg 0) = exec (.dbgUnpair i v) s)
        ∧ (6 ≤ (v.extractLsb' 16 3).toNat → put me (dbg 0) = .next s)
        ∧ put me (dbg 8) = .next (s.setSvc i { g with dbgArg := v })
        ∧ put me (dbg 0x10) = .next s)
        ∧ (let join (off : Nat) : Nat := 0xF00000040100 + 32 * i + off
           put me (join 0) = .next (s.setSvc i { g with joinId := v.setWidth 32 })
           ∧ put me (join 8) = .next (s.setSvc i { g with joinMask := (g.joinMask.extractLsb' 64 64) ++ v })
           ∧ put me (join 16) = .next (s.setSvc i { g with joinMask := v ++ (g.joinMask.extractLsb' 0 64) })
           ∧ put me (join 24) = .next s)
        ∧ put me (0xF00000041000 + 8 * i) = .next { s with jobs := assocSet s.jobs i (v &&& 0x1FFFFFFFFFFFF) }
        ∧ (∀ (x d : Nat) (hd : d < 4), put .management (0xF00000030000 + 0x1000 * d + 0x100 + 8 * i) =
            .next { s with shares := s.shares.set d { s.shares[d] with
                  entries := assocSet s.shares[d].entries i (v.setWidth 33)
                  interval := s.shareInterval s.shares[d] } }
            ∧ put .management (0xF00000030000 + 0x1000 * d) = .next { s with shares := s.shares.set d { s.shares[d] with
                  pool := v.setWidth 16
                  interval := s.shareInterval s.shares[d] } }
            ∧ put me (0xF00000030000 + 0x1000 * d + x % 0x1000) = .next s))
    ∧ (i < 32 → ∀ c,
        put (.hostCore c) (0xF00000010000 + 64 * i) = .next (s.setPort i { s.portGroup i with batch := v &&& 0x0000FFFFFFFFFFF0 })
        ∧ put (.hostCore c) (0xF00000010000 + 64 * i + 8) = exec (.rpGo i v) s)
    ∧ (i < harts →
        (mode = .m → put me (0xF00000090000 + 8 * i) = .next (if v.getLsbD 1 then (s.setMsip i (v.getLsbD 0)).setSsip i else s.setMsip i (v.getLsbD 0)))
        ∧ (mode = .s → isCompute k = false → put me (0xF00000090000 + 8 * i) = exec (.ssip i (v.getLsbD 1)) s)
        ∧ (mode = .s → isCompute k = true → put me (0xF00000090000 + 8 * i) = .next s)
        ∧ (mode = .u → put me (0xF00000090000 + 8 * i) = .next s))
    ∧ (put me 0xF00000070000 = if mode = .m then exec (.attReq v) s else .next s)
    ∧ (∀ p w, p < 8 → w < 64 →
        let x := s.port p
        let o := x.window w
        let at_ (off : Nat) : Nat := 0xF00000050000 + 0x1000 * p + 0x100 + 32 * w + off
        let win (y : Word × Word × Word × Bool) : Out := .next (s.setPcie p { x with windows := assocSet x.windows w y })
        (∀ c off, off < 32 → (x.owner ≠ 2 → put me (at_ off) = .next s) ∧ (x.owner ≠ 1 → put (.hostCore c) (at_ off) = .next s))
        ∧ (∀ who, (who = me ∧ x.owner = 2) ∨ ((∃ c, who = Agent.hostCore c) ∧ x.owner = 1) →
            put who (at_ 0) = win (v &&& ~~~0xFFF#64, o.2.1, o.2.2.1, o.2.2.2)
            ∧ put who (at_ 8) = win (o.1, v &&& ~~~0xFFF#64, o.2.2.1, o.2.2.2)
            ∧ put who (at_ 16) = win (o.1, o.2.1, v &&& 0x0000FFFFFFFFF000, o.2.2.2)
            ∧ put who (at_ 24) = win (o.1, o.2.1, o.2.2.1, v.getLsbD 0))))

/-- R284, R303, R365 to R367, R381, R383 to R386, R388, R389, R391, R392, R428 to R430: the device around the cores. The ramp limiter
keeps successive windows within its bound, 375 slots or what management has lowered it to (log 53); the share controller splits its pool; meters are charged; links, ports and other devices
come and go; root-port loads complete or take cause 5; peers write through their windows; the virtio devices and the network steps of
boot. -/
def Obligations.DeviceEvents : Prop :=
  (∀ (s : State) (k demand : Nat),
    let last := (s.cluster k).slots
    let want := min demand 3000
    let b := s.rampBound
    b ≤ 375 ∧ ∃ t, exec (.rampWindow k demand) s = .next t ∧ { t with clusters := s.clusters } = s ∧ (∀ j, j ≠ k → t.cluster j = s.cluster j)
      ∧ (last ≤ want + b → want ≤ last + b → (t.cluster k).slots = want)
      ∧ (last + b < want → (t.cluster k).slots = last + b)
      ∧ (want + b < last → (t.cluster k).slots = last - b)
      ∧ (t.cluster k).lease.cycles = (s.cluster k).lease.cycles + (if (s.cluster k).lease.holder.isSome then want - (last + b) else 0))
  ∧ (∀ (s : State) (die : Nat) (unspent : List (Nat × Nat)) (waiting : List (BitVec 16)),
    (4 ≤ die → exec (.intervalBoundary die unspent waiting) s = .next s)
    ∧ ∀ hd : die < 4,
      let x := s.shares[die]
      let u := min x.pool.toNat ((unspent.map (fun e => min e.2 (assocGet x.buckets 0 e.1))).sum + x.remainder)
      (x.pool = 0 → exec (.intervalBoundary die unspent waiting) s = .next s)
      ∧ (x.pool ≠ 0 → ∃ t, exec (.intervalBoundary die unspent waiting) s = .next t ∧ { t with shares := s.shares } = s
          ∧ (∀ (d : Nat) (h : d < 4), d ≠ die → t.shares[d] = s.shares[d])
          ∧ (let y := t.shares[die]
             y.pool = x.pool ∧ y.entries = x.entries ∧ y.intervals = x.intervals + 1 ∧ y.collected = BitVec.ofNat 32 u
             ∧ ∀ ctx sh, x.valid = [(ctx, sh)] → s.portsOf die ctx ≠ [] →
                let cores := s.portsOf die ctx
                let extra := if ctx ∈ waiting ∧ 0 < sh then u else 0
                let a := x.pool.toNat * sh / 65536 + extra
                y.remainder = u - extra
                ∧ (∀ (i c : Nat), cores[i]? = some c →
                    assocGet y.buckets 0 c = max 1 (a / cores.length + (if i < a % cores.length then 1 else 0)))
                ∧ ∀ h ∈ s.hartIds, dieOfCore (coreOf h) = die → (s.getHart h).running = true → coreOf h ∉ cores → assocGet y.buckets 0 (coreOf h) = 1)))
  ∧ (∀ (s : State) (a b : Activity) (energy floor : Nat) (c : Context), a.ctx ≠ b.ctx →
    s.contexts.filter (fun o => o.id == a.ctx) = [c] → (s.contexts.filter (fun o => o.id == b.ctx)).length = 1 →
    let total := a.estimate + b.estimate
    let pool := (energy - floor) + s.energyCarry
    let part (e : Nat) : Nat := if total = 0 then 0 else pool * e / total
    ∃ t d, exec (.meterUpdate [a, b] energy floor) s = .next t ∧ t.ctx? a.ctx = some d ∧ d.seq = (c.seq + 2) % 2 ^ 64
      ∧ (∀ (i : Nat) (h : i < 14), i ∈ [1, 5, 6, 8, 11] → d.meter[i] = (c.meter[i] + a.counts.getD i 0) % 2 ^ 64)
      ∧ (∀ (i : Nat) (h : i < 10), i ∈ [0, 2, 3, 4, 7, 9] → d.meter[i] = (c.meter[i] + c.gathered[i]) % 2 ^ 64 ∧ d.gathered[i] = 0)
      ∧ d.meter[10] = (c.meter[10] + part a.estimate) % 2 ^ 64 ∧ d.meter[12] = c.meter[12] % 2 ^ 64 ∧ d.meter[13] = c.meter[13] % 2 ^ 64
      ∧ t.energyCarry = pool - (part a.estimate + part b.estimate) ∧ { t with contexts := s.contexts, energyCarry := s.energyCarry } = s)
  ∧ (∀ (s : State) (ctx : BitVec 16) (i : Nat),
    ∃ t, exec (.getSensorReading ctx i) s = .next t ∧ { t with sensor := s.sensor } = s
      ∧ (∀ (c : Context) (h : i < 14), s.ctx? ctx = some c → t.sensor = some c.meter[i]) ∧ (s.ctx? ctx = none ∨ 14 ≤ i → t.sensor = none))
  ∧ (∀ (s : State) (link : Nat),
    exec (.flitCrcFailure link) s = .next s
    ∧ exec (.laneFailure link) s = .next s
    ∧ (∃ t, exec (.linkFailure link) s = .next t ∧ { t with linksUp := s.linksUp } = s
        ∧ ∀ i, i < 32 → t.linksUp.getLsbD i = (s.linksUp.getLsbD i && decide (i ≠ link)))
    ∧ (∃ t, exec (.linkRecovery link) s = .next t ∧ { t with linksUp := s.linksUp } = s
        ∧ ∀ i, i < 32 → t.linksUp.getLsbD i = (s.linksUp.getLsbD i || decide (i = link))))
  ∧ (∀ (s : State) (d : Nat) (lost : List Nat) (o : Outstanding),
    let joined (l : Launch) : Prop := l.ended = none ∧ ∃ j m, l.join = some (j, m) ∧ m.getLsbD d = true
    (d = Config.devno ∨ 128 ≤ d ∨ s.present.getLsbD d = false → exec (.deviceLoss d lost [o]) s = .next s)
    ∧ (d ≠ Config.devno → d < 128 → s.present.getLsbD d = true → ∃ t, exec (.deviceLoss d lost [o]) s = .next t
        ∧ (∀ i, i < 128 → t.present.getLsbD i = (s.present.getLsbD i && decide (i ≠ d)))
        ∧ ((∀ l ∈ s.launches, ¬ joined l) →
            (o.hart ∈ s.hartIds → (t.getHart o.hart).trapDue = some (if o.store then 7 else 5, o.addr) ∧ (t.getHart o.hart).blocked = none)
            ∧ (∀ h ∈ s.hartIds, h ∈ lost → (t.getHart h).lostStore = true)
            ∧ (∀ h rd p n sg st, (s.getHart h).blocked = some (.remote rd p n sg st) → h ∈ s.hartIds → h ≠ o.hart → inDomain p.key = true →
                domainDev p.key = d → (t.getHart h).trapDue = some (5, BitVec.ofNat 64 p.va) ∧ (t.getHart h).blocked = none)
            ∧ (∀ h, h ≠ o.hart → h ∉ lost → (∀ rd p n sg st, (s.getHart h).blocked = some (.remote rd p n sg st) →
                inDomain p.key = false ∨ domainDev p.key ≠ d) → t.getHart h = s.getHart h) ∧ t.mem = s.mem)
        ∧ ∀ l ∈ s.launches, joined l → (∃ m ∈ t.launches, m.id = l.id ∧ m.ended = some .peerLost)
            ∧ ∀ c, s.ctx? l.ctx = some c → ∃ e, t.ctx? l.ctx = some e ∧ e.stopped = true))
  ∧ (∀ (s : State) (p : Nat) (speed : BitVec 8), p < 8 →
    (∃ t, exec (.portLinkDown p) s = .next t ∧ t.port p = { s.port p with linkUp := false, speed := 0 }
        ∧ (∀ q, q ≠ p → t.port q = s.port q) ∧ { t with pcie := s.pcie } = s)
    ∧ ((s.port p).role = 0 → exec (.portLinkUp p speed) s = .next s)
    ∧ ((s.port p).role ≠ 0 → ∃ t, exec (.portLinkUp p speed) s = .next t ∧ t.port p = { s.port p with linkUp := true, speed := speed }
        ∧ (∀ q, q ≠ p → t.port q = s.port q) ∧ { t with pcie := s.pcie } = s))
  ∧ (∀ (s : State) (h : Nat) (w : Word) (rd : Reg) (a : Word) (n : Nat) (signed : Bool),
    ((s.getHart h).blocked = some (.pcie rd a n signed) →
      (∃ t, exec (.pcieLoadCompletion h (some w)) s = .next t ∧ (t.getHart h).blocked = none
          ∧ (t.getHart h).csr.instret = (s.getHart h).csr.instret + 1
          ∧ (n = 8 → rd ≠ 0 → (t.getHart h).x[rd.toNat] = w)
          ∧ (n = 4 → rd ≠ 0 → (t.getHart h).x[rd.toNat] = if signed then (w.setWidth 32).signExtend 64 else (w.setWidth 32).setWidth 64)
          ∧ (∀ j, j ≠ h → t.getHart j = s.getHart j) ∧ { t with hart := s.hart, others := s.others } = s)
      ∧ exec (.pcieLoadCompletion h none) s = .next (((s.focus h).trap 5 a).focus s.hid)
      ∧ exec (.pcieLoadTimeout h) s = .next (((State.focus { s with clock := s.clock + 150000000 } h).trap 5 a).focus s.hid))
    ∧ ((∀ rd a n g, (s.getHart h).blocked ≠ some (.pcie rd a n g)) → ∀ o, exec (.pcieLoadCompletion h o) s = .next s ∧ exec (.pcieLoadTimeout h) s = .next s))
  ∧ (∀ (s : State) (port bus : Nat) (data : List Byte) (len : Nat),
    exec (.peerMemoryRequest port (.read bus len)) s = .next s
    ∧ exec (.peerMemoryRequest port (.atomic bus)) s = .next s
    ∧ ((s.port port).role ≠ 1 → exec (.peerMemoryRequest port (.write bus data)) s = .next s)
    ∧ ∀ k base size pa w, (s.port port).windows = [(k, base, size, pa, w)] →
        let at_ := pa.toNat + (bus - base.toNat)
        let inside := size ≠ 0 ∧ base.toNat ≤ bus ∧ bus + data.length ≤ base.toNat + size.toNat ∧ inLocalHbm s (pa.toNat + size.toNat - 1) = true
        ((¬ inside ∨ w = false) → exec (.peerMemoryRequest port (.write bus data)) s = .next s)
        ∧ ((∃ f, at_ / 0x10000 ≤ f ∧ f ≤ (at_ + data.length - 1) / 0x10000 ∧ entSealed (s.entry f) = true) →
            exec (.peerMemoryRequest port (.write bus data)) s = .next s)
        ∧ (inside → data ≠ [] → w = true → (s.port port).role = 1 →
            (∀ f, at_ / 0x10000 ≤ f → f ≤ (at_ + data.length - 1) / 0x10000 → entSealed (s.entry f) = false
              ∧ frameRights s (s.port port).owner f true = .ok 0) →
            exec (.peerMemoryRequest port (.write bus data)) s = .next (s.storeWhole at_ data)))
  ∧ (∀ (s : State) (dev q : Nat) (v : BitVec 8) (packed : Bool),
    (3 ≤ dev → ∀ ok, exec (.virtioNotification dev q ok) s = .next s ∧ exec (.deviceStatusWrite dev v packed) s = .next s)
    ∧ ∀ h : dev < 3,
      let o := s.virtio[dev]
      let with_ (n : Virtio) : State := { s with virtio := s.virtio.set dev n }
      (o.needsReset = true ∨ o.status.getLsbD 2 = false → ∀ ok, exec (.virtioNotification dev q ok) s = .next s)
      ∧ (o.needsReset = false → o.status.getLsbD 2 = true →
          exec (.virtioNotification dev q true) s = .next (with_ { o with notified := o.notified ++ [q] })
          ∧ exec (.virtioNotification dev q false) s = .next (with_ { o with needsReset := true, status := o.status ||| 0x40 }))
      ∧ exec (.deviceStatusWrite dev 0 packed) s = .next (with_ { status := 0, needsReset := false, notified := [] })
      ∧ (v ≠ 0 → ∃ n, exec (.deviceStatusWrite dev v packed) s = .next (with_ n) ∧ n.needsReset = o.needsReset ∧ n.notified = o.notified
          ∧ (packed = false → o.status.getLsbD 3 = false → n.status.getLsbD 3 = false) ∧ (packed = true → n.status.getLsbD 3 = v.getLsbD 3)
          ∧ (o.needsReset = true → n.status.getLsbD 6 = true) ∧ ∀ i, i ≠ 3 → i ≠ 6 → n.status.getLsbD i = v.getLsbD i))
  ∧ (∀ (s : State) (addr : BitVec 128) (url : Bool),
    let b := s.boot
    let at_ (b : Boot) : Out := .next { s with boot := b }
    exec (.dhcpv6Reply addr url) s = at_ { b with
      address := some addr
      fetchTries := if b.stage = .recovery ∧ url = true then b.fetchTries + 1 else b.fetchTries
      announceTries := if b.stage ≠ .recovery ∧ b.address = none then b.announceTries + 1 else b.announceTries }
    ∧ exec .dhcpv6Retry s = at_ { b with dhcpTries := if b.address = none then b.dhcpTries + 1 else b.dhcpTries }
    ∧ exec .announcementRetry s = at_ { b with announceTries := if b.stage = .done ∧ b.address ≠ none then b.announceTries + 1 else b.announceTries }
    ∧ exec .recoveryFetchRetry s = at_ { b with fetchTries := if b.stage = .recovery ∧ b.address ≠ none then b.fetchTries + 1 else b.fetchTries }
    ∧ (b.stage = .recovery → exec (.recoveryImageReceived true) s = at_ { b with flashOk := true, stage := .step 1 })
    ∧ (b.stage ≠ .recovery → exec (.recoveryImageReceived true) s = .next s)
    ∧ exec (.recoveryImageReceived false) s = .next s)

/-! ### The whole machine -/

/-- R46, Tables 02-3, 02-7, 14-4, 15-8, 16-4, 22-1, 23-5, 25-1: the state after a package reset, and that the invariant of every step
holds in it. No rule gives empty memory a value (log 1), nor `held` before a party is placed; nothing is said of them. -/
def Obligations.ResetState : Prop :=
  let s := State.reset
  (∀ h, h < harts →
    let x := s.getHart h
    let u := s.focus h
    x.running = false ∧ x.party = none ∧ x.mode = .m ∧ x.pc = 0 ∧ x.csr.repstate = 0 ∧ x.csr.ostat = 0
    ∧ (∀ r : Reg, u.x r = 0) ∧ (∀ r : VReg, x.readV r = ⟨0, .raw⟩)
    ∧ (∀ n r, csrName n = some r → u.csrGet r = (if n = 0x14D ∨ n = 0x802 ∨ n = 0x7D0 then BitVec.allOnes 64 else if n = 0x803 then 2 else 0)))
  ∧ (∀ h, (s.svcRegs h).read 0x08 = 0 ∧ (s.svcRegs h).read 0x30 = 0 ∧ s.dbgStat (s.svcRegs h) = 0)
  ∧ (∀ c, (s.portGroup c).busy = none ∧ (s.portGroup c).done = 0)
  ∧ (∀ (d : Nat) (h : d < 4) (off : Nat), s.shares[d].read off = 0)
  ∧ s.boot.stage = .step 1 ∧ s.clock = 0 ∧ s.engines = [] ∧ s.parties = [] ∧ s.launches = [] ∧ s.contexts = [] ∧ s.keys = []
  ∧ Memory.wf s.mem = true
  ∧ Inv s

/-- R44, R48, R156, R245: a step runs the word it fetches. The fetched word is that of the buffered block that holds pc, and for an empty
buffer the word in memory at pc (in M-mode, untranslated). A step of a hart that nothing comes before is `exec` of the instruction its
word decodes to, on the state the fetch leaves, which differs only in fetch buffer, instruction cache, instruction TLB, walk cache and
cached context page, with the turn of the core's slots and its context's issue slot noted; the clock then
advances. A word that decodes to nothing is the illegal instruction. An event that has arrived comes first; boot comes before any hart. -/
def Obligations.StepRunsDecoded : Prop := ∀ (s : State),
  let u := s.fetch.1
  let pc := s.hart.pc
  ({ u.hart with fetch := s.hart.fetch, lastFetch := s.hart.lastFetch } = s.hart
    ∧ { u with hart := s.hart, cores := s.cores, walks := s.walks, ctxPages := s.ctxPages } = s)
  ∧ (∀ i, let t := u.issuing i
      { t with hart := u.hart, cores := u.cores, contexts := u.contexts } = u ∧ { t.hart with late := u.hart.late } = u.hart
      ∧ (∀ c, t.core c = if c = u.ownCore then { u.core c with turn := slotOf u.hid } else u.core c)
      ∧ ∀ (n : Nat) (c : Context), u.contexts[n]? = some c → ∃ d, t.contexts[n]? = some d ∧ { d with gathered := c.gathered } = c
        ∧ ∀ (j : Nat) (h : j < 10), d.gathered[j] = c.gathered[j] + (if c.id = ctxOf u.hart.csr.ptroot ∧ j = 2 then 1 else 0))
  ∧ (∀ (b : FetchBlock) (w : BitVec 32), s.hart.block (pc.toNat / 64 * 64) = some b → b.bad = [] →
      w = BitVec.ofNat 32 (natOfBytes ((b.bytes.drop (pc.toNat % 64)).take 4)) → pc.toNat % 64 + 4 ≤ b.bytes.length →
      (∀ a ∈ (fetchPlan s.hart).2, inWindow a = true → s.hart.physical a = false → (a - windowBase) / extentBytes < 31
        ∧ ∃ p k, s.ownParty = some p ∧ p.windowKey (a - windowBase) = some k) → s.fetch.2 = .ok w)
  ∧ (s.hart.fetch = [] → s.hart.mode = .m → s.hart.party = none → s.hart.csr.pmp = Pmp.reset → inLocalHbm s pc.toNat = true → pc.toNat % 4 = 0 →
      repActive s.hart.csr.repstate = false → (s.core s.ownCore).icache = [] → s.lines = [] → s.poison = [] →
      s.fetch.2 = .ok (wordAt s pc.toNat))
  ∧ (∀ (w : BitVec 32) (i : Instr), Issues s → s.fetch.2 = .ok w → decodeWord w = .ok i → step s = ticked (exec i (u.issuing i)))
  ∧ (∀ (w : BitVec 32) (e : DecodeError), Issues s → s.fetch.2 = .ok w → decodeWord w = .error e →
      step s = ticked (exec (.illegalInstruction w) (u.issuing (.illegalInstruction w))))
  ∧ (∀ c v, Issues s → s.fetch.2 = .error (c, v) → step s = ticked (u.trapOut c v))
  ∧ (∀ t, ticked (.next t) = .next t.lookCells.lookLeases.tick ∧ t.clock < t.tick.clock
      ∧ { t.tick with clock := t.clock, choices := t.choices } = t)
  ∧ (∀ e rest, s.events = e :: rest → step s = ticked (exec e { s with events := rest }))
  ∧ (∀ n, s.events = [] → s.isHalted = false → s.boot.stage = .step n → step s = ticked (.next (bootStep n s)))
  ∧ (∀ c i, s.events = [] → s.isHalted = false → s.boot.stage = .done → s.pickHart = none → s.pickDue = some (.command c) →
      (s.shareOf (coreOf c.by_.hart)).pool = 0 → commandInstr c = some i → step s = ticked (exec i s))

/-- R50, R53 to R59 with the worked encodings of their chapter: the words on the left, written out from the encoding tables, decode to
the instructions on the right, and the illegal words of the chapter to none. -/
def Obligations.DecodingWords : Prop :=
  (∀ p ∈ ([(0x00A28293, .addi 5 5 10), (0x40628533, .sub 10 5 6), (0x02C5D533, .divu 10 11 12), (0x02129293, .slli 5 5 33),
      (0x0083A303, .lw 6 7 8), (0x0063B823, .sd 7 6 16), (0x00208463, .beq 1 2 4), (0x001000EF, .jal 1 1024),
      (0x04B6352F, .amoaddD 10 12 11 true false), (0x300110F3, .csrrw 1 0x300 2), (0x00000073, .ecall), (0x30200073, .mret),
      (0x10500073, .wfi), (0x0000100F, .fenceI)] : List (BitVec 32 × Instr)), decodeWord p.1 = .ok p.2)
  ∧ (∀ p ∈ ([(0x082081D7, .vadd .f32 3 1 2 false 2), (0x3A629243, .vfma .bf16 4 5 6 7 1), (0x00250407, .vle .f32 8 10 2),
      (0x08250407, .vle .f32 8 10 130), (0x68C5955B, .offer 10 11 12 13 false true), (0xB20140F7, .vredsum .i32 1 2 true 0),
      (0xD0208177, .vcvt 2 1 .bf16 false 0), (0x442080F7, .vcmplt .f32 1 2 false 1), (0x907372F7, .vmvx .i64 5 6 7 0),
      (0x4095E1A7, .vsx .i8 3 11 9 false), (0x1FF101A7, .vse .f32 3 2 511)] : List (BitVec 32 × Instr)), decodeWord p.1 = .ok p.2)
  ∧ (∀ p ∈ ([(0x0012FE0B, .rep 0 5 1 28), (0x0214000B, .qpush 1 8 true), (0x0020120B, .recv 4 2), (0x06B5128B, .qmake 5 10 11),
      (0x0601C20B, .mtpack 4 3 true), (0x0420002B, .phaseCo .device), (0x082302AB, .hred 5 6 .max), (0x0A33002B, .emit 3 6),
      (0x020352AB, .acqTry 5 6), (0xFE1312AB, .ldS 5 6 1016 .group), (0x0E73342B, .sdS 6 7 40 .system), (0x0205007B, .scall 10),
      (0x000312FB, .launch 5 6), (0x0462A07B, .monkey 5 6)] : List (BitVec 32 × Instr)), decodeWord p.1 = .ok p.2)
  ∧ ∀ w ∈ ([0x00000053, 0x6AC5955B, 0x68C5D55B, 0x60250407] : List (BitVec 32)), ∀ i, decodeWord w ≠ .ok i

/-- Every well-formed instruction of the instruction set survives encoding: its four bytes decode to it, with every operand at every
value its encoding admits, and nothing is left over. Bytes that follow are left for the next instruction. -/
def Obligations.RoundTrip : Prop :=
  ∀ (i : Instr) (rest : List Byte), i.wf = true → i.isWord = true → decode (encode i ++ rest) = .ok (i, rest)

/-- R194, R299: after every step that goes on, the invariant holds: whoever waited for a cell that has been decided has been answered,
and each lease knows whether its holder is idle. -/
def Obligations.StepInvariant : Prop := ∀ (s t : State), Inv s → step s = .next t → Inv t
end

