-- ==== Sys2Proof/Laws/Memory.lean ====
section
/-! SUPPORT. Keyed lists read back what was written, memory operations keep the canonical form, and a read after a write
gives the bytes written and leaves every other byte alone. -/

namespace Sys2Proof.Machine
open Sys2Proof.Safety

/-! ### Keyed lists -/

/-- Reading an entry of a keyed list after writing one. -/
theorem assocGet_set {α : Type} (l : List (Nat × α)) (d v : α) (k j : Nat) :
    assocGet (assocSet l k v) d j = if j = k then v else assocGet l d j := by
  induction l with
  | nil => by_cases h : k = j <;> simp [assocSet, assocGet, h, eq_comm]
  | cons e t ih =>
    obtain ⟨i, w⟩ := e
    unfold assocSet
    by_cases h1 : i = k
    · subst h1
      by_cases h2 : i = j
      · subst h2; simp [assocGet]
      · simp [assocGet, h2, Ne.symm h2]
    · by_cases h2 : k < i
      · by_cases h3 : k = j
        · subst h3; simp [h1, h2, assocGet]
        · simp [h1, h2, assocGet, h3, Ne.symm h3]
      · by_cases h3 : i = j
        · subst h3; simp [h1, h2, assocGet]
        · simp [h1, h2, assocGet, h3, ih]

/-- A core just written. -/
@[simp] theorem State.core_setCore (s : State) (c j : Nat) (x : Core) :
    (s.setCore c x).core j = if j = c then x else s.core j := assocGet_set ..

/-- A cluster just written. -/
@[simp] theorem State.cluster_setCluster (s : State) (k j : Nat) (x : Cluster) :
    (s.setCluster k x).cluster j = if j = k then x else s.cluster j := assocGet_set ..

/-- A hart just written. -/
@[simp] theorem State.getHart_setHart (s : State) (h j : Nat) (x : Hart) :
    (s.setHart h x).getHart j = if j = h then x else s.getHart j := by
  by_cases h1 : h = s.hid
  · subst h1
    by_cases h2 : j = s.hid <;> simp [State.setHart, State.getHart, h2]
  · by_cases h2 : j = s.hid
    · subst h2; simp [State.setHart, State.getHart, h1, Ne.symm h1]
    · simp [State.setHart, State.getHart, h1, h2, assocGet_set]

/-! ### The canonical form -/

/-- A memory whose addresses start at `lo` starts at any lower bound too. -/
theorem Memory.wfFrom_mono {lo lo' : Nat} {m : List Host.Cell} (h : Memory.wfFrom lo m = true) (hl : lo' ≤ lo) :
    Memory.wfFrom lo' m = true := by
  cases m with
  | nil => rfl
  | cons e t =>
    obtain ⟨k, b⟩ := e
    simp only [Memory.wfFrom, Bool.and_eq_true, decide_eq_true_eq] at h ⊢
    exact ⟨⟨by omega, h.1.2⟩, h.2⟩

/-- A memory whose addresses start at `lo` reads 0 below. -/
theorem Memory.get_below {lo a : Nat} {m : List Host.Cell} (h : Memory.wfFrom lo m = true) (ha : a < lo) :
    Memory.get m a = 0 := by
  cases m with
  | nil => rfl
  | cons e t =>
    obtain ⟨k, b⟩ := e
    simp only [Memory.wfFrom, Bool.and_eq_true, decide_eq_true_eq] at h
    have h1 : ¬ k = a := by omega
    have h2 : a < k := by omega
    simp [Memory.get, h1, h2]

/-- Writing a byte keeps the canonical form. -/
theorem Memory.wfFrom_put {lo a : Nat} {m : List Host.Cell} (b : Byte) (h : Memory.wfFrom lo m = true) (ha : lo ≤ a) :
    Memory.wfFrom lo (Memory.put m a b) = true := by
  induction m generalizing lo with
  | nil => by_cases hb : b = 0#8 <;> simp [Memory.put, hb, Memory.wfFrom, ha]
  | cons e t ih =>
    obtain ⟨k, c⟩ := e
    simp only [Memory.wfFrom, Bool.and_eq_true, decide_eq_true_eq] at h
    obtain ⟨⟨h1, h2⟩, h3⟩ := h
    unfold Memory.put
    by_cases e1 : k = a
    · subst e1
      by_cases hb : b = 0#8
      · simpa [hb] using Memory.wfFrom_mono h3 (by omega)
      · simp [hb, Memory.wfFrom, h1, h3]
    · by_cases e2 : a < k
      · by_cases hb : b = 0#8
        · simpa [e1, e2, hb, Memory.wfFrom, h1, h3] using h2
        · have h4 : a + 1 ≤ k := by omega
          simpa [e1, e2, hb, Memory.wfFrom, ha, h3, h4] using h2
      · simp only [e1, e2, if_false, Memory.wfFrom, Bool.and_eq_true, decide_eq_true_eq]
        exact ⟨⟨h1, h2⟩, ih h3 (by omega)⟩

/-- A read after a write of one byte. -/
theorem Memory.get_put {lo : Nat} {m : List Host.Cell} (a : Nat) (b : Byte) (c : Nat) (h : Memory.wfFrom lo m = true) :
    Memory.get (Memory.put m a b) c = if c = a then b else Memory.get m c := by
  induction m generalizing lo with
  | nil =>
    by_cases hb : b = 0#8
    · simp [Memory.put, hb, Memory.get]
    · by_cases e : a = c
      · subst e; simp [Memory.put, hb, Memory.get]
      · simp [Memory.put, hb, Memory.get, e, Ne.symm e]
  | cons e t ih =>
    obtain ⟨k, d⟩ := e
    simp only [Memory.wfFrom, Bool.and_eq_true, decide_eq_true_eq] at h
    obtain ⟨⟨h1, h2⟩, h3⟩ := h
    unfold Memory.put
    by_cases e1 : k = a
    · subst e1
      by_cases hb : b = 0#8
      · by_cases e3 : c = k
        · subst e3; simpa [hb] using Memory.get_below h3 (by omega)
        · by_cases e4 : c < k
          · simpa [hb, e3, Memory.get, Ne.symm e3, e4] using Memory.get_below h3 (by omega)
          · simp [hb, e3, Memory.get, Ne.symm e3, e4]
      · by_cases e3 : k = c
        · subst e3; simp [hb, Memory.get]
        · by_cases e4 : c < k <;> simp [hb, Memory.get, e3, Ne.symm e3, e4]
    · by_cases e2 : a < k
      · by_cases hb : b = 0#8
        · by_cases e3 : c = a
          · subst e3; simp [e1, e2, hb, Memory.get]
          · simp [e1, e2, hb, e3]
        · by_cases e3 : a = c
          · subst e3; simp [e1, e2, hb, Memory.get]
          · by_cases e4 : c < a
            · have e5 : c < k := by omega
              have e6 : ¬ k = c := by omega
              simp [e1, e2, hb, Memory.get, e3, Ne.symm e3, e4, e5, e6]
            · simp [e1, e2, hb, Memory.get, e3, Ne.symm e3, e4]
      · by_cases e3 : k = c
        · subst e3; simp [e2, Memory.get, e1]
        · by_cases e4 : c < k
          · have e5 : ¬ c = a := by omega
            simp [e1, e2, Memory.get, e3, e4, e5]
          · simp [e1, e2, Memory.get, e3, e4, ih h3]

/-- Writing bytes keeps the canonical form. -/
theorem Memory.wfFrom_write {lo a : Nat} {m : List Host.Cell} (bs : List Byte) (h : Memory.wfFrom lo m = true) (ha : lo ≤ a) :
    Memory.wfFrom lo (Memory.write m a bs) = true := by
  induction bs generalizing m a with
  | nil => exact h
  | cons b t ih => exact ih (Memory.wfFrom_put b h ha) (by omega)

/-- A read after a write of bytes. -/
theorem Memory.get_write {lo a : Nat} {m : List Host.Cell} (bs : List Byte) (c : Nat) (h : Memory.wfFrom lo m = true)
    (ha : lo ≤ a) :
    Memory.get (Memory.write m a bs) c = if a ≤ c ∧ c < a + bs.length then bs.getD (c - a) 0 else Memory.get m c := by
  induction bs generalizing m a with
  | nil => simp [Memory.write]
  | cons b t ih =>
    rw [Memory.write, ih (Memory.wfFrom_put b h ha) (by omega), Memory.get_put a b c h]
    by_cases e : c = a
    · subst e
      simp
    · by_cases e1 : a + 1 ≤ c ∧ c < a + 1 + t.length
      · have e2 : a ≤ c ∧ c < a + (b :: t).length := by simp; omega
        have e3 : c - a = (c - (a + 1)) + 1 := by omega
        rw [if_pos e1, if_pos e2, e3]; rfl
      · have e2 : ¬ (a ≤ c ∧ c < a + (b :: t).length) := by simp; omega
        rw [if_neg e1, if_neg e2, if_neg e]

/-- Dropping listed bytes keeps the canonical form. -/
theorem Memory.wfFrom_filter {lo : Nat} {m : List Host.Cell} (p : Host.Cell → Bool) (h : Memory.wfFrom lo m = true) :
    Memory.wfFrom lo (m.filter p) = true := by
  induction m generalizing lo with
  | nil => rfl
  | cons e t ih =>
    obtain ⟨k, b⟩ := e
    simp only [Memory.wfFrom, Bool.and_eq_true, decide_eq_true_eq] at h
    by_cases hp : p (k, b) = true
    · simp only [List.filter_cons, hp, if_true, Memory.wfFrom, Bool.and_eq_true, decide_eq_true_eq]
      exact ⟨h.1, ih h.2⟩
    · simp only [List.filter_cons, hp]
      exact Memory.wfFrom_mono (ih h.2) (by omega)

/-- Clearing a range keeps the canonical form. -/
theorem Memory.wf_clear {m : List Host.Cell} (lo hi : Nat) (h : Memory.wf m = true) : Memory.wf (Memory.clear m lo hi) = true :=
  Memory.wfFrom_filter _ h

/-- Writing one byte keeps the canonical form. -/
theorem Memory.wf_put {m : List Host.Cell} (a : Nat) (b : Byte) (h : Memory.wf m = true) : Memory.wf (Memory.put m a b) = true :=
  Memory.wfFrom_put b h (Nat.zero_le _)

/-- Writing bytes keeps the canonical form. -/
theorem Memory.wf_write {m : List Host.Cell} (a : Nat) (bs : List Byte) (h : Memory.wf m = true) :
    Memory.wf (Memory.write m a bs) = true :=
  Memory.wfFrom_write bs h (Nat.zero_le _)

/-- Placing relative cells keeps the canonical form. -/
theorem Memory.wf_place {m : List Host.Cell} (lo : Nat) (cs : List Host.Cell) (h : Memory.wf m = true) :
    Memory.wf (Memory.place m lo cs) = true := by
  unfold Memory.place
  induction cs generalizing m with
  | nil => exact h
  | cons c t ih => exact ih (Memory.wf_put _ _ h)

/-- Memory at reset is in canonical form. -/
theorem Memory.wf_reset : Memory.wf State.reset.mem = true := rfl

/-! ### Stores and pending stores -/

/-- A raw write's change of METHOD touches no byte of memory (R258). -/
@[simp] theorem State.rawBlock_mem (s : State) (a : Nat) : (s.rawBlock a).mem = s.mem := by
  unfold State.rawBlock
  split
  · rfl
  · split <;> rfl

/-- What changes memory alone changes memory alone together. -/
theorem onlyMemory_trans {s t u : State} (h : OnlyMemory s t) (k : OnlyMemory t u) : OnlyMemory s u := by
  unfold OnlyMemory at *
  exact (congrArg (fun x : State => { x with
    mem := s.mem, poison := s.poison, blocks := s.blocks, deltas := s.deltas, raws := s.raws, stale := s.stale, lines := s.lines,
    migrations := s.migrations }) k).trans h

/-- What changes memory alone leaves the harts. -/
theorem onlyMemory_harts {s t : State} (h : OnlyMemory s t) : t.hid = s.hid ∧ t.hart = s.hart ∧ t.others = s.others ∧ t.purging = s.purging := by
  unfold OnlyMemory at h
  have h1 := congrArg State.hid h
  have h2 := congrArg State.hart h
  have h3 := congrArg State.others h
  have h4 := congrArg State.purging h
  exact ⟨h1, h2, h3, h4⟩

/-- A raw write's change of METHOD. -/
theorem State.rawBlock_only (s : State) (a : Nat) : OnlyMemory s (s.rawBlock a) := by
  unfold State.rawBlock; split
  · rfl
  · split <;> rfl

@[simp] theorem State.rawBlock_stale (s : State) (a : Nat) : (s.rawBlock a).stale = s.stale := by
  unfold State.rawBlock; split
  · rfl
  · split <;> rfl
@[simp] theorem State.rawBlock_lines (s : State) (a : Nat) : (s.rawBlock a).lines = s.lines := by
  unfold State.rawBlock; split
  · rfl
  · split <;> rfl

/-- A store changes memory alone. -/
theorem State.storeBy_only (s : State) (h : Option Nat) (a : Nat) (bs : List Byte) : OnlyMemory s (s.storeBy h a bs) := by
  induction bs generalizing s a with
  | nil => rfl
  | cons b t ih =>
    rw [State.storeBy]
    refine onlyMemory_trans ?_ (ih _ _)
    have := s.rawBlock_only a
    unfold OnlyMemory at this ⊢
    exact this

/-- The bytes of memory after a store. -/
@[simp] theorem State.storeBy_mem (s : State) (h : Option Nat) (a : Nat) (bs : List Byte) : (s.storeBy h a bs).mem = Memory.write s.mem a bs := by
  induction bs generalizing s a with
  | nil => rfl
  | cons b t ih => rw [State.storeBy, ih, Memory.write]; simp only [State.rawBlock_mem]

/-- The device's store writes the same bytes. -/
@[simp] theorem State.store_mem (s : State) (a : Nat) (bs : List Byte) : (s.store a bs).mem = Memory.write s.mem a bs :=
  State.storeBy_mem s none a bs

/-- A store that covers whole ECC words writes the same bytes. -/
@[simp] theorem State.storeWhole_mem (s : State) (a : Nat) (bs : List Byte) : (s.storeWhole a bs).mem = Memory.write s.mem a bs :=
  State.storeBy_mem s none a bs

/-- A hart's store writes the same bytes. -/
@[simp] theorem State.storeOwn_mem (s : State) (a : Nat) (bs : List Byte) : (s.storeOwn a bs).mem = Memory.write s.mem a bs :=
  State.storeBy_mem s (some s.hid) a bs

/-- A store keeps the canonical form. -/
theorem State.storeBy_wf {s : State} (h : Option Nat) (a : Nat) (bs : List Byte) (hw : Memory.wf s.mem = true) :
    Memory.wf (s.storeBy h a bs).mem = true := by
  rw [State.storeBy_mem]; exact Memory.wf_write a bs hw

/-- Performing one more store, the newest. -/
theorem State.drainList_cons (s : State) (h : Option Nat) (c : Host.Cell) (p : List Host.Cell) :
    s.drainList h (c :: p) = (s.drainList h p).storeBy h c.1 [c.2] := by
  simp [State.drainList]

/-- Performing stores changes memory alone. -/
theorem State.drainList_only (s : State) (h : Option Nat) (p : List Host.Cell) : OnlyMemory s (s.drainList h p) := by
  induction p with
  | nil => rfl
  | cons c t ih => rw [State.drainList_cons]; exact onlyMemory_trans ih (State.storeBy_only ..)

/-- Performing stores keeps the canonical form. -/
theorem State.drainList_wf {s : State} (h : Option Nat) (p : List Host.Cell) (hw : Memory.wf s.mem = true) :
    Memory.wf (s.drainList h p).mem = true := by
  induction p with
  | nil => exact hw
  | cons c t ih => rw [State.drainList_cons]; exact State.storeBy_wf _ _ _ ih

/-- The bytes of memory once stores are performed: the newest of each, else as before. -/
theorem State.get_drainList (s : State) (h : Option Nat) (p : List Host.Cell) (a : Nat) (hw : Memory.wf s.mem = true) :
    Memory.get (s.drainList h p).mem a = pendingGet p s.mem a := by
  induction p with
  | nil => rfl
  | cons c t ih =>
    rw [State.drainList_cons, State.storeBy_mem]
    simp only [Memory.write]
    rw [Memory.get_put (lo := 0) _ _ _ (State.drainList_wf h t hw), ih]
    by_cases e : c.1 = a
    · simp [pendingGet, e]
    · simp [pendingGet, e, Ne.symm e]

/-! ### Older contents and agents' lines (R157 to R161) -/

/-- A fold whose steps leave a part of a list alone leaves that part alone. -/
theorem foldl_filter_same {α β : Type} (f : List α → β → List α) (p : α → Bool) (l : List β)
    (h : ∀ b ∈ l, ∀ q, (f q b).filter p = q.filter p) (q : List α) : (l.foldl f q).filter p = q.filter p := by
  induction l generalizing q with
  | nil => rfl
  | cons b t ih =>
    rw [List.foldl_cons, ih (fun c hc => h c (List.mem_cons_of_mem _ hc)), h b (List.mem_cons_self ..)]

/-- Another hart's older contents do not come into a hart's. -/
theorem State.keepView_other (s : State) (a : Nat) (old : Byte) (l : List (Nat × Nat × Byte)) {h j : Nat} (hj : j ≠ h) :
    (s.keepView a old l j).filter (fun k => k.1 == h) = l.filter (fun k => k.1 == h) := by
  unfold State.keepView
  have hj' : (j == h) = false := by simpa using hj
  split
  · split
    · rfl
    · simp [hj']
  · rw [List.filter_filter]
    refine List.filter_congr fun k _ => ?_
    by_cases e : k.1 = h
    · simp [e, Ne.symm hj]
    · have : (k.1 == h) = false := by simpa using e
      simp [this]

/-- What harts that `who` admits go on seeing does not come into another's older contents. -/
theorem State.keepViews_other (s : State) (who : Nat → Bool) (a : Nat) (old : Byte) {h : Nat} (hw : who h = false) :
    (s.keepViews who a old).filter (fun k => k.1 == h) = s.stale.filter (fun k => k.1 == h) := by
  unfold State.keepViews
  refine foldl_filter_same _ _ _ (fun j hj q => State.keepView_other s a old q ?_) _
  rw [List.mem_filter] at hj
  intro e
  rw [e, hw] at hj
  exact absurd hj.2 (by simp)

/-- A write at a site does not come into what the writer's own agent holds. -/
theorem State.keepLines_own (s : State) (k a : Nat) (old : Byte) :
    (s.keepLines (some k) a old).filter (fun l => l.cluster == k) = s.lines.filter (fun l => l.cluster == k) := by
  unfold State.keepLines
  refine foldl_filter_same _ _ _ (fun j hj q => ?_) _
  rw [List.mem_filter] at hj
  have hne : j ≠ k := by
    have := hj.2
    simp only [bne_iff_ne, ne_eq, Option.some.injEq] at this
    exact this
  have hj' : (j == k) = false := by simpa using hne
  split
  · split
    · rfl
    · simp [hj']
  · rw [List.filter_filter]
    refine List.filter_congr fun l _ => ?_
    by_cases e : l.cluster = k
    · have : (l.cluster == j) = false := by rw [e]; simpa using Ne.symm hne
      rw [this]; simp
    · have : (l.cluster == k) = false := by simpa using e
      simp [this]

/-- A hart's own store at a site comes neither into its older contents nor into what its agent holds. -/
theorem State.storeBy_own (s : State) (h a : Nat) (bs : List Byte) :
    (s.storeBy (some h) a bs).stale.filter (fun k => k.1 == h) = s.stale.filter (fun k => k.1 == h)
    ∧ ∀ k, agentOf h = some k → (s.storeBy (some h) a bs).lines.filter (fun l => l.cluster == k) = s.lines.filter (fun l => l.cluster == k) := by
  induction bs generalizing s a with
  | nil => exact ⟨rfl, fun _ _ => rfl⟩
  | cons b t ih =>
    rw [State.storeBy]
    obtain ⟨i1, i2⟩ := ih { s.rawBlock a with
      mem := Memory.put (s.rawBlock a).mem a b
      migrations := noteDirty (s.rawBlock a).migrations a
      stale := if 2 ^ 48 ≤ a then (s.rawBlock a).stale else (s.rawBlock a).keepViews (fun k => some k != some h) a (Memory.get (s.rawBlock a).mem a)
      lines := if 2 ^ 48 ≤ a then (s.rawBlock a).lines else (s.rawBlock a).keepLines ((some h).bind agentOf) a (Memory.get (s.rawBlock a).mem a) } (a + 1)
    refine ⟨i1.trans ?_, fun k hk => (i2 k hk).trans ?_⟩
    · dsimp only
      split
      · simp
      · rw [State.keepViews_other _ _ _ _ (by simp)]; simp
    · dsimp only
      split
      · simp
      · have : (some h).bind agentOf = some k := hk
        rw [this, State.keepLines_own]; simp

/-- A hart's older contents, from the part of the list that is its own. -/
theorem hartCopies_of {s t : State} {h : Nat} (e : t.stale.filter (fun k => k.1 == h) = s.stale.filter (fun k => k.1 == h)) :
    t.hartCopies h = s.hartCopies h := by unfold State.hartCopies; rw [e]

/-- What an agent holds, from the part of the list that is its own. -/
theorem agentCells_of {s t : State} {k : Nat} (e : t.lines.filter (fun l => l.cluster == k) = s.lines.filter (fun l => l.cluster == k)) :
    t.agentCells (some k) = s.agentCells (some k) ∧ t.dirtyCells (some k) = s.dirtyCells (some k) := by
  have f : ∀ l : Line, (some l.cluster == some k) = (l.cluster == k) := fun l => by
    by_cases h : l.cluster = k <;> simp [h]
  have g : ∀ u : State, u.dirtyCells (some k) = ((u.lines.filter (fun l => l.cluster == k)).filter (·.dirty)).map (fun l => (l.addr, l.val)) := by
    intro u
    unfold State.dirtyCells
    rw [List.filter_filter]
    refine congrArg (List.map _) (List.filter_congr fun l _ => ?_)
    rw [f, Bool.and_comm]
  constructor
  · unfold State.agentCells; simp only [f]; rw [e]
  · rw [g, g, e]

/-- A service core has no agent. -/
@[simp] theorem State.agentCells_none (s : State) : s.agentCells none = [] := by
  unfold State.agentCells
  simp
@[simp] theorem State.dirtyCells_none (s : State) : s.dirtyCells none = [] := by
  unfold State.dirtyCells
  simp

/-- The cells of the older contents that a test on the address keeps. -/
theorem map_filter_cells (l : List (Nat × Nat × Byte)) (h : Nat) (f : Nat → Bool) :
    ((l.filter (fun k => !(k.1 == h && f k.2.1))).filter (fun k => k.1 == h)).map (fun k => (k.2.1, k.2.2))
      = ((l.filter (fun k => k.1 == h)).map (fun k => (k.2.1, k.2.2))).filter (fun c => !f c.1) := by
  rw [List.filter_filter, List.filter_map, List.filter_filter]
  refine congrArg (List.map _) (List.filter_congr fun k _ => ?_)
  by_cases e : k.1 = h
  · simp [e]
  · have : (k.1 == h) = false := by simpa using e
    simp [this]

/-! ### Lookups -/

/-- A byte looked up in two lists of stores, one before the other. -/
theorem pendingGet_append (p q : List Host.Cell) (m : List Host.Cell) (a : Nat) :
    pendingGet (p ++ q) m a = if p.any (fun c => c.1 == a) then pendingGet p m a else pendingGet q m a := by
  induction p with
  | nil => simp
  | cons c t ih =>
    obtain ⟨k, b⟩ := c
    by_cases h : k = a
    · simp [pendingGet, h]
    · simp [pendingGet, h, ih]

/-- A store put before the pending ones is put before what follows them. -/
theorem pendStore_append (p q : List Host.Cell) (a : Nat) (bs : List Byte) : pendStore p a bs ++ q = pendStore (p ++ q) a bs := by
  induction bs generalizing p a with
  | nil => rfl
  | cons b t ih => rw [pendStore, ih, pendStore]; rfl

/-- A hart's own byte after it stored bytes (R66). -/
theorem pendingGet_pendStore (p : List Host.Cell) (m : List Host.Cell) (a : Nat) (bs : List Byte) (c : Nat) :
    pendingGet (pendStore p a bs) m c = if a ≤ c ∧ c < a + bs.length then bs.getD (c - a) 0 else pendingGet p m c := by
  induction bs generalizing p a with
  | nil => simp [pendStore]
  | cons b t ih =>
    rw [pendStore, ih]
    by_cases e1 : a + 1 ≤ c ∧ c < a + 1 + t.length
    · have e2 : a ≤ c ∧ c < a + (b :: t).length := by simp; omega
      have e3 : c - a = (c - (a + 1)) + 1 := by omega
      rw [if_pos e1, if_pos e2, e3]; rfl
    · rw [if_neg e1]
      by_cases e : a = c
      · subst e; simp [pendingGet]
      · have e2 : ¬ (a ≤ c ∧ c < a + (b :: t).length) := by simp; omega
        rw [if_neg e2]; simp [pendingGet, e]

end Sys2Proof.Machine
end

