-- ==== Sys2Proof/Laws/State.lean ====
section
/-! SUPPORT. One lemma per field of `State` and per named update: what the update leaves in the field. -/

namespace Sys2Proof.Machine


/-! ### withHart -/

@[simp] theorem State.withHart_hid (s : State) (f : Hart → Hart) : (s.withHart f).hid = s.hid := rfl
@[simp] theorem State.withHart_hart (s : State) (f : Hart → Hart) : (s.withHart f).hart = f s.hart := rfl
@[simp] theorem State.withHart_others (s : State) (f : Hart → Hart) : (s.withHart f).others = s.others := rfl
@[simp] theorem State.withHart_cores (s : State) (f : Hart → Hart) : (s.withHart f).cores = s.cores := rfl
@[simp] theorem State.withHart_clusters (s : State) (f : Hart → Hart) : (s.withHart f).clusters = s.clusters := rfl
@[simp] theorem State.withHart_mem (s : State) (f : Hart → Hart) : (s.withHart f).mem = s.mem := rfl
@[simp] theorem State.withHart_poison (s : State) (f : Hart → Hart) : (s.withHart f).poison = s.poison := rfl
@[simp] theorem State.withHart_blocks (s : State) (f : Hart → Hart) : (s.withHart f).blocks = s.blocks := rfl
@[simp] theorem State.withHart_deltas (s : State) (f : Hart → Hart) : (s.withHart f).deltas = s.deltas := rfl
@[simp] theorem State.withHart_raws (s : State) (f : Hart → Hart) : (s.withHart f).raws = s.raws := rfl
@[simp] theorem State.withHart_stale (s : State) (f : Hart → Hart) : (s.withHart f).stale = s.stale := rfl
@[simp] theorem State.withHart_lines (s : State) (f : Hart → Hart) : (s.withHart f).lines = s.lines := rfl
@[simp] theorem State.withHart_walks (s : State) (f : Hart → Hart) : (s.withHart f).walks = s.walks := rfl
@[simp] theorem State.withHart_ctxPages (s : State) (f : Hart → Hart) : (s.withHart f).ctxPages = s.ctxPages := rfl
@[simp] theorem State.withHart_faultTags (s : State) (f : Hart → Hart) : (s.withHart f).faultTags = s.faultTags := rfl
@[simp] theorem State.withHart_parties (s : State) (f : Hart → Hart) : (s.withHart f).parties = s.parties := rfl
@[simp] theorem State.withHart_launches (s : State) (f : Hart → Hart) : (s.withHart f).launches = s.launches := rfl
@[simp] theorem State.withHart_contexts (s : State) (f : Hart → Hart) : (s.withHart f).contexts = s.contexts := rfl
@[simp] theorem State.withHart_nextLaunch (s : State) (f : Hart → Hart) : (s.withHart f).nextLaunch = s.nextLaunch := rfl
@[simp] theorem State.withHart_nextParty (s : State) (f : Hart → Hart) : (s.withHart f).nextParty = s.nextParty := rfl
@[simp] theorem State.withHart_engines (s : State) (f : Hart → Hart) : (s.withHart f).engines = s.engines := rfl
@[simp] theorem State.withHart_nextCmd (s : State) (f : Hart → Hart) : (s.withHart f).nextCmd = s.nextCmd := rfl
@[simp] theorem State.withHart_migrations (s : State) (f : Hart → Hart) : (s.withHart f).migrations = s.migrations := rfl
@[simp] theorem State.withHart_moves (s : State) (f : Hart → Hart) : (s.withHart f).moves = s.moves := rfl
@[simp] theorem State.withHart_broken (s : State) (f : Hart → Hart) : (s.withHart f).broken = s.broken := rfl
@[simp] theorem State.withHart_routines (s : State) (f : Hart → Hart) : (s.withHart f).routines = s.routines := rfl
@[simp] theorem State.withHart_waiters (s : State) (f : Hart → Hart) : (s.withHart f).waiters = s.waiters := rfl
@[simp] theorem State.withHart_purging (s : State) (f : Hart → Hart) : (s.withHart f).purging = s.purging := rfl
@[simp] theorem State.withHart_frames (s : State) (f : Hart → Hart) : (s.withHart f).frames = s.frames := rfl
@[simp] theorem State.withHart_recalls (s : State) (f : Hart → Hart) : (s.withHart f).recalls = s.recalls := rfl
@[simp] theorem State.withHart_overHost (s : State) (f : Hart → Hart) : (s.withHart f).overHost = s.overHost := rfl
@[simp] theorem State.withHart_overAccel (s : State) (f : Hart → Hart) : (s.withHart f).overAccel = s.overAccel := rfl
@[simp] theorem State.withHart_ovrHost (s : State) (f : Hart → Hart) : (s.withHart f).ovrHost = s.ovrHost := rfl
@[simp] theorem State.withHart_ovrAccel (s : State) (f : Hart → Hart) : (s.withHart f).ovrAccel = s.ovrAccel := rfl
@[simp] theorem State.withHart_suspHost (s : State) (f : Hart → Hart) : (s.withHart f).suspHost = s.suspHost := rfl
@[simp] theorem State.withHart_suspAccel (s : State) (f : Hart → Hart) : (s.withHart f).suspAccel = s.suspAccel := rfl
@[simp] theorem State.withHart_msips (s : State) (f : Hart → Hart) : (s.withHart f).msips = s.msips := rfl
@[simp] theorem State.withHart_svc (s : State) (f : Hart → Hart) : (s.withHart f).svc = s.svc := rfl
@[simp] theorem State.withHart_ports (s : State) (f : Hart → Hart) : (s.withHart f).ports = s.ports := rfl
@[simp] theorem State.withHart_accNote (s : State) (f : Hart → Hart) : (s.withHart f).accNote = s.accNote := rfl
@[simp] theorem State.withHart_hostNring (s : State) (f : Hart → Hart) : (s.withHart f).hostNring = s.hostNring := rfl
@[simp] theorem State.withHart_posts (s : State) (f : Hart → Hart) : (s.withHart f).posts = s.posts := rfl
@[simp] theorem State.withHart_usedRings (s : State) (f : Hart → Hart) : (s.withHart f).usedRings = s.usedRings := rfl
@[simp] theorem State.withHart_present (s : State) (f : Hart → Hart) : (s.withHart f).present = s.present := rfl
@[simp] theorem State.withHart_linksUp (s : State) (f : Hart → Hart) : (s.withHart f).linksUp = s.linksUp := rfl
@[simp] theorem State.withHart_jobs (s : State) (f : Hart → Hart) : (s.withHart f).jobs = s.jobs := rfl
@[simp] theorem State.withHart_messages (s : State) (f : Hart → Hart) : (s.withHart f).messages = s.messages := rfl
@[simp] theorem State.withHart_pcie (s : State) (f : Hart → Hart) : (s.withHart f).pcie = s.pcie := rfl
@[simp] theorem State.withHart_shares (s : State) (f : Hart → Hart) : (s.withHart f).shares = s.shares := rfl
@[simp] theorem State.withHart_keys (s : State) (f : Hart → Hart) : (s.withHart f).keys = s.keys := rfl
@[simp] theorem State.withHart_sealedKeys (s : State) (f : Hart → Hart) : (s.withHart f).sealedKeys = s.sealedKeys := rfl
@[simp] theorem State.withHart_rotations (s : State) (f : Hart → Hart) : (s.withHart f).rotations = s.rotations := rfl
@[simp] theorem State.withHart_encrypted (s : State) (f : Hart → Hart) : (s.withHart f).encrypted = s.encrypted := rfl
@[simp] theorem State.withHart_generated (s : State) (f : Hart → Hart) : (s.withHart f).generated = s.generated := rfl
@[simp] theorem State.withHart_badBlobs (s : State) (f : Hart → Hart) : (s.withHart f).badBlobs = s.badBlobs := rfl
@[simp] theorem State.withHart_attReq (s : State) (f : Hart → Hart) : (s.withHart f).attReq = s.attReq := rfl
@[simp] theorem State.withHart_attBusy (s : State) (f : Hart → Hart) : (s.withHart f).attBusy = s.attBusy := rfl
@[simp] theorem State.withHart_attDone (s : State) (f : Hart → Hart) : (s.withHart f).attDone = s.attDone := rfl
@[simp] theorem State.withHart_virtio (s : State) (f : Hart → Hart) : (s.withHart f).virtio = s.virtio := rfl
@[simp] theorem State.withHart_energyCarry (s : State) (f : Hart → Hart) : (s.withHart f).energyCarry = s.energyCarry := rfl
@[simp] theorem State.withHart_sensor (s : State) (f : Hart → Hart) : (s.withHart f).sensor = s.sensor := rfl
@[simp] theorem State.withHart_leftOut (s : State) (f : Hart → Hart) : (s.withHart f).leftOut = s.leftOut := rfl
@[simp] theorem State.withHart_boot (s : State) (f : Hart → Hart) : (s.withHart f).boot = s.boot := rfl
@[simp] theorem State.withHart_halted (s : State) (f : Hart → Hart) : (s.withHart f).halted = s.halted := rfl
@[simp] theorem State.withHart_clock (s : State) (f : Hart → Hart) : (s.withHart f).clock = s.clock := rfl
@[simp] theorem State.withHart_events (s : State) (f : Hart → Hart) : (s.withHart f).events = s.events := rfl
@[simp] theorem State.withHart_choices (s : State) (f : Hart → Hart) : (s.withHart f).choices = s.choices := rfl

/-! ### setX -/

@[simp] theorem State.setX_hid (s : State) (r : Reg) (w : Word) : (s.setX r w).hid = s.hid := by unfold State.setX; split <;> rfl
@[simp] theorem State.setX_others (s : State) (r : Reg) (w : Word) : (s.setX r w).others = s.others := by unfold State.setX; split <;> rfl
@[simp] theorem State.setX_cores (s : State) (r : Reg) (w : Word) : (s.setX r w).cores = s.cores := by unfold State.setX; split <;> rfl
@[simp] theorem State.setX_clusters (s : State) (r : Reg) (w : Word) : (s.setX r w).clusters = s.clusters := by unfold State.setX; split <;> rfl
@[simp] theorem State.setX_mem (s : State) (r : Reg) (w : Word) : (s.setX r w).mem = s.mem := by unfold State.setX; split <;> rfl
@[simp] theorem State.setX_poison (s : State) (r : Reg) (w : Word) : (s.setX r w).poison = s.poison := by unfold State.setX; split <;> rfl
@[simp] theorem State.setX_blocks (s : State) (r : Reg) (w : Word) : (s.setX r w).blocks = s.blocks := by unfold State.setX; split <;> rfl
@[simp] theorem State.setX_deltas (s : State) (r : Reg) (w : Word) : (s.setX r w).deltas = s.deltas := by unfold State.setX; split <;> rfl
@[simp] theorem State.setX_raws (s : State) (r : Reg) (w : Word) : (s.setX r w).raws = s.raws := by unfold State.setX; split <;> rfl
@[simp] theorem State.setX_stale (s : State) (r : Reg) (w : Word) : (s.setX r w).stale = s.stale := by unfold State.setX; split <;> rfl
@[simp] theorem State.setX_lines (s : State) (r : Reg) (w : Word) : (s.setX r w).lines = s.lines := by unfold State.setX; split <;> rfl
@[simp] theorem State.setX_walks (s : State) (r : Reg) (w : Word) : (s.setX r w).walks = s.walks := by unfold State.setX; split <;> rfl
@[simp] theorem State.setX_ctxPages (s : State) (r : Reg) (w : Word) : (s.setX r w).ctxPages = s.ctxPages := by unfold State.setX; split <;> rfl
@[simp] theorem State.setX_faultTags (s : State) (r : Reg) (w : Word) : (s.setX r w).faultTags = s.faultTags := by unfold State.setX; split <;> rfl
@[simp] theorem State.setX_parties (s : State) (r : Reg) (w : Word) : (s.setX r w).parties = s.parties := by unfold State.setX; split <;> rfl
@[simp] theorem State.setX_launches (s : State) (r : Reg) (w : Word) : (s.setX r w).launches = s.launches := by unfold State.setX; split <;> rfl
@[simp] theorem State.setX_contexts (s : State) (r : Reg) (w : Word) : (s.setX r w).contexts = s.contexts := by unfold State.setX; split <;> rfl
@[simp] theorem State.setX_nextLaunch (s : State) (r : Reg) (w : Word) : (s.setX r w).nextLaunch = s.nextLaunch := by unfold State.setX; split <;> rfl
@[simp] theorem State.setX_nextParty (s : State) (r : Reg) (w : Word) : (s.setX r w).nextParty = s.nextParty := by unfold State.setX; split <;> rfl
@[simp] theorem State.setX_engines (s : State) (r : Reg) (w : Word) : (s.setX r w).engines = s.engines := by unfold State.setX; split <;> rfl
@[simp] theorem State.setX_nextCmd (s : State) (r : Reg) (w : Word) : (s.setX r w).nextCmd = s.nextCmd := by unfold State.setX; split <;> rfl
@[simp] theorem State.setX_migrations (s : State) (r : Reg) (w : Word) : (s.setX r w).migrations = s.migrations := by unfold State.setX; split <;> rfl
@[simp] theorem State.setX_moves (s : State) (r : Reg) (w : Word) : (s.setX r w).moves = s.moves := by unfold State.setX; split <;> rfl
@[simp] theorem State.setX_broken (s : State) (r : Reg) (w : Word) : (s.setX r w).broken = s.broken := by unfold State.setX; split <;> rfl
@[simp] theorem State.setX_routines (s : State) (r : Reg) (w : Word) : (s.setX r w).routines = s.routines := by unfold State.setX; split <;> rfl
@[simp] theorem State.setX_waiters (s : State) (r : Reg) (w : Word) : (s.setX r w).waiters = s.waiters := by unfold State.setX; split <;> rfl
@[simp] theorem State.setX_purging (s : State) (r : Reg) (w : Word) : (s.setX r w).purging = s.purging := by unfold State.setX; split <;> rfl
@[simp] theorem State.setX_frames (s : State) (r : Reg) (w : Word) : (s.setX r w).frames = s.frames := by unfold State.setX; split <;> rfl
@[simp] theorem State.setX_recalls (s : State) (r : Reg) (w : Word) : (s.setX r w).recalls = s.recalls := by unfold State.setX; split <;> rfl
@[simp] theorem State.setX_overHost (s : State) (r : Reg) (w : Word) : (s.setX r w).overHost = s.overHost := by unfold State.setX; split <;> rfl
@[simp] theorem State.setX_overAccel (s : State) (r : Reg) (w : Word) : (s.setX r w).overAccel = s.overAccel := by unfold State.setX; split <;> rfl
@[simp] theorem State.setX_ovrHost (s : State) (r : Reg) (w : Word) : (s.setX r w).ovrHost = s.ovrHost := by unfold State.setX; split <;> rfl
@[simp] theorem State.setX_ovrAccel (s : State) (r : Reg) (w : Word) : (s.setX r w).ovrAccel = s.ovrAccel := by unfold State.setX; split <;> rfl
@[simp] theorem State.setX_suspHost (s : State) (r : Reg) (w : Word) : (s.setX r w).suspHost = s.suspHost := by unfold State.setX; split <;> rfl
@[simp] theorem State.setX_suspAccel (s : State) (r : Reg) (w : Word) : (s.setX r w).suspAccel = s.suspAccel := by unfold State.setX; split <;> rfl
@[simp] theorem State.setX_msips (s : State) (r : Reg) (w : Word) : (s.setX r w).msips = s.msips := by unfold State.setX; split <;> rfl
@[simp] theorem State.setX_svc (s : State) (r : Reg) (w : Word) : (s.setX r w).svc = s.svc := by unfold State.setX; split <;> rfl
@[simp] theorem State.setX_ports (s : State) (r : Reg) (w : Word) : (s.setX r w).ports = s.ports := by unfold State.setX; split <;> rfl
@[simp] theorem State.setX_accNote (s : State) (r : Reg) (w : Word) : (s.setX r w).accNote = s.accNote := by unfold State.setX; split <;> rfl
@[simp] theorem State.setX_hostNring (s : State) (r : Reg) (w : Word) : (s.setX r w).hostNring = s.hostNring := by unfold State.setX; split <;> rfl
@[simp] theorem State.setX_posts (s : State) (r : Reg) (w : Word) : (s.setX r w).posts = s.posts := by unfold State.setX; split <;> rfl
@[simp] theorem State.setX_usedRings (s : State) (r : Reg) (w : Word) : (s.setX r w).usedRings = s.usedRings := by unfold State.setX; split <;> rfl
@[simp] theorem State.setX_present (s : State) (r : Reg) (w : Word) : (s.setX r w).present = s.present := by unfold State.setX; split <;> rfl
@[simp] theorem State.setX_linksUp (s : State) (r : Reg) (w : Word) : (s.setX r w).linksUp = s.linksUp := by unfold State.setX; split <;> rfl
@[simp] theorem State.setX_jobs (s : State) (r : Reg) (w : Word) : (s.setX r w).jobs = s.jobs := by unfold State.setX; split <;> rfl
@[simp] theorem State.setX_messages (s : State) (r : Reg) (w : Word) : (s.setX r w).messages = s.messages := by unfold State.setX; split <;> rfl
@[simp] theorem State.setX_pcie (s : State) (r : Reg) (w : Word) : (s.setX r w).pcie = s.pcie := by unfold State.setX; split <;> rfl
@[simp] theorem State.setX_shares (s : State) (r : Reg) (w : Word) : (s.setX r w).shares = s.shares := by unfold State.setX; split <;> rfl
@[simp] theorem State.setX_keys (s : State) (r : Reg) (w : Word) : (s.setX r w).keys = s.keys := by unfold State.setX; split <;> rfl
@[simp] theorem State.setX_sealedKeys (s : State) (r : Reg) (w : Word) : (s.setX r w).sealedKeys = s.sealedKeys := by unfold State.setX; split <;> rfl
@[simp] theorem State.setX_rotations (s : State) (r : Reg) (w : Word) : (s.setX r w).rotations = s.rotations := by unfold State.setX; split <;> rfl
@[simp] theorem State.setX_encrypted (s : State) (r : Reg) (w : Word) : (s.setX r w).encrypted = s.encrypted := by unfold State.setX; split <;> rfl
@[simp] theorem State.setX_generated (s : State) (r : Reg) (w : Word) : (s.setX r w).generated = s.generated := by unfold State.setX; split <;> rfl
@[simp] theorem State.setX_badBlobs (s : State) (r : Reg) (w : Word) : (s.setX r w).badBlobs = s.badBlobs := by unfold State.setX; split <;> rfl
@[simp] theorem State.setX_attReq (s : State) (r : Reg) (w : Word) : (s.setX r w).attReq = s.attReq := by unfold State.setX; split <;> rfl
@[simp] theorem State.setX_attBusy (s : State) (r : Reg) (w : Word) : (s.setX r w).attBusy = s.attBusy := by unfold State.setX; split <;> rfl
@[simp] theorem State.setX_attDone (s : State) (r : Reg) (w : Word) : (s.setX r w).attDone = s.attDone := by unfold State.setX; split <;> rfl
@[simp] theorem State.setX_virtio (s : State) (r : Reg) (w : Word) : (s.setX r w).virtio = s.virtio := by unfold State.setX; split <;> rfl
@[simp] theorem State.setX_energyCarry (s : State) (r : Reg) (w : Word) : (s.setX r w).energyCarry = s.energyCarry := by unfold State.setX; split <;> rfl
@[simp] theorem State.setX_sensor (s : State) (r : Reg) (w : Word) : (s.setX r w).sensor = s.sensor := by unfold State.setX; split <;> rfl
@[simp] theorem State.setX_leftOut (s : State) (r : Reg) (w : Word) : (s.setX r w).leftOut = s.leftOut := by unfold State.setX; split <;> rfl
@[simp] theorem State.setX_boot (s : State) (r : Reg) (w : Word) : (s.setX r w).boot = s.boot := by unfold State.setX; split <;> rfl
@[simp] theorem State.setX_halted (s : State) (r : Reg) (w : Word) : (s.setX r w).halted = s.halted := by unfold State.setX; split <;> rfl
@[simp] theorem State.setX_clock (s : State) (r : Reg) (w : Word) : (s.setX r w).clock = s.clock := by unfold State.setX; split <;> rfl
@[simp] theorem State.setX_events (s : State) (r : Reg) (w : Word) : (s.setX r w).events = s.events := by unfold State.setX; split <;> rfl
@[simp] theorem State.setX_choices (s : State) (r : Reg) (w : Word) : (s.setX r w).choices = s.choices := by unfold State.setX; split <;> rfl

/-! ### advanceW -/

@[simp] theorem State.advanceW_hid (s : State) (w : Nat) : (s.advanceW w).hid = s.hid := rfl
@[simp] theorem State.advanceW_hart (s : State) (w : Nat) : (s.advanceW w).hart = (s.hart.retire w none).settle := rfl
@[simp] theorem State.advanceW_others (s : State) (w : Nat) : (s.advanceW w).others = s.others := rfl
@[simp] theorem State.advanceW_cores (s : State) (w : Nat) : (s.advanceW w).cores = s.cores := rfl
@[simp] theorem State.advanceW_clusters (s : State) (w : Nat) : (s.advanceW w).clusters = s.clusters := rfl
@[simp] theorem State.advanceW_mem (s : State) (w : Nat) : (s.advanceW w).mem = s.mem := rfl
@[simp] theorem State.advanceW_poison (s : State) (w : Nat) : (s.advanceW w).poison = s.poison := rfl
@[simp] theorem State.advanceW_blocks (s : State) (w : Nat) : (s.advanceW w).blocks = s.blocks := rfl
@[simp] theorem State.advanceW_deltas (s : State) (w : Nat) : (s.advanceW w).deltas = s.deltas := rfl
@[simp] theorem State.advanceW_raws (s : State) (w : Nat) : (s.advanceW w).raws = s.raws := rfl
@[simp] theorem State.advanceW_stale (s : State) (w : Nat) : (s.advanceW w).stale = s.stale := rfl
@[simp] theorem State.advanceW_lines (s : State) (w : Nat) : (s.advanceW w).lines = s.lines := rfl
@[simp] theorem State.advanceW_walks (s : State) (w : Nat) : (s.advanceW w).walks = s.walks := rfl
@[simp] theorem State.advanceW_ctxPages (s : State) (w : Nat) : (s.advanceW w).ctxPages = s.ctxPages := rfl
@[simp] theorem State.advanceW_faultTags (s : State) (w : Nat) : (s.advanceW w).faultTags = s.faultTags := rfl
@[simp] theorem State.advanceW_parties (s : State) (w : Nat) : (s.advanceW w).parties = s.parties := rfl
@[simp] theorem State.advanceW_launches (s : State) (w : Nat) : (s.advanceW w).launches = s.launches := rfl
@[simp] theorem State.advanceW_contexts (s : State) (w : Nat) : (s.advanceW w).contexts = s.contexts := rfl
@[simp] theorem State.advanceW_nextLaunch (s : State) (w : Nat) : (s.advanceW w).nextLaunch = s.nextLaunch := rfl
@[simp] theorem State.advanceW_nextParty (s : State) (w : Nat) : (s.advanceW w).nextParty = s.nextParty := rfl
@[simp] theorem State.advanceW_engines (s : State) (w : Nat) : (s.advanceW w).engines = s.engines := rfl
@[simp] theorem State.advanceW_nextCmd (s : State) (w : Nat) : (s.advanceW w).nextCmd = s.nextCmd := rfl
@[simp] theorem State.advanceW_migrations (s : State) (w : Nat) : (s.advanceW w).migrations = s.migrations := rfl
@[simp] theorem State.advanceW_moves (s : State) (w : Nat) : (s.advanceW w).moves = s.moves := rfl
@[simp] theorem State.advanceW_broken (s : State) (w : Nat) : (s.advanceW w).broken = s.broken := rfl
@[simp] theorem State.advanceW_routines (s : State) (w : Nat) : (s.advanceW w).routines = s.routines := rfl
@[simp] theorem State.advanceW_waiters (s : State) (w : Nat) : (s.advanceW w).waiters = s.waiters := rfl
@[simp] theorem State.advanceW_purging (s : State) (w : Nat) : (s.advanceW w).purging = s.purging := rfl
@[simp] theorem State.advanceW_frames (s : State) (w : Nat) : (s.advanceW w).frames = s.frames := rfl
@[simp] theorem State.advanceW_recalls (s : State) (w : Nat) : (s.advanceW w).recalls = s.recalls := rfl
@[simp] theorem State.advanceW_overHost (s : State) (w : Nat) : (s.advanceW w).overHost = s.overHost := rfl
@[simp] theorem State.advanceW_overAccel (s : State) (w : Nat) : (s.advanceW w).overAccel = s.overAccel := rfl
@[simp] theorem State.advanceW_ovrHost (s : State) (w : Nat) : (s.advanceW w).ovrHost = s.ovrHost := rfl
@[simp] theorem State.advanceW_ovrAccel (s : State) (w : Nat) : (s.advanceW w).ovrAccel = s.ovrAccel := rfl
@[simp] theorem State.advanceW_suspHost (s : State) (w : Nat) : (s.advanceW w).suspHost = s.suspHost := rfl
@[simp] theorem State.advanceW_suspAccel (s : State) (w : Nat) : (s.advanceW w).suspAccel = s.suspAccel := rfl
@[simp] theorem State.advanceW_msips (s : State) (w : Nat) : (s.advanceW w).msips = s.msips := rfl
@[simp] theorem State.advanceW_svc (s : State) (w : Nat) : (s.advanceW w).svc = s.svc := rfl
@[simp] theorem State.advanceW_ports (s : State) (w : Nat) : (s.advanceW w).ports = s.ports := rfl
@[simp] theorem State.advanceW_accNote (s : State) (w : Nat) : (s.advanceW w).accNote = s.accNote := rfl
@[simp] theorem State.advanceW_hostNring (s : State) (w : Nat) : (s.advanceW w).hostNring = s.hostNring := rfl
@[simp] theorem State.advanceW_posts (s : State) (w : Nat) : (s.advanceW w).posts = s.posts := rfl
@[simp] theorem State.advanceW_usedRings (s : State) (w : Nat) : (s.advanceW w).usedRings = s.usedRings := rfl
@[simp] theorem State.advanceW_present (s : State) (w : Nat) : (s.advanceW w).present = s.present := rfl
@[simp] theorem State.advanceW_linksUp (s : State) (w : Nat) : (s.advanceW w).linksUp = s.linksUp := rfl
@[simp] theorem State.advanceW_jobs (s : State) (w : Nat) : (s.advanceW w).jobs = s.jobs := rfl
@[simp] theorem State.advanceW_messages (s : State) (w : Nat) : (s.advanceW w).messages = s.messages := rfl
@[simp] theorem State.advanceW_pcie (s : State) (w : Nat) : (s.advanceW w).pcie = s.pcie := rfl
@[simp] theorem State.advanceW_shares (s : State) (w : Nat) : (s.advanceW w).shares = s.shares := rfl
@[simp] theorem State.advanceW_keys (s : State) (w : Nat) : (s.advanceW w).keys = s.keys := rfl
@[simp] theorem State.advanceW_sealedKeys (s : State) (w : Nat) : (s.advanceW w).sealedKeys = s.sealedKeys := rfl
@[simp] theorem State.advanceW_rotations (s : State) (w : Nat) : (s.advanceW w).rotations = s.rotations := rfl
@[simp] theorem State.advanceW_encrypted (s : State) (w : Nat) : (s.advanceW w).encrypted = s.encrypted := rfl
@[simp] theorem State.advanceW_generated (s : State) (w : Nat) : (s.advanceW w).generated = s.generated := rfl
@[simp] theorem State.advanceW_badBlobs (s : State) (w : Nat) : (s.advanceW w).badBlobs = s.badBlobs := rfl
@[simp] theorem State.advanceW_attReq (s : State) (w : Nat) : (s.advanceW w).attReq = s.attReq := rfl
@[simp] theorem State.advanceW_attBusy (s : State) (w : Nat) : (s.advanceW w).attBusy = s.attBusy := rfl
@[simp] theorem State.advanceW_attDone (s : State) (w : Nat) : (s.advanceW w).attDone = s.attDone := rfl
@[simp] theorem State.advanceW_virtio (s : State) (w : Nat) : (s.advanceW w).virtio = s.virtio := rfl
@[simp] theorem State.advanceW_energyCarry (s : State) (w : Nat) : (s.advanceW w).energyCarry = s.energyCarry := rfl
@[simp] theorem State.advanceW_sensor (s : State) (w : Nat) : (s.advanceW w).sensor = s.sensor := rfl
@[simp] theorem State.advanceW_leftOut (s : State) (w : Nat) : (s.advanceW w).leftOut = s.leftOut := rfl
@[simp] theorem State.advanceW_boot (s : State) (w : Nat) : (s.advanceW w).boot = s.boot := rfl
@[simp] theorem State.advanceW_halted (s : State) (w : Nat) : (s.advanceW w).halted = s.halted := rfl
@[simp] theorem State.advanceW_clock (s : State) (w : Nat) : (s.advanceW w).clock = s.clock := rfl
@[simp] theorem State.advanceW_events (s : State) (w : Nat) : (s.advanceW w).events = s.events := rfl
@[simp] theorem State.advanceW_choices (s : State) (w : Nat) : (s.advanceW w).choices = s.choices := rfl

/-! ### jumpTo -/

@[simp] theorem State.jumpTo_hid (s : State) (pc : Word) : (s.jumpTo pc).hid = s.hid := rfl
@[simp] theorem State.jumpTo_hart (s : State) (pc : Word) : (s.jumpTo pc).hart = (s.hart.retire 0 (some pc)).settle := rfl
@[simp] theorem State.jumpTo_others (s : State) (pc : Word) : (s.jumpTo pc).others = s.others := rfl
@[simp] theorem State.jumpTo_cores (s : State) (pc : Word) : (s.jumpTo pc).cores = s.cores := rfl
@[simp] theorem State.jumpTo_clusters (s : State) (pc : Word) : (s.jumpTo pc).clusters = s.clusters := rfl
@[simp] theorem State.jumpTo_mem (s : State) (pc : Word) : (s.jumpTo pc).mem = s.mem := rfl
@[simp] theorem State.jumpTo_poison (s : State) (pc : Word) : (s.jumpTo pc).poison = s.poison := rfl
@[simp] theorem State.jumpTo_blocks (s : State) (pc : Word) : (s.jumpTo pc).blocks = s.blocks := rfl
@[simp] theorem State.jumpTo_deltas (s : State) (pc : Word) : (s.jumpTo pc).deltas = s.deltas := rfl
@[simp] theorem State.jumpTo_raws (s : State) (pc : Word) : (s.jumpTo pc).raws = s.raws := rfl
@[simp] theorem State.jumpTo_stale (s : State) (pc : Word) : (s.jumpTo pc).stale = s.stale := rfl
@[simp] theorem State.jumpTo_lines (s : State) (pc : Word) : (s.jumpTo pc).lines = s.lines := rfl
@[simp] theorem State.jumpTo_walks (s : State) (pc : Word) : (s.jumpTo pc).walks = s.walks := rfl
@[simp] theorem State.jumpTo_ctxPages (s : State) (pc : Word) : (s.jumpTo pc).ctxPages = s.ctxPages := rfl
@[simp] theorem State.jumpTo_faultTags (s : State) (pc : Word) : (s.jumpTo pc).faultTags = s.faultTags := rfl
@[simp] theorem State.jumpTo_parties (s : State) (pc : Word) : (s.jumpTo pc).parties = s.parties := rfl
@[simp] theorem State.jumpTo_launches (s : State) (pc : Word) : (s.jumpTo pc).launches = s.launches := rfl
@[simp] theorem State.jumpTo_contexts (s : State) (pc : Word) : (s.jumpTo pc).contexts = s.contexts := rfl
@[simp] theorem State.jumpTo_nextLaunch (s : State) (pc : Word) : (s.jumpTo pc).nextLaunch = s.nextLaunch := rfl
@[simp] theorem State.jumpTo_nextParty (s : State) (pc : Word) : (s.jumpTo pc).nextParty = s.nextParty := rfl
@[simp] theorem State.jumpTo_engines (s : State) (pc : Word) : (s.jumpTo pc).engines = s.engines := rfl
@[simp] theorem State.jumpTo_nextCmd (s : State) (pc : Word) : (s.jumpTo pc).nextCmd = s.nextCmd := rfl
@[simp] theorem State.jumpTo_migrations (s : State) (pc : Word) : (s.jumpTo pc).migrations = s.migrations := rfl
@[simp] theorem State.jumpTo_moves (s : State) (pc : Word) : (s.jumpTo pc).moves = s.moves := rfl
@[simp] theorem State.jumpTo_broken (s : State) (pc : Word) : (s.jumpTo pc).broken = s.broken := rfl
@[simp] theorem State.jumpTo_routines (s : State) (pc : Word) : (s.jumpTo pc).routines = s.routines := rfl
@[simp] theorem State.jumpTo_waiters (s : State) (pc : Word) : (s.jumpTo pc).waiters = s.waiters := rfl
@[simp] theorem State.jumpTo_purging (s : State) (pc : Word) : (s.jumpTo pc).purging = s.purging := rfl
@[simp] theorem State.jumpTo_frames (s : State) (pc : Word) : (s.jumpTo pc).frames = s.frames := rfl
@[simp] theorem State.jumpTo_recalls (s : State) (pc : Word) : (s.jumpTo pc).recalls = s.recalls := rfl
@[simp] theorem State.jumpTo_overHost (s : State) (pc : Word) : (s.jumpTo pc).overHost = s.overHost := rfl
@[simp] theorem State.jumpTo_overAccel (s : State) (pc : Word) : (s.jumpTo pc).overAccel = s.overAccel := rfl
@[simp] theorem State.jumpTo_ovrHost (s : State) (pc : Word) : (s.jumpTo pc).ovrHost = s.ovrHost := rfl
@[simp] theorem State.jumpTo_ovrAccel (s : State) (pc : Word) : (s.jumpTo pc).ovrAccel = s.ovrAccel := rfl
@[simp] theorem State.jumpTo_suspHost (s : State) (pc : Word) : (s.jumpTo pc).suspHost = s.suspHost := rfl
@[simp] theorem State.jumpTo_suspAccel (s : State) (pc : Word) : (s.jumpTo pc).suspAccel = s.suspAccel := rfl
@[simp] theorem State.jumpTo_msips (s : State) (pc : Word) : (s.jumpTo pc).msips = s.msips := rfl
@[simp] theorem State.jumpTo_svc (s : State) (pc : Word) : (s.jumpTo pc).svc = s.svc := rfl
@[simp] theorem State.jumpTo_ports (s : State) (pc : Word) : (s.jumpTo pc).ports = s.ports := rfl
@[simp] theorem State.jumpTo_accNote (s : State) (pc : Word) : (s.jumpTo pc).accNote = s.accNote := rfl
@[simp] theorem State.jumpTo_hostNring (s : State) (pc : Word) : (s.jumpTo pc).hostNring = s.hostNring := rfl
@[simp] theorem State.jumpTo_posts (s : State) (pc : Word) : (s.jumpTo pc).posts = s.posts := rfl
@[simp] theorem State.jumpTo_usedRings (s : State) (pc : Word) : (s.jumpTo pc).usedRings = s.usedRings := rfl
@[simp] theorem State.jumpTo_present (s : State) (pc : Word) : (s.jumpTo pc).present = s.present := rfl
@[simp] theorem State.jumpTo_linksUp (s : State) (pc : Word) : (s.jumpTo pc).linksUp = s.linksUp := rfl
@[simp] theorem State.jumpTo_jobs (s : State) (pc : Word) : (s.jumpTo pc).jobs = s.jobs := rfl
@[simp] theorem State.jumpTo_messages (s : State) (pc : Word) : (s.jumpTo pc).messages = s.messages := rfl
@[simp] theorem State.jumpTo_pcie (s : State) (pc : Word) : (s.jumpTo pc).pcie = s.pcie := rfl
@[simp] theorem State.jumpTo_shares (s : State) (pc : Word) : (s.jumpTo pc).shares = s.shares := rfl
@[simp] theorem State.jumpTo_keys (s : State) (pc : Word) : (s.jumpTo pc).keys = s.keys := rfl
@[simp] theorem State.jumpTo_sealedKeys (s : State) (pc : Word) : (s.jumpTo pc).sealedKeys = s.sealedKeys := rfl
@[simp] theorem State.jumpTo_rotations (s : State) (pc : Word) : (s.jumpTo pc).rotations = s.rotations := rfl
@[simp] theorem State.jumpTo_encrypted (s : State) (pc : Word) : (s.jumpTo pc).encrypted = s.encrypted := rfl
@[simp] theorem State.jumpTo_generated (s : State) (pc : Word) : (s.jumpTo pc).generated = s.generated := rfl
@[simp] theorem State.jumpTo_badBlobs (s : State) (pc : Word) : (s.jumpTo pc).badBlobs = s.badBlobs := rfl
@[simp] theorem State.jumpTo_attReq (s : State) (pc : Word) : (s.jumpTo pc).attReq = s.attReq := rfl
@[simp] theorem State.jumpTo_attBusy (s : State) (pc : Word) : (s.jumpTo pc).attBusy = s.attBusy := rfl
@[simp] theorem State.jumpTo_attDone (s : State) (pc : Word) : (s.jumpTo pc).attDone = s.attDone := rfl
@[simp] theorem State.jumpTo_virtio (s : State) (pc : Word) : (s.jumpTo pc).virtio = s.virtio := rfl
@[simp] theorem State.jumpTo_energyCarry (s : State) (pc : Word) : (s.jumpTo pc).energyCarry = s.energyCarry := rfl
@[simp] theorem State.jumpTo_sensor (s : State) (pc : Word) : (s.jumpTo pc).sensor = s.sensor := rfl
@[simp] theorem State.jumpTo_leftOut (s : State) (pc : Word) : (s.jumpTo pc).leftOut = s.leftOut := rfl
@[simp] theorem State.jumpTo_boot (s : State) (pc : Word) : (s.jumpTo pc).boot = s.boot := rfl
@[simp] theorem State.jumpTo_halted (s : State) (pc : Word) : (s.jumpTo pc).halted = s.halted := rfl
@[simp] theorem State.jumpTo_clock (s : State) (pc : Word) : (s.jumpTo pc).clock = s.clock := rfl
@[simp] theorem State.jumpTo_events (s : State) (pc : Word) : (s.jumpTo pc).events = s.events := rfl
@[simp] theorem State.jumpTo_choices (s : State) (pc : Word) : (s.jumpTo pc).choices = s.choices := rfl

/-! ### setCore -/

@[simp] theorem State.setCore_hid (s : State) (c : Nat) (x : Core) : (s.setCore c x).hid = s.hid := rfl
@[simp] theorem State.setCore_hart (s : State) (c : Nat) (x : Core) : (s.setCore c x).hart = s.hart := rfl
@[simp] theorem State.setCore_others (s : State) (c : Nat) (x : Core) : (s.setCore c x).others = s.others := rfl
@[simp] theorem State.setCore_cores (s : State) (c : Nat) (x : Core) : (s.setCore c x).cores = assocSet s.cores c x := rfl
@[simp] theorem State.setCore_clusters (s : State) (c : Nat) (x : Core) : (s.setCore c x).clusters = s.clusters := rfl
@[simp] theorem State.setCore_mem (s : State) (c : Nat) (x : Core) : (s.setCore c x).mem = s.mem := rfl
@[simp] theorem State.setCore_poison (s : State) (c : Nat) (x : Core) : (s.setCore c x).poison = s.poison := rfl
@[simp] theorem State.setCore_blocks (s : State) (c : Nat) (x : Core) : (s.setCore c x).blocks = s.blocks := rfl
@[simp] theorem State.setCore_deltas (s : State) (c : Nat) (x : Core) : (s.setCore c x).deltas = s.deltas := rfl
@[simp] theorem State.setCore_raws (s : State) (c : Nat) (x : Core) : (s.setCore c x).raws = s.raws := rfl
@[simp] theorem State.setCore_stale (s : State) (c : Nat) (x : Core) : (s.setCore c x).stale = s.stale := rfl
@[simp] theorem State.setCore_lines (s : State) (c : Nat) (x : Core) : (s.setCore c x).lines = s.lines := rfl
@[simp] theorem State.setCore_walks (s : State) (c : Nat) (x : Core) : (s.setCore c x).walks = s.walks := rfl
@[simp] theorem State.setCore_ctxPages (s : State) (c : Nat) (x : Core) : (s.setCore c x).ctxPages = s.ctxPages := rfl
@[simp] theorem State.setCore_faultTags (s : State) (c : Nat) (x : Core) : (s.setCore c x).faultTags = s.faultTags := rfl
@[simp] theorem State.setCore_parties (s : State) (c : Nat) (x : Core) : (s.setCore c x).parties = s.parties := rfl
@[simp] theorem State.setCore_launches (s : State) (c : Nat) (x : Core) : (s.setCore c x).launches = s.launches := rfl
@[simp] theorem State.setCore_contexts (s : State) (c : Nat) (x : Core) : (s.setCore c x).contexts = s.contexts := rfl
@[simp] theorem State.setCore_nextLaunch (s : State) (c : Nat) (x : Core) : (s.setCore c x).nextLaunch = s.nextLaunch := rfl
@[simp] theorem State.setCore_nextParty (s : State) (c : Nat) (x : Core) : (s.setCore c x).nextParty = s.nextParty := rfl
@[simp] theorem State.setCore_engines (s : State) (c : Nat) (x : Core) : (s.setCore c x).engines = s.engines := rfl
@[simp] theorem State.setCore_nextCmd (s : State) (c : Nat) (x : Core) : (s.setCore c x).nextCmd = s.nextCmd := rfl
@[simp] theorem State.setCore_migrations (s : State) (c : Nat) (x : Core) : (s.setCore c x).migrations = s.migrations := rfl
@[simp] theorem State.setCore_moves (s : State) (c : Nat) (x : Core) : (s.setCore c x).moves = s.moves := rfl
@[simp] theorem State.setCore_broken (s : State) (c : Nat) (x : Core) : (s.setCore c x).broken = s.broken := rfl
@[simp] theorem State.setCore_routines (s : State) (c : Nat) (x : Core) : (s.setCore c x).routines = s.routines := rfl
@[simp] theorem State.setCore_waiters (s : State) (c : Nat) (x : Core) : (s.setCore c x).waiters = s.waiters := rfl
@[simp] theorem State.setCore_purging (s : State) (c : Nat) (x : Core) : (s.setCore c x).purging = s.purging := rfl
@[simp] theorem State.setCore_frames (s : State) (c : Nat) (x : Core) : (s.setCore c x).frames = s.frames := rfl
@[simp] theorem State.setCore_recalls (s : State) (c : Nat) (x : Core) : (s.setCore c x).recalls = s.recalls := rfl
@[simp] theorem State.setCore_overHost (s : State) (c : Nat) (x : Core) : (s.setCore c x).overHost = s.overHost := rfl
@[simp] theorem State.setCore_overAccel (s : State) (c : Nat) (x : Core) : (s.setCore c x).overAccel = s.overAccel := rfl
@[simp] theorem State.setCore_ovrHost (s : State) (c : Nat) (x : Core) : (s.setCore c x).ovrHost = s.ovrHost := rfl
@[simp] theorem State.setCore_ovrAccel (s : State) (c : Nat) (x : Core) : (s.setCore c x).ovrAccel = s.ovrAccel := rfl
@[simp] theorem State.setCore_suspHost (s : State) (c : Nat) (x : Core) : (s.setCore c x).suspHost = s.suspHost := rfl
@[simp] theorem State.setCore_suspAccel (s : State) (c : Nat) (x : Core) : (s.setCore c x).suspAccel = s.suspAccel := rfl
@[simp] theorem State.setCore_msips (s : State) (c : Nat) (x : Core) : (s.setCore c x).msips = s.msips := rfl
@[simp] theorem State.setCore_svc (s : State) (c : Nat) (x : Core) : (s.setCore c x).svc = s.svc := rfl
@[simp] theorem State.setCore_ports (s : State) (c : Nat) (x : Core) : (s.setCore c x).ports = s.ports := rfl
@[simp] theorem State.setCore_accNote (s : State) (c : Nat) (x : Core) : (s.setCore c x).accNote = s.accNote := rfl
@[simp] theorem State.setCore_hostNring (s : State) (c : Nat) (x : Core) : (s.setCore c x).hostNring = s.hostNring := rfl
@[simp] theorem State.setCore_posts (s : State) (c : Nat) (x : Core) : (s.setCore c x).posts = s.posts := rfl
@[simp] theorem State.setCore_usedRings (s : State) (c : Nat) (x : Core) : (s.setCore c x).usedRings = s.usedRings := rfl
@[simp] theorem State.setCore_present (s : State) (c : Nat) (x : Core) : (s.setCore c x).present = s.present := rfl
@[simp] theorem State.setCore_linksUp (s : State) (c : Nat) (x : Core) : (s.setCore c x).linksUp = s.linksUp := rfl
@[simp] theorem State.setCore_jobs (s : State) (c : Nat) (x : Core) : (s.setCore c x).jobs = s.jobs := rfl
@[simp] theorem State.setCore_messages (s : State) (c : Nat) (x : Core) : (s.setCore c x).messages = s.messages := rfl
@[simp] theorem State.setCore_pcie (s : State) (c : Nat) (x : Core) : (s.setCore c x).pcie = s.pcie := rfl
@[simp] theorem State.setCore_shares (s : State) (c : Nat) (x : Core) : (s.setCore c x).shares = s.shares := rfl
@[simp] theorem State.setCore_keys (s : State) (c : Nat) (x : Core) : (s.setCore c x).keys = s.keys := rfl
@[simp] theorem State.setCore_sealedKeys (s : State) (c : Nat) (x : Core) : (s.setCore c x).sealedKeys = s.sealedKeys := rfl
@[simp] theorem State.setCore_rotations (s : State) (c : Nat) (x : Core) : (s.setCore c x).rotations = s.rotations := rfl
@[simp] theorem State.setCore_encrypted (s : State) (c : Nat) (x : Core) : (s.setCore c x).encrypted = s.encrypted := rfl
@[simp] theorem State.setCore_generated (s : State) (c : Nat) (x : Core) : (s.setCore c x).generated = s.generated := rfl
@[simp] theorem State.setCore_badBlobs (s : State) (c : Nat) (x : Core) : (s.setCore c x).badBlobs = s.badBlobs := rfl
@[simp] theorem State.setCore_attReq (s : State) (c : Nat) (x : Core) : (s.setCore c x).attReq = s.attReq := rfl
@[simp] theorem State.setCore_attBusy (s : State) (c : Nat) (x : Core) : (s.setCore c x).attBusy = s.attBusy := rfl
@[simp] theorem State.setCore_attDone (s : State) (c : Nat) (x : Core) : (s.setCore c x).attDone = s.attDone := rfl
@[simp] theorem State.setCore_virtio (s : State) (c : Nat) (x : Core) : (s.setCore c x).virtio = s.virtio := rfl
@[simp] theorem State.setCore_energyCarry (s : State) (c : Nat) (x : Core) : (s.setCore c x).energyCarry = s.energyCarry := rfl
@[simp] theorem State.setCore_sensor (s : State) (c : Nat) (x : Core) : (s.setCore c x).sensor = s.sensor := rfl
@[simp] theorem State.setCore_leftOut (s : State) (c : Nat) (x : Core) : (s.setCore c x).leftOut = s.leftOut := rfl
@[simp] theorem State.setCore_boot (s : State) (c : Nat) (x : Core) : (s.setCore c x).boot = s.boot := rfl
@[simp] theorem State.setCore_halted (s : State) (c : Nat) (x : Core) : (s.setCore c x).halted = s.halted := rfl
@[simp] theorem State.setCore_clock (s : State) (c : Nat) (x : Core) : (s.setCore c x).clock = s.clock := rfl
@[simp] theorem State.setCore_events (s : State) (c : Nat) (x : Core) : (s.setCore c x).events = s.events := rfl
@[simp] theorem State.setCore_choices (s : State) (c : Nat) (x : Core) : (s.setCore c x).choices = s.choices := rfl

/-! ### setCluster -/

@[simp] theorem State.setCluster_hid (s : State) (k : Nat) (x : Cluster) : (s.setCluster k x).hid = s.hid := rfl
@[simp] theorem State.setCluster_hart (s : State) (k : Nat) (x : Cluster) : (s.setCluster k x).hart = s.hart := rfl
@[simp] theorem State.setCluster_others (s : State) (k : Nat) (x : Cluster) : (s.setCluster k x).others = s.others := rfl
@[simp] theorem State.setCluster_cores (s : State) (k : Nat) (x : Cluster) : (s.setCluster k x).cores = s.cores := rfl
@[simp] theorem State.setCluster_clusters (s : State) (k : Nat) (x : Cluster) : (s.setCluster k x).clusters = assocSet s.clusters k x := rfl
@[simp] theorem State.setCluster_mem (s : State) (k : Nat) (x : Cluster) : (s.setCluster k x).mem = s.mem := rfl
@[simp] theorem State.setCluster_poison (s : State) (k : Nat) (x : Cluster) : (s.setCluster k x).poison = s.poison := rfl
@[simp] theorem State.setCluster_blocks (s : State) (k : Nat) (x : Cluster) : (s.setCluster k x).blocks = s.blocks := rfl
@[simp] theorem State.setCluster_deltas (s : State) (k : Nat) (x : Cluster) : (s.setCluster k x).deltas = s.deltas := rfl
@[simp] theorem State.setCluster_raws (s : State) (k : Nat) (x : Cluster) : (s.setCluster k x).raws = s.raws := rfl
@[simp] theorem State.setCluster_stale (s : State) (k : Nat) (x : Cluster) : (s.setCluster k x).stale = s.stale := rfl
@[simp] theorem State.setCluster_lines (s : State) (k : Nat) (x : Cluster) : (s.setCluster k x).lines = s.lines := rfl
@[simp] theorem State.setCluster_walks (s : State) (k : Nat) (x : Cluster) : (s.setCluster k x).walks = s.walks := rfl
@[simp] theorem State.setCluster_ctxPages (s : State) (k : Nat) (x : Cluster) : (s.setCluster k x).ctxPages = s.ctxPages := rfl
@[simp] theorem State.setCluster_faultTags (s : State) (k : Nat) (x : Cluster) : (s.setCluster k x).faultTags = s.faultTags := rfl
@[simp] theorem State.setCluster_parties (s : State) (k : Nat) (x : Cluster) : (s.setCluster k x).parties = s.parties := rfl
@[simp] theorem State.setCluster_launches (s : State) (k : Nat) (x : Cluster) : (s.setCluster k x).launches = s.launches := rfl
@[simp] theorem State.setCluster_contexts (s : State) (k : Nat) (x : Cluster) : (s.setCluster k x).contexts = s.contexts := rfl
@[simp] theorem State.setCluster_nextLaunch (s : State) (k : Nat) (x : Cluster) : (s.setCluster k x).nextLaunch = s.nextLaunch := rfl
@[simp] theorem State.setCluster_nextParty (s : State) (k : Nat) (x : Cluster) : (s.setCluster k x).nextParty = s.nextParty := rfl
@[simp] theorem State.setCluster_engines (s : State) (k : Nat) (x : Cluster) : (s.setCluster k x).engines = s.engines := rfl
@[simp] theorem State.setCluster_nextCmd (s : State) (k : Nat) (x : Cluster) : (s.setCluster k x).nextCmd = s.nextCmd := rfl
@[simp] theorem State.setCluster_migrations (s : State) (k : Nat) (x : Cluster) : (s.setCluster k x).migrations = s.migrations := rfl
@[simp] theorem State.setCluster_moves (s : State) (k : Nat) (x : Cluster) : (s.setCluster k x).moves = s.moves := rfl
@[simp] theorem State.setCluster_broken (s : State) (k : Nat) (x : Cluster) : (s.setCluster k x).broken = s.broken := rfl
@[simp] theorem State.setCluster_routines (s : State) (k : Nat) (x : Cluster) : (s.setCluster k x).routines = s.routines := rfl
@[simp] theorem State.setCluster_waiters (s : State) (k : Nat) (x : Cluster) : (s.setCluster k x).waiters = s.waiters := rfl
@[simp] theorem State.setCluster_purging (s : State) (k : Nat) (x : Cluster) : (s.setCluster k x).purging = s.purging := rfl
@[simp] theorem State.setCluster_frames (s : State) (k : Nat) (x : Cluster) : (s.setCluster k x).frames = s.frames := rfl
@[simp] theorem State.setCluster_recalls (s : State) (k : Nat) (x : Cluster) : (s.setCluster k x).recalls = s.recalls := rfl
@[simp] theorem State.setCluster_overHost (s : State) (k : Nat) (x : Cluster) : (s.setCluster k x).overHost = s.overHost := rfl
@[simp] theorem State.setCluster_overAccel (s : State) (k : Nat) (x : Cluster) : (s.setCluster k x).overAccel = s.overAccel := rfl
@[simp] theorem State.setCluster_ovrHost (s : State) (k : Nat) (x : Cluster) : (s.setCluster k x).ovrHost = s.ovrHost := rfl
@[simp] theorem State.setCluster_ovrAccel (s : State) (k : Nat) (x : Cluster) : (s.setCluster k x).ovrAccel = s.ovrAccel := rfl
@[simp] theorem State.setCluster_suspHost (s : State) (k : Nat) (x : Cluster) : (s.setCluster k x).suspHost = s.suspHost := rfl
@[simp] theorem State.setCluster_suspAccel (s : State) (k : Nat) (x : Cluster) : (s.setCluster k x).suspAccel = s.suspAccel := rfl
@[simp] theorem State.setCluster_msips (s : State) (k : Nat) (x : Cluster) : (s.setCluster k x).msips = s.msips := rfl
@[simp] theorem State.setCluster_svc (s : State) (k : Nat) (x : Cluster) : (s.setCluster k x).svc = s.svc := rfl
@[simp] theorem State.setCluster_ports (s : State) (k : Nat) (x : Cluster) : (s.setCluster k x).ports = s.ports := rfl
@[simp] theorem State.setCluster_accNote (s : State) (k : Nat) (x : Cluster) : (s.setCluster k x).accNote = s.accNote := rfl
@[simp] theorem State.setCluster_hostNring (s : State) (k : Nat) (x : Cluster) : (s.setCluster k x).hostNring = s.hostNring := rfl
@[simp] theorem State.setCluster_posts (s : State) (k : Nat) (x : Cluster) : (s.setCluster k x).posts = s.posts := rfl
@[simp] theorem State.setCluster_usedRings (s : State) (k : Nat) (x : Cluster) : (s.setCluster k x).usedRings = s.usedRings := rfl
@[simp] theorem State.setCluster_present (s : State) (k : Nat) (x : Cluster) : (s.setCluster k x).present = s.present := rfl
@[simp] theorem State.setCluster_linksUp (s : State) (k : Nat) (x : Cluster) : (s.setCluster k x).linksUp = s.linksUp := rfl
@[simp] theorem State.setCluster_jobs (s : State) (k : Nat) (x : Cluster) : (s.setCluster k x).jobs = s.jobs := rfl
@[simp] theorem State.setCluster_messages (s : State) (k : Nat) (x : Cluster) : (s.setCluster k x).messages = s.messages := rfl
@[simp] theorem State.setCluster_pcie (s : State) (k : Nat) (x : Cluster) : (s.setCluster k x).pcie = s.pcie := rfl
@[simp] theorem State.setCluster_shares (s : State) (k : Nat) (x : Cluster) : (s.setCluster k x).shares = s.shares := rfl
@[simp] theorem State.setCluster_keys (s : State) (k : Nat) (x : Cluster) : (s.setCluster k x).keys = s.keys := rfl
@[simp] theorem State.setCluster_sealedKeys (s : State) (k : Nat) (x : Cluster) : (s.setCluster k x).sealedKeys = s.sealedKeys := rfl
@[simp] theorem State.setCluster_rotations (s : State) (k : Nat) (x : Cluster) : (s.setCluster k x).rotations = s.rotations := rfl
@[simp] theorem State.setCluster_encrypted (s : State) (k : Nat) (x : Cluster) : (s.setCluster k x).encrypted = s.encrypted := rfl
@[simp] theorem State.setCluster_generated (s : State) (k : Nat) (x : Cluster) : (s.setCluster k x).generated = s.generated := rfl
@[simp] theorem State.setCluster_badBlobs (s : State) (k : Nat) (x : Cluster) : (s.setCluster k x).badBlobs = s.badBlobs := rfl
@[simp] theorem State.setCluster_attReq (s : State) (k : Nat) (x : Cluster) : (s.setCluster k x).attReq = s.attReq := rfl
@[simp] theorem State.setCluster_attBusy (s : State) (k : Nat) (x : Cluster) : (s.setCluster k x).attBusy = s.attBusy := rfl
@[simp] theorem State.setCluster_attDone (s : State) (k : Nat) (x : Cluster) : (s.setCluster k x).attDone = s.attDone := rfl
@[simp] theorem State.setCluster_virtio (s : State) (k : Nat) (x : Cluster) : (s.setCluster k x).virtio = s.virtio := rfl
@[simp] theorem State.setCluster_energyCarry (s : State) (k : Nat) (x : Cluster) : (s.setCluster k x).energyCarry = s.energyCarry := rfl
@[simp] theorem State.setCluster_sensor (s : State) (k : Nat) (x : Cluster) : (s.setCluster k x).sensor = s.sensor := rfl
@[simp] theorem State.setCluster_leftOut (s : State) (k : Nat) (x : Cluster) : (s.setCluster k x).leftOut = s.leftOut := rfl
@[simp] theorem State.setCluster_boot (s : State) (k : Nat) (x : Cluster) : (s.setCluster k x).boot = s.boot := rfl
@[simp] theorem State.setCluster_halted (s : State) (k : Nat) (x : Cluster) : (s.setCluster k x).halted = s.halted := rfl
@[simp] theorem State.setCluster_clock (s : State) (k : Nat) (x : Cluster) : (s.setCluster k x).clock = s.clock := rfl
@[simp] theorem State.setCluster_events (s : State) (k : Nat) (x : Cluster) : (s.setCluster k x).events = s.events := rfl
@[simp] theorem State.setCluster_choices (s : State) (k : Nat) (x : Cluster) : (s.setCluster k x).choices = s.choices := rfl

/-! ### setSvc -/

@[simp] theorem State.setSvc_hid (s : State) (h : Nat) (x : SvcRegs) : (s.setSvc h x).hid = s.hid := rfl
@[simp] theorem State.setSvc_hart (s : State) (h : Nat) (x : SvcRegs) : (s.setSvc h x).hart = s.hart := rfl
@[simp] theorem State.setSvc_others (s : State) (h : Nat) (x : SvcRegs) : (s.setSvc h x).others = s.others := rfl
@[simp] theorem State.setSvc_cores (s : State) (h : Nat) (x : SvcRegs) : (s.setSvc h x).cores = s.cores := rfl
@[simp] theorem State.setSvc_clusters (s : State) (h : Nat) (x : SvcRegs) : (s.setSvc h x).clusters = s.clusters := rfl
@[simp] theorem State.setSvc_mem (s : State) (h : Nat) (x : SvcRegs) : (s.setSvc h x).mem = s.mem := rfl
@[simp] theorem State.setSvc_poison (s : State) (h : Nat) (x : SvcRegs) : (s.setSvc h x).poison = s.poison := rfl
@[simp] theorem State.setSvc_blocks (s : State) (h : Nat) (x : SvcRegs) : (s.setSvc h x).blocks = s.blocks := rfl
@[simp] theorem State.setSvc_deltas (s : State) (h : Nat) (x : SvcRegs) : (s.setSvc h x).deltas = s.deltas := rfl
@[simp] theorem State.setSvc_raws (s : State) (h : Nat) (x : SvcRegs) : (s.setSvc h x).raws = s.raws := rfl
@[simp] theorem State.setSvc_stale (s : State) (h : Nat) (x : SvcRegs) : (s.setSvc h x).stale = s.stale := rfl
@[simp] theorem State.setSvc_lines (s : State) (h : Nat) (x : SvcRegs) : (s.setSvc h x).lines = s.lines := rfl
@[simp] theorem State.setSvc_walks (s : State) (h : Nat) (x : SvcRegs) : (s.setSvc h x).walks = s.walks := rfl
@[simp] theorem State.setSvc_ctxPages (s : State) (h : Nat) (x : SvcRegs) : (s.setSvc h x).ctxPages = s.ctxPages := rfl
@[simp] theorem State.setSvc_faultTags (s : State) (h : Nat) (x : SvcRegs) : (s.setSvc h x).faultTags = s.faultTags := rfl
@[simp] theorem State.setSvc_parties (s : State) (h : Nat) (x : SvcRegs) : (s.setSvc h x).parties = s.parties := rfl
@[simp] theorem State.setSvc_launches (s : State) (h : Nat) (x : SvcRegs) : (s.setSvc h x).launches = s.launches := rfl
@[simp] theorem State.setSvc_contexts (s : State) (h : Nat) (x : SvcRegs) : (s.setSvc h x).contexts = s.contexts := rfl
@[simp] theorem State.setSvc_nextLaunch (s : State) (h : Nat) (x : SvcRegs) : (s.setSvc h x).nextLaunch = s.nextLaunch := rfl
@[simp] theorem State.setSvc_nextParty (s : State) (h : Nat) (x : SvcRegs) : (s.setSvc h x).nextParty = s.nextParty := rfl
@[simp] theorem State.setSvc_engines (s : State) (h : Nat) (x : SvcRegs) : (s.setSvc h x).engines = s.engines := rfl
@[simp] theorem State.setSvc_nextCmd (s : State) (h : Nat) (x : SvcRegs) : (s.setSvc h x).nextCmd = s.nextCmd := rfl
@[simp] theorem State.setSvc_migrations (s : State) (h : Nat) (x : SvcRegs) : (s.setSvc h x).migrations = s.migrations := rfl
@[simp] theorem State.setSvc_moves (s : State) (h : Nat) (x : SvcRegs) : (s.setSvc h x).moves = s.moves := rfl
@[simp] theorem State.setSvc_broken (s : State) (h : Nat) (x : SvcRegs) : (s.setSvc h x).broken = s.broken := rfl
@[simp] theorem State.setSvc_routines (s : State) (h : Nat) (x : SvcRegs) : (s.setSvc h x).routines = s.routines := rfl
@[simp] theorem State.setSvc_waiters (s : State) (h : Nat) (x : SvcRegs) : (s.setSvc h x).waiters = s.waiters := rfl
@[simp] theorem State.setSvc_purging (s : State) (h : Nat) (x : SvcRegs) : (s.setSvc h x).purging = s.purging := rfl
@[simp] theorem State.setSvc_frames (s : State) (h : Nat) (x : SvcRegs) : (s.setSvc h x).frames = s.frames := rfl
@[simp] theorem State.setSvc_recalls (s : State) (h : Nat) (x : SvcRegs) : (s.setSvc h x).recalls = s.recalls := rfl
@[simp] theorem State.setSvc_overHost (s : State) (h : Nat) (x : SvcRegs) : (s.setSvc h x).overHost = s.overHost := rfl
@[simp] theorem State.setSvc_overAccel (s : State) (h : Nat) (x : SvcRegs) : (s.setSvc h x).overAccel = s.overAccel := rfl
@[simp] theorem State.setSvc_ovrHost (s : State) (h : Nat) (x : SvcRegs) : (s.setSvc h x).ovrHost = s.ovrHost := rfl
@[simp] theorem State.setSvc_ovrAccel (s : State) (h : Nat) (x : SvcRegs) : (s.setSvc h x).ovrAccel = s.ovrAccel := rfl
@[simp] theorem State.setSvc_suspHost (s : State) (h : Nat) (x : SvcRegs) : (s.setSvc h x).suspHost = s.suspHost := rfl
@[simp] theorem State.setSvc_suspAccel (s : State) (h : Nat) (x : SvcRegs) : (s.setSvc h x).suspAccel = s.suspAccel := rfl
@[simp] theorem State.setSvc_msips (s : State) (h : Nat) (x : SvcRegs) : (s.setSvc h x).msips = s.msips := rfl
@[simp] theorem State.setSvc_svc (s : State) (h : Nat) (x : SvcRegs) : (s.setSvc h x).svc = assocSet s.svc h x := rfl
@[simp] theorem State.setSvc_ports (s : State) (h : Nat) (x : SvcRegs) : (s.setSvc h x).ports = s.ports := rfl
@[simp] theorem State.setSvc_accNote (s : State) (h : Nat) (x : SvcRegs) : (s.setSvc h x).accNote = s.accNote := rfl
@[simp] theorem State.setSvc_hostNring (s : State) (h : Nat) (x : SvcRegs) : (s.setSvc h x).hostNring = s.hostNring := rfl
@[simp] theorem State.setSvc_posts (s : State) (h : Nat) (x : SvcRegs) : (s.setSvc h x).posts = s.posts := rfl
@[simp] theorem State.setSvc_usedRings (s : State) (h : Nat) (x : SvcRegs) : (s.setSvc h x).usedRings = s.usedRings := rfl
@[simp] theorem State.setSvc_present (s : State) (h : Nat) (x : SvcRegs) : (s.setSvc h x).present = s.present := rfl
@[simp] theorem State.setSvc_linksUp (s : State) (h : Nat) (x : SvcRegs) : (s.setSvc h x).linksUp = s.linksUp := rfl
@[simp] theorem State.setSvc_jobs (s : State) (h : Nat) (x : SvcRegs) : (s.setSvc h x).jobs = s.jobs := rfl
@[simp] theorem State.setSvc_messages (s : State) (h : Nat) (x : SvcRegs) : (s.setSvc h x).messages = s.messages := rfl
@[simp] theorem State.setSvc_pcie (s : State) (h : Nat) (x : SvcRegs) : (s.setSvc h x).pcie = s.pcie := rfl
@[simp] theorem State.setSvc_shares (s : State) (h : Nat) (x : SvcRegs) : (s.setSvc h x).shares = s.shares := rfl
@[simp] theorem State.setSvc_keys (s : State) (h : Nat) (x : SvcRegs) : (s.setSvc h x).keys = s.keys := rfl
@[simp] theorem State.setSvc_sealedKeys (s : State) (h : Nat) (x : SvcRegs) : (s.setSvc h x).sealedKeys = s.sealedKeys := rfl
@[simp] theorem State.setSvc_rotations (s : State) (h : Nat) (x : SvcRegs) : (s.setSvc h x).rotations = s.rotations := rfl
@[simp] theorem State.setSvc_encrypted (s : State) (h : Nat) (x : SvcRegs) : (s.setSvc h x).encrypted = s.encrypted := rfl
@[simp] theorem State.setSvc_generated (s : State) (h : Nat) (x : SvcRegs) : (s.setSvc h x).generated = s.generated := rfl
@[simp] theorem State.setSvc_badBlobs (s : State) (h : Nat) (x : SvcRegs) : (s.setSvc h x).badBlobs = s.badBlobs := rfl
@[simp] theorem State.setSvc_attReq (s : State) (h : Nat) (x : SvcRegs) : (s.setSvc h x).attReq = s.attReq := rfl
@[simp] theorem State.setSvc_attBusy (s : State) (h : Nat) (x : SvcRegs) : (s.setSvc h x).attBusy = s.attBusy := rfl
@[simp] theorem State.setSvc_attDone (s : State) (h : Nat) (x : SvcRegs) : (s.setSvc h x).attDone = s.attDone := rfl
@[simp] theorem State.setSvc_virtio (s : State) (h : Nat) (x : SvcRegs) : (s.setSvc h x).virtio = s.virtio := rfl
@[simp] theorem State.setSvc_energyCarry (s : State) (h : Nat) (x : SvcRegs) : (s.setSvc h x).energyCarry = s.energyCarry := rfl
@[simp] theorem State.setSvc_sensor (s : State) (h : Nat) (x : SvcRegs) : (s.setSvc h x).sensor = s.sensor := rfl
@[simp] theorem State.setSvc_leftOut (s : State) (h : Nat) (x : SvcRegs) : (s.setSvc h x).leftOut = s.leftOut := rfl
@[simp] theorem State.setSvc_boot (s : State) (h : Nat) (x : SvcRegs) : (s.setSvc h x).boot = s.boot := rfl
@[simp] theorem State.setSvc_halted (s : State) (h : Nat) (x : SvcRegs) : (s.setSvc h x).halted = s.halted := rfl
@[simp] theorem State.setSvc_clock (s : State) (h : Nat) (x : SvcRegs) : (s.setSvc h x).clock = s.clock := rfl
@[simp] theorem State.setSvc_events (s : State) (h : Nat) (x : SvcRegs) : (s.setSvc h x).events = s.events := rfl
@[simp] theorem State.setSvc_choices (s : State) (h : Nat) (x : SvcRegs) : (s.setSvc h x).choices = s.choices := rfl

/-! ### setPort -/

@[simp] theorem State.setPort_hid (s : State) (c : Nat) (x : PortGroup) : (s.setPort c x).hid = s.hid := rfl
@[simp] theorem State.setPort_hart (s : State) (c : Nat) (x : PortGroup) : (s.setPort c x).hart = s.hart := rfl
@[simp] theorem State.setPort_others (s : State) (c : Nat) (x : PortGroup) : (s.setPort c x).others = s.others := rfl
@[simp] theorem State.setPort_cores (s : State) (c : Nat) (x : PortGroup) : (s.setPort c x).cores = s.cores := rfl
@[simp] theorem State.setPort_clusters (s : State) (c : Nat) (x : PortGroup) : (s.setPort c x).clusters = s.clusters := rfl
@[simp] theorem State.setPort_mem (s : State) (c : Nat) (x : PortGroup) : (s.setPort c x).mem = s.mem := rfl
@[simp] theorem State.setPort_poison (s : State) (c : Nat) (x : PortGroup) : (s.setPort c x).poison = s.poison := rfl
@[simp] theorem State.setPort_blocks (s : State) (c : Nat) (x : PortGroup) : (s.setPort c x).blocks = s.blocks := rfl
@[simp] theorem State.setPort_deltas (s : State) (c : Nat) (x : PortGroup) : (s.setPort c x).deltas = s.deltas := rfl
@[simp] theorem State.setPort_raws (s : State) (c : Nat) (x : PortGroup) : (s.setPort c x).raws = s.raws := rfl
@[simp] theorem State.setPort_stale (s : State) (c : Nat) (x : PortGroup) : (s.setPort c x).stale = s.stale := rfl
@[simp] theorem State.setPort_lines (s : State) (c : Nat) (x : PortGroup) : (s.setPort c x).lines = s.lines := rfl
@[simp] theorem State.setPort_walks (s : State) (c : Nat) (x : PortGroup) : (s.setPort c x).walks = s.walks := rfl
@[simp] theorem State.setPort_ctxPages (s : State) (c : Nat) (x : PortGroup) : (s.setPort c x).ctxPages = s.ctxPages := rfl
@[simp] theorem State.setPort_faultTags (s : State) (c : Nat) (x : PortGroup) : (s.setPort c x).faultTags = s.faultTags := rfl
@[simp] theorem State.setPort_parties (s : State) (c : Nat) (x : PortGroup) : (s.setPort c x).parties = s.parties := rfl
@[simp] theorem State.setPort_launches (s : State) (c : Nat) (x : PortGroup) : (s.setPort c x).launches = s.launches := rfl
@[simp] theorem State.setPort_contexts (s : State) (c : Nat) (x : PortGroup) : (s.setPort c x).contexts = s.contexts := rfl
@[simp] theorem State.setPort_nextLaunch (s : State) (c : Nat) (x : PortGroup) : (s.setPort c x).nextLaunch = s.nextLaunch := rfl
@[simp] theorem State.setPort_nextParty (s : State) (c : Nat) (x : PortGroup) : (s.setPort c x).nextParty = s.nextParty := rfl
@[simp] theorem State.setPort_engines (s : State) (c : Nat) (x : PortGroup) : (s.setPort c x).engines = s.engines := rfl
@[simp] theorem State.setPort_nextCmd (s : State) (c : Nat) (x : PortGroup) : (s.setPort c x).nextCmd = s.nextCmd := rfl
@[simp] theorem State.setPort_migrations (s : State) (c : Nat) (x : PortGroup) : (s.setPort c x).migrations = s.migrations := rfl
@[simp] theorem State.setPort_moves (s : State) (c : Nat) (x : PortGroup) : (s.setPort c x).moves = s.moves := rfl
@[simp] theorem State.setPort_broken (s : State) (c : Nat) (x : PortGroup) : (s.setPort c x).broken = s.broken := rfl
@[simp] theorem State.setPort_routines (s : State) (c : Nat) (x : PortGroup) : (s.setPort c x).routines = s.routines := rfl
@[simp] theorem State.setPort_waiters (s : State) (c : Nat) (x : PortGroup) : (s.setPort c x).waiters = s.waiters := rfl
@[simp] theorem State.setPort_purging (s : State) (c : Nat) (x : PortGroup) : (s.setPort c x).purging = s.purging := rfl
@[simp] theorem State.setPort_frames (s : State) (c : Nat) (x : PortGroup) : (s.setPort c x).frames = s.frames := rfl
@[simp] theorem State.setPort_recalls (s : State) (c : Nat) (x : PortGroup) : (s.setPort c x).recalls = s.recalls := rfl
@[simp] theorem State.setPort_overHost (s : State) (c : Nat) (x : PortGroup) : (s.setPort c x).overHost = s.overHost := rfl
@[simp] theorem State.setPort_overAccel (s : State) (c : Nat) (x : PortGroup) : (s.setPort c x).overAccel = s.overAccel := rfl
@[simp] theorem State.setPort_ovrHost (s : State) (c : Nat) (x : PortGroup) : (s.setPort c x).ovrHost = s.ovrHost := rfl
@[simp] theorem State.setPort_ovrAccel (s : State) (c : Nat) (x : PortGroup) : (s.setPort c x).ovrAccel = s.ovrAccel := rfl
@[simp] theorem State.setPort_suspHost (s : State) (c : Nat) (x : PortGroup) : (s.setPort c x).suspHost = s.suspHost := rfl
@[simp] theorem State.setPort_suspAccel (s : State) (c : Nat) (x : PortGroup) : (s.setPort c x).suspAccel = s.suspAccel := rfl
@[simp] theorem State.setPort_msips (s : State) (c : Nat) (x : PortGroup) : (s.setPort c x).msips = s.msips := rfl
@[simp] theorem State.setPort_svc (s : State) (c : Nat) (x : PortGroup) : (s.setPort c x).svc = s.svc := rfl
@[simp] theorem State.setPort_ports (s : State) (c : Nat) (x : PortGroup) : (s.setPort c x).ports = assocSet s.ports c x := rfl
@[simp] theorem State.setPort_accNote (s : State) (c : Nat) (x : PortGroup) : (s.setPort c x).accNote = s.accNote := rfl
@[simp] theorem State.setPort_hostNring (s : State) (c : Nat) (x : PortGroup) : (s.setPort c x).hostNring = s.hostNring := rfl
@[simp] theorem State.setPort_posts (s : State) (c : Nat) (x : PortGroup) : (s.setPort c x).posts = s.posts := rfl
@[simp] theorem State.setPort_usedRings (s : State) (c : Nat) (x : PortGroup) : (s.setPort c x).usedRings = s.usedRings := rfl
@[simp] theorem State.setPort_present (s : State) (c : Nat) (x : PortGroup) : (s.setPort c x).present = s.present := rfl
@[simp] theorem State.setPort_linksUp (s : State) (c : Nat) (x : PortGroup) : (s.setPort c x).linksUp = s.linksUp := rfl
@[simp] theorem State.setPort_jobs (s : State) (c : Nat) (x : PortGroup) : (s.setPort c x).jobs = s.jobs := rfl
@[simp] theorem State.setPort_messages (s : State) (c : Nat) (x : PortGroup) : (s.setPort c x).messages = s.messages := rfl
@[simp] theorem State.setPort_pcie (s : State) (c : Nat) (x : PortGroup) : (s.setPort c x).pcie = s.pcie := rfl
@[simp] theorem State.setPort_shares (s : State) (c : Nat) (x : PortGroup) : (s.setPort c x).shares = s.shares := rfl
@[simp] theorem State.setPort_keys (s : State) (c : Nat) (x : PortGroup) : (s.setPort c x).keys = s.keys := rfl
@[simp] theorem State.setPort_sealedKeys (s : State) (c : Nat) (x : PortGroup) : (s.setPort c x).sealedKeys = s.sealedKeys := rfl
@[simp] theorem State.setPort_rotations (s : State) (c : Nat) (x : PortGroup) : (s.setPort c x).rotations = s.rotations := rfl
@[simp] theorem State.setPort_encrypted (s : State) (c : Nat) (x : PortGroup) : (s.setPort c x).encrypted = s.encrypted := rfl
@[simp] theorem State.setPort_generated (s : State) (c : Nat) (x : PortGroup) : (s.setPort c x).generated = s.generated := rfl
@[simp] theorem State.setPort_badBlobs (s : State) (c : Nat) (x : PortGroup) : (s.setPort c x).badBlobs = s.badBlobs := rfl
@[simp] theorem State.setPort_attReq (s : State) (c : Nat) (x : PortGroup) : (s.setPort c x).attReq = s.attReq := rfl
@[simp] theorem State.setPort_attBusy (s : State) (c : Nat) (x : PortGroup) : (s.setPort c x).attBusy = s.attBusy := rfl
@[simp] theorem State.setPort_attDone (s : State) (c : Nat) (x : PortGroup) : (s.setPort c x).attDone = s.attDone := rfl
@[simp] theorem State.setPort_virtio (s : State) (c : Nat) (x : PortGroup) : (s.setPort c x).virtio = s.virtio := rfl
@[simp] theorem State.setPort_energyCarry (s : State) (c : Nat) (x : PortGroup) : (s.setPort c x).energyCarry = s.energyCarry := rfl
@[simp] theorem State.setPort_sensor (s : State) (c : Nat) (x : PortGroup) : (s.setPort c x).sensor = s.sensor := rfl
@[simp] theorem State.setPort_leftOut (s : State) (c : Nat) (x : PortGroup) : (s.setPort c x).leftOut = s.leftOut := rfl
@[simp] theorem State.setPort_boot (s : State) (c : Nat) (x : PortGroup) : (s.setPort c x).boot = s.boot := rfl
@[simp] theorem State.setPort_halted (s : State) (c : Nat) (x : PortGroup) : (s.setPort c x).halted = s.halted := rfl
@[simp] theorem State.setPort_clock (s : State) (c : Nat) (x : PortGroup) : (s.setPort c x).clock = s.clock := rfl
@[simp] theorem State.setPort_events (s : State) (c : Nat) (x : PortGroup) : (s.setPort c x).events = s.events := rfl
@[simp] theorem State.setPort_choices (s : State) (c : Nat) (x : PortGroup) : (s.setPort c x).choices = s.choices := rfl

/-! ### mapParty -/

@[simp] theorem State.mapParty_hid (s : State) (id : Nat) (f : Party → Party) : (s.mapParty id f).hid = s.hid := rfl
@[simp] theorem State.mapParty_hart (s : State) (id : Nat) (f : Party → Party) : (s.mapParty id f).hart = s.hart := rfl
@[simp] theorem State.mapParty_others (s : State) (id : Nat) (f : Party → Party) : (s.mapParty id f).others = s.others := rfl
@[simp] theorem State.mapParty_cores (s : State) (id : Nat) (f : Party → Party) : (s.mapParty id f).cores = s.cores := rfl
@[simp] theorem State.mapParty_clusters (s : State) (id : Nat) (f : Party → Party) : (s.mapParty id f).clusters = s.clusters := rfl
@[simp] theorem State.mapParty_mem (s : State) (id : Nat) (f : Party → Party) : (s.mapParty id f).mem = s.mem := rfl
@[simp] theorem State.mapParty_poison (s : State) (id : Nat) (f : Party → Party) : (s.mapParty id f).poison = s.poison := rfl
@[simp] theorem State.mapParty_blocks (s : State) (id : Nat) (f : Party → Party) : (s.mapParty id f).blocks = s.blocks := rfl
@[simp] theorem State.mapParty_deltas (s : State) (id : Nat) (f : Party → Party) : (s.mapParty id f).deltas = s.deltas := rfl
@[simp] theorem State.mapParty_raws (s : State) (id : Nat) (f : Party → Party) : (s.mapParty id f).raws = s.raws := rfl
@[simp] theorem State.mapParty_stale (s : State) (id : Nat) (f : Party → Party) : (s.mapParty id f).stale = s.stale := rfl
@[simp] theorem State.mapParty_lines (s : State) (id : Nat) (f : Party → Party) : (s.mapParty id f).lines = s.lines := rfl
@[simp] theorem State.mapParty_walks (s : State) (id : Nat) (f : Party → Party) : (s.mapParty id f).walks = s.walks := rfl
@[simp] theorem State.mapParty_ctxPages (s : State) (id : Nat) (f : Party → Party) : (s.mapParty id f).ctxPages = s.ctxPages := rfl
@[simp] theorem State.mapParty_faultTags (s : State) (id : Nat) (f : Party → Party) : (s.mapParty id f).faultTags = s.faultTags := rfl
@[simp] theorem State.mapParty_parties (s : State) (id : Nat) (f : Party → Party) : (s.mapParty id f).parties = s.parties.map (fun p => if p.id = id then f p else p) := rfl
@[simp] theorem State.mapParty_launches (s : State) (id : Nat) (f : Party → Party) : (s.mapParty id f).launches = s.launches := rfl
@[simp] theorem State.mapParty_contexts (s : State) (id : Nat) (f : Party → Party) : (s.mapParty id f).contexts = s.contexts := rfl
@[simp] theorem State.mapParty_nextLaunch (s : State) (id : Nat) (f : Party → Party) : (s.mapParty id f).nextLaunch = s.nextLaunch := rfl
@[simp] theorem State.mapParty_nextParty (s : State) (id : Nat) (f : Party → Party) : (s.mapParty id f).nextParty = s.nextParty := rfl
@[simp] theorem State.mapParty_engines (s : State) (id : Nat) (f : Party → Party) : (s.mapParty id f).engines = s.engines := rfl
@[simp] theorem State.mapParty_nextCmd (s : State) (id : Nat) (f : Party → Party) : (s.mapParty id f).nextCmd = s.nextCmd := rfl
@[simp] theorem State.mapParty_migrations (s : State) (id : Nat) (f : Party → Party) : (s.mapParty id f).migrations = s.migrations := rfl
@[simp] theorem State.mapParty_moves (s : State) (id : Nat) (f : Party → Party) : (s.mapParty id f).moves = s.moves := rfl
@[simp] theorem State.mapParty_broken (s : State) (id : Nat) (f : Party → Party) : (s.mapParty id f).broken = s.broken := rfl
@[simp] theorem State.mapParty_routines (s : State) (id : Nat) (f : Party → Party) : (s.mapParty id f).routines = s.routines := rfl
@[simp] theorem State.mapParty_waiters (s : State) (id : Nat) (f : Party → Party) : (s.mapParty id f).waiters = s.waiters := rfl
@[simp] theorem State.mapParty_purging (s : State) (id : Nat) (f : Party → Party) : (s.mapParty id f).purging = s.purging := rfl
@[simp] theorem State.mapParty_frames (s : State) (id : Nat) (f : Party → Party) : (s.mapParty id f).frames = s.frames := rfl
@[simp] theorem State.mapParty_recalls (s : State) (id : Nat) (f : Party → Party) : (s.mapParty id f).recalls = s.recalls := rfl
@[simp] theorem State.mapParty_overHost (s : State) (id : Nat) (f : Party → Party) : (s.mapParty id f).overHost = s.overHost := rfl
@[simp] theorem State.mapParty_overAccel (s : State) (id : Nat) (f : Party → Party) : (s.mapParty id f).overAccel = s.overAccel := rfl
@[simp] theorem State.mapParty_ovrHost (s : State) (id : Nat) (f : Party → Party) : (s.mapParty id f).ovrHost = s.ovrHost := rfl
@[simp] theorem State.mapParty_ovrAccel (s : State) (id : Nat) (f : Party → Party) : (s.mapParty id f).ovrAccel = s.ovrAccel := rfl
@[simp] theorem State.mapParty_suspHost (s : State) (id : Nat) (f : Party → Party) : (s.mapParty id f).suspHost = s.suspHost := rfl
@[simp] theorem State.mapParty_suspAccel (s : State) (id : Nat) (f : Party → Party) : (s.mapParty id f).suspAccel = s.suspAccel := rfl
@[simp] theorem State.mapParty_msips (s : State) (id : Nat) (f : Party → Party) : (s.mapParty id f).msips = s.msips := rfl
@[simp] theorem State.mapParty_svc (s : State) (id : Nat) (f : Party → Party) : (s.mapParty id f).svc = s.svc := rfl
@[simp] theorem State.mapParty_ports (s : State) (id : Nat) (f : Party → Party) : (s.mapParty id f).ports = s.ports := rfl
@[simp] theorem State.mapParty_accNote (s : State) (id : Nat) (f : Party → Party) : (s.mapParty id f).accNote = s.accNote := rfl
@[simp] theorem State.mapParty_hostNring (s : State) (id : Nat) (f : Party → Party) : (s.mapParty id f).hostNring = s.hostNring := rfl
@[simp] theorem State.mapParty_posts (s : State) (id : Nat) (f : Party → Party) : (s.mapParty id f).posts = s.posts := rfl
@[simp] theorem State.mapParty_usedRings (s : State) (id : Nat) (f : Party → Party) : (s.mapParty id f).usedRings = s.usedRings := rfl
@[simp] theorem State.mapParty_present (s : State) (id : Nat) (f : Party → Party) : (s.mapParty id f).present = s.present := rfl
@[simp] theorem State.mapParty_linksUp (s : State) (id : Nat) (f : Party → Party) : (s.mapParty id f).linksUp = s.linksUp := rfl
@[simp] theorem State.mapParty_jobs (s : State) (id : Nat) (f : Party → Party) : (s.mapParty id f).jobs = s.jobs := rfl
@[simp] theorem State.mapParty_messages (s : State) (id : Nat) (f : Party → Party) : (s.mapParty id f).messages = s.messages := rfl
@[simp] theorem State.mapParty_pcie (s : State) (id : Nat) (f : Party → Party) : (s.mapParty id f).pcie = s.pcie := rfl
@[simp] theorem State.mapParty_shares (s : State) (id : Nat) (f : Party → Party) : (s.mapParty id f).shares = s.shares := rfl
@[simp] theorem State.mapParty_keys (s : State) (id : Nat) (f : Party → Party) : (s.mapParty id f).keys = s.keys := rfl
@[simp] theorem State.mapParty_sealedKeys (s : State) (id : Nat) (f : Party → Party) : (s.mapParty id f).sealedKeys = s.sealedKeys := rfl
@[simp] theorem State.mapParty_rotations (s : State) (id : Nat) (f : Party → Party) : (s.mapParty id f).rotations = s.rotations := rfl
@[simp] theorem State.mapParty_encrypted (s : State) (id : Nat) (f : Party → Party) : (s.mapParty id f).encrypted = s.encrypted := rfl
@[simp] theorem State.mapParty_generated (s : State) (id : Nat) (f : Party → Party) : (s.mapParty id f).generated = s.generated := rfl
@[simp] theorem State.mapParty_badBlobs (s : State) (id : Nat) (f : Party → Party) : (s.mapParty id f).badBlobs = s.badBlobs := rfl
@[simp] theorem State.mapParty_attReq (s : State) (id : Nat) (f : Party → Party) : (s.mapParty id f).attReq = s.attReq := rfl
@[simp] theorem State.mapParty_attBusy (s : State) (id : Nat) (f : Party → Party) : (s.mapParty id f).attBusy = s.attBusy := rfl
@[simp] theorem State.mapParty_attDone (s : State) (id : Nat) (f : Party → Party) : (s.mapParty id f).attDone = s.attDone := rfl
@[simp] theorem State.mapParty_virtio (s : State) (id : Nat) (f : Party → Party) : (s.mapParty id f).virtio = s.virtio := rfl
@[simp] theorem State.mapParty_energyCarry (s : State) (id : Nat) (f : Party → Party) : (s.mapParty id f).energyCarry = s.energyCarry := rfl
@[simp] theorem State.mapParty_sensor (s : State) (id : Nat) (f : Party → Party) : (s.mapParty id f).sensor = s.sensor := rfl
@[simp] theorem State.mapParty_leftOut (s : State) (id : Nat) (f : Party → Party) : (s.mapParty id f).leftOut = s.leftOut := rfl
@[simp] theorem State.mapParty_boot (s : State) (id : Nat) (f : Party → Party) : (s.mapParty id f).boot = s.boot := rfl
@[simp] theorem State.mapParty_halted (s : State) (id : Nat) (f : Party → Party) : (s.mapParty id f).halted = s.halted := rfl
@[simp] theorem State.mapParty_clock (s : State) (id : Nat) (f : Party → Party) : (s.mapParty id f).clock = s.clock := rfl
@[simp] theorem State.mapParty_events (s : State) (id : Nat) (f : Party → Party) : (s.mapParty id f).events = s.events := rfl
@[simp] theorem State.mapParty_choices (s : State) (id : Nat) (f : Party → Party) : (s.mapParty id f).choices = s.choices := rfl

/-! ### raise -/

@[simp] theorem State.raise_hid (s : State) (e : Instr) : (s.raise e).hid = s.hid := rfl
@[simp] theorem State.raise_hart (s : State) (e : Instr) : (s.raise e).hart = s.hart := rfl
@[simp] theorem State.raise_others (s : State) (e : Instr) : (s.raise e).others = s.others := rfl
@[simp] theorem State.raise_cores (s : State) (e : Instr) : (s.raise e).cores = s.cores := rfl
@[simp] theorem State.raise_clusters (s : State) (e : Instr) : (s.raise e).clusters = s.clusters := rfl
@[simp] theorem State.raise_mem (s : State) (e : Instr) : (s.raise e).mem = s.mem := rfl
@[simp] theorem State.raise_poison (s : State) (e : Instr) : (s.raise e).poison = s.poison := rfl
@[simp] theorem State.raise_blocks (s : State) (e : Instr) : (s.raise e).blocks = s.blocks := rfl
@[simp] theorem State.raise_deltas (s : State) (e : Instr) : (s.raise e).deltas = s.deltas := rfl
@[simp] theorem State.raise_raws (s : State) (e : Instr) : (s.raise e).raws = s.raws := rfl
@[simp] theorem State.raise_stale (s : State) (e : Instr) : (s.raise e).stale = s.stale := rfl
@[simp] theorem State.raise_lines (s : State) (e : Instr) : (s.raise e).lines = s.lines := rfl
@[simp] theorem State.raise_walks (s : State) (e : Instr) : (s.raise e).walks = s.walks := rfl
@[simp] theorem State.raise_ctxPages (s : State) (e : Instr) : (s.raise e).ctxPages = s.ctxPages := rfl
@[simp] theorem State.raise_faultTags (s : State) (e : Instr) : (s.raise e).faultTags = s.faultTags := rfl
@[simp] theorem State.raise_parties (s : State) (e : Instr) : (s.raise e).parties = s.parties := rfl
@[simp] theorem State.raise_launches (s : State) (e : Instr) : (s.raise e).launches = s.launches := rfl
@[simp] theorem State.raise_contexts (s : State) (e : Instr) : (s.raise e).contexts = s.contexts := rfl
@[simp] theorem State.raise_nextLaunch (s : State) (e : Instr) : (s.raise e).nextLaunch = s.nextLaunch := rfl
@[simp] theorem State.raise_nextParty (s : State) (e : Instr) : (s.raise e).nextParty = s.nextParty := rfl
@[simp] theorem State.raise_engines (s : State) (e : Instr) : (s.raise e).engines = s.engines := rfl
@[simp] theorem State.raise_nextCmd (s : State) (e : Instr) : (s.raise e).nextCmd = s.nextCmd := rfl
@[simp] theorem State.raise_migrations (s : State) (e : Instr) : (s.raise e).migrations = s.migrations := rfl
@[simp] theorem State.raise_moves (s : State) (e : Instr) : (s.raise e).moves = s.moves := rfl
@[simp] theorem State.raise_broken (s : State) (e : Instr) : (s.raise e).broken = s.broken := rfl
@[simp] theorem State.raise_routines (s : State) (e : Instr) : (s.raise e).routines = s.routines := rfl
@[simp] theorem State.raise_waiters (s : State) (e : Instr) : (s.raise e).waiters = s.waiters := rfl
@[simp] theorem State.raise_purging (s : State) (e : Instr) : (s.raise e).purging = s.purging := rfl
@[simp] theorem State.raise_frames (s : State) (e : Instr) : (s.raise e).frames = s.frames := rfl
@[simp] theorem State.raise_recalls (s : State) (e : Instr) : (s.raise e).recalls = s.recalls := rfl
@[simp] theorem State.raise_overHost (s : State) (e : Instr) : (s.raise e).overHost = s.overHost := rfl
@[simp] theorem State.raise_overAccel (s : State) (e : Instr) : (s.raise e).overAccel = s.overAccel := rfl
@[simp] theorem State.raise_ovrHost (s : State) (e : Instr) : (s.raise e).ovrHost = s.ovrHost := rfl
@[simp] theorem State.raise_ovrAccel (s : State) (e : Instr) : (s.raise e).ovrAccel = s.ovrAccel := rfl
@[simp] theorem State.raise_suspHost (s : State) (e : Instr) : (s.raise e).suspHost = s.suspHost := rfl
@[simp] theorem State.raise_suspAccel (s : State) (e : Instr) : (s.raise e).suspAccel = s.suspAccel := rfl
@[simp] theorem State.raise_msips (s : State) (e : Instr) : (s.raise e).msips = s.msips := rfl
@[simp] theorem State.raise_svc (s : State) (e : Instr) : (s.raise e).svc = s.svc := rfl
@[simp] theorem State.raise_ports (s : State) (e : Instr) : (s.raise e).ports = s.ports := rfl
@[simp] theorem State.raise_accNote (s : State) (e : Instr) : (s.raise e).accNote = s.accNote := rfl
@[simp] theorem State.raise_hostNring (s : State) (e : Instr) : (s.raise e).hostNring = s.hostNring := rfl
@[simp] theorem State.raise_posts (s : State) (e : Instr) : (s.raise e).posts = s.posts := rfl
@[simp] theorem State.raise_usedRings (s : State) (e : Instr) : (s.raise e).usedRings = s.usedRings := rfl
@[simp] theorem State.raise_present (s : State) (e : Instr) : (s.raise e).present = s.present := rfl
@[simp] theorem State.raise_linksUp (s : State) (e : Instr) : (s.raise e).linksUp = s.linksUp := rfl
@[simp] theorem State.raise_jobs (s : State) (e : Instr) : (s.raise e).jobs = s.jobs := rfl
@[simp] theorem State.raise_messages (s : State) (e : Instr) : (s.raise e).messages = s.messages := rfl
@[simp] theorem State.raise_pcie (s : State) (e : Instr) : (s.raise e).pcie = s.pcie := rfl
@[simp] theorem State.raise_shares (s : State) (e : Instr) : (s.raise e).shares = s.shares := rfl
@[simp] theorem State.raise_keys (s : State) (e : Instr) : (s.raise e).keys = s.keys := rfl
@[simp] theorem State.raise_sealedKeys (s : State) (e : Instr) : (s.raise e).sealedKeys = s.sealedKeys := rfl
@[simp] theorem State.raise_rotations (s : State) (e : Instr) : (s.raise e).rotations = s.rotations := rfl
@[simp] theorem State.raise_encrypted (s : State) (e : Instr) : (s.raise e).encrypted = s.encrypted := rfl
@[simp] theorem State.raise_generated (s : State) (e : Instr) : (s.raise e).generated = s.generated := rfl
@[simp] theorem State.raise_badBlobs (s : State) (e : Instr) : (s.raise e).badBlobs = s.badBlobs := rfl
@[simp] theorem State.raise_attReq (s : State) (e : Instr) : (s.raise e).attReq = s.attReq := rfl
@[simp] theorem State.raise_attBusy (s : State) (e : Instr) : (s.raise e).attBusy = s.attBusy := rfl
@[simp] theorem State.raise_attDone (s : State) (e : Instr) : (s.raise e).attDone = s.attDone := rfl
@[simp] theorem State.raise_virtio (s : State) (e : Instr) : (s.raise e).virtio = s.virtio := rfl
@[simp] theorem State.raise_energyCarry (s : State) (e : Instr) : (s.raise e).energyCarry = s.energyCarry := rfl
@[simp] theorem State.raise_sensor (s : State) (e : Instr) : (s.raise e).sensor = s.sensor := rfl
@[simp] theorem State.raise_leftOut (s : State) (e : Instr) : (s.raise e).leftOut = s.leftOut := rfl
@[simp] theorem State.raise_boot (s : State) (e : Instr) : (s.raise e).boot = s.boot := rfl
@[simp] theorem State.raise_halted (s : State) (e : Instr) : (s.raise e).halted = s.halted := rfl
@[simp] theorem State.raise_clock (s : State) (e : Instr) : (s.raise e).clock = s.clock := rfl
@[simp] theorem State.raise_events (s : State) (e : Instr) : (s.raise e).events = s.events ++ [e] := rfl
@[simp] theorem State.raise_choices (s : State) (e : Instr) : (s.raise e).choices = s.choices := rfl

/-! ### tick -/

@[simp] theorem State.tick_hid (s : State) : (s.tick).hid = s.hid := rfl
@[simp] theorem State.tick_hart (s : State) : (s.tick).hart = s.hart := rfl
@[simp] theorem State.tick_others (s : State) : (s.tick).others = s.others := rfl
@[simp] theorem State.tick_cores (s : State) : (s.tick).cores = s.cores := rfl
@[simp] theorem State.tick_clusters (s : State) : (s.tick).clusters = s.clusters := rfl
@[simp] theorem State.tick_mem (s : State) : (s.tick).mem = s.mem := rfl
@[simp] theorem State.tick_poison (s : State) : (s.tick).poison = s.poison := rfl
@[simp] theorem State.tick_blocks (s : State) : (s.tick).blocks = s.blocks := rfl
@[simp] theorem State.tick_deltas (s : State) : (s.tick).deltas = s.deltas := rfl
@[simp] theorem State.tick_raws (s : State) : (s.tick).raws = s.raws := rfl
@[simp] theorem State.tick_stale (s : State) : (s.tick).stale = s.stale := rfl
@[simp] theorem State.tick_lines (s : State) : (s.tick).lines = s.lines := rfl
@[simp] theorem State.tick_walks (s : State) : (s.tick).walks = s.walks := rfl
@[simp] theorem State.tick_ctxPages (s : State) : (s.tick).ctxPages = s.ctxPages := rfl
@[simp] theorem State.tick_faultTags (s : State) : (s.tick).faultTags = s.faultTags := rfl
@[simp] theorem State.tick_parties (s : State) : (s.tick).parties = s.parties := rfl
@[simp] theorem State.tick_launches (s : State) : (s.tick).launches = s.launches := rfl
@[simp] theorem State.tick_contexts (s : State) : (s.tick).contexts = s.contexts := rfl
@[simp] theorem State.tick_nextLaunch (s : State) : (s.tick).nextLaunch = s.nextLaunch := rfl
@[simp] theorem State.tick_nextParty (s : State) : (s.tick).nextParty = s.nextParty := rfl
@[simp] theorem State.tick_engines (s : State) : (s.tick).engines = s.engines := rfl
@[simp] theorem State.tick_nextCmd (s : State) : (s.tick).nextCmd = s.nextCmd := rfl
@[simp] theorem State.tick_migrations (s : State) : (s.tick).migrations = s.migrations := rfl
@[simp] theorem State.tick_moves (s : State) : (s.tick).moves = s.moves := rfl
@[simp] theorem State.tick_broken (s : State) : (s.tick).broken = s.broken := rfl
@[simp] theorem State.tick_routines (s : State) : (s.tick).routines = s.routines := rfl
@[simp] theorem State.tick_waiters (s : State) : (s.tick).waiters = s.waiters := rfl
@[simp] theorem State.tick_purging (s : State) : (s.tick).purging = s.purging := rfl
@[simp] theorem State.tick_frames (s : State) : (s.tick).frames = s.frames := rfl
@[simp] theorem State.tick_recalls (s : State) : (s.tick).recalls = s.recalls := rfl
@[simp] theorem State.tick_overHost (s : State) : (s.tick).overHost = s.overHost := rfl
@[simp] theorem State.tick_overAccel (s : State) : (s.tick).overAccel = s.overAccel := rfl
@[simp] theorem State.tick_ovrHost (s : State) : (s.tick).ovrHost = s.ovrHost := rfl
@[simp] theorem State.tick_ovrAccel (s : State) : (s.tick).ovrAccel = s.ovrAccel := rfl
@[simp] theorem State.tick_suspHost (s : State) : (s.tick).suspHost = s.suspHost := rfl
@[simp] theorem State.tick_suspAccel (s : State) : (s.tick).suspAccel = s.suspAccel := rfl
@[simp] theorem State.tick_msips (s : State) : (s.tick).msips = s.msips := rfl
@[simp] theorem State.tick_svc (s : State) : (s.tick).svc = s.svc := rfl
@[simp] theorem State.tick_ports (s : State) : (s.tick).ports = s.ports := rfl
@[simp] theorem State.tick_accNote (s : State) : (s.tick).accNote = s.accNote := rfl
@[simp] theorem State.tick_hostNring (s : State) : (s.tick).hostNring = s.hostNring := rfl
@[simp] theorem State.tick_posts (s : State) : (s.tick).posts = s.posts := rfl
@[simp] theorem State.tick_usedRings (s : State) : (s.tick).usedRings = s.usedRings := rfl
@[simp] theorem State.tick_present (s : State) : (s.tick).present = s.present := rfl
@[simp] theorem State.tick_linksUp (s : State) : (s.tick).linksUp = s.linksUp := rfl
@[simp] theorem State.tick_jobs (s : State) : (s.tick).jobs = s.jobs := rfl
@[simp] theorem State.tick_messages (s : State) : (s.tick).messages = s.messages := rfl
@[simp] theorem State.tick_pcie (s : State) : (s.tick).pcie = s.pcie := rfl
@[simp] theorem State.tick_shares (s : State) : (s.tick).shares = s.shares := rfl
@[simp] theorem State.tick_keys (s : State) : (s.tick).keys = s.keys := rfl
@[simp] theorem State.tick_sealedKeys (s : State) : (s.tick).sealedKeys = s.sealedKeys := rfl
@[simp] theorem State.tick_rotations (s : State) : (s.tick).rotations = s.rotations := rfl
@[simp] theorem State.tick_encrypted (s : State) : (s.tick).encrypted = s.encrypted := rfl
@[simp] theorem State.tick_generated (s : State) : (s.tick).generated = s.generated := rfl
@[simp] theorem State.tick_badBlobs (s : State) : (s.tick).badBlobs = s.badBlobs := rfl
@[simp] theorem State.tick_attReq (s : State) : (s.tick).attReq = s.attReq := rfl
@[simp] theorem State.tick_attBusy (s : State) : (s.tick).attBusy = s.attBusy := rfl
@[simp] theorem State.tick_attDone (s : State) : (s.tick).attDone = s.attDone := rfl
@[simp] theorem State.tick_virtio (s : State) : (s.tick).virtio = s.virtio := rfl
@[simp] theorem State.tick_energyCarry (s : State) : (s.tick).energyCarry = s.energyCarry := rfl
@[simp] theorem State.tick_sensor (s : State) : (s.tick).sensor = s.sensor := rfl
@[simp] theorem State.tick_leftOut (s : State) : (s.tick).leftOut = s.leftOut := rfl
@[simp] theorem State.tick_boot (s : State) : (s.tick).boot = s.boot := rfl
@[simp] theorem State.tick_halted (s : State) : (s.tick).halted = s.halted := rfl
@[simp] theorem State.tick_clock (s : State) : (s.tick).clock = s.clock + 1 + Config.stepCycles s.choices := rfl
@[simp] theorem State.tick_events (s : State) : (s.tick).events = s.events := rfl
@[simp] theorem State.tick_choices (s : State) : (s.tick).choices = s.choices + 1 := rfl

end Sys2Proof.Machine
end

