-- ==== Sys2Proof/Laws/Ops.lean ====
section
/-! SUPPORT. One lemma per shared operation of the meanings: everything the operation can do. -/

namespace Sys2Proof.Machine
open Sys2Proof.Safety

/-! ### Registers -/

/-- A register just written. -/
theorem State.x_setX (s : State) (rd r : Reg) (w : Word) :
    (s.setX rd w).x r = if r = rd then (if rd = 0 then 0 else w) else s.x r := by
  unfold State.setX State.x
  by_cases h0 : rd = 0
  · simp only [h0, if_true]
    split <;> simp_all
  · simp only [h0, if_false]
    by_cases h1 : r = rd
    · subst h1; simp only [h0, if_false, if_true, Vector.getElem_set_self]
    · have h2 : rd.toNat ≠ r.toNat := fun h => h1 (BitVec.eq_of_toNat_eq h).symm
      simp only [h1, if_false, Vector.getElem_set_ne _ _ h2]

/-! ### Vector results that settle -/

/-- The contents that a list of writes gives a register that held `a`. -/
theorem foldl_writes_append (l m : List Inflight) (r : VReg) (a : VecReg) :
    (l ++ m).foldl (fun acc e => if e.reg = r then e.val else acc) a
      = m.foldl (fun acc e => if e.reg = r then e.val else acc) (l.foldl (fun acc e => if e.reg = r then e.val else acc) a) :=
  List.foldl_append

/-- Writes of other registers leave a register alone. -/
theorem foldl_writes_filter_ne (l : List Inflight) (r q : VReg) (a : VecReg) (h : q ≠ r) :
    (l.filter (fun o => o.reg ≠ q)).foldl (fun acc e => if e.reg = r then e.val else acc) a
      = l.foldl (fun acc e => if e.reg = r then e.val else acc) a := by
  induction l generalizing a with
  | nil => rfl
  | cons e t ih =>
    by_cases h1 : e.reg = q
    · simpa [h1, h] using ih a
    · simpa [h1] using ih (if e.reg = r then e.val else a)

/-- Without its own writes a register keeps what it held. -/
theorem foldl_writes_filter_eq (l : List Inflight) (r : VReg) (a : VecReg) :
    (l.filter (fun o => o.reg ≠ r)).foldl (fun acc e => if e.reg = r then e.val else acc) a = a := by
  induction l with
  | nil => rfl
  | cons e t ih =>
    by_cases h1 : e.reg = r
    · simpa [h1] using ih
    · simpa [h1] using ih

/-- Settling changes no register's contents in program order (R40). -/
theorem Hart.finalV_settle (h : Hart) (r : VReg) : h.settle.finalV r = h.finalV r := by
  unfold Hart.settle
  cases hl : h.inflight with
  | nil => rfl
  | cons e0 t0 =>
    simp only [Hart.finalV, hl]
    generalize e0 :: t0 = l
    suffices hs : ∀ (l : List Inflight) (v : Vector VecReg 32) (q : List Inflight),
        (l.foldl (fun (acc : Vector VecReg 32 × List Inflight) e =>
          if e.ready ≤ h.steps then (acc.1.set e.reg.toNat e.val, acc.2.filter (fun o => o.reg ≠ e.reg))
          else (acc.1, acc.2 ++ [e])) (v, q)).2.foldl (fun acc e => if e.reg = r then e.val else acc)
          (l.foldl (fun (acc : Vector VecReg 32 × List Inflight) e =>
          if e.ready ≤ h.steps then (acc.1.set e.reg.toNat e.val, acc.2.filter (fun o => o.reg ≠ e.reg))
          else (acc.1, acc.2 ++ [e])) (v, q)).1[r.toNat]
        = l.foldl (fun acc e => if e.reg = r then e.val else acc) (q.foldl (fun acc e => if e.reg = r then e.val else acc) v[r.toNat]) by
      simpa using hs l h.v []
    intro l
    induction l with
    | nil => intro v q; rfl
    | cons e t ih =>
      intro v q
      simp only [List.foldl_cons]
      by_cases h1 : e.ready ≤ h.steps
      · simp only [h1, if_true]
        rw [ih]
        by_cases h2 : e.reg = r
        · subst h2
          rw [foldl_writes_filter_eq]
          simp
        · rw [foldl_writes_filter_ne _ _ _ _ h2]
          have h3 : e.reg.toNat ≠ r.toNat := fun h => h2 (BitVec.eq_of_toNat_eq h)
          simp [h2, h3]
      · simp only [h1, if_false]
        rw [ih, foldl_writes_append]
        simp

/-- What settling may change. -/
theorem Hart.settle_eq (h : Hart) : ∃ v q, h.settle = { h with v := v, inflight := q } := by
  unfold Hart.settle
  split
  · exact ⟨h.v, h.inflight, rfl⟩
  · exact ⟨_, _, rfl⟩

/-- Retiring in sequence. -/
theorem Hart.retire_settle (h : Hart) (w : Nat) : Retired h (h.retire w none).settle w ∧ SameVectors h (h.retire w none).settle
    ∧ SameCsrs h (h.retire w none).settle ∧ SameShell h (h.retire w none).settle ∧ (h.retire w none).settle.x = h.x := by
  have hf : ∀ r, (h.retire w none).settle.finalV r = h.finalV r := fun r => (Hart.finalV_settle _ r).trans rfl
  obtain ⟨v, q, hq⟩ := Hart.settle_eq (h.retire w none)
  refine ⟨?_, hf, ?_, ?_, ?_⟩ <;> rw [hq]
  · exact ⟨rfl, rfl, rfl, rfl⟩
  · rfl
  · rfl
  · rfl

/-- Retiring with a transfer of control. -/
theorem Hart.jump_settle (h : Hart) (pc : Word) : Transferred h (h.retire 0 (some pc)).settle pc
    ∧ SameVectors h (h.retire 0 (some pc)).settle ∧ SameCsrs h (h.retire 0 (some pc)).settle
    ∧ SameShell h (h.retire 0 (some pc)).settle ∧ (h.retire 0 (some pc)).settle.x = h.x := by
  have hf : ∀ r, (h.retire 0 (some pc)).settle.finalV r = h.finalV r := fun r => (Hart.finalV_settle _ r).trans rfl
  obtain ⟨v, q, hq⟩ := Hart.settle_eq (h.retire 0 (some pc))
  refine ⟨?_, hf, ?_, ?_, ?_⟩ <;> rw [hq]
  · exact ⟨rfl, rfl, rfl, rfl⟩
  · rfl
  · rfl
  · rfl

/-- `State.writeRd`: everything an instruction that only writes x[rd] does. -/
theorem State.writeRd_spec (s : State) (rd : Reg) (w : Word) : ∃ t, s.writeRd rd w = .next t ∧ WroteRd s t rd w := by
  refine ⟨_, rfl, ?_⟩
  obtain ⟨h1, h2, h3, h4, h5⟩ := Hart.retire_settle (s.setX rd w).hart 0
  have hx : ∀ r, ((s.setX rd w).advanceW 0).x r = (s.setX rd w).x r := by
    intro r; simp only [State.x, State.advanceW_hart, h5]
  have hh : ∃ x, (s.setX rd w).hart = { s.hart with x := x } := by
    unfold State.setX; split
    · exact ⟨s.hart.x, rfl⟩
    · exact ⟨_, rfl⟩
  have hd : { s.setX rd w with hart := s.hart } = s := by unfold State.setX; split <;> rfl
  obtain ⟨x, hx'⟩ := hh
  refine ⟨?_, ?_, ?_, ?_, ?_, ?_, hd⟩
  · rw [State.advance, hx, State.x_setX]; simp
  · intro r hr; rw [State.advance, hx, State.x_setX]; simp [hr]
  · rw [hx'] at h1; simp only [State.advance, State.advanceW_hart, hx']; exact ⟨h1.pc, h1.repstate, h1.instret, h1.steps⟩
  · intro r; rw [State.advance, State.advanceW_hart, h2 r, hx']; rfl
  · have := h3; rw [SameCsrs, hx'] at this; simpa [SameCsrs, State.advance, hx'] using this
  · have := h4; rw [SameShell, hx'] at this
    simp only [SameShell, State.advance, State.advanceW_hart, hx']
    exact congrArg (fun k : Hart => { k with x := s.hart.x }) this

/-- `State.advance`: an instruction that only retires. -/
theorem State.advance_spec (s : State) : OnlyRetired s s.advance := by
  obtain ⟨h1, h2, h3, h4, h5⟩ := Hart.retire_settle s.hart 0
  refine ⟨?_, h1, h2, h3, h4, rfl⟩
  intro r; simp only [State.x, State.advance, State.advanceW_hart, h5]

/-! ### Stores, copies, and what the hart in focus sees -/

/-- A lookup in the stores that a test on the address keeps. -/
theorem pendingGet_filter (q : List Host.Cell) (f : Nat → Bool) (m : List Host.Cell) (a : Nat) :
    pendingGet (q.filter (fun c => f c.1)) m a = if f a then pendingGet q m a else Memory.get m a := by
  induction q with
  | nil => simp [pendingGet]
  | cons c t ih =>
    obtain ⟨k, b⟩ := c
    by_cases h : k = a
    · subst h; cases hf : f k <;> simp [pendingGet, hf, ih]
    · cases hf : f a <;> cases hk : f k <;> simp [pendingGet, h, hf, hk, ih]

/-- A byte that no store names is the memory's. -/
theorem pendingGet_none (p m : List Host.Cell) (a : Nat) (h : p.any (fun c => c.1 == a) = false) : pendingGet p m a = Memory.get m a := by
  induction p with
  | nil => rfl
  | cons c t ih =>
    obtain ⟨k, b⟩ := c
    simp only [List.any_cons, Bool.or_eq_false_iff] at h
    have h1 : ¬ k = a := by simpa using h.1
    simp [pendingGet, h1, ih h.2]

/-- Lookups over memories that agree there. -/
theorem pendingGet_congr (p : List Host.Cell) {m n : List Host.Cell} {a : Nat} (h : Memory.get m a = Memory.get n a) :
    pendingGet p m a = pendingGet p n a := by
  induction p with
  | nil => exact h
  | cons c t ih =>
    obtain ⟨k, b⟩ := c
    simp [pendingGet, ih]

/-- Lookups of a byte that a store names do not reach memory. -/
theorem pendingGet_of_any (p m n : List Host.Cell) (a : Nat) (h : p.any (fun c => c.1 == a) = true) :
    pendingGet p m a = pendingGet p n a := by
  induction p with
  | nil => simp at h
  | cons c t ih =>
    obtain ⟨k, b⟩ := c
    by_cases e : k = a
    · simp [pendingGet, e]
    · have e' : (k == a) = false := by simpa using e
      simp only [List.any_cons, e', Bool.false_or] at h
      simp [pendingGet, e, ih h]

/-- A byte is named by the stores that a test on the address keeps when the test holds of it and a store names it. -/
theorem any_filter_addr (p : List Host.Cell) (f : Nat → Bool) (a : Nat) :
    (p.filter (fun c => f c.1)).any (fun c => c.1 == a) = (f a && p.any (fun c => c.1 == a)) := by
  induction p with
  | nil => simp
  | cons c t ih =>
    by_cases hc : c.1 = a
    · subst hc; cases hf : f c.1 <;> simp [hf, ih]
    · have hc' : (c.1 == a) = false := by simpa using hc
      cases hf : f c.1 <;> simp [hf, hc', ih]

/-- A partition of the stores is two filters. -/
theorem partition_filter (p : List Host.Cell) (f : Nat → Bool) :
    p.partition (fun c => f c.1) = (p.filter (fun c => f c.1), p.filter (fun c => !f c.1)) := by
  rw [List.partition_eq_filter_filter]; rfl

/-- A hart set to what it is. -/
theorem State.setHart_hid (s : State) (h : Hart) : s.setHart s.hid h = { s with hart := h } := by simp [State.setHart]

/-- The hart in focus. -/
@[simp] theorem State.getHart_hid (s : State) : s.getHart s.hid = s.hart := by simp [State.getHart]

/-- What lookups find over memory in two states is the same, in `t` with the stores `p` before. -/
def SameLookups (s t : State) (p : List Host.Cell) (l : State → List Host.Cell) : Prop :=
  ∀ a, pendingGet (l t) t.mem a = pendingGet (p ++ l s) s.mem a

/-- A byte that a store names is that of the newest such store, whatever lies behind. -/
theorem pendingGet_two (q r m : List Host.Cell) (c : Host.Cell) (a : Nat) :
    pendingGet (q.filter (fun e => !(e.1 == c.1)) ++ c :: r.filter (fun e => !(e.1 == c.1))) m a
      = pendingGet (c :: (q ++ r)) m a := by
  have k : ∀ l : List Host.Cell, (l.filter (fun e => !(e.1 == c.1))).any (fun e => e.1 == a) = (!(a == c.1) && l.any (fun e => e.1 == a)) :=
    fun l => any_filter_addr l (fun n => !(n == c.1)) a
  have g : ∀ (l : List Host.Cell) m, pendingGet (l.filter (fun e => !(e.1 == c.1))) m a = if !(a == c.1) then pendingGet l m a else Memory.get m a :=
    fun l m => pendingGet_filter l (fun n => !(n == c.1)) m a
  rw [pendingGet_append, k]
  by_cases e : c.1 = a
  · subst e; simp [pendingGet]
  · have e' : (a == c.1) = false := by simpa using Ne.symm e
    rw [e', g]
    simp only [pendingGet, e, if_false, e', Bool.not_false, Bool.true_and, if_true]
    rw [g, pendingGet_append, e']
    simp

/-- The agent of a cluster takes a byte of a hart. -/
theorem State.agentPut_spec (s : State) (k h : Nat) (x : Bool) (c : Host.Cell) :
    OnlyMemory s (s.agentPut k h x c) ∧ (s.agentPut k h x c).mem = s.mem
    ∧ (s.agentPut k h x c).agentCells (some k) = c :: (s.agentCells (some k)).filter (fun e => !(e.1 == c.1))
    ∧ (s.agentPut k h x c).dirtyCells (some k) = c :: (s.dirtyCells (some k)).filter (fun e => !(e.1 == c.1))
    ∧ (s.agentPut k h x c).hartCopies h = (s.hartCopies h).filter (fun e => !(e.1 == c.1)) := by
  have f : ∀ l : Line, (some l.cluster == some k) = (l.cluster == k) := fun l => by
    by_cases h : l.cluster = k <;> simp [h]
  refine ⟨rfl, rfl, ?_, ?_, ?_⟩
  · unfold State.agentPut State.agentCells
    simp only [f, List.filter_cons, beq_self_eq_true, if_true, List.map_cons, List.filter_map, List.filter_filter]
    refine congrArg (List.cons _) (congrArg (List.map _) (List.filter_congr fun l _ => ?_))
    cases l.cluster == k <;> simp
  · unfold State.agentPut State.dirtyCells
    simp only [f, List.filter_cons, beq_self_eq_true, if_true, Bool.and_self, List.map_cons, List.filter_map, List.filter_filter]
    refine congrArg (List.cons _) (congrArg (List.map _) (List.filter_congr fun l _ => ?_))
    cases l.cluster == k <;> cases l.dirty <;> simp
  · unfold State.hartCopies State.agentPut
    dsimp only
    rw [map_filter_cells _ h (fun n => n == c.1), State.keepViews_other _ _ _ _ (by simp)]

/-- The agent of the cluster of the hart in focus takes its stores: lookups find them first. -/
theorem State.agentPuts_spec (s : State) (k h : Nat) (p : List Host.Cell) :
    OnlyMemory s (s.agentPuts k h p) ∧ (s.agentPuts k h p).mem = s.mem
    ∧ SameLookups s (s.agentPuts k h p) p (fun u => u.hartCopies h ++ u.agentCells (some k))
    ∧ SameLookups s (s.agentPuts k h p) p (fun u => u.agentCells (some k))
    ∧ SameLookups s (s.agentPuts k h p) p (fun u => owedCells u (some k)) := by
  induction p with
  | nil => exact ⟨rfl, rfl, fun _ => rfl, fun _ => rfl, fun _ => rfl⟩
  | cons c t ih =>
    have hc : s.agentPuts k h (c :: t) = (s.agentPuts k h t).agentPut k h false c := by simp [State.agentPuts]
    rw [hc]
    obtain ⟨i1, i2, i3, i4, i5⟩ := ih
    obtain ⟨j1, j2, j3, j4, j5⟩ := State.agentPut_spec (s.agentPuts k h t) k h false c
    have one : ∀ l a, pendingGet (c :: l) s.mem a = if c.1 = a then c.2 else pendingGet l s.mem a := fun _ _ => rfl
    refine ⟨onlyMemory_trans i1 j1, j2.trans i2, fun a => ?_, fun a => ?_, fun a => ?_⟩
    · dsimp only
      rw [j2, j3, j5, pendingGet_two, i2, one, List.cons_append, one, ← i3 a, i2]
    · dsimp only
      rw [j2, j3, i2]
      have := pendingGet_two [] ((s.agentPuts k h t).agentCells (some k)) s.mem c a
      simp only [List.filter_nil, List.nil_append] at this
      rw [this, one, List.cons_append, one, ← i4 a, i2]
    · have ho : owedCells ((s.agentPuts k h t).agentPut k h false c) (some k)
          = c :: (owedCells (s.agentPuts k h t) (some k)).filter (fun e => !(e.1 == c.1)) := by
        unfold owedCells
        rw [j3, j4]
        simp only [List.filter_cons, List.any_cons, beq_self_eq_true, Bool.true_or, if_true, List.filter_filter]
        refine congrArg (List.cons _) (List.filter_congr fun e _ => ?_)
        by_cases he : e.1 = c.1
        · simp [he]
        · have h1 : (c.1 == e.1) = false := by simpa using Ne.symm he
          have h2 : (e.1 == c.1) = false := by simpa using he
          rw [h1, h2, any_filter_addr _ (fun n => !(n == c.1)), h2]
          simp
      dsimp only
      rw [j2, i2, ho]
      have := pendingGet_two [] (owedCells (s.agentPuts k h t) (some k)) s.mem c a
      simp only [List.filter_nil, List.nil_append] at this
      rw [this, one, List.cons_append, one, ← i5 a, i2]

/-- What lies before the site in the view of hart `h`, and at its homes. -/
def viewCells (h : Nat) (u : State) : List Host.Cell := u.hartCopies h ++ u.agentCells (agentOf h)

/-- Stores of a hart leave its buffer: lookups find them first, in its view and at both its homes. -/
theorem State.drainOwn_spec (s : State) (h : Nat) (p : List Host.Cell) (hw : Memory.wf s.mem = true) :
    OnlyMemory s (s.drainOwn h p) ∧ Memory.wf (s.drainOwn h p).mem = true
    ∧ SameLookups s (s.drainOwn h p) p (viewCells h)
    ∧ SameLookups s (s.drainOwn h p) p (fun u => u.agentCells (agentOf h))
    ∧ SameLookups s (s.drainOwn h p) p (fun u => owedCells u (agentOf h)) := by
  unfold State.drainOwn viewCells
  cases hk : agentOf h with
  | some k =>
    obtain ⟨i1, i2, i3, i4, i5⟩ := State.agentPuts_spec s k h p
    exact ⟨i1, by rw [i2]; exact hw, i3, i4, i5⟩
  | none =>
    have ow : ∀ u : State, owedCells u none = [] := fun u => by simp [owedCells]
    have hm : ∀ a, Memory.get ((s.drainList (some h) p).seesSite h (fun a => p.any (fun c => c.1 == a))).mem a = pendingGet p s.mem a :=
      fun a => State.get_drainList s (some h) p a hw
    have hcop : ((s.drainList (some h) p).seesSite h (fun a => p.any (fun c => c.1 == a))).hartCopies h
        = (s.hartCopies h).filter (fun e => !p.any (fun c => c.1 == e.1)) := by
      have e : ∀ q, (s.drainList (some h) q).stale.filter (fun k => k.1 == h) = s.stale.filter (fun k => k.1 == h) := by
        intro q
        induction q with
        | nil => rfl
        | cons c t ih => rw [State.drainList_cons]; exact (State.storeBy_own _ h _ _).1.trans ih
      unfold State.hartCopies State.seesSite
      dsimp only
      rw [map_filter_cells _ h (fun n => p.any (fun c => c.1 == n)), e]
    refine ⟨?_, State.drainList_wf _ _ hw, fun a => ?_, fun a => ?_, fun a => ?_⟩
    · have := State.drainList_only s (some h) p
      unfold OnlyMemory at this ⊢
      exact this
    · simp only [State.agentCells_none, List.append_nil]
      rw [hcop, pendingGet_filter _ (fun n => !p.any (fun c => c.1 == n)), pendingGet_append]
      cases hp : p.any (fun c => c.1 == a)
      · have : Memory.get ((s.drainList (some h) p).seesSite h (fun a => p.any (fun c => c.1 == a))).mem a = Memory.get s.mem a := by
          rw [hm, pendingGet_none _ _ _ hp]
        simp [pendingGet_congr _ this]
      · simp [hm]
    · simp only [State.agentCells_none, List.append_nil]; exact hm a
    · simp only [ow, List.append_nil]; exact hm a

/-- The hart in focus gives up what it had pending for `p`, and lookups find `p` first in turn: it sees every byte as before. -/
theorem seen_of_lookups {s t : State} {p : List Host.Cell} (f : Nat → Bool) (l : State → List Host.Cell)
    (hp : p = s.hart.pending.filter (fun c => f c.1))
    (ht : t.hart.pending = s.hart.pending.filter (fun c => !f c.1)) (hl : SameLookups s t p l) (a : Nat) :
    pendingGet (t.hart.pending ++ l t) t.mem a = pendingGet (s.hart.pending ++ l s) s.mem a := by
  have k := any_filter_addr s.hart.pending (fun n => !f n) a
  have g := fun m => pendingGet_filter s.hart.pending (fun n => !f n) m a
  have k2 := any_filter_addr s.hart.pending f a
  have g2 := fun m => pendingGet_filter s.hart.pending f m a
  rw [pendingGet_append, pendingGet_append, ht, k, g, hl a, hp, pendingGet_append, k2, g2]
  cases hf : f a <;> cases hs : s.hart.pending.any (fun c => c.1 == a)
  · simp
  · simp [pendingGet_of_any _ t.mem s.mem _ hs]
  · simp
  · simp

/-- `State.drainSome` of the hart in focus: those of its stores for which the test holds leave its buffer, but for those of a cell being
purged, and it sees every byte as before, at its homes too. -/
theorem State.drainSome_seen (s : State) (f : Nat → Bool) (hw : Memory.wf s.mem = true) :
    let t := s.drainSome s.hid f
    OnlyMemory { s with hart := { s.hart with pending := s.hart.pending.filter (fun c => !(f c.1 && !s.heldByte c.1)) } } t
    ∧ Memory.wf t.mem = true ∧ (∀ a, byteSeen t a = byteSeen s a) ∧ ∀ near a, homeByte t near a = homeByte s near a := by
  have hp := partition_filter s.hart.pending (fun n => f n && !s.heldByte n)
  unfold State.drainSome
  simp only [State.getHart_hid, hp]
  cases hl : s.hart.pending.filter (fun c => f c.1 && !s.heldByte c.1) with
  | nil =>
    have hk : s.hart.pending.filter (fun c => !(f c.1 && !s.heldByte c.1)) = s.hart.pending := by
      rw [List.filter_eq_self]
      intro c hc
      rw [List.filter_eq_nil_iff] at hl
      have := hl c hc
      cases hb : f c.1 && !s.heldByte c.1
      · rfl
      · exact absurd hb this
    simp only [hk]
    exact ⟨rfl, hw, by simp, by simp⟩
  | cons c r =>
    simp only [State.setHart_hid]
    set u : State := { s with hart := { s.hart with pending := s.hart.pending.filter (fun c => !(f c.1 && !s.heldByte c.1)) } } with hu
    obtain ⟨i1, i2, i3, i4, i5⟩ := State.drainOwn_spec u s.hid (c :: r) hw
    obtain ⟨a1, a2, a3, -⟩ := onlyMemory_harts i1
    have b1 : (u.drainOwn s.hid (c :: r)).hid = s.hid := a1
    have b2 : (u.drainOwn s.hid (c :: r)).hart.pending = s.hart.pending.filter (fun c => !(f c.1 && !s.heldByte c.1)) := by rw [a2]
    refine ⟨i1, i2, fun a => ?_, fun near a => ?_⟩
    · have := seen_of_lookups (s := s) (t := u.drainOwn s.hid (c :: r)) (fun n => f n && !s.heldByte n) (viewCells s.hid) hl.symm b2 i3 a
      unfold byteSeen State.copies
      rw [b1]
      exact this
    · unfold homeByte homeCells
      rw [b1]
      cases near
      · exact seen_of_lookups (s := s) (t := u.drainOwn s.hid (c :: r)) (fun n => f n && !s.heldByte n)
          (fun v => owedCells v (agentOf s.hid)) hl.symm b2 i5 a
      · exact seen_of_lookups (s := s) (t := u.drainOwn s.hid (c :: r)) (fun n => f n && !s.heldByte n)
          (fun v => v.agentCells (agentOf s.hid)) hl.symm b2 i4 a

/-- Stores of hart `h`'s agent at their sites, one after another: memory alone changes. -/
theorem foldl_storeBy_spec (s : State) (p : List Host.Cell) (hw : Memory.wf s.mem = true) :
    let t := p.reverse.foldl (fun s c => s.storeBy none c.1 [c.2]) s
    OnlyMemory s t ∧ Memory.wf t.mem = true ∧ ∀ a, Memory.get t.mem a = pendingGet p s.mem a :=
  ⟨State.drainList_only s none p, State.drainList_wf none p hw, fun a => State.get_drainList s none p a hw⟩

/-- `State.writeBack` by the agent of the hart in focus: memory alone changes, and the hart sees every byte as before, at its homes too. -/
theorem State.writeBack_seen (s : State) (k : Nat) (f : Nat → Bool) (hk : agentOf s.hid = some k) (hw : Memory.wf s.mem = true) :
    let t := s.writeBack k f
    OnlyMemory s t ∧ Memory.wf t.mem = true ∧ (∀ a, byteSeen t a = byteSeen s a) ∧ (∀ near a, homeByte t near a = homeByte s near a)
    ∧ ∀ a, Memory.get t.mem a = if f (a / 64) && !s.heldByte a then pendingGet (owedCells s (some k)) s.mem a else Memory.get s.mem a := by
  set go := (s.agentCells (some k)).filter (fun c => f (c.1 / 64) && (s.dirtyCells (some k)).any (fun d => d.1 == c.1) && !s.heldByte c.1) with hgo
  have hgo' : go = (owedCells s (some k)).filter (fun c => f (c.1 / 64) && !s.heldByte c.1) := by
    rw [hgo, owedCells, List.filter_filter]
    refine List.filter_congr fun c _ => ?_
    cases f (c.1 / 64) <;> cases (s.dirtyCells (some k)).any (fun d => d.1 == c.1) <;> cases s.heldByte c.1 <;> rfl
  have hget : ∀ a, pendingGet go s.mem a = if f (a / 64) && !s.heldByte a then pendingGet (owedCells s (some k)) s.mem a else Memory.get s.mem a := by
    intro a; rw [hgo']; exact pendingGet_filter _ (fun n => f (n / 64) && !s.heldByte n) _ a
  unfold State.writeBack
  simp only [← hgo]
  cases hl : go with
  | nil =>
    rw [hl] at hget
    exact ⟨rfl, hw, fun _ => rfl, fun _ _ => rfl, hget⟩
  | cons c r =>
    dsimp only
    rw [← hl]
    obtain ⟨i1, i2, i3⟩ := foldl_storeBy_spec s go hw
    generalize ht : go.reverse.foldl (fun s c => s.storeBy none c.1 [c.2]) s = t at i1 i2 i3
    obtain ⟨a1, a2, a3, -⟩ := onlyMemory_harts i1
    have ss : ∀ l : Line, (some l.cluster == some k) = (l.cluster == k) := fun l => by by_cases h : l.cluster = k <;> simp [h]
    set v : State := { t with
      stale := t.stale.filter (fun e => agentOf e.1 != some k) ++ s.stale.filter (fun e => agentOf e.1 == some k)
      lines := t.lines.filter (fun l => l.cluster != k) ++ s.lines.filter (fun l => l.cluster == k && !go.any (fun c => c.1 == l.addr)) } with hv
    have vh : v.hid = s.hid := a1
    have vp : v.hart.pending = s.hart.pending := by rw [hv]; exact congrArg Hart.pending a2
    have vl : v.lines.filter (fun l => l.cluster == k) = s.lines.filter (fun l => l.cluster == k && !go.any (fun c => c.1 == l.addr)) := by
      rw [hv]
      simp only [List.filter_append, List.filter_filter]
      have e1 : t.lines.filter (fun l => l.cluster == k && l.cluster != k) = [] := by
        rw [List.filter_eq_nil_iff]; intro l _; by_cases h : l.cluster = k <;> simp [h]
      rw [e1, List.nil_append]
      refine List.filter_congr fun l _ => ?_
      cases l.cluster == k <;> simp
    have vc : v.agentCells (some k) = (s.agentCells (some k)).filter (fun e => !go.any (fun c => c.1 == e.1)) := by
      unfold State.agentCells
      simp only [ss]
      rw [vl, List.filter_map, List.filter_filter]
      refine congrArg (List.map _) (List.filter_congr fun l _ => ?_)
      cases l.cluster == k <;> simp
    have vd : v.dirtyCells (some k) = (s.dirtyCells (some k)).filter (fun e => !go.any (fun c => c.1 == e.1)) := by
      have g : ∀ u : State, u.dirtyCells (some k) = ((u.lines.filter (fun l => l.cluster == k)).filter (·.dirty)).map (fun l => (l.addr, l.val)) := by
        intro u
        unfold State.dirtyCells
        rw [List.filter_filter]
        refine congrArg (List.map _) (List.filter_congr fun l _ => ?_)
        rw [ss, Bool.and_comm]
      rw [g, g, vl]
      rw [List.filter_map, List.filter_filter, List.filter_filter, List.filter_filter]
      refine congrArg (List.map _) (List.filter_congr fun l _ => ?_)
      cases l.cluster == k <;> cases l.dirty <;> simp
    have vo : owedCells v (some k) = (owedCells s (some k)).filter (fun e => !go.any (fun c => c.1 == e.1)) := by
      unfold owedCells
      rw [vc, vd, List.filter_filter, List.filter_filter]
      refine List.filter_congr fun e _ => ?_
      rw [any_filter_addr _ (fun n => !go.any (fun c => c.1 == n))]
      cases go.any (fun c => c.1 == e.1) <;> simp
    have vs : v.hartCopies s.hid = s.hartCopies s.hid := by
      unfold State.hartCopies
      rw [hv]
      simp only [List.filter_append, List.filter_filter]
      have e1 : t.stale.filter (fun e => e.1 == s.hid && agentOf e.1 != some k) = [] := by
        rw [List.filter_eq_nil_iff]
        intro e _
        by_cases h : e.1 = s.hid
        · simp [h, hk]
        · simp [h]
      rw [e1, List.nil_append]
      refine congrArg (List.map _) (List.filter_congr fun e _ => ?_)
      by_cases h : e.1 = s.hid
      · simp [h, hk]
      · have : (e.1 == s.hid) = false := by simpa using h
        simp [this]
    have look : ∀ (l l' : List Host.Cell), l' = l.filter (fun e => !go.any (fun c => c.1 == e.1)) →
        (∀ a, go.any (fun c => c.1 == a) = true → pendingGet l s.mem a = pendingGet go s.mem a) →
        ∀ a, pendingGet l' v.mem a = pendingGet l s.mem a := by
      intro l l' e hgl a
      have hm : v.mem = t.mem := rfl
      rw [e, hm, pendingGet_filter _ (fun n => !go.any (fun c => c.1 == n)), i3]
      cases hg : go.any (fun c => c.1 == a)
      · have : Memory.get t.mem a = Memory.get s.mem a := by rw [i3, pendingGet_none _ _ _ hg]
        simp [pendingGet_congr l this]
      · simp [hgl a hg]
    have inGo : ∀ a, go.any (fun c => c.1 == a) = true → f (a / 64) = true ∧ s.heldByte a = false
        ∧ (s.dirtyCells (some k)).any (fun d => d.1 == a) = true := by
      intro a h
      rw [hgo, any_filter_addr _ (fun n => f (n / 64) && (s.dirtyCells (some k)).any (fun d => d.1 == n) && !s.heldByte n)] at h
      simp only [Bool.and_eq_true, Bool.not_eq_true'] at h
      exact ⟨h.1.1.1, h.1.2, h.1.1.2⟩
    have goA : ∀ a, go.any (fun c => c.1 == a) = true → pendingGet (s.agentCells (some k)) s.mem a = pendingGet go s.mem a := by
      intro a h
      obtain ⟨h1, h2, h3⟩ := inGo a h
      rw [hgo, pendingGet_filter _ (fun n => f (n / 64) && (s.dirtyCells (some k)).any (fun d => d.1 == n) && !s.heldByte n)]
      simp [h1, h2, h3]
    have goO : ∀ a, go.any (fun c => c.1 == a) = true → pendingGet (owedCells s (some k)) s.mem a = pendingGet go s.mem a := by
      intro a h
      obtain ⟨h1, h2, -⟩ := inGo a h
      rw [hget]; simp [h1, h2]
    have lA := look _ _ vc goA
    have lO := look _ _ vo goO
    have memAny : ∀ (q : List Host.Cell) (l l' : List Host.Cell), (∀ a, pendingGet l' v.mem a = pendingGet l s.mem a) →
        ∀ a, pendingGet (q ++ l') v.mem a = pendingGet (q ++ l) s.mem a := by
      intro q l l' h a
      rw [pendingGet_append, pendingGet_append]
      cases hq : q.any (fun c => c.1 == a)
      · simp [h a]
      · simp [pendingGet_of_any q v.mem s.mem a hq]
    refine ⟨?_, i2, fun a => ?_, fun near a => ?_, fun a => ?_⟩
    · unfold OnlyMemory at i1 ⊢; exact i1
    · unfold byteSeen State.copies
      rw [vh, vp, vs, hk, ← List.append_assoc, ← List.append_assoc]
      exact memAny _ _ _ lA a
    · unfold homeByte homeCells
      rw [vh, vp, hk]
      cases near
      · exact memAny _ _ _ lO a
      · exact memAny _ _ _ lA a
    · have hm : v.mem = t.mem := rfl
      rw [hm, i3, hget]

/-- `State.publish`: the stores of the hart leave its buffer, but for those of a cell being purged, and it sees every byte as before, at
its homes too. A byte that it had pending, or that its agent owes it, is then at its site (R160). -/
theorem State.publish_seen (s : State) (hw : Memory.wf s.mem = true) :
    OnlyMemory { s with hart := { s.hart with pending := s.hart.pending.filter (fun c => s.heldByte c.1) } } s.publish
    ∧ Memory.wf s.publish.mem = true ∧ (∀ a, byteSeen s.publish a = byteSeen s a) ∧ ∀ near a, homeByte s.publish near a = homeByte s near a := by
  obtain ⟨i1, i2, i3, i4⟩ := State.drainSome_seen s (fun _ => true) hw
  have e : s.hart.pending.filter (fun c => !((fun _ => true) c.1 && !s.heldByte c.1)) = s.hart.pending.filter (fun c => s.heldByte c.1) := by
    refine List.filter_congr fun c _ => ?_
    simp
  rw [e] at i1
  unfold State.publish State.publishHart State.publishNear
  obtain ⟨a1, a2, a3, -⟩ := onlyMemory_harts i1
  cases hk : agentOf s.hid with
  | none => exact ⟨i1, i2, i3, i4⟩
  | some k =>
    dsimp only
    have hk' : agentOf (s.drainSome s.hid (fun _ => true)).hid = some k := by rw [a1]; exact hk
    obtain ⟨j1, j2, j3, j4, -⟩ := State.writeBack_seen (s.drainSome s.hid (fun _ => true)) k
      ((s.drainSome s.hid (fun _ => true)).owes k s.hid) hk' i2
    exact ⟨onlyMemory_trans i1 j1, j2, fun a => (j3 a).trans (i3 a), fun near a => (j4 near a).trans (i4 near a)⟩

/-- `State.drainRange` of the hart in focus. -/
theorem State.drainRange_seen (s : State) (lo hi : Nat) (hw : Memory.wf s.mem = true) :
    let t := s.drainRange s.hid lo hi
    OnlyMemory { s with hart := { s.hart with pending :=
      (s.hart.pending.filter (fun c => !((decide (lo ≤ c.1) && decide (c.1 < hi)) && !s.heldByte c.1))) } } t
    ∧ Memory.wf t.mem = true ∧ (∀ a, byteSeen t a = byteSeen s a) ∧ ∀ near a, homeByte t near a = homeByte s near a :=
  State.drainSome_seen s (fun a => decide (lo ≤ a) && decide (a < hi)) hw

/-- `State.settleRange` of the hart in focus: it sees every byte as before, at its homes too, and what it or its agent had yet to write of
a line of the range is at the site (R165, R173). -/
theorem State.settleRange_seen (s : State) (lo hi : Nat) (hw : Memory.wf s.mem = true) :
    let t := s.settleRange s.hid lo hi
    OnlyMemory { s with hart := { s.hart with pending :=
      (s.hart.pending.filter (fun c => !((decide (lo ≤ c.1) && decide (c.1 < hi)) && !s.heldByte c.1))) } } t
    ∧ Memory.wf t.mem = true ∧ (∀ a, byteSeen t a = byteSeen s a) ∧ ∀ near a, homeByte t near a = homeByte s near a := by
  obtain ⟨i1, i2, i3, i4⟩ := State.drainRange_seen s lo hi hw
  obtain ⟨a1, -, -, -⟩ := onlyMemory_harts i1
  unfold State.settleRange
  cases hk : agentOf s.hid with
  | none => exact ⟨i1, i2, i3, i4⟩
  | some k =>
    dsimp only
    obtain ⟨j1, j2, j3, j4, -⟩ := State.writeBack_seen (s.drainRange s.hid lo hi) k (lineMeets lo hi) (by rw [a1]; exact hk) i2
    exact ⟨onlyMemory_trans i1 j1, j2, fun a => (j3 a).trans (i3 a), fun near a => (j4 near a).trans (i4 near a)⟩

/-- An agent drops older contents: memory's bytes stay, what it has yet to write back stays, and a hart that `who` does not admit keeps
the older contents that it has. -/
theorem State.dropLines_spec (s : State) (k : Nat) (who f : Nat → Bool) :
    OnlyMemory s (s.dropLines k who f) ∧ (s.dropLines k who f).mem = s.mem
    ∧ (s.dropLines k who f).lines = s.lines.filter (fun l => !s.olderLine k f l)
    ∧ ∀ h, who h = false → (s.dropLines k who f).hartCopies h = s.hartCopies h := by
  refine ⟨rfl, rfl, rfl, fun h hh => hartCopies_of ?_⟩
  unfold State.dropLines
  refine foldl_filter_same _ _ _ (fun l _ q => ?_) _
  exact State.keepViews_other { s with stale := q } _ _ _ (by simp [hh])

/-- A hart without an agent has nothing to be written back. -/
@[simp] theorem owedCells_none (s : State) : owedCells s none = [] := by simp [owedCells]

/-- The cells of an agent, once it has dropped the older contents for which a test on the address holds. -/
theorem agentCells_drop (s t : State) (k : Nat) (f : Nat → Bool) (h : t.lines = s.lines.filter (fun l => !s.olderLine k f l))
    (m : List Host.Cell) (a : Nat) :
    pendingGet (t.agentCells (some k)) m a = if f a then pendingGet (owedCells s (some k)) m a else pendingGet (s.agentCells (some k)) m a := by
  have ss : ∀ l : Line, (some l.cluster == some k) = (l.cluster == k) := fun l => by by_cases h : l.cluster = k <;> simp [h]
  have e : t.agentCells (some k)
      = (s.agentCells (some k)).filter (fun c => !f c.1 || (s.dirtyCells (some k)).any (fun d => d.1 == c.1)) := by
    unfold State.agentCells
    rw [h, List.filter_map, List.filter_filter, List.filter_filter]
    refine congrArg (List.map _) (List.filter_congr fun l _ => ?_)
    simp only [ss, State.olderLine, Function.comp]
    cases l.cluster == k <;> cases f l.addr <;> simp
  rw [e, owedCells, pendingGet_filter _ (fun n => !f n || (s.dirtyCells (some k)).any (fun d => d.1 == n)),
    pendingGet_filter _ (fun n => (s.dirtyCells (some k)).any (fun d => d.1 == n))]
  cases f a <;> simp

/-- A hart's older contents, once those for which a test on the address holds have gone. -/
theorem hartCopies_drop (s : State) (h : Nat) (f : Nat → Bool) :
    ({ s with stale := s.stale.filter (fun k => !(k.1 == h && f k.2.1)) } : State).hartCopies h = (s.hartCopies h).filter (fun c => !f c.1) :=
  map_filter_cells s.stale h f

/-- `State.freshen` of the hart in focus: memory's bytes stay; it sees the doublewords as they are at the site, or as its agent has yet to
write them back, and every other byte as before (R158). -/
theorem State.freshen_seen (s : State) (a n : Nat) :
    OnlyMemory s (s.freshen s.hid a n) ∧ (s.freshen s.hid a n).mem = s.mem
    ∧ ∀ b, byteSeen (s.freshen s.hid a n) b = if NearBytes a n b then homeByte s false b else byteSeen s b := by
  set f : Nat → Bool := fun b => decide (a / 8 ≤ b / 8) && decide (b / 8 < (a + n + 7) / 8) with hf
  have hfb : ∀ b, (f b = true) ↔ NearBytes a n b := by intro b; simp [hf, NearBytes]
  set u : State := { s with stale := s.stale.filter (fun k => !(k.1 == s.hid && f k.2.1)) } with hu
  have uc : u.hartCopies s.hid = (s.hartCopies s.hid).filter (fun c => !f c.1) := hartCopies_drop s s.hid f
  have split3 : ∀ (p q r : List Host.Cell) (m : List Host.Cell) (b : Nat), pendingGet (p ++ (q ++ r)) m b
      = if p.any (fun c => c.1 == b) then pendingGet p m b else if q.any (fun c => c.1 == b) then pendingGet q m b else pendingGet r m b := by
    intro p q r m b; rw [pendingGet_append, pendingGet_append]
  have hq : ∀ b, ((s.hartCopies s.hid).filter (fun c => !f c.1)).any (fun c => c.1 == b) = (!f b && (s.hartCopies s.hid).any (fun c => c.1 == b)) :=
    fun b => any_filter_addr _ (fun n => !f n) b
  have hg : ∀ m b, pendingGet ((s.hartCopies s.hid).filter (fun c => !f c.1)) m b = if !f b then pendingGet (s.hartCopies s.hid) m b else Memory.get m b :=
    fun m b => pendingGet_filter _ (fun n => !f n) m b
  unfold State.freshen
  dsimp only
  cases hk : agentOf s.hid with
  | none =>
    refine ⟨rfl, rfl, fun b => ?_⟩
    dsimp only
    unfold byteSeen homeByte homeCells State.copies
    rw [hk]
    change pendingGet (s.hart.pending ++ (u.hartCopies s.hid ++ u.agentCells none)) s.mem b = _
    rw [uc]
    simp only [State.agentCells_none, owedCells_none, List.append_nil, Bool.false_eq_true, ↓reduceIte]
    rw [pendingGet_append, pendingGet_append, hg]
    by_cases e : NearBytes a n b
    · have hb := (hfb b).2 e
      cases hp : s.hart.pending.any (fun c => c.1 == b)
      · simp [hb, e, pendingGet_none _ _ _ hp]
      · simp
    · have hb : f b = false := Bool.eq_false_iff.2 (mt (hfb b).1 e)
      simp [hb, e]
  | some k =>
    obtain ⟨d1, d2, d3, d4⟩ := State.dropLines_spec u k (fun j => j != s.hid) f
    refine ⟨?_, d2, fun b => ?_⟩
    · have : OnlyMemory s u := rfl
      exact onlyMemory_trans this d1
    · dsimp only
      have e1 : (u.dropLines k (fun j => j != s.hid) f).hid = s.hid := rfl
      have e2 : (u.dropLines k (fun j => j != s.hid) f).hart.pending = s.hart.pending := rfl
      have e4 : (u.dropLines k (fun j => j != s.hid) f).hartCopies s.hid = (s.hartCopies s.hid).filter (fun c => !f c.1) := by
        rw [d4 s.hid (by simp), uc]
      unfold byteSeen homeByte homeCells State.copies
      rw [e1, e2, e4, hk, d2]
      change pendingGet (s.hart.pending ++ ((s.hartCopies s.hid).filter (fun c => !f c.1) ++ (u.dropLines k (fun j => j != s.hid) f).agentCells (some k))) s.mem b = _
      rw [split3, split3, pendingGet_append, hq, hg, agentCells_drop u _ k f d3]
      have e5 : owedCells u (some k) = owedCells s (some k) := rfl
      have e6 : u.agentCells (some k) = s.agentCells (some k) := rfl
      rw [e5, e6]
      by_cases e : NearBytes a n b
      · have hb := (hfb b).2 e
        simp [hb, e]
      · have hb : f b = false := Bool.eq_false_iff.2 (mt (hfb b).1 e)
        simp [hb, e]

/-- `State.openAt`: nothing but older contents goes; at core or group scope the hart sees every byte as its agent has it, and at device or
system scope without older contents (R160, R161). -/
theorem State.openAt_seen (s : State) (near : Bool) : OnlyMemory s (s.openAt near) ∧ (s.openAt near).mem = s.mem
    ∧ ∀ a, byteSeen (s.openAt near) a = homeByte s near a := by
  have c0 : (s.openCore (coreOf s.hid)).hartCopies s.hid = [] := by
    unfold State.hartCopies State.openCore
    simp only [List.map_eq_nil_iff, List.filter_eq_nil_iff]
    intro k hk
    rw [List.mem_filter] at hk
    intro e
    have : k.1 = s.hid := by simpa using e
    rw [this] at hk
    simp at hk
  unfold State.openAt State.openHart
  cases hk : agentOf s.hid with
  | none =>
    refine ⟨rfl, rfl, fun a => ?_⟩
    dsimp only
    unfold byteSeen State.copies homeByte homeCells
    rw [hk]
    change pendingGet (s.hart.pending ++ ((s.openCore (coreOf s.hid)).hartCopies s.hid ++ (s.openCore (coreOf s.hid)).agentCells (agentOf s.hid))) s.mem a = _
    rw [c0, hk]
    cases near <;> simp
  | some k =>
    dsimp only
    set u : State := { s.openCore (coreOf s.hid) with lines := (s.openCore (coreOf s.hid)).lines.map (fun l =>
      if l.cluster = k ∧ l.dirty = true ∧ l.acquired.contains s.hid = false then { l with acquired := s.hid :: l.acquired } else l) } with hu
    have u0 : u.hartCopies s.hid = [] := c0
    have ua : u.agentCells (some k) = s.agentCells (some k) := by
      unfold State.agentCells
      rw [hu]
      change (List.map _ (List.filter _ (s.lines.map _))) = _
      rw [List.filter_map, List.map_map]
      have e1 : ∀ l : Line, ((fun l : Line => some l.cluster == some k) ∘ fun l : Line =>
          if l.cluster = k ∧ l.dirty = true ∧ l.acquired.contains s.hid = false then { l with acquired := s.hid :: l.acquired } else l) l
          = (some l.cluster == some k) := by intro l; dsimp only [Function.comp]; split <;> rfl
      rw [List.filter_congr fun l _ => e1 l]
      refine List.map_congr_left fun l _ => ?_
      dsimp only [Function.comp]; split <;> rfl
    have ud : u.dirtyCells (some k) = s.dirtyCells (some k) := by
      unfold State.dirtyCells
      rw [hu]
      change (List.map _ (List.filter _ (s.lines.map _))) = _
      rw [List.filter_map, List.map_map]
      have e1 : ∀ l : Line, ((fun l : Line => some l.cluster == some k && l.dirty) ∘ fun l : Line =>
          if l.cluster = k ∧ l.dirty = true ∧ l.acquired.contains s.hid = false then { l with acquired := s.hid :: l.acquired } else l) l
          = (some l.cluster == some k && l.dirty) := by intro l; dsimp only [Function.comp]; split <;> rfl
      rw [List.filter_congr fun l _ => e1 l]
      refine List.map_congr_left fun l _ => ?_
      dsimp only [Function.comp]; split <;> rfl
    have uo : owedCells u (some k) = owedCells s (some k) := by unfold owedCells; rw [ua, ud]
    have hou : OnlyMemory s u := rfl
    cases near with
    | true =>
      refine ⟨rfl, rfl, fun a => ?_⟩
      unfold byteSeen State.copies homeByte homeCells
      rw [hk]
      change pendingGet (s.hart.pending ++ (u.hartCopies s.hid ++ u.agentCells (agentOf s.hid))) s.mem a = _
      rw [u0, hk, ua]
      simp
    | false =>
      obtain ⟨d1, d2, d3, d4⟩ := State.dropLines_spec u k (fun j => coreOf j != coreOf s.hid) (fun _ => true)
      refine ⟨onlyMemory_trans hou d1, d2, fun a => ?_⟩
      have e4 : (u.dropLines k (fun j => coreOf j != coreOf s.hid) (fun _ => true)).hartCopies s.hid = [] := by
        rw [d4 s.hid (by simp), u0]
      unfold byteSeen State.copies homeByte homeCells
      rw [hk]
      change pendingGet (s.hart.pending ++ ((u.dropLines k (fun j => coreOf j != coreOf s.hid) (fun _ => true)).hartCopies s.hid
        ++ (u.dropLines k (fun j => coreOf j != coreOf s.hid) (fun _ => true)).agentCells (agentOf s.hid))) s.mem a = _
      rw [e4, hk, List.nil_append, pendingGet_append, pendingGet_append, agentCells_drop u _ k (fun _ => true) d3, uo]
      simp

/-- `State.storeOwn`: the hart sees the bytes it has stored, and every other byte as before, where it has none of them pending. -/
theorem State.storeOwn_seen (s : State) (a : Nat) (bs : List Byte) (hw : Memory.wf s.mem = true)
    (hp : ∀ b, a ≤ b → b < a + bs.length → s.hart.pending.any (fun c => c.1 == b) = false) :
    OnlyMemory s (s.storeOwn a bs) ∧ Memory.wf (s.storeOwn a bs).mem = true
    ∧ ∀ b, byteSeen (s.storeOwn a bs) b = if a ≤ b ∧ b < a + bs.length then bs.getD (b - a) 0 else byteSeen s b := by
  set f : Nat → Bool := fun b => decide (a ≤ b) && decide (b < a + bs.length) with hf
  have i1 := State.storeBy_only s (some s.hid) a bs
  obtain ⟨o1, o2⟩ := State.storeBy_own s s.hid a bs
  obtain ⟨a1, a2, -, -⟩ := onlyMemory_harts i1
  refine ⟨?_, ?_, fun b => ?_⟩
  · unfold OnlyMemory at i1 ⊢; exact i1
  · rw [State.storeOwn_mem]; exact Memory.wf_write a bs hw
  have e1 : (s.storeOwn a bs).hid = s.hid := a1
  have e2 : (s.storeOwn a bs).hart.pending = s.hart.pending := congrArg Hart.pending a2
  have e3 : (s.storeOwn a bs).hartCopies s.hid = (s.hartCopies s.hid).filter (fun c => !f c.1) := by
    have := hartCopies_drop (s.storeBy (some s.hid) a bs) s.hid f
    rw [hartCopies_of o1] at this
    exact this
  have e4 : ∀ m, pendingGet ((s.storeOwn a bs).agentCells (agentOf s.hid)) m b
      = if f b then Memory.get m b else pendingGet (s.agentCells (agentOf s.hid)) m b := by
    intro m
    cases hk : agentOf s.hid with
    | none => simp [pendingGet]
    | some k =>
      have ss : ∀ l : Line, (some l.cluster == some k) = (l.cluster == k) := fun l => by by_cases h : l.cluster = k <;> simp [h]
      have : (s.storeOwn a bs).agentCells (some k) = (s.agentCells (some k)).filter (fun c => !f c.1) := by
        unfold State.agentCells
        simp only [ss]
        change List.map _ (List.filter _ (List.filter (fun l => !(some l.cluster == agentOf s.hid && f l.addr)) (s.storeBy (some s.hid) a bs).lines)) = _
        rw [hk]
        simp only [ss]
        rw [← o2 k hk, List.filter_map, List.filter_filter, List.filter_filter]
        refine congrArg (List.map _) (List.filter_congr fun l _ => ?_)
        cases hc : l.cluster == k <;> cases hfl : f l.addr <;> simp [hfl]
      rw [this, pendingGet_filter _ (fun n => !f n)]
      cases f b <;> rfl
  have hm : Memory.get (s.storeOwn a bs).mem b = if a ≤ b ∧ b < a + bs.length then bs.getD (b - a) 0 else Memory.get s.mem b := by
    rw [State.storeOwn_mem]; exact Memory.get_write bs b hw (Nat.zero_le _)
  unfold byteSeen State.copies
  rw [e1, e2, e3, pendingGet_append, pendingGet_append, pendingGet_append, pendingGet_append, any_filter_addr _ (fun n => !f n),
    pendingGet_filter _ (fun n => !f n), e4]
  by_cases e : a ≤ b ∧ b < a + bs.length
  · have hb : f b = true := by simp [hf, e.1, e.2]
    rw [if_pos e] at hm ⊢
    generalize (s.storeOwn a bs).mem = mm at hm ⊢
    simp [hp b e.1 e.2, hb, hm]
  · have hb : f b = false := by simpa [hf, Bool.and_eq_false_iff] using e
    rw [if_neg e] at hm ⊢
    generalize (s.storeOwn a bs).mem = mm at hm ⊢
    rw [pendingGet_congr _ hm, pendingGet_congr _ hm, pendingGet_congr _ hm]
    simp [hb]

end Sys2Proof.Machine
end

