-- ==== Sys2Proof/Laws/Flow.lean ====
section
/-! SUPPORT. What transfers of control, the checks of a vector instruction and the completion of vector results do, said once. -/

namespace Sys2Proof.Machine
open Sys2Proof.Safety

/-- `State.jumpTo` after a write of x[rd]: everything a taken transfer does. -/
theorem State.jumpTo_spec (s : State) (rd : Reg) (w target : Word) : Jumped s ((s.setX rd w).jumpTo target) rd w target := by
  obtain ⟨h1, h2, h3, h4, h5⟩ := Hart.jump_settle (s.setX rd w).hart target
  have hx : ∀ r, ((s.setX rd w).jumpTo target).x r = (s.setX rd w).x r := by
    intro r; simp only [State.x, State.jumpTo, h5]
  have hh : ∃ x, (s.setX rd w).hart = { s.hart with x := x } := by
    unfold State.setX; split
    · exact ⟨s.hart.x, rfl⟩
    · exact ⟨_, rfl⟩
  have hd : { s.setX rd w with hart := s.hart } = s := by unfold State.setX; split <;> rfl
  obtain ⟨x, hx'⟩ := hh
  refine ⟨?_, ?_, ?_, ?_, ?_, ?_, hd⟩
  · rw [hx, State.x_setX]; simp
  · intro r hr; rw [hx, State.x_setX]; simp [hr]
  · rw [hx'] at h1; simp only [State.jumpTo, hx']; exact ⟨h1.pc, h1.repstate, h1.instret, h1.steps⟩
  · intro r; rw [State.jumpTo, h2 r, hx']; rfl
  · have := h3; rw [SameCsrs, hx'] at this; simpa [SameCsrs, State.jumpTo, hx'] using this
  · have := h4; rw [SameShell, hx'] at this
    simp only [SameShell, State.jumpTo, hx']
    exact congrArg (fun k : Hart => { k with x := s.hart.x }) this

/-- `State.transfer` with a link register: it traps with the target, or it jumps (R64, R65). -/
theorem State.transfer_spec (s : State) (target : Word) (rd : Reg) :
    (∃ c, transferCause target = some c ∧ s.transfer target (some rd) = s.trapOut c target)
    ∨ (transferCause target = none ∧ ∃ t, s.transfer target (some rd) = .next t ∧ Jumped s t rd (s.hart.pc + 4) (pcOf target)) := by
  unfold State.transfer
  cases h : transferCause target with
  | some c => exact .inl ⟨c, rfl, rfl⟩
  | none => exact .inr ⟨rfl, _, rfl, State.jumpTo_spec s rd _ _⟩

/-- Setting x0 changes nothing. -/
theorem State.setX_zero (s : State) (w : Word) : s.setX 0 w = s := by simp [State.setX]

/-- `State.transfer` with no link register is the transfer that links to x0. -/
theorem State.transfer_none (s : State) (target : Word) : s.transfer target none = s.transfer target (some 0) := by
  simp only [State.transfer, State.setX_zero]

/-- Completing the results in flight gives each register its contents in program order (R37, R40). -/
theorem Hart.complete_v (h : Hart) (r : VReg) : h.complete.v[r.toNat] = h.finalV r := by
  unfold Hart.complete Hart.finalV
  generalize h.inflight = l
  generalize hv : h.v = v
  clear hv
  induction l generalizing v with
  | nil => rfl
  | cons e t ih =>
    rw [List.foldl_cons, List.foldl_cons, ih]
    by_cases hr : e.reg = r
    · subst hr; simp
    · have hn : e.reg.toNat ≠ r.toNat := fun k => hr (BitVec.eq_of_toNat_eq k)
      simp [hr, hn]

/-- `State.enterSaves` of a context that is not being saved (R353). -/
theorem State.enterSaves_eq (s : State) (ctx : BitVec 16) (h : ∀ c, s.ctx? ctx = some c → c.state ≠ .saving) : s.enterSaves ctx = s := by
  unfold State.enterSaves
  cases hx : s.ctx? ctx with
  | none => rfl
  | some c => simp [h c hx]

/-- Where no save of its context is under way, a hart that waits changes nothing but its own wait (R353). -/
theorem State.block_eq (s : State) (w : Wake) (h : NotSaving s) : s.block w = .next (waiting s w) := by
  unfold State.block
  change Host.Outcome.next (match s.ownParty with
    | some p => (waiting s w).enterSaves p.ctx
    | none => waiting s w) = _
  cases hp : s.ownParty with
  | none => rfl
  | some p => exact congrArg _ (State.enterSaves_eq (waiting s w) p.ctx fun c hc => h p c hp hc)

/-- No register of a list is picked exactly when none satisfies the test. -/
theorem lowestReg_eq_none (p : VReg → Bool) (l : List VReg) : lowestReg p l = none ↔ ∀ r ∈ l, p r = false := by
  have key : ∀ (l : List VReg) (a : Option VReg), l.foldl (fun acc r => if p r then (match acc with
      | some a => some (if r.toNat < a.toNat then r else a)
      | none => some r) else acc) a = none ↔ a = none ∧ ∀ r ∈ l, p r = false := by
    intro l
    induction l with
    | nil => intro a; simp
    | cons r t ih =>
      intro a
      rw [List.foldl_cons, ih]
      cases hp : p r <;> cases a <;> simp [hp]
  exact (key l none).trans (by simp)

/-- A register has no result in flight that is not ready (R40). -/
theorem Hart.early_eq_false (h : Hart) (r : VReg) : h.early r = false ↔ ∀ e ∈ h.inflight, e.reg = r → e.ready ≤ h.steps := by
  simp [Hart.early]

/-- `State.vcheck` finds nothing exactly when the operands are good (R106). -/
theorem State.vcheck_eq_none (s : State) (named : List VReg) (srcs : List Src) :
    s.vcheck named srcs = none ↔ OperandsGood s named srcs := by
  have h1 : s.vheld named = none ↔ ∀ r ∈ named, s.hart.party = none ∨ r.toNat < 4 * s.hart.held := by
    simp only [State.vheld, Option.map_eq_none_iff, lowestReg_eq_none, Hart.unheld]
    refine forall₂_congr fun r _ => ?_
    cases s.hart.party <;> simp
  have h2 : s.vearly srcs = none ↔
      (s.hart.csr.vmode.getLsbD 1 = true → ∀ x ∈ srcs, ∀ e ∈ s.hart.inflight, e.reg = x.reg → e.ready ≤ s.hart.steps) := by
    unfold State.vearly State.scbCheck
    split
    · rename_i h
      simp only [h, forall_const, Option.map_eq_none_iff, lowestReg_eq_none, Hart.early_eq_false, List.mem_map, forall_exists_index,
        and_imp, forall_apply_eq_imp_iff₂]
    · rename_i h
      exact ⟨fun _ hk => absurd hk h, fun _ => rfl⟩
  have h3 : s.vformat srcs = none ↔ (s.hart.csr.vmode.getLsbD 0 = true → ∀ x ∈ srcs, ∀ t, x.as_ = some t →
      (s.hart.readV x.reg).tag = t ∨ (s.hart.readV x.reg).tag = .raw) := by
    unfold State.vformat State.fmtTrap
    split
    · rename_i h
      simp only [h, forall_const, Option.map_eq_none_iff, lowestReg_eq_none, List.mem_map, forall_exists_index, and_imp,
        forall_apply_eq_imp_iff₂, List.any_eq_false]
      constructor
      · intro k x hx t ht
        have := k x hx x hx
        simp only [ht] at this
        simp at this
        by_cases e : (s.hart.readV x.reg).tag = t
        · exact .inl e
        · exact .inr (this e)
      · intro k x hx y hy
        by_cases e : y.reg = x.reg
        · cases ha : y.as_ with
          | none => simp
          | some t =>
            have := k y hy t ha
            rw [e] at this
            rcases this with h | h <;> simp [h]
        · simp [e]
    · rename_i h
      exact ⟨fun _ hk => absurd hk h, fun _ => rfl⟩
  have h4 : s.vchk srcs = none ↔ ∀ x ∈ srcs, ∀ t, x.as_ = some t → chkBad (s.hart.readV x.reg) t = false := by
    unfold State.vchk
    simp only [Option.map_eq_none_iff, lowestReg_eq_none, List.mem_map, forall_exists_index, and_imp,
      forall_apply_eq_imp_iff₂, List.any_eq_false]
    constructor
    · intro k x hx t ht
      have := k x hx x hx
      simpa [ht] using this
    · intro k x hx y hy
      by_cases e : y.reg = x.reg
      · cases ha : y.as_ with
        | none => simp
        | some t =>
          have := k y hy t ha
          rw [e] at this
          simp [this]
      · simp [e]
  have h : s.vcheck named srcs = none ↔ s.vheld named = none ∧ s.vearly srcs = none ∧ s.vformat srcs = none ∧ s.vchk srcs = none := by
    unfold State.vcheck
    cases s.vheld named <;> cases s.vearly srcs <;> cases s.vformat srcs <;> simp
  rw [h, h1, h2, h3, h4]
  exact ⟨fun ⟨a, b, c, d⟩ => ⟨a, b, c, d⟩, fun ⟨a, b, c, d⟩ => ⟨a, b, c, d⟩⟩

end Sys2Proof.Machine
end

