-- ==== Sys2Proof/Laws/PerInstr.lean ====
section
/-! SUPPORT. The family of laws `Encoding`: one per constructor of `Instr`. The word of an instruction carries the fixed bits that
its row of the opcode table gives; commands and events have no word. -/

namespace Sys2Proof.Laws
open Sys2Proof

/-- The fixed bits of a row of the opcode table: which bits are fixed, and their values. -/
structure Row where
  mask : BitVec 32
  val  : BitVec 32
  deriving DecidableEq, Repr

/-- Fields restricted to some of their bits. -/
def Encoding.masked (f : Fields) (g : Fields) : Fields where
  top := f.top &&& g.top
  mid := f.mid &&& g.mid
  b25 := f.b25 &&& g.b25
  b := f.b &&& g.b
  a := f.a &&& g.a
  f3 := f.f3 &&& g.f3
  d := f.d &&& g.d
  opc := f.opc &&& g.opc

/-- Restricting a word restricts its fields. -/
theorem Encoding.join_and (f g : Fields) : f.join &&& g.join = (Encoding.masked f g).join := by
  simp only [Fields.join, Encoding.masked, ← BitVec.and_append]

/-- A word is its fields put together. -/
theorem Encoding.join_split (w : BitVec 32) : (Fields.split w).join = w := by
  apply BitVec.eq_of_getLsbD_eq
  intro i hi
  simp only [Fields.join, Fields.split, BitVec.getLsbD_append, BitVec.getLsbD_extractLsb']
  interval_cases i <;> rfl

/-- The fixed bits of a word, by its fields. -/
theorem Encoding.of_fields (f : Fields) (r : Row) (h : Encoding.masked f (Fields.split r.mask) = Fields.split r.val) :
    f.join &&& r.mask = r.val := by
  rw [← Encoding.join_split r.mask, Encoding.join_and, h, Encoding.join_split]

/-- The row of an instruction (the opcode table); none for a command or an event. -/
def row : Instr → Option Row
  | .lui _ _ => some ⟨0x0000007F, 0x00000037⟩
  | .auipc _ _ => some ⟨0x0000007F, 0x00000017⟩
  | .jal _ _ => some ⟨0x0000007F, 0x0000006F⟩
  | .jalr _ _ _ => some ⟨0x0000707F, 0x00000067⟩
  | .beq _ _ _ => some ⟨0x0000707F, 0x00000063⟩
  | .bne _ _ _ => some ⟨0x0000707F, 0x00001063⟩
  | .blt _ _ _ => some ⟨0x0000707F, 0x00004063⟩
  | .bge _ _ _ => some ⟨0x0000707F, 0x00005063⟩
  | .bltu _ _ _ => some ⟨0x0000707F, 0x00006063⟩
  | .bgeu _ _ _ => some ⟨0x0000707F, 0x00007063⟩
  | .lb _ _ _ => some ⟨0x0000707F, 0x00000003⟩
  | .lh _ _ _ => some ⟨0x0000707F, 0x00001003⟩
  | .lw _ _ _ => some ⟨0x0000707F, 0x00002003⟩
  | .ld _ _ _ => some ⟨0x0000707F, 0x00003003⟩
  | .lbu _ _ _ => some ⟨0x0000707F, 0x00004003⟩
  | .lhu _ _ _ => some ⟨0x0000707F, 0x00005003⟩
  | .lwu _ _ _ => some ⟨0x0000707F, 0x00006003⟩
  | .sb _ _ _ => some ⟨0x0000707F, 0x00000023⟩
  | .sh _ _ _ => some ⟨0x0000707F, 0x00001023⟩
  | .sw _ _ _ => some ⟨0x0000707F, 0x00002023⟩
  | .sd _ _ _ => some ⟨0x0000707F, 0x00003023⟩
  | .addi _ _ _ => some ⟨0x0000707F, 0x00000013⟩
  | .slti _ _ _ => some ⟨0x0000707F, 0x00002013⟩
  | .sltiu _ _ _ => some ⟨0x0000707F, 0x00003013⟩
  | .xori _ _ _ => some ⟨0x0000707F, 0x00004013⟩
  | .ori _ _ _ => some ⟨0x0000707F, 0x00006013⟩
  | .andi _ _ _ => some ⟨0x0000707F, 0x00007013⟩
  | .slli _ _ _ => some ⟨0xFC00707F, 0x00001013⟩
  | .srli _ _ _ => some ⟨0xFC00707F, 0x00005013⟩
  | .srai _ _ _ => some ⟨0xFC00707F, 0x40005013⟩
  | .add _ _ _ => some ⟨0xFE00707F, 0x00000033⟩
  | .sub _ _ _ => some ⟨0xFE00707F, 0x40000033⟩
  | .sll _ _ _ => some ⟨0xFE00707F, 0x00001033⟩
  | .slt _ _ _ => some ⟨0xFE00707F, 0x00002033⟩
  | .sltu _ _ _ => some ⟨0xFE00707F, 0x00003033⟩
  | .xor _ _ _ => some ⟨0xFE00707F, 0x00004033⟩
  | .srl _ _ _ => some ⟨0xFE00707F, 0x00005033⟩
  | .sra _ _ _ => some ⟨0xFE00707F, 0x40005033⟩
  | .or _ _ _ => some ⟨0xFE00707F, 0x00006033⟩
  | .and _ _ _ => some ⟨0xFE00707F, 0x00007033⟩
  | .addiw _ _ _ => some ⟨0x0000707F, 0x0000001B⟩
  | .slliw _ _ _ => some ⟨0xFE00707F, 0x0000101B⟩
  | .srliw _ _ _ => some ⟨0xFE00707F, 0x0000501B⟩
  | .sraiw _ _ _ => some ⟨0xFE00707F, 0x4000501B⟩
  | .addw _ _ _ => some ⟨0xFE00707F, 0x0000003B⟩
  | .subw _ _ _ => some ⟨0xFE00707F, 0x4000003B⟩
  | .sllw _ _ _ => some ⟨0xFE00707F, 0x0000103B⟩
  | .srlw _ _ _ => some ⟨0xFE00707F, 0x0000503B⟩
  | .sraw _ _ _ => some ⟨0xFE00707F, 0x4000503B⟩
  | .fence _ _ _ _ _ => some ⟨0x0000707F, 0x0000000F⟩
  | .mul _ _ _ => some ⟨0xFE00707F, 0x02000033⟩
  | .mulh _ _ _ => some ⟨0xFE00707F, 0x02001033⟩
  | .mulhsu _ _ _ => some ⟨0xFE00707F, 0x02002033⟩
  | .mulhu _ _ _ => some ⟨0xFE00707F, 0x02003033⟩
  | .div _ _ _ => some ⟨0xFE00707F, 0x02004033⟩
  | .divu _ _ _ => some ⟨0xFE00707F, 0x02005033⟩
  | .rem _ _ _ => some ⟨0xFE00707F, 0x02006033⟩
  | .remu _ _ _ => some ⟨0xFE00707F, 0x02007033⟩
  | .mulw _ _ _ => some ⟨0xFE00707F, 0x0200003B⟩
  | .divw _ _ _ => some ⟨0xFE00707F, 0x0200403B⟩
  | .divuw _ _ _ => some ⟨0xFE00707F, 0x0200503B⟩
  | .remw _ _ _ => some ⟨0xFE00707F, 0x0200603B⟩
  | .remuw _ _ _ => some ⟨0xFE00707F, 0x0200703B⟩
  | .amoswapW _ _ _ _ _ => some ⟨0xF800707F, 0x0800202F⟩
  | .amoaddW _ _ _ _ _ => some ⟨0xF800707F, 0x0000202F⟩
  | .amoxorW _ _ _ _ _ => some ⟨0xF800707F, 0x2000202F⟩
  | .amoandW _ _ _ _ _ => some ⟨0xF800707F, 0x6000202F⟩
  | .amoorW _ _ _ _ _ => some ⟨0xF800707F, 0x4000202F⟩
  | .amominW _ _ _ _ _ => some ⟨0xF800707F, 0x8000202F⟩
  | .amomaxW _ _ _ _ _ => some ⟨0xF800707F, 0xA000202F⟩
  | .amominuW _ _ _ _ _ => some ⟨0xF800707F, 0xC000202F⟩
  | .amomaxuW _ _ _ _ _ => some ⟨0xF800707F, 0xE000202F⟩
  | .amoswapD _ _ _ _ _ => some ⟨0xF800707F, 0x0800302F⟩
  | .amoaddD _ _ _ _ _ => some ⟨0xF800707F, 0x0000302F⟩
  | .amoxorD _ _ _ _ _ => some ⟨0xF800707F, 0x2000302F⟩
  | .amoandD _ _ _ _ _ => some ⟨0xF800707F, 0x6000302F⟩
  | .amoorD _ _ _ _ _ => some ⟨0xF800707F, 0x4000302F⟩
  | .amominD _ _ _ _ _ => some ⟨0xF800707F, 0x8000302F⟩
  | .amomaxD _ _ _ _ _ => some ⟨0xF800707F, 0xA000302F⟩
  | .amominuD _ _ _ _ _ => some ⟨0xF800707F, 0xC000302F⟩
  | .amomaxuD _ _ _ _ _ => some ⟨0xF800707F, 0xE000302F⟩
  | .csrrw _ _ _ => some ⟨0x0000707F, 0x00001073⟩
  | .csrrs _ _ _ => some ⟨0x0000707F, 0x00002073⟩
  | .csrrc _ _ _ => some ⟨0x0000707F, 0x00003073⟩
  | .csrrwi _ _ _ => some ⟨0x0000707F, 0x00005073⟩
  | .csrrsi _ _ _ => some ⟨0x0000707F, 0x00006073⟩
  | .csrrci _ _ _ => some ⟨0x0000707F, 0x00007073⟩
  | .vadd _ _ _ _ _ _ => some ⟨0xF000007F, 0x00000057⟩
  | .vsub _ _ _ _ _ _ => some ⟨0xF000007F, 0x10000057⟩
  | .vmul _ _ _ _ _ _ => some ⟨0xF000007F, 0x20000057⟩
  | .vdiv _ _ _ _ _ _ => some ⟨0xF000007F, 0x30000057⟩
  | .vmin _ _ _ _ _ _ => some ⟨0xF000007F, 0x40000057⟩
  | .vmax _ _ _ _ _ _ => some ⟨0xF000007F, 0x50000057⟩
  | .vabs _ _ _ _ _ => some ⟨0xF1F0007F, 0x60000057⟩
  | .vneg _ _ _ _ _ => some ⟨0xF1F0007F, 0x70000057⟩
  | .vsqrt _ _ _ _ _ => some ⟨0xF1F0007F, 0x80000057⟩
  | .vrecip _ _ _ _ _ => some ⟨0xF1F0007F, 0x90000057⟩
  | .vrsqrt _ _ _ _ _ => some ⟨0xF1F0007F, 0xA0000057⟩
  | .vexp2 _ _ _ _ _ => some ⟨0xF1F0007F, 0xB0000057⟩
  | .vlog2 _ _ _ _ _ => some ⟨0xF1F0007F, 0xC0000057⟩
  | .vadds _ _ _ _ _ _ => some ⟨0xF000007F, 0xD0000057⟩
  | .vsubs _ _ _ _ _ _ => some ⟨0xF000007F, 0xE0000057⟩
  | .vmulh _ _ _ _ _ _ => some ⟨0xF000007F, 0xF0000057⟩
  | .vand _ _ _ _ _ => some ⟨0xF000707F, 0x00000077⟩
  | .vor _ _ _ _ _ => some ⟨0xF000707F, 0x00001077⟩
  | .vxor _ _ _ _ _ => some ⟨0xF000707F, 0x00002077⟩
  | .vsll _ _ _ _ _ _ => some ⟨0xF000007F, 0x10000077⟩
  | .vsrl _ _ _ _ _ _ => some ⟨0xF000007F, 0x20000077⟩
  | .vsra _ _ _ _ _ _ => some ⟨0xF000007F, 0x30000077⟩
  | .vcmpeq _ _ _ _ _ => some ⟨0xF0000FFF, 0x40000077⟩
  | .vcmplt _ _ _ _ _ => some ⟨0xF0000FFF, 0x400000F7⟩
  | .vcmple _ _ _ _ _ => some ⟨0xF0000FFF, 0x40000177⟩
  | .vsel _ _ _ _ _ _ => some ⟨0xF000007F, 0x50000077⟩
  | .vperm _ _ _ _ _ _ => some ⟨0xF000007F, 0x60000077⟩
  | .vslide _ _ _ _ _ _ => some ⟨0xF000007F, 0x70000077⟩
  | .vbcast _ _ _ _ _ => some ⟨0xF1F0007F, 0x80000077⟩
  | .vmvx _ _ _ _ _ => some ⟨0xF200007F, 0x90000077⟩
  | .vid _ _ _ _ => some ⟨0xF1FF807F, 0xA0000077⟩
  | .vredsum _ _ _ _ _ => some ⟨0xF1F0007F, 0xB0000077⟩
  | .vredmax _ _ _ _ _ => some ⟨0xF1F0007F, 0xB0100077⟩
  | .vredmin _ _ _ _ _ => some ⟨0xF1F0007F, 0xB0200077⟩
  | .vdot _ _ _ _ _ _ => some ⟨0xF000007F, 0xC0000077⟩
  | .vcvt _ _ _ _ _ => some ⟨0xF100707F, 0xD0000077⟩
  | .vretag _ _ _ _ => some ⟨0xF300707F, 0xD0001077⟩
  | .vtag _ _ _ => some ⟨0xF3F0707F, 0xD0002077⟩
  | .vqnt _ _ _ _ => some ⟨0xF300707F, 0xD0003077⟩
  | .vdeq _ _ _ _ => some ⟨0xF300707F, 0xD0004077⟩
  | .vmvv _ _ _ _ => some ⟨0xF1F0707F, 0xE0000077⟩
  | .vsetm _ _ _ => some ⟨0xF3F00FFF, 0xF0000077⟩
  | .vgetm _ _ _ => some ⟨0xF3FF807F, 0xF0100077⟩
  | .vfma _ _ _ _ _ _ => some ⟨0x0000007F, 0x00000043⟩
  | .vfms _ _ _ _ _ _ => some ⟨0x0000007F, 0x00000047⟩
  | .vfnma _ _ _ _ _ _ => some ⟨0x0000007F, 0x0000004B⟩
  | .vfnms _ _ _ _ _ _ => some ⟨0x0000007F, 0x0000004F⟩
  | .vle _ _ _ _ => some ⟨0xE000007F, 0x00000007⟩
  | .vse _ _ _ _ => some ⟨0xE000007F, 0x00000027⟩
  | .vlds _ _ _ _ _ => some ⟨0xFC00007F, 0x20000007⟩
  | .vsds _ _ _ _ _ => some ⟨0xFC00007F, 0x20000027⟩
  | .vlx _ _ _ _ _ => some ⟨0xFC00007F, 0x40000007⟩
  | .vsx _ _ _ _ _ => some ⟨0xFC00007F, 0x40000027⟩
  | .rep _ _ _ _ => some ⟨0x0E00707F, 0x0000700B⟩
  | .qpush _ _ _ => some ⟨0xFC007FFF, 0x0000000B⟩
  | .qput _ _ => some ⟨0xFE007FFF, 0x0400000B⟩
  | .qpop _ _ => some ⟨0xFE0FF07F, 0x0800000B⟩
  | .recv _ _ => some ⟨0xFE0FF07F, 0x0000100B⟩
  | .peek _ _ => some ⟨0xFE0FF07F, 0x0200100B⟩
  | .wait _ _ => some ⟨0xFFF0707F, 0x0400100B⟩
  | .qmake _ _ _ => some ⟨0xFE00707F, 0x0600100B⟩
  | .qdrop _ => some ⟨0xFFFFF07F, 0x0800100B⟩
  | .send _ _ => some ⟨0xFE007FFF, 0x0000200B⟩
  | .rput _ _ _ => some ⟨0xFE00707F, 0x0200200B⟩
  | .slook _ _ => some ⟨0xFFF0707F, 0x0000300B⟩
  | .sinst _ _ => some ⟨0xFE007FFF, 0x0200300B⟩
  | .sinv _ => some ⟨0xFFF07FFF, 0x0400300B⟩
  | .sclean _ => some ⟨0xFFF07FFF, 0x0600300B⟩
  | .mtcfg _ _ _ => some ⟨0xFE00707F, 0x0000400B⟩
  | .mtpack _ _ _ => some ⟨0xFDF0707F, 0x0400400B⟩
  | .phaseC _ => some ⟨0xFFCFFFFF, 0x0000002B⟩
  | .phaseO _ => some ⟨0xFFCFFFFF, 0x0200002B⟩
  | .phaseCo _ => some ⟨0xFFCFFFFF, 0x0400002B⟩
  | .sync _ => some ⟨0xFFFFF07F, 0x0600002B⟩
  | .hred _ _ _ => some ⟨0xFF80707F, 0x0800002B⟩
  | .emit _ _ => some ⟨0xFE007FFF, 0x0A00002B⟩
  | .acq _ _ => some ⟨0xFFF0707F, 0x0000502B⟩
  | .acqTry _ _ => some ⟨0xFFF0707F, 0x0200502B⟩
  | .rel _ => some ⟨0xFFF07FFF, 0x0400502B⟩
  | .claim _ => some ⟨0xFFF07FFF, 0x0600502B⟩
  | .ldS _ _ _ _ => some ⟨0x0000707F, 0x0000102B⟩
  | .lwS _ _ _ _ => some ⟨0x0000707F, 0x0000202B⟩
  | .sdS _ _ _ _ => some ⟨0x0000707F, 0x0000302B⟩
  | .swS _ _ _ _ => some ⟨0x0000707F, 0x0000402B⟩
  | .offer _ _ _ _ _ _ => some ⟨0x0600407F, 0x0000005B⟩
  | .cread _ _ _ _ _ => some ⟨0xFE00407F, 0x0200005B⟩
  | .cwait _ _ _ _ _ => some ⟨0xFE00407F, 0x0400005B⟩
  | .cretire _ _ _ _ => some ⟨0xFE004FFF, 0x0600005B⟩
  | .scall _ => some ⟨0xFFF07FFF, 0x0200007B⟩
  | .mprobe _ _ => some ⟨0xFFF0707F, 0x0400007B⟩
  | .mhint _ _ => some ⟨0xFE007FFF, 0x0600007B⟩
  | .launch _ _ => some ⟨0xFFF0707F, 0x0000107B⟩
  | .frec _ _ _ => some ⟨0xFE00707F, 0x0200107B⟩
  | .monenter _ => some ⟨0xFFF07FFF, 0x0000207B⟩
  | .monkey _ _ => some ⟨0xFE007FFF, 0x0400207B⟩
  | .monseal _ _ => some ⟨0xFE007FFF, 0x0600207B⟩
  | .ecall => some ⟨0xFFFFFFFF, 0x00000073⟩
  | .ebreak => some ⟨0xFFFFFFFF, 0x00100073⟩
  | .fenceI => some ⟨0xFFFFFFFF, 0x0000100F⟩
  | .sret => some ⟨0xFFFFFFFF, 0x10200073⟩
  | .mret => some ⟨0xFFFFFFFF, 0x30200073⟩
  | .wfi => some ⟨0xFFFFFFFF, 0x10500073⟩
  | .taskDone => some ⟨0xFFFFFFFF, 0x0C00002B⟩
  | .upret => some ⟨0xFFFFFFFF, 0x0000007B⟩
  | .monleave => some ⟨0xFFFFFFFF, 0x0200207B⟩
  | _ => none

namespace Encoding

/-! The fields that hold a narrower value under a fixed part. -/

theorem amo_low (b : Bool) : 0#1 ++ bit b &&& 2#2 = 0#2 := by cases b <;> rfl
theorem amo_swap (b : Bool) : 1#1 ++ bit b &&& 2#2 = 2#2 := by cases b <;> rfl
theorem cell_bits (a b : Bool) : 0#1 ++ bit a ++ bit b &&& 4#3 = 0#3 := by cases a <;> cases b <;> rfl
theorem cell_sub (b : BitVec 1) : b ++ 0#1 &&& 1#2 = 0#2 := by revert b; decide
theorem tag_bits (t : Tag) : 0#1 ++ t.bits &&& 16#5 = 0#5 := by cases t <;> rfl
theorem op_bits (o : RedOp) : 0#2 ++ o.bits &&& 24#5 = 0#5 := by cases o <;> rfl
theorem scope_bits (s : Scope) : 0#3 ++ s.bits &&& 28#5 = 0#5 := by cases s <;> rfl
theorem unit_bits (b : BitVec 1) : 0#3 ++ b &&& 14#4 = 0#4 := by revert b; decide

/-- The word of a well-formed instruction has the fixed bits of its row, and only an instruction with a row has a word. -/
def Statement (i : Instr) : Prop :=
  match row i with
  | some r => i.wf = true → i.isWord = true ∧ encodeWord i &&& r.mask = r.val
  | none => i.isWord = false

theorem lui (rd : Reg) (imm : BitVec 20) : Statement (.lui rd imm) := by
  intro _
  exact ⟨rfl, of_fields _ _ (by simp [masked, Fields.split, Fields.ofU])⟩

theorem auipc (rd : Reg) (imm : BitVec 20) : Statement (.auipc rd imm) := by
  intro _
  exact ⟨rfl, of_fields _ _ (by simp [masked, Fields.split, Fields.ofU])⟩

theorem jal (rd : Reg) (imm : BitVec 20) : Statement (.jal rd imm) := by
  intro _
  exact ⟨rfl, of_fields _ _ (by simp [masked, Fields.split, Fields.ofJ])⟩

theorem jalr (rd : Reg) (rs1 : Reg) (imm : BitVec 12) : Statement (.jalr rd rs1 imm) := by
  intro _
  exact ⟨rfl, of_fields _ _ (by simp [masked, Fields.split, Fields.ofI])⟩

theorem beq (rs1 : Reg) (rs2 : Reg) (imm : BitVec 12) : Statement (.beq rs1 rs2 imm) := by
  intro _
  exact ⟨rfl, of_fields _ _ (by simp [masked, Fields.split, Fields.ofB])⟩

theorem bne (rs1 : Reg) (rs2 : Reg) (imm : BitVec 12) : Statement (.bne rs1 rs2 imm) := by
  intro _
  exact ⟨rfl, of_fields _ _ (by simp [masked, Fields.split, Fields.ofB])⟩

theorem blt (rs1 : Reg) (rs2 : Reg) (imm : BitVec 12) : Statement (.blt rs1 rs2 imm) := by
  intro _
  exact ⟨rfl, of_fields _ _ (by simp [masked, Fields.split, Fields.ofB])⟩

theorem bge (rs1 : Reg) (rs2 : Reg) (imm : BitVec 12) : Statement (.bge rs1 rs2 imm) := by
  intro _
  exact ⟨rfl, of_fields _ _ (by simp [masked, Fields.split, Fields.ofB])⟩

theorem bltu (rs1 : Reg) (rs2 : Reg) (imm : BitVec 12) : Statement (.bltu rs1 rs2 imm) := by
  intro _
  exact ⟨rfl, of_fields _ _ (by simp [masked, Fields.split, Fields.ofB])⟩

theorem bgeu (rs1 : Reg) (rs2 : Reg) (imm : BitVec 12) : Statement (.bgeu rs1 rs2 imm) := by
  intro _
  exact ⟨rfl, of_fields _ _ (by simp [masked, Fields.split, Fields.ofB])⟩

theorem lb (rd : Reg) (rs1 : Reg) (imm : BitVec 12) : Statement (.lb rd rs1 imm) := by
  intro _
  exact ⟨rfl, of_fields _ _ (by simp [masked, Fields.split, Fields.ofI])⟩

theorem lh (rd : Reg) (rs1 : Reg) (imm : BitVec 12) : Statement (.lh rd rs1 imm) := by
  intro _
  exact ⟨rfl, of_fields _ _ (by simp [masked, Fields.split, Fields.ofI])⟩

theorem lw (rd : Reg) (rs1 : Reg) (imm : BitVec 12) : Statement (.lw rd rs1 imm) := by
  intro _
  exact ⟨rfl, of_fields _ _ (by simp [masked, Fields.split, Fields.ofI])⟩

theorem ld (rd : Reg) (rs1 : Reg) (imm : BitVec 12) : Statement (.ld rd rs1 imm) := by
  intro _
  exact ⟨rfl, of_fields _ _ (by simp [masked, Fields.split, Fields.ofI])⟩

theorem lbu (rd : Reg) (rs1 : Reg) (imm : BitVec 12) : Statement (.lbu rd rs1 imm) := by
  intro _
  exact ⟨rfl, of_fields _ _ (by simp [masked, Fields.split, Fields.ofI])⟩

theorem lhu (rd : Reg) (rs1 : Reg) (imm : BitVec 12) : Statement (.lhu rd rs1 imm) := by
  intro _
  exact ⟨rfl, of_fields _ _ (by simp [masked, Fields.split, Fields.ofI])⟩

theorem lwu (rd : Reg) (rs1 : Reg) (imm : BitVec 12) : Statement (.lwu rd rs1 imm) := by
  intro _
  exact ⟨rfl, of_fields _ _ (by simp [masked, Fields.split, Fields.ofI])⟩

theorem sb (rs1 : Reg) (rs2 : Reg) (imm : BitVec 12) : Statement (.sb rs1 rs2 imm) := by
  intro _
  exact ⟨rfl, of_fields _ _ (by simp [masked, Fields.split, Fields.ofS])⟩

theorem sh (rs1 : Reg) (rs2 : Reg) (imm : BitVec 12) : Statement (.sh rs1 rs2 imm) := by
  intro _
  exact ⟨rfl, of_fields _ _ (by simp [masked, Fields.split, Fields.ofS])⟩

theorem sw (rs1 : Reg) (rs2 : Reg) (imm : BitVec 12) : Statement (.sw rs1 rs2 imm) := by
  intro _
  exact ⟨rfl, of_fields _ _ (by simp [masked, Fields.split, Fields.ofS])⟩

theorem sd (rs1 : Reg) (rs2 : Reg) (imm : BitVec 12) : Statement (.sd rs1 rs2 imm) := by
  intro _
  exact ⟨rfl, of_fields _ _ (by simp [masked, Fields.split, Fields.ofS])⟩

theorem addi (rd : Reg) (rs1 : Reg) (imm : BitVec 12) : Statement (.addi rd rs1 imm) := by
  intro _
  exact ⟨rfl, of_fields _ _ (by simp [masked, Fields.split, Fields.ofI])⟩

theorem slti (rd : Reg) (rs1 : Reg) (imm : BitVec 12) : Statement (.slti rd rs1 imm) := by
  intro _
  exact ⟨rfl, of_fields _ _ (by simp [masked, Fields.split, Fields.ofI])⟩

theorem sltiu (rd : Reg) (rs1 : Reg) (imm : BitVec 12) : Statement (.sltiu rd rs1 imm) := by
  intro _
  exact ⟨rfl, of_fields _ _ (by simp [masked, Fields.split, Fields.ofI])⟩

theorem xori (rd : Reg) (rs1 : Reg) (imm : BitVec 12) : Statement (.xori rd rs1 imm) := by
  intro _
  exact ⟨rfl, of_fields _ _ (by simp [masked, Fields.split, Fields.ofI])⟩

theorem ori (rd : Reg) (rs1 : Reg) (imm : BitVec 12) : Statement (.ori rd rs1 imm) := by
  intro _
  exact ⟨rfl, of_fields _ _ (by simp [masked, Fields.split, Fields.ofI])⟩

theorem andi (rd : Reg) (rs1 : Reg) (imm : BitVec 12) : Statement (.andi rd rs1 imm) := by
  intro _
  exact ⟨rfl, of_fields _ _ (by simp [masked, Fields.split, Fields.ofI])⟩

theorem slli (rd : Reg) (rs1 : Reg) (shamt : BitVec 6) : Statement (.slli rd rs1 shamt) := by
  intro _
  exact ⟨rfl, of_fields _ _ (by simp [masked, Fields.split])⟩

theorem srli (rd : Reg) (rs1 : Reg) (shamt : BitVec 6) : Statement (.srli rd rs1 shamt) := by
  intro _
  exact ⟨rfl, of_fields _ _ (by simp [masked, Fields.split])⟩

theorem srai (rd : Reg) (rs1 : Reg) (shamt : BitVec 6) : Statement (.srai rd rs1 shamt) := by
  intro _
  exact ⟨rfl, of_fields _ _ (by simp [masked, Fields.split])⟩

theorem add (rd : Reg) (rs1 : Reg) (rs2 : Reg) : Statement (.add rd rs1 rs2) := by
  intro _
  exact ⟨rfl, of_fields _ _ (by simp [masked, Fields.split, Fields.ofR])⟩

theorem sub (rd : Reg) (rs1 : Reg) (rs2 : Reg) : Statement (.sub rd rs1 rs2) := by
  intro _
  exact ⟨rfl, of_fields _ _ (by simp [masked, Fields.split, Fields.ofR])⟩

theorem sll (rd : Reg) (rs1 : Reg) (rs2 : Reg) : Statement (.sll rd rs1 rs2) := by
  intro _
  exact ⟨rfl, of_fields _ _ (by simp [masked, Fields.split, Fields.ofR])⟩

theorem slt (rd : Reg) (rs1 : Reg) (rs2 : Reg) : Statement (.slt rd rs1 rs2) := by
  intro _
  exact ⟨rfl, of_fields _ _ (by simp [masked, Fields.split, Fields.ofR])⟩

theorem sltu (rd : Reg) (rs1 : Reg) (rs2 : Reg) : Statement (.sltu rd rs1 rs2) := by
  intro _
  exact ⟨rfl, of_fields _ _ (by simp [masked, Fields.split, Fields.ofR])⟩

theorem xor (rd : Reg) (rs1 : Reg) (rs2 : Reg) : Statement (.xor rd rs1 rs2) := by
  intro _
  exact ⟨rfl, of_fields _ _ (by simp [masked, Fields.split, Fields.ofR])⟩

theorem srl (rd : Reg) (rs1 : Reg) (rs2 : Reg) : Statement (.srl rd rs1 rs2) := by
  intro _
  exact ⟨rfl, of_fields _ _ (by simp [masked, Fields.split, Fields.ofR])⟩

theorem sra (rd : Reg) (rs1 : Reg) (rs2 : Reg) : Statement (.sra rd rs1 rs2) := by
  intro _
  exact ⟨rfl, of_fields _ _ (by simp [masked, Fields.split, Fields.ofR])⟩

theorem or (rd : Reg) (rs1 : Reg) (rs2 : Reg) : Statement (.or rd rs1 rs2) := by
  intro _
  exact ⟨rfl, of_fields _ _ (by simp [masked, Fields.split, Fields.ofR])⟩

theorem and (rd : Reg) (rs1 : Reg) (rs2 : Reg) : Statement (.and rd rs1 rs2) := by
  intro _
  exact ⟨rfl, of_fields _ _ (by simp [masked, Fields.split, Fields.ofR])⟩

theorem addiw (rd : Reg) (rs1 : Reg) (imm : BitVec 12) : Statement (.addiw rd rs1 imm) := by
  intro _
  exact ⟨rfl, of_fields _ _ (by simp [masked, Fields.split, Fields.ofI])⟩

theorem slliw (rd : Reg) (rs1 : Reg) (shamt : BitVec 5) : Statement (.slliw rd rs1 shamt) := by
  intro _
  exact ⟨rfl, of_fields _ _ (by simp [masked, Fields.split, Fields.ofR])⟩

theorem srliw (rd : Reg) (rs1 : Reg) (shamt : BitVec 5) : Statement (.srliw rd rs1 shamt) := by
  intro _
  exact ⟨rfl, of_fields _ _ (by simp [masked, Fields.split, Fields.ofR])⟩

theorem sraiw (rd : Reg) (rs1 : Reg) (shamt : BitVec 5) : Statement (.sraiw rd rs1 shamt) := by
  intro _
  exact ⟨rfl, of_fields _ _ (by simp [masked, Fields.split, Fields.ofR])⟩

theorem addw (rd : Reg) (rs1 : Reg) (rs2 : Reg) : Statement (.addw rd rs1 rs2) := by
  intro _
  exact ⟨rfl, of_fields _ _ (by simp [masked, Fields.split, Fields.ofR])⟩

theorem subw (rd : Reg) (rs1 : Reg) (rs2 : Reg) : Statement (.subw rd rs1 rs2) := by
  intro _
  exact ⟨rfl, of_fields _ _ (by simp [masked, Fields.split, Fields.ofR])⟩

theorem sllw (rd : Reg) (rs1 : Reg) (rs2 : Reg) : Statement (.sllw rd rs1 rs2) := by
  intro _
  exact ⟨rfl, of_fields _ _ (by simp [masked, Fields.split, Fields.ofR])⟩

theorem srlw (rd : Reg) (rs1 : Reg) (rs2 : Reg) : Statement (.srlw rd rs1 rs2) := by
  intro _
  exact ⟨rfl, of_fields _ _ (by simp [masked, Fields.split, Fields.ofR])⟩

theorem sraw (rd : Reg) (rs1 : Reg) (rs2 : Reg) : Statement (.sraw rd rs1 rs2) := by
  intro _
  exact ⟨rfl, of_fields _ _ (by simp [masked, Fields.split, Fields.ofR])⟩

theorem fence (fm : BitVec 4) (pred : BitVec 4) (succ : BitVec 4) (rs1 : Reg) (rd : Reg) : Statement (.fence fm pred succ rs1 rd) := by
  intro _
  exact ⟨rfl, of_fields _ _ (by simp [masked, Fields.split])⟩

theorem mul (rd : Reg) (rs1 : Reg) (rs2 : Reg) : Statement (.mul rd rs1 rs2) := by
  intro _
  exact ⟨rfl, of_fields _ _ (by simp [masked, Fields.split, Fields.ofR])⟩

theorem mulh (rd : Reg) (rs1 : Reg) (rs2 : Reg) : Statement (.mulh rd rs1 rs2) := by
  intro _
  exact ⟨rfl, of_fields _ _ (by simp [masked, Fields.split, Fields.ofR])⟩

theorem mulhsu (rd : Reg) (rs1 : Reg) (rs2 : Reg) : Statement (.mulhsu rd rs1 rs2) := by
  intro _
  exact ⟨rfl, of_fields _ _ (by simp [masked, Fields.split, Fields.ofR])⟩

theorem mulhu (rd : Reg) (rs1 : Reg) (rs2 : Reg) : Statement (.mulhu rd rs1 rs2) := by
  intro _
  exact ⟨rfl, of_fields _ _ (by simp [masked, Fields.split, Fields.ofR])⟩

theorem div (rd : Reg) (rs1 : Reg) (rs2 : Reg) : Statement (.div rd rs1 rs2) := by
  intro _
  exact ⟨rfl, of_fields _ _ (by simp [masked, Fields.split, Fields.ofR])⟩

theorem divu (rd : Reg) (rs1 : Reg) (rs2 : Reg) : Statement (.divu rd rs1 rs2) := by
  intro _
  exact ⟨rfl, of_fields _ _ (by simp [masked, Fields.split, Fields.ofR])⟩

theorem rem (rd : Reg) (rs1 : Reg) (rs2 : Reg) : Statement (.rem rd rs1 rs2) := by
  intro _
  exact ⟨rfl, of_fields _ _ (by simp [masked, Fields.split, Fields.ofR])⟩

theorem remu (rd : Reg) (rs1 : Reg) (rs2 : Reg) : Statement (.remu rd rs1 rs2) := by
  intro _
  exact ⟨rfl, of_fields _ _ (by simp [masked, Fields.split, Fields.ofR])⟩

theorem mulw (rd : Reg) (rs1 : Reg) (rs2 : Reg) : Statement (.mulw rd rs1 rs2) := by
  intro _
  exact ⟨rfl, of_fields _ _ (by simp [masked, Fields.split, Fields.ofR])⟩

theorem divw (rd : Reg) (rs1 : Reg) (rs2 : Reg) : Statement (.divw rd rs1 rs2) := by
  intro _
  exact ⟨rfl, of_fields _ _ (by simp [masked, Fields.split, Fields.ofR])⟩

theorem divuw (rd : Reg) (rs1 : Reg) (rs2 : Reg) : Statement (.divuw rd rs1 rs2) := by
  intro _
  exact ⟨rfl, of_fields _ _ (by simp [masked, Fields.split, Fields.ofR])⟩

theorem remw (rd : Reg) (rs1 : Reg) (rs2 : Reg) : Statement (.remw rd rs1 rs2) := by
  intro _
  exact ⟨rfl, of_fields _ _ (by simp [masked, Fields.split, Fields.ofR])⟩

theorem remuw (rd : Reg) (rs1 : Reg) (rs2 : Reg) : Statement (.remuw rd rs1 rs2) := by
  intro _
  exact ⟨rfl, of_fields _ _ (by simp [masked, Fields.split, Fields.ofR])⟩

theorem amoswapW (rd : Reg) (rs1 : Reg) (rs2 : Reg) (aq : Bool) (rl : Bool) : Statement (.amoswapW rd rs1 rs2 aq rl) := by
  intro _
  exact ⟨rfl, of_fields _ _ (by simp [masked, Fields.split, Fields.ofAmo, amo_swap])⟩

theorem amoaddW (rd : Reg) (rs1 : Reg) (rs2 : Reg) (aq : Bool) (rl : Bool) : Statement (.amoaddW rd rs1 rs2 aq rl) := by
  intro _
  exact ⟨rfl, of_fields _ _ (by simp [masked, Fields.split, Fields.ofAmo, amo_low])⟩

theorem amoxorW (rd : Reg) (rs1 : Reg) (rs2 : Reg) (aq : Bool) (rl : Bool) : Statement (.amoxorW rd rs1 rs2 aq rl) := by
  intro _
  exact ⟨rfl, of_fields _ _ (by simp [masked, Fields.split, Fields.ofAmo, amo_low])⟩

theorem amoandW (rd : Reg) (rs1 : Reg) (rs2 : Reg) (aq : Bool) (rl : Bool) : Statement (.amoandW rd rs1 rs2 aq rl) := by
  intro _
  exact ⟨rfl, of_fields _ _ (by simp [masked, Fields.split, Fields.ofAmo, amo_low])⟩

theorem amoorW (rd : Reg) (rs1 : Reg) (rs2 : Reg) (aq : Bool) (rl : Bool) : Statement (.amoorW rd rs1 rs2 aq rl) := by
  intro _
  exact ⟨rfl, of_fields _ _ (by simp [masked, Fields.split, Fields.ofAmo, amo_low])⟩

theorem amominW (rd : Reg) (rs1 : Reg) (rs2 : Reg) (aq : Bool) (rl : Bool) : Statement (.amominW rd rs1 rs2 aq rl) := by
  intro _
  exact ⟨rfl, of_fields _ _ (by simp [masked, Fields.split, Fields.ofAmo, amo_low])⟩

theorem amomaxW (rd : Reg) (rs1 : Reg) (rs2 : Reg) (aq : Bool) (rl : Bool) : Statement (.amomaxW rd rs1 rs2 aq rl) := by
  intro _
  exact ⟨rfl, of_fields _ _ (by simp [masked, Fields.split, Fields.ofAmo, amo_low])⟩

theorem amominuW (rd : Reg) (rs1 : Reg) (rs2 : Reg) (aq : Bool) (rl : Bool) : Statement (.amominuW rd rs1 rs2 aq rl) := by
  intro _
  exact ⟨rfl, of_fields _ _ (by simp [masked, Fields.split, Fields.ofAmo, amo_low])⟩

theorem amomaxuW (rd : Reg) (rs1 : Reg) (rs2 : Reg) (aq : Bool) (rl : Bool) : Statement (.amomaxuW rd rs1 rs2 aq rl) := by
  intro _
  exact ⟨rfl, of_fields _ _ (by simp [masked, Fields.split, Fields.ofAmo, amo_low])⟩

theorem amoswapD (rd : Reg) (rs1 : Reg) (rs2 : Reg) (aq : Bool) (rl : Bool) : Statement (.amoswapD rd rs1 rs2 aq rl) := by
  intro _
  exact ⟨rfl, of_fields _ _ (by simp [masked, Fields.split, Fields.ofAmo, amo_swap])⟩

theorem amoaddD (rd : Reg) (rs1 : Reg) (rs2 : Reg) (aq : Bool) (rl : Bool) : Statement (.amoaddD rd rs1 rs2 aq rl) := by
  intro _
  exact ⟨rfl, of_fields _ _ (by simp [masked, Fields.split, Fields.ofAmo, amo_low])⟩

theorem amoxorD (rd : Reg) (rs1 : Reg) (rs2 : Reg) (aq : Bool) (rl : Bool) : Statement (.amoxorD rd rs1 rs2 aq rl) := by
  intro _
  exact ⟨rfl, of_fields _ _ (by simp [masked, Fields.split, Fields.ofAmo, amo_low])⟩

theorem amoandD (rd : Reg) (rs1 : Reg) (rs2 : Reg) (aq : Bool) (rl : Bool) : Statement (.amoandD rd rs1 rs2 aq rl) := by
  intro _
  exact ⟨rfl, of_fields _ _ (by simp [masked, Fields.split, Fields.ofAmo, amo_low])⟩

theorem amoorD (rd : Reg) (rs1 : Reg) (rs2 : Reg) (aq : Bool) (rl : Bool) : Statement (.amoorD rd rs1 rs2 aq rl) := by
  intro _
  exact ⟨rfl, of_fields _ _ (by simp [masked, Fields.split, Fields.ofAmo, amo_low])⟩

theorem amominD (rd : Reg) (rs1 : Reg) (rs2 : Reg) (aq : Bool) (rl : Bool) : Statement (.amominD rd rs1 rs2 aq rl) := by
  intro _
  exact ⟨rfl, of_fields _ _ (by simp [masked, Fields.split, Fields.ofAmo, amo_low])⟩

theorem amomaxD (rd : Reg) (rs1 : Reg) (rs2 : Reg) (aq : Bool) (rl : Bool) : Statement (.amomaxD rd rs1 rs2 aq rl) := by
  intro _
  exact ⟨rfl, of_fields _ _ (by simp [masked, Fields.split, Fields.ofAmo, amo_low])⟩

theorem amominuD (rd : Reg) (rs1 : Reg) (rs2 : Reg) (aq : Bool) (rl : Bool) : Statement (.amominuD rd rs1 rs2 aq rl) := by
  intro _
  exact ⟨rfl, of_fields _ _ (by simp [masked, Fields.split, Fields.ofAmo, amo_low])⟩

theorem amomaxuD (rd : Reg) (rs1 : Reg) (rs2 : Reg) (aq : Bool) (rl : Bool) : Statement (.amomaxuD rd rs1 rs2 aq rl) := by
  intro _
  exact ⟨rfl, of_fields _ _ (by simp [masked, Fields.split, Fields.ofAmo, amo_low])⟩

theorem csrrw (rd : Reg) (csr : BitVec 12) (rs1 : Reg) : Statement (.csrrw rd csr rs1) := by
  intro _
  exact ⟨rfl, of_fields _ _ (by simp [masked, Fields.split, Fields.ofI])⟩

theorem csrrs (rd : Reg) (csr : BitVec 12) (rs1 : Reg) : Statement (.csrrs rd csr rs1) := by
  intro _
  exact ⟨rfl, of_fields _ _ (by simp [masked, Fields.split, Fields.ofI])⟩

theorem csrrc (rd : Reg) (csr : BitVec 12) (rs1 : Reg) : Statement (.csrrc rd csr rs1) := by
  intro _
  exact ⟨rfl, of_fields _ _ (by simp [masked, Fields.split, Fields.ofI])⟩

theorem csrrwi (rd : Reg) (csr : BitVec 12) (uimm : BitVec 5) : Statement (.csrrwi rd csr uimm) := by
  intro _
  exact ⟨rfl, of_fields _ _ (by simp [masked, Fields.split, Fields.ofI])⟩

theorem csrrsi (rd : Reg) (csr : BitVec 12) (uimm : BitVec 5) : Statement (.csrrsi rd csr uimm) := by
  intro _
  exact ⟨rfl, of_fields _ _ (by simp [masked, Fields.split, Fields.ofI])⟩

theorem csrrci (rd : Reg) (csr : BitVec 12) (uimm : BitVec 5) : Statement (.csrrci rd csr uimm) := by
  intro _
  exact ⟨rfl, of_fields _ _ (by simp [masked, Fields.split, Fields.ofI])⟩

theorem vadd (ty : ETy) (vd : VReg) (vs1 : VReg) (vs2 : VReg) (m : Bool) (w : BitVec 2) : Statement (.vadd ty vd vs1 vs2 m w) := by
  intro _
  exact ⟨rfl, of_fields _ _ (by simp [masked, Fields.split, Fields.ofV])⟩

theorem vsub (ty : ETy) (vd : VReg) (vs1 : VReg) (vs2 : VReg) (m : Bool) (w : BitVec 2) : Statement (.vsub ty vd vs1 vs2 m w) := by
  intro _
  exact ⟨rfl, of_fields _ _ (by simp [masked, Fields.split, Fields.ofV])⟩

theorem vmul (ty : ETy) (vd : VReg) (vs1 : VReg) (vs2 : VReg) (m : Bool) (w : BitVec 2) : Statement (.vmul ty vd vs1 vs2 m w) := by
  intro _
  exact ⟨rfl, of_fields _ _ (by simp [masked, Fields.split, Fields.ofV])⟩

theorem vdiv (ty : ETy) (vd : VReg) (vs1 : VReg) (vs2 : VReg) (m : Bool) (w : BitVec 2) : Statement (.vdiv ty vd vs1 vs2 m w) := by
  intro _
  exact ⟨rfl, of_fields _ _ (by simp [masked, Fields.split, Fields.ofV])⟩

theorem vmin (ty : ETy) (vd : VReg) (vs1 : VReg) (vs2 : VReg) (m : Bool) (w : BitVec 2) : Statement (.vmin ty vd vs1 vs2 m w) := by
  intro _
  exact ⟨rfl, of_fields _ _ (by simp [masked, Fields.split, Fields.ofV])⟩

theorem vmax (ty : ETy) (vd : VReg) (vs1 : VReg) (vs2 : VReg) (m : Bool) (w : BitVec 2) : Statement (.vmax ty vd vs1 vs2 m w) := by
  intro _
  exact ⟨rfl, of_fields _ _ (by simp [masked, Fields.split, Fields.ofV])⟩

theorem vabs (ty : ETy) (vd : VReg) (vs1 : VReg) (m : Bool) (w : BitVec 2) : Statement (.vabs ty vd vs1 m w) := by
  intro _
  exact ⟨rfl, of_fields _ _ (by simp [masked, Fields.split, Fields.ofV])⟩

theorem vneg (ty : ETy) (vd : VReg) (vs1 : VReg) (m : Bool) (w : BitVec 2) : Statement (.vneg ty vd vs1 m w) := by
  intro _
  exact ⟨rfl, of_fields _ _ (by simp [masked, Fields.split, Fields.ofV])⟩

theorem vsqrt (ty : ETy) (vd : VReg) (vs1 : VReg) (m : Bool) (w : BitVec 2) : Statement (.vsqrt ty vd vs1 m w) := by
  intro _
  exact ⟨rfl, of_fields _ _ (by simp [masked, Fields.split, Fields.ofV])⟩

theorem vrecip (ty : ETy) (vd : VReg) (vs1 : VReg) (m : Bool) (w : BitVec 2) : Statement (.vrecip ty vd vs1 m w) := by
  intro _
  exact ⟨rfl, of_fields _ _ (by simp [masked, Fields.split, Fields.ofV])⟩

theorem vrsqrt (ty : ETy) (vd : VReg) (vs1 : VReg) (m : Bool) (w : BitVec 2) : Statement (.vrsqrt ty vd vs1 m w) := by
  intro _
  exact ⟨rfl, of_fields _ _ (by simp [masked, Fields.split, Fields.ofV])⟩

theorem vexp2 (ty : ETy) (vd : VReg) (vs1 : VReg) (m : Bool) (w : BitVec 2) : Statement (.vexp2 ty vd vs1 m w) := by
  intro _
  exact ⟨rfl, of_fields _ _ (by simp [masked, Fields.split, Fields.ofV])⟩

theorem vlog2 (ty : ETy) (vd : VReg) (vs1 : VReg) (m : Bool) (w : BitVec 2) : Statement (.vlog2 ty vd vs1 m w) := by
  intro _
  exact ⟨rfl, of_fields _ _ (by simp [masked, Fields.split, Fields.ofV])⟩

theorem vadds (ty : ETy) (vd : VReg) (vs1 : VReg) (vs2 : VReg) (m : Bool) (w : BitVec 2) : Statement (.vadds ty vd vs1 vs2 m w) := by
  intro _
  exact ⟨rfl, of_fields _ _ (by simp [masked, Fields.split, Fields.ofV])⟩

theorem vsubs (ty : ETy) (vd : VReg) (vs1 : VReg) (vs2 : VReg) (m : Bool) (w : BitVec 2) : Statement (.vsubs ty vd vs1 vs2 m w) := by
  intro _
  exact ⟨rfl, of_fields _ _ (by simp [masked, Fields.split, Fields.ofV])⟩

theorem vmulh (ty : ETy) (vd : VReg) (vs1 : VReg) (vs2 : VReg) (m : Bool) (w : BitVec 2) : Statement (.vmulh ty vd vs1 vs2 m w) := by
  intro _
  exact ⟨rfl, of_fields _ _ (by simp [masked, Fields.split, Fields.ofV])⟩

theorem vand (vd : VReg) (vs1 : VReg) (vs2 : VReg) (m : Bool) (w : BitVec 2) : Statement (.vand vd vs1 vs2 m w) := by
  intro _
  exact ⟨rfl, of_fields _ _ (by simp [masked, Fields.split, Fields.ofV])⟩

theorem vor (vd : VReg) (vs1 : VReg) (vs2 : VReg) (m : Bool) (w : BitVec 2) : Statement (.vor vd vs1 vs2 m w) := by
  intro _
  exact ⟨rfl, of_fields _ _ (by simp [masked, Fields.split, Fields.ofV])⟩

theorem vxor (vd : VReg) (vs1 : VReg) (vs2 : VReg) (m : Bool) (w : BitVec 2) : Statement (.vxor vd vs1 vs2 m w) := by
  intro _
  exact ⟨rfl, of_fields _ _ (by simp [masked, Fields.split, Fields.ofV])⟩

theorem vsll (ty : ETy) (vd : VReg) (vs1 : VReg) (vs2 : VReg) (m : Bool) (w : BitVec 2) : Statement (.vsll ty vd vs1 vs2 m w) := by
  intro _
  exact ⟨rfl, of_fields _ _ (by simp [masked, Fields.split, Fields.ofV])⟩

theorem vsrl (ty : ETy) (vd : VReg) (vs1 : VReg) (vs2 : VReg) (m : Bool) (w : BitVec 2) : Statement (.vsrl ty vd vs1 vs2 m w) := by
  intro _
  exact ⟨rfl, of_fields _ _ (by simp [masked, Fields.split, Fields.ofV])⟩

theorem vsra (ty : ETy) (vd : VReg) (vs1 : VReg) (vs2 : VReg) (m : Bool) (w : BitVec 2) : Statement (.vsra ty vd vs1 vs2 m w) := by
  intro _
  exact ⟨rfl, of_fields _ _ (by simp [masked, Fields.split, Fields.ofV])⟩

theorem vcmpeq (ty : ETy) (vs1 : VReg) (vs2 : VReg) (m : Bool) (w : BitVec 2) : Statement (.vcmpeq ty vs1 vs2 m w) := by
  intro _
  exact ⟨rfl, of_fields _ _ (by simp [masked, Fields.split, Fields.ofV])⟩

theorem vcmplt (ty : ETy) (vs1 : VReg) (vs2 : VReg) (m : Bool) (w : BitVec 2) : Statement (.vcmplt ty vs1 vs2 m w) := by
  intro _
  exact ⟨rfl, of_fields _ _ (by simp [masked, Fields.split, Fields.ofV])⟩

theorem vcmple (ty : ETy) (vs1 : VReg) (vs2 : VReg) (m : Bool) (w : BitVec 2) : Statement (.vcmple ty vs1 vs2 m w) := by
  intro _
  exact ⟨rfl, of_fields _ _ (by simp [masked, Fields.split, Fields.ofV])⟩

theorem vsel (ty : ETy) (vd : VReg) (vs1 : VReg) (vs2 : VReg) (m : Bool) (w : BitVec 2) : Statement (.vsel ty vd vs1 vs2 m w) := by
  intro _
  exact ⟨rfl, of_fields _ _ (by simp [masked, Fields.split, Fields.ofV])⟩

theorem vperm (ty : ETy) (vd : VReg) (vs1 : VReg) (vs2 : VReg) (m : Bool) (w : BitVec 2) : Statement (.vperm ty vd vs1 vs2 m w) := by
  intro _
  exact ⟨rfl, of_fields _ _ (by simp [masked, Fields.split, Fields.ofV])⟩

theorem vslide (ty : ETy) (vd : VReg) (vs1 : VReg) (rs : Reg) (m : Bool) (w : BitVec 2) : Statement (.vslide ty vd vs1 rs m w) := by
  intro _
  exact ⟨rfl, of_fields _ _ (by simp [masked, Fields.split, Fields.ofV])⟩

theorem vbcast (ty : ETy) (vd : VReg) (rs : Reg) (m : Bool) (w : BitVec 2) : Statement (.vbcast ty vd rs m w) := by
  intro _
  exact ⟨rfl, of_fields _ _ (by simp [masked, Fields.split, Fields.ofV])⟩

theorem vmvx (ty : ETy) (rd : Reg) (vs1 : VReg) (rs : Reg) (w : BitVec 2) : Statement (.vmvx ty rd vs1 rs w) := by
  intro _
  exact ⟨rfl, of_fields _ _ (by simp [masked, Fields.split, Fields.ofV, bit])⟩

theorem vid (ty : ETy) (vd : VReg) (m : Bool) (w : BitVec 2) : Statement (.vid ty vd m w) := by
  intro _
  exact ⟨rfl, of_fields _ _ (by simp [masked, Fields.split, Fields.ofV])⟩

theorem vredsum (ty : ETy) (vd : VReg) (vs1 : VReg) (m : Bool) (w : BitVec 2) : Statement (.vredsum ty vd vs1 m w) := by
  intro _
  exact ⟨rfl, of_fields _ _ (by simp [masked, Fields.split, Fields.ofV])⟩

theorem vredmax (ty : ETy) (vd : VReg) (vs1 : VReg) (m : Bool) (w : BitVec 2) : Statement (.vredmax ty vd vs1 m w) := by
  intro _
  exact ⟨rfl, of_fields _ _ (by simp [masked, Fields.split, Fields.ofV])⟩

theorem vredmin (ty : ETy) (vd : VReg) (vs1 : VReg) (m : Bool) (w : BitVec 2) : Statement (.vredmin ty vd vs1 m w) := by
  intro _
  exact ⟨rfl, of_fields _ _ (by simp [masked, Fields.split, Fields.ofV])⟩

theorem vdot (ty : ETy) (vd : VReg) (vs1 : VReg) (vs2 : VReg) (m : Bool) (w : BitVec 2) : Statement (.vdot ty vd vs1 vs2 m w) := by
  intro _
  exact ⟨rfl, of_fields _ _ (by simp [masked, Fields.split, Fields.ofV])⟩

theorem vcvt (vd : VReg) (vs1 : VReg) (t : Tag) (m : Bool) (w : BitVec 2) : Statement (.vcvt vd vs1 t m w) := by
  intro _
  exact ⟨rfl, of_fields _ _ (by simp [masked, Fields.split, Fields.ofV, tag_bits])⟩

theorem vretag (vd : VReg) (vs1 : VReg) (t : Tag) (w : BitVec 2) : Statement (.vretag vd vs1 t w) := by
  intro _
  exact ⟨rfl, of_fields _ _ (by simp [masked, Fields.split, Fields.ofV, tag_bits, bit])⟩

theorem vtag (rd : Reg) (vs1 : VReg) (w : BitVec 2) : Statement (.vtag rd vs1 w) := by
  intro _
  exact ⟨rfl, of_fields _ _ (by simp [masked, Fields.split, Fields.ofV, bit])⟩

theorem vqnt (vd : VReg) (vs1 : VReg) (t : Tag) (w : BitVec 2) : Statement (.vqnt vd vs1 t w) := by
  intro _
  exact ⟨rfl, of_fields _ _ (by simp [masked, Fields.split, Fields.ofV, tag_bits, bit])⟩

theorem vdeq (vd : VReg) (vs1 : VReg) (t : Tag) (w : BitVec 2) : Statement (.vdeq vd vs1 t w) := by
  intro _
  exact ⟨rfl, of_fields _ _ (by simp [masked, Fields.split, Fields.ofV, tag_bits, bit])⟩

theorem vmvv (vd : VReg) (vs1 : VReg) (m : Bool) (w : BitVec 2) : Statement (.vmvv vd vs1 m w) := by
  intro _
  exact ⟨rfl, of_fields _ _ (by simp [masked, Fields.split, Fields.ofV])⟩

theorem vsetm (ty : ETy) (vs1 : VReg) (w : BitVec 2) : Statement (.vsetm ty vs1 w) := by
  intro _
  exact ⟨rfl, of_fields _ _ (by simp [masked, Fields.split, Fields.ofV, bit])⟩

theorem vgetm (ty : ETy) (vd : VReg) (w : BitVec 2) : Statement (.vgetm ty vd w) := by
  intro _
  exact ⟨rfl, of_fields _ _ (by simp [masked, Fields.split, Fields.ofV, bit])⟩

theorem vfma (ty : ETy) (vd : VReg) (va : VReg) (vb : VReg) (vc : VReg) (w : BitVec 2) : Statement (.vfma ty vd va vb vc w) := by
  intro _
  exact ⟨rfl, of_fields _ _ (by simp [masked, Fields.split, Fields.of4])⟩

theorem vfms (ty : ETy) (vd : VReg) (va : VReg) (vb : VReg) (vc : VReg) (w : BitVec 2) : Statement (.vfms ty vd va vb vc w) := by
  intro _
  exact ⟨rfl, of_fields _ _ (by simp [masked, Fields.split, Fields.of4])⟩

theorem vfnma (ty : ETy) (vd : VReg) (va : VReg) (vb : VReg) (vc : VReg) (w : BitVec 2) : Statement (.vfnma ty vd va vb vc w) := by
  intro _
  exact ⟨rfl, of_fields _ _ (by simp [masked, Fields.split, Fields.of4])⟩

theorem vfnms (ty : ETy) (vd : VReg) (va : VReg) (vb : VReg) (vc : VReg) (w : BitVec 2) : Statement (.vfnms ty vd va vb vc w) := by
  intro _
  exact ⟨rfl, of_fields _ _ (by simp [masked, Fields.split, Fields.of4])⟩

theorem vle (ty : ETy) (vd : VReg) (rs1 : Reg) (off : BitVec 9) : Statement (.vle ty vd rs1 off) := by
  intro _
  exact ⟨rfl, of_fields _ _ (by simp [masked, Fields.split, Fields.ofUnit, unit_bits])⟩

theorem vse (ty : ETy) (vs : VReg) (rs1 : Reg) (off : BitVec 9) : Statement (.vse ty vs rs1 off) := by
  intro _
  exact ⟨rfl, of_fields _ _ (by simp [masked, Fields.split, Fields.ofUnit, unit_bits])⟩

theorem vlds (ty : ETy) (vd : VReg) (rs1 : Reg) (rs2 : Reg) (m : Bool) : Statement (.vlds ty vd rs1 rs2 m) := by
  intro _
  exact ⟨rfl, of_fields _ _ (by simp [masked, Fields.split, Fields.ofV])⟩

theorem vsds (ty : ETy) (vs : VReg) (rs1 : Reg) (rs2 : Reg) (m : Bool) : Statement (.vsds ty vs rs1 rs2 m) := by
  intro _
  exact ⟨rfl, of_fields _ _ (by simp [masked, Fields.split, Fields.ofV])⟩

theorem vlx (ty : ETy) (vd : VReg) (rs1 : Reg) (vs2 : VReg) (m : Bool) : Statement (.vlx ty vd rs1 vs2 m) := by
  intro _
  exact ⟨rfl, of_fields _ _ (by simp [masked, Fields.split, Fields.ofV])⟩

theorem vsx (ty : ETy) (vs : VReg) (rs1 : Reg) (vs2 : VReg) (m : Bool) : Statement (.vsx ty vs rs1 vs2 m) := by
  intro _
  exact ⟨rfl, of_fields _ _ (by simp [masked, Fields.split, Fields.ofV])⟩

theorem rep (len1 : BitVec 4) (rs1 : Reg) (stride : BitVec 5) (base : BitVec 5) : Statement (.rep len1 rs1 stride base) := by
  intro _
  exact ⟨rfl, of_fields _ _ (by simp [masked, Fields.split])⟩

theorem qpush (port : BitVec 5) (vs : VReg) (h : Bool) : Statement (.qpush port vs h) := by
  intro _
  exact ⟨rfl, of_fields _ _ (by simp [masked, Fields.split])⟩

theorem qput (port : BitVec 5) (rs : Reg) : Statement (.qput port rs) := by
  intro _
  exact ⟨rfl, of_fields _ _ (by simp [masked, Fields.split, Fields.ofR])⟩

theorem qpop (rd : Reg) (port : BitVec 5) : Statement (.qpop rd port) := by
  intro _
  exact ⟨rfl, of_fields _ _ (by simp [masked, Fields.split, Fields.ofR])⟩

theorem recv (vd : VReg) (q : BitVec 5) : Statement (.recv vd q) := by
  intro _
  exact ⟨rfl, of_fields _ _ (by simp [masked, Fields.split, Fields.ofR])⟩

theorem peek (vd : VReg) (q : BitVec 5) : Statement (.peek vd q) := by
  intro _
  exact ⟨rfl, of_fields _ _ (by simp [masked, Fields.split, Fields.ofR])⟩

theorem wait (rd : Reg) (rs1 : Reg) : Statement (.wait rd rs1) := by
  intro _
  exact ⟨rfl, of_fields _ _ (by simp [masked, Fields.split, Fields.ofR])⟩

theorem qmake (q : BitVec 5) (rs1 : Reg) (rs2 : Reg) : Statement (.qmake q rs1 rs2) := by
  intro _
  exact ⟨rfl, of_fields _ _ (by simp [masked, Fields.split, Fields.ofR])⟩

theorem qdrop (q : BitVec 5) : Statement (.qdrop q) := by
  intro _
  exact ⟨rfl, of_fields _ _ (by simp [masked, Fields.split, Fields.ofR])⟩

theorem send (rs1 : Reg) (vs : VReg) : Statement (.send rs1 vs) := by
  intro _
  exact ⟨rfl, of_fields _ _ (by simp [masked, Fields.split, Fields.ofR])⟩

theorem rput (q : BitVec 5) (rs1 : Reg) (vs : VReg) : Statement (.rput q rs1 vs) := by
  intro _
  exact ⟨rfl, of_fields _ _ (by simp [masked, Fields.split, Fields.ofR])⟩

theorem slook (rd : Reg) (rs1 : Reg) : Statement (.slook rd rs1) := by
  intro _
  exact ⟨rfl, of_fields _ _ (by simp [masked, Fields.split, Fields.ofR])⟩

theorem sinst (rs1 : Reg) (rs2 : Reg) : Statement (.sinst rs1 rs2) := by
  intro _
  exact ⟨rfl, of_fields _ _ (by simp [masked, Fields.split, Fields.ofR])⟩

theorem sinv (rs1 : Reg) : Statement (.sinv rs1) := by
  intro _
  exact ⟨rfl, of_fields _ _ (by simp [masked, Fields.split, Fields.ofR])⟩

theorem sclean (rs1 : Reg) : Statement (.sclean rs1) := by
  intro _
  exact ⟨rfl, of_fields _ _ (by simp [masked, Fields.split, Fields.ofR])⟩

theorem mtcfg (mt : BitVec 5) (rs1 : Reg) (rs2 : Reg) : Statement (.mtcfg mt rs1 rs2) := by
  intro _
  exact ⟨rfl, of_fields _ _ (by simp [masked, Fields.split, Fields.ofR])⟩

theorem mtpack (vd : VReg) (mt : BitVec 5) (h : Bool) : Statement (.mtpack vd mt h) := by
  intro _
  exact ⟨rfl, of_fields _ _ (by simp [masked, Fields.split])⟩

theorem phaseC (s : Scope) : Statement (.phaseC s) := by
  intro _
  exact ⟨rfl, of_fields _ _ (by simp [masked, Fields.split, Fields.ofR, scope_bits])⟩

theorem phaseO (s : Scope) : Statement (.phaseO s) := by
  intro _
  exact ⟨rfl, of_fields _ _ (by simp [masked, Fields.split, Fields.ofR, scope_bits])⟩

theorem phaseCo (s : Scope) : Statement (.phaseCo s) := by
  intro _
  exact ⟨rfl, of_fields _ _ (by simp [masked, Fields.split, Fields.ofR, scope_bits])⟩

theorem sync (rd : Reg) : Statement (.sync rd) := by
  intro _
  exact ⟨rfl, of_fields _ _ (by simp [masked, Fields.split, Fields.ofR])⟩

theorem hred (rd : Reg) (rs1 : Reg) (op : RedOp) : Statement (.hred rd rs1 op) := by
  intro _
  exact ⟨rfl, of_fields _ _ (by simp [masked, Fields.split, Fields.ofR, op_bits])⟩

theorem emit (vs : VReg) (rs1 : Reg) : Statement (.emit vs rs1) := by
  intro _
  exact ⟨rfl, of_fields _ _ (by simp [masked, Fields.split, Fields.ofR])⟩

theorem acq (rd : Reg) (rs1 : Reg) : Statement (.acq rd rs1) := by
  intro _
  exact ⟨rfl, of_fields _ _ (by simp [masked, Fields.split, Fields.ofR])⟩

theorem acqTry (rd : Reg) (rs1 : Reg) : Statement (.acqTry rd rs1) := by
  intro _
  exact ⟨rfl, of_fields _ _ (by simp [masked, Fields.split, Fields.ofR])⟩

theorem rel (rs1 : Reg) : Statement (.rel rs1) := by
  intro _
  exact ⟨rfl, of_fields _ _ (by simp [masked, Fields.split, Fields.ofR])⟩

theorem claim (rs1 : Reg) : Statement (.claim rs1) := by
  intro _
  exact ⟨rfl, of_fields _ _ (by simp [masked, Fields.split, Fields.ofR])⟩

theorem ldS (rd : Reg) (rs1 : Reg) (imm : BitVec 10) (s : Scope) : Statement (.ldS rd rs1 imm s) := by
  intro _
  exact ⟨rfl, of_fields _ _ (by simp [masked, Fields.split, Fields.ofStrongLoad])⟩

theorem lwS (rd : Reg) (rs1 : Reg) (imm : BitVec 10) (s : Scope) : Statement (.lwS rd rs1 imm s) := by
  intro _
  exact ⟨rfl, of_fields _ _ (by simp [masked, Fields.split, Fields.ofStrongLoad])⟩

theorem sdS (rs1 : Reg) (rs2 : Reg) (imm : BitVec 10) (s : Scope) : Statement (.sdS rs1 rs2 imm s) := by
  intro _
  exact ⟨rfl, of_fields _ _ (by simp [masked, Fields.split, Fields.ofStrongStore])⟩

theorem swS (rs1 : Reg) (rs2 : Reg) (imm : BitVec 10) (s : Scope) : Statement (.swS rs1 rs2 imm s) := by
  intro _
  exact ⟨rfl, of_fields _ _ (by simp [masked, Fields.split, Fields.ofStrongStore])⟩

theorem offer (rd : Reg) (rs1 : Reg) (rs2 : Reg) (rs3 : Reg) (aq : Bool) (rl : Bool) : Statement (.offer rd rs1 rs2 rs3 aq rl) := by
  intro _
  exact ⟨rfl, of_fields _ _ (by simp [masked, Fields.split, Fields.of4, cell_bits, cell_sub])⟩

theorem cread (rd : Reg) (rs1 : Reg) (rs2 : Reg) (aq : Bool) (rl : Bool) : Statement (.cread rd rs1 rs2 aq rl) := by
  intro _
  exact ⟨rfl, of_fields _ _ (by simp [masked, Fields.split, Fields.of4, cell_bits])⟩

theorem cwait (rd : Reg) (rs1 : Reg) (rs2 : Reg) (aq : Bool) (rl : Bool) : Statement (.cwait rd rs1 rs2 aq rl) := by
  intro _
  exact ⟨rfl, of_fields _ _ (by simp [masked, Fields.split, Fields.of4, cell_bits])⟩

theorem cretire (rs1 : Reg) (rs2 : Reg) (aq : Bool) (rl : Bool) : Statement (.cretire rs1 rs2 aq rl) := by
  intro _
  exact ⟨rfl, of_fields _ _ (by simp [masked, Fields.split, Fields.of4, cell_bits])⟩

theorem scall (rs1 : Reg) : Statement (.scall rs1) := by
  intro _
  exact ⟨rfl, of_fields _ _ (by simp [masked, Fields.split, Fields.ofR])⟩

theorem mprobe (rd : Reg) (rs1 : Reg) : Statement (.mprobe rd rs1) := by
  intro _
  exact ⟨rfl, of_fields _ _ (by simp [masked, Fields.split, Fields.ofR])⟩

theorem mhint (rs1 : Reg) (rs2 : Reg) : Statement (.mhint rs1 rs2) := by
  intro _
  exact ⟨rfl, of_fields _ _ (by simp [masked, Fields.split, Fields.ofR])⟩

theorem launch (rd : Reg) (rs1 : Reg) : Statement (.launch rd rs1) := by
  intro _
  exact ⟨rfl, of_fields _ _ (by simp [masked, Fields.split, Fields.ofR])⟩

theorem frec (rd : Reg) (rs1 : Reg) (rs2 : Reg) : Statement (.frec rd rs1 rs2) := by
  intro _
  exact ⟨rfl, of_fields _ _ (by simp [masked, Fields.split, Fields.ofR])⟩

theorem monenter (rs1 : Reg) : Statement (.monenter rs1) := by
  intro _
  exact ⟨rfl, of_fields _ _ (by simp [masked, Fields.split, Fields.ofR])⟩

theorem monkey (rs1 : Reg) (rs2 : Reg) : Statement (.monkey rs1 rs2) := by
  intro _
  exact ⟨rfl, of_fields _ _ (by simp [masked, Fields.split, Fields.ofR])⟩

theorem monseal (rs1 : Reg) (rs2 : Reg) : Statement (.monseal rs1 rs2) := by
  intro _
  exact ⟨rfl, of_fields _ _ (by simp [masked, Fields.split, Fields.ofR])⟩

theorem mzero (c : Command) : Statement (.mzero c) := rfl

theorem mloadw (c : Command) : Statement (.mloadw c) := rfl

theorem mma (c : Command) : Statement (.mma c) := rfl

theorem mdrain (c : Command) : Statement (.mdrain c) := rfl

theorem mend (c : Command) : Statement (.mend c) := rfl

theorem cpy (c : Command) : Statement (.cpy c) := rfl

theorem cpyt (c : Command) : Statement (.cpyt c) := rfl

theorem fill (c : Command) : Statement (.fill c) := rfl

theorem sfill (c : Command) : Statement (.sfill c) := rfl

theorem sevict (c : Command) : Statement (.sevict c) := rfl

theorem pref (c : Command) : Statement (.pref c) := rfl

theorem migr (c : Command) : Statement (.migr c) := rfl

theorem gather (c : Command) : Statement (.gather c) := rfl

theorem scatter (c : Command) : Statement (.scatter c) := rfl

theorem ship (c : Command) : Statement (.ship c) := rfl

theorem tabload (c : Command) : Statement (.tabload c) := rfl

theorem callred (c : Command) : Statement (.callred c) := rfl

theorem credsc (c : Command) : Statement (.credsc c) := rfl

theorem callgath (c : Command) : Statement (.callgath c) := rfl

theorem cbcast (c : Command) : Statement (.cbcast c) := rfl

theorem cxchg (c : Command) : Statement (.cxchg c) := rfl

theorem nsend (c : Command) : Statement (.nsend c) := rfl

theorem nwrite (c : Command) : Statement (.nwrite c) := rfl

theorem nread (c : Command) : Statement (.nread c) := rfl

theorem npost (c : Command) : Statement (.npost c) := rfl

theorem acqGrant (cluster : Nat) : Statement (.acqGrant cluster) := rfl

theorem allowanceRequest (src : Nat) (dst : Nat) (q : Nat) : Statement (.allowanceRequest src dst q) := rfl

theorem allowanceGrant (src : Nat) (dst : Nat) (q : Nat) (n : Nat) : Statement (.allowanceGrant src dst q n) := rfl

theorem allowanceReturn (src : Nat) (dst : Nat) (q : Nat) : Statement (.allowanceReturn src dst q) := rfl

theorem allowanceReclaim (dst : Nat) (q : Nat) : Statement (.allowanceReclaim dst q) := rfl

theorem queueEntryArrival (core : Nat) (q : Nat) (e : VBits) (kind : ArrivalKind) : Statement (.queueEntryArrival core q e kind) := rfl

theorem exchange (launch : Nat) : Statement (.exchange launch) := rfl

theorem headcountSweep (launch : Nat) : Statement (.headcountSweep launch) := rfl

theorem launchEnd (launch : Nat) : Statement (.launchEnd launch) := rfl

theorem taskPlacement (launch : Nat) : Statement (.taskPlacement launch) := rfl

theorem initialTasks (launch : Nat) : Statement (.initialTasks launch) := rfl

theorem partyRetire (party : Nat) : Statement (.partyRetire party) := rfl

theorem saveComplete (party : Nat) : Statement (.saveComplete party) := rfl

theorem restoreComplete (party : Nat) : Statement (.restoreComplete party) := rfl

theorem cellPurgeComplete (pa : Nat) : Statement (.cellPurgeComplete pa) := rfl

theorem commandCompletion (c : Command) (status : BitVec 16) (word1 : Word) (payload : BitVec 128) : Statement (.commandCompletion c status word1 payload) := rfl

theorem migrRoundDone (dirty : Bool) : Statement (.migrRoundDone dirty) := rfl

theorem collectiveMatch (launch : Nat) (rank0 : Nat) (nrank : Nat) (seq : Nat) : Statement (.collectiveMatch launch rank0 nrank seq) := rfl

theorem shootdownDone (h : Nat) : Statement (.shootdownDone h) := rfl

theorem batchCommit (iss : Issuer) (pa : BitVec 48) (n : Nat) : Statement (.batchCommit iss pa n) := rfl

theorem revocationCommit (frame : Nat) : Statement (.revocationCommit frame) := rfl

theorem rotationComplete (ctx : BitVec 16) : Statement (.rotationComplete ctx) := rfl

theorem oldKeyRetire (ctx : BitVec 16) : Statement (.oldKeyRetire ctx) := rfl

theorem rotationRequest (core : Nat) : Statement (.rotationRequest core) := rfl

theorem streamStop (core : Nat) : Statement (.streamStop core) := rfl

theorem leaseGrant (cluster : Nat) : Statement (.leaseGrant cluster) := rfl

theorem joinStart (h : Nat) (before : Nat) : Statement (.joinStart h before) := rfl

theorem wake (h : Nat) : Statement (.wake h) := rfl

theorem illegalInstruction (word : BitVec 32) : Statement (.illegalInstruction word) := rfl

theorem sTimer (h : Nat) : Statement (.sTimer h) := rfl

theorem mTimer (h : Nat) : Statement (.mTimer h) := rfl

theorem msip (h : Nat) (value : Bool) : Statement (.msip h value) := rfl

theorem ssip (h : Nat) (value : Bool) : Statement (.ssip h value) := rfl

theorem sdReq (h : Nat) (v : Word) : Statement (.sdReq h v) := rfl

theorem fnPost (h : Nat) (v : Word) : Statement (.fnPost h v) := rfl

theorem scReply (h : Nat) (v : Word) : Statement (.scReply h v) := rfl

theorem preReqPreempt (h : Nat) (v : Word) : Statement (.preReqPreempt h v) := rfl

theorem preReqResume (h : Nat) (v : Word) : Statement (.preReqResume h v) := rfl

theorem preReqKill (h : Nat) (v : Word) : Statement (.preReqKill h v) := rfl

theorem rpGo (c : Nat) (v : Word) : Statement (.rpGo c v) := rfl

theorem firmwareRelease (frame : Nat) : Statement (.firmwareRelease frame) := rfl

theorem recallDeadlineExpiry (frame : Nat) : Statement (.recallDeadlineExpiry frame) := rfl

theorem attReq (v : Word) : Statement (.attReq v) := rfl

theorem dbgStopNext (h : Nat) (v : Word) : Statement (.dbgStopNext h v) := rfl

theorem dbgStopAt (h : Nat) (v : Word) : Statement (.dbgStopAt h v) := rfl

theorem dbgRelease (h : Nat) (v : Word) : Statement (.dbgRelease h v) := rfl

theorem dbgImmediateStop (h : Nat) (v : Word) : Statement (.dbgImmediateStop h v) := rfl

theorem dbgPair (h : Nat) (v : Word) : Statement (.dbgPair h v) := rfl

theorem dbgUnpair (h : Nat) (v : Word) : Statement (.dbgUnpair h v) := rfl

theorem rkctlGo (h : Nat) : Statement (.rkctlGo h) := rfl

theorem registerWrite (who : Agent) (pa : BitVec 48) (size : Nat) (v : Word) : Statement (.registerWrite who pa size v) := rfl

theorem nsendTimeout (c : Command) : Statement (.nsendTimeout c) := rfl

theorem leaseIdleExpiry (cluster : Nat) : Statement (.leaseIdleExpiry cluster) := rfl

theorem rampWindow (cluster : Nat) (demand : Nat) : Statement (.rampWindow cluster demand) := rfl

theorem intervalBoundary (die : Nat) (unspent : List (Nat × Nat)) (waiting : List (BitVec 16)) : Statement (.intervalBoundary die unspent waiting) := rfl

theorem meterUpdate (acts : List Activity) (energy : Nat) (floor : Nat) : Statement (.meterUpdate acts energy floor) := rfl

theorem getSensorReading (ctx : BitVec 16) (counter : Nat) : Statement (.getSensorReading ctx counter) := rfl

theorem cwaitRetry (h : Nat) : Statement (.cwaitRetry h) := rfl

theorem acqUrgent (cluster : Nat) : Statement (.acqUrgent cluster) := rfl

theorem affinityPatienceExpiry (launch : Nat) : Statement (.affinityPatienceExpiry launch) := rfl

theorem occupancySample (launch : Nat) : Statement (.occupancySample launch) := rfl

theorem saveDeadlineExpiry (party : Nat) : Statement (.saveDeadlineExpiry party) := rfl

theorem watchdogExpiry (ctx : BitVec 16) : Statement (.watchdogExpiry ctx) := rfl

theorem joinTimeout (h : Nat) : Statement (.joinTimeout h) := rfl

theorem networkPacketArrival (p : Packet) : Statement (.networkPacketArrival p) := rfl

theorem peerMemoryRequest (port : Nat) (r : PeerRequest) : Statement (.peerMemoryRequest port r) := rfl

theorem pcieLoadCompletion (h : Nat) (value : Option Word) : Statement (.pcieLoadCompletion h value) := rfl

theorem pcieLoadTimeout (h : Nat) : Statement (.pcieLoadTimeout h) := rfl

theorem virtioNotification (dev : Nat) (queue : Nat) (ok : Bool) : Statement (.virtioNotification dev queue ok) := rfl

theorem flitCrcFailure (link : Nat) : Statement (.flitCrcFailure link) := rfl

theorem linkFailure (link : Nat) : Statement (.linkFailure link) := rfl

theorem linkRecovery (link : Nat) : Statement (.linkRecovery link) := rfl

theorem laneFailure (link : Nat) : Statement (.laneFailure link) := rfl

theorem deviceLoss (d : Nat) (lostStores : List Nat) (outstanding : List Outstanding) : Statement (.deviceLoss d lostStores outstanding) := rfl

theorem thermalFault (persists : Bool) : Statement (.thermalFault persists) := rfl

theorem portLinkDown (p : Nat) : Statement (.portLinkDown p) := rfl

theorem portLinkUp (p : Nat) (speed : BitVec 8) : Statement (.portLinkUp p speed) := rfl

theorem deviceStatusWrite (dev : Nat) (v : BitVec 8) (packed : Bool) : Statement (.deviceStatusWrite dev v packed) := rfl

theorem suspClear (k : Kernel) : Statement (.suspClear k) := rfl

theorem domainWindowAccess (a : DomainAccess) : Statement (.domainWindowAccess a) := rfl

theorem dhcpv6Reply (addr : BitVec 128) (bootUrl : Bool) : Statement (.dhcpv6Reply addr bootUrl) := rfl

theorem recoveryImageReceived (verified : Bool) : Statement (.recoveryImageReceived verified) := rfl

theorem ecall : Statement (.ecall) := by
  intro _
  exact ⟨rfl, of_fields _ _ (by simp [masked, Fields.split, Fields.ofR])⟩

theorem ebreak : Statement (.ebreak) := by
  intro _
  exact ⟨rfl, of_fields _ _ (by simp [masked, Fields.split, Fields.ofR])⟩

theorem fenceI : Statement (.fenceI) := by
  intro _
  exact ⟨rfl, of_fields _ _ (by simp [masked, Fields.split, Fields.ofR])⟩

theorem sret : Statement (.sret) := by
  intro _
  exact ⟨rfl, of_fields _ _ (by simp [masked, Fields.split, Fields.ofR])⟩

theorem mret : Statement (.mret) := by
  intro _
  exact ⟨rfl, of_fields _ _ (by simp [masked, Fields.split, Fields.ofR])⟩

theorem wfi : Statement (.wfi) := by
  intro _
  exact ⟨rfl, of_fields _ _ (by simp [masked, Fields.split, Fields.ofR])⟩

theorem taskDone : Statement (.taskDone) := by
  intro _
  exact ⟨rfl, of_fields _ _ (by simp [masked, Fields.split, Fields.ofR])⟩

theorem upret : Statement (.upret) := by
  intro _
  exact ⟨rfl, of_fields _ _ (by simp [masked, Fields.split, Fields.ofR])⟩

theorem monleave : Statement (.monleave) := by
  intro _
  exact ⟨rfl, of_fields _ _ (by simp [masked, Fields.split, Fields.ofR])⟩

theorem interruptEntry : Statement (.interruptEntry) := rfl

theorem attestationReportDone : Statement (.attestationReportDone) := rfl

theorem faultQueuePost : Statement (.faultQueuePost) := rfl

theorem packageReset : Statement (.packageReset) := rfl

theorem recoveryFetchRetry : Statement (.recoveryFetchRetry) := rfl

theorem dhcpv6Retry : Statement (.dhcpv6Retry) := rfl

theorem announcementRetry : Statement (.announcementRetry) := rfl

theorem alarm : Statement (.alarm) := rfl

end Encoding
end Sys2Proof.Laws
end

