-- ==== Sys2Proof/Tests/Slice0.lean ====
section
/-! SUPPORT. Tests: ill-formed terms that are refused, words that decode as the spec's encodings say, and for each statement
states and operands that meet its hypotheses, with what one step gives there. The expected values are the spec's. -/

/-- A state with bytes of memory as given. -/
def Sys2Proof.Machine.State.fill (s : Sys2Proof.Machine.State) (a : Nat) (bs : List Sys2Proof.Byte) : Sys2Proof.Machine.State :=
  { s with mem := Sys2Proof.Machine.Memory.write s.mem a bs }

namespace Sys2Proof.Tests
set_option Elab.async false
open Sys2Proof Sys2Proof.Machine Sys2Proof.Safety

/-! ### Ill-formed terms (R48): one for each check of WellFormed, which the check refuses -/

theorem test_ill_formed_float_only : ∀ i ∈ [Instr.vdiv .i32 1 2 3 false 0, .vsqrt .i8 1 2 false 0, .vrecip .i16 1 2 false 0,
    .vrsqrt .i64 1 2 false 0, .vexp2 .i32 1 2 false 0, .vlog2 .i32 1 2 false 0, .vfma .i32 1 2 3 4 0, .vfms .i8 1 2 3 4 0,
    .vfnma .i16 1 2 3 4 0, .vfnms .i64 1 2 3 4 0], i.wf = false := by decide

theorem test_ill_formed_integer_only : ∀ i ∈ [Instr.vadds .f32 1 2 3 false 0, .vsubs .bf16 1 2 3 false 0, .vmulh .f16 1 2 3 false 0,
    .vsll .f64 1 2 3 false 0, .vsrl .f32 1 2 3 false 0, .vsra .f32 1 2 3 false 0, .vid .f32 1 false 0], i.wf = false := by decide

theorem test_ill_formed_tags : ∀ i ∈ [Instr.vcvt 1 2 .raw false 0, .vcvt 1 2 .bx8p true 0, .vcvt 1 2 .bx4p true 0, .vqnt 1 2 .f32 0,
    .vqnt 1 2 .raw 0, .vdeq 1 2 .f64 0, .vdeq 1 2 .i32 0], i.wf = false := by decide

theorem test_ill_formed_numbers : ∀ i ∈ [Instr.qpush 5 1 false, .qput 5 1, .qpop 1 5, .recv 1 8, .peek 1 8, .qmake 3 1 2, .qmake 8 1 2,
    .qdrop 3, .qdrop 8, .rput 3 1 2, .rput 8 1 2, .mtcfg 8 1 2, .mtpack 1 8 false], i.wf = false := by decide

theorem test_ill_formed_harts : ∀ i ∈ [Instr.sTimer 4160, .mTimer 4160, .msip 4160 true, .ssip 4160 true, .rkctlGo 4160, .cwaitRetry 4160,
    .wake 4160, .pcieLoadCompletion 4160 none, .pcieLoadTimeout 4160, .sdReq 64 0, .shootdownDone 64, .fnPost 64 0, .scReply 64 0,
    .joinStart 64 0, .joinTimeout 64, .rpGo 32 0, .batchCommit .host 0 64], i.wf = false := by decide

theorem test_ill_formed_requests : ∀ i ∈ [Instr.preReqPreempt 64 0, .preReqPreempt 0 0x10000, .preReqResume 64 0x10000, .preReqResume 0 0,
    .preReqKill 64 0x20000, .preReqKill 0 0, .dbgStopNext 64 0, .dbgStopNext 0 0x10000, .dbgStopAt 64 0x10000, .dbgStopAt 0 0,
    .dbgRelease 64 0x20000, .dbgRelease 0 0, .dbgImmediateStop 64 0x30000, .dbgImmediateStop 0 0, .dbgPair 64 0x40000, .dbgPair 0 0,
    .dbgUnpair 64 0x50000, .dbgUnpair 0 0], i.wf = false := by decide

theorem test_ill_formed_units : ∀ i ∈ [Instr.registerWrite .peer 0 2 0, .leaseGrant 64, .leaseIdleExpiry 64, .rampWindow 64 0,
    .acqGrant 64, .acqUrgent 64, .intervalBoundary 4 [] [], .getSensorReading 0 14, .peerMemoryRequest 8 (.atomic 0),
    .virtioNotification 3 0 true, .deviceStatusWrite 3 0 true, .flitCrcFailure 32, .linkFailure 32, .linkRecovery 32, .laneFailure 32,
    .deviceLoss 128 [] [], .portLinkDown 8, .portLinkUp 8 0], i.wf = false := by decide

/-- A pusher: hart 0, at a port. -/
def pusherAt (port : Nat) : Pusher :=
  { hart := 0, port := port, root := 0, ctx := 0, ctxid := 0, mode := .s, kfaultq := 0, rank := 0, party := none, launch := none,
    pmp := Pmp.reset, near := false }

theorem test_ill_formed_commands : ∀ c ∈ [(⟨0xFF, pusherAt 0, 0, 0⟩ : Command), ⟨0, pusherAt 5, 0, 0⟩], ∀ i ∈ commandForms c, i.wf = false := by decide

theorem test_ill_formed_port : ∀ k ∈ List.range 256, ∀ i ∈ commandForms ⟨BitVec.ofNat 256 k, pusherAt 5, 0, 0⟩, i.wf = false := by decide +kernel

/-! ### Decoding: words written out from the encoding tables -/

/-- R50 and the RISC-V base formats. -/
theorem test_decode_scalar : ∀ p ∈ ([(0x123452B7, .lui 5 0x12345), (0x00001517, .auipc 10 1), (0xFFDFF06F, .jal 0 0xFFFFE),
    (0x00008067, .jalr 0 1 0), (0xFE209EE3, .bne 1 2 0xFFE), (0x0020C463, .blt 1 2 4), (0x0020D463, .bge 1 2 4), (0x0020E463, .bltu 1 2 4),
    (0x0020F463, .bgeu 1 2 4), (0xFFF50283, .lb 5 10 0xFFF), (0x00155283, .lhu 5 10 1), (0xFE532E23, .sw 6 5 0xFFC),
    (0xFFF2C293, .xori 5 5 0xFFF), (0x40A2D293, .srai 5 5 10), (0x4015D51B, .sraiw 10 11 1), (0x40C5853B, .subw 10 11 12),
    (0x02C58533, .mul 10 11 12), (0x02C5C53B, .divw 10 11 12), (0x02C5F53B, .remuw 10 11 12)] : List (BitVec 32 × Instr)),
    decodeWord p.1 = .ok p.2 := by decide

/-- R50: the AMO, CSR and SYSTEM words; `amomaxu.w zero, t5, (a4)` is written in chapter 20's program. -/
theorem test_decode_system : ∀ p ∈ ([(0xE1E7202F, .amomaxuW 0 14 30 false false), (0x0CC5A52F, .amoswapW 10 11 12 true false),
    (0x80B02E73, .csrrs 28 0x80B 0), (0x30046573, .csrrsi 10 0x300 8), (0x10200073, .sret), (0x00100073, .ebreak)] : List (BitVec 32 × Instr)),
    decodeWord p.1 = .ok p.2 := by decide

/-- Chapter 12's programs: phases and strong accesses; and chapter 13's: cells. -/
theorem test_decode_phases_cells : ∀ p ∈ ([(0x0010002B, .phaseC .group), (0x0020002B, .phaseC .device), (0x0030002B, .phaseC .system),
    (0x0210002B, .phaseO .group), (0x0C00002B, .taskDone), (0x305703DB, .offer 7 14 5 6 false false), (0x0667005B, .cretire 14 6 false false),
    (0x026703DB, .cread 7 14 6 false false)] : List (BitVec 32 × Instr)), decodeWord p.1 = .ok p.2 := by decide

/-- Chapter 20's programs: kernel words, claims, formats, ports. -/
theorem test_decode_programs : ∀ p ∈ ([(0x040E0EFB, .mprobe 29 28), (0x0203DEAB, .acqTry 29 7), (0x0003DEAB, .acq 29 7), (0x0403D02B, .rel 7),
    (0xD4B43277, .vqnt 4 8 .bx8p 1), (0xD0021277, .vretag 4 4 .raw 0), (0x0006000B, .qpush 0 12 false),
    (0x0206000B, .qpush 0 12 true)] : List (BitVec 32 × Instr)), decodeWord p.1 = .ok p.2 := by decide

/-! ### States for the witnesses -/

/-- A service-core hart in M-mode at 0x1000, boot done. -/
def monitor : State := { State.reset with
  boot := { Boot.reset with stage := .done }
  hart := { Hart.reset with
    running := true
    pc := 0x1000 } }

/-- A state with the hart in focus changed. -/
def hartAs (s : State) (f : Hart → Hart) : State := { s with hart := f s.hart }

/-- A state whose hart has other CSRs. -/
def csrAs (s : State) (f : Csrs → Csrs) : State := hartAs s (fun h => { h with csr := f h.csr })

/-- A state whose hart has these values in x1, x2 and so on. -/
def regsAs (s : State) (l : List Word) : State :=
  hartAs s (fun h => { h with x := Vector.ofFn (fun i : Fin 32 => if i.val = 0 then 0 else l.getD (i.val - 1) 0) })

/-- A party of context 7 on core 0: harts 0 and 1, two extents and one segment. -/
def party : Party :=
  { id := 0, launch := 1, ctx := 7, stage := 0, core := 0, slots := [0, 1], slice := 0, state := .running, spad := [0, 1], spadMax := 4,
    hamper := [0], hamperMax := 2, cuts := [], barriers := 0, faultTags := [], mloads := [], saveSince := 0, savedHarts := [], savedSpad := [],
    savedTags := [], savedQueues := [], savedHold := (0, 0), doomed := false }

/-- A stage of two harts each, whose tasks may go on to stage 1. -/
def stage0 : StageEntry :=
  { entry := 0x4000, harts := 2, vregInit := 8, vregMax := 16, spadInit := 2, spadMax := 4, hamperInit := 0, hamperMax := 2, affinity := 1,
    capacity := 2, downstream := 2 }

/-- An empty stage queue. -/
def noTasks : StageQueue := { tasks := [], emitted := [], sample := (0, 1), since := 0 }

/-- A launch of context 7 on cluster 0. -/
def launch_ (flags : BitVec 8) : Launch :=
  { id := 1, ctx := 7, flags := flags, slices := 1, clusters := [0], arg := 0, tasksPtr := 0, initial := none, completion := 0,
    submitter := 4096, stages := [stage0, { stage0 with downstream := 0 }], queues := [noTasks, noTasks], sstep := 3, appends := [], sent := 0,
    received := 0, retired := 0, sweep := none, stallSeen := false, stepStart := 0, arrivals := [], join := none, joining := false,
    sliceBase := 0, sampledAt := 0, held := [], deadTags := [], away := [], told := false, ended := none }

/-- Context 7, with its root table at 0x10000. -/
def context : Context :=
  { id := 7, root := 0x10000, clusters := [0], protected_ := false, state := .resident, watchdog := none, group := none,
    pairedWith := none, stopReq := none, stopped := false, midExchange := false, heldPreempt := [], wrapped := none, lines := [],
    meter := Vector.replicate 14 0, gathered := Vector.replicate 10 0, seq := 0 }

/-- Two tables down from 0x10000 to leaves of 1 GiB: VA 0 on lies at PA 0 on for every access of U-mode, and VA 1 GiB on too, as a
page of format FP8-E4M3. -/
def tables (s : State) : State :=
  (((s.fill 0x10000 (bytesOfNat 8 0x12001)).fill 0x12000 (bytesOfNat 8 0x13001)).fill 0x13000 (bytesOfNat 8 0x77)).fill 0x13008
    (bytesOfNat 8 0x30000000000077)

/-- Hart 0, in U-mode in the party above, in a launch with these flags. -/
def user (flags : BitVec 8) : State := tables { monitor with
  hid := 0
  hart := { Hart.reset with
    running := true
    pc := 0x4000
    mode := .u
    party := some 0
    held := 2
    maxHeld := 4
    csr := { Csrs.reset with
      ptroot := 0x0007000000010000
      ctxid := 7 } }
  parties := [party]
  launches := [launch_ flags]
  contexts := [context]
  nextLaunch := 2
  nextParty := 1 }

/-- Service-core hart 0, in S-mode of context 7. -/
def kernel : State := csrAs (hartAs (tables { monitor with contexts := [context] }) (fun h => { h with mode := .s }))
  (fun c => { c with ptroot := 0x0007000000010000, ctxid := 7 })

/-- A state outside any launch. -/
def alone (s : State) : State := hartAs { s with parties := [], launches := [] } (fun h => { h with party := none })

/-- What an outcome that goes on holds. -/
def after (o : Out) (f : State → Bool) : Bool :=
  match o with
  | .next t => f t
  | _ => false

/-- What a check has found, when it passes. -/
def passes {α ε : Type} (r : State × Except ε α) (f : State → α → Bool) : Bool :=
  match r.2 with
  | .ok p => f r.1 p
  | .error _ => false

/-- What `passes` means: the hypothesis of the statements, with what holds of its result. -/
theorem passes_spec {α ε : Type} {r : State × Except ε α} {f : State → α → Bool} (h : passes r f = true) :
    ∃ u p, r = (u, .ok p) ∧ f u p = true := by
  obtain ⟨u, e⟩ := r
  cases e with
  | ok p => exact ⟨u, p, rfl, h⟩
  | error c => exact absurd h (by simp [passes])

/-- The place is plain, so that PlainPlace holds of it. -/
def plain (p : Place) : Bool := !p.mmio && p.meta_.isNone && pteCmp p.pte == 0

/-- What `plain` means. -/
theorem plain_spec {p : Place} : plain p = true ↔ PlainPlace p := by
  simp [plain, PlainPlace, and_assoc]

/-- The hart has taken a trap into M-mode. -/
def inM (t : State) (cause tval pc : Word) : Bool :=
  t.hart.mode == .m && t.hart.csr.mcause == cause && t.hart.csr.mtval == tval && t.hart.csr.mepc == pc

/-! ### Scalar instructions -/

/-- RegisterArithmetic, ImmediateArithmetic: shifts take the low six bits; x0 stays zero; a 32-bit sum wraps. -/
theorem test_scalar_results :
    let s := regsAs monitor [0x8000000000000000, 65, 0xFFFFFFFFFFFFFFFF]
    after (exec (.sra 5 1 2) s) (fun t => t.x 5 == 0xC000000000000000 && t.hart.pc == 0x1004) = true
    ∧ after (exec (.slt 5 1 2) s) (fun t => t.x 5 == 1) = true ∧ after (exec (.sltu 5 1 2) s) (fun t => t.x 5 == 0) = true
    ∧ after (exec (.addi 0 2 7) s) (fun t => t.x 0 == 0) = true ∧ after (exec (.addw 2 2 3) s) (fun t => t.x 2 == 64) = true
    ∧ after (exec (.auipc 5 0x80000) s) (fun t => t.x 5 == 0xFFFFFFFF80001000) = true := by decide +kernel

/-- MultiplyDivide and DivisionCorners (R63): -7 by 2, by 0, and the most negative number by -1, in both widths. -/
theorem test_division :
    let s := regsAs monitor [0xFFFFFFFFFFFFFFF9, 2, 0, 0x8000000000000000, 0xFFFFFFFFFFFFFFFF, 0x80000000]
    after (exec (.div 7 1 2) s) (fun t => t.x 7 == 0xFFFFFFFFFFFFFFFD) = true ∧ after (exec (.rem 7 1 2) s) (fun t => t.x 7 == 0xFFFFFFFFFFFFFFFF) = true
    ∧ after (exec (.divu 7 1 3) s) (fun t => t.x 7 == 0xFFFFFFFFFFFFFFFF) = true ∧ after (exec (.remw 7 1 3) s) (fun t => t.x 7 == 0xFFFFFFFFFFFFFFF9) = true
    ∧ after (exec (.div 7 4 5) s) (fun t => t.x 7 == 0x8000000000000000) = true ∧ after (exec (.rem 7 4 5) s) (fun t => t.x 7 == 0) = true
    ∧ after (exec (.divw 7 6 5) s) (fun t => t.x 7 == 0xFFFFFFFF80000000) = true ∧ after (exec (.mulhsu 7 5 5) s) (fun t => t.x 7 == 0xFFFFFFFFFFFFFFFF) = true := by
  decide +kernel

/-- ControlTransfer (R64, R65): a branch taken and one not, a jump, and the two traps at the transfer instruction. -/
theorem test_transfers :
    let s := regsAs monitor [5, 6, 0x2002, 0x200000000000000, 0x3001]
    after (exec (.beq 1 1 4) s) (fun t => t.hart.pc == 0x1008) = true ∧ after (exec (.beq 1 2 4) s) (fun t => t.hart.pc == 0x1004) = true
    ∧ after (exec (.jal 7 0xFFFFE) s) (fun t => t.hart.pc == 0xFFC && t.x 7 == 0x1004) = true
    ∧ after (exec (.jalr 5 5 0) s) (fun t => t.hart.pc == 0x3000 && t.x 5 == 0x1004) = true
    ∧ after (exec (.jalr 7 3 0) s) (fun t => inM t 0 0x2002 0x1000 && t.x 7 == 0) = true
    ∧ after (exec (.jalr 7 4 0) s) (fun t => inM t 1 0x200000000000000 0x1000) = true := by decide +kernel

/-! ### Loads, stores, AMOs -/

/-- LoadsComplete: a load of a plain place, with an older byte of its own pending; a load of a register; and a load in U-mode. -/
theorem test_loads :
    let s := hartAs (regsAs (monitor.fill 0x2000 [0xFE, 0x7F]) [0x2000, 0xF00000010800]) (fun h => { h with pending := [(0x2001, 0xFF)] })
    passes (check s .load (s.x 1) 2 false) (fun _ p => plain p) = true ∧ after (exec (.lh 5 1 0) s) (fun t => t.x 5 == 0xFFFFFFFFFFFFFFFE) = true
    ∧ passes (check s .load (s.x 2) 8 false) (fun u p => p.mmio && (u.rootPort p.key).isNone) = true
    ∧ after (exec (.ld 5 2 0) { s with accNote := 9 }) (fun t => t.x 5 == 9) = true
    ∧ passes (check (user 1) .load 0x12000 8 false) (fun _ p => plain p && p.key == 0x12000) = true
    ∧ after (exec (.lbu 5 1 0) (regsAs (user 1) [0x12001])) (fun t => t.x 5 == 0x30) = true := by decide +kernel

/-- StoresComplete: a weak store pends; one that covers a bad word whole, and one to the window, are performed at once. -/
theorem test_stores :
    let s := regsAs monitor [0x2000, 0x1122334455667788]
    passes (check s .store 0x2000 8 false) (fun _ p => plain p && !p.window && pteKind p.pte != 3 && !isRemote p.key && !coversBad s.poison p.key 8) = true
    ∧ after (exec (.sd 1 2 0) s) (fun t => t.mem == [] && byteSeen t 0x2001 == 0x77 && t.hart.pc == 0x1004) = true
    ∧ passes (check { s with poison := [0] } .store 0x20 8 false) (fun _ p => p.key == 0x20) = true
    ∧ (let w := regsAs (user 1) [0x1FFFFFFFFF80008, 0xAB]
       passes (check w .store (w.x 1) 1 false) (fun _ p => p.window) = true ∧ Memory.wf w.mem = true
       ∧ after (exec (.sb 1 2 0) w) (fun t => Memory.get t.mem (spadKey 0 8) == 0xAB) = true) := by decide +kernel

/-- StoresComplete: a place in another device's window is written at its home. -/
theorem test_remote_store :
    let s := regsAs { monitor with present := 3 } [0x410000000000, 0x55]
    passes (check s .store (s.x 1) 1 false) (fun _ p => isRemote p.key && !p.window) = true
    ∧ after (exec (.sb 1 2 0) s) (fun t => Memory.get t.mem 0x410000000000 == 0x55) = true := by decide +kernel

/-- AccessChecks (R67): alignment, the address bound, the sizes of the MMIO range, a page not mapped, a non-canonical address. -/
theorem test_access_checks :
    let s := regsAs monitor [0x2001, 0x1000000000000, 0xF00000010801, 0xF00000010808]
    after (exec (.lw 5 1 0) s) (fun t => inM t 4 0x2001 0x1000) = true ∧ after (exec (.sw 1 5 0) s) (fun t => inM t 6 0x2001 0x1000) = true
    ∧ after (exec (.ld 5 2 0) s) (fun t => inM t 5 0x1000000000000 0x1000) = true
    ∧ after (exec (.sb 3 5 0) s) (fun t => inM t 7 0xF00000010801 0x1000) = true ∧ (check s .amo (s.x 4) 8 false).2 = .error 7
    ∧ passes (check s .load (s.x 4) 8 false) (fun _ p => p.mmio && p.key == 0xF00000010808) = true
    ∧ (check (user 1) .store 0x80000000 8 false).2 = .error 15 ∧ (check (user 1) .load 0x200000000000000 8 false).2 = .error 5
    ∧ (check (user 1) .load 0x1FFFFFFFFF88000 8 false).2 = .error 27 := by decide +kernel

/-- StrongAccesses (R173, R175, R324): at the home, after the hart's own stores to the line; a SHIP still under way makes it wait, and so
does a value of another device. -/
theorem test_strong_accesses :
    let s := regsAs (user 1) [0x2000]
    let m := hartAs (regsAs monitor [0x2000, 0x80000001]) (fun h => { h with pending := [(0x2004, 0x11)] })
    let w := hartAs s (fun h => { h with ships := [none] })
    let far := regsAs { monitor with present := 3 } [0x410000000000]
    passes (check s .strongLoad 0x2000 4 false) (fun u p => plain p && !u.shipsOut && !p.isFar && !p.window && !s.heldRange 0x2000 64) = true
    ∧ s.lines = [] ∧ s.purging = [] ∧ Memory.wf s.mem = true ∧ nearScope .core = true ∧ nearScope .device = false
    ∧ after (exec (.lwS 5 1 4 .device) m) (fun t => t.x 5 == 0x11 && Memory.get t.mem 0x2004 == 0x11) = true
    ∧ passes (check s .strongStore 0x2000 4 false) (fun u p => plain p && !u.shipsOut && u.heldCell? p == none) = true
    ∧ after (exec (.swS 1 2 0 .system) m) (fun t => Memory.get t.mem 0x2003 == 0x80) = true
    ∧ after (exec (.swS 1 2 0 .system) { m with purging := [0x2000] }) (fun t => t.hart.blocked == some (.purge 0x2000)) = true
    ∧ passes (check w .strongLoad 0x2000 8 false) (fun u _ => u.shipsOut) = true
    ∧ after (exec (.ldS 5 1 0 .core) w) (fun t => t.hart.blocked == some .ships && t.hart.pc == 0x4000) = true
    ∧ passes (check far .strongLoad 0x410000000000 8 false) (fun _ p => p.isFar) = true
    ∧ after (exec (.ldS 5 1 0 .system) far) (fun t => (match t.hart.blocked with
        | some (.remote rd p n sg (some near)) => rd == 5 && p.key == 0x410000000000 && n == 8 && sg && !near && t.reaches p
        | _ => false) && (t.remoteArrival 4096).hart.blocked == none) = true := by decide +kernel

/-- AtomicOperations (R69): the old word into rd and the new one at its home; the lost store of R384; the wait for a SHIP. -/
theorem test_amo :
    let s := regsAs ((user 1).fill 0x2000 [0xFF, 0xFF, 0xFF, 0xFF]) [0x2000, 3]
    let lost := hartAs (regsAs (monitor.fill 0x2000 [1]) [0x2000, 3]) (fun h => { h with lostStore := true })
    passes (check s .amo 0x2000 4 false) (fun u p => plain p && !u.shipsOut) = true
    ∧ after (exec (.amoaddW 5 1 2 false true) s) (fun t => t.x 5 == 0xFFFFFFFFFFFFFFFF && t.loadNat 0x2000 4 == 2) = true
    ∧ after (exec (.amomaxuW 5 1 2 false false) s) (fun t => t.loadNat 0x2000 4 == 0xFFFFFFFF) = true
    ∧ passes (check lost .amo 0x2000 8 false) (fun u _ => !u.shipsOut) = true
    ∧ after (exec (.amoswapD 5 1 2 false true) lost) (fun t => inM t 7 0 0x1000 && !t.hart.lostStore) = true
    ∧ after (exec (.amoorD 5 1 2 true true) (hartAs s (fun h => { h with ships := [none] }))) (fun t => t.hart.blocked == some .ships) = true := by decide +kernel

/-! ### CSRs, phases, calls, returns, traps -/

/-- CsrInstructions (R71): the old value into rd, no write for a zero source, and results waited for. -/
theorem test_csr_instructions :
    let s := csrAs (regsAs monitor [0xF0]) (fun c => { c with mscratch := 0x3C })
    csrName 0x340 = some .mscratch ∧ csrName 0xC00 = some .cycle
    ∧ after (exec (.csrrc 5 0x340 1) s) (fun t => t.x 5 == 0x3C && t.hart.csr.mscratch == 0x0C) = true
    ∧ after (exec (.csrrs 5 0xC00 0) { s with clock := 7 }) (fun t => t.x 5 == 7) = true
    ∧ after (exec (.csrrwi 0 0x340 31) s) (fun t => t.x 0 == 0 && t.hart.csr.mscratch == 31) = true := by decide +kernel

/-- CsrAccessRules (R33): an absent number, a CSR above the mode, and a write of a read-only one. -/
theorem test_csr_rules :
    let u := csrAs (user 1) (fun c => { c with stvec := 0x8000 })
    let s := regsAs monitor [1]
    (0x180 ∉ csrNumbers) ∧ after (exec (.csrrs 5 0x180 0) s) (fun t => inM t 2 0x180022F3 0x1000) = true
    ∧ after (exec (.csrrs 5 0x340 0) u) (fun t => t.hart.mode == .s && t.hart.csr.scause == 2 && t.hart.csr.stval == 0x340022F3 && t.hart.pc == 0x8000) = true
    ∧ after (exec (.csrrs 5 0xC00 1) s) (fun t => inM t 2 0xC000A2F3 0x1000) = true
    ∧ after (exec (.csrrwi 5 0x80B 0) s) (fun t => inM t 2 0x80B052F3 0x1000) = true
    ∧ after (exec (.csrrci 5 0x7C0 1) s) (fun t => t.hart.pc == 0x1004) = true := by decide +kernel

/-- CsrFields: RM 4 is taken and RM 5 is not; MODE 1 of stvec is taken and MODE 2 is not; reserved bits read zero. -/
theorem test_csr_fields :
    let s := monitor
    (s.csrSet .vmode 0x13).csrGet .vmode = 0x13 ∧ (s.csrSet .vmode 0x17).csrGet .vmode = 0x03
    ∧ (s.csrSet .stvec 0x8001).csrGet .stvec = 0x8001 ∧ (s.csrSet .stvec 0x8002).csrGet .stvec = 0x8000
    ∧ (s.csrSet .mie 0xFFFFFFFFFFFFFFFF).csrGet .mie = 0x30AAA ∧ (s.csrSet .udeleg 0xFFFFFFFFFFFFFFFF).csrGet .udeleg = 0x6A1F00000C := by
  decide +kernel

/-- FenceIsPhase and Phases (R73, R74, R163): a close performs the pending stores; an open keeps them; the lost store traps. -/
theorem test_phases :
    let s := hartAs monitor (fun h => { h with
      pending := [(0x2000, 5)]
      fetch := [⟨true, 0x1000, [], []⟩] })
    let lost := hartAs s (fun h => { h with lostStore := true })
    s.hart.lostStore = false ∧ Memory.wf s.mem = true
    ∧ after (exec (.fence 0 15 15 0 0) s) (fun t => t.hart.pending == [] && Memory.get t.mem 0x2000 == 5 && t.hart.pc == 0x1004) = true
    ∧ after (exec (.phaseC .core) s) (fun t => t.hart.pending == [] && Memory.get t.mem 0x2000 == 5) = true
    ∧ after (exec (.phaseO .system) s) (fun t => t.hart.pending == [(0x2000, 5)]) = true
    ∧ after (exec .fenceI s) (fun t => t.hart.fetch == [] && t.hart.pending == [] && t.mem == [(0x2000, 5)]) = true
    ∧ after (exec (.phaseCo .group) lost) (fun t => inM t 7 0 0x1000) = true ∧ after (exec (.fence 8 3 3 1 1) lost) (fun t => inM t 7 0 0x1000) = true := by
  decide +kernel

/-- StrongAccesses, Phases (R158, R159, R161, R173): an older copy of the core is what a weak load reads; a strong load reads the
home and discards the copy of that doubleword; an open discards every copy; another core's copies stay. -/
theorem test_copies :
    let s := { hartAs monitor (fun h => { h with x := h.x.set 1 0x2000 }) with
      mem := [(0x2000, 7), (0x2008, 8)]
      stale := [(monitor.hid, 0x2000, 5), (monitor.hid, 0x2008, 6), (monitor.hid + 4, 0x2000, 9)] }
    after (exec (.lbu 3 1 0) s) (fun t => t.x 3 == 5) = true
    ∧ after (exec (.ldS 3 1 0 .device) s) (fun t => t.x 3 == 7 && byteSeen t 0x2000 == 7 && byteSeen t 0x2008 == 6) = true
    ∧ after (exec (.phaseO .core) s) (fun t => byteSeen t 0x2000 == 7 && byteSeen t 0x2008 == 8 && t.stale.length == 1) = true
    ∧ after (exec (.sb 1 0 0) s) (fun t => byteSeen t 0x2000 == 0 && byteSeen t 0x2008 == 6) = true := by
  decide +kernel

/-- CallsAndIllegalWords (R48, R75): `ecall` in the three modes, `ebreak`, returns that the mode forbids, and a word that names nothing. -/
theorem test_calls :
    let u := csrAs (user 1) (fun c => { c with mtvec := 0x9000, stvec := 0x8000 })
    after (exec .ecall monitor) (fun t => inM t 11 0 0x1000) = true ∧ after (exec .ecall kernel) (fun t => inM t 9 0 0x1000) = true
    ∧ after (exec .ecall u) (fun t => t.hart.mode == .s && t.hart.csr.scause == 8) = true
    ∧ after (exec .ebreak monitor) (fun t => inM t 3 0x1000 0x1000) = true ∧ after (exec .upret monitor) (fun t => t.hart.csr.mcause == 2) = true
    ∧ after (exec .mret kernel) (fun t => t.hart.csr.scause == 2 && t.hart.csr.stval == 0x30200073) = true
    ∧ after (exec .sret u) (fun t => t.hart.csr.scause == 2) = true
    ∧ after (exec (.illegalInstruction 0x53) monitor) (fun t => inM t 2 0x53 0x1000) = true := by decide +kernel

/-- TrapReturns (R37, R341): MPP 3, 1 and 0, SPP 1 and 0, and the repetition that REP_PENDING brings back. -/
theorem test_returns :
    let m (mpp : Word) := csrAs monitor (fun c => { c with mepc := 0x2000, mcause := 0x4000000000000002, mstatus := mpp * 0x800 + 0x80 })
    let k (spp : Word) := csrAs kernel (fun c => { c with sepc := 0x3000, mstatus := spp * 0x100 + 0x20 })
    after (exec .mret (m 3)) (fun t => t.hart.mode == .m && t.hart.pc == 0x2000 && t.hart.csr.repstate == 0x8000000000000000
      && t.hart.csr.mcause == 2 && t.hart.csr.mstatus == 0x88) = true
    ∧ after (exec .mret (m 1)) (fun t => t.hart.mode == .s) = true ∧ after (exec .mret (m 0)) (fun t => t.hart.mode == .u) = true
    ∧ after (exec .sret (k 1)) (fun t => t.hart.mode == .s && t.hart.pc == 0x3000 && t.hart.csr.mstatus == 0x22) = true
    ∧ after (exec .sret (k 0)) (fun t => t.hart.mode == .u) = true
    ∧ after (exec .upret (csrAs (user 1) (fun c => { c with uepc := 0x5000 }))) (fun t => t.hart.pc == 0x5000 && t.hart.mode == .u) = true := by decide +kernel

/-- TrapDelegation (R337): to M, to S, to U by UDELEG, and a page fault as an upcall with its tag; cause 36 goes to M with xtval 8. -/
theorem test_delegation :
    let u := csrAs (user 1) (fun c => { c with mtvec := 0x9000, stvec := 0x8000, udeleg := 0xC, uvec := 0x6000, kfaultq := 0x20000 })
    HasVector u true ∧ HasVector u false ∧ ringNamed u.hart.csr.kfaultq = true
    ∧ inM (u.trap 36 0x77) 36 8 0x4000 = true ∧ (u.trap 36 0x77).hart.pc = 0x9000
    ∧ (let t := u.trap 27 0x99; t.hart.mode = .s ∧ t.hart.csr.scause = 27 ∧ t.hart.csr.stval = 0x99 ∧ t.hart.pc = 0x8000)
    ∧ (let t := u.trap 3 0x99; t.hart.mode = .u ∧ t.hart.csr.ucause = 3 ∧ t.hart.csr.uaddr = 0x99 ∧ t.hart.pc = 0x6000)
    ∧ (let t := u.trap 13 0x99; t.hart.mode = .u ∧ t.hart.csr.ucause = 0x10000000D ∧ t.hart.pc = 0x6000 ∧ t.loadNat 0x20000 4 = 1)
    ∧ (kernel.trap 2 0).hart.mode = .s ∧ (monitor.trap 2 0).hart.mode = .m := by
  refine ⟨.inr (by decide +kernel), .inr (by decide +kernel), ?_⟩; decide +kernel

/-- UnhandledTraps (R350): a hart outside any party, a running party's hart, and one whose party is being saved. -/
theorem test_unhandled :
    let lone : State := { monitor with hid := 5 }
    let u := user 1
    let saving : State := { u with parties := [{ party with state := .saving }] }
    ¬ HasVector lone true ∧ ¬ HasVector u true
    ∧ (lone.trap 2 0).hart.running = false ∧ (u.trap 36 0).party? 0 = none ∧ ((saving.trap 36 0).party? 0).map Party.doomed = some true := by
  refine ⟨?_, ?_, ?_⟩
  · rintro (h | h)
    · exact absurd h (by decide +kernel)
    · exact absurd h (by decide +kernel)
  · rintro (h | h)
    · exact absurd h (by decide +kernel)
    · exact absurd h (by decide +kernel)
  · decide +kernel

/-- InterruptEntry (R338): the M timer comes before the S timer; INBOX enters S with its queue's index; none is taken while none may be. -/
theorem test_interrupts :
    let s := csrAs kernel (fun c => { c with mie := 0xA0, mtimecmp := 0, stimecmp := 0, mstatus := 2, mtvec := 0x9001, stvec := 0x8001 })
    let q := csrAs (s.mapQueue 1024 0 (fun q => { q with entries := [7] })) (fun c => { c with mie := 0x10000 })
    Takeable s 7 ∧ Takeable s 5 ∧ ¬ Committed s.hart ∧ HasVector s true
    ∧ after (exec .interruptEntry s) (fun t => inM t 0x8000000000000007 0 0x1000 && t.hart.pc == 0x901C) = true
    ∧ Takeable q 16
    ∧ after (exec .interruptEntry q) (fun t => t.hart.mode == .s && t.hart.csr.scause == 0x8000000000000010 && t.hart.pc == 0x8040) = true
    ∧ after (exec .interruptEntry monitor) (fun t => t == monitor) = true := by
  refine ⟨by unfold Takeable; decide +kernel, by unfold Takeable; decide +kernel, ?_, .inl (by decide +kernel), by decide +kernel, by unfold Takeable; decide +kernel,
    by decide +kernel, by decide +kernel⟩
  rintro (⟨pa, h⟩ | ⟨rd, a, n, g, h⟩)
  · exact absurd h (by rw [show (_ : Hart).blocked = none from rfl]; simp)
  · exact absurd h (by rw [show (_ : Hart).blocked = none from rfl]; simp)

/-- InterruptPending (R35, R36): the events that make an interrupt pending, at the last hart too. -/
theorem test_pending :
    after (exec (.sTimer 4159) (csrAs monitor (fun c => { c with stimecmp := 5 }))) (fun t => t.mipBit 4096 t.hart 5 || t.hid == 4096) = true
    ∧ after (exec (.mTimer 4096) (csrAs monitor (fun c => { c with mtimecmp := 100 }))) (fun t => t.mipBit 4096 t.hart 7 && t.clock == 300) = true
    ∧ after (exec (.msip 4159 true) monitor) (fun t => t.msips == [4159]) = true
    ∧ after (exec (.ssip 0 true) monitor) (fun t => (t.getHart 0).csr.ssip) = true
    ∧ after (exec (.rotationRequest 1) monitor) (fun t => (t.getHart 4).csr.meip) = true ∧ isCompute 4095 = true := by decide +kernel

/-- WaitAndWake (R76): with its inbox full `wfi` goes on, with nothing pending it waits, and a hart whose condition holds resumes. -/
theorem test_wfi :
    let full := monitor.mapQueue 1024 0 (fun q => { q with entries := [7] })
    let waiting := hartAs full (fun h => { h with blocked := some .interrupt })
    after (exec .wfi full) (fun t => t.hart.pc == 0x1004 && t.hart.blocked == none) = true
    ∧ after (exec .wfi (csrAs monitor (fun c => { c with mie := 0x80, mtimecmp := 0 }))) (fun t => t.hart.pc == 0x1004) = true
    ∧ after (exec .wfi monitor) (fun t => t.hart.blocked == some .interrupt && t.hart.pc == 0x1000) = true
    ∧ waiting.wakes 4096 (waiting.getHart 4096) .interrupt = true
    ∧ after (exec (.wake 4096) waiting) (fun t => t.hart.blocked == none && t.hart.pc == 0x1004) = true := by decide +kernel

/-! ### Barriers, tasks and claims -/

/-- BarrierArrival (R176 to R178): in a BSP launch the hart waits for the exchange; outside any launch it goes on; not in S-mode. -/
theorem test_barriers :
    let u := regsAs (user 1) [9]
    let lone := hartAs (alone u) (fun h => { h with pending := [(0x2000, 1)] })
    u.ownParty = some party ∧ u.ownLaunch = some (launch_ 1) ∧ (launch_ 1).flags.getLsbD 0 = true ∧ lone.ownLaunch = none
    ∧ after (exec (.sync 5) u) (fun t => t.hart.blocked == some (.barrier 5 none) && t.launches.map Launch.arrivals == [[(0, 0)]]) = true
    ∧ after (exec (.hred 5 1 .max) u) (fun t => t.hart.blocked == some (.barrier 5 (some (.max, 9)))) = true
    ∧ after (exec (.sync 0) lone) (fun t => t.hart.pc == 0x4004 && t.hart.pending == [] && t.x 0 == 0) = true
    ∧ after (exec (.sync 5) kernel) (fun t => t.hart.csr.scause == 2) = true := by decide +kernel

/-- A U-mode state whose traps go to S-mode. -/
def trapping (flags : BitVec 8) : State := csrAs (user flags) (fun c => { c with stvec := 0x8000 })

/-- The hart has taken a trap into S-mode. -/
def inS (t : State) (cause tval : Word) : Bool := t.hart.mode == .s && t.hart.csr.scause == cause && t.hart.csr.stval == tval

/-- EmitTask (R145): stage 1 of two is downstream, stage 2 does not exist; a register not held; room, and a full stage. -/
theorem test_emit :
    let s := regsAs (trapping 1) [1, 2]
    let free := regsAs (trapping 0) [1, 2]
    let full : State := { s with launches := [{ launch_ 1 with queues := [noTasks, { noTasks with tasks := [⟨0, 0⟩, ⟨0, 0⟩] }] }] }
    after (exec (.emit 3 2) s) (fun t => inS t 35 2) = true ∧ after (exec (.emit 8 1) s) (fun t => inS t 26 8) = true ∧ s.scbCheck = false
    ∧ stageFull (launch_ 1) 1 = false ∧ after (exec (.emit 7 1) s) (fun t => t.launches.map (fun l => (l.sent, l.received)) == [(1, 0)] && t.hart.pc == 0x4004) = true
    ∧ after (exec (.emit 7 1) free) (fun t => t.launches.map (fun l => (l.sent, l.received)) == [(1, 1)]) = true
    ∧ after (exec (.emit 7 1) full) (fun t => t.hart.blocked == some (.stage 1)) = true := by decide +kernel

/-- TaskDone (R146): the last hart of its party retires it; outside any party the hart is finished; not in S-mode. -/
theorem test_task_done :
    let one : State := { user 1 with parties := [{ party with slots := [0] }] }
    ({ party with slots := [0] } : Party).harts = [one.hid]
    ∧ after (exec .taskDone one) (fun t => t.hart.finished && t.parties.map Party.state == [.retiring]) = true
    ∧ after (exec .taskDone (user 1)) (fun t => t.hart.finished && t.parties.map Party.state == [.running]) = true
    ∧ after (exec .taskDone (alone (user 0))) (fun t => t.hart.finished && t.hart.csr.instret == 1) = true
    ∧ after (exec .taskDone kernel) (fun t => inS t 2 0x0C00002B) = true := by decide +kernel

/-- AcquireUnits (R205, R207): class 3, a count beyond the claim and the last one within it, none, a grant, no unit free, and a
grant that would not be safe. -/
theorem test_acquire :
    let s := regsAs (trapping 1) [0x101, 0x301, 0x003, 0x001, 0x201, 0x102]
    let other (held : List Nat) : Party := { party with id := 1, core := 1, hamper := held, hamperMax := 32 }
    let none_ : State := { s with parties := [party, other ((List.range 31).map (· + 1))] }
    let unsafe_ : State := { s with parties := [{ party with hamper := List.range 16, hamperMax := 32 }, other ((List.range 15).map (· + 16))] }
    s.holding 0 1 = (2, 4) ∧ after (exec (.acq 5 2) s) (fun t => inS t 28 0x301) = true ∧ after (exec (.acqTry 5 3) s) (fun t => inS t 28 3) = true
    ∧ after (exec (.acq 5 4) s) (fun t => t.hart.pc == 0x4004) = true ∧ s.grantable 0 1 2 = true
    ∧ after (exec (.acqTry 5 5) s) (fun t => t.x 5 == 0 && t.parties.map (fun p => p.spad.length) == [4]) = true
    ∧ after (exec (.acqTry 5 6) none_) (fun t => t.x 5 == 1) = true ∧ after (exec (.acqTry 5 6) unsafe_) (fun t => t.x 5 == 2) = true
    ∧ after (exec (.acq 5 6) none_) (fun t => t.hart.blocked == some (.acq 5) && (t.cluster 0).requests == [⟨0, 2, 1, 0, false⟩]) = true := by
  decide +kernel

/-- A command of hart 0's party that names a view of the whole of two extents. -/
def byParty (port : Nat) (w : BitVec 256) : Command :=
  { word := w
    by_ := { hart := 0, port := port, root := 0x10000, ctx := 7, ctxid := 7, mode := .u, kfaultq := 0, rank := 0, party := some 0,
             launch := some 1, pmp := Pmp.reset, near := false }
    done := 0
    id := 0 }

/-- A command that an engine has accepted, and that has begun or not. -/
def atEngine (c : Command) (started : Bool) : Accepted := { cmd := c, site := 0, parked := false, started := started, since := 0 }

/-- ReleaseAndClaim (R208, R209): the last unit, one too many, a made queue in the way, a command that uses the unit; the claim's bounds. -/
theorem test_release_claim :
    let s := regsAs (trapping 1) [0x201, 0x301, 0x003, 0x501, 0x401, 0x101, 0x100]
    let ring := s.mapQueue 0 4 (fun q => { q with owner := some 0, base := windowBase + 0x4000, cap := 4 })
    let busy : State := { s with engines := [atEngine (byParty 1 (0x22 + (windowBase + 0x4000) * 2 ^ 128 + 64 * 2 ^ 192)) false], nextCmd := 1 }
    after (exec (.rel 1) s) (fun t => t.parties.map Party.spad == [[]] && t.hart.pc == 0x4004) = true
    ∧ after (exec (.rel 2) s) (fun t => inS t 28 0x301) = true ∧ after (exec (.rel 3) s) (fun t => inS t 28 3) = true
    ∧ ring.ringAbove party 1 = some 4 ∧ after (exec (.rel 6) ring) (fun t => inS t 35 4) = true
    ∧ busy.releaseWaits party 0 1 1 = true ∧ after (exec (.rel 6) busy) (fun t => t.hart.blocked == some .release) = true
    ∧ after (exec (.rel 7) s) (fun t => t.hart.held == 1) = true
    ∧ after (exec (.claim 4) s) (fun t => inS t 28 0x501) = true ∧ after (exec (.claim 6) s) (fun t => inS t 28 0x101) = true
    ∧ after (exec (.claim 5) s) (fun t => t.parties.map Party.spadMax == [4]) = true
    ∧ after (exec (.claim 1) s) (fun t => t.parties.map Party.spadMax == [2]) = true := by decide +kernel

/-! ### Decide-once cells -/

/-- A hart that has the cell at 0x100000 in x1, a proposal in x2 and generations 7, 8 and 6 in x3, x4 and x5; the cell's control
word is as given. -/
def cellState (control : Nat) : State :=
  regsAs ((trapping 1).fill 0x100008 (bytesOfNat 8 control)) [0x100000, 101, 7, 8, 6, 0xFFFFFF, 0x1000000]

/-- The cell's words after an outcome, with x6 and OSTAT. -/
def cellIs (o : Out) (x ostat w0 w1 : Nat) : Bool :=
  after o (fun t => t.x 6 == BitVec.ofNat 64 x && t.hart.csr.ostat == BitVec.ofNat 64 ostat && t.loadNat 0x100000 8 == w0 && t.loadNat 0x100008 8 == w1)

/-- CellOffer (R192): VACANT(7) is decided, as in chapter 13's program; DECIDED answers; ahead and behind; generation out of range. -/
theorem test_offer :
    let vacant := cellState 0x1C
    let decided := (cellState 0x1D).fill 0x100000 [101]
    passes (cellCheck vacant true 0x100000 7) (fun u p => !(cellEntry u p true).shipsOut && !(cellEntry u p true).purging.contains p.key
      && !(cellEntry u p true).malformed p.key && !poisoned (cellEntry u p true).poison p.key 16) = true ∧ Memory.wf vacant.mem = true
    ∧ vacant.hart.blocked = none
    ∧ cellIs (exec (.offer 6 1 2 3 false true) vacant) 101 0x700 101 0x1D = true
    ∧ cellIs (exec (.offer 6 1 2 3 false false) decided) 101 0x701 101 0x1D = true
    ∧ cellIs (exec (.offer 6 1 2 4 false false) vacant) 0 0x703 0 0x1C = true
    ∧ cellIs (exec (.offer 6 1 2 5 false false) vacant) 0 0x702 0 0x1C = true
    ∧ after (exec (.offer 6 1 2 7 false false) vacant) (fun t => inS t 38 0x100000) = true := by decide +kernel

/-- CellRead (R193, R194, R198): decided, behind, vacant, ahead, and a cached decision; `cwait` waits where `cread` answers VACANT. -/
theorem test_cread :
    let vacant := cellState 0x1C
    let decided := (cellState 0x1D).fill 0x100000 [101]
    let cached : State := { vacant with clusters := [(0, { Cluster.reset with decisions := [⟨0x100000, 6, 55, 3⟩] })] }
    cellIs (exec (.cread 6 1 3 false false) decided) 101 0x700 101 0x1D = true
    ∧ cellIs (exec (.cwait 6 1 3 false false) decided) 101 0x700 101 0x1D = true
    ∧ cellIs (exec (.cread 6 1 5 false false) vacant) 0 0x702 0 0x1C = true
    ∧ cellIs (exec (.cread 6 1 3 true false) vacant) 0 0x704 0 0x1C = true
    ∧ cellIs (exec (.cread 6 1 4 true true) vacant) 0 0x703 0 0x1C = true
    ∧ cached.decision? 0 0x100000 6 = some ⟨0x100000, 6, 55, 3⟩ ∧ cellIs (exec (.cread 6 1 5 false false) cached) 55 0x300000601 0 0x1C = true
    ∧ after (exec (.cwait 6 1 3 false false) vacant) (fun t => t.waiters == [⟨0, 0x100000, 7⟩] && t.hart.blocked == some (.cell 6 0x100000 7 false)) = true := by
  decide +kernel

/-- CellRetire (R195, R199): a decided generation, the last one with its purge, and the answers of a generation not decided. -/
theorem test_cretire :
    let decided := (cellState 0x1D).fill 0x100000 [101]
    let last := cellState 0x3FFFFFD
    cellIs (exec (.cretire 1 3 false false) decided) 0xFFFFFF 0x800 0 0x20 = true
    ∧ cellIs (exec (.cretire 1 3 false false) (cellState 0x1C)) 0xFFFFFF 0x704 0 0x1C = true
    ∧ cellIs (exec (.cretire 1 4 false false) decided) 0xFFFFFF 0x703 101 0x1D = true
    ∧ cellIs (exec (.cretire 1 5 true true) decided) 0xFFFFFF 0x702 101 0x1D = true
    ∧ after (exec (.cretire 1 6 false false) last) (fun t => t.hart.blocked == some (.retire 0x100000 false) && t.purging == [0x100000]
        && t.events == [.cellPurgeComplete 0x100000]
        && after (exec (.cellPurgeComplete 0x100000) t) (fun u => u.loadNat 0x100008 8 == 0 && u.purging == [] && u.hart.pc == 0x4004)) = true := by
  decide +kernel

/-! ### Vector instructions -/

/-- A register of these lanes, `w` bits each. -/
def lanes (w : Nat) (l : List Nat) : VBits := BitVec.ofNat 512 (l.foldr (fun v acc => v + acc * 2 ^ w) 0)

/-- A state whose hart has these vector registers, v0 on. -/
def vregsAs (s : State) (l : List VecReg) : State := hartAs s (fun h => { h with v := Vector.ofFn (fun i : Fin 32 => l.getD i.val VecReg.zero) })

/-- v1 = 1.0, -2.0 and a signaling NaN, v2 = 2.0, 0.5 and 1.0, v3 and v4 of I32, v5 of BX8P whose check code fails. -/
def vectors : State := vregsAs (trapping 1) [VecReg.zero, ⟨lanes 32 [0x3F800000, 0xC0000000, 0x7F800001], .f32⟩,
  ⟨lanes 32 [0x40000000, 0x3F000000, 0x3F800000], .f32⟩, ⟨lanes 32 [0x7FFFFFFF, 5, 0x80000000], .i32⟩, ⟨lanes 32 [1, 33, 0xFFFFFFFF], .i32⟩,
  ⟨1, .bx8p⟩]

/-- Element `i` of register `r` after an outcome, in program order. -/
def laneAfter (o : Out) (w : Nat) (r : VReg) (i : Nat) : Nat :=
  match o with
  | .next t => laneOf w (t.hart.finalV r).bits i
  | _ => 2 ^ w

/-- VFLAGS after an outcome. -/
def flagsAfter (o : Out) : Word :=
  match o with
  | .next t => t.hart.csr.vflags
  | _ => 0x40

/-- The operands of the vector statements are good in this state (R106). -/
theorem test_operands_good : OperandsGood vectors [6, 1, 2] (sourcesAs vectors .f32 [1, 2]) ∧ OperandsGood vectors [6, 3, 4] (sourcesAs vectors .i32 [3, 4])
    ∧ OperandsGood vectors [6, 1] [⟨1, none⟩] ∧ OperandsGood vectors [6] [] := by
  refine ⟨?_, ?_, ?_, ?_⟩ <;> exact (State.vcheck_eq_none _ _ _).1 (by decide +kernel)

/-- VectorArithmetic (R108 to R112): rounding, flags, saturation, shift amounts modulo the width. -/
theorem test_vector_arithmetic :
    let s := vectors
    laneAfter (exec (.vadd .f32 6 1 2 false 2) s) 32 6 0 = 0x40400000 ∧ laneAfter (exec (.vadd .f32 6 1 2 false 2) s) 32 6 2 = 0x7FC00000
    ∧ flagsAfter (exec (.vadd .f32 6 1 2 false 2) s) = 1 ∧ laneAfter (exec (.vmul .f32 6 1 2 false 0) s) 32 6 1 = 0xBF800000
    ∧ laneAfter (exec (.vadd .i32 6 3 4 false 0) s) 32 6 0 = 0x80000000 ∧ laneAfter (exec (.vadds .i32 6 3 4 false 0) s) 32 6 0 = 0x7FFFFFFF
    ∧ flagsAfter (exec (.vadds .i32 6 3 4 false 0) s) = 0x20 ∧ laneAfter (exec (.vsll .i32 6 3 4 false 0) s) 32 6 1 = 10
    ∧ laneAfter (exec (.vmax .i32 6 3 4 false 0) s) 32 6 2 = 0xFFFFFFFF ∧ laneAfter (exec (.vneg .i32 6 3 false 0) s) 32 6 2 = 0x80000000
    ∧ laneAfter (exec (.vfma .f32 6 1 2 2 0) s) 32 6 1 = 0xBF000000 ∧ laneAfter (exec (.vrecip .f32 6 2 false 0) s) 32 6 0 = 0x3F000000
    ∧ laneAfter (exec (.vexp2 .f32 6 2 false 0) s) 32 6 0 = 0x40800000 ∧ laneAfter (exec (.vlog2 .f32 6 2 false 0) s) 32 6 1 = 0xBF800000 := by
  decide +kernel

/-- VectorMoves (R113 to R118): tags of the logic instructions, the shift in of zeros, the sign of `vmvx`. -/
theorem test_vector_moves :
    let s := csrAs (regsAs vectors [1, 0xFFFFFFFFFFFFFFFF, 2]) (fun c => { c with vmask := 2 })
    after (exec (.vxor 6 1 3 false 0) s) (fun t => (t.hart.finalV 6).tag == .raw) = true ∧ after (exec (.vor 6 1 2 false 0) s) (fun t => (t.hart.finalV 6).tag == .f32) = true
    ∧ laneAfter (exec (.vsel .i32 6 3 4 false 0) s) 32 6 0 = 1 ∧ laneAfter (exec (.vsel .i32 6 3 4 false 0) s) 32 6 1 = 5
    ∧ laneAfter (exec (.vslide .i32 6 3 1 false 0) s) 32 6 0 = 5 ∧ laneAfter (exec (.vslide .i32 6 3 2 false 0) s) 32 6 0 = 0
    ∧ laneAfter (exec (.vbcast .i8 6 2 true 0) s) 8 6 0 = 0 ∧ laneAfter (exec (.vbcast .i8 6 2 true 0) s) 8 6 1 = 0xFF
    ∧ laneAfter (exec (.vid .i16 6 false 0) s) 16 6 31 = 31 ∧ laneAfter (exec (.vperm .i32 6 3 4 false 0) s) 32 6 0 = 5
    ∧ after (exec (.vmvx .i32 5 3 3 0) s) (fun t => t.x 5 == 0xFFFFFFFF80000000) = true := by decide +kernel

/-- VectorMasks (R119): a NaN compares false and raises NV; -0 and a subnormal under FTZ; ones of the type. -/
theorem test_vector_masks :
    let s := vectors
    let z := csrAs (vregsAs s [⟨lanes 32 [0x80000000, 1, 0x7FC00000], .f32⟩]) (fun c => { c with vmode := 0x40, vmask := 1 })
    after (exec (.vcmplt .f32 1 2 false 0) s) (fun t => t.hart.csr.vmask == 2 + 0 + 1 && t.hart.csr.vflags == 1) = true
    ∧ after (exec (.vcmpeq .i32 3 4 false 0) s) (fun t => t.hart.csr.vmask == 0xFFF8) = true
    ∧ after (exec (.vsetm .f32 0 0) z) (fun t => t.hart.csr.vmask == 4) = true
    ∧ laneAfter (exec (.vgetm .f32 6 0) z) 32 6 0 = 0x3F800000 ∧ laneAfter (exec (.vgetm .i32 6 0) z) 32 6 0 = 1 := by decide +kernel

/-- VectorReductions (R120 to R122): the sum wraps, the other elements are zero, `vdot` of I8 is I32, an I32 source converted first (R102). -/
theorem test_vector_reductions :
    let s := vectors
    laneAfter (exec (.vredsum .i32 6 3 false 0) s) 32 6 0 = 4 ∧ laneAfter (exec (.vredsum .i32 6 3 false 0) s) 32 6 1 = 0
    ∧ laneAfter (exec (.vredmin .i32 6 3 false 0) s) 32 6 0 = 0x80000000 ∧ laneAfter (exec (.vredmax .f32 6 2 false 0) s) 32 6 0 = 0x40000000
    ∧ after (exec (.vdot .i8 6 4 4 false 0) s) (fun t => (t.hart.finalV 6).tag == .i32 && laneOf 32 (t.hart.finalV 6).bits 0 == 1091) = true := by
  decide +kernel

/-- VectorFormats (R123 to R126): a tag written and read, a conversion with rounding, a block and its decoding. -/
theorem test_vector_formats :
    let s := vectors
    after (exec (.vretag 6 1 .i32 0) s) (fun t => (t.hart.finalV 6).tag == .i32) = true
    ∧ after (exec (.vtag 5 3 0) s) (fun t => t.x 5 == 5) = true ∧ laneAfter (exec (.vcvt 6 1 .bf16 false 0) s) 16 6 1 = 0xC000
    ∧ laneAfter (exec (.vcvt 6 2 .i32 false 0) s) 32 6 1 = 0 ∧ OperandsGood s [6, 1, 2] [⟨1, some .f32⟩, ⟨2, some .f32⟩]
    ∧ after (exec (.vqnt 6 1 .e4m3 0) s) (fun t => (t.hart.finalV 6).tag == .e4m3) = true
    ∧ laneAfter (exec (.vdeq 6 7 .f32 0) (vregsAs s [VecReg.zero, VecReg.zero, VecReg.zero, VecReg.zero, VecReg.zero, VecReg.zero, VecReg.zero, ⟨0x38, .e4m3⟩])) 32 6 0
        = 0x3F800000 := by
  refine ⟨by decide +kernel, by decide +kernel, by decide +kernel, by decide +kernel, (State.vcheck_eq_none _ _ _).1 (by decide +kernel),
    by decide +kernel, by decide +kernel⟩

/-- VectorChecksTrap (R106): a register not held, one read early, another format, and a block whose check code fails. -/
theorem test_vector_traps :
    let s := csrAs vectors (fun c => { c with vmode := 3 })
    let early := hartAs s (fun h => { h with inflight := [⟨2, 1, ⟨0, .f32⟩⟩] })
    after (exec (.vadd .f32 8 9 1 false 0) s) (fun t => inS t 26 8) = true ∧ after (exec (.vadd .f32 7 1 2 false 0) early) (fun t => inS t 25 2) = true
    ∧ after (exec (.vadd .f32 7 1 3 false 0) s) (fun t => inS t 24 0x503) = true
    ∧ after (exec (.vretag 6 5 .raw 0) s) (fun t => t.hart.pc == 0x4004) = true
    ∧ chkBad (s.hart.readV 5) .bx8p = true ∧ after (exec (.vdeq 6 5 .bf16 0) s) (fun t => inS t 34 5) = true := by decide +kernel

/-- A hart at 0x4000 that has buffered `vadd.f32 v3, v1, v2`, `addi` and zeros after its own word. -/
def looping (n : Word) : State :=
  hartAs (regsAs (trapping 1) [n]) (fun h => { h with
    fetch := [⟨false, 0x4000, [0, 0, 0, 0, 0xD7, 0x81, 0x20, 0x08, 0x93, 0x82, 0xA2, 0] ++ List.replicate 52 0, []⟩] })

/-- Repetition (R42): the largest count and one more, none, and a body word that no `rep` may repeat. -/
theorem test_rep :
    after (exec (.rep 0 1 1 28) (looping 0xFFFFF)) (fun t => t.hart.pc == 0x4004 && t.hart.csr.repstate == 0x838100FFFFF00000) = true
    ∧ after (exec (.rep 0 1 1 28) (looping 0x100000)) (fun t => inS t 37 0x4000) = true
    ∧ after (exec (.rep 0 1 1 28) (looping 0)) (fun t => t.hart.pc == 0x4008 && t.hart.csr.repstate == 0) = true
    ∧ after (exec (.rep 1 1 0 0) (looping 2)) (fun t => inS t 37 0x4008) = true
    ∧ ((looping 2).scanBody 0x4004 1).2 = none ∧ (nextPc 0x4004 0x8000000000200000).1 = 0x4004 ∧ nextPc 0x4004 0x8000000000200001 = (0x4008, 0)
    ∧ rotate 0x8381000000200001 28 = 29 ∧ rotate 0x8381000000200001 27 = 27 := by decide +kernel

/-- VectorLoads and VectorStores (R127, R128): unit, strided and indexed, with the mask. -/
theorem test_vector_memory :
    let s := csrAs (regsAs (vectors.fill 0x2000 [1, 2, 3, 4]) [0x2000, 8]) (fun c => { c with vmask := 1 })
    passes (checkEarly s .vload (s.unitAddr 1 0) 4) (fun _ leaf => pteFmt leaf == 0) = true
    ∧ passes (checkAll s .vload 4 (unitAddrs .f32 (s.unitAddr 1 0))) (fun _ l => l.length == 16 && l.all (fun e => plain e.2)) = true
    ∧ laneAfter (exec (.vle .f32 6 1 0) s) 32 6 0 = 0x04030201
    ∧ passes (checkAll s .vload 4 (s.strideAddrs .i32 1 2 true)) (fun _ l => l.length == 1) = true
    ∧ laneAfter (exec (.vlds .i32 6 1 2 true) s) 32 6 0 = 0x04030201 ∧ laneAfter (exec (.vlx .i32 6 1 0 false) s) 32 6 15 = 0x04030201
    ∧ passes (checkAll s .vstore 4 (unitAddrs .i32 (s.unitAddr 1 0))) (fun u l => l.length == 16 && u.poison == []) = true
    ∧ after (exec (.vse .i32 3 1 1) s) (fun t => byteSeen t 0x2043 == 0x7F && t.hart.csr.vflags == 0) = true
    ∧ after (exec (.vsds .i32 3 1 2 false) s) (fun t => byteSeen t 0x2008 == 5) = true
    ∧ after (exec (.vsx .i32 4 1 0 false) s) (fun t => byteSeen t 0x2000 == 0) = true := by decide +kernel

/-- FormattedPages (R130): 32 elements of E4M3 to BF16; another type, a misaligned address, and a store under another tag. -/
theorem test_formatted_pages :
    let s := regsAs (vectors.fill 0x2000 [0x38, 0xB8]) [0x40002000]
    passes (checkEarly s .vload (s.unitAddr 1 0) 2) (fun _ leaf => pteFmt leaf == 3) = true
    ∧ passes (check s .vload (s.unitAddr 1 0) 2 true) (fun _ p => plain p) = true
    ∧ passes (check s .vload (s.unitAddr 1 0) 32 true) (fun u p => plain p && !u.badRead false p.key 32) = true
    ∧ laneAfter (exec (.vle .bf16 6 1 0) s) 16 6 1 = 0xBF80 ∧ after (exec (.vle .f32 6 1 0) s) (fun t => inS t 5 0x40002000) = true
    ∧ after (exec (.vle .bf16 6 1 0) (regsAs s [0x40002010])) (fun t => inS t 5 0x40002010) = true
    ∧ after (exec (.vse .bf16 1 1 0) s) (fun t => inS t 7 0x40002000) = true
    ∧ after (exec (.vse .bf16 7 1 0) (vregsAs s [VecReg.zero, VecReg.zero, VecReg.zero, VecReg.zero, VecReg.zero, VecReg.zero, VecReg.zero, ⟨0x77, .e4m3⟩]))
        (fun t => byteSeen t 0x2000 == 0x77 && byteSeen t 0x2001 == 0) = true := by decide +kernel

/-! ### Queues, messages, tiles and ports -/

/-- The party's own queue 5, made with two entries of room and one entry in it. -/
def queued (flags : BitVec 8) : State :=
  (trapping flags).mapQueue 0 5 (fun q => { q with owner := some 0, base := windowBase, cap := 2, count := 1 })

/-- CoreQueues (R180 to R182, R235, R238): an inbox of another slot and a queue not made, a register not held, empty and full queues,
`wait` on none, on one that is barred, and on the lowest non-empty; `qmake` and `qdrop` at the bounds of the window. -/
theorem test_core_queues :
    let s := regsAs ((queued 0).mapQueue 0 0 (fun q => { q with entries := [77] })) [0, 4, 0x21, windowBase, 512, 513, windowBase + 0x8000, 0x23]
    after (exec (.recv 1 2) s) (fun t => inS t 35 2) = true ∧ after (exec (.peek 1 4) s) (fun t => inS t 35 4) = true
    ∧ after (exec (.recv 8 0) s) (fun t => inS t 26 8) = true
    ∧ after (exec (.recv 7 0) s) (fun t => (t.hart.finalV 7).bits == 77 && ((t.core 0).queue 0).entries == []) = true
    ∧ after (exec (.peek 7 5) s) (fun t => t.hart.pc == 0x4004 && ((t.core 0).queue 5).count == 1) = true
    ∧ after (exec (.recv 7 5) s) (fun t => ((t.core 0).queue 5).count == 0 && ((t.core 0).queue 5).head == 1) = true
    ∧ after (exec (.recv 7 1) s) (fun t => t.hart.blocked == some (.queues 2 true)) = true
    ∧ after (exec (.wait 5 1) s) (fun t => inS t 35 8) = true ∧ after (exec (.wait 5 2) s) (fun t => inS t 35 2) = true
    ∧ after (exec (.wait 5 3) s) (fun t => t.x 5 == 0 && t.hart.csr.lastq == 0) = true
    ∧ after (exec (.wait 5 8) (s.mapQueue 0 0 (fun q => { q with entries := [] }))) (fun t => t.x 5 == 5) = true
    ∧ after (exec (.wait 5 8) (trapping 0 |> fun s => regsAs s [0, 0, 0, 0, 0, 0, 0, 3])) (fun t => t.hart.blocked == some (.queues 3 false)) = true := by
  decide +kernel

/-- CoreQueues, the making and dropping of a queue. -/
theorem test_qmake :
    let s := regsAs (trapping 0) [windowBase, 512, 513, windowBase + 0x8000, 0, 4097]
    after (exec (.qmake 4 1 2) s) (fun t => ((t.core 0).queue 4).owner == some 0 && ((t.core 0).queue 4).cap == 512) = true
    ∧ after (exec (.qmake 4 1 3) s) (fun t => inS t 27 (BitVec.ofNat 64 (windowBase + 0x8000))) = true
    ∧ after (exec (.qmake 4 4 2) s) (fun t => inS t 27 (BitVec.ofNat 64 (windowBase + 0x8000))) = true
    ∧ after (exec (.qmake 4 5 2) s) (fun t => inS t 27 0) = true
    ∧ after (exec (.qmake 4 1 5) s) (fun t => inS t 35 4) = true ∧ after (exec (.qmake 4 1 6) s) (fun t => inS t 35 4) = true
    ∧ after (exec (.qmake 5 1 2) (queued 0)) (fun t => inS t 35 5) = true
    ∧ after (exec (.qmake 4 1 2) (regsAs (queued 0) [windowBase + 64, 1])) (fun t => inS t 35 4) = true
    ∧ after (exec (.qdrop 5) (queued 0)) (fun t => (t.core 0).queue 5 == Queue.empty) = true ∧ after (exec (.qdrop 4) (queued 0)) (fun t => inS t 35 4) = true
    ∧ after (exec (.qdrop 5) ((queued 0).mapQueue 0 5 (fun q => { q with granted := 1 }))) (fun t => t.hart.blocked == some (.reclaim 5)) = true
    ∧ after (exec (.qdrop 5) kernel) (fun t => t.hart.csr.scause == 2) = true := by decide +kernel

/-- Messages (R183, R239 to R242, R407, R408): a rank beyond the launch and its last one, an allowance held and none, arrivals,
requests granted and held, returns, a tag that fails, a stream that stops. -/
theorem test_messages :
    let s := regsAs (trapping 0) [63, 64]
    let allowed := s.setCore 0 { s.core 0 with allowances := [(15, 3, 2), (15, 5, 1)] }
    after (exec (.send 2 1) s) (fun t => inS t 35 64) = true ∧ after (exec (.send 1 8) s) (fun t => inS t 26 8) = true
    ∧ (launch_ 0).hartOf 63 = some 63 ∧ allowed.maySend 15 3 = true ∧ s.maySend 15 3 = false ∧ s.scbCheck = false
    ∧ after (exec (.send 1 1) allowed) (fun t => t.events == [.queueEntryArrival 15 3 2 .message] && (t.core 0).unused 15 3 == 1) = true
    ∧ after (exec (.rput 5 1 1) allowed) (fun t => (t.core 0).unused 15 5 == 0 && t.hart.pc == 0x4004) = true
    ∧ after (exec (.rput 5 1 1) { allowed with launches := [launch_ 1] }) (fun t => t.launches.map Launch.appends == [[(0, 15, 5, 0)]]) = true
    ∧ after (exec (.send 1 1) s) (fun t => t.hart.blocked == some (.allowance 15 3)) = true
    ∧ after (exec (.rput 5 1 1) kernel) (fun t => t.hart.csr.scause == 2) = true := by decide +kernel

/-- Messages, at the target and in the interface. -/
theorem test_allowances :
    let s := user 0
    s.recordOf 0 0 = none ∧ s.coreLaunch 20 = none
    ∧ after (exec (.queueEntryArrival 0 1 9 .message) s) (fun t => ((t.core 0).queue 1).entries == [9]) = true
    ∧ after (exec (.queueEntryArrival 20 1 9 .hardware) s) (fun t => ((t.core 20).queue 1).entries == [9]) = true
    ∧ after (exec (.queueEntryArrival 0 1 9 (.tagFailure 7)) s) (fun t => t.launch? 1 == none) = true
    ∧ after (exec (.allowanceRequest 2 0 3) s) (fun t => t.events == [.allowanceGrant 2 0 3 8] && ((t.core 0).queue 3).granted == 8) = true
    ∧ after (exec (.allowanceRequest 2 0 5) s) (fun t => ((t.core 0).queue 5).requests == [2] && t.events == []) = true
    ∧ after (exec (.allowanceGrant 2 0 3 8) s) (fun t => (t.core 2).unused 0 3 == 8) = true
    ∧ after (exec (.allowanceReturn 2 0 3) (s.setCore 2 { s.core 2 with allowances := [(0, 3, 8)] })) (fun t => (t.core 2).unused 0 3 == 0) = true
    ∧ after (exec (.allowanceReclaim 0 3) (s.setCore 2 { s.core 2 with allowances := [(0, 3, 8)] })) (fun t => (t.core 2).unused 0 3 == 0) = true
    ∧ after (exec (.streamStop 0) s) (fun t => (t.core 0).meshStopped) = true
    ∧ after (exec (.streamStop 0) (s.setCore 0 { s.core 0 with encl := 0x10007 } |> fun s => { s with keys := [⟨0, true, .context 7, 0, 0, []⟩] }))
        (fun t => !(t.core 0).meshStopped) = true := by decide +kernel

/-- TagsAndTiles (R231 to R233, R294 to R296): a tag found and not, the last slot held and the next, a view that just fits and one
that does not, and a tile not configured. -/
theorem test_tags_tiles :
    let s := regsAs (trapping 0) [0x200000, 0x80050000 + 127, 128, 0x7FC0, 0x100000000 + 15 * 256, 0x100000000 + 16 * 256, 2]
    let tagged := s.setCore 0 { s.core 0 with tags := [⟨0, 3, 0x2000, true, 5⟩] }
    after (exec (.slook 5 1) s) (fun t => t.x 5 == 0xFFFFFFFFFFFFFFFF) = true ∧ after (exec (.slook 5 1) tagged) (fun t => t.x 5 == 0x1050003) = true
    ∧ after (exec (.sinv 1) tagged) (fun t => (t.core 0).tags == []) = true ∧ after (exec (.sclean 1) tagged) (fun t => (t.core 0).tags == [⟨0, 3, 0x2000, false, 5⟩]) = true
    ∧ after (exec (.sinst 1 2) s) (fun t => (t.core 0).tags == [⟨0, 127, 0x2000, true, 5⟩]) = true
    ∧ after (exec (.sinst 1 3) s) (fun t => inS t 27 (BitVec.ofNat 64 (windowBase + 0x8000))) = true
    ∧ after (exec (.mtcfg 1 4 5) s) (fun t => t.hart.mt[1].getLsbD 52 && (t.hart.mt[1].extractLsb' 27 8).toNat == 15) = true
    ∧ after (exec (.mtcfg 1 4 6) s) (fun t => inS t 33 1) = true ∧ after (exec (.mtpack 1 1 false) s) (fun t => inS t 33 1) = true
    ∧ after (exec (.mtpack 8 1 false) s) (fun t => inS t 26 8) = true
    ∧ laneAfter (exec (.mtpack 6 1 true) (hartAs s (fun h => { h with mt := h.mt.set 1 0x1F000000000040 }))) 64 6 2 = 0xF000000000040
    ∧ after (exec (.slook 5 1) kernel) (fun t => t.hart.csr.scause == 2) = true := by decide +kernel

/-- QueuePorts (R285 to R287, R299): a word staged, the fourth submitted, a port with a word staged, no room, no lease and the lease,
`qpop` of an oldest SHIP. -/
theorem test_queue_ports :
    let s := regsAs (trapping 0) [0x122]
    let staged := hartAs s (fun h => { h with stage := h.stage.set 1 ⟨3, 0x22⟩ })
    let leased := s.setCluster 0 { s.cluster 0 with lease := ⟨some 0, false, 0, 0, 0, none⟩ }
    let ships := hartAs s (fun h => { h with ships := [some 9, none] })
    OperandsGood s [1] [⟨1, none⟩]
    ∧ after (exec (.qput 1 1) s) (fun t => t.hart.stage[1].fill == 1 && t.hart.stage[1].word == 0x122 && t.engines == []) = true
    ∧ after (exec (.qput 1 1) staged) (fun t => t.hart.stage[1].fill == 0 && t.engines.map (fun a => a.cmd.word) == [0x122 * 2 ^ 192 + 0x22]) = true
    ∧ after (exec (.qpush 1 1 false) staged) (fun t => inS t 35 1) = true ∧ s.engineReady 0 0 0 0 = false ∧ leased.engineReady 0 0 0 0 = true
    ∧ after (exec (.qpush 0 1 true) s) (fun t => t.hart.blocked == some (.engine 0 0)) = true
    ∧ after (exec (.qpush 0 1 true) leased) (fun t => t.engines.length == 1 && (t.cluster 0).lease.commands == 1) = true
    ∧ after (exec (.qpop 5 2) ships) (fun t => t.x 5 == 9 && t.hart.ships == [none]) = true ∧ after (exec (.qpop 5 2) s) (fun t => inS t 35 2) = true
    ∧ after (exec (.qpop 5 2) (hartAs s (fun h => { h with ships := [none] }))) (fun t => t.hart.blocked == some .ship) = true
    ∧ after (exec (.qpop 5 1) ships) (fun t => inS t 35 1) = true ∧ after (exec (.qput 0 1) monitor) (fun t => inM t 2 0x0000808B 0x1000 || t.hart.csr.mcause == 2) = true
    ∧ after (exec (.qput 0 1) kernel) (fun t => t.hart.csr.scause == 35) = true := by
  refine ⟨(State.vcheck_eq_none _ _ _).1 (by decide +kernel), ?_⟩; decide +kernel

/-- QueuePorts, the lease (R299): it passes to the next core that asks, and from a holder that was idle. -/
theorem test_lease :
    let s := hartAs (user 0) (fun h => { h with blocked := some (.engine 0 0) })
    let held := s.setCluster 0 { s.cluster 0 with lease := ⟨some 3, false, 3, 1, 1, some 0⟩ }
    after (exec (.leaseGrant 0) s) (fun t => (t.cluster 0).lease.holder == some 0) = true ∧ held.leaseIdle 0 = true
    ∧ after (exec (.leaseIdleExpiry 0) held) (fun t => (t.cluster 0).lease.holder == none && t.clock == 64) = true := by decide +kernel

/-! ### Kernel and monitor -/

/-- A launch record at 0x40000: VERSION 1, one stage, every cluster, and a stage of one hart. -/
def withRecord (s : State) : State :=
  ((s.fill 0x40000 [1, 0, 1, 1, 1]).fill 0x40040 (bytesOfNat 8 0x4000 ++ [1, 8, 8, 0, 0, 0, 0, 0, 4])).fill 0x40020 [0xFF, 0xFF, 0xFF, 0xFF]

/-- KernelWords (R134 to R138, R267, R362): `scall` with a ring, without one and with a full one; `mprobe` of a page, of none and of
an address that is none; `launch` of a record that is misaligned, of one that lacks its clusters, and of a good one. -/
theorem test_kernel_words :
    let u := regsAs (trapping 0) [0x2000, 0x80000000, 0x200000000000000]
    let ringed := u.fill 0x11150 (bytesOfNat 8 0x50000)
    let full := ringed.fill 0x50000 [1]
    let k := regsAs (withRecord kernel) [0x40000, 0x40001]
    after (exec (.scall 1) u) (fun t => inS t 8 0) = true ∧ ringNamed 0x50000 = true
    ∧ passes (check ringed .load 0x2000 64 false) (fun w _ => !(w.publish).ringFull 0x50000) = true
    ∧ after (exec (.scall 1) ringed) (fun t => t.loadNat 0x50000 4 == 1 && t.loadNat 0x50044 2 == 7) = true
    ∧ after (exec (.scall 1) full) (fun t => t.hart.blocked == some .ring) = true
    ∧ after (exec (.mprobe 5 1) u) (fun t => (t.x 5).getLsbD 0 && t.x 5 >>> 32 == 0) = true
    ∧ after (exec (.mprobe 5 2) u) (fun t => t.x 5 == 0x200000000) = true ∧ after (exec (.mprobe 5 3) u) (fun t => t.x 5 == 0x100000000) = true
    ∧ after (exec (.mhint 1 2) u) (fun t => t.hart.pc == 0x4004) = true
    ∧ after (exec (.launch 5 1) u) (fun t => t.hart.csr.scause == 2) = true ∧ after (exec (.launch 5 2) k) (fun t => t.x 5 == 5) = true
    ∧ after (exec (.launch 5 1) k) (fun t => t.x 5 == 0x10000 && t.launches.map Launch.submitter == [4096]) = true
    ∧ after (exec (.launch 5 1) { k with contexts := [{ context with clusters := [] }] }) (fun t => t.x 5 == 2) = true := by decide +kernel

/-- MonitorWords (R402 to R406, R410): each instruction's results. -/
theorem test_monitor_words :
    let key (n : Nat) (p : Bool) (k : KeyKind) : KeySlot := ⟨n, p, k, 0, 0, []⟩
    let s := regsAs { monitor with keys := [key 3 false .model, key 4 false (.context 7)] } [0x203, 0x205, 3, 0x80, 7, 8, 0x303, 0x70080]
    let all : State := { s with keys := (List.range 128).map (fun n => key n false .kernel) }
    let res (o : Out) (r : Nat) : Bool := after o (fun t => (t.hart.csr.mstat.extractLsb' 0 4).toNat == r && t.hart.pc == 0x1004)
    res (exec (.monkey 1 0) s) 2 = true ∧ res (exec (.monkey 2 0) s) 0 = true ∧ res (exec (.monkey 7 0) s) 0 = true
    ∧ res (exec (.monkey 4 0) all) 1 = true ∧ after (exec (.monkey 8 0) s) (fun t => t.keys.map KeySlot.slot == [3, 4, 0] && t.keys.map KeySlot.pending == [false, false, true]) = true
    ∧ res (exec (.monkey 8 0) { s with keys := s.keys ++ [key 5 true (.context 7)] }) 5 = true
    ∧ after (exec (.monseal 5 3) s) (fun t => t.sealedKeys == [(56, 3)]) = true ∧ after (exec (.monseal 5 4) { s with sealedKeys := [(56, 3)] }) (fun t => t.sealedKeys == []) = true
    ∧ res (exec (.monseal 5 6) s) 2 = true ∧ res (exec (.monenter 6) s) 4 = true ∧ after (exec (.monenter 5) s) (fun t => (t.core 1024).encl == 0x10007) = true
    ∧ res (exec (.monenter 5) (s.setCore 1024 { s.core 1024 with encl := 0x10001 })) 5 = true
    ∧ after (exec .monleave (s.setCore 1024 { s.core 1024 with encl := 0x10001 })) (fun t => (t.core 1024).encl == 0) = true
    ∧ after (exec .monleave kernel) (fun t => t.hart.csr.scause == 2) = true
    ∧ after (exec (.monenter 5) (hartAs s (fun h => { h with lostStore := true }))) (fun t => inM t 7 0 0x1000) = true := by decide +kernel

/-- MonitorWords, the rotation of a key (R410). -/
theorem test_rotation :
    let key (n : Nat) (p : Bool) : KeySlot := ⟨n, p, .context 7, 0, 0, []⟩
    let s := csrAs { monitor with keys := [key 3 false, key 4 true] } (fun c => { c with rkctl := 7 })
    let r : Rotation := ⟨7, 4096, [], false⟩
    after (exec (.rkctlGo 4096) s) (fun t => t.rotations.map Rotation.ctx == [7] && .rotationComplete 7 ∈ t.events) = true
    ∧ after (exec (.rkctlGo 4096) { s with keys := [key 3 false] }) (fun t => (t.hart.csr.mstat.extractLsb' 0 4) == 4) = true
    ∧ after (exec (.rkctlGo 4096) { s with rotations := [r] }) (fun t => (t.hart.csr.mstat.extractLsb' 0 4) == 5) = true
    ∧ after (exec (.rotationComplete 7) { s with rotations := [r] }) (fun t => t.hart.csr.meip && .oldKeyRetire 7 ∈ t.events) = true
    ∧ after (exec (.oldKeyRetire 7) { s with rotations := [{ r with done := true }] }) (fun t => t.keys == [key 4 false]) = true := by decide +kernel

/-- FrameRecord (R369, R374 to R379): a LEND by `frec`, counts 0, 32 and 33, a release, an expiry and a revocation, the port of a host
core, and a store through the domain window. -/
theorem test_frame_record :
    let s := regsAs (monitor.fill 0x50000 [5, 1, 1, 3, 0, 0, 0, 0, 0x30]) [0x50000, 1, 0, 33]
    let port := monitor.setPort 2 { PortGroup.reset with batch := 0x50000 }
    let recalled : State := { monitor with recalls := [⟨0x30, 5000, false⟩], frames := [(0x30, 0x1E)] }
    after (exec (.frec 5 1 2) s) (fun t => t.x 5 == 0 && (t.entry 0x30).extractLsb' 0 6 == 0x1A) = true
    ∧ after (exec (.frec 5 1 3) s) (fun t => t.x 5 == 0xFF01) = true ∧ after (exec (.frec 5 1 4) s) (fun t => t.x 5 == 0xFF01) = true
    ∧ after (exec (.frec 5 1 2) (trapping 0)) (fun t => t.hart.csr.scause == 2) = true
    ∧ after (exec (.batchCommit .accel 0x50000 1) s) (fun t => (t.entry 0x30).extractLsb' 2 2 == 2) = true
    ∧ after (exec (.rpGo 2 1) port) (fun t => (t.portGroup 2).busy == some (0x50000, 1) && t.events == [.batchCommit .host 0x50000 1]) = true
    ∧ after (exec (.rpGo 31 1) (monitor.setPort 31 { PortGroup.reset with busy := some (0, 1) })) (fun t => (t.portGroup 31).held == [1]) = true
    ∧ after (exec (.batchCommit .host 0x50000 1) (port.setPort 2 { PortGroup.reset with busy := some (0x50000, 1) })) (fun t => (t.portGroup 2).done == 1 && (t.portGroup 2).busy == none) = true
    ∧ after (exec (.firmwareRelease 0x30) { monitor with frames := [(0x30, 0x20)] }) (fun t => t.entry 0x30 == 2) = true
    ∧ after (exec (.recallDeadlineExpiry 0x30) recalled) (fun t => t.events == [.revocationCommit 0x30] && t.clock == 5000) = true
    ∧ after (exec (.revocationCommit 0x30) { recalled with recalls := [⟨0x30, 5000, true⟩] }) (fun t => (t.entry 0x30).getLsbD 8 && t.recalls == []) = true
    ∧ after (exec (.suspClear .host) { monitor with suspHost := true }) (fun t => !t.suspHost) = true
    ∧ after (exec (.domainWindowAccess ⟨false, 0x300000, some [7], 1⟩) { monitor with frames := [(0x30, 0x4002)] }) (fun t => Memory.get t.mem 0x300000 == 7) = true
    ∧ after (exec (.domainWindowAccess ⟨false, 0x300000, some [7], 1⟩) monitor) (fun t => t.mem == []) = true := by decide +kernel

/-! ### Commands -/

/-- A state in which the engine has accepted a command. -/
def accepting (s : State) (c : Command) : State := { s with engines := [atEngine c false] }

/-- A command of service-core hart 0 in S-mode. -/
def byKernel (port : Nat) (w : BitVec 256) : Command :=
  { word := w
    by_ := { hart := 4096, port := port, root := 0x10000, ctx := 7, ctxid := 7, mode := .s, kfaultq := 0, rank := 0, party := none, launch := none,
             pmp := Pmp.reset, near := false }
    done := 0
    id := 0 }

/-- The command has completed, and its entry in the pusher's inbox has this STATUS and WORD1; then what holds of the state. -/
def completed (o : Out) (c : Command) (st w : Nat) (f : State → Bool) : Bool :=
  after o (fun t => t.engines == [] && f t
    && ((t.core (c.by_.hart / 4)).queue 0).entries.map (fun e => ((e.extractLsb' 0 32).toNat, (e.extractLsb' 64 64).toNat)) == [(st * 65536, w)])

/-- The same, for the instruction of a command at its engine. -/
def runs (s : State) (f : Command → Instr) (c : Command) (st w : Nat) (g : State → Bool) : Bool :=
  completed (exec (f c) (accepting s c)) c st w g

/-- CommandRules (R286, R289, R292): a command that is not at its engine, another port's CMD, bits [15:14], RESUME and ATOMIC where
they are not defined, a kernel's command from U-mode; a completion with NOTIFY, and one without. -/
theorem test_command_rules :
    let s := user 0
    after (exec (.cpy (byParty 1 0x20)) s) (fun t => t == s) = true
    ∧ runs s .cpy (byParty 2 0x20) 1 0 (fun _ => true) = true ∧ runs s .fill (byParty 1 0x8022) 1 0 (fun _ => true) = true
    ∧ runs s .gather (byParty 2 0x440) 1 0 (fun _ => true) = true ∧ runs s .fill (byParty 1 0x822) 1 0 (fun _ => true) = true
    ∧ runs s .migr (byParty 1 0x26) 1 0 (fun _ => true) = true
    ∧ (let c := byParty 1 0x50120
       completed (exec (.commandCompletion c 0 9 4) (accepting s c)) c 0 9 (fun t => ((t.core 0).queue 0).entries.all (fun e => entryTag e == 5 && bitsNat e 128 128 == 4)) = true)
    ∧ after (exec (.commandCompletion (byParty 1 0x20) 0 9 4) (accepting s (byParty 1 0x20))) (fun t => t.engines == [] && t.cores == []) = true := by
  decide +kernel

/-- A view: base, rows, columns, stride in 64 bytes, and type. -/
def view (base rows cols stride ty : Nat) : Nat := base + (rows - 1) * 2 ^ 19 + (cols - 1) * 2 ^ 27 + stride * 2 ^ 35 + ty * 2 ^ 48

/-- A command word from CMD, its fields from bit 32 up, and op0 to op2. -/
def word (cmd fields op0 op1 op2 : Nat) : BitVec 256 := BitVec.ofNat 256 (cmd + fields * 2 ^ 32 + op0 * 2 ^ 64 + op1 * 2 ^ 128 + op2 * 2 ^ 192)

/-- MatrixCommands (R307 to R309, R311, R312): a view that just fits the two extents and one that does not; one BF16 record; 1.0 by
2.0 into a zero C; a row drained to F32. -/
theorem test_matrix_commands :
    let s := user 0
    let data := (s.fill 0x2000 [0x00, 0x40]).fill (spadKey 0 0) [0x80, 0x3F]
    let loaded := data.fill (hamperKey 0 0) [0x00, 0x40]
    let dirty := s.fill (spadKey 0 0x7FFC) [1, 2, 3, 4]
    runs dirty .mzero (byParty 0 (word 0x100 0 0 (view 0x7F80 2 16 1 1) 0)) 0 128 (fun t => Memory.get t.mem (spadKey 0 0x7FFC) == 0) = true
    ∧ runs s .mzero (byParty 0 (word 0x100 0 0 (view 0x7FC0 2 16 1 1) 0)) 6 0 (fun _ => true) = true
    ∧ after (exec (.mzero (byParty 0 (word 0x100 0 0 (view 0 1 16 0 1) 0))) (accepting (alone s) (byParty 0 (word 0x100 0 0 (view 0 1 16 0 1) 0))))
        (fun t => t.engines == [] && t.mem == s.mem) = true
    ∧ (let c := byParty 0 (word 0x101 (2 * 2 ^ 5) 0x2000 0 0); badLoad c = false ∧ s.imageUnheld c = false
       ∧ runs data .mloadw c 0 64 (fun t => Memory.get t.mem (hamperKey 0 1) == 0x40) = true)
    ∧ runs data .mloadw (byParty 0 (word 0x101 (2 * 2 ^ 5 + 1) 0x2000 0 0)) 6 0 (fun _ => true) = true
    ∧ (let c := byParty 0 (word 0x102 (2 * 2 ^ 5) (view 0 1 32 0 2) (view 0x40 1 1 0 1) 0); badMma c = false
       ∧ after (exec (.mma c) (accepting loaded c)) (fun t => t.loadNat (spadKey 0 0x40) 4 == 0x40000000 && t.engines == []) = true)
    ∧ (let c := byParty 0 (word 0x103 0 (view 0x40 1 1 0 1) (view 0x80 1 1 0 1) 0)
       runs (s.fill (spadKey 0 0x40) [0, 0, 0x80, 0x3F]) .mdrain c 0 1 (fun t => t.loadNat (spadKey 0 0x80) 4 == 0x3F800000) = true)
    ∧ runs s .mend (byParty 0 0x104) 0 0 (fun _ => true) = true := by decide +kernel

/-- CopyCommands (R318 to R320): a copy and a fill of a few bytes, the whole length as OFFSET and one more, a descriptor of one row,
a slot filled and written back, a prefetch. -/
theorem test_copy_commands :
    let s := (user 0).fill 0x2000 [1, 2, 3, 4]
    let c := byParty 1 (word 0x120 0 0x2000 0x3000 4)
    let desc := s.fill 0x2100 (bytesOfNat 4 4 ++ bytesOfNat 4 1 ++ bytesOfNat 4 1 ++ bytesOfNat 4 1)
    let filled := (s.setCore 0 { s.core 0 with tags := [⟨0, 3, 0x30, true, 0⟩] }).fill (spadKey 0 0x300) [9]
    runs s .cpy c 0 4 (fun t => t.loadNat 0x3000 4 == 0x04030201) = true
    ∧ runs s .cpy (byParty 1 (word 0x120 0 0x80000000 0x3000 4)) 2 0 (fun _ => true) = true
    ∧ runs s .fill (byParty 1 (word 0x122 0 0x0807060504030201 0x3000 10)) 0 10 (fun t => t.loadNat 0x3008 2 == 0x0201) = true
    ∧ runs s .fill (byParty 1 (word 0x522 10 1 0x3000 10)) 0 10 (fun t => t.mem == s.mem) = true
    ∧ runs s .fill (byParty 1 (word 0x522 11 1 0x3000 10)) 1 0 (fun _ => true) = true ∧ runs s .fill (byParty 1 (word 0x122 1 1 0x3000 10)) 1 0 (fun _ => true) = true
    ∧ runs s .cpy (byParty 1 (word 0x120 0 0x2000 0x3000 0)) 0 0 (fun _ => true) = true
    ∧ runs desc .cpyt (byParty 1 (word 0x121 0 0x2000 0x3000 0x2100)) 0 4 (fun t => t.loadNat 0x3000 4 == 0x04030201) = true
    ∧ runs s .cpyt (byParty 1 (word 0x121 0 0x2000 0x3000 0x2100)) 1 0 (fun _ => true) = true
    ∧ runs s .sfill (byParty 1 (word 0x123 0 0x2000 3 0)) 0 1 (fun t => (t.core 0).tags == [⟨0, 3, 0x20, false, 0⟩] && t.loadNat (spadKey 0 0x300) 4 == 0x04030201) = true
    ∧ runs s .sfill (byParty 1 (word 0x123 0 0x2000 128 0)) 6 0 (fun _ => true) = true
    ∧ runs filled .sevict (byParty 1 (word 0x124 0 0 3 0)) 0 1 (fun t => Memory.get t.mem 0x3000 == 9 && (t.core 0).tags.all (fun e => !e.dirty)) = true
    ∧ after (exec (.pref (byParty 1 (word 0x125 0 0x2000 0 64))) (accepting s (byParty 1 (word 0x125 0 0x2000 0 64)))) (fun t => t.engines == [] && t.mem == s.mem) = true := by
  decide +kernel

/-- A page of 64 KiB at VA 2 GiB, its leaf as given, and a list of one record that moves it from PA 0x200000 to PA 0x400000. -/
def paged (leaf : Nat) : State :=
  ((((kernel.fill 0x13010 (bytesOfNat 8 0x14001)).fill 0x14000 (bytesOfNat 8 0x15001)).fill 0x15000
    ((List.range 16).flatMap (fun _ => bytesOfNat 8 leaf))).fill 0x30000 (bytesOfNat 8 0x15000 ++ bytesOfNat 8 0x4000F7))

/-- CopyCommands, MIGR (R270 to R277): a pinned page, a destination not held, no room in the filter, a copy that begins, and the ends
of a round: cancelled, and dirty. -/
theorem test_migration :
    let c := byKernel 1 (word 0x126 7 0x80000000 0x400000 0x30000)
    let m : Migration := { cmd := c, cmp := 0, round := 0, src := 0x200000, dst := 0x400000, size := 0x10000, cluster := 64, dirty := [], abandon := none,
                           leaves := [(0x15000, 0x4000F7)] }
    let s := paged 0x2000F7
    let under (m : Migration) : State := { s with migrations := [m], engines := [atEngine c true] }
    badMigr s c = false ∧ (s.migrLeaves c).all (fun l => s.tableMemory l.1) = true
    ∧ runs (paged 0x2001F7) .migr c 9 0 (fun _ => true) = true ∧ s.accelHolds 0x200000 0x10000 = true
    ∧ runs { s with frames := [(0x40, 1)] } .migr c 9 0 (fun _ => true) = true
    ∧ filterRoom s s.migrations 0x200000 0x10000 = true ∧ betweenDevices s 0x200000 0x400000 = none
    ∧ completed (exec (.migrRoundDone false) (under { m with abandon := some 0 })) c 7 0 (fun t => t.migrations == []) = true
    ∧ s.hart.pending = [] ∧ s.others = [] ∧ s.lines = [] ∧ s.poison = [] ∧ Memory.wf s.mem = true
    ∧ after (exec (.migrRoundDone true) (under m)) (fun t => t.migrations.map Migration.round == [1] && t.mem == s.mem) = true
    ∧ Memory.get ((s.fill 0x200100 [9]).copyRaw 0 0x200000 0x400000 0x10000).mem 0x400100 = 9
    ∧ (match s.migrSource c with
        | .ok (_, bits, src) => bits == 16 && src == 0x200000
        | .error _ => false) = true
    ∧ after (exec (.migr c) (accepting s c)) (fun t => t.migrations.map Migration.round == [0] && t.mem == s.mem) = true := by
  decide +kernel

/-- The routine of R325's example, fetch-and-add, at 0x20000 and loaded as routine 5. -/
def fetchAdd : List (BitVec 32) := [0x05000000, 0x0DA00000, 0x08300000, 0x01000000] ++ List.replicate 28 0

/-- SiteCommands, the site engine (R323 to R326): an element gathered and one scattered, none, an index page that is not mapped; a
routine not loaded, one that runs, one loaded, and an image that is misaligned. -/
theorem test_site_commands :
    let s := ((user 0).fill 0x2000 [1, 2, 3, 4]).fill 0x2800 [1]
    let gather (n : Nat) : Command := byParty 2 (word 0x140 (1 + n * 2 ^ 8) 0x2000 0x2800 0x3000)
    let routed : State := hartAs { s with routines := [(5, fetchAdd)] } (fun h => { h with ships := [none] })
    let ship (slot : Nat) : Command := byParty 2 (word 0x142 slot 0x2000 10 0)
    let image := kernel.fill 0x20000 (fetchAdd.flatMap (fun w => bytesOfNat 4 w.toNat))
    runs s .gather (gather 1) 0 1 (fun t => t.loadNat 0x3000 2 == 0x0403) = true ∧ runs s .gather (gather 0) 0 0 (fun _ => true) = true
    ∧ runs s .scatter (byParty 2 (word 0x141 (1 + 2 ^ 8) 0x3000 0x2800 0x2000)) 0 1 (fun t => t.loadNat 0x3002 2 == 0x0201) = true
    ∧ runs s .gather (byParty 2 (word 0x140 (1 + 2 ^ 8) 0x2000 0x80000000 0x3000)) 2 0 (fun _ => true) = true
    ∧ runs s .ship (ship 4) 1 0 (fun _ => true) = true
    ∧ after (exec (.ship (ship 5)) (accepting routed (ship 5))) (fun t => t.loadNat 0x2000 8 == 0x0403020B && t.hart.ships == [some 0x04030201]) = true
    ∧ runs image .tabload (byKernel 2 (word 0x143 5 0x20000 0 0)) 0 128 (fun t => t.routines == [(5, fetchAdd)]) = true
    ∧ runs image .tabload (byKernel 2 (word 0x143 5 0x20040 0 0)) 1 0 (fun _ => true) = true
    ∧ runs image .tabload (byKernel 2 (word 0x143 (63 + 64) 0x20000 0 0)) 1 0 (fun _ => true) = true := by decide +kernel

/-- SiteCommands, the collective engine (R327 to R329): COUNT 0, a command that starts, and the match of one participant. -/
theorem test_collectives :
    let s := (user 0).fill 0x2000 [1, 2, 3, 4]
    let c (n : Nat) : Command := byParty 3 (word 0x160 4 0x2000 0x3000 (n + 2 ^ 32))
    badCollective (c 1) = false ∧ badFold (c 1) = false ∧ badFold (c 0) = true
    ∧ after (exec (.callred (c 0)) (accepting s (c 0))) (fun t => t.engines == [atEngine (c 0) true]) = true
    ∧ completed (exec (.collectiveMatch 1 0 1 0) { s with engines := [atEngine (c 0) true] }) (c 0) 1 0 (fun _ => true) = true
    ∧ after (exec (.callred (c 1)) (accepting s (c 1))) (fun t => t.engines == [atEngine (c 1) true]) = true
    ∧ runs { s with broken := [⟨collectiveKey (c 1), []⟩] } .callred (c 1) 8 0 (fun _ => true) = true
    ∧ after (exec (.collectiveMatch 1 0 1 0) s) (fun t => t == s) = true
    ∧ completed (exec (.collectiveMatch 1 0 1 0) { s with engines := [atEngine (c 1) true] }) (c 1) 0 4 (fun t => t.loadNat 0x3000 4 == 0x04030201) = true := by
  decide +kernel

/-- SiteCommands, the network engine (R330, R331, R398): an endpoint that is not VALID and one that is, a length no queue post has,
a message for a post, an answer, and the second without a post. -/
theorem test_network_commands :
    let s := (user 0).fill 0x2000 [1, 2, 3, 4]
    let open_ := ((s.fill 0x11168 (bytesOfNat 8 0x60000)).fill 0x11170 [1]).fill 0x60016 [1]
    let send : Command := byParty 4 (word 0x180 0 0x2000 0 64)
    let post : Command := byParty 4 (word 0x183 0xFFFF 0x3000 0 64)
    let posted : State := { open_ with engines := [atEngine post true], jobs := [(0, 0x1000700000009)] }
    runs s .nsend send 8 0 (fun _ => true) = true ∧ after (exec (.nsend send) (accepting open_ send)) (fun t => t.engines == [atEngine send true]) = true
    ∧ runs s .npost (byParty 4 (word 0x183 (0xFFFF + 2 ^ 16) 0 0 65)) 1 0 (fun _ => true) = true
    ∧ after (exec (.npost post) (accepting open_ post)) (fun t => t.engines == [atEngine post true]) = true
    ∧ completed (exec (.networkPacketArrival (.message 9 0 3 [7, 8])) posted) post 0 2 (fun t => t.loadNat 0x3000 2 == 0x0807) = true
    ∧ after (exec (.networkPacketArrival (.message 8 0 3 [7, 8])) posted) (fun t => t == posted) = true
    ∧ completed (exec (.networkPacketArrival (.answer 0 0 true [])) { open_ with engines := [atEngine send true] }) send 0 64 (fun _ => true) = true
    ∧ completed (exec (.nsendTimeout send) { open_ with engines := [atEngine send true] }) send 8 0 (fun _ => true) = true
    ∧ after (exec (.networkPacketArrival (.write 9 1 0 [7])) posted) (fun t => t == posted) = true := by decide +kernel

/-! ### Launches, parties, contexts -/

/-- A launch of one party of one hart, which has arrived at the exchange of superstep 3 with a store pending. -/
def arrived : State :=
  let s := hartAs (user 1) (fun h => { h with
    blocked := some (.barrier 5 none)
    pending := [(0x2000, 7)] })
  { s with parties := [{ party with slots := [0] }], launches := [{ launch_ 1 with arrivals := [(0, 0)] }] }

/-- A launch of one stage with nothing left to do. -/
def finished_ : Launch := { launch_ 0 with sweep := some (0, 0), completion := 64 }

/-- LaunchEvents, the exchange (R150, R151, R176): all arrived and one that has not; in a debug stop's way nothing. -/
theorem test_exchange :
    arrived.launch? 1 = arrived.ctxLaunch 7 ∧ (arrived.ctxLaunch 7).map (arrived.exchangeReady ·) = some true
    ∧ after (exec (.exchange 1) arrived) (fun t => t.x 5 == 4 && t.hart.csr.sstep == 4 && t.hart.pc == 0x4004 && t.hart.pending == []
        && Memory.get t.mem 0x2000 == 7 && t.launches.map Launch.sstep == [4]) = true
    ∧ after (exec (.exchange 1) (user 1)) (fun t => t == user 1) = true := by decide +kernel

/-- LaunchEvents, the tree's sweeps and the end of a launch (R149, R154, R155). -/
theorem test_sweep_end :
    let idle : State := { user 0 with parties := [], launches := [finished_] }
    let once : State := { idle with launches := [{ finished_ with sweep := none }] }
    let queued : Launch := { launch_ 0 with stallSeen := true, queues := [noTasks, { noTasks with tasks := [⟨0, 0⟩, ⟨0, 0⟩] }] }
    let full : Launch := { queued with stages := [stage0, { stage0 with harts := 4, capacity := 2 }] }
    let stuck := hartAs { user 0 with parties := [{ party with slots := [0] }], launches := [full] } (fun h => { h with blocked := some (.stage 1) })
    idle.allIdle finished_ = true ∧ (user 0).allIdle (launch_ 0) = false ∧ (user 0).stuck (launch_ 0) = false
    ∧ after (exec (.headcountSweep 1) idle) (fun t => t.events == [.launchEnd 1]) = true
    ∧ after (exec (.headcountSweep 1) once) (fun t => t.launches.map Launch.sweep == [some (0, 0)]) = true
    ∧ after (exec (.headcountSweep 1) (user 0)) (fun t => t.launches.map Launch.sweep == [none]) = true
    ∧ after (exec (.headcountSweep 1) stuck) (fun t => t.launches.map Launch.ended == [some .stalled]) = true
    ∧ stuck.stuck full = true
    ∧ after (exec (.launchEnd 1) idle) (fun t => t.launch? 1 == none && ((t.core 1024).queue 0).entries.map (fun e => (e.extractLsb' 0 48).toNat) == [0x100000003]) = true
    ∧ after (exec (.launchEnd 1) (user 0)) (fun t => t == user 0) = true := by decide +kernel

/-- LaunchEvents, the dispatcher (R137, R141 to R144): a task placed, one read from the list, and none to place. -/
theorem test_dispatch :
    let l : Launch := { launch_ 0 with queues := [{ noTasks with tasks := [⟨5, 3⟩] }, noTasks] }
    let s : State := { user 0 with hid := 4096, parties := [], launches := [l], hart := Hart.reset }
    let reading : State := { s with launches := [{ launch_ 0 with tasksPtr := 0x2000, initial := some none }] }
    let moving (l : Launch) : State := { s with launches := [{ l with initial := some (some [⟨6, 0⟩, ⟨7, 0⟩]) }] }
    s.placing l = true ∧ (s.placement l).isSome = true ∧ (s.placement (launch_ 0)) = none
    ∧ after (exec (.taskPlacement 1) s) (fun t => t.nextParty == 2 && t.parties.all (fun p => p.id == 1 && p.stage == 0 && p.spad.length == 2
        && (t.getHart (4 * p.core + p.slots.headD 0)).running && (t.getHart (4 * p.core + p.slots.headD 0)).x[13] == 3)
        && t.parties.length == 1) = true
    ∧ after (exec (.initialTasks 1) ((reading.fill 0x2000 [1]).fill 0x2040 [6])) (fun t => t.launches.map Launch.initial == [some (some [⟨6, 0⟩])]) = true
    ∧ after (exec (.initialTasks 1) reading) (fun t => t.launches.map Launch.ended == [some .tasksFault]) = true
    ∧ after (exec (.initialTasks 1) (State.fill { reading with launches := [{ launch_ 0 with tasksPtr := 0x2001, initial := some none }] } 0x2001 [1]))
        (fun t => t.launches.map Launch.ended == [some .tasksFault]) = true
    ∧ after (exec (.initialTasks 1) (moving (launch_ 0))) (fun t => t.launches.map (fun l => l.queues.map (fun q => q.tasks.map Task.bits)) == [[[6], []]]
        && t.launches.map Launch.initial == [some (some [⟨7, 0⟩])]) = true
    ∧ after (exec (.initialTasks 1) (moving l)) (fun t => t.launches.map (fun l => l.queues.map (fun q => q.tasks.map Task.bits)) == [[[5, 6], []]]) = true
    ∧ stageFull { l with queues := [{ noTasks with tasks := [⟨5, 3⟩, ⟨5, 3⟩] }, noTasks] } 0 = true
    ∧ after (exec (.initialTasks 1) { s with launches := [{ launch_ 0 with initial := some (some []) }] }) (fun t => t.launches.map Launch.initial == [none]) = true
    ∧ after (exec (.affinityPatienceExpiry 1) s) (fun t => t.mem == s.mem) = true
    ∧ after (exec (.occupancySample 1) { s with clock := 30000 }) (fun t => t.launches.map Launch.sampledAt == [30000]) = true := by decide +kernel

/-- LaunchEvents, a joined launch (R385). -/
theorem test_join :
    let l : Launch := { launch_ 0 with joining := true, join := some (9, 3) }
    let s : State := { user 0 with launches := [l] }
    s.joiningOf 0 = some l
    ∧ after (exec (.joinStart 0 5) s) (fun t => (t.svcRegs 0).joinStat == 2 && t.launches.map Launch.sliceBase == [5]) = true
    ∧ after (exec (.joinTimeout 0) s) (fun t => (t.svcRegs 0).joinStat == 3 && t.clock == 3000000000 && t.launches.map Launch.ended == [some .joinFailed]) = true := by
  decide +kernel

/-- A context being saved, by register group 0, with the party in the state given; its save area lies outside local HBM. -/
def saving (p : Party) : State :=
  let s := (user 0).fill 0x11158 [0, 0, 0, 0, 0, 0, 1]
  { s with parties := [p], contexts := [{ context with state := .saving, group := some 0, watchdog := some 60000 }],
                svc := [(0, { SvcRegs.reset with preBusy := true })] }

/-- LaunchEvents, a party's ends (R146, R355, R360): it retires, is saved, and is restored in two steps. -/
theorem test_party_ends :
    let p (st : PartyState) : Party := { party with state := st }
    let saved : Party := { party with state := .restoring, spad := [], hamper := [], savedHarts := [(0, { (user 0).hart with pc := 0x4444 })], savedHold := (2, 1) }
    let r : State := { user 0 with parties := [saved], hart := Hart.reset }
    after (exec (.partyRetire 0) { user 0 with parties := [p .retiring] }) (fun t => t.parties == [] && !t.hart.running && t.launches.map Launch.retired == [1]) = true
    ∧ after (exec (.partyRetire 0) (user 0)) (fun t => t == user 0) = true
    ∧ after (exec (.saveComplete 0) (saving (p .saving))) (fun t => t.parties.map Party.state == [.saved] && t.parties.map Party.savedHold == [(2, 1)]
        && (t.svcRegs 0).preResult == 1 && !(t.svcRegs 0).preBusy && t.contexts.map Context.state == [.saved]) = true
    ∧ after (exec (.saveComplete 0) (saving { p .saving with doomed := true })) (fun t => t.parties == []) = true
    ∧ r.restorable saved = true ∧ after (exec (.restoreComplete 0) r) (fun t => t.parties.map Party.state == [.restoring] && t.hart.pc == 0x4444
         && t.parties.map (fun q => q.spad.length) == [2]) = true
    ∧ after (exec (.restoreComplete 0) { user 0 with parties := [p .restoring] }) (fun t => t.parties.map Party.state == [.running]) = true := by decide +kernel

/-- LaunchEvents, the banker (R194, R212): a grant, a request that turns urgent, a `cwait` repeated. -/
theorem test_banker :
    let s := hartAs (user 0) (fun h => { h with blocked := some (.acq 5) })
    let asked := s.setCluster 0 { s.cluster 0 with requests := [⟨0, 1, 1, 0, false⟩] }
    asked.grantable 0 1 1 = true
    ∧ after (exec (.acqGrant 0) asked) (fun t => (t.cluster 0).requests == [] && t.hart.blocked == none && t.parties.map (fun p => p.spad.length) == [3]) = true
    ∧ after (exec (.acqGrant 0) s) (fun t => t == s) = true
    ∧ after (exec (.acqUrgent 0) asked) (fun t => (t.cluster 0).requests == [⟨0, 1, 1, 0, true⟩] && t.clock == 0x100001) = true
    ∧ after (exec (.cwaitRetry 0) (hartAs s (fun h => { h with blocked := some .cellRetry }))) (fun t => t.hart.blocked == none) = true := by decide +kernel

/-- ContextEvents, pre-emption (R352, R353, R357, R358, R360, R361): the results of the three requests, the watchdog, the deadline. -/
theorem test_preemption :
    let area := ((user 0).fill 0x11158 [0, 0, 0, 0, 0, 0, 1]).fill 0x11160 (bytesOfNat 8 0x10000000)
    let saved : State := { user 0 with parties := [], launches := [], contexts := [{ context with state := .saved }], svc := [(0, { SvcRegs.reset with preMask := 2 })] }
    let res (o : Out) (r : Nat) : Bool := after o (fun t => (t.svcRegs 0).preResult == r && (t.svcRegs 0).preDone == 1 && !(t.svcRegs 0).preBusy)
    res (exec (.preReqPreempt 0 8) (user 0)) 5 = true ∧ res (exec (.preReqPreempt 0 7) (user 0)) 4 = true
    ∧ after (exec (.preReqPreempt 0 7) area) (fun t => t.contexts.map Context.state == [.saving] && t.contexts.map Context.watchdog == [some 60000000]) = true
    ∧ after (exec (.preReqPreempt 0 0x40007) area) (fun t => t.contexts.map Context.watchdog == [some 3000000]) = true
    ∧ res (exec (.preReqPreempt 0 7) { area with parties := [] }) 1 = true
    ∧ after (exec (.preReqPreempt 0 7) { area with contexts := [{ context with stopped := true }] }) (fun t => t.contexts.map Context.heldPreempt == [[(0, 7)]]) = true
    ∧ after (exec (.preReqKill 0 0x20007) (saving party)) (fun t => (t.svcRegs 0).preHeld == [0x20007]) = true
    ∧ res (exec (.preReqResume 0 0x10007) (user 0)) 5 = true ∧ res (exec (.preReqResume 0 0x10007) { saved with svc := [] }) 7 = true
    ∧ after (exec (.preReqResume 0 0x10007) { saved with contexts := [{ context with state := .saved, clusters := [0, 1] }], svc := [(0, { SvcRegs.reset with preMask := 2 })] })
        (fun t => (t.svcRegs 0).preDone == 1) = true
    ∧ res (exec (.preReqKill 0 0x20008) (user 0)) 5 = true ∧ res (exec (.preReqKill 0 0x20007) saved) 0 = true
    ∧ after (exec (.preReqKill 0 0x20007) (user 0)) (fun t => t.launches.map Launch.ended == [some .killed] && t.contexts.map Context.state == [.resident]) = true := by
  decide +kernel

/-- ContextEvents, the two deadlines (R357, R358). -/
theorem test_deadlines :
    let s := saving { party with state := .saving }
    after (exec (.watchdogExpiry 7) (saving party)) (fun t => (t.svcRegs 0).preResult == 2 && t.contexts.map Context.stopped == [true] && t.launches.map Launch.ended == [some .hang]) = true
    ∧ after (exec (.watchdogExpiry 7) (user 0)) (fun t => t == user 0) = true ∧ after (exec (.watchdogExpiry 7) s) (fun t => t == s) = true
    ∧ after (exec (.saveDeadlineExpiry 0) s) (fun t => (t.svcRegs 0).preResult == 3 && t.clock == 6000000 && t.launches.map Launch.ended == [some .killed]) = true
    ∧ after (exec (.saveDeadlineExpiry 0) (user 0)) (fun t => t == user 0) = true := by decide +kernel

/-- ContextEvents, the debug requests (R424 to R427): each OP's results, a superstep that has passed and the present one. -/
theorem test_debug :
    let s : State := { user 1 with svc := [(0, { SvcRegs.reset with dbgArg := 3 })] }
    let past : State := { s with svc := [(0, { SvcRegs.reset with dbgArg := 2 })] }
    let two : State := { s with launches := [], contexts := [context, { context with id := 3 }] }
    let paired : State := { two with contexts := [{ context with pairedWith := some 3 }, { context with id := 3, pairedWith := some 7 }] }
    let res (o : Out) (r : Nat) (f : State → Bool) : Bool := after o (fun t => (t.svcRegs 0).dbgResult == r && (t.svcRegs 0).dbgDone == 1 && f t)
    res (exec (.dbgStopNext 0 8) s) 1 (fun _ => true) = true ∧ res (exec (.dbgStopNext 0 7) (user 0)) 2 (fun _ => true) = true
    ∧ res (exec (.dbgStopNext 0 7) s) 0 (fun t => t.contexts.map Context.stopReq == [some (0, none)]) = true
    ∧ res (exec (.dbgStopAt 0 0x10007) past) 3 (fun _ => true) = true ∧ res (exec (.dbgStopAt 0 0x10007) s) 0 (fun t => t.contexts.map Context.stopReq == [some (0, some 3)]) = true
    ∧ res (exec (.dbgImmediateStop 0 0x30007) s) 0 (fun t => t.contexts.map Context.stopped == [true]) = true
    ∧ res (exec (.dbgRelease 0 0x20007) s) 1 (fun _ => true) = true
    ∧ res (exec (.dbgRelease 0 0x20007) { s with contexts := [{ context with stopped := true }] }) 0 (fun t => t.contexts.map Context.stopped == [false]) = true
    ∧ res (exec (.dbgPair 0 0x40007) two) 0 (fun t => t.contexts.map Context.pairedWith == [some 3, some 7]) = true
    ∧ res (exec (.dbgPair 0 0x40007) s) 1 (fun _ => true) = true ∧ res (exec (.dbgUnpair 0 0x50007) two) 1 (fun _ => true) = true
    ∧ res (exec (.dbgUnpair 0 0x50007) paired) 0 (fun t => t.contexts.map Context.pairedWith == [none, none]) = true := by decide +kernel

/-- ContextEvents, what stops the accelerator (R414, R428, R433). -/
theorem test_halts :
    let s : State := { user 0 with keys := [⟨0, false, .model, 0, 0, []⟩], contexts := [context], parties := [], launches := [] }
    after (exec .alarm s) (fun t => t.keys == [] && t.halted == some .alarm) = true
    ∧ after (exec (.thermalFault false) (s.fill 0x11160 (bytesOfNat 8 0x10000000))) (fun t => t.halted == some .thermal && t.contexts.map Context.state == [.saved]) = true
    ∧ after (exec .packageReset s) (fun t => t.mem == [] && t.boot.stage == .step 1 && t.hid == 4096) = true
    ∧ after (exec (.thermalFault true) s) (fun t => t.boot.stage == .step 1) = true := by decide +kernel

/-! ### Registers and the device -/

/-- RegisterEvents (R263, R344, R363, R376, R413, R424): the events that a store starts, and its end. -/
theorem test_register_events :
    let busy : State := { user 0 with svc := [(0, { SvcRegs.reset with sdBusy := true, sdHeld := [5] })] }
    let target : State := { user 0 with svc := [(0, { SvcRegs.reset with fnTarget := 0x700000001 })] }
    after (exec (.sdReq 0 9) (user 0)) (fun t => (t.svcRegs 0).sdBusy && t.events == [.shootdownDone 0]) = true
    ∧ after (exec (.sdReq 0 9) busy) (fun t => (t.svcRegs 0).sdHeld == [5, 9]) = true
    ∧ after (exec (.shootdownDone 0) busy) (fun t => (t.svcRegs 0).sdDone == 1 && (t.svcRegs 0).sdReq == 5) = true
    ∧ after (exec (.shootdownDone 63) busy) (fun t => t == busy) = true
    ∧ after (exec (.fnPost 0 0x20005) target) (fun t => ((t.core 0).queue 1).entries.map (fun e => (e.extractLsb' 0 48).toNat) == [0x500020001]) = true
    ∧ after (exec (.scReply 0 0x900020005) target) (fun t => ((t.core 0).queue 1).entries.map (fun e => (e.extractLsb' 0 128).toNat) == [0x9FFFF000500020004]) = true
    ∧ after (exec (.attReq 0x2001) monitor) (fun t => t.attReq == 0x2000 && t.attBusy && t.events == [.attestationReportDone]) = true
    ∧ after (exec .attestationReportDone { monitor with attReq := 0x2000, attBusy := true }) (fun t => t.attDone == 1 && !t.attBusy) = true
    ∧ after (exec .faultQueuePost { monitor with posts := [⟨0x50000, bytesOfNat 64 7⟩] }) (fun t => t.posts == [] && t.loadNat 0x50040 8 == 7 && t.loadNat 0x50000 4 == 1) = true
    ∧ after (exec .faultQueuePost { monitor.fill 0x50000 [1] with posts := [⟨0x50000, []⟩] }) (fun t => t.posts.length == 1) = true := by decide +kernel

/-- RegisterEvents, stores by who performs them (R36, R249, R282, R376): the last group of each block and what is no register. -/
theorem test_register_writes :
    let put (who : Agent) (pa : BitVec 48) (v : Word) : Out := exec (.registerWrite who pa 8 v) monitor
    after (put (.hart .m 4096) 0xF00000010800 0xFF) (fun t => t.accNote == 0x3F) = true ∧ after (put (.hostCore 0) 0xF00000010808 0x50013) (fun t => t.hostNring == 0x50003) = true
    ∧ after (put (.hart .s 4096) 0xF00000020FC0 9) (fun t => (t.svcRegs 63).sdBusy) = true ∧ after (put (.hart .s 4096) 0xF00000020028 9) (fun t => (t.svcRegs 0).preMask == 9) = true
    ∧ after (put (.hart .s 4096) 0xF00000080FC8 4) (fun t => (t.svcRegs 63).dbgArg == 4) = true
    ∧ after (put .management 0xF000000332F8 0x100010007) (fun t => t.shares[3].entries == [(63, 0x100010007)]) = true
    ∧ after (put (.hart .m 4096) 0xF00000033000 5) (fun t => t == monitor) = true
    ∧ after (put (.hostCore 31) 0xF000000107C0 0x12345) (fun t => (t.portGroup 31).batch == 0x12340) = true
    ∧ after (put (.hart .m 4096) 0xF000000981F8 3) (fun t => t.msips == [4159] && (t.getHart 4159).csr.ssip) = true
    ∧ after (put (.hart .s 4096) 0xF00000090000 3) (fun t => t.msips == [] && (t.getHart 0).csr.ssip) = true
    ∧ after (put (.hart .s 0) 0xF00000090000 3) (fun t => t == monitor) = true ∧ after (put .peer 0xF00000010800 1) (fun t => t == monitor) = true
    ∧ after (exec (.registerWrite (.hart .m 4096) 0xF00000010800 4 1) monitor) (fun t => t == monitor) = true
    ∧ after (put (.hart .m 4096) 0xF000000411F8 0x1000700000009) (fun t => t.jobs == [(63, 0x1000700000009)]) = true := by decide +kernel

/-- DeviceEvents (R284, R303, R365 to R367): the bound of a window met and passed, the boundary of an interval, meters. -/
theorem test_device_meters :
    let s := (user 0).setCluster 0 { Cluster.reset with slots := 1000 }
    let die : Share := { Share.reset with pool := 100, entries := [(0, 0x180000007)] }
    let shared : State := { s with shares := (Vector.replicate 4 Share.reset).set 0 die }
    let two : State := { s with contexts := [{ context with gathered := (Vector.replicate 10 0).set 0 5 }, { context with id := 3 }] }
    (s.cluster 0).slots = 1000 ∧ shared.portsOf 0 7 = [0] ∧ after (exec (.intervalBoundary 0 [] []) shared) (fun t => t.shares[0].intervals == 1 && t.shares[0].buckets == [(0, 50)]) = true
    ∧ after (exec (.intervalBoundary 0 [] []) s) (fun t => t == s) = true
    ∧ after (exec (.meterUpdate [⟨7, [9, 8], 1⟩, ⟨3, [], 2⟩] 10 1) two) (fun t => t.contexts.map (fun c => (c.meter[0], c.meter[1], c.meter[10], c.seq)) == [(5, 8, 3, 2), (0, 0, 6, 2)]
        && t.contexts.all (fun c => c.gathered[0] == 0)) = true
    ∧ after (exec (.getSensorReading 7 13) two) (fun t => t.sensor == some 0) = true ∧ after (exec (.getSensorReading 8 0) two) (fun t => t.sensor == none) = true := by
  decide +kernel

/-- DeviceEvents (R303): the hypotheses on a window's slots are met, whatever the bound. -/
theorem test_ramp_bound (s : State) : s.rampBound ≤ 375 ∧ 1000 + s.rampBound < min 1376 3000 ∧ min 624 3000 + s.rampBound < 1000
    ∧ rampSlots s.rampBound 1000 1376 = 1000 + s.rampBound ∧ rampSlots s.rampBound 1000 1000 = 1000 := by
  have h : s.rampBound ≤ 375 := Nat.min_le_left _ _
  exact ⟨h, by omega, by omega, by unfold rampSlots; omega, by unfold rampSlots; omega⟩

/-- DeviceEvents (R381, R384, R386 to R389): links, a device lost, ports, a load of a root port, a peer's write. -/
theorem test_device_links :
    let s : State := { user 0 with present := 3, linksUp := 1 }
    let joined : State := { s with launches := [{ launch_ 0 with join := some (9, 3) }] }
    let waiting := hartAs s (fun h => { h with blocked := some (.pcie 5 0x100 4 true) })
    let port := monitor.setPcie 0 { PciePort.reset with role := 1, owner := 2, windows := [(0, 0x1000, 0x1000, 0x300000, true)] }
    after (exec (.linkFailure 0) s) (fun t => t.linksUp == 0) = true ∧ after (exec (.linkRecovery 31) s) (fun t => t.linksUp == 0x80000001) = true
    ∧ after (exec (.flitCrcFailure 0) s) (fun t => t == s) = true ∧ after (exec (.laneFailure 0) s) (fun t => t == s) = true
    ∧ after (exec (.deviceLoss 1 [0] [⟨0, false, 0x77⟩]) s) (fun t => t.present == 1 && t.hart.trapDue == some (5, 0x77) && t.hart.lostStore) = true
    ∧ after (exec (.deviceLoss 0 [] []) s) (fun t => t == s) = true
    ∧ after (exec (.deviceLoss 1 [] []) joined) (fun t => t.launches.map Launch.ended == [some .peerLost] && t.contexts.map Context.stopped == [true]) = true
    ∧ after (exec (.portLinkUp 0 5) port) (fun t => (t.port 0).linkUp && (t.port 0).speed == 5) = true ∧ after (exec (.portLinkUp 1 5) port) (fun t => t == port) = true
    ∧ after (exec (.portLinkDown 0) port) (fun t => !(t.port 0).linkUp) = true
    ∧ after (exec (.pcieLoadCompletion 0 (some 0x80000000)) waiting) (fun t => t.x 5 == 0xFFFFFFFF80000000 && t.hart.blocked == none) = true
    ∧ after (exec (.pcieLoadTimeout 0) (csrAs waiting (fun c => { c with stvec := 0x8000 }))) (fun t => inS t 5 0x100) = true
    ∧ after (exec (.peerMemoryRequest 0 (.write 0x1FFF [7])) port) (fun t => Memory.get t.mem 0x300FFF == 7) = true
    ∧ after (exec (.peerMemoryRequest 0 (.write 0x2000 [7])) port) (fun t => t == port) = true
    ∧ after (exec (.peerMemoryRequest 1 (.write 0x1FFF [7])) port) (fun t => t == port) = true := by decide +kernel

/-- DeviceEvents (R391, R392, R428, R429): a virtio device and the network steps of boot. -/
theorem test_device_boot :
    let v (x : Virtio) : State := { monitor with virtio := (Vector.replicate 3 ⟨0, false, []⟩).set 2 x }
    let recovery : State := { monitor with boot := { Boot.reset with stage := .recovery } }
    after (exec (.virtioNotification 2 1 true) (v ⟨4, false, []⟩)) (fun t => t.virtio[2].notified == [1]) = true
    ∧ after (exec (.virtioNotification 2 1 false) (v ⟨4, false, []⟩)) (fun t => t.virtio[2].needsReset && t.virtio[2].status == 0x44) = true
    ∧ after (exec (.virtioNotification 2 1 true) (v ⟨0, false, []⟩)) (fun t => t == v ⟨0, false, []⟩) = true
    ∧ after (exec (.deviceStatusWrite 2 0 true) (v ⟨4, true, [1]⟩)) (fun t => t.virtio[2] == ⟨0, false, []⟩) = true
    ∧ after (exec (.deviceStatusWrite 2 0xB false) (v ⟨3, false, []⟩)) (fun t => t.virtio[2].status == 3) = true
    ∧ after (exec (.dhcpv6Reply 5 true) recovery) (fun t => t.boot.address == some 5 && t.boot.fetchTries == 1) = true
    ∧ after (exec .dhcpv6Retry monitor) (fun t => t.boot.dhcpTries == 1) = true
    ∧ after (exec .announcementRetry { monitor with boot := { monitor.boot with address := some 5 } }) (fun t => t.boot.announceTries == 1) = true
    ∧ after (exec .recoveryFetchRetry { recovery with boot := { recovery.boot with address := some 5 } }) (fun t => t.boot.fetchTries == 1) = true
    ∧ after (exec (.recoveryImageReceived true) recovery) (fun t => t.boot.stage == .step 1) = true
    ∧ after (exec (.recoveryImageReceived false) recovery) (fun t => t == recovery) = true := by decide +kernel

/-! ### The whole machine -/

/-- ResetState: the boundary of its quantifiers, and that VMASK, the timers' compare registers and SCOPE alone are not zero. -/
theorem test_reset :
    (State.reset.getHart 4159).running = false ∧ (State.reset.focus 0).csrGet .scope = 2 ∧ (State.reset.focus 0).csrGet .vmask = BitVec.allOnes 64
    ∧ (State.reset.focus 4159).csrGet .stimecmp = BitVec.allOnes 64 ∧ csrName 0x7D0 = some .mtimecmp := by decide +kernel

/-- The state in which a program of one word is to run: as `withFetchWord` places it. -/
def placed (w : Nat) : State := State.reset.withFetchWord 32 w

/-- StepRunsDecoded: its hypotheses hold where the word has been placed, and the step runs it. -/
theorem test_step_runs :
    Issues (placed 0x00A28293) ∧ (placed 0x00A28293).fetch.2 = .ok 0x00A28293 ∧ decodeWord 0x00A28293 = .ok (.addi 5 5 10)
    ∧ after (step (placed 0x00A28293)) (fun t => t.x 5 == 10 && t.hart.pc == 4) = true
    ∧ Issues (placed 0x53) ∧ after (step (placed 0x53)) (fun t => inM t 2 0x53 0) = true := by
  refine ⟨⟨by decide +kernel, by decide +kernel, by decide +kernel, by decide +kernel, by decide +kernel⟩, by decide +kernel, by decide +kernel, by decide +kernel,
    ⟨by decide +kernel, by decide +kernel, by decide +kernel, by decide +kernel, by decide +kernel⟩, by decide +kernel⟩

/-- StepRunsDecoded, the fetch from memory and its failure, an event, a boot step, and a command that is alone. -/
theorem test_step_others :
    let s := monitor.fill 0x1000 [0x93, 0x82, 0xA2, 0x00]
    let bad := hartAs monitor (fun h => { h with pc := 0x10000000000 })
    let cmd : State := { monitor with hart := Hart.reset, engines := [atEngine (byKernel 1 0x20) false] }
    inLocalHbm s s.hart.pc.toNat = true ∧ s.fetch.2 = .ok 0x00A28293 ∧ bad.fetch.2 = .error (1, 0x10000000000)
    ∧ after (step s) (fun t => t.x 5 == 10) = true ∧ after (step bad) (fun t => inM t 1 0x10000000000 0x10000000000) = true
    ∧ after (step { s with events := [.msip 5 true] }) (fun t => t.msips == [5] && t.events == []) = true
    ∧ after (step State.reset) (fun t => t.boot.stage == .step 2) = true
    ∧ cmd.pickHart = none ∧ cmd.pickDue = some (.command (byKernel 1 0x20)) ∧ commandInstr (byKernel 1 0x20) = some (.cpy (byKernel 1 0x20))
    ∧ after (step cmd) (fun t => t.engines == []) = true := by decide +kernel

/-- RoundTrip: the operands at their largest values. -/
theorem test_round_trip :
    (Instr.vsx .i64 31 31 31 true).wf = true ∧ decode (encode (.vsx .i64 31 31 31 true) ++ [7]) = .ok (.vsx .i64 31 31 31 true, [7])
    ∧ decode (encode (.sdS 31 31 0x3FF .system) ++ []) = .ok (.sdS 31 31 0x3FF .system, [])
    ∧ decodeTableWord 32 0x00A28293 = some (.addi 5 5 10) := by decide +kernel

/-- StepInvariant: the invariant holds where a hart waits for a cell that is still vacant, and not once it is decided. -/
theorem test_invariant :
    let vacant : State := { cellState 0x1C with waiters := [⟨0, 0x100000, 7⟩] }
    let decided : State := { cellState 0x1D with waiters := [⟨0, 0x100000, 7⟩] }
    (vacant.waiters = [⟨0, 0x100000, 7⟩]
      ∧ ¬ (genAhead 7 (vacant.cellAt 0x100000).gen = 0 ∧ (vacant.cellAt 0x100000).state = 1) ∧ genAhead 7 (vacant.cellAt 0x100000).gen < 2 ^ 23)
    ∧ (genAhead 7 (decided.cellAt 0x100000).gen = 0 ∧ (decided.cellAt 0x100000).state = 1) := by decide +kernel

/-- StepInvariant: a state that meets its hypotheses. -/
theorem test_invariant_holds : Inv monitor ∧ after (step (placed 0x00A28293)) (fun _ => true) = true := by
  refine ⟨⟨fun w h => absurd h (by rw [show monitor.waiters = [] from rfl]; simp), fun k => ?_⟩, by decide +kernel⟩
  have h : monitor.cluster k = Cluster.reset := rfl
  simp [h, State.leaseIdle, Cluster.reset]

/-! ### What waits, what is held, and what comes from outside -/

/-- LoadsComplete (R383): a load of another device's memory waits for its value, and has it when it arrives. -/
theorem test_remote_load :
    let s := regsAs { monitor with present := 3, mem := [(0x410000000001, 0x80)] } [0x410000000000]
    passes (check s .load (s.x 1) 2 false) (fun _ p => p.isFar && !p.mmio && plain p) = true
    ∧ after (exec (.lh 5 1 0) s) (fun t => (match t.hart.blocked with
        | some (.remote rd p n sg none) => rd == 5 && p.key == 0x410000000000 && n == 2 && sg && t.reaches p
        | _ => false) && t.x 5 == 0 && t.hart.pc == 0x1000
        && (let u := t.remoteArrival 4096; u.x 5 == 0xFFFFFFFFFFFF8000 && u.hart.blocked == none && u.hart.pc == 0x1004)) = true := by
  decide +kernel

/-- StoresComplete, AtomicOperations, Phases (R197): at a cell being purged a weak store pends, even one that corrects a whole word, and an
AMO and a close wait. -/
theorem test_purge_holds :
    let s := regsAs { monitor with purging := [0x2000] } [0x2000, 7]
    let held := hartAs s (fun h => { h with pending := [(0x2008, 5)] })
    s.heldRange 0x2000 8 = true ∧ passes (check s .store 0x2000 8 false) (fun _ p => plain p && p.key == 0x2000) = true
    ∧ after (exec (.sd 1 2 0) s) (fun t => t.mem == [] && byteSeen t 0x2000 == 7) = true
    ∧ passes (check s .amo 0x2000 8 false) (fun u p => !u.shipsOut && u.heldCell? p == some 0x2000) = true
    ∧ after (exec (.amoaddD 5 1 2 false false) s) (fun t => t.hart.blocked == some (.purge 0x2000)) = true
    ∧ held.hart.lostStore = false ∧ held.publishHeld = some 0x2000
    ∧ after (exec (.phaseC .core) held) (fun t => t.hart.blocked == some (.purge 0x2000) && t.hart.pending == [(0x2008, 5)]) = true := by decide +kernel

/-- InterruptEntry (R179, R195, R388): no interrupt of a hart whose retire is under way, nor in the exchange of a paired context. -/
theorem test_no_interrupt :
    let s := csrAs kernel (fun c => { c with mie := 0x80, mtimecmp := 0, mtvec := 0x9000 })
    let busy := hartAs s (fun h => { h with blocked := some (.retire 0x100000 true) })
    let mid := csrAs { arrived with contexts := [{ context with midExchange := true, pairedWith := some 3 }] } (fun c => { c with mie := 0x80, mtimecmp := 0, mtvec := 0x9000 })
    Takeable s 7 ∧ Committed busy.hart ∧ mid.inExchange mid.hart = true
    ∧ after (exec .interruptEntry busy) (fun t => t == busy) = true ∧ after (exec .interruptEntry mid) (fun t => t == mid) = true :=
  ⟨by unfold Takeable; decide +kernel, .inl ⟨0x100000, true, rfl⟩, by decide +kernel, by decide +kernel, by decide +kernel⟩

/-- LaunchEvents, ContextEvents: a context leaves no allowance behind; a party of a command that must end is not saved yet; a doomed one
ends; a request that may be granted. -/
theorem test_leaves :
    let p : Party := { party with state := .saving }
    let q : Party := { party with state := .restoring, doomed := true }
    let busy : State := { saving p with engines := [atEngine (byParty 0 0x104) true] }
    LeavesFree (saving p) 7 ∧ NothingHeld (saving p) ∧ busy.saveHeld p = true ∧ (saving p).saveHeld p = false
    ∧ after (exec (.saveComplete 0) busy) (fun t => t == busy) = true
    ∧ after (exec (.restoreComplete 0) { user 0 with parties := [q] }) (fun t => t.parties == []) = true
    ∧ (user 0).grantableAfter [] 0 1 1 = true ∧ (user 0).grantableAfter [] 0 1 3 = false := by
  refine ⟨?_, ?_, by decide +kernel, by decide +kernel, by decide +kernel, by decide +kernel, by decide +kernel, by decide +kernel⟩
  · intro l h
    have : l = launch_ 0 := by
      have e : (saving { party with state := .saving }).ctxLaunch 7 = some (launch_ 0) := by decide +kernel
      exact Option.some.inj (h.symm.trans e)
    subst this
    have q : ∀ n, n < 8 → (Core.reset.queue n).granted = 0 := by decide
    exact ⟨by decide +kernel, by decide +kernel, fun _ _ => q⟩
  · unfold NothingHeld
    decide +kernel

/-- LaunchEvents, the task list (R137): a count of 0 where the launch is not joined. -/
theorem test_task_list :
    let s : State := { user 0 with launches := [{ launch_ 0 with tasksPtr := 0x20000, initial := some none }] }
    let l : Launch := { launch_ 0 with tasksPtr := 0x20000, initial := some none }
    (deviceRead s 7 (rootOfCtx s 7) 0x20000 64).isSome = true ∧ taskList s l = none ∧ taskList s { l with tasksPtr := 0x20001 } = none := by decide +kernel

/-- RegisterEvents (R167, R371): a host core's store to a frame that the host owns, and one to the accelerator's frame, and its AMO's size. -/
theorem test_host_store :
    let s : State := { monitor with frames := [(0x30, 1)] }
    inLocalHbm s 0x300010 = true ∧ (frameRights s (kernelCode .host) 0x30 true).isOk = true
    ∧ after (exec (.registerWrite (.hostCore 3) 0x300010 8 0x1122) s) (fun t => Memory.get t.mem 0x300011 == 0x11) = true
    ∧ after (exec (.registerWrite (.hostCore 3) 0x310010 8 0x1122) s) (fun t => t == s) = true
    ∧ after (exec (.registerWrite (.hostCore 3) 0x300011 8 0x1122) s) (fun t => t == s) = true := by decide +kernel

/-- DeviceEvents (R384): a hart that waits for the value of a device that is lost. -/
theorem test_lost_value :
    let s := (regsAs { monitor with present := 3 } [0x410000000000]).setHart 7 Hart.reset
    after (exec (.ld 5 1 0) s) (fun t => after (exec (.deviceLoss 1 [] [⟨7, true, 0x55⟩]) t) (fun u =>
      u.hart.trapDue == some (5, 0x410000000000) && u.hart.blocked == none && (u.getHart 7).trapDue == some (7, 0x55) && u.present == 1)) = true := by
  decide +kernel

/-- CommandRules, CopyCommands (R217, R319, Table 19-13): a status that MEND has not; a descriptor in an extent not held; a slot filled
with the tag of another slot. -/
theorem test_command_ends :
    let s := (user 0).fill 0x2000 [1, 2, 3, 4]
    let m := byParty 0 0x104
    let two := s.setCore 0 { s.core 0 with tags := [⟨0, 4, 0x20, true, 0⟩] }
    mayPost m 8 = false ∧ after (exec (.commandCompletion m 8 0 0) (accepting s m)) (fun t => t == accepting s m) = true
    ∧ runs s .cpyt (byParty 1 (word 0x121 0 0x2000 0x3000 (windowBase + 0x8000))) 6 0 (fun _ => true) = true
    ∧ runs two .sfill (byParty 1 (word 0x123 0 0x2000 3 0)) 0 1 (fun t => (t.core 0).tags == [⟨0, 3, 0x20, false, 0⟩]) = true := by decide +kernel

/-- SiteCommands (R327 to R329): two participants that agree, two that do not, and one of two on this device. -/
theorem test_two_participants :
    let s := ((user 0).fill 0x2000 [1, 2, 3, 4]).fill 0x2100 [1, 1, 1, 1]
    let c (op src dst rank id : Nat) : Command :=
      let b := byParty 3 (word 0x160 op src dst (1 + 2 * 2 ^ 32))
      { b with
        by_ := { b.by_ with hart := rank, rank := BitVec.ofNat 32 rank }
        id := id }
    let with_ (l : List Command) : State := { s with engines := l.map (fun c => atEngine c true) }
    let found (s : State) (l : List Nat) : Bool := ((s.participants (collectiveKey (c 4 0 0 0 0))).map (List.map Prod.fst)) == some l
    badFold (c 4 0x2000 0x3000 0 0) = false ∧ sameCollective (c 4 0x2000 0x3000 0 0) (c 4 0x2100 0x3100 1 1) = true
    ∧ found (with_ [c 4 0x2000 0x3000 0 0, c 4 0x2100 0x3100 1 1]) [0, 1] = true := by decide +kernel

/-- SiteCommands (R331): a message with no post for it waits, and one that outgrows the post that is there is refused. -/
theorem test_messages_wait :
    let s : State := { user 0 with jobs := [(0, 0x1000700000009)] }
    let post : Command := byParty 4 (word 0x183 0xFFFF 0x3000 0 1)
    let posted : State := { s with engines := [atEngine post true] }
    after (exec (.networkPacketArrival (.message 9 0 3 [7, 8])) s) (fun t => t.messages.map Message.data == [[7, 8]]) = true
    ∧ (posted.jobCtx 9).any (fun x => (posted.matchPost x 0 3 2).isNone && posted.outgrows x 0 3 2) = true
    ∧ after (exec (.networkPacketArrival (.message 9 0 3 [7, 8])) posted) (fun t => t == posted) = true := by decide +kernel

/-- CoreQueues, QueuePorts (R180, R286): entries go to, and ports are used by, harts in the order in which they began to wait. -/
theorem test_order :
    let first (w : Wake) : State := (user 0).setHart 1 { (user 0).hart with blocked := some w, since := some (0x4000, 0, 0) }
    let q : State := { (first (.queues 1 true)).mapQueue 0 0 (fun q => { q with entries := [9] }) with choices := 5 }
    let e : State := regsAs { first (.engine 1 0) with choices := 5 } [0x122]
    q.takersBefore 0 (q.hart.waitTime 5) 0 = 1 ∧ ((q.core 0).queue 0).length 0 = 1
    ∧ after (exec (.recv 1 0) q) (fun t => t.hart.blocked == some (.queues 1 true)) = true
    ∧ after (exec (.peek 1 0) q) (fun t => t.hart.blocked == none && t.hart.pc == 0x4004) = true
    ∧ e.engineReady 0 (e.hart.waitTime 5) 1 0 = false ∧ e.engineReady 0 (e.hart.waitTime 5) 4 0 = true := by decide +kernel

/-- StepRunsDecoded (R44, R245): the two blocks that a fetch in the window takes in are held. -/
theorem test_window_fetch :
    let s := hartAs (user 0) (fun h => { h with pc := BitVec.ofNat 64 windowBase })
    (fetchPlan s.hart).2 = [windowBase, windowBase + 64] ∧ (s.ownParty.bind (fun p => p.windowKey 0)).isSome = true
    ∧ (s.fetch.2 matches .ok _) = true := by decide +kernel

/-- R393, R395, R399: the worked address behind six blanket ports, and a read behind the port whose link is down. -/
theorem test_blanket_link :
    let up (b : Bool) : PciePort := { PciePort.reset with role := 3, linkUp := b }
    let s : State := { monitor with pcie := (monitor.pcie.set 2 (up true)).set 5 (up false) }
    blanketHome 6 0x100100003000 = (1, 0x2AAAB000)
    ∧ s.linkCut 0x100000000FF0 16 = false ∧ s.linkCut 0x100000000FF0 17 = true ∧ s.linkCut 0x100000001000 8 = true
    ∧ s.linkCut 0x100000002000 4096 = false ∧ s.linkCut 0x3000 0x2000 = false := by decide +kernel

/-- VectorLoads (R281): what a load reads in the blanket is counted for its context, and nothing else. -/
theorem test_blanket_bytes :
    let p : Place := { key := 0x100000000040, mmio := false, window := false, pte := 0, meta_ := none, va := 0 }
    let s : State := (user 0).chargeAll 4 [p, { p with key := 0x3000 }, p]
    let ctx := ctxOf (user 0).hart.csr.ptroot
    s.contexts.all (fun c => c.gathered[7] == if c.id == ctx then 8 else 0) = true ∧ s.contexts.any (fun c => c.id == ctx) = true ∧ { s with contexts := (user 0).contexts } = user 0 := by decide +kernel

/-- RegisterEvents (Table 30-3): a group of a service core that is left out, the next one, and a host core's store to the blanket. -/
theorem test_group_out :
    let s : State := { monitor with leftOut := { monitor.leftOut with services := [1] } }
    let b : State := { monitor with frames := [(0x8000000 * 2, 1)], pcie := monitor.pcie.set 2 { PciePort.reset with role := 3, linkUp := true } }
    s.groupOut 7 = true ∧ s.groupOut 8 = false
    ∧ after (exec (.registerWrite (.hart .s 4096) 0xF000000201E8 8 9) s) (fun t => t == s) = true
    ∧ after (exec (.registerWrite (.hart .s 4096) 0xF00000020228 8 9) s) (fun t => (t.svcRegs 8).preMask == 9) = true
    ∧ s.readRegister .s 4096 0xF000000201F0 = 0
    ∧ after (exec (.registerWrite (.hostCore 3) 0x100000000010 8 0x1122) b) (fun t => Memory.get t.mem 0x100000000011 == 0x11) = true := by decide +kernel

end Sys2Proof.Tests
end

section
/-! SUPPORT. The CSRs (R33 to R35, R71, R72): which accesses are allowed, what a written CSR reads, and what a CSR instruction does. -/

namespace Sys2Proof.Machine
open Sys2Proof.Safety

/-! ### Who may access a CSR (R33) -/

/-- The model's test of the lowest mode is that of bits [9:8]. -/
theorem csrLevel_le_iff (csr : BitVec 12) (mode : Mode) :
    csrLevel csr ≤ modeLevel mode ↔ csr.extractLsb' 8 2 ≤ BitVec.ofNat 2 (modeLevel mode) := by
  rw [BitVec.le_def, csrLevel]
  cases mode <;> rfl

/-- The model's test of a CSR that may not be written is that of R33. -/
theorem csrReadOnly_iff (csr : BitVec 12) (mode : Mode) : csrReadOnly csr mode = true ↔ readOnlyTo csr mode := by
  have top : bitsNat csr 10 2 = 3 ↔ csr.extractLsb' 10 2 = 3 := by
    rw [← BitVec.toNat_inj]; rfl
  simp only [csrReadOnly, readOnlyTo, Bool.or_eq_true, Bool.and_eq_true, beq_iff_eq, top, or_assoc]
  exact Iff.rfl

/-- An access that R33 allows. -/
theorem csrAllowed_iff (csr : BitVec 12) (mode : Mode) (write : Bool) :
    csrAllowed csr mode write = true ↔ (csrName csr).isSome = true ∧ csr.extractLsb' 8 2 ≤ BitVec.ofNat 2 (modeLevel mode)
      ∧ (write = true → ¬ readOnlyTo csr mode) := by
  rw [← csrLevel_le_iff, ← csrReadOnly_iff]
  cases write <;> simp [csrAllowed, and_assoc]

/-- The names of the numbers of Table 02-3. -/
theorem csrName_of_mem : ∀ n ∈ csrNumbers, (csrName (BitVec.ofNat 12 n)).isSome = true := by decide

/-- The numbers that a block of 16 holds. -/
theorem toNat_of_block {csr : BitVec 12} {b : BitVec 8} (h : csr.extractLsb' 4 8 = b) : ∃ k < 16, csr.toNat = b.toNat * 16 + k := by
  refine ⟨csr.toNat % 16, by omega, ?_⟩
  have := congrArg BitVec.toNat h
  rw [BitVec.extractLsb'_toNat, Nat.shiftRight_eq_div_pow] at this
  have := csr.isLt
  omega

/-- The CSRs that are present are those of Table 02-3. -/
theorem csrName_isSome_iff (csr : BitVec 12) : csr.toNat ∈ csrNumbers ↔ (csrName csr).isSome = true := by
  constructor
  · intro h
    simpa using csrName_of_mem _ h
  · intro h
    unfold csrName at h
    split at h
    case h_49 =>
      have range (b k : Nat) (hk : k < 16) (hb : b = 0x3B0 ∨ b = 0x7C0) : b + k ∈ csrNumbers := by
        rcases hb with rfl | rfl <;> simp [csrNumbers, hk]
      split at h
      · rename_i hb
        obtain ⟨k, hk, e⟩ := toNat_of_block hb
        exact e ▸ range 0x3B0 k hk (.inl rfl)
      · split at h
        · rename_i hb
          obtain ⟨k, hk, e⟩ := toNat_of_block hb
          exact e ▸ range 0x7C0 k hk (.inr rfl)
        · simp at h
    all_goals decide

/-! ### CSR instructions (R71, R72) -/

/-- A CSR written, or left as it is. -/
def State.csrWrite (s : State) (n : CsrName) : Option Word → State
  | some w => s.csrSet n w
  | none => s

/-- The accesses that wait for the results of vector operations (R72). -/
theorem csrReady_eq (s : State) (csr : BitVec 12) : csrReady s csr = if csrWaits csr then s.withHart Hart.complete else s := by
  simp only [csrWaits, csrReady, Bool.or_eq_true, beq_iff_eq, or_assoc]
  rfl

/-- `State.csrOp` of an access that R33 allows: it writes x[rd] and the CSR, the results of vector operations complete first where the
CSR waits for them. -/
theorem State.csrOp_allowed (s : State) (i : Instr) (rd : Reg) (csr : BitVec 12) (new : Option (Word → Word)) (n : CsrName)
    (hn : csrName csr = some n) (hl : csr.extractLsb' 8 2 ≤ BitVec.ofNat 2 (modeLevel s.hart.mode))
    (hw : new.isSome = true → ¬ readOnlyTo csr s.hart.mode) :
    let u := csrReady s csr
    ∃ t, s.csrOp i rd csr new = .next t ∧ WroteRd (u.csrWrite n (new.map (fun f => f (u.csrGet n)))) t rd (u.csrGet n) := by
  have ha : csrAllowed csr s.mode new.isSome = true := (csrAllowed_iff ..).2 ⟨by rw [hn]; rfl, hl, hw⟩
  unfold State.csrOp
  simp only [hn, ha, Bool.true_eq_false, if_false, ← csrReady_eq]
  cases new <;> exact State.writeRd_spec _ _ _

/-- `State.csrOp` of an access that R33 does not allow: an illegal instruction. -/
theorem State.csrOp_refused (s : State) (i : Instr) (rd : Reg) (csr : BitVec 12) (new : Option (Word → Word))
    (h : csrAllowed csr s.hart.mode new.isSome = false) : s.csrOp i rd csr new = .next (s.trap 2 ((encodeWord i).setWidth 64)) := by
  unfold State.csrOp
  cases hn : csrName csr with
  | none => rfl
  | some n => simp only [State.mode, h, if_true]; rfl

/-! ### What a CSR write leaves alone -/

/-- A rotation that is started, or not, leaves all but MSTAT, the rotations and the events alone (R410). -/
theorem State.startRotation_eq (s : State) (ctx : BitVec 16) : ∃ m r e, s.startRotation ctx =
    { s with hart := { s.hart with csr := { s.hart.csr with mstat := m } }, rotations := r, events := e } := by
  unfold State.startRotation
  split
  · exact ⟨_, s.rotations, s.events, rfl⟩
  · split
    · exact ⟨_, s.rotations, s.events, rfl⟩
    · exact ⟨_, _, _, rfl⟩

/-- Every CSR write leaves all but the CSRs of the hart, the rotations and the events alone, and no write reaches `instret`. -/
theorem State.csrSet_eq (s : State) (n : CsrName) (w : Word) : ∃ c r e, s.csrSet n w =
    { s with hart := { s.hart with csr := c }, rotations := r, events := e } ∧ c.instret = s.hart.csr.instret := by
  cases n
  case rkctl =>
    simp only [State.csrSet]
    split
    · obtain ⟨m, r, e, h⟩ := State.startRotation_eq (s.withCsr (fun c => { c with rkctl := w &&& 0xFFFF })) (w.extractLsb' 0 16)
      exact ⟨_, r, e, h, rfl⟩
    · exact ⟨_, s.rotations, s.events, rfl, rfl⟩
  case pmpaddr i =>
    refine ⟨_, s.rotations, s.events, rfl, ?_⟩
    dsimp only
    split <;> rfl
  all_goals exact ⟨_, s.rotations, s.events, rfl, rfl⟩

/-- What a CSR instruction keeps of the mode and of `instret` before it retires. -/
theorem State.csrWrite_hart (s : State) (n : CsrName) (w : Option Word) :
    (s.csrWrite n w).hart.mode = s.hart.mode ∧ (s.csrWrite n w).hart.csr.instret = s.hart.csr.instret := by
  cases w with
  | none => exact ⟨rfl, rfl⟩
  | some w =>
    obtain ⟨c, r, e, h, hc⟩ := State.csrSet_eq s n w
    rw [State.csrWrite, h]
    exact ⟨rfl, hc⟩

/-- The completion of vector results leaves the mode and `instret` alone. -/
theorem csrReady_hart (s : State) (csr : BitVec 12) :
    (csrReady s csr).hart.mode = s.hart.mode ∧ (csrReady s csr).hart.csr.instret = s.hart.csr.instret := by
  unfold csrReady
  split <;> exact ⟨rfl, rfl⟩

/-- `State.csrOp` of an access that R33 allows retires in the mode it is in. -/
theorem State.csrOp_retires (s : State) (i : Instr) (rd : Reg) (csr : BitVec 12) (new : Option (Word → Word)) (n : CsrName)
    (hn : csrName csr = some n) (hl : csr.extractLsb' 8 2 ≤ BitVec.ofNat 2 (modeLevel s.hart.mode))
    (hw : new.isSome = true → ¬ readOnlyTo csr s.hart.mode) :
    ∃ t, s.csrOp i rd csr new = .next t ∧ t.hart.mode = s.hart.mode ∧ t.hart.csr.instret = s.hart.csr.instret + 1 := by
  obtain ⟨t, ht, hr⟩ := State.csrOp_allowed s i rd csr new n hn hl hw
  obtain ⟨m1, i1⟩ := State.csrWrite_hart (csrReady s csr) n (new.map (fun f => f ((csrReady s csr).csrGet n)))
  obtain ⟨m2, i2⟩ := csrReady_hart s csr
  have hm := congrArg Hart.mode hr.shell
  exact ⟨t, ht, hm.trans (m1.trans m2), by rw [hr.retired.instret, i1, i2]⟩

/-! ### mip under a change of the CSRs that do not enter it -/

/-- The ring registers, where the hart in focus keeps its KFAULTQ. -/
theorem State.rings_withCsr (s : State) (f : Csrs → Csrs) (h : (f s.hart.csr).kfaultq = s.hart.csr.kfaultq) :
    (s.withCsr f).rings = s.rings := by
  have hk : ∀ j, ((s.withCsr f).getHart j).csr.kfaultq = (s.getHart j).csr.kfaultq := by
    intro j
    by_cases hj : j = s.hid
    · subst hj
      exact (congrArg (·.csr.kfaultq) (State.getHart_hid (s.withCsr f))).trans
        (h.trans (congrArg (·.csr.kfaultq) (State.getHart_hid s)).symm)
    · simp [State.getHart, State.withCsr, hj]
  unfold State.rings
  rw [List.map_congr_left (fun j _ => hk j)]
  rfl

/-- mip of the hart in focus depends on five of its CSRs alone (Table 02-7, R344). -/
theorem State.mip_withCsr (s : State) (f : Csrs → Csrs) (h1 : (f s.hart.csr).ssip = s.hart.csr.ssip)
    (h2 : (f s.hart.csr).stimecmp = s.hart.csr.stimecmp) (h3 : (f s.hart.csr).mtimecmp = s.hart.csr.mtimecmp)
    (h4 : (f s.hart.csr).meip = s.hart.csr.meip) (h5 : (f s.hart.csr).kfaultq = s.hart.csr.kfaultq) :
    (s.withCsr f).csrGet .mip = s.csrGet .mip := by
  have hb : ∀ n, (s.withCsr f).mipBit s.hid (s.withCsr f).hart n = s.mipBit s.hid s.hart n := by
    intro n
    unfold State.mipBit
    split
    case h_1 => exact h1
    case h_3 => exact congrArg (fun w : Word => decide (w.toNat ≤ s.time)) h2
    case h_4 => exact congrArg (fun w : Word => decide (w.toNat ≤ s.time)) h3
    case h_5 => unfold State.seip; rw [State.rings_withCsr s f h5]; rfl
    case h_6 => exact h4
    all_goals rfl
  change BitVec.ofNat 64 ((interruptOrder.map (fun n => if (s.withCsr f).mipBit s.hid (s.withCsr f).hart n then 2 ^ n else 0)).sum) = _
  simp only [hb]
  rfl

end Sys2Proof.Machine
end

section
/-! Settles O11, O12 and O13: the CSRs. -/

namespace Sys2Proof.Proofs
open Sys2Proof Sys2Proof.Machine Sys2Proof.Safety

/-- Settles O11: each form is `State.csrOp` with the value of Table 04-9, or with none for a zero source. -/
theorem csrInstructions : Obligations.CsrInstructions := by
  intro s rd rs1 csr z n hn hl u old done
  have go (i : Instr) (f : Option (Word → Word)) (new : Option Word) (he : exec i s = s.csrOp i rd csr f)
      (hf : f.map (fun f => f old) = new) : done i new := by
    intro hw
    subst hf
    rw [he]
    have := State.csrOp_allowed s i rd csr f n hn hl (fun h => hw (by cases f <;> simp_all))
    cases f <;> exact this
  refine ⟨go _ _ _ rfl rfl, go _ _ _ rfl ?_, go _ _ _ rfl ?_, go _ _ _ rfl rfl, go _ _ _ rfl ?_, go _ _ _ rfl ?_⟩
  all_goals split <;> rfl

/-- R33, its first clauses: what no CSR instruction may do. -/
theorem csrOp_illegal (s : State) (i : Instr) (rd : Reg) (csr : BitVec 12) (new : Option (Word → Word))
    (he : exec i s = s.csrOp i rd csr new)
    (h : (csr.toNat ∉ csrNumbers ∨ ¬ csr.extractLsb' 8 2 ≤ BitVec.ofNat 2 (modeLevel s.hart.mode))
      ∨ (readOnlyTo csr s.hart.mode ∧ new.isSome = true)) : IllegalHere i s := by
  refine he.trans (State.csrOp_refused s i rd csr new (Bool.eq_false_iff.2 fun ha => ?_))
  obtain ⟨hn, hl, hw⟩ := (csrAllowed_iff ..).1 ha
  rcases h with (h | h) | ⟨hr, hs⟩
  · exact h ((csrName_isSome_iff csr).2 hn)
  · exact h hl
  · exact hw hs hr

/-- A CSR of the block 0x7C0 to 0x7CF is writable, and open to M-mode. -/
theorem monitorBlock_allowed {csr : BitVec 12} (h : csr.toNat / 16 = 0x7C) :
    (csrName csr).isSome = true ∧ ¬ readOnlyTo csr .m := by
  have hk : csr = BitVec.ofNat 12 (0x7C0 + csr.toNat % 16) := by
    apply BitVec.eq_of_toNat_eq
    have := csr.isLt
    simp only [BitVec.toNat_ofNat]
    omega
  have all : ∀ k < 16, (csrName (BitVec.ofNat 12 (0x7C0 + k))).isSome = true
      ∧ csrReadOnly (BitVec.ofNat 12 (0x7C0 + k)) .m = false := by
    decide
  obtain ⟨h1, h2⟩ := all (csr.toNat % 16) (Nat.mod_lt _ (by decide))
  rw [← hk] at h1 h2
  exact ⟨h1, fun hr => by rw [(csrReadOnly_iff csr .m).2 hr] at h2; exact Bool.noConfusion h2⟩

/-- BUSY of RKCTL is what the rotations under way say (Table 25-1). -/
theorem csrGet_rkctl_busy (s : State) : (s.csrGet .rkctl).getLsbD 17 = s.rkBusy := by
  simp only [State.csrGet]
  cases s.rkBusy <;> simp

/-- Settles O12, from the test that every CSR instruction makes (`csrAllowed_iff`) and what each CSR write does. -/
theorem csrAccessRules : Obligations.CsrAccessRules := by
  refine ⟨?_, csrName_isSome_iff, by decide, by decide, by decide, fun s w => ⟨rfl, rfl, rfl⟩, ?_, ?_, ?_⟩
  · intro s rd rs1 csr z low ro
    refine ⟨fun h => ?_, fun h => ?_⟩
    · have no (i : Instr) (f : Option (Word → Word)) (he : exec i s = s.csrOp i rd csr f) : IllegalHere i s :=
        csrOp_illegal s i rd csr f he (.inl h)
      exact ⟨no _ _ rfl, no _ _ rfl, no _ _ rfl, no _ _ rfl, no _ _ rfl, no _ _ rfl⟩
    · have no (i : Instr) (f : Option (Word → Word)) (he : exec i s = s.csrOp i rd csr f) (hf : f.isSome = true) : IllegalHere i s :=
        csrOp_illegal s i rd csr f he (.inr ⟨h, hf⟩)
      exact ⟨no _ _ rfl rfl, no _ _ rfl rfl, fun h1 => ⟨no _ _ rfl (by rw [if_neg h1]; rfl), no _ _ rfl (by rw [if_neg h1]; rfl)⟩,
        fun h1 => ⟨no _ _ rfl (by rw [if_neg h1]; rfl), no _ _ rfl (by rw [if_neg h1]; rfl)⟩⟩
  · intro s w hw
    have hk : s.csrSet .rkctl w = s.withCsr (fun c => { c with rkctl := w &&& 0xFFFF }) := by
      simp only [State.csrSet, hw, Bool.false_eq_true, if_false]
    rw [hk, csrGet_rkctl_busy, csrGet_rkctl_busy]
    rfl
  · intro s rd rs1 csr z hm hc i hi
    obtain ⟨hn, hr⟩ := monitorBlock_allowed hc
    obtain ⟨n, hn⟩ := Option.isSome_iff_exists.1 hn
    have go (i : Instr) (f : Option (Word → Word)) (he : exec i s = s.csrOp i rd csr f) :
        ∃ t, exec i s = .next t ∧ t.hart.mode = .m ∧ t.hart.csr.instret = s.hart.csr.instret + 1 := by
      rw [he, ← hm]
      refine State.csrOp_retires s i rd csr f n hn ?_ fun _ => hm ▸ hr
      rw [hm, BitVec.le_def]
      have := (csr.extractLsb' 8 2).isLt
      exact Nat.le_of_lt_succ this
    simp only [List.mem_cons, List.not_mem_nil, or_false] at hi
    rcases hi with rfl | rfl | rfl | rfl | rfl | rfl <;> exact go _ _ rfl
  · intro s w
    simp [State.csrSet, maskWrite, State.withCsr]

/-! ### Masks -/

/-- A masked write seen through a mask that lies within the written bits. -/
theorem maskWrite_and (old new m k : Word) (h : k &&& m = k) : maskWrite old new m &&& k = new &&& k := by
  rw [maskWrite, ← h]
  ext i
  simp
  cases new[i] <;> cases m[i] <;> simp

/-- The bits of a word under a mask. -/
theorem getLsbD_and_mask (w m : Word) (b : Nat) : (w &&& m).getLsbD b = (w.getLsbD b && m.getLsbD b) := BitVec.getLsbD_and

/-- The causes that UDELEG can delegate (Table 02-4). -/
theorem getLsbD_udelegMask (b : Nat) : udelegMask.getLsbD b = decide (b ∈ [2, 3, 24, 25, 26, 27, 28, 33, 35, 37, 38]) := by
  by_cases h : b < 64
  · interval_cases b <;> rfl
  · rw [BitVec.getLsbD_of_ge _ _ (by omega)]
    simp only [List.mem_cons, List.not_mem_nil, or_false]
    exact (decide_eq_false (by omega)).symm

/-- Tables 02-3 and 02-4: a write of one of these CSRs leaves each other of them as it reads; mip depends on none of them. -/
theorem csrSet_keeps (s : State) (w : Word) (n m : CsrName)
    (hn : n ∈ [CsrName.mscratch, .vmode, .vflags, .vmask, .scope, .ptroot, .uvec, .sepc, .mepc])
    (hm : m ∈ [CsrName.mscratch, .vmode, .vflags, .vmask, .scope, .ptroot, .uvec, .sepc, .mepc, .mstatus, .sstatus, .mie, .mip])
    (hne : m ≠ n) : (s.csrSet n w).csrGet m = s.csrGet m := by
  have hmip : (s.csrSet n w).csrGet .mip = s.csrGet .mip := by
    simp only [List.mem_cons, List.not_mem_nil, or_false] at hn
    rcases hn with rfl | rfl | rfl | rfl | rfl | rfl | rfl | rfl | rfl <;> exact State.mip_withCsr s _ rfl rfl rfl rfl rfl
  have other : ∀ n ∈ [CsrName.mscratch, .vmode, .vflags, .vmask, .scope, .ptroot, .uvec, .sepc, .mepc],
      ∀ m ∈ [CsrName.mscratch, .vmode, .vflags, .vmask, .scope, .ptroot, .uvec, .sepc, .mepc, .mstatus, .sstatus, .mie],
        m ≠ n → (s.csrSet n w).csrGet m = s.csrGet m := by
    simp [State.csrSet, State.csrGet, State.withCsr]
  by_cases h : m = .mip
  · exact h ▸ hmip
  · exact other n hn m (by simpa [h] using hm) hne

/-- Settles O13: each field by its mask, and the other CSRs by `csrSet_keeps`. -/
theorem csrFields : Obligations.CsrFields := by
  intro s w
  refine ⟨?_, ?_, rfl, rfl, rfl, rfl, rfl, rfl, rfl, ?_, ?_, ?_, ?_, ?_, ?_, ?_, ?_, ?_⟩
  · intro n hn
    simp only [List.mem_cons, List.not_mem_nil, or_false] at hn
    rcases hn with rfl | rfl | rfl | rfl | rfl | rfl | rfl | rfl <;> rfl
  · intro n hn
    simp only [List.mem_cons, List.not_mem_nil, or_false] at hn
    rcases hn with rfl | rfl | rfl | rfl <;> rfl
  · exact maskWrite_and _ _ _ _ (by decide)
  · rfl
  · intro b hb
    change (w &&& udelegMask).getLsbD b = false
    rw [getLsbD_and_mask, getLsbD_udelegMask, decide_eq_false hb, Bool.and_false]
  · intro b hb
    change (w &&& udelegMask).getLsbD b = w.getLsbD b
    rw [getLsbD_and_mask, getLsbD_udelegMask, decide_eq_true hb, Bool.and_true]
  · intro h
    change writeVmode _ w &&& 0x7F = _
    rw [writeVmode, if_pos h]
    exact maskWrite_and _ _ _ _ (by decide)
  · intro h
    change (writeVmode _ w).extractLsb' 2 3 = _ ∧ writeVmode _ w &&& 0x63 = _
    rw [writeVmode, if_neg (Nat.not_lt.2 h)]
    refine ⟨?_, maskWrite_and _ _ _ _ (by decide)⟩
    ext i hi
    interval_cases i <;> simp [maskWrite] <;> rfl
  · intro h
    change writeTvec _ w = _
    rw [writeTvec, if_neg (Nat.not_lt.2 h), maskWrite, BitVec.not_not, BitVec.or_comm]
    rfl
  · intro h
    change writeTvec _ w = _
    rw [writeTvec, if_pos h]
  · intro n hn m hm hne
    exact csrSet_keeps s w n m hn hm hne

end Sys2Proof.Proofs
end

section
/-! SUPPORT. Taking an exception and returning from one (R37, R337 to R341): the bits of the status registers, the causes, and what
each entry and each return does. -/

namespace Sys2Proof.Machine
open Sys2Proof.Safety

/-! ### Single bits of a word -/

/-- The bits of a word of which one is written. -/
theorem getLsbD_setBit (w : Word) {n : Nat} (b : Bool) (hn : n < 64) (k : Nat) :
    (setBit w n b).getLsbD k = if k = n then b else w.getLsbD k := by
  have one : (BitVec.ofNat 64 (2 ^ n)).getLsbD k = decide (k = n) := by
    rw [BitVec.getLsbD_ofNat, Nat.testBit_two_pow]
    by_cases h : k = n
    · simp [h, hn]
    · simp [h, Ne.symm h]
  have opt : (if b then BitVec.ofNat 64 (2 ^ n) else 0).getLsbD k = (b && decide (k = n)) := by
    cases b
    · simp
    · simpa using one
  by_cases hk : k < 64
  · rw [setBit, BitVec.getLsbD_or, BitVec.getLsbD_and, BitVec.getLsbD_not, one, opt]
    by_cases h : k = n <;> simp [h, hk]
  · rw [BitVec.getLsbD_of_ge _ _ (by omega), BitVec.getLsbD_of_ge w _ (by omega), if_neg (by omega)]

/-- One bit written. -/
theorem bitWritten_setBit (w : Word) {n : Nat} (b : Bool) (hn : n < 64) : BitWritten w (setBit w n b) n b := by
  refine ⟨by rw [getLsbD_setBit w b hn, if_pos rfl], fun k hk => by rw [getLsbD_setBit w b hn, if_neg hk]⟩

/-- Writing ACTIVE is writing bit 63 of REPSTATE. -/
theorem repSetActive_eq (r : Word) (a : Bool) : repSetActive r a = setBit r 63 a := by
  cases a <;> rfl

/-- The bits of the field MPP. -/
theorem getLsbD_mppMask (k : Nat) : (0x1800#64).getLsbD k = decide (k = 11 ∨ k = 12) := by
  by_cases h : k < 64
  · interval_cases k <;> rfl
  · rw [BitVec.getLsbD_of_ge _ _ (by omega), decide_eq_false (by omega)]

/-- The bits outside MPP, which a mask clears. -/
theorem getLsbD_clearMpp (w : Word) (k : Nat) :
    (w &&& ~~~0x1800#64).getLsbD k = if k = 11 ∨ k = 12 then false else w.getLsbD k := by
  by_cases hk : k < 64
  · rw [BitVec.getLsbD_and, BitVec.getLsbD_not, getLsbD_mppMask]
    by_cases h : k = 11 ∨ k = 12 <;> simp [h, hk]
  · rw [BitVec.getLsbD_of_ge _ _ (by omega), BitVec.getLsbD_of_ge w _ (by omega), if_neg (by omega)]

/-! ### The status registers (R37) -/

/-- mstatus after `mret`. -/
theorem leavesStatus_m (w : Word) : LeavesStatus w (leaveStatusM w) true := by
  have bit (k : Nat) : (leaveStatusM w).getLsbD k = if k = 11 ∨ k = 12 then false else if k = 7 then true else
      if k = 3 then w.getLsbD 7 else w.getLsbD k := by
    rw [leaveStatusM, getLsbD_clearMpp, getLsbD_setBit _ _ (by decide), getLsbD_setBit _ _ (by decide)]
  refine ⟨by rw [bit]; rfl, by rw [bit]; rfl, ?_, fun n h3 h7 h11 h12 => by simp [bit, h3, h7, h11, h12]⟩
  ext i hi
  rw [BitVec.getElem_extractLsb', bit]
  interval_cases i <;> simp

/-- mstatus after `sret`. -/
theorem leavesStatus_s (w : Word) : LeavesStatus w (leaveStatusS w) false := by
  have bit (k : Nat) : (leaveStatusS w).getLsbD k = if k = 8 then false else if k = 5 then true else
      if k = 1 then w.getLsbD 5 else w.getLsbD k := by
    rw [leaveStatusS, getLsbD_setBit _ _ (by decide), getLsbD_setBit _ _ (by decide), getLsbD_setBit _ _ (by decide)]
  exact ⟨by rw [bit]; rfl, by rw [bit]; rfl, by rw [bit]; rfl, fun n h1 h5 h8 => by simp [bit, h1, h5, h8]⟩

/-- mstatus when a trap enters M-mode. -/
theorem entersStatus_m (w : Word) (mode : Mode) : EntersStatus w (enterStatusM w mode) true mode := by
  have mpp (k : Nat) : (BitVec.ofNat 64 (modeLevel mode * 0x800)).getLsbD k
      = if k = 11 then decide (mode ≠ .u) else if k = 12 then decide (mode = .m) else false := by
    by_cases hk : k < 64
    · cases mode <;> interval_cases k <;> rfl
    · rw [BitVec.getLsbD_of_ge _ _ (by omega), if_neg (by omega), if_neg (by omega)]
  have bit (k : Nat) : (enterStatusM w mode).getLsbD k = if k = 11 then decide (mode ≠ .u) else if k = 12 then decide (mode = .m) else
      if k = 3 then false else if k = 7 then w.getLsbD 3 else w.getLsbD k := by
    rw [enterStatusM, BitVec.getLsbD_or, getLsbD_clearMpp, mpp, getLsbD_setBit _ _ (by decide), getLsbD_setBit _ _ (by decide)]
    by_cases h11 : k = 11
    · simp [h11]
    · by_cases h12 : k = 12 <;> simp [h11, h12]
  refine ⟨by rw [bit]; rfl, by rw [bit]; rfl, ?_, fun n h3 h7 h11 h12 => by simp [bit, h3, h7, h11, h12]⟩
  have : (enterStatusM w mode).extractLsb' 11 2 = BitVec.ofNat 2 (modeLevel mode) := by
    ext i hi
    rw [BitVec.getElem_extractLsb', bit]
    cases mode <;> interval_cases i <;> simp [modeLevel]
  rw [this]
  cases mode <;> rfl

/-- mstatus when a trap of S- or U-mode enters S-mode. -/
theorem entersStatus_s (w : Word) (mode : Mode) (hm : mode ≠ .m) : EntersStatus w (enterStatusS w mode) false mode := by
  have bit (k : Nat) : (enterStatusS w mode).getLsbD k = if k = 8 then (mode == .s) else if k = 1 then false else
      if k = 5 then w.getLsbD 1 else w.getLsbD k := by
    rw [enterStatusS, getLsbD_setBit _ _ (by decide), getLsbD_setBit _ _ (by decide), getLsbD_setBit _ _ (by decide)]
  refine ⟨by rw [bit]; rfl, by rw [bit]; rfl, ?_, fun n h1 h5 h8 => by simp [bit, h1, h5, h8]⟩
  rw [bit, if_pos rfl]
  cases mode
  · rfl
  · rfl
  · exact absurd rfl hm

/-- The mode that MPP names; 2 names none. -/
theorem modeLevel_mppMode (w : Word) :
    modeLevel (mppMode w) = if w.extractLsb' 11 2 = 3 then 3 else if w.extractLsb' 11 2 = 1 then 1 else 0 := by
  have is (k : Nat) (hk : k < 4) : bitsNat w 11 2 = k ↔ w.extractLsb' 11 2 = BitVec.ofNat 2 k := by
    rw [← BitVec.toNat_inj, BitVec.toNat_ofNat, Nat.mod_eq_of_lt (by simpa using hk)]
  simp only [mppMode, is 3 (by decide), is 1 (by decide)]
  split
  · rename_i h; simp [h, modeLevel]
  · split <;> simp_all [modeLevel]

/-! ### Returning (R37, R341, R72) -/

/-- `State.afterReturn`: the pc, the mode and the CSRs are the ones that the return has given the hart, the return counts as an
instruction, and nothing else changes. -/
theorem State.afterReturn_spec (s : State) (pc : Word) (mode : Mode) (csr : Csrs) :
    let t := s.afterReturn { s.hart with pc := pc, mode := mode, csr := csr }
    t.hart.pc = pc ∧ t.hart.mode = mode ∧ t.hart.csr = { csr with instret := csr.instret + 1 } ∧ SameVectors s.hart t.hart
    ∧ t.hart.x = s.hart.x ∧ SameDevice s t ∧ SameShell { s.hart with mode := t.hart.mode } t.hart := by
  intro t
  have hf : SameVectors s.hart t.hart := fun r => Hart.finalV_settle _ r
  obtain ⟨v, q, hq⟩ := Hart.settle_eq
    { s.hart with pc := pc, mode := mode, steps := s.hart.steps + 1, csr := { csr with instret := csr.instret + 1 } }
  have ht : t.hart = _ := hq
  rw [ht] at hf ⊢
  exact ⟨rfl, rfl, rfl, hf, rfl, rfl, rfl⟩

end Sys2Proof.Machine

namespace Sys2Proof.Proofs
open Sys2Proof Sys2Proof.Machine Sys2Proof.Safety

/-- Settles O17: each return is `State.afterReturn` with the saved pc, mode, REPSTATE and status. -/
theorem trapReturns : Obligations.TrapReturns := by
  intro s keep
  have active (cause : Word) : BitWritten s.hart.csr.repstate (repSetActive s.hart.csr.repstate (cause.getLsbD 62)) 63 (cause.getLsbD 62) :=
    repSetActive_eq _ _ ▸ bitWritten_setBit _ _ (by decide)
  have pending (cause : Word) : BitWritten cause (setBit cause 62 false) 62 false := bitWritten_setBit _ _ (by decide)
  refine ⟨fun hm => ?_, fun hm => ?_, fun hm => ?_⟩
  · obtain ⟨hpc, hmode, hcsr, hv, hx, hd, hs⟩ :=
      State.afterReturn_spec s (pcOf s.hart.csr.mepc) (mppMode s.hart.csr.mstatus) s.hart.leaveM.csr
    refine ⟨_, if_neg (not_not.2 hm), ⟨?_, ?_, hv, hx, hd, hs⟩, hpc, ?_, ?_, ?_, ?_⟩
    · exact hcsr ▸ active _
    · exact congrArg Csrs.instret hcsr
    · exact (congrArg modeLevel hmode).trans (modeLevel_mppMode _)
    · exact hcsr ▸ pending _
    · exact hcsr ▸ leavesStatus_m _
    · exact congrArg (fun c : Csrs => { c with
        repstate := s.hart.csr.repstate, instret := s.hart.csr.instret, mcause := s.hart.csr.mcause, mstatus := s.hart.csr.mstatus }) hcsr
  · obtain ⟨hpc, hmode, hcsr, hv, hx, hd, hs⟩ :=
      State.afterReturn_spec s (pcOf s.hart.csr.sepc) (sppMode s.hart.csr.mstatus) s.hart.leaveS.csr
    refine ⟨_, if_neg hm, ⟨?_, ?_, hv, hx, hd, hs⟩, hpc, hmode, ?_, ?_, ?_⟩
    · exact hcsr ▸ active _
    · exact congrArg Csrs.instret hcsr
    · exact hcsr ▸ pending _
    · exact hcsr ▸ leavesStatus_s _
    · exact congrArg (fun c : Csrs => { c with
        repstate := s.hart.csr.repstate, instret := s.hart.csr.instret, scause := s.hart.csr.scause, mstatus := s.hart.csr.mstatus }) hcsr
  · obtain ⟨hpc, hmode, hcsr, hv, hx, hd, hs⟩ :=
      State.afterReturn_spec s (pcOf s.hart.csr.uepc) s.hart.mode s.hart.leaveU.csr
    refine ⟨_, if_neg (not_not.2 hm), ⟨?_, ?_, hv, hx, hd, hs⟩, hpc, hmode.trans hm, ?_, ?_⟩
    · exact hcsr ▸ active _
    · exact congrArg Csrs.instret hcsr
    · exact hcsr ▸ pending _
    · exact congrArg (fun c : Csrs => { c with
        repstate := s.hart.csr.repstate, instret := s.hart.csr.instret, ucause := s.hart.csr.ucause }) hcsr

end Sys2Proof.Proofs
end

section
/-! SUPPORT and settles O18. Trap entry (R37, R337, R340): the cause, the vector, and where each exception goes. -/

namespace Sys2Proof.Machine
open Sys2Proof.Safety

/-! ### Causes and vectors -/

/-- Fields that do not overlap, added and put together. -/
theorem ofNat_add_eq_or {a i : Nat} (b : Nat) (h : a < 2 ^ i) :
    BitVec.ofNat 64 (a + b * 2 ^ i) = BitVec.ofNat 64 a ||| BitVec.ofNat 64 (b * 2 ^ i) := by
  rw [← BitVec.ofNat_or, Nat.add_comm, Nat.mul_comm, Nat.two_pow_add_eq_or_of_lt h, Nat.or_comm]

/-- A cause register as a trap entry writes it (R34, R37). -/
theorem causeIs_causeWord (int rep : Bool) (code : Nat) : CauseIs (causeWord int rep code) int rep code := by
  have hc : code % 64 < 64 := Nat.mod_lt _ (by decide)
  have both := ofNat_add_eq_or (a := code % 64 + 2 ^ 62) (i := 63) 1 (by omega)
  have repOnly := ofNat_add_eq_or (a := code % 64) (i := 62) 1 (by omega)
  have intOnly := ofNat_add_eq_or (a := code % 64) (i := 63) 1 (by omega)
  simp only [Nat.one_mul] at both repOnly intOnly
  cases int <;> cases rep <;>
    simp only [CauseIs, causeWord, if_true, Bool.false_eq_true, if_false, Nat.add_zero, both, repOnly, intOnly] <;> simp

/-- UCAUSE as the upcall entry writes it (R340). -/
theorem causeWord_tag (rep : Bool) (code tag : Nat) : causeWord false rep code ||| BitVec.ofNat 64 (tag * 2 ^ 32)
    = BitVec.ofNat 64 (code % 64 + tag * 2 ^ 32) ||| (if rep then 0x4000000000000000 else 0) := by
  have hc : code % 64 < 2 ^ 32 := by omega
  have hw : causeWord false rep code = BitVec.ofNat 64 (code % 64) ||| (if rep then 0x4000000000000000 else 0) := by
    rw [show causeWord false rep code = _ from causeIs_causeWord false rep code]
    exact BitVec.or_zero
  rw [ofNat_add_eq_or tag hc, hw, BitVec.or_assoc, BitVec.or_assoc, BitVec.or_comm (BitVec.ofNat 64 (tag * 2 ^ 32))]

/-- MODE of a trap vector. -/
theorem vectorMode_iff (w : Word) : w &&& 3 = 1 ↔ w.extractLsb' 0 2 = 1 := by
  have h : w &&& 3 = (w.extractLsb' 0 2).setWidth 64 := by
    apply BitVec.eq_of_toNat_eq
    rw [BitVec.toNat_and, BitVec.toNat_setWidth, BitVec.extractLsb'_toNat]
    have := Nat.and_two_pow_sub_one_eq_mod w.toNat 2
    simp at this ⊢
    omega
  rw [h, ← BitVec.toNat_inj, ← BitVec.toNat_inj]
  have := (w.extractLsb' 0 2).isLt
  simp only [BitVec.toNat_setWidth]
  rw [Nat.mod_eq_of_lt (by omega)]
  rfl

/-- Where a trap vector sends the hart (R37). -/
theorem vectorPc_eq (w : Word) (int : Bool) (code : Nat) : vectorPc w int code = vectorOf w int code := by
  simp only [vectorPc, vectorOf, vectorMode_iff]
  split <;> simp

/-- The bits of MODE. -/
theorem getLsbD_three (k : Nat) : (3#64).getLsbD k = decide (k < 2) := by
  by_cases h : k < 64
  · interval_cases k <;> rfl
  · rw [BitVec.getLsbD_of_ge _ _ (by omega), decide_eq_false (by omega)]

/-- A trap vector whose BASE is 0. -/
theorem vectorBase_eq_zero_iff (w : Word) : w &&& ~~~3#64 = 0 ↔ w.extractLsb' 2 62 = 0 := by
  have bit (k : Nat) : (w &&& ~~~3#64).getLsbD k = (w.getLsbD k && !decide (k < 2)) := by
    by_cases hk : k < 64
    · rw [BitVec.getLsbD_and, BitVec.getLsbD_not, getLsbD_three, decide_eq_true hk, Bool.true_and]
    · rw [BitVec.getLsbD_of_ge _ _ (by omega), BitVec.getLsbD_of_ge w _ (by omega), Bool.false_and]
  constructor <;> intro h <;> apply BitVec.eq_of_getLsbD_eq <;> intro i hi
  · have := congrArg (fun v : Word => v.getLsbD (2 + i)) h
    rw [bit, decide_eq_false (by omega), Bool.not_false, Bool.and_true] at this
    rw [BitVec.getLsbD_extractLsb', decide_eq_true hi, Bool.true_and]
    exact this.trans (by simp)
  · have := congrArg (fun v : BitVec 62 => v.getLsbD (i - 2)) h
    rw [bit]
    by_cases h2 : i < 2
    · simp [h2]
    · rw [BitVec.getLsbD_extractLsb', Nat.add_sub_of_le (by omega)] at this
      simpa [h2, show i - 2 < 62 by omega] using this

/-- A trap into a mode is unhandled on a compute-core hart whose vector has BASE 0 alone (R350). -/
theorem hasVector_iff (s : State) (toM : Bool) : HasVector s toM ↔
    ¬ (isCompute s.hid = true ∧ (if toM then s.hart.csr.mtvec else s.hart.csr.stvec) &&& ~~~3#64 = 0) := by
  rw [HasVector, vectorBase_eq_zero_iff, not_and_or, Bool.not_eq_true]

/-! ### The entries (R37, R340) -/

/-- Withdrawing what the hart waits for changes requests, arrivals and waiters alone (R179, R194, R207, R208). -/
theorem State.withdraw_eq (s : State) : ∃ w l k p, s.withdraw = { s with waiters := w, launches := l, clusters := k, parties := p } := by
  unfold State.withdraw
  split
  · exact ⟨_, s.launches, s.clusters, s.parties, rfl⟩
  · split
    · exact ⟨s.waiters, _, s.clusters, s.parties, rfl⟩
    · exact ⟨s.waiters, s.launches, s.clusters, s.parties, rfl⟩
  · exact ⟨s.waiters, s.launches, _, s.parties, rfl⟩
  · exact ⟨s.waiters, s.launches, s.clusters, _, rfl⟩
  · exact ⟨s.waiters, s.launches, s.clusters, s.parties, rfl⟩

/-- Withdrawing leaves the hart in focus, its number and the tags alone. -/
theorem State.withdraw_keeps (s : State) : s.withdraw.hart = s.hart ∧ s.withdraw.hid = s.hid ∧ s.withdraw.faultTags = s.faultTags := by
  obtain ⟨w, l, k, p, h⟩ := State.withdraw_eq s
  rw [h]
  exact ⟨rfl, rfl, rfl⟩

/-- Completing the results in flight keeps each register's contents in program order (R37, R40). -/
theorem Hart.complete_sameVectors (h k : Hart) (hv : k.v = h.complete.v) (hi : k.inflight = []) : SameVectors h k := by
  intro r
  rw [← Hart.complete_v h r]
  simp only [Hart.finalV, hi, hv, List.foldl_nil]

/-- ACTIVE cleared at an entry. -/
theorem bitWritten_active (r : Word) (a : Bool) : BitWritten r (repSetActive r a) 63 a :=
  repSetActive_eq r a ▸ bitWritten_setBit r a (by decide)

/-- A hart outside the device seen by `withdraw`: a hart put back. -/
theorem State.withdraw_device (s : State) (h : Hart) : { ({ s.withdraw with hart := h } : State) with hart := s.hart } = s.withdraw := by
  obtain ⟨hh, -, -⟩ := State.withdraw_keeps s
  exact congrArg (fun k => { s.withdraw with hart := k }) hh.symm

/-- `State.trapM` with a handler, after the hart's requests are withdrawn: the entry into M-mode. -/
theorem State.trapM_withdraw (s : State) (int : Bool) (c : Nat) (v : Word) (hv : HasVector s true) :
    EnteredM s (s.withdraw.trapM int c v) int c v := by
  obtain ⟨hh, hid, -⟩ := State.withdraw_keeps s
  have ht : s.withdraw.trapM int c v = { s.withdraw with hart := s.hart.enterM int c v } := by
    unfold State.trapM
    have hn := (hasVector_iff s true).1 hv
    simp only [if_true] at hn
    rw [if_neg (by rw [hid, hh]; exact hn), hh]
  rw [ht]
  exact ⟨rfl, vectorPc_eq _ _ _, rfl, causeIs_causeWord _ _ _, rfl, entersStatus_m _ _, bitWritten_active _ _, rfl,
    ⟨rfl, Hart.complete_sameVectors _ _ rfl rfl⟩, rfl, rfl, State.withdraw_device s _⟩

/-- `State.trapS` from a mode below M with a handler, after the hart's requests are withdrawn: the entry into S-mode. -/
theorem State.trapS_withdraw (s : State) (int : Bool) (c : Nat) (v : Word) (hm : s.hart.mode ≠ .m) (hv : HasVector s false) :
    EnteredS s (s.withdraw.trapS int c v) int c v := by
  obtain ⟨hh, hid, -⟩ := State.withdraw_keeps s
  have ht : s.withdraw.trapS int c v = { s.withdraw with hart := s.hart.enterS int c v } := by
    unfold State.trapS
    have hn := (hasVector_iff s false).1 hv
    simp only [Bool.false_eq_true, if_false] at hn
    rw [if_neg (by rw [hid, hh]; exact hn), hh]
  rw [ht]
  exact ⟨rfl, vectorPc_eq _ _ _, rfl, causeIs_causeWord _ _ _, rfl, entersStatus_s _ _ hm, bitWritten_active _ _, rfl,
    ⟨rfl, Hart.complete_sameVectors _ _ rfl rfl⟩, rfl, rfl, State.withdraw_device s _⟩

/-- The upcall entry, whatever the post of a page fault has done to the device (R340). -/
theorem Hart.enterU_spec {s t : State} (c tag : Nat) (v : Word) (ht : t.hart = s.hart.enterU c tag v) : EnteredU s t c tag v := by
  constructor <;> rw [ht]
  · rfl
  · rfl
  · rfl
  · rfl
  · exact causeWord_tag _ _ _
  · exact bitWritten_active _ _
  · rfl
  · exact ⟨rfl, Hart.complete_sameVectors _ _ rfl rfl⟩
  · rfl
  · rfl

/-! ### Posting a fault (R340, R343) -/

/-- A store leaves the hart in focus alone. -/
theorem State.store_hart (s : State) (a : Nat) (bs : List Byte) : (s.store a bs).hart = s.hart :=
  (onlyMemory_harts (State.storeBy_only s none a bs)).2.1

/-- An entry written to a ring leaves the hart in focus alone. -/
theorem State.ringWrite_hart (s : State) (r : Word) (bytes : List Byte) : (s.ringWrite r bytes).hart = s.hart := by
  simp only [State.ringWrite, State.storeWhole, State.store_hart]

/-- A post leaves the hart in focus alone. -/
theorem State.post_hart (s : State) (r : Word) (bytes : List Byte) : (s.post r bytes).hart = s.hart := by
  unfold State.post
  split
  · rfl
  · exact State.ringWrite_hart s r bytes

/-- Taking a tag leaves the hart in focus alone. -/
theorem State.takeTag_hart (s : State) (ctx : BitVec 16) : (s.takeTag ctx).2.hart = s.hart := rfl

/-- The tag taken is the context's next one. -/
theorem State.takeTag_tag (s : State) (ctx : BitVec 16) : (s.takeTag ctx).1 = assocGet s.faultTags 1 ctx.toNat := rfl

/-- A fault posted leaves the hart in focus alone. -/
theorem State.postFault_hart (s : State) (ctx : BitVec 16) (r : Word) (bytes : List Byte) : (s.postFault ctx r bytes).hart = s.hart := by
  rw [State.postFault, State.post_hart]
  rfl

/-- The post of an upcall: a page fault takes the context's next tag (R340), and the hart in focus stays as it is. -/
theorem State.upcallPost_spec {s w : State} {c tag : Nat} {v : Word} (h : s.upcallPost c v = (tag, w)) : w.hart = s.hart
    ∧ tag = if c ∈ [12, 13, 15] then assocGet s.faultTags 1 (s.hart.csr.ctxid.extractLsb' 0 16).toNat else 0 := by
  have mem : c ∈ [12, 13, 15] ↔ c = 12 ∨ c = 13 ∨ c = 15 := by simp
  unfold State.upcallPost at h
  split at h
  next hc =>
    rw [if_pos (mem.2 hc), ← State.takeTag_tag]
    extract_lets ctx flags at h
    have takes := State.takeTag_hart s ctx
    split at h
    next next u taken =>
    rw [taken] at takes ⊢
    extract_lets posted marked at h
    have posts : posted.hart = u.hart := State.postFault_hart _ _ _ _
    clear_value posted
    obtain ⟨rfl, rfl⟩ := Prod.mk.inj h
    refine ⟨?_, rfl⟩
    rw [← takes, ← posts]
    unfold marked
    split
    · exact State.mapParty_hart _ _ _
    · rfl
  next hc =>
    obtain ⟨rfl, rfl⟩ := Prod.mk.inj h
    exact ⟨rfl, (if_neg (fun h => hc (mem.1 h))).symm⟩

/-! ### Where a trap goes (R337) -/

/-- Table 21-1: from M, and causes 9, 11 and 36 from every mode, to M. -/
theorem trapTarget_toM {x : Hart} {c : Nat} (h : x.mode = .m ∨ c ∈ [9, 11, 36]) : trapTarget x c = .toM := by
  simp only [List.mem_cons, List.not_mem_nil, or_false] at h
  rcases h with hm | hc
  · rw [trapTarget, hm]
  · unfold trapTarget
    cases x.mode with
    | m => rfl
    | s => exact if_pos hc
    | u => exact if_pos hc

/-- The upcalls of U-mode: a page fault when KFAULTQ names a queue, another exception when UDELEG delegates it, each with a
nonzero UVEC (R337). -/
def Upcalls (x : Hart) (c : Nat) : Prop :=
  (c ∈ [12, 13, 15] ∧ x.csr.uvec ≠ 0 ∧ ringNamed x.csr.kfaultq = true)
    ∨ (c ∉ [12, 13, 15] ∧ x.csr.udeleg.getLsbD c = true ∧ x.csr.uvec ≠ 0)

/-- Table 21-1 for the causes of U-mode that do not go to M. -/
theorem trapTarget_of_u {x : Hart} {c : Nat} (hm : x.mode = .u) (hc : c ∉ [9, 11, 36]) :
    (Upcalls x c → trapTarget x c = .upcall) ∧ (¬ Upcalls x c → trapTarget x c = .toS) := by
  simp only [List.mem_cons, List.not_mem_nil, or_false] at hc
  simp only [Upcalls, List.mem_cons, List.not_mem_nil, or_false, trapTarget, hm, if_neg hc]
  by_cases hp : c = 12 ∨ c = 13 ∨ c = 15
  · simp only [hp, if_true, true_and, not_true, false_and, or_false]
    exact ⟨fun h => if_pos h, fun h => if_neg h⟩
  · simp only [hp, if_false, false_and, not_false_eq_true, true_and, false_or]
    exact ⟨fun h => if_pos h, fun h => if_neg h⟩

/-- Table 21-1: of S-mode, and of U-mode without an upcall, to S. -/
theorem trapTarget_toS {x : Hart} {c : Nat} (hc : c ∉ [9, 11, 36]) (h : x.mode = .s ∨ (x.mode = .u ∧ ¬ Upcalls x c)) :
    trapTarget x c = .toS := by
  rcases h with hm | ⟨hm, hu⟩
  · simp only [List.mem_cons, List.not_mem_nil, or_false] at hc
    rw [trapTarget, hm]
    exact if_neg hc
  · exact (trapTarget_of_u hm hc).2 hu

/-- `State.trap` of an exception that goes to M; withdrawing leaves the target as it is. -/
theorem State.trap_toM {s : State} {c : Nat} (v : Word) (h : trapTarget s.hart c = .toM) :
    s.trap c v = s.withdraw.trapM false c (trapValue c v) := by
  rw [← (State.withdraw_keeps s).1] at h
  simp only [State.trap, h]

/-- `State.trap` of an exception that goes to S. -/
theorem State.trap_toS {s : State} {c : Nat} (v : Word) (h : trapTarget s.hart c = .toS) :
    s.trap c v = s.withdraw.trapS false c (trapValue c v) := by
  rw [← (State.withdraw_keeps s).1] at h
  simp only [State.trap, h]

/-- The hart of an upcall, after its post. -/
theorem State.trap_upcall {s u : State} {c tag : Nat} (v : Word) (h : trapTarget s.hart c = .upcall)
    (post : s.withdraw.upcallPost c (trapValue c v) = (tag, u)) : (s.trap c v).hart = u.hart.enterU c tag (trapValue c v) := by
  rw [← (State.withdraw_keeps s).1] at h
  simp only [State.trap, h, post]

end Sys2Proof.Machine

namespace Sys2Proof.Proofs
open Sys2Proof Sys2Proof.Machine Sys2Proof.Safety

/-- Settles O18: `trapTarget` says where the trap goes, and each entry does what R37 and R340 say. -/
theorem trapDelegation : Obligations.TrapDelegation := by
  intro s c v t v' up
  refine ⟨fun hm hv => ?_, fun hc hm hv => ?_, fun hc hm hu => ?_⟩
  · have ht : t = _ := State.trap_toM v (trapTarget_toM hm)
    exact ht ▸ State.trapM_withdraw s false c v' hv
  · have ht : t = _ := State.trap_toS v (trapTarget_toS hc hm)
    have belowM : s.hart.mode ≠ .m := by
      rcases hm with hm | ⟨hm, -⟩ <;> simp [hm]
    exact ht ▸ State.trapS_withdraw s false c v' belowM hv
  · obtain ⟨hh, -, hf⟩ := State.withdraw_keeps s
    rcases post : s.withdraw.upcallPost c v' with ⟨tag, u⟩
    obtain ⟨hart, htag⟩ := State.upcallPost_spec post
    rw [hh, hf] at htag
    rw [hh] at hart
    have ht : t.hart = _ := State.trap_upcall v ((trapTarget_of_u hm hc).1 hu) post
    exact htag ▸ Hart.enterU_spec _ _ _ (hart ▸ ht)

end Sys2Proof.Proofs
end

section
/-! SUPPORT and settles O21. The pending interrupts (R35, R36): mip as its bits, and the events that set one. -/

namespace Sys2Proof.Machine
open Sys2Proof.Safety

/-! ### mip as its bits (Table 02-7) -/

/-- A word put together from distinct powers of two has the bits of their exponents. -/
theorem getLsbD_sum_powers (p : Nat → Bool) (l : List Nat) (hl : l.Nodup) (k : Nat) (hk : k < 64) :
    (BitVec.ofNat 64 ((l.map (fun n => if p n then 2 ^ n else 0)).sum)).getLsbD k = (decide (k ∈ l) && p k) := by
  induction l generalizing k with
  | nil => simp
  | cons n l ih =>
    obtain ⟨hn, hl⟩ := List.nodup_cons.1 hl
    have power (k : Nat) (hk : k < 64) : (BitVec.ofNat 64 (if p n then 2 ^ n else 0)).getLsbD k = (decide (k = n) && p n) := by
      rw [BitVec.getLsbD_ofNat, decide_eq_true hk, Bool.true_and]
      split
      next h => rw [h, Nat.testBit_two_pow, Bool.and_true]; simp only [eq_comm]
      next h => rw [Nat.zero_testBit, Bool.eq_false_iff.2 h, Bool.and_false]
    have apart : BitVec.ofNat 64 (if p n then 2 ^ n else 0)
        &&& BitVec.ofNat 64 ((l.map (fun n => if p n then 2 ^ n else 0)).sum) = 0 := by
      apply BitVec.eq_of_getLsbD_eq
      intro i hi
      rw [BitVec.getLsbD_and, power i hi, ih hl i hi]
      by_cases h : i = n
      · simp [h, hn]
      · simp [h]
    rw [List.map_cons, List.sum_cons, BitVec.ofNat_add, BitVec.add_eq_or_of_and_eq_zero _ _ apart, BitVec.getLsbD_or,
      power k hk, ih hl k hk]
    by_cases h : k = n
    · simp [h, hn]
    · simp [h]

/-- No other interrupt is ever pending. -/
theorem State.mipBit_of_notMem {n : Nat} (hn : n ∉ interruptOrder) (s : State) (h : Nat) (x : Hart) : s.mipBit h x n = false := by
  unfold State.mipBit
  split <;> simp_all [interruptOrder]

/-- mip has the bit of each interrupt, and no other. -/
theorem State.mip_getLsbD (s : State) (h : Nat) (x : Hart) (n : Nat) : (s.mip h x).getLsbD n = s.mipBit h x n := by
  have inWord : ∀ n ∈ interruptOrder, n < 64 := by decide
  by_cases small : n < 64
  · rw [State.mip, getLsbD_sum_powers _ _ (by decide) n small]
    by_cases hn : n ∈ interruptOrder
    · rw [decide_eq_true hn, Bool.true_and]
    · rw [decide_eq_false hn, Bool.false_and, State.mipBit_of_notMem hn]
  · rw [BitVec.getLsbD_of_ge _ _ (by omega), State.mipBit_of_notMem (fun hn => small (inWord n hn))]

/-- A compute-core hart has no interrupt of an accelerator ring (Table 02-7). -/
theorem State.seip_compute (s : State) {h : Nat} (hc : isCompute h = true) : s.seip h = false := by
  rw [State.seip, hc, Bool.not_true, Bool.false_and]

/-- A compute-core hart has no recall notice pending (Table 02-7). -/
theorem State.recallPending_compute (s : State) {h : Nat} (hc : isCompute h = true) : s.recallPending h = false := by
  rw [State.recallPending, hc, Bool.not_true, Bool.false_and, Bool.false_and]

/-! ### The events -/

/-- The clock moved on to a compare value has reached it (R34, R35). -/
theorem le_time_max (c k : Nat) : k ≤ max c (3 * k) / 3 := by omega

/-- MSIP of the harts after a store of one (R36). -/
theorem State.setMsip_contains (s : State) (h : Nat) (b : Bool) (k : Nat) :
    (s.setMsip h b).msips.contains k = if k = h then b else s.msips.contains k := by
  unfold State.setMsip
  dsimp only
  by_cases hk : k = h <;> cases b <;> by_cases hm : s.msips.contains h <;> simp_all

/-- A hart put back changes that hart alone. -/
theorem State.setHart_device (s : State) (h : Nat) (x : Hart) : { s.setHart h x with hart := s.hart, others := s.others } = s := by
  unfold State.setHart
  split <;> rfl

end Sys2Proof.Machine

namespace Sys2Proof.Proofs
open Sys2Proof Sys2Proof.Machine Sys2Proof.Safety

/-- Settles O21: mip is read bit by bit (`State.mip_getLsbD`), and each event changes the one thing a bit reads. -/
theorem interruptPending : Obligations.InterruptPending := by
  intro s h c b mip onlyCsr
  have bit (n : Nat) : mip.getLsbD n = s.mipBit s.hid s.hart n := State.mip_getLsbD s s.hid s.hart n
  have onlyCsr_setHart (k : Nat) (csr : Csrs) : onlyCsr (s.setHart k { s.getHart k with csr := csr }) k csr :=
    ⟨by rw [State.getHart_setHart, if_pos rfl], fun j hj => by rw [State.getHart_setHart, if_neg hj], State.setHart_device s k _⟩
  have beyond (n : Nat) (hn : n ∉ [1, 3, 5, 7, 9, 11, 16, 17]) : n ∉ interruptOrder := by
    revert hn
    simp only [interruptOrder, List.mem_cons, List.not_mem_nil, or_false]
    omega
  refine ⟨bit 1, bit 3, bit 5, bit 7,
    fun hc => ⟨(bit 9).trans (State.seip_compute s hc), (bit 17).trans (State.recallPending_compute s hc)⟩,
    bit 11, bit 16, fun n hn => (bit n).trans (State.mipBit_of_notMem (beyond n hn) s _ _), rfl,
    ⟨_, rfl, decide_eq_true (le_time_max _ _), Nat.le_max_left _ _, rfl⟩,
    ⟨_, rfl, decide_eq_true (le_time_max _ _), Nat.le_max_left _ _, rfl⟩, fun hh => ?_, fun hh => ?_,
    ⟨_, rfl, onlyCsr_setHart (4 * c) _⟩⟩
  · exact ⟨_, congrArg Host.Outcome.next (if_pos hh), rfl, State.setMsip_contains s h b⟩
  · cases b with
    | true =>
      refine ⟨_, congrArg Host.Outcome.next (if_pos ⟨hh, rfl⟩), ?_⟩
      rw [Bool.or_true]
      exact onlyCsr_setHart h _
    | false =>
      refine ⟨_, congrArg Host.Outcome.next (if_neg (by simp)), ?_⟩
      rw [Bool.or_false]
      exact ⟨rfl, fun _ _ => rfl, rfl⟩

end Sys2Proof.Proofs
end

section
/-! SUPPORT. What a fetch may change (R44, R45, R251): the fetch buffer of the hart in focus and the caches that serve it. -/

namespace Sys2Proof.Machine
open Sys2Proof.Safety

/-! ### Translation for a fetch -/

/-- `t` differs from `s` at most in the cores' caches, the walk cache and the cached context pages. -/
def CachesOnly (s t : State) : Prop := ∃ c w p, t = { s with cores := c, walks := w, ctxPages := p }

/-- Nothing changed. -/
theorem CachesOnly.refl (s : State) : CachesOnly s s := ⟨s.cores, s.walks, s.ctxPages, rfl⟩

/-- One change of caches after another. -/
theorem CachesOnly.trans {s t u : State} (h : CachesOnly s t) (k : CachesOnly t u) : CachesOnly s u := by
  obtain ⟨_, _, _, rfl⟩ := h
  obtain ⟨c, w, p, rfl⟩ := k
  exact ⟨c, w, p, rfl⟩

/-- A core put back. -/
theorem cachesOnly_setCore (s : State) (c : Nat) (x : Core) : CachesOnly s (s.setCore c x) := ⟨_, s.walks, s.ctxPages, rfl⟩

/-- An entry of an instruction TLB used. -/
theorem cachesOnly_tlbUse (s : State) (c : Nat) (e : TlbEntry) : CachesOnly s (s.tlbUse (.fetch c) e) := cachesOnly_setCore s c _

/-- The context page cached. -/
theorem cachesOnly_cachePage (s : State) (ctx : BitVec 16) (root : Nat) : CachesOnly s (s.cachePage ctx root) := by
  unfold State.cachePage
  extract_lets lo
  split
  · exact .refl s
  · exact ⟨s.cores, s.walks, _, rfl⟩

/-- A walk that succeeded, noted. -/
theorem cachesOnly_noteWalk (s : State) (die : Nat) (ctx : BitVec 16) (root : Nat) (seen : List (Nat × Word)) :
    CachesOnly s (s.noteWalk die ctx root seen) :=
  CachesOnly.trans ⟨s.cores, _, s.ctxPages, rfl⟩ (cachesOnly_cachePage _ ctx root)

/-- Translating for a fetch changes caches alone (R251, R253). -/
theorem cachesOnly_translate {s t : State} {c root va : Nat} {ctx : BitVec 16} {write : Bool} {ok : Word → Bool}
    {r : Except (WalkFail ⊕ (Nat × TlbEntry)) (TlbEntry × Nat)} (h : translate s (.fetch c) root ctx va write ok = (t, r)) :
    CachesOnly s t := by
  unfold translate at h
  extract_lets l at h
  split at h
  · split at h
    · exact (Prod.mk.inj h).1 ▸ cachesOnly_tlbUse s c _
    · split at h
      · exact (Prod.mk.inj h).1 ▸ .refl s
      · exact (Prod.mk.inj h).1 ▸ cachesOnly_tlbUse s c _
  · split at h
    · exact (Prod.mk.inj h).1 ▸ .refl s
    · extract_lets bits e pa at h
      split at h
      · exact (Prod.mk.inj h).1 ▸ .refl s
      · extract_lets e' at h
        rw [← (Prod.mk.inj h).1]
        split
        · exact (cachesOnly_noteWalk s _ _ _ _).trans (cachesOnly_setCore _ c _)
        · exact .refl s

/-- Finding a metadata byte's place for a fetch changes caches alone (R257). -/
theorem cachesOnly_metaKey {s t : State} {c root va : Nat} {ctx : BitVec 16} {mode : Mode} {write : Bool} {r : Except Nat Nat}
    (h : metaKey s (.fetch c) root ctx mode va write = (t, r)) : CachesOnly s t := by
  unfold metaKey at h
  extract_lets origin base len a ok at h
  split at h
  · exact (Prod.mk.inj h).1 ▸ .refl s
  · split at h
    · exact (Prod.mk.inj h).1 ▸ .refl s
    · split at h
      · exact (Prod.mk.inj h).1 ▸ .refl s
      · split at h
        next walked => exact (Prod.mk.inj h).1 ▸ cachesOnly_translate walked
        next walked => exact (Prod.mk.inj h).1 ▸ cachesOnly_translate walked
        next walked => split at h <;> exact (Prod.mk.inj h).1 ▸ cachesOnly_translate walked

/-- The metadata byte's place where a leaf asks for one. -/
theorem cachesOnly_metaFor {s t : State} {c root va : Nat} {ctx : BitVec 16} {mode : Mode} {p : Word} {write : Bool}
    {r : Except Nat (Option Nat)} (h : metaFor s (.fetch c) root ctx mode p va write = (t, r)) : CachesOnly s t := by
  unfold metaFor at h
  split at h
  · exact (Prod.mk.inj h).1 ▸ .refl s
  · split at h
    next found => exact (Prod.mk.inj h).1 ▸ cachesOnly_metaKey found
    next found => exact (Prod.mk.inj h).1 ▸ cachesOnly_metaKey found

/-- The checks of a fetch change caches alone. -/
theorem cachesOnly_checkFetch {s t : State} {a : Word} {r : Except Nat Place} (h : checkFetch s a = (t, r)) : CachesOnly s t := by
  unfold checkFetch at h
  extract_lets w blk at_ at h
  split at h
  · split at h <;> exact (Prod.mk.inj h).1 ▸ .refl s
  · split at h
    · exact (Prod.mk.inj h).1 ▸ .refl s
    · split at h
      · split at h
        · exact (Prod.mk.inj h).1 ▸ .refl s
        · split at h
          · exact (Prod.mk.inj h).1 ▸ .refl s
          · split at h <;> exact (Prod.mk.inj h).1 ▸ .refl s
      · split at h
        next walked => exact (Prod.mk.inj h).1 ▸ cachesOnly_translate walked
        next walked =>
          have moved := cachesOnly_translate walked
          repeat' split at h
          all_goals exact (Prod.mk.inj h).1 ▸ moved
        next u e r walked =>
          have moved := cachesOnly_translate walked
          extract_lets pa at h
          split at h
          · exact (Prod.mk.inj h).1 ▸ moved
          · split at h
            next v m found =>
            have moved := moved.trans (cachesOnly_metaFor found)
            repeat' split at h
            all_goals exact (Prod.mk.inj h).1 ▸ moved

/-- A block's bytes come with the instruction cache's fill (R44). -/
theorem cachesOnly_fetchBlock (s : State) (p : Place) : CachesOnly s (s.fetchBlock p).1 := by
  unfold State.fetchBlock
  extract_lets c ctx key bs
  split
  · exact .refl s
  · split
    · exact .refl s
    · exact cachesOnly_setCore s _ _

/-! ### The fetch buffer -/

/-- `t` differs from `s` at most in the fetch buffer of the hart in focus and in caches. -/
def FetchOnly (s t : State) : Prop := ∃ f, CachesOnly { s with hart := { s.hart with fetch := f } } t

/-- Nothing changed. -/
theorem FetchOnly.refl (s : State) : FetchOnly s s := ⟨s.hart.fetch, .refl s⟩

/-- One fetch after another. -/
theorem FetchOnly.trans {s t u : State} (h : FetchOnly s t) (k : FetchOnly t u) : FetchOnly s u := by
  obtain ⟨_, _, _, _, rfl⟩ := h
  obtain ⟨f, c, w, p, rfl⟩ := k
  exact ⟨f, c, w, p, rfl⟩

/-- Caches alone are part of what a fetch may change. -/
theorem CachesOnly.fetchOnly {s t : State} (h : CachesOnly s t) : FetchOnly s t := ⟨s.hart.fetch, h⟩

/-- What a fetch leaves alone: the hart but for its buffer, and the device but for caches. -/
theorem FetchOnly.keeps {s t : State} (h : FetchOnly s t) : { t.hart with fetch := s.hart.fetch } = s.hart
    ∧ { t with hart := s.hart, cores := s.cores, walks := s.walks, ctxPages := s.ctxPages } = s := by
  obtain ⟨_, _, _, _, rfl⟩ := h
  exact ⟨rfl, rfl⟩

/-- A fetch leaves pc alone. -/
theorem FetchOnly.pc {s t : State} (h : FetchOnly s t) : t.hart.pc = s.hart.pc := by
  obtain ⟨_, _, _, _, rfl⟩ := h
  rfl

/-- A fetch leaves the x registers alone. -/
theorem FetchOnly.x {s t : State} (h : FetchOnly s t) : t.hart.x = s.hart.x := by
  obtain ⟨_, _, _, _, rfl⟩ := h
  rfl

/-- Reading a block into the fetch buffer. -/
theorem fetchOnly_loadBlock {s t : State} {a : Word} {r : Except Nat Unit} (h : s.loadBlock a = (t, r)) : FetchOnly s t := by
  unfold State.loadBlock at h
  split at h
  next checked => exact (Prod.mk.inj h).1 ▸ (cachesOnly_checkFetch checked).fetchOnly
  next u p checked =>
    extract_lets bad at h
    have read := cachesOnly_fetchBlock u p
    split at h
    next v bs fetched =>
    rw [fetched] at read
    extract_lets b at h
    rw [← (Prod.mk.inj h).1]
    exact ((cachesOnly_checkFetch checked).trans read).fetchOnly.trans ⟨_, .refl _⟩

/-- Reading blocks into the fetch buffer. -/
theorem fetchOnly_loadBlocks {s t : State} {l : List Nat} {r : Option (Nat × Word)} (h : s.loadBlocks l = (t, r)) : FetchOnly s t := by
  induction l generalizing s with
  | nil => exact (Prod.mk.inj h).1 ▸ .refl s
  | cons b rest ih =>
    unfold State.loadBlocks at h
    split at h
    · exact ih h
    · extract_lets own at h
      split at h
      next loaded => exact (fetchOnly_loadBlock loaded).trans (ih h)
      next loaded =>
        have moved := fetchOnly_loadBlock loaded
        split at h
        · exact (Prod.mk.inj h).1 ▸ moved
        · split at h
          · exact (Prod.mk.inj h).1 ▸ moved
          · exact moved.trans (ih h)

end Sys2Proof.Machine
end

section
/-! SUPPORT and settles O37. Repetition (R41, R42): the scan of a body, REPSTATE's fields, and the steps they give. -/

namespace Sys2Proof.Machine
open Sys2Proof.Safety

/-! ### The scan of a body -/

/-- Reading a body word changes the fetch buffer and caches alone. -/
theorem fetchOnly_bodyWord {s t : State} {a : Word} {r : Except (Nat × Word) (BitVec 32)} (h : s.bodyWord a = (t, r)) : FetchOnly s t := by
  unfold State.bodyWord at h
  split at h
  next read => exact (Prod.mk.inj h).1 ▸ fetchOnly_loadBlocks read
  next read =>
    have moved := fetchOnly_loadBlocks read
    split at h
    · exact (Prod.mk.inj h).1 ▸ moved
    · split at h
      next loaded => exact (Prod.mk.inj h).1 ▸ moved.trans (fetchOnly_loadBlock loaded)
      next loaded => exact (Prod.mk.inj h).1 ▸ moved.trans (fetchOnly_loadBlock loaded)

/-- The scan changes the fetch buffer and caches alone. -/
theorem fetchOnly_scanBody {s t : State} {a : Word} {n : Nat} {r : Option (Nat × Word)} (h : s.scanBody a n = (t, r)) : FetchOnly s t := by
  induction n generalizing s a with
  | zero => exact (Prod.mk.inj h).1 ▸ .refl s
  | succ n ih =>
    unfold State.scanBody at h
    split at h
    next read => exact (Prod.mk.inj h).1 ▸ fetchOnly_bodyWord read
    next read =>
      have moved := fetchOnly_bodyWord read
      split at h
      · exact moved.trans (ih h)
      · exact (Prod.mk.inj h).1 ▸ moved

/-- A word of a buffered block is read without a fetch (R44). -/
theorem State.bodyWord_buffered {s : State} {a : Word} {b : FetchBlock} (h : s.hart.block (a.toNat / 64 * 64) = some b) :
    s.bodyWord a = (s, b.word a) := by
  have loaded : s.loadBlocks [a.toNat / 64 * 64] = (s, none) := by
    rw [State.loadBlocks, h]
    rfl
  simp only [State.bodyWord, loaded, h]

/-- The words a body may have, by their opcode (R42). -/
theorem repOpcode_iff (w : BitVec 32) :
    repOpcode w = true ↔ (w.extractLsb' 0 7).toNat ∈ [0x07, 0x27, 0x43, 0x47, 0x4B, 0x4F, 0x57, 0x77] := by
  rw [repOpcode, List.contains_iff_mem]

/-- The scan of buffered words up to the first one that may not be repeated. -/
theorem State.scanBody_buffered {s : State} {word : Nat → BitVec 32} (k : Nat) {n : Nat} (hn : k < n) {start : Word}
    (read : ∀ j, j ≤ k → let a := start + BitVec.ofNat 64 (4 * j)
      a = pcOf a ∧ ∃ b, s.hart.block (a.toNat / 64 * 64) = some b ∧ b.word a = .ok (word j))
    (good : ∀ j, j < k → repOpcode (word j) = true) (bad : repOpcode (word k) = false) :
    s.scanBody start n = (s, some (37, start + BitVec.ofNat 64 (4 * k))) := by
  induction k generalizing n start word with
  | zero =>
    obtain ⟨n, rfl⟩ : ∃ m, n = m + 1 := ⟨n - 1, by omega⟩
    obtain ⟨-, b, held, ok⟩ := read 0 (Nat.le_refl 0)
    rw [Nat.mul_zero, BitVec.add_zero] at held ok ⊢
    simp only [State.scanBody, State.bodyWord_buffered held, ok, bad]
    rfl
  | succ k ih =>
    obtain ⟨n, rfl⟩ : ∃ m, n = m + 1 := ⟨n - 1, by omega⟩
    have next (j : Nat) : start + 4 + BitVec.ofNat 64 (4 * j) = start + BitVec.ofNat 64 (4 * (j + 1)) := by
      rw [BitVec.add_assoc, show (4 : Word) = BitVec.ofNat 64 4 from rfl, ← BitVec.ofNat_add, Nat.mul_succ, Nat.add_comm 4]
    obtain ⟨-, b, held, ok⟩ := read 0 (Nat.zero_le _)
    rw [Nat.mul_zero, BitVec.add_zero] at held ok
    have aligned : pcOf (start + 4) = start + 4 := by
      obtain ⟨h, -⟩ := read 1 (by omega)
      exact h.symm
    simp only [State.scanBody, State.bodyWord_buffered held, ok, good 0 (by omega), if_true, aligned]
    rw [← next]
    exact ih (word := fun j => word (j + 1)) (by omega) (fun j hj => next j ▸ read (j + 1) (by omega))
      (fun j hj => good (j + 1) (by omega)) bad

/-! ### REPSTATE's fields (R42) -/

/-- A field of a word, as a number. -/
theorem bitsNat_eq {k : Nat} (w : BitVec k) (lo n : Nat) : bitsNat w lo n = w.toNat / 2 ^ lo % 2 ^ n := by
  rw [bitsNat, BitVec.extractLsb'_toNat, Nat.shiftRight_eq_div_pow]

section
variable {pass count index len stride base : Nat} (hp : pass < 2 ^ 20) (hc : count < 2 ^ 20) (hi : index < 16) (hl : len < 16)
  (hs : stride < 32) (hb : base < 32)
include hp hc hi hl hs hb

/-- REPSTATE with ACTIVE set, as a number. -/
theorem repPack_toNat : (repPack true pass count index len stride base).toNat
    = pass + count * 2 ^ 20 + index * 2 ^ 40 + len * 2 ^ 44 + stride * 2 ^ 48 + base * 2 ^ 53 + 2 ^ 63 := by
  rw [repPack, BitVec.toNat_ofNat, if_pos rfl]
  omega

/-- REPSTATE's fields read back. -/
theorem repPack_fields : let r := repPack true pass count index len stride base
    bitsNat r 0 20 = pass ∧ bitsNat r 20 20 = count ∧ bitsNat r 40 4 = index ∧ bitsNat r 44 4 = len ∧ bitsNat r 48 5 = stride
      ∧ bitsNat r 53 5 = base ∧ bitsNat r 44 14 = len + stride * 2 ^ 4 + base * 2 ^ 9 ∧ r.getLsbD 63 = true := by
  intro r
  have h : r.toNat = _ := repPack_toNat hp hc hi hl hs hb
  rw [← BitVec.testBit_toNat, Nat.testBit_eq_decide_div_mod_eq, decide_eq_true_iff]
  refine ⟨?_, ?_, ?_, ?_, ?_, ?_, ?_, by omega⟩ <;> rw [bitsNat_eq] <;> omega

end

/-- What stands in REPSTATE while the body repeats: COUNT, LEN, STRIDE, BASE and ACTIVE (R42). -/
def SameRepetition (rep r : Word) : Prop :=
  r.extractLsb' 20 20 = rep.extractLsb' 20 20 ∧ r.extractLsb' 44 14 = rep.extractLsb' 44 14 ∧ r.getLsbD 63 = true

/-- REPSTATE with a new PASS and INDEX, as `nextPc` writes it. -/
theorem repPack_step (rep : Word) {pass index : Nat} (hp : pass < 2 ^ 20) (hi : index < 16) :
    let r := repPack true pass (bitsNat rep 20 20) index (bitsNat rep 44 4) (bitsNat rep 48 5) (bitsNat rep 53 5)
    SameRepetition rep r ∧ bitsNat r 0 20 = pass ∧ bitsNat r 40 4 = index := by
  obtain ⟨h0, h20, h40, -, -, -, h44, active⟩ := repPack_fields hp (rep.extractLsb' 20 20).isLt hi (rep.extractLsb' 44 4).isLt
    (rep.extractLsb' 48 5).isLt (rep.extractLsb' 53 5).isLt
  refine ⟨⟨BitVec.eq_of_toNat_eq h20, BitVec.eq_of_toNat_eq (h44.trans ?_), active⟩, h0, h40⟩
  simp only [bitsNat_eq]
  omega

/-- With ACTIVE clear, the next word follows (R42). -/
theorem nextPc_inactive {rep : Word} (h : repActive rep = false) (pc : Word) : nextPc pc rep = (pcOf (pc + 4), rep) := by
  rw [nextPc, h]
  rfl

/-- Within a pass, the next word of the body follows. -/
theorem nextPc_within {rep : Word} (h : repActive rep = true) (hi : bitsNat rep 40 4 < bitsNat rep 44 4) (pc : Word) :
    nextPc pc rep = (pcOf (pc + 4), repPack true (bitsNat rep 0 20) (bitsNat rep 20 20) (bitsNat rep 40 4 + 1) (bitsNat rep 44 4)
      (bitsNat rep 48 5) (bitsNat rep 53 5)) := by
  rw [nextPc, h]
  exact if_pos hi

/-- At the end of a pass that is not the last, the next pass begins. -/
theorem nextPc_again {rep : Word} (h : repActive rep = true) (hi : bitsNat rep 44 4 ≤ bitsNat rep 40 4)
    (hp : bitsNat rep 0 20 + 1 < bitsNat rep 20 20) (pc : Word) :
    nextPc pc rep = (pcOf (pc - BitVec.ofNat 64 (4 * bitsNat rep 44 4)), repPack true (bitsNat rep 0 20 + 1) (bitsNat rep 20 20) 0
      (bitsNat rep 44 4) (bitsNat rep 48 5) (bitsNat rep 53 5)) := by
  rw [nextPc, h]
  exact (if_neg (Nat.not_lt.2 hi)).trans (if_pos hp)

/-- After the last pass, REPSTATE is clear and the word after the body follows. -/
theorem nextPc_last {rep : Word} (h : repActive rep = true) (hi : bitsNat rep 44 4 ≤ bitsNat rep 40 4)
    (hp : bitsNat rep 20 20 ≤ bitsNat rep 0 20 + 1) (pc : Word) : nextPc pc rep = (pcOf (pc + 4), 0) := by
  rw [nextPc, h]
  exact (if_neg (Nat.not_lt.2 hi)).trans (if_neg (Nat.not_lt.2 hp))

/-- A register field below BASE is not rotated. -/
theorem rotate_below (rep : Word) {f : VReg} (h : f.toNat < bitsNat rep 53 5) : rotate rep f = f := by
  unfold rotate
  split
  · exact if_neg (Nat.not_le.2 h)
  · rfl

/-- A register field at or above BASE is rotated by PASS × STRIDE among those. -/
theorem rotate_above {rep : Word} (ha : repActive rep = true) {f : VReg} (h : bitsNat rep 53 5 ≤ f.toNat) : (rotate rep f).toNat
    = bitsNat rep 53 5 + (f.toNat - bitsNat rep 53 5 + bitsNat rep 0 20 * bitsNat rep 48 5) % (32 - bitsNat rep 53 5) := by
  have hb : bitsNat rep 53 5 < 32 := (rep.extractLsb' 53 5).isLt
  have moved : ∀ m, m % (32 - bitsNat rep 53 5) < 32 - bitsNat rep 53 5 := fun m => Nat.mod_lt _ (by omega)
  rw [rotate, if_pos ha]
  dsimp only
  rw [if_pos h, BitVec.toNat_ofNat, Nat.mod_eq_of_lt]
  have := moved (f.toNat - bitsNat rep 53 5 + bitsNat rep 0 20 * bitsNat rep 48 5)
  omega

/-- With ACTIVE clear, no field is rotated. -/
theorem rotate_inactive {rep : Word} (ha : repActive rep = false) (f : VReg) : rotate rep f = f := by
  rw [rotate, ha]
  rfl

/-- The REPSTATE that `rep` sets up (R42). -/
theorem repPack_start {n : Word} (hn : n.toNat ≤ 0xFFFFF) (len1 : BitVec 4) (stride base : BitVec 5) :
    let r := repPack true 0 n.toNat 0 len1.toNat stride.toNat base.toNat
    r.extractLsb' 0 20 = 0 ∧ r.extractLsb' 20 20 = n.setWidth 20 ∧ r.extractLsb' 40 4 = 0 ∧ r.extractLsb' 44 4 = len1
      ∧ r.extractLsb' 48 5 = stride ∧ r.extractLsb' 53 5 = base ∧ r.getLsbD 63 = true := by
  have small : n.toNat < 2 ^ 20 := by omega
  obtain ⟨h0, h20, h40, h44, h48, h53, -, active⟩ :=
    repPack_fields (pass := 0) (index := 0) (by omega) small (by omega) len1.isLt stride.isLt base.isLt
  refine ⟨BitVec.eq_of_toNat_eq h0, BitVec.eq_of_toNat_eq (h20.trans ?_), BitVec.eq_of_toNat_eq h40, BitVec.eq_of_toNat_eq h44,
    BitVec.eq_of_toNat_eq h48, BitVec.eq_of_toNat_eq h53, active⟩
  rw [BitVec.toNat_setWidth, Nat.mod_eq_of_lt small]

/-! ### `rep` (R42) -/

section
variable {s u : State} {len1 : BitVec 4} {rs1 : Reg} (stride base : BitVec 5)

/-- A count above 0xF_FFFF traps. -/
theorem execRep_tooMany (hn : 0xFFFFF < (s.x rs1).toNat) : execRep len1 rs1 stride base s = s.trapOut 37 s.hart.pc := if_pos hn

/-- A cause of the body's words traps. -/
theorem execRep_refused (hn : (s.x rs1).toNat ≤ 0xFFFFF) {c : Nat} {v : Word}
    (scan : s.scanBody (pcOf (s.hart.pc + 4)) (len1.toNat + 1) = (u, some (c, v))) :
    execRep len1 rs1 stride base s = u.trapOut c v := by
  unfold execRep
  extract_lets n len
  rw [if_neg (Nat.not_lt.2 hn), scan]

/-- A scan leaves pc alone. -/
theorem scanBody_pc {a : Word} {n : Nat} {r : Option (Nat × Word)} (scan : s.scanBody a n = (u, r)) : u.hart.pc = s.hart.pc :=
  (fetchOnly_scanBody scan).pc

/-- A count of 0 skips the body. -/
theorem execRep_skips (hn : s.x rs1 = 0) (scan : s.scanBody (pcOf (s.hart.pc + 4)) (len1.toNat + 1) = (u, none)) :
    execRep len1 rs1 stride base s = .next (u.jumpTo (pcOf (s.hart.pc + 4 + BitVec.ofNat 64 (4 * (len1.toNat + 1))))) := by
  unfold execRep
  extract_lets n len
  have few : ¬ 0xFFFFF < n.toNat := by simp [n, hn]
  rw [if_neg few, scan, ← scanBody_pc scan]
  exact if_pos hn

/-- Any other count sets REPSTATE up, and the body follows. -/
theorem execRep_begins (hn : (s.x rs1).toNat ≤ 0xFFFFF) (h0 : s.x rs1 ≠ 0)
    (scan : s.scanBody (pcOf (s.hart.pc + 4)) (len1.toNat + 1) = (u, none)) :
    execRep len1 rs1 stride base s = .next ((u.withCsr (fun c => { c with
      repstate := repPack true 0 (s.x rs1).toNat 0 len1.toNat stride.toNat base.toNat })).jumpTo (pcOf (s.hart.pc + 4))) := by
  unfold execRep
  extract_lets n len
  rw [if_neg (Nat.not_lt.2 hn), scan, ← scanBody_pc scan]
  exact if_neg h0

end

/-- The shell of a hart says nothing of its CSRs. -/
theorem SameShell.of_csr {h k : Hart} {c : Csrs} (same : SameShell { h with csr := c } k) : SameShell h k := by
  have := congrArg (fun z : Hart => { z with csr := h.csr }) same
  exact this

/-- REPSTATE set up and the body entered, after a scan: the rest of the hart and of the device stays. -/
theorem FetchOnly.begins {s u : State} (h : FetchOnly s u) (rep pc : Word) :
    let t := (u.withCsr (fun c => { c with repstate := rep })).jumpTo pc
    t.hart.pc = pc ∧ t.hart.x = s.hart.x ∧ t.hart.csr.instret = s.hart.csr.instret + 1 ∧ SameVectors s.hart t.hart
      ∧ SameShell u.hart t.hart ∧ SameDevice u t ∧ t.hart.csr.repstate = rep := by
  obtain ⟨f, c, w, p, rfl⟩ := h
  intro t
  obtain ⟨moved, vectors, -, shell, x⟩ := Hart.jump_settle
    ({ s.hart with fetch := f, csr := { s.hart.csr with repstate := rep } } : Hart) pc
  exact ⟨moved.pc, x, moved.instret, vectors, SameShell.of_csr shell, rfl, moved.repstate⟩

end Sys2Proof.Machine

namespace Sys2Proof.Proofs
open Sys2Proof Sys2Proof.Machine Sys2Proof.Safety

/-- Settles O37: `rep` by what its scan finds, and the steps of a repetition by REPSTATE's fields. -/
theorem repetition : Obligations.Repetition := by
  refine ⟨?_, ?_⟩
  · intro s len1 rs1 stride base n i
    refine ⟨execRep_tooMany stride base, fun hn u scan => ⟨fun h0 => ?_, fun h0 => ?_⟩,
      fun hn u c v scan => execRep_refused stride base hn scan, fun hn k word hk read good bad => ?_⟩
    · obtain ⟨moved, -, -, -, x⟩ := Hart.jump_settle u.hart (pcOf (s.hart.pc + 4 + BitVec.ofNat 64 (4 * (len1.toNat + 1))))
      have same : u.hart.x = s.hart.x := (fetchOnly_scanBody scan).x
      exact ⟨_, execRep_skips stride base h0 scan, moved, x.trans same⟩
    · obtain ⟨pc, x, instret, vectors, shell, device, rep⟩ := (fetchOnly_scanBody scan).begins
        (repPack true 0 n.toNat 0 len1.toNat stride.toNat base.toNat) (pcOf (s.hart.pc + 4))
      refine ⟨_, execRep_begins stride base hn h0 scan, pc, x, instret, vectors, shell, device, ?_⟩
      rw [rep]
      exact repPack_start hn len1 stride base
    · have scan := State.scanBody_buffered k (n := len1.toNat + 1) (by omega) read (fun j hj => (repOpcode_iff _).2 (good j hj))
        (Bool.eq_false_iff.2 fun h => bad ((repOpcode_iff _).1 h))
      exact execRep_refused stride base hn scan
  · intro pc rep f pass count index len stride base same
    have within := repPack_step rep (pass := pass) (index := index + 1) (rep.extractLsb' 0 20).isLt
    have again := repPack_step rep (pass := pass + 1) (index := 0)
    refine ⟨fun ha => ⟨nextPc_inactive ha pc, rotate_inactive ha f⟩, fun ha => ⟨fun hi => ?_, fun hi hp => ?_,
      fun hi hp => nextPc_last ha hi hp pc, rotate_below rep, rotate_above ha⟩⟩
    · have hl : len < 16 := (rep.extractLsb' 44 4).isLt
      obtain ⟨h, h0, h40⟩ := within (by omega)
      rw [nextPc_within ha hi]
      exact ⟨rfl, h, h0, h40⟩
    · have hc : count < 2 ^ 20 := (rep.extractLsb' 20 20).isLt
      obtain ⟨h, h0, h40⟩ := again (by omega) (by omega)
      rw [nextPc_again ha hi hp]
      exact ⟨rfl, h, h0, BitVec.eq_of_toNat_eq h40⟩

end Sys2Proof.Proofs
end

section
/-! SUPPORT. The word a fetch reads (R44, R245): what it leaves alone, the word of a buffered block, and the word of memory in M-mode. -/

namespace Sys2Proof.Machine
open Sys2Proof.Safety

/-! ### What the fetch of a word leaves alone -/

/-- The hart with its fetch buffer cut down to the blocks that stay, and the fetch noted (R44). -/
def State.keptFetch (s : State) : State := { s with hart := { s.hart with
  fetch := s.hart.fetch.filter (fun b => b.phys == s.hart.physical b.va && (fetchPlan s.hart).1 b.va)
  lastFetch := some (s.hart.pc, repActive s.hart.csr.repstate) } }

/-- `State.fetch` by what loading the planned blocks gives. -/
theorem State.fetch_eq (s : State) : s.fetch = match s.keptFetch.loadBlocks (fetchPlan s.hart).2 with
    | (t, some e) => (t, .error e)
    | (t, none) => match t.hart.block (s.hart.pc.toNat / 64 * 64) with
      | some b => (t, b.word s.hart.pc)
      | none => (t, .error (1, s.hart.pc)) := by
  rfl

/-- The state a fetch leaves is the one that loading the blocks leaves. -/
theorem State.fetch_state (s : State) : FetchOnly s.keptFetch s.fetch.1 := by
  rw [State.fetch_eq]
  split
  next loaded => exact fetchOnly_loadBlocks loaded
  next loaded =>
    have moved := fetchOnly_loadBlocks loaded
    split <;> exact moved

/-- A fetch changes the buffer and `lastFetch` of the hart in focus, and caches. -/
theorem State.fetch_keeps (s : State) : { s.fetch.1.hart with fetch := s.hart.fetch, lastFetch := s.hart.lastFetch } = s.hart
    ∧ { s.fetch.1 with hart := s.hart, cores := s.cores, walks := s.walks, ctxPages := s.ctxPages } = s := by
  obtain ⟨f, c, w, p, h⟩ := State.fetch_state s
  rw [h]
  exact ⟨rfl, rfl⟩

/-! ### Blocks of the window (R245) -/

/-- The window's page at an address is there to fetch from, where the address is the window's. -/
def WindowHeld (s : State) (a : Nat) : Prop := inWindow a = true → s.hart.physical a = false →
  (a - windowBase) / extentBytes < 31 ∧ ∃ p k, s.ownParty = some p ∧ p.windowKey (a - windowBase) = some k

/-- The rights of a leaf are refused with cause 30 or 31. -/
theorem leafRights_error {s : State} {pa kind c : Nat} {write : Bool} (h : leafRights s pa kind write = .error c) : c = 30 ∨ c = 31 := by
  unfold leafRights frameRights at h
  extract_lets e at h
  repeat' split at h
  all_goals simp_all

/-- A translation that a leaf's frame fails gives cause 30 or 31. -/
theorem translate_error {s t : State} {tlb : Tlb} {root va c : Nat} {ctx : BitVec 16} {write : Bool} {ok : Word → Bool} {e : TlbEntry}
    (h : translate s tlb root ctx va write ok = (t, .error (.inr (c, e)))) : c = 30 ∨ c = 31 := by
  unfold translate at h
  extract_lets l at h
  split at h
  · split at h
    · cases h
    · split at h
      next refused =>
        have cause := (Prod.mk.inj h).2
        simp only [Except.error.injEq, Sum.inr.injEq, Prod.mk.injEq] at cause
        exact cause.1 ▸ leafRights_error refused
      · cases h
  · split at h
    · cases h
    · extract_lets bits e pa at h
      split at h
      next refused =>
        have cause := (Prod.mk.inj h).2
        simp only [Except.error.injEq, Sum.inr.injEq, Prod.mk.injEq] at cause
        exact cause.1 ▸ leafRights_error refused
      · cases h

/-- A walk's failure is never SPAD_UNHELD. -/
theorem walkCause_ne (f : WalkFail) : walkCause 12 f ≠ 27 := by
  cases f <;> decide

/-- A fetch meets SPAD_UNHELD only in the window. -/
theorem checkFetch_error {s t : State} {a : Word} {c : Nat} (h : checkFetch s a = (t, .error c))
    (aligned : a.toNat % 64 = 0) (held : WindowHeld s a.toNat) : c ≠ 27 := by
  unfold checkFetch at h
  extract_lets w blk at_ at h
  have hblk : blk = w := by
    show w / 64 * 64 = w
    omega
  rw [hblk] at h
  split at h
  · split at h
    · cases h
      decide
    · cases h
  next virtual =>
    split at h
    · cases h
      decide
    · split at h
      next window =>
        have mapped : s.hart.physical w = false := by
          simpa [Hart.physical] using virtual
        obtain ⟨hx, p, k, own, key⟩ := held window mapped
        rw [own] at h
        dsimp only at h
        rw [if_neg (Nat.ne_of_lt hx), key] at h
        cases h
      · split at h
        · cases h
          exact walkCause_ne _
        next walked =>
          have := translate_error walked
          split at h
          · cases h
            decide
          · split at h
            · cases h
              decide
            · cases h
              omega
        next walked =>
          extract_lets pa at h
          split at h
          · cases h
            decide
          · split at h
            next v m found =>
            repeat' split at h
            all_goals cases h
            all_goals decide

/-- A fetch leaves what makes addresses physical, and the party, alone. -/
theorem FetchOnly.windowHeld {s t : State} (h : FetchOnly s t) {a : Nat} (held : WindowHeld s a) : WindowHeld t a := by
  obtain ⟨_, _, _, _, rfl⟩ := h
  exact held

/-- A fetch leaves alone which addresses are physical. -/
theorem FetchOnly.physical {s t : State} (h : FetchOnly s t) (a : Nat) : t.hart.physical a = s.hart.physical a := by
  obtain ⟨_, _, _, _, rfl⟩ := h
  rfl

/-- A block's address, which a plan may put just beyond the address space. -/
def BlockAddress (a : Nat) : Prop := a % 64 = 0 ∧ a < 2 ^ 64 + 128

/-- An address of a block beyond the address space wraps to one outside the window. -/
theorem windowHeld_wrap {s : State} {a : Nat} (held : WindowHeld s a) (block : BlockAddress a) :
    WindowHeld s (BitVec.ofNat 64 a).toNat := by
  obtain ⟨-, small⟩ := block
  rw [BitVec.toNat_ofNat]
  by_cases h : a < 2 ^ 64
  · rwa [Nat.mod_eq_of_lt h]
  · intro window
    have low : windowBase ≤ a % 2 ^ 64 := of_decide_eq_true (Bool.and_eq_true_iff.1 window).1
    unfold windowBase at low
    omega

/-- A block of a plan enters, or is refused with another cause than SPAD_UNHELD. -/
theorem loadBlock_error {s t : State} {a c : Nat} (h : s.loadBlock (BitVec.ofNat 64 a) = (t, .error c)) (block : BlockAddress a)
    (held : WindowHeld s a) : c ≠ 27 := by
  unfold State.loadBlock at h
  split at h
  next checked =>
    cases h
    refine checkFetch_error checked ?_ (windowHeld_wrap held block)
    obtain ⟨aligned, -⟩ := block
    rw [BitVec.toNat_ofNat]
    omega
  · cases h

/-! ### Blocks in the buffer -/

/-- What is read into the buffer comes after what it holds. -/
theorem loadBlock_fetch {s t : State} {a : Word} {r : Except Nat Unit} (h : s.loadBlock a = (t, r)) :
    ∃ l, t.hart.fetch = s.hart.fetch ++ l := by
  unfold State.loadBlock at h
  split at h
  next checked =>
    obtain ⟨_, _, _, same⟩ := cachesOnly_checkFetch checked
    cases h
    exact ⟨[], by rw [same, List.append_nil]⟩
  next u p checked =>
    obtain ⟨_, _, _, same⟩ := cachesOnly_checkFetch checked
    extract_lets bad at h
    obtain ⟨_, _, _, read⟩ := cachesOnly_fetchBlock u p
    split at h
    next fetched =>
    rw [fetched] at read
    cases h
    dsimp only at read ⊢
    rw [read, same]
    exact ⟨_, rfl⟩

/-- A buffered block stays while others are read. -/
theorem loadBlock_block {s t : State} {a : Word} {r : Except Nat Unit} (h : s.loadBlock a = (t, r)) {va : Nat} {b : FetchBlock}
    (hb : s.hart.block va = some b) : t.hart.block va = some b := by
  obtain ⟨l, appended⟩ := loadBlock_fetch h
  obtain ⟨f, c, w, p, rfl⟩ := fetchOnly_loadBlock h
  dsimp only at appended
  subst appended
  unfold Hart.block at hb ⊢
  exact List.find?_append.trans (by
    show (List.find? (fun b => b.phys == s.hart.physical va && b.va == va) s.hart.fetch).or _ = _
    rw [hb, Option.some_or])

/-- A plan that holds the block of pc, in a state that has it, enters without a cause. -/
theorem loadBlocks_buffered {l : List Nat} {s : State} {b : FetchBlock} (hb : s.hart.block (s.hart.pc.toNat / 64 * 64) = some b)
    (hl : ∀ a ∈ l, BlockAddress a ∧ WindowHeld s a) :
    ∃ t, s.loadBlocks l = (t, none) ∧ t.hart.block (s.hart.pc.toNat / 64 * 64) = some b := by
  induction l generalizing s with
  | nil => exact ⟨s, rfl, hb⟩
  | cons a rest ih =>
    obtain ⟨⟨block, held⟩, hrest⟩ := List.forall_mem_cons.1 hl
    unfold State.loadBlocks
    split
    · exact ih hb hrest
    next out =>
      have other : decide (a = s.hart.pc.toNat / 64 * 64) = false := by
        rw [decide_eq_false_iff_not]
        rintro rfl
        rw [hb] at out
        exact out rfl
      rw [other]
      rcases loaded : s.loadBlock (BitVec.ofNat 64 a) with ⟨t, r⟩
      have only := fetchOnly_loadBlock loaded
      have hb' := loadBlock_block loaded hb
      rw [← only.pc] at hb' ⊢
      have next := ih hb' (fun a ha => (hrest a ha).imp_right only.windowHeld)
      cases r with
      | ok => simpa [loaded] using next
      | error c =>
        have := loadBlock_error loaded block held
        simpa [loaded, this] using next

/-! ### The word of a buffered block (R44) -/

/-- The plan keeps the block of pc. -/
theorem fetchPlan_keeps {h : Hart} {b : FetchBlock} (hb : h.block (h.pc.toNat / 64 * 64) = some b) :
    (fetchPlan h).1 (h.pc.toNat / 64 * 64) = true := by
  unfold fetchPlan
  extract_lets blk body
  have held : (h.block blk).isNone = false := congrArg Option.isNone hb
  rw [held, if_neg Bool.false_ne_true]
  split
  · split
    · exact beq_self_eq_true blk
    · rfl
  · rfl

/-- The blocks of a body are blocks. -/
theorem repBlocks_blocks (h : Hart) : ∀ a ∈ repBlocks h, BlockAddress a := by
  have pc := h.pc.isLt
  unfold repBlocks
  extract_lets r start last
  have len : bitsNat r 44 4 < 16 := (r.extractLsb' 44 4).isLt
  have hstart : start < 2 ^ 64 := Nat.lt_of_le_of_lt (Nat.sub_le _ _) pc
  have hlast : last < 2 ^ 64 + 64 := Nat.add_lt_add_of_lt_of_le hstart (by omega)
  clear_value start last
  simp only [BlockAddress]
  split
  · split <;> simp only [List.forall_mem_cons, List.not_mem_nil, false_imp_iff, implies_true, and_true] <;> omega
  · simp

/-- The blocks of a plan are blocks. -/
theorem fetchPlan_blocks (h : Hart) : ∀ a ∈ (fetchPlan h).2, BlockAddress a := by
  have pc := h.pc.isLt
  have body := repBlocks_blocks h
  have here : ∀ a ∈ [h.pc.toNat / 64 * 64, h.pc.toNat / 64 * 64 + 64], BlockAddress a := by
    simp only [BlockAddress, List.forall_mem_cons, List.not_mem_nil, false_imp_iff, implies_true, and_true]
    omega
  have either : ∀ a ∈ (match repBlocks h with
      | [b, c] => [b, c]
      | _ => [h.pc.toNat / 64 * 64, h.pc.toNat / 64 * 64 + 64]), BlockAddress a := by
    split
    next eq => exact eq ▸ body
    · exact here
  unfold fetchPlan
  extract_lets blk _
  split
  · exact either
  · split
    · split
      · exact here
      · exact fun a ha => absurd ha List.not_mem_nil
    · exact either

/-- The kept buffer has the block of pc. -/
theorem keptFetch_block {s : State} {b : FetchBlock} (hb : s.hart.block (s.hart.pc.toNat / 64 * 64) = some b) :
    s.keptFetch.hart.block (s.hart.pc.toNat / 64 * 64) = some b := by
  unfold Hart.block at hb ⊢
  show List.find? (fun b => b.phys == s.hart.physical _ && b.va == _) (List.filter _ s.hart.fetch) = _
  rw [List.find?_filter, ← hb]
  congr 1
  funext c
  have keeps := fetchPlan_keeps hb
  by_cases here : c.va = s.hart.pc.toNat / 64 * 64
  · simp [here, keeps, Bool.beq_eq_decide_eq]
  · simp [here]

/-- With the block of pc in the buffer, its word is the word fetched, where the window's blocks of the plan are there. -/
theorem State.fetch_buffered {s : State} {b : FetchBlock} (hb : s.hart.block (s.hart.pc.toNat / 64 * 64) = some b)
    (held : ∀ a ∈ (fetchPlan s.hart).2, WindowHeld s a) : s.fetch.2 = b.word s.hart.pc := by
  obtain ⟨t, loaded, kept⟩ := loadBlocks_buffered (l := (fetchPlan s.hart).2) (keptFetch_block hb)
    (fun a ha => ⟨fetchPlan_blocks s.hart a ha, held a ha⟩)
  have kept : t.hart.block (s.hart.pc.toNat / 64 * 64) = some b := kept
  rw [State.fetch_eq, loaded]
  dsimp only
  rw [kept]

/-- Bytes taken within a list. -/
theorem takeBytes_eq_take (bs : List Byte) (off n : Nat) (h : off + n ≤ bs.length) : takeBytes bs off n = (bs.drop off).take n := by
  induction n generalizing off with
  | zero => rw [takeBytes, List.take_zero]
  | succ n ih =>
    rw [takeBytes, ih (off + 1) (by omega), List.drop_eq_getElem_cons (by omega : off < bs.length), List.take_succ_cons]
    rfl

/-- The word of a block without uncorrectable data. -/
theorem FetchBlock.word_eq {b : FetchBlock} (good : b.bad = []) {a : Word} (h : a.toNat % 64 + 4 ≤ b.bytes.length) :
    b.word a = .ok (BitVec.ofNat 32 (natOfBytes ((b.bytes.drop (a.toNat % 64)).take 4))) := by
  rw [FetchBlock.word, good, takeBytes_eq_take _ _ _ h]
  rfl

/-! ### The word of memory in M-mode (R44, R67) -/

/-- Local HBM lies below the windows and MMIO (Table 15-1A). -/
theorem inLocalHbm_lt {s : State} {pa : Nat} (h : inLocalHbm s pa = true) : pa < 0x10000000000 := by
  have few : s.sites.length ≤ 16 := (List.length_filter_le _ _).trans (by simp [Config.sites])
  have := of_decide_eq_true h
  unfold State.hbmBytes at this
  omega

/-- An address below the windows is its own location. -/
theorem normPa_of_lt {pa : Nat} (h : pa < 0x10000000000) : normPa pa = pa := by
  unfold normPa inDomain
  rw [if_neg]
  simp
  omega

/-- The place of a block at a physical address. -/
def physicalPlace (blk : Nat) : Place where
  key := blk
  mmio := false
  window := false
  pte := 0
  meta_ := none
  va := blk

/-- A fetch of M-mode from local HBM passes every check (R67, R400). -/
theorem checkFetch_machine {s : State} (hm : s.hart.mode = .m) (hp : s.hart.party = none) (pmp : s.hart.csr.pmp = Pmp.reset) {a : Word}
    (local_ : inLocalHbm s a.toNat = true) : checkFetch s a
      = (s, .ok (physicalPlace (a.toNat / 64 * 64))) := by
  have low := inLocalHbm_lt local_
  have open_ : pmpOk s.hart.csr.pmp .m a.toNat 4 .exec = true := by
    rw [pmp]
    exact Bool.or_eq_true_iff.2 (.inl (by decide))
  have memory : inMmio a.toNat = false := by
    simp only [inMmio, Bool.and_eq_false_iff, decide_eq_false_iff_not]
    omega
  have plain : inDomain a.toNat = false ∧ inBlanket a.toNat = false := by
    simp only [inDomain, inBlanket, Bool.and_eq_false_iff, decide_eq_false_iff_not]
    omega
  have named : s.named a.toNat = true := by
    rw [State.named, normPa_of_lt low, local_]
    rfl
  have answers : s.answers a.toNat = true := by
    simp [State.answers, plain]
  unfold checkFetch
  extract_lets w blk at_
  rw [if_pos ⟨hm, by simp [hp]⟩, if_neg]
  · show (s, Except.ok { physicalPlace blk with key := normPa blk }) = _
    rw [normPa_of_lt (by omega)]
    rfl
  · rw [open_, named, memory, answers]
    simp
    omega

/-- With nothing between a hart and memory, the bytes read are those of memory. -/
theorem readOver_memory (s : State) (p : Place) (hp : p.meta_ = none) (n : Nat) :
    s.readOver [] p n = (List.range n).map (fun k => Memory.get s.mem (p.key + k)) := by
  have view (a : Nat) : viewBytes [] s.mem a n = (List.range n).map (fun k => Memory.get s.mem (a + k)) := by
    induction n generalizing a with
    | zero => rfl
    | succ n ih =>
      rw [viewBytes, ih, List.range_succ_eq_map, List.map_cons, List.map_map]
      congr 1
      exact List.map_congr_left fun k _ => by simp only [Function.comp_apply]; congr 1; omega
  rw [State.readOver, hp]
  exact view _

/-- An empty instruction cache takes a block's bytes from memory (R44). -/
theorem fetchBlock_bytes {s : State} (cold : (s.core s.ownCore).icache = []) (p : Place) :
    (s.fetchBlock p).2 = s.readOver (s.agentCells (agentOf s.hid)) p 64 := by
  unfold State.fetchBlock
  extract_lets c ctx key bs
  have none : c.icache.find? (fun l => l.1 == ctx && l.2.1 == key) = none := by
    show List.find? _ (s.core s.ownCore).icache = _
    rw [cold]
    rfl
  rw [none]
  split <;> rfl

/-- The block of memory at a physical address, all of it good. -/
def State.memoryBlock (s : State) (blk : Nat) : FetchBlock where
  phys := true
  va := blk
  bytes := (List.range 64).map (fun k => Memory.get s.mem (blk + k))
  bad := []

section
variable {s : State} (hm : s.hart.mode = .m) (hp : s.hart.party = none)
include hm hp

/-- M-mode outside the window is physical (R67). -/
theorem physical_machine (a : Nat) : s.hart.physical a = true := by
  rw [Hart.physical, hm, hp]
  rfl

variable (pmp : s.hart.csr.pmp = Pmp.reset) (cold : (s.core s.ownCore).icache = []) (lines : s.lines = []) (poison : s.poison = [])
include pmp cold lines poison

/-- The block of an address of local HBM, read in M-mode: memory's bytes, all good. -/
theorem loadBlock_machine {a : Word} (local_ : inLocalHbm s a.toNat = true) : ∃ t, s.loadBlock a = (t, .ok ())
    ∧ t.hart.fetch = s.hart.fetch ++ [s.memoryBlock (a.toNat / 64 * 64)] := by
  have low := inLocalHbm_lt local_
  have blanket : inBlanket (a.toNat / 64 * 64) = false := by
    simp only [inBlanket, Bool.and_eq_false_iff, decide_eq_false_iff_not]
    omega
  have linked : s.linkCut (a.toNat / 64 * 64) 64 = false := by
    rw [State.linkCut, blanket]
    rfl
  have good : badWords s.poison (a.toNat / 64 * 64) = [] := by
    rw [poison]
    rfl
  have cells : s.agentCells (agentOf s.hid) = [] := by
    rw [State.agentCells, lines]
    rfl
  have bytes := fetchBlock_bytes cold (physicalPlace (a.toNat / 64 * 64))
  obtain ⟨_, _, _, same⟩ := cachesOnly_fetchBlock s (physicalPlace (a.toNat / 64 * 64))
  rw [cells, readOver_memory _ _ rfl] at bytes
  refine ⟨_, by rw [State.loadBlock, checkFetch_machine hm hp pmp local_], ?_⟩
  dsimp only
  rw [same, bytes]
  simp only [physicalPlace, State.maskBad, linked, good, physical_machine hm hp]
  rfl

end

/-- The block of pc is read first. -/
theorem loadBlocks_own {s t : State} (out : s.hart.block (s.hart.pc.toNat / 64 * 64) = none) (h : s.loadBlock s.hart.pc = (t, .ok ()))
    (l : List Nat) : s.loadBlocks (s.hart.pc.toNat / 64 * 64 :: l) = t.loadBlocks l := by
  rw [State.loadBlocks, out]
  simp [h]

/-- The plan of an empty buffer outside a repetition: the block of pc and the next. -/
theorem fetchPlan_empty {h : Hart} (empty : h.fetch = []) (still : repActive h.csr.repstate = false) :
    fetchPlan h = (fun _ => false, [h.pc.toNat / 64 * 64, h.pc.toNat / 64 * 64 + 64]) := by
  have none : h.block (h.pc.toNat / 64 * 64) = none := by
    rw [Hart.block, empty]
    rfl
  have body : repBlocks h = [] := by
    rw [repBlocks, still]
    rfl
  rw [fetchPlan, none, body]
  rfl

/-- An empty buffer stays empty when it is cut down. -/
theorem keptFetch_empty {s : State} (empty : s.hart.fetch = []) : s.keptFetch.hart.fetch = [] := by
  show List.filter _ s.hart.fetch = []
  rw [empty]
  rfl

/-- The word of a block of memory at an aligned address is the word of memory. -/
theorem memoryBlock_word (s : State) {a : Word} (aligned : a.toNat % 4 = 0) :
    (s.memoryBlock (a.toNat / 64 * 64)).word a = .ok (wordAt s a.toNat) := by
  have bytes : takeBytes (s.memoryBlock (a.toNat / 64 * 64)).bytes (a.toNat % 64) 4
      = (List.range 4).map (fun k => Memory.get s.mem (a.toNat + k)) := by
    have length : (s.memoryBlock (a.toNat / 64 * 64)).bytes.length = 64 := by simp [State.memoryBlock]
    rw [takeBytes_eq_take _ _ _ (by omega)]
    refine List.ext_getElem (by simp [length]; omega) fun k hk _ => ?_
    simp only [State.memoryBlock, List.getElem_take, List.getElem_drop, List.getElem_map, List.getElem_range]
    congr 1
    omega
  rw [FetchBlock.word, bytes]
  rfl

/-- In M-mode, an empty buffer takes the word of memory at pc. -/
theorem State.fetch_machine {s : State} (hm : s.hart.mode = .m) (hp : s.hart.party = none) (pmp : s.hart.csr.pmp = Pmp.reset)
    (cold : (s.core s.ownCore).icache = []) (lines : s.lines = []) (poison : s.poison = []) (empty : s.hart.fetch = [])
    (local_ : inLocalHbm s s.hart.pc.toNat = true) (still : repActive s.hart.csr.repstate = false) (aligned : s.hart.pc.toNat % 4 = 0) :
    s.fetch.2 = .ok (wordAt s s.hart.pc.toNat) := by
  obtain ⟨t, loaded, filled⟩ := loadBlock_machine (s := s.keptFetch) hm hp pmp cold lines poison (a := s.hart.pc) local_
  rw [keptFetch_empty empty, List.nil_append] at filled
  have out : s.keptFetch.hart.block (s.hart.pc.toNat / 64 * 64) = none := by
    rw [Hart.block, keptFetch_empty empty]
    rfl
  have only := fetchOnly_loadBlock loaded
  have pc : t.hart.pc = s.hart.pc := only.pc
  have physical (a : Nat) : t.hart.physical a = true := (only.physical a).trans (physical_machine hm hp a)
  have held : t.hart.block (t.hart.pc.toNat / 64 * 64) = some (s.memoryBlock (s.hart.pc.toNat / 64 * 64)) := by
    rw [Hart.block, filled, pc, physical]
    exact List.find?_cons_of_pos (by simp [State.memoryBlock])
  have next : ∀ a ∈ [s.hart.pc.toNat / 64 * 64 + 64], BlockAddress a ∧ WindowHeld t a := by
    intro a ha
    rw [List.mem_singleton] at ha
    have := s.hart.pc.isLt
    exact ⟨⟨by omega, by omega⟩, fun _ virtual => absurd (physical a) (by simp [virtual])⟩
  obtain ⟨u, rest, kept⟩ := loadBlocks_buffered held next
  have all : s.keptFetch.loadBlocks [s.hart.pc.toNat / 64 * 64, s.hart.pc.toNat / 64 * 64 + 64] = (u, none) :=
    (loadBlocks_own out loaded _).trans rest
  rw [pc] at kept
  rw [State.fetch_eq, fetchPlan_empty empty still, all]
  dsimp only
  rw [kept]
  exact memoryBlock_word s aligned

end Sys2Proof.Machine
end

section
/-! SUPPORT and settles O57. One step (R44, R48, R156): an event, a boot step, an act of the device, or a hart's instruction. -/

namespace Sys2Proof.Machine
open Sys2Proof.Safety

/-! ### What issuing notes (R156, R290) -/

/-- Issuing changes the core's turn, the context's count, and the load that might have been late. -/
theorem State.issuing_eq (u : State) (i : Instr) : ∃ late, u.issuing i = { u with
    hart := { u.hart with late := late }
    cores := (u.setCore u.ownCore { u.core u.ownCore with turn := slotOf u.hid }).cores
    contexts := (u.charge (ctxOf u.hart.csr.ptroot) 2 1).contexts } := by
  unfold State.issuing
  extract_lets v w
  split
  · exact ⟨u.hart.late, rfl⟩
  · exact ⟨none, rfl⟩

/-- A charge counts for its context's counter and leaves the rest of each context alone. -/
theorem State.charge_getElem? (s : State) (id : BitVec 16) {i : Nat} (hi : i < 10) (k n : Nat) (c : Context) (h : s.contexts[n]? = some c) :
    ∃ d, (s.charge id i k).contexts[n]? = some d ∧ { d with gathered := c.gathered } = c
      ∧ ∀ (j : Nat) (h : j < 10), d.gathered[j] = c.gathered[j] + (if c.id = id ∧ j = i then k else 0) := by
  rw [State.charge, State.mapCtx, List.getElem?_map, h, Option.map_some]
  refine ⟨_, rfl, ?_⟩
  split
  next hid =>
    refine ⟨rfl, fun j hj => ?_⟩
    rw [Vector.getElem_setIfInBounds, Vector.getElem?_eq_getElem hi]
    by_cases h : j = i
    · subst h; simp [hid]
    · simp [h, Ne.symm h]
  next hid => exact ⟨rfl, fun j hj => by simp [hid]⟩

/-! ### The step (R44, R48) -/

/-- A core whose share has no pool acts without tokens (R283). -/
theorem State.spendTokens_free {s : State} {core : Nat} (h : (s.shareOf core).pool = 0) : s.spendTokens core = some s := if_pos h

/-- With no store, copy or line of its own to go, nothing drains (R159). -/
theorem State.maybeDrain_quiet {s : State} (pending : s.hart.pending = []) (copies : s.hartCopies s.hid = []) (lines : s.lines = []) :
    s.maybeDrain = s := by
  unfold State.maybeDrain
  rw [pending]
  dsimp only
  rw [copies]
  dsimp only
  rw [lines]

/-- With no late load, none is performed. -/
theorem State.maybeLate_quiet {s : State} (late : s.hart.late = none) : s.maybeLate = s := by
  rw [State.maybeLate, late]

/-- A hart that nothing comes before issues. -/
theorem step_issues {s : State} (h : Issues s) : step s = ticked (issue s) := by
  obtain ⟨events, ⟨running, done⟩, ⟨hart, due⟩, ⟨trap, free, interrupt, pending, copies, lines, late⟩, share⟩ := h
  have focus : s.focus s.hid = s := if_pos rfl
  have acts : runHart s = issue s := by
    rw [runHart, trap]
    dsimp only
    rw [if_neg (by rw [free]; decide), interrupt]
    dsimp only
    rw [State.spendTokens_free share]
    dsimp only
    rw [State.maybeDrain_quiet pending copies lines, State.maybeLate_quiet late, ← free]
  rw [step, events]
  dsimp only
  rw [running, if_neg Bool.false_ne_true, advanceBoot, done]
  dsimp only
  rw [run, hart, due]
  dsimp only
  rw [focus, acts]

/-- Issuing the word fetched. -/
theorem issue_of_word {s : State} {w : BitVec 32} {i : Instr} (read : s.fetch.2 = .ok w) (h : decodeWord w = .ok i) :
    issue s = exec i (s.fetch.1.issuing i) := by
  rcases fetched : s.fetch with ⟨u, r⟩
  rw [fetched] at read
  subst read
  simp only [issue, fetched, h]

/-- A word that decodes to nothing is the illegal instruction. -/
theorem issue_of_illegal {s : State} {w : BitVec 32} {e : DecodeError} (read : s.fetch.2 = .ok w) (h : decodeWord w = .error e) :
    issue s = exec (.illegalInstruction w) (s.fetch.1.issuing (.illegalInstruction w)) := by
  rcases fetched : s.fetch with ⟨u, r⟩
  rw [fetched] at read
  subst read
  simp only [issue, fetched, h]

/-- A fetch that finds a cause traps. -/
theorem issue_of_cause {s : State} {c : Nat} {v : Word} (late : s.hart.late = none) (read : s.fetch.2 = .error (c, v)) :
    issue s = s.fetch.1.trapOut c v := by
  have same : s.fetch.1.hart.late = none := (congrArg Hart.late (State.fetch_keeps s).1).trans late
  rcases fetched : s.fetch with ⟨u, r⟩
  rw [fetched] at read same
  subst read
  have noLate : u.noLate = u := by
    rw [State.noLate, ← same]
  simp only [issue, fetched, noLate]

/-- A boot step comes before any hart. -/
theorem step_boots {s : State} {n : Nat} (events : s.events = []) (running : s.isHalted = false) (h : s.boot.stage = .step n) :
    step s = ticked (.next (bootStep n s)) := by
  rw [step, events]
  dsimp only
  rw [running, if_neg Bool.false_ne_true, advanceBoot, h]

/-- A command that is due, with no hart to issue, runs as its instruction. -/
theorem step_commands {s : State} {c : Command} {i : Instr} (events : s.events = []) (running : s.isHalted = false)
    (done : s.boot.stage = .done) (hart : s.pickHart = none) (due : s.pickDue = some (.command c))
    (share : (s.shareOf (coreOf c.by_.hart)).pool = 0) (h : commandInstr c = some i) : step s = ticked (exec i s) := by
  rw [step, events]
  dsimp only
  rw [running, if_neg Bool.false_ne_true, advanceBoot, done]
  dsimp only
  rw [run, hart, due]
  dsimp only
  rw [Act.run, State.spendTokens_free share]
  dsimp only
  rw [h]

end Sys2Proof.Machine

namespace Sys2Proof.Proofs
open Sys2Proof Sys2Proof.Machine Sys2Proof.Safety

/-- Settles O57: the fetch (`State.fetch_keeps`, `State.fetch_buffered`, `State.fetch_machine`), then the step by what comes first. -/
theorem stepRunsDecoded : Obligations.StepRunsDecoded := by
  intro s u pc
  refine ⟨State.fetch_keeps s, ?_, ?_,
    fun empty hm hp pmp local_ aligned still cold lines poison =>
      State.fetch_machine hm hp pmp cold lines poison empty local_ still aligned,
    fun w i h read decodes => (step_issues h).trans (congrArg ticked (issue_of_word read decodes)),
    fun w e h read decodes => (step_issues h).trans (congrArg ticked (issue_of_illegal read decodes)), ?_, ?_, ?_,
    fun n => step_boots, fun c i => step_commands⟩
  · intro i t
    obtain ⟨late, issued⟩ := State.issuing_eq u i
    have ht : t = _ := issued
    rw [ht]
    refine ⟨rfl, rfl, fun c => (State.core_setCore u _ c _).trans ?_, fun n c h => State.charge_getElem? u _ (by decide) 1 n c h⟩
    split
    next hc => rw [hc]
    · rfl
  · intro b w held good word length windows
    rw [State.fetch_buffered held windows, FetchBlock.word_eq good length, word]
  · intro c v h read
    obtain ⟨-, -, -, -, -, -, late⟩ := h.quiet
    exact (step_issues h).trans (congrArg ticked (issue_of_cause late read))
  · exact fun t => ⟨rfl, Nat.lt_of_lt_of_le (Nat.lt_succ_self _) (Nat.le_add_right _ _), rfl⟩
  · intro e rest h
    rw [step, h]

end Sys2Proof.Proofs
end

section
/-! SUPPORT and settles O56. The machine after a package reset (R46, R428). -/

namespace Sys2Proof.Machine
open Sys2Proof.Safety

/-! ### A hart of the reset machine, in focus -/

/-- What a CSR reads after reset (Tables 02-3, 02-4): compare values and VMASK all ones, SCOPE 2, any other 0. -/
def resetCsr : CsrName → Word
  | .stimecmp | .vmask | .mtimecmp => BitVec.allOnes 64
  | .scope => 2
  | _ => 0

/-- The numbers of the CSRs that are not 0 after reset. -/
theorem resetCsr_of_number {n : BitVec 12} {r : CsrName} (h : csrName n = some r) :
    resetCsr r = if n = 0x14D ∨ n = 0x802 ∨ n = 0x7D0 then BitVec.allOnes 64 else if n = 0x803 then 2 else 0 := by
  unfold csrName at h
  split at h
  case h_49 =>
    have zero : resetCsr r = 0 := by
      split at h
      · cases h
        rfl
      · split at h <;> cases h
        rfl
    rw [zero, if_neg, if_neg]
    · rintro rfl
      simp_all
    · rintro (rfl | rfl | rfl) <;> simp_all
  all_goals
    cases h
    rfl

/-- A keyed list of defaults reads the default. -/
theorem assocGet_default {α : Type} {l : List (Nat × α)} {d : α} (h : ∀ e ∈ l, e.2 = d) (k : Nat) : assocGet l d k = d := by
  induction l with
  | nil => rfl
  | cons e t ih =>
    obtain ⟨he, ht⟩ := List.forall_mem_cons.1 h
    rw [assocGet]
    split
    · exact he
    · exact ih ht

/-- The reset machine, with any hart in focus. -/
structure AtReset (s : State) : Prop where
  hart : s.hart = Hart.reset
  others : ∀ e ∈ s.others, e.2 = Hart.reset
  rest : { s with hid := 4096, hart := Hart.reset, others := [] } = State.reset

/-- The reset machine with a hart brought into focus. -/
theorem atReset_focus (h : Nat) : AtReset (State.reset.focus h) := by
  unfold State.focus
  split
  · exact ⟨rfl, fun e he => absurd he List.not_mem_nil, rfl⟩
  · refine ⟨rfl, fun e he => ?_, rfl⟩
    have saved : e ∈ assocErase [(4096, Hart.reset)] h := he
    rw [List.mem_singleton.1 (List.mem_filter.1 saved).1]

section
variable {s : State} (h : AtReset s)
include h

/-- Every hart is at reset. -/
theorem AtReset.getHart (k : Nat) : s.getHart k = Hart.reset := by
  unfold State.getHart
  split
  · exact h.hart
  · exact assocGet_default h.others k

/-- Every core is at reset. -/
theorem AtReset.core (c : Nat) : s.core c = Core.reset := by
  have cores : s.cores = [] := congrArg State.cores h.rest
  rw [State.core, cores]
  rfl

/-- No ring is named. -/
theorem AtReset.rings : ∀ r ∈ s.rings, ringNamed r = false := by
  have usedRings : s.usedRings = [] := congrArg State.usedRings h.rest
  have contexts : s.contexts = [] := congrArg State.contexts h.rest
  intro r hr
  rw [State.rings, usedRings, contexts] at hr
  simp only [List.map_nil, List.append_nil, List.nil_append, List.mem_map] at hr
  obtain ⟨k, -, rfl⟩ := hr
  rw [h.getHart]
  rfl

/-- Every queue of a core is empty. -/
theorem AtReset.queue (c : Nat) (n : Nat) : (s.core c).queue n = Queue.empty := by
  rw [h.core, Core.queue]
  split
  · exact Vector.getElem_replicate _
  · rfl

/-- No interrupt is pending (Table 02-7). -/
theorem AtReset.mip (k : Nat) : s.mip k Hart.reset = 0 := by
  have clock : s.clock = 0 := congrArg State.clock h.rest
  have msips : s.msips = [] := congrArg State.msips h.rest
  have seip : s.seip k = false := by
    have none : s.rings.any (fun r => ringNamed r && ringSvc r + Config.computeHarts == k && s.ringCount r != 0) = false := by
      rw [List.any_eq_false]
      intro r hr
      simp [h.rings r hr]
    rw [State.seip, none, Bool.and_false]
  have inboxFull : s.inboxFull k = false := by
    rw [State.inboxFull, h.queue]
    rfl
  have recallPending : s.recallPending k = false := by
    rw [State.recallPending, h.queue]
    exact Bool.and_false _
  have time : s.time = 0 := by rw [State.time, clock]
  apply BitVec.eq_of_getLsbD_eq
  intro i hi
  refine (State.mip_getLsbD s k Hart.reset i).trans (Eq.trans ?_ BitVec.getLsbD_zero.symm)
  unfold State.mipBit
  split
  · rfl
  · rw [msips]; rfl
  · rw [time]; rfl
  · rw [time]; rfl
  · exact seip
  · rfl
  · exact inboxFull
  · exact recallPending
  · rfl

/-- QSTAT: every queue is empty and has room (Table 02-4). -/
theorem AtReset.qstat : s.qstat 0 = 0 := by
  unfold State.qstat
  rw [h.core]
  rfl

/-- What the CSRs read. -/
theorem AtReset.csrGet (r : CsrName) : s.csrGet r = resetCsr r := by
  have clock : s.clock = 0 := congrArg State.clock h.rest
  have rotations : s.rotations = [] := congrArg State.rotations h.rest
  have idle : s.rkBusy = false := by rw [State.rkBusy, rotations]; rfl
  have pending : s.mip s.hid Hart.reset = 0 := h.mip s.hid
  unfold State.csrGet
  rw [h.hart]
  cases r with
  | cycle => rw [clock]; rfl
  | time => rw [State.time, clock]; rfl
  | mip => exact pending
  | sip => dsimp only; rw [pending]; rfl
  | qstat => exact h.qstat
  | encl => dsimp only; rw [h.core]; rfl
  | rkctl => rw [idle]; rfl
  | pmpaddr i => exact Vector.getElem_replicate _
  | _ => rfl

end

/-! ### The invariant -/

/-- No hart waits and no lease is held after reset. -/
theorem inv_reset : Inv State.reset := ⟨fun _ hw => absurd hw List.not_mem_nil, fun _ => rfl⟩

/-! ### Control blocks -/

/-- The share controllers read 0 (Table 16-4). -/
theorem Share.read_reset (off : Nat) : Share.reset.read off = 0 := by
  unfold Share.read
  repeat' split
  all_goals rfl

/-- The register groups of a service-core hart are at reset. -/
theorem svcRegs_reset (h : Nat) : State.reset.svcRegs h = SvcRegs.reset := rfl

end Sys2Proof.Machine

namespace Sys2Proof.Proofs
open Sys2Proof Sys2Proof.Machine Sys2Proof.Safety

/-- Settles O56: every hart reads as at reset (`AtReset`), and the rest by the tables' reset values. -/
theorem resetState : Obligations.ResetState := by
  unfold Obligations.ResetState
  intro s
  refine ⟨?_, ?_, ?_, ?_, rfl, rfl, rfl, rfl, rfl, rfl, rfl, Memory.wf_reset, inv_reset⟩
  · intro h _ x u
    have focused := atReset_focus h
    have hx : x = Hart.reset := (atReset_focus 4096).getHart h
    rw [hx]
    refine ⟨rfl, rfl, rfl, rfl, rfl, rfl, fun r => ?_, fun r => Vector.getElem_replicate _,
      fun n r named => (focused.csrGet r).trans (resetCsr_of_number named)⟩
    show (if r = 0 then 0 else u.hart.x[r.toNat]) = 0
    rw [focused.hart]
    split
    · rfl
    · exact Vector.getElem_replicate _
  · intro h
    rw [svcRegs_reset]
    exact ⟨rfl, rfl, rfl⟩
  · intro c
    exact ⟨rfl, rfl⟩
  · intro d hd off
    rw [show s.shares[d] = Share.reset from Vector.getElem_replicate _]
    exact Share.read_reset off

end Sys2Proof.Proofs
end

section
/-! SUPPORT and settles O32. Vector writes (R39, R40, R102 to R106) and the vector moves (R113 to R118): the lanes of a register, one
rule for a write of a vector register, and one for each shape of move. -/

namespace Sys2Proof.Machine
open Sys2Proof.Safety

/-! ### Lanes (R81, R102) -/

/-- Lanes put together, as a number. -/
def packNat (w : Nat) (ls : List Nat) : Nat := ls.foldr (fun v acc => v % 2 ^ w + 2 ^ w * acc) 0

/-- Lanes put together fill as many bits as they have. -/
theorem packNat_lt (w : Nat) (ls : List Nat) : packNat w ls < 2 ^ (w * ls.length) := by
  induction ls with
  | nil => exact Nat.one_pos
  | cons v ls ih =>
    have low : v % 2 ^ w < 2 ^ w := Nat.mod_lt _ (Nat.two_pow_pos w)
    calc v % 2 ^ w + 2 ^ w * packNat w ls < 2 ^ w + 2 ^ w * packNat w ls := Nat.add_lt_add_right low _
      _ = 2 ^ w * (packNat w ls + 1) := by rw [Nat.mul_succ, Nat.add_comm]
      _ ≤ 2 ^ w * 2 ^ (w * ls.length) := Nat.mul_le_mul_left _ ih
      _ = 2 ^ (w * (v :: ls).length) := by rw [← Nat.pow_add, List.length_cons, Nat.mul_succ, Nat.add_comm]

/-- A lane of lanes put together. -/
theorem packNat_lane (w : Nat) (ls : List Nat) (i : Nat) (hi : i < ls.length) : packNat w ls / 2 ^ (w * i) % 2 ^ w = ls[i] % 2 ^ w := by
  induction ls generalizing i with
  | nil => exact absurd hi (Nat.not_lt_zero i)
  | cons v ls ih =>
    have low : v % 2 ^ w < 2 ^ w := Nat.mod_lt _ (Nat.two_pow_pos w)
    show (v % 2 ^ w + 2 ^ w * packNat w ls) / 2 ^ (w * i) % 2 ^ w = _
    cases i with
    | zero => rw [Nat.mul_zero, Nat.pow_zero, Nat.div_one, Nat.add_mul_mod_self_left, Nat.mod_mod]; rfl
    | succ i =>
      rw [Nat.mul_succ, Nat.add_comm (w * i), Nat.pow_add, ← Nat.div_div_eq_div_mul, Nat.add_mul_div_left _ _ (Nat.two_pow_pos w),
        Nat.div_eq_of_lt low, Nat.zero_add, ih i (by simpa using hi)]
      rfl

/-- A lane as a number. -/
theorem laneOf_eq (w : Nat) (b : VBits) (i : Nat) : laneOf w b i = b.toNat / 2 ^ (w * i) % 2 ^ w := bitsNat_eq b _ _

/-- A lane has its width. -/
theorem laneOf_lt (w : Nat) (b : VBits) (i : Nat) : laneOf w b i < 2 ^ w := (BitVec.extractLsb' _ _ _).isLt

/-- A lane of a register put together from its lanes (R81). -/
theorem laneOf_packLanes {w : Nat} {ls : List Nat} (fits : w * ls.length ≤ 512) {i : Nat} (hi : i < ls.length) :
    laneOf w (packLanes w ls) i = ls[i] % 2 ^ w := by
  have small := (packNat_lt w ls).trans_le (Nat.pow_le_pow_right Nat.two_pos fits)
  have bits : (packLanes w ls).toNat = packNat w ls := by
    rw [packLanes, BitVec.toNat_ofNat]
    exact Nat.mod_eq_of_lt small
  rw [laneOf_eq, bits, packNat_lane w ls i hi]

/-- A lane of a masked write (R102). -/
theorem laneOf_mergeLanes {w : Nat} (old : VBits) (active : Nat → Bool) (new : List Nat) {i : Nat} (hi : i < 512 / w) :
    laneOf w (mergeLanes w old active new) i = if active i then (new.drop i).headD 0 % 2 ^ w else laneOf w old i := by
  have length : ((List.range (512 / w)).map (fun i => if active i then (new.drop i).headD 0 else laneOf w old i)).length = 512 / w := by
    simp
  rw [mergeLanes, laneOf_packLanes (by rw [length]; exact Nat.mul_div_le 512 w) (by rw [length]; exact hi), List.getElem_map,
    List.getElem_range]
  split
  · rfl
  · exact Nat.mod_eq_of_lt (laneOf_lt w old i)

/-- An element of a list of all elements. -/
theorem headD_drop_map_range (f : Nat → Nat) {n i : Nat} (hi : i < n) : (((List.range n).map f).drop i).headD 0 = f i := by
  rw [List.drop_eq_getElem_cons (by simpa using hi)]
  simp

/-! ### The write of a vector register (R39, R40) -/

/-- Contents in program order after a result is issued. -/
theorem Hart.finalV_issueV (h : Hart) (r : VReg) (val : VecReg) (lat : Nat) (q : VReg) :
    (h.issueV r val lat).finalV q = if r = q then val else h.finalV q := by
  show List.foldl _ _ (h.inflight ++ [_]) = _
  rw [List.foldl_append]
  rfl

/-- Settling a last result that is ready: its register has it, and no other in flight (R40). -/
theorem Hart.settle_last {h : Hart} {l : List Inflight} {e : Inflight} (last : h.inflight = l ++ [e]) (ready : e.ready ≤ h.steps) :
    ∃ (v : Vector VecReg 32) (q : List Inflight),
      h.settle = { h with v := v.set e.reg.toNat e.val, inflight := q.filter (fun o => o.reg ≠ e.reg) } := by
  unfold Hart.settle
  split
  next none => exact absurd (last.symm.trans none) (by simp)
  · rw [last]
    simp only [List.foldl_append, List.foldl_cons, List.foldl_nil, if_pos ready]
    exact ⟨_, _, rfl⟩

/-- Reads find nothing among other registers' results. -/
theorem foldl_reads_filter (q : List Inflight) (r : VReg) (n : Nat) (a : VecReg) :
    (q.filter (fun o => o.reg ≠ r)).foldl (fun acc e => if e.reg = r ∧ e.ready ≤ n then e.val else acc) a = a := by
  induction q with
  | nil => rfl
  | cons e t ih =>
    by_cases h : e.reg = r
    · simpa [h] using ih
    · simpa [h] using ih

/-- A last result that is ready as it settles is the one read. -/
theorem Hart.readV_settle {h : Hart} {l : List Inflight} {e : Inflight} (last : h.inflight = l ++ [e]) (ready : e.ready ≤ h.steps) :
    h.settle.readV e.reg = h.settle.finalV e.reg := by
  obtain ⟨v, q, settled⟩ := Hart.settle_last last ready
  rw [settled]
  exact (foldl_reads_filter q e.reg _ _).trans (foldl_writes_filter_eq q e.reg _).symm

/-- Retiring a hart that differs from another in x registers, results in flight, VFLAGS and VMASK. -/
theorem Hart.retire_frame {h k : Hart} {x : Vector Word 32} {q : List Inflight} {flags mask : Word}
    (hk : k = { h with x := x, inflight := q, csr := { h.csr with vflags := flags, vmask := mask } }) (w : Nat) :
    Retired h (k.retire w none).settle w ∧ SameShell h (k.retire w none).settle ∧ (k.retire w none).settle.x = x
      ∧ (k.retire w none).settle.csr = { h.csr with
          instret := h.csr.instret + 1, repstate := (nextPc h.pc h.csr.repstate).2, vflags := flags, vmask := mask } := by
  obtain ⟨v, p, settled⟩ := Hart.settle_eq (k.retire w none)
  rw [settled, hk]
  exact ⟨⟨rfl, rfl, rfl, rfl⟩, rfl, rfl, rfl⟩

/-- A vector register written, the flags raised, and the instruction retired: everything a vector instruction of latency class 1
does (R39, R85, R104). -/
theorem State.vwrite_spec (s : State) (r : VReg) (b : VBits) (tag : Tag) (f : Fl) (w : Nat) :
    let t := (s.vwrite r b tag 1 f).advanceW w
    t.hart.finalV r = ⟨b, tag⟩ ∧ VectorOnly s t [r] w ∧ RaisesFlags s t f ∧ VisibleAfter s t r 1 w := by
  intro t
  have final (q : VReg) : t.hart.finalV q = if r = q then ⟨b, tag⟩ else s.hart.finalV q :=
    (Hart.finalV_settle _ q).trans (Hart.finalV_issueV (s.orFlags f).hart r ⟨b, tag⟩ 1 q)
  have frame := Hart.retire_frame (h := s.hart) (k := (s.vwrite r b tag 1 f).hart) rfl w
  change Retired s.hart t.hart w ∧ SameShell s.hart t.hart ∧ t.hart.x = s.hart.x ∧ t.hart.csr = _ at frame
  obtain ⟨retired, shell, x, csr⟩ := frame
  have frame : VectorFrame s t [r] w := by
    refine ⟨fun q hq => (final q).trans (if_neg ?_), retired, by rw [csr], shell, rfl⟩
    rintro rfl
    exact hq (List.mem_singleton.2 rfl)
  refine ⟨(final r).trans (if_pos rfl), ⟨frame, fun q => by rw [State.x, State.x, x], by rw [csr]⟩, congrArg Csrs.vflags csr, ?_⟩
  rw [VisibleAfter, if_pos (Nat.le_add_right 1 w)]
  exact Hart.readV_settle (h := (s.vwrite r b tag 1 f).hart.retire w none) (l := s.hart.inflight)
    (e := { reg := r, ready := s.hart.steps + 1, val := ⟨b, tag⟩ }) rfl (Nat.le_add_right _ w)

/-! ### Vector instructions (R106) -/

/-- A vector instruction whose operands pass the checks completes. -/
theorem State.vector_good {s : State} {named : List VReg} {srcs : List Src} (good : OperandsGood s named srcs) (w : BitVec 2)
    (k : State → State) : s.vector named srcs w k = .next ((k s).advanceW w.toNat) := by
  rw [State.vector, (State.vcheck_eq_none s named srcs).2 good]

/-- Reading every element is what an instruction without a mask does. -/
theorem active_false (s : State) : s.active false = allLanes := rfl

/-- Element moves: what `State.moveOp` does when its operands pass the checks (R103). -/
theorem State.moveOp_spec {s : State} {ty : ETy} {vd : VReg} {named : List VReg} {srcs : List Src} {m : Bool} {w : BitVec 2}
    {f : State → (Nat → Nat) × Fl} (good : OperandsGood s (s.rot vd :: named) srcs) {fl : Fl} {g : Nat → Nat} (hf : (f s).2 = fl)
    (hg : ∀ i, (f s).1 i % 2 ^ etyBits ty = g i % 2 ^ etyBits ty) :
    ∃ t, s.moveOp ty (s.rot vd) named srcs m w f = .next t ∧ MoveResult s t ty vd m w fl g := by
  obtain ⟨final, only, flags, visible⟩ := s.vwrite_spec (s.rot vd)
    (mergeLanes (etyBits ty) (s.hart.finalV (s.rot vd)).bits (s.active m) ((List.range (etyLanes ty)).map (f s).1))
    (etyTag ty) (f s).2 w.toNat
  refine ⟨_, State.vector_good good w _, congrArg VecReg.tag final, fun i hi => ?_, hf ▸ flags, visible, only⟩
  rw [final]
  dsimp only
  rw [laneOf_mergeLanes _ _ _ hi, headD_drop_map_range (n := etyLanes ty) _ hi, hg]

/-- What a logic instruction gives: the bytes of `b` under the mask, and a tag (R102, R113). -/
def BytesResult (s t : State) (vd : VReg) (m : Bool) (w : BitVec 2) (tag : Tag) (b : VBits) : Prop :=
  VectorOnly s t [s.rot vd] w.toNat ∧ RaisesFlags s t 0 ∧ VisibleAfter s t (s.rot vd) 1 w.toNat
    ∧ (t.hart.finalV (s.rot vd)).tag = tag
    ∧ ∀ k, k < 64 → laneOf 8 (t.hart.finalV (s.rot vd)).bits k =
        if s.active m k then laneOf 8 b k else laneOf 8 (s.hart.finalV (s.rot vd)).bits k

/-- Byte moves: what `State.bitsOp` does when its operands pass the checks. -/
theorem State.bitsOp_spec {s : State} {vd : VReg} {rs : List VReg} (m : Bool) (w : BitVec 2) (f : List VBits → VBits)
    (tag : List Tag → Tag) (good : OperandsGood s (s.rot vd :: rs.map s.rot) ((rs.map s.rot).map (fun r => ⟨r, none⟩))) :
    ∃ t, s.bitsOp vd rs m w f tag = .next t ∧ BytesResult s t vd m w (tag (((rs.map s.rot).map s.hart.readV).map VecReg.tag))
      (f (((rs.map s.rot).map s.hart.readV).map VecReg.bits)) := by
  obtain ⟨final, only, flags, visible⟩ := s.vwrite_spec (s.rot vd)
    (mergeLanes 8 (s.hart.finalV (s.rot vd)).bits (s.active m) (lanesOf 8 (f (((rs.map s.rot).map s.hart.readV).map VecReg.bits))))
    (tag (((rs.map s.rot).map s.hart.readV).map VecReg.tag)) 0 w.toNat
  refine ⟨_, ?_, only, flags, visible, congrArg VecReg.tag final, fun k hk => ?_⟩
  · unfold State.bitsOp
    extract_lets d q
    exact State.vector_good good w _
  rw [final]
  dsimp only
  rw [laneOf_mergeLanes _ _ _ hk, lanesOf, headD_drop_map_range _ hk, Nat.mod_eq_of_lt (laneOf_lt _ _ _)]

/-! ### An element in an x register (R118) -/

/-- A float type is one of the four. -/
theorem etyFloat_iff (ty : ETy) : etyFloat ty = true ↔ IsFloat ty := by
  cases ty <;> decide

/-- An element sign-extended. -/
theorem ofInt_toSigned {w e : Nat} (hw : 0 < w) (he : e < 2 ^ w) : BitVec.ofInt 64 (toSigned w e) = (BitVec.ofNat w e).signExtend 64 := by
  have half : 2 ^ w = 2 * 2 ^ (w - 1) := by
    rw [← Nat.pow_succ', Nat.succ_eq_add_one, Nat.sub_add_cancel hw]
  have value : toSigned w e = (BitVec.ofNat w e).toInt := by
    have whole : ((e : Int) % 2 ^ w) = e := by exact_mod_cast Nat.mod_eq_of_lt he
    rw [toSigned, BitVec.toInt_eq_toNat_cond, BitVec.toNat_ofNat, Nat.mod_eq_of_lt he, whole]
    by_cases low : e < 2 ^ (w - 1)
    · rw [if_pos low, if_pos (by omega)]
    · rw [if_neg low, if_neg (by omega)]
  rw [value]
  rfl

/-- A vector instruction that writes x[rd] and raises flags, retired. -/
theorem State.setX_vector_spec (s : State) (rd : Reg) (v : Word) (f : Fl) (w : Nat) :
    let t := ((s.orFlags f).setX rd v).advanceW w
    VectorFrame s t [] w ∧ t.hart.csr.vmask = s.hart.csr.vmask ∧ RaisesFlags s t f ∧ (∀ r, r ≠ rd → t.x r = s.x r)
      ∧ t.x rd = if rd = 0 then 0 else v := by
  intro t
  have hx : ∃ x, ((s.orFlags f).setX rd v).hart = { (s.orFlags f).hart with x := x }
      ∧ { (s.orFlags f).setX rd v with hart := s.hart } = s := by
    unfold State.setX
    split
    · exact ⟨s.hart.x, rfl, rfl⟩
    · exact ⟨_, rfl, rfl⟩
  obtain ⟨x, hart, device⟩ := hx
  have frame := Hart.retire_frame (h := s.hart) (k := ((s.orFlags f).setX rd v).hart) hart w
  change Retired s.hart t.hart w ∧ SameShell s.hart t.hart ∧ t.hart.x = x ∧ t.hart.csr = _ at frame
  obtain ⟨retired, shell, hx, csr⟩ := frame
  have final (q : VReg) : t.hart.finalV q = s.hart.finalV q := by
    refine (Hart.finalV_settle _ q).trans ?_
    show ((s.orFlags f).setX rd v).hart.finalV q = _
    rw [hart]
    rfl
  have reads (q : Reg) : t.x q = if q = rd then (if rd = 0 then 0 else v) else s.x q := by
    refine Eq.trans ?_ (State.x_setX (s.orFlags f) rd q v)
    rw [State.x, State.x, hx, hart]
  refine ⟨⟨fun q _ => final q, retired, by rw [csr], shell, device⟩, by rw [csr], congrArg Csrs.vflags csr, fun q hq => ?_, ?_⟩
  · rw [reads, if_neg hq]
  · rw [reads, if_pos rfl]

/-- The lanes of every type have a width. -/
theorem etyBits_pos (ty : ETy) : 0 < etyBits ty := by
  cases ty <;> decide

/-- The flags of two conversions, each of a source read whole. -/
theorem convFlags_pair (s : State) (ty : ETy) (a b : VReg) : convFlags s ty false [a, b]
    = (s.vread (s.rot a) (etyTag ty) allLanes).2 ||| (s.vread (s.rot b) (etyTag ty) allLanes).2 := by
  show 0#6 ||| _ ||| _ = _
  rw [BitVec.zero_or, active_false]

/-- The flags of one conversion of a source read whole. -/
theorem convFlags_single (s : State) (ty : ETy) (a : VReg) : convFlags s ty false [a] = (s.vread (s.rot a) (etyTag ty) allLanes).2 := by
  show 0#6 ||| _ = _
  rw [BitVec.zero_or, active_false]

end Sys2Proof.Machine

namespace Sys2Proof.Proofs
open Sys2Proof Sys2Proof.Machine Sys2Proof.Safety

/-- Settles O32: the logic instructions and `vmvv` by `State.bitsOp_spec`, the element moves by `State.moveOp_spec`. -/
theorem vectorMoves : Obligations.VectorMoves := by
  intro s ty vd a b rd rs m w n ra rb bits2
  have logic {i : Instr} {f : VBits → VBits → VBits} (hi : exec i s = s.bitsOp vd [a, b] m w (Machine.bits2 f) logicTag) : bits2 i f :=
    fun good => hi ▸ State.bitsOp_spec (rs := [a, b]) m w (Machine.bits2 f) logicTag good
  refine ⟨logic rfl, logic rfl, logic rfl, State.bitsOp_spec (rs := [a]) m w (fun l => l.headD 0) logicTag, ?_, ?_, ?_, ?_, ?_⟩
  · intro good
    show ∃ t, execVsel ty vd a b m w s = .next t ∧ _
    unfold execVsel
    refine State.moveOp_spec good (by rw [convFlags_pair]) (fun i => ?_)
    simp only [laneAll]
    split <;> rfl
  · intro good src x
    show ∃ t, execVperm ty vd a b m w s = .next t ∧ _
    unfold execVperm
    exact State.moveOp_spec good rfl (fun _ => rfl)
  · intro good src x
    show ∃ t, execVslide ty vd a rs m w s = .next t ∧ _
    unfold execVslide
    refine State.moveOp_spec good rfl (fun i => congrArg (· % _) ?_)
    dsimp only
    split
    next j inside =>
      have inside : src i = some j := inside
      rw [inside]
      rfl
    next outside =>
      have outside : src i = none := outside
      rw [outside]
      rfl
  · intro good
    refine ⟨?_, ?_⟩
    · show ∃ t, execVbcast ty vd rs m w s = .next t ∧ _
      unfold execVbcast
      exact State.moveOp_spec good rfl (fun _ => Nat.mod_mod _ _)
    · show ∃ t, execVid ty vd m w s = .next t ∧ _
      unfold execVid
      exact State.moveOp_spec good rfl (fun _ => rfl)
  · intro good e
    show ∃ t, execVmvx ty rd a rs w s = .next t ∧ _
    unfold execVmvx
    have small : e < 2 ^ etyBits ty := laneOf_lt _ _ _
    obtain ⟨frame, vmask, flags, others, result⟩ := s.setX_vector_spec rd
      (if etyFloat ty then BitVec.ofNat 64 e else BitVec.ofInt 64 (toSigned (etyBits ty) e))
      (s.vread (s.rot a) (etyTag ty) allLanes).2 w.toNat
    refine ⟨_, State.vector_good good w _, frame, vmask, (convFlags_single s ty a).symm ▸ flags, others, result.trans ?_⟩
    simp only [etyFloat_iff, ofInt_toSigned (etyBits_pos ty) small]

end Sys2Proof.Proofs
end

section
/-! SUPPORT and settles O58 and O59. Encoding and decoding (R48 to R59): each part of a word that the encoder puts in its places, the
decoder reads back from them. -/

namespace Sys2Proof

/-! ### Parts of a bit vector -/

/-- Two parts put together are read back. -/
theorem extract_append {m n : Nat} (x : BitVec m) (y : BitVec n) : (x ++ y).extractLsb' n m = x ∧ (x ++ y).extractLsb' 0 n = y :=
  ⟨BitVec.extractLsb'_append_eq_left, BitVec.extractLsb'_append_eq_right⟩

/-- Bits [14:12] of a cell word (R55): each of the three bits is read back. -/
theorem extract_append_bits (x y z : BitVec 1) :
    (x ++ y ++ z).extractLsb' 2 1 = x ∧ (x ++ y ++ z).extractLsb' 1 1 = y ∧ (x ++ y ++ z).extractLsb' 0 1 = z := by
  refine ⟨?_, ?_, (extract_append _ _).2⟩
  all_goals
    refine BitVec.eq_of_getLsbD_eq fun i hi => ?_
    simp only [BitVec.getLsbD_append, BitVec.getLsbD_extractLsb']
    interval_cases i
    rfl

/-- The two parts of a bit vector make it up. -/
theorem append_parts {m n : Nat} (x : BitVec (m + n)) : x.extractLsb' n m ++ x.extractLsb' 0 n = x := by
  rw [BitVec.extractLsb'_append_extractLsb'_eq_extractLsb' (Nat.zero_add n).symm, BitVec.extractLsb'_eq_self]

/-- The parts of the predecessor set of `fence` (R51). -/
theorem append_pred (x : BitVec 4) : x.extractLsb' 2 2 ++ x.extractLsb' 1 1 ++ x.extractLsb' 0 1 = x := by
  refine BitVec.eq_of_getLsbD_eq fun i hi => ?_
  simp only [BitVec.getLsbD_append, BitVec.getLsbD_extractLsb']
  interval_cases i <;> rfl

/-- The parts of the 9-bit offset of `vle` and `vse` (R56). -/
theorem append_off9 (x : BitVec 9) : x.extractLsb' 8 1 ++ x.extractLsb' 6 2 ++ x.extractLsb' 5 1 ++ x.extractLsb' 0 5 = x := by
  refine BitVec.eq_of_getLsbD_eq fun i hi => ?_
  simp only [BitVec.getLsbD_append, BitVec.getLsbD_extractLsb']
  interval_cases i <;> rfl

/-- The parts of the offset of a strong load (R58). -/
theorem append_immL (x : BitVec 10) : x.extractLsb' 6 4 ++ x.extractLsb' 4 2 ++ x.extractLsb' 3 1 ++ x.extractLsb' 0 3 = x := by
  refine BitVec.eq_of_getLsbD_eq fun i hi => ?_
  simp only [BitVec.getLsbD_append, BitVec.getLsbD_extractLsb']
  interval_cases i <;> rfl

/-- The parts of the offset of a strong store (R58). -/
theorem append_immSS (x : BitVec 10) : x.extractLsb' 6 4 ++ x.extractLsb' 5 1 ++ x.extractLsb' 0 5 = x := by
  refine BitVec.eq_of_getLsbD_eq fun i hi => ?_
  simp only [BitVec.getLsbD_append, BitVec.getLsbD_extractLsb']
  interval_cases i <;> rfl

/-! ### Immediates (Table 03-3) -/

theorem Fields.immI_ofI (imm : BitVec 12) (a f3 d opc) : (ofI imm a f3 d opc).immI = imm := by
  refine BitVec.eq_of_getLsbD_eq fun i hi => ?_
  simp only [immI, ofI, BitVec.getLsbD_append, BitVec.getLsbD_extractLsb']
  interval_cases i <;> rfl

/-- The S immediate has the parts of the I immediate. -/
theorem Fields.immS_ofS (imm : BitVec 12) (b a f3 opc) : (ofS imm b a f3 opc).immS = imm := immI_ofI imm a f3 b opc

theorem Fields.immB_ofB (imm : BitVec 12) (b a f3 opc) : (ofB imm b a f3 opc).immB = imm := by
  refine BitVec.eq_of_getLsbD_eq fun i hi => ?_
  simp only [immB, ofB, BitVec.getLsbD_append, BitVec.getLsbD_extractLsb']
  interval_cases i <;> rfl

theorem Fields.immU_ofU (imm : BitVec 20) (d opc) : (ofU imm d opc).immU = imm := by
  refine BitVec.eq_of_getLsbD_eq fun i hi => ?_
  simp only [immU, ofU, BitVec.getLsbD_append, BitVec.getLsbD_extractLsb']
  interval_cases i <;> rfl

theorem Fields.immJ_ofJ (imm : BitVec 20) (d opc) : (ofJ imm d opc).immJ = imm := by
  refine BitVec.eq_of_getLsbD_eq fun i hi => ?_
  simp only [immJ, ofJ, BitVec.getLsbD_append, BitVec.getLsbD_extractLsb']
  interval_cases i <;> rfl

/-! ### Codes (Tables 02-2, 03-4, 08-1 and 09-1) and checks (R48) -/

@[simp] theorem isSet_bit (c : Bool) : isSet (bit c) = c := by cases c <;> rfl
@[simp] theorem ETy.ofBits_bits (ty : ETy) : ofBits ty.bits = ty := by cases ty <;> rfl
@[simp] theorem Tag.ofBits?_bits (t : Tag) : ofBits? t.bits = some t := by cases t <;> rfl
@[simp] theorem Scope.ofBits_bits (s : Scope) : ofBits s.bits = s := by cases s <;> rfl
@[simp] theorem RedOp.ofBits?_bits (o : RedOp) : ofBits? o.bits = some o := by cases o <;> rfl

@[simp] theorem need_true (e : DecodeError) (i : Instr) : need true e i = .ok i := rfl

theorem ranged_of_wf {i : Instr} (h : i.wf = true) : ranged i = .ok i := if_pos h

/-! ### Instructions and their fields -/

/-- The fields of a well-formed instruction decode to it. The cases stand together by how their operands are read back. -/
theorem map_decodeFields_encodeFields {i : Instr} (wf : i.wf = true) (word : i.isWord = true) :
    (encodeFields i).map decodeFields = some (.ok i) := by
  cases i with
  | add | sub | sll | slt | sltu | xor | srl | sra | or | and | addw | subw | sllw | srlw | sraw
  | mul | mulh | mulhsu | mulhu | div | divu | rem | remu | mulw | divw | divuw | remw | remuw
  | ecall | ebreak | fenceI | sret | mret | wfi | rep | wait | send | slook | sinst | sinv | sclean
  | sync | emit | taskDone | acq | acqTry | rel | claim
  | upret | scall | mprobe | mhint | launch | frec | monenter | monleave | monkey | monseal => rfl
  | slliw | srliw | sraiw => simp [encodeFields, decodeFields, decodeOpImm32, Fields.ofR, Fields.f7]
  | jalr | lb | lh | lw | ld | lbu | lhu | lwu | addi | slti | sltiu | xori | ori | andi | addiw
  | csrrw | csrrs | csrrc | csrrwi | csrrsi | csrrci =>
    show some (Except.ok _) = _
    rw [Fields.immI_ofI]
    rfl
  | sb | sh | sw | sd =>
    show some (Except.ok _) = _
    rw [Fields.immS_ofS]
    rfl
  | beq | bne | blt | bge | bltu | bgeu =>
    show some (Except.ok _) = _
    rw [Fields.immB_ofB]
    rfl
  | lui | auipc =>
    show some (Except.ok _) = _
    rw [Fields.immU_ofU]
    rfl
  | jal =>
    show some (Except.ok _) = _
    rw [Fields.immJ_ofJ]
    rfl
  | slli | srli | srai =>
    show some (Except.ok _) = _
    rw [append_parts (m := 1) (n := 5)]
  | fence =>
    show some (Except.ok _) = _
    simp [extract_append (m := 1) (n := 4), append_pred]
  | amoswapW | amoaddW | amoxorW | amoandW | amoorW | amominW | amomaxW | amominuW | amomaxuW
  | amoswapD | amoaddD | amoxorD | amoandD | amoorD | amominD | amomaxD | amominuD | amomaxuD =>
    simp [encodeFields, decodeFields, decodeAmo, Fields.ofAmo, extract_append (m := 1) (n := 1)]
  | vadd | vsub | vmul | vdiv | vmin | vmax | vabs | vneg | vsqrt | vrecip | vrsqrt | vexp2 | vlog2 | vadds | vsubs | vmulh =>
    simp [encodeFields, decodeFields, decodeVA, Fields.ofV, ranged_of_wf wf]
  | vand | vor | vxor | vsll | vsrl | vsra | vcmpeq | vcmplt | vcmple | vsel | vperm | vslide | vbcast | vmvx | vid
  | vredsum | vredmax | vredmin | vdot | vmvv | vsetm | vgetm =>
    simp [encodeFields, decodeFields, decodeVB, Fields.ofV, ranged_of_wf wf]
  | vcvt | vretag | vqnt | vdeq =>
    simp [encodeFields, decodeFields, decodeVB, decodeVFormat, Fields.ofV, extract_append (m := 1) (n := 4), ranged_of_wf wf]
  | vtag =>
    simp [encodeFields, decodeFields, decodeVB, decodeVFormat, Fields.ofV, show Tag.ofBits? 0#4 = some .raw from rfl]
  | vfma | vfms | vfnma | vfnms =>
    simp [encodeFields, decodeFields, decodeFma, Fields.of4, extract_append (m := 1) (n := 1), append_parts (m := 4) (n := 1),
      append_parts (m := 1) (n := 1), ranged_of_wf wf]
  | vle | vlds | vlx =>
    simp [encodeFields, decodeFields, decodeVLoad, Fields.ofUnit, Fields.ofV, Fields.off9, extract_append (m := 3) (n := 1), append_off9]
  | vse | vsds | vsx =>
    simp [encodeFields, decodeFields, decodeVStore, Fields.ofUnit, Fields.ofV, Fields.off9, extract_append (m := 3) (n := 1), append_off9]
  | qpush | qput | qpop | recv | peek | qmake | qdrop | rput | mtcfg | mtpack =>
    simp [encodeFields, decodeFields, decodeQM, Fields.ofR, ranged_of_wf wf]
  | phaseC | phaseO | phaseCo =>
    simp [encodeFields, decodeFields, decodeSY, Fields.ofR, extract_append (m := 3) (n := 2)]
  | hred =>
    simp [encodeFields, decodeFields, decodeSY, Fields.ofR, extract_append (m := 2) (n := 3)]
  | ldS | lwS =>
    simp [encodeFields, decodeFields, decodeSY, Fields.ofStrongLoad, Fields.immL, extract_append (m := 3) (n := 2), append_immL]
  | sdS | swS =>
    simp [encodeFields, decodeFields, decodeSY, Fields.ofStrongStore, Fields.immSS, extract_append (m := 1) (n := 1),
      append_parts (m := 1) (n := 1), append_immSS]
  | offer | cread | cwait | cretire =>
    simp [encodeFields, decodeFields, decodeCell, Fields.of4, extract_append (m := 1) (n := 1), extract_append_bits,
      append_parts (m := 4) (n := 1)]
  | _ => exact absurd word Bool.false_ne_true

/-! ### Words and bytes (R8, R48, R50) -/

/-- A word put together from fields is cut into them again. -/
theorem Fields.split_join (f : Fields) : split f.join = f := by
  obtain ⟨top, mid, b25, b, a, f3, d, opc⟩ := f
  simp only [split, join, mk.injEq]
  refine ⟨?_, ?_, ?_, ?_, ?_, ?_, ?_, ?_⟩
  all_goals
    refine BitVec.eq_of_getLsbD_eq fun i hi => ?_
    simp only [BitVec.getLsbD_append, BitVec.getLsbD_extractLsb']
    interval_cases i <;> rfl

/-- The four bytes of a word make it up. -/
theorem wordOfBytes_extract (w : BitVec 32) :
    wordOfBytes (w.extractLsb' 0 8) (w.extractLsb' 8 8) (w.extractLsb' 16 8) (w.extractLsb' 24 8) = w := by
  refine BitVec.eq_of_getLsbD_eq fun i hi => ?_
  simp only [wordOfBytes, BitVec.getLsbD_append, BitVec.getLsbD_extractLsb']
  interval_cases i <;> rfl

/-- The bytes of a word decode as the word does, and the bytes that follow are left. -/
theorem decode_bytesOfWord {w : BitVec 32} {i : Instr} (h : decodeWord w = .ok i) (rest : List Byte) :
    decode (bytesOfWord w ++ rest) = .ok (i, rest) := by
  simp only [bytesOfWord, decode, List.cons_append, List.nil_append, wordOfBytes_extract, h]

/-- A word that is refused names no instruction. -/
theorem decodeWord_ne_ok {w : BitVec 32} {e : DecodeError} (h : decodeWord w = .error e) (i : Instr) : decodeWord w ≠ .ok i := by
  rw [h]
  nofun

end Sys2Proof

namespace Sys2Proof.Proofs
open Sys2Proof

/-- Settles O59: the instruction's fields decode to it (`map_decodeFields_encodeFields`), and its bytes give back its fields. -/
theorem roundTrip : Obligations.RoundTrip := by
  intro i rest wf word
  obtain ⟨f, encoded, decoded⟩ := Option.map_eq_some_iff.1 (map_decodeFields_encodeFields wf word)
  have bytes : encode i = bytesOfWord f.join := by simp only [encode, encoded]
  rw [bytes]
  exact decode_bytesOfWord (by rw [decodeWord, Fields.split_join, decoded]) rest

/-- Settles O58: each word is decoded, and each illegal one is refused for the reason named here. -/
theorem decodingWords : Obligations.DecodingWords := by
  refine ⟨by decide, by decide, by decide, ?_⟩
  simp only [List.forall_mem_cons, List.not_mem_nil, false_imp_iff, implies_true, and_true]
  exact ⟨decodeWord_ne_ok (e := .opcode) rfl, decodeWord_ne_ok (e := .zeroField) rfl, decodeWord_ne_ok (e := .zeroField) rfl,
    decodeWord_ne_ok (e := .funct) rfl⟩

end Sys2Proof.Proofs
end

section
/-! Settles O16. Calls, returns and words that name nothing (R48, R75). -/

namespace Sys2Proof.Proofs
open Sys2Proof Sys2Proof.Machine Sys2Proof.Safety

/-- Settles O16: `ecall` takes the cause of its mode, and a return is illegal by the mode it tests. -/
theorem callsAndIllegalWords : Obligations.CallsAndIllegalWords := by
  intro s w
  refine ⟨fun mode => ?fromU, fun mode => ?fromS, fun mode => ?fromM, rfl, fun u => if_pos u, fun notM => if_pos notM,
    fun notU => if_pos notU, rfl⟩
  case fromU | fromS | fromM =>
    show execEcall s = _
    simp only [execEcall, State.mode, mode]
    rfl

end Sys2Proof.Proofs
end

section
/-! SUPPORT and settles O1, O2, O3 and O4. Register, immediate, multiply and divide instructions (R60 to R63): the words that they write. -/

namespace Sys2Proof.Machine
open Sys2Proof.Safety

/-! ### Operands and results (R60, R61, Tables 04-1 and 04-2) -/

/-- An instruction whose meaning is the write of x[rd]. -/
theorem writesRd_of_exec {i : Instr} {s : State} {rd : Reg} {w : Word} (h : exec i s = s.writeRd rd w) : WritesRd i s rd w :=
  let ⟨t, ht, wrote⟩ := State.writeRd_spec s rd w
  ⟨t, h.trans ht, wrote⟩

/-- The same, with the word as a table gives it. -/
theorem writesRd_of_word {i : Instr} {s : State} {rd : Reg} {v w : Word} (hw : v = w) (h : exec i s = s.writeRd rd v) :
    WritesRd i s rd w :=
  writesRd_of_exec (hw ▸ h)

/-- A shift by six bits of a register. -/
theorem shamt6_eq (w : Word) : shamt6 w = w.toNat % 64 := by
  rw [shamt6, bitsNat_eq, Nat.pow_zero, Nat.div_one]
  rfl

/-- A shift by five bits of a register. -/
theorem shamt5_eq (w : Word) : shamt5 w = w.toNat % 32 := by
  rw [shamt5, bitsNat_eq, Nat.pow_zero, Nat.div_one]
  rfl

/-- The result of a signed comparison. -/
theorem boolWord_slt (a b : Word) : boolWord (a.slt b) = if a.toInt < b.toInt then 1 else 0 := by
  simp only [boolWord, BitVec.slt_iff_toInt_lt]

/-- The result of an unsigned comparison. -/
theorem boolWord_ult (a b : Word) : boolWord (a.ult b) = if a.toNat < b.toNat then 1 else 0 := by
  simp only [boolWord, BitVec.ult_iff_toNat_lt]

/-- A sum of 32 bits is that of the low halves. -/
theorem low32_add (a b : Word) : low32 a + low32 b = (a + b).setWidth 32 := (BitVec.setWidth_add a b (by decide)).symm

/-- A difference of 32 bits is that of the low halves. -/
theorem low32_sub (a b : Word) : low32 a - low32 b = (a - b).setWidth 32 := by
  rw [low32, low32, BitVec.sub_eq_add_neg, BitVec.sub_eq_add_neg, BitVec.setWidth_add _ _ (by decide), BitVec.setWidth_neg_of_le (by decide)]

/-- A product of 32 bits is that of the low halves. -/
theorem low32_mul (a b : Word) : low32 a * low32 b = (a * b).setWidth 32 := (BitVec.setWidth_mul a b (by decide)).symm

/-- The U immediate (R50). -/
theorem immU_eq (imm : BitVec 20) : immU imm = (imm.setWidth 32 <<< 12).signExtend 64 := by
  have fields : imm ++ 0#12 = imm.setWidth 32 <<< 12 := by
    have small := imm.isLt
    apply BitVec.eq_of_toNat_eq
    rw [BitVec.toNat_append, BitVec.toNat_shiftLeft, BitVec.toNat_setWidth, Nat.shiftLeft_eq, Nat.shiftLeft_eq, BitVec.toNat_zero,
      Nat.or_zero]
    omega
  rw [immU, fields]

/-! ### Quotients and remainders (Tables 04-3 and 04-4) -/

section
variable {n : Nat} {a b : BitVec n}

/-! The cases of a divisor that is not zero, -/

theorem divS_of_ne (h : b ≠ 0) : divS a b = BitVec.ofInt n (a.toInt.tdiv b.toInt) := if_neg h
theorem divU_of_ne (h : b ≠ 0) : divU a b = BitVec.ofNat n (a.toNat / b.toNat) := if_neg h
theorem remS_of_ne (h : b ≠ 0) : remS a b = BitVec.ofInt n (a.toInt.tmod b.toInt) := if_neg h
theorem remU_of_ne (h : b ≠ 0) : remU a b = BitVec.ofNat n (a.toNat % b.toNat) := if_neg h

/-! and of a zero divisor. -/

theorem divS_zero (h : b = 0) : divS a b = BitVec.allOnes n := if_pos h
theorem divU_zero (h : b = 0) : divU a b = BitVec.allOnes n := if_pos h
theorem remS_zero (h : b = 0) : remS a b = a := if_pos h
theorem remU_zero (h : b = 0) : remU a b = a := if_pos h

end

end Sys2Proof.Machine

namespace Sys2Proof.Proofs
open Sys2Proof Sys2Proof.Machine Sys2Proof.Safety

/-- Settles O1: each instruction writes x[rd] with the word of Table 04-1. -/
theorem registerArithmetic : Obligations.RegisterArithmetic := by
  intro s rd rs1 rs2 a b a32
  refine ⟨writesRd_of_exec rfl, writesRd_of_exec rfl, ?sll, ?slt, ?sltu, writesRd_of_exec rfl, writesRd_of_exec rfl, writesRd_of_exec rfl,
    ?srl, ?sra, ?addw, ?subw, ?sllw, ?srlw, ?sraw⟩
  case sll => exact shamt6_eq b ▸ writesRd_of_exec rfl
  case srl => exact shamt6_eq b ▸ writesRd_of_exec rfl
  case sra => exact shamt6_eq b ▸ writesRd_of_exec rfl
  case slt => exact boolWord_slt a b ▸ writesRd_of_exec rfl
  case sltu => exact boolWord_ult a b ▸ writesRd_of_exec rfl
  case addw => exact low32_add a b ▸ writesRd_of_exec rfl
  case subw => exact low32_sub a b ▸ writesRd_of_exec rfl
  case sllw => exact shamt5_eq b ▸ writesRd_of_exec rfl
  case srlw => exact shamt5_eq b ▸ writesRd_of_exec rfl
  case sraw => exact shamt5_eq b ▸ writesRd_of_exec rfl

/-- Settles O2: each instruction writes x[rd] with the word of Table 04-2. -/
theorem immediateArithmetic : Obligations.ImmediateArithmetic := by
  intro s rd rs1 imm sh sh5 imm20 a i a32 u
  refine ⟨writesRd_of_exec rfl, ?slti, ?sltiu, writesRd_of_exec rfl, writesRd_of_exec rfl, writesRd_of_exec rfl,
    writesRd_of_exec rfl, writesRd_of_exec rfl, writesRd_of_exec rfl, writesRd_of_exec rfl, writesRd_of_exec rfl, writesRd_of_exec rfl,
    writesRd_of_exec rfl, ?lui, ?auipc⟩
  case slti => exact boolWord_slt a i ▸ writesRd_of_exec rfl
  case sltiu => exact boolWord_ult a i ▸ writesRd_of_exec rfl
  case lui => exact writesRd_of_word (immU_eq imm20) rfl
  case auipc => exact writesRd_of_word (congrArg (s.hart.pc + ·) (immU_eq imm20)) rfl

/-- Settles O3: the products as they stand, and the quotients and remainders of a divisor that is not zero. -/
theorem multiplyDivide : Obligations.MultiplyDivide := by
  intro s rd rs1 rs2 a b a32 b32
  refine ⟨writesRd_of_exec rfl, writesRd_of_exec rfl, writesRd_of_exec rfl, ?mulhu, ?mulw, fun hb => ⟨?_, ?_, ?_, ?_⟩, fun hb => ⟨?_, ?_, ?_, ?_⟩⟩
  case mulhu =>
    have high : highHalf ((a.toNat : Int) * (b.toNat : Int)) = BitVec.ofNat 64 (a.toNat * b.toNat / 2 ^ 64) := by
      rw [highHalf, ← BitVec.ofInt_natCast]
      norm_cast
    exact high ▸ writesRd_of_exec rfl
  case mulw => exact low32_mul a b ▸ writesRd_of_exec rfl
  · exact divS_of_ne hb ▸ writesRd_of_exec rfl
  · exact divU_of_ne hb ▸ writesRd_of_exec rfl
  · exact remS_of_ne hb ▸ writesRd_of_exec rfl
  · exact remU_of_ne hb ▸ writesRd_of_exec rfl
  · exact divS_of_ne hb ▸ writesRd_of_exec rfl
  · exact divU_of_ne hb ▸ writesRd_of_exec rfl
  · exact remS_of_ne hb ▸ writesRd_of_exec rfl
  · exact remU_of_ne hb ▸ writesRd_of_exec rfl

/-- Settles O4: the quotients and remainders of a zero divisor, and those of the one pair whose quotient has no word. -/
theorem divisionCorners : Obligations.DivisionCorners := by
  intro s rd rs1 rs2 a b a32 b32
  refine ⟨fun hb => ⟨?_, ?_, ?_, ?_⟩, fun ha hb => ⟨?_, ?_⟩, fun hb => ⟨?_, ?_, ?_, ?_⟩, fun ha hb => ⟨?_, ?_⟩⟩
  · exact writesRd_of_word (divS_zero hb) rfl
  · exact writesRd_of_word (divU_zero hb) rfl
  · exact writesRd_of_word (remS_zero hb) rfl
  · exact writesRd_of_word (remU_zero hb) rfl
  · have overflow : divS a b = 0x8000000000000000 := by rw [ha, hb]; decide
    exact writesRd_of_word overflow rfl
  · have overflow : remS a b = 0 := by rw [ha, hb]; decide
    exact writesRd_of_word overflow rfl
  · exact writesRd_of_word (congrArg sext32 (divS_zero hb)) rfl
  · exact writesRd_of_word (congrArg sext32 (divU_zero hb)) rfl
  · exact writesRd_of_word (congrArg sext32 (remS_zero hb)) rfl
  · exact writesRd_of_word (congrArg sext32 (remU_zero hb)) rfl
  · have overflow : divS a32 b32 = 0x80000000 := by rw [ha, hb]; decide
    exact writesRd_of_word (congrArg sext32 overflow) rfl
  · have overflow : remS a32 b32 = 0 := by rw [ha, hb]; decide
    exact writesRd_of_word (congrArg sext32 overflow) rfl

end Sys2Proof.Proofs
end

section
/-! SUPPORT and settles O5. Control transfers (R64, R65, Table 04-5): branches, `jal` and `jalr`. -/

namespace Sys2Proof.Machine
open Sys2Proof.Safety

/-! ### Targets (R65) -/

/-- The model's test of bits [63:57] of a target. -/
theorem shiftRight_57_eq_zero_iff (t : Word) : t >>> 57 = 0 ↔ t.extractLsb' 57 7 = 0 := by
  have := t.isLt
  rw [← BitVec.toNat_inj, ← BitVec.toNat_inj, BitVec.toNat_ushiftRight, BitVec.extractLsb'_toNat, Nat.shiftRight_eq_div_pow,
    Nat.mod_eq_of_lt (by omega)]
  rfl

/-- A target that a transfer may take raises nothing. -/
theorem transferCause_good {t : Word} (h : GoodTarget t) : transferCause t = none := by
  rw [transferCause, if_neg (not_not.2 ((shiftRight_57_eq_zero_iff t).2 h.1)), h.2]
  rfl

/-- Any of bits [63:57] of a target raises cause 1. -/
theorem transferCause_high {t : Word} (h : t.extractLsb' 57 7 ≠ 0) : transferCause t = some 1 :=
  if_pos (mt (shiftRight_57_eq_zero_iff t).1 h)

/-- Bit 1 of a target raises cause 0, where cause 1 is not raised. -/
theorem transferCause_odd {t : Word} (h : t.extractLsb' 57 7 = 0) (h1 : t.getLsbD 1 = true) : transferCause t = some 0 := by
  rw [transferCause, if_neg (not_not.2 ((shiftRight_57_eq_zero_iff t).2 h)), h1]
  rfl

/-! ### Taken transfers and branches (R64) -/

section
variable {i : Instr} {s : State} {t : Word}

/-- An instruction that transfers control to a good target jumps there. -/
theorem jumpsTo_of_transfer {rd : Reg} (h : exec i s = s.transfer t (some rd)) (good : GoodTarget t) :
    JumpsTo i s rd (s.hart.pc + 4) (pcOf t) := by
  rcases State.transfer_spec s t rd with ⟨c, hc, -⟩ | ⟨-, u, hu, jumped⟩
  · rw [transferCause_good good] at hc
    exact nomatch hc
  · exact ⟨u, h.trans hu, jumped⟩

/-- An instruction that transfers control to a target that raises a cause traps, with the target in xtval. -/
theorem traps_of_transfer {r : Option Reg} {c : Nat} (h : exec i s = s.transfer t r) (hc : transferCause t = some c) : Traps i s c t := by
  simp only [Traps, h, State.transfer, hc]
  rfl

/-- x0 holds no link. -/
theorem jumpsTo_zero {link link' target : Word} (h : JumpsTo i s 0 link target) : JumpsTo i s 0 link' target := by
  obtain ⟨u, hu, jumped⟩ := h
  exact ⟨u, hu, { jumped with result := jumped.result }⟩

/-- `State.branch` of a condition that does not hold falls through. -/
theorem justRetires_of_branch {imm : BitVec 12} (h : exec i s = s.branch false imm) : JustRetires i s :=
  ⟨s.advance, h, State.advance_spec s⟩

end

/-- The branches and their conditions (Table 04-5). -/
def branches (s : State) (rs1 rs2 : Reg) (imm : BitVec 12) : List (Instr × Bool) :=
  let a := s.x rs1
  let b := s.x rs2
  [(.beq rs1 rs2 imm, decide (a = b)), (.bne rs1 rs2 imm, decide (a ≠ b)), (.blt rs1 rs2 imm, decide (a.toInt < b.toInt)),
    (.bge rs1 rs2 imm, decide (b.toInt ≤ a.toInt)), (.bltu rs1 rs2 imm, decide (a.toNat < b.toNat)),
    (.bgeu rs1 rs2 imm, decide (b.toNat ≤ a.toNat))]

/-- Each of them is `State.branch` of its condition. -/
theorem exec_branch {s : State} {rs1 rs2 : Reg} {imm : BitVec 12} {i : Instr} {c : Bool} (h : (i, c) ∈ branches s rs1 rs2 imm) :
    exec i s = s.branch c imm := by
  have ne : (s.x rs1 != s.x rs2) = decide (s.x rs1 ≠ s.x rs2) := decide_not.symm
  have sge : (!(s.x rs1).slt (s.x rs2)) = decide ((s.x rs2).toInt ≤ (s.x rs1).toInt) := by
    rw [BitVec.slt, ← decide_not, decide_eq_decide, Int.not_lt]
  have uge : (!(s.x rs1).ult (s.x rs2)) = decide ((s.x rs2).toNat ≤ (s.x rs1).toNat) := by
    rw [BitVec.ult, ← decide_not, decide_eq_decide, Nat.not_lt]
  simp only [branches, List.mem_cons, Prod.mk.injEq, List.not_mem_nil, or_false] at h
  rcases h with ⟨rfl, rfl⟩ | ⟨rfl, rfl⟩ | ⟨rfl, rfl⟩ | ⟨rfl, rfl⟩ | ⟨rfl, rfl⟩ | ⟨rfl, rfl⟩
  case inl => rfl
  case inr.inl => exact ne ▸ rfl
  case inr.inr.inl => rfl
  case inr.inr.inr.inl => exact sge ▸ rfl
  case inr.inr.inr.inr.inl => rfl
  case inr.inr.inr.inr.inr => exact uge ▸ rfl

/-- A branch whose condition holds is a transfer without a link. -/
theorem exec_branch_taken {s : State} {rs1 rs2 : Reg} {imm : BitVec 12} {i : Instr} (h : (i, true) ∈ branches s rs1 rs2 imm) :
    exec i s = s.transfer (s.hart.pc + (imm ++ 0#1).signExtend 64) (some 0) :=
  (exec_branch h).trans (State.transfer_none s _)

end Sys2Proof.Machine

namespace Sys2Proof.Proofs
open Sys2Proof Sys2Proof.Machine Sys2Proof.Safety

/-- Settles O5: a branch is `State.branch` of its condition (`exec_branch`), and a taken transfer goes by its target. -/
theorem controlTransfer : Obligations.ControlTransfer := by
  intro s rd rs1 rs2 imm imm20 a b bt jt rt
  refine ⟨fun c i h => ⟨?falls, ?taken⟩, jumpsTo_of_transfer rfl, jumpsTo_of_transfer rfl, fun i c t h => ?trap⟩
  case falls =>
    rintro rfl
    exact justRetires_of_branch (exec_branch h)
  case taken =>
    rintro rfl good
    exact jumpsTo_zero (jumpsTo_of_transfer (exec_branch_taken h) good)
  case trap =>
    have transfers (hc : c = true) : ∃ r, exec i s = s.transfer t (some r) := by
      change (i, c, t) ∈ (branches s rs1 rs2 imm).map (fun e => (e.1, e.2, bt)) ++ [(.jal rd imm20, true, jt), (.jalr rd rs1 imm, true, rt)] at h
      simp only [List.mem_append, List.mem_map, List.mem_cons, Prod.mk.injEq, List.not_mem_nil, or_false] at h
      rcases h with ⟨⟨j, c⟩, he, rfl, rfl, rfl⟩ | ⟨rfl, -, rfl⟩ | ⟨rfl, -, rfl⟩
      · obtain rfl : c = true := hc
        exact ⟨0, exec_branch_taken he⟩
      · exact ⟨rd, rfl⟩
      · exact ⟨rd, rfl⟩
    refine ⟨fun hc high => ?_, fun hc low odd => ?_⟩ <;> obtain ⟨r, hr⟩ := transfers hc
    · exact traps_of_transfer hr (transferCause_high high)
    · exact traps_of_transfer hr (transferCause_odd low odd)

end Sys2Proof.Proofs
end

section
/-! SUPPORT and settles O22. Waiting for an interrupt and waking (R76, R182, Table 22-2). -/

namespace Sys2Proof.Machine
open Sys2Proof.Safety

/-- An interrupt of a mode at or above the hart's. -/
theorem modeLevel_le_target (x : Hart) (n : Nat) : modeLevel x.mode ≤ modeLevel (interruptTarget n) ↔ n ∈ [3, 7, 11] ∨ x.mode ≠ .m := by
  unfold interruptTarget
  by_cases h : n = 3 ∨ n = 7 ∨ n = 11
  · cases x.mode <;> simp [h, modeLevel]
  · cases x.mode <;> simp [h, modeLevel]

/-- An interrupt that `wfi` completes for (R76). -/
theorem State.wfiInterrupt_iff (s : State) (h : Nat) (x : Hart) : s.wfiInterrupt h x = true ↔
    ∃ n ∈ [11, 3, 7, 9, 1, 5, 17, 16], x.csr.mie.getLsbD n = true ∧ s.mipBit h x n = true ∧ (n ∈ [3, 7, 11] ∨ x.mode ≠ .m) := by
  have enabled (n : Nat) : (x.csr.mie.getLsbD n && decide (modeLevel x.mode ≤ modeLevel (interruptTarget n)) && s.mipBit h x n) = true
      ↔ x.csr.mie.getLsbD n = true ∧ s.mipBit h x n = true ∧ (n ∈ [3, 7, 11] ∨ x.mode ≠ .m) := by
    rw [Bool.and_eq_true, Bool.and_eq_true, decide_eq_true_iff, modeLevel_le_target, and_assoc, and_comm (a := _ ∨ _)]
  unfold State.wfiInterrupt
  by_cases none : x.csr.mie = 0
  · simp [none]
  · simp only [if_neg none, interruptOrder, List.any_eq_true, enabled]

/-- The own inbox is non-empty. -/
theorem State.inboxFull_iff (s : State) (h : Nat) : s.inboxFull h = true ↔ ((s.core (h / 4)).queue (h % 4)).entries ≠ [] := by
  rw [State.inboxFull, Bool.not_eq_true', List.isEmpty_eq_false_iff]
  rfl

/-- What `wake` gives the hart: a `wfi` is complete, another instruction is executed again. -/
def Hart.woken (x : Hart) (w : Wake) : Hart :=
  match w with
  | .interrupt => { (x.retire 0 none).settle with blocked := none }
  | _ => { x with blocked := none }

/-- An instruction other than `wfi` is only no longer waiting. -/
theorem Hart.woken_of_ne (x : Hart) {w : Wake} (h : w ≠ .interrupt) : x.woken w = { x with blocked := none } := by
  unfold Hart.woken
  split
  · exact absurd rfl h
  · rfl

/-- No hart waits once it is woken. -/
theorem Hart.woken_blocked (x : Hart) (w : Wake) : (x.woken w).blocked = none := by
  unfold Hart.woken
  split <;> rfl

/-- `wake` of a hart whose wake condition holds. -/
theorem exec_wake {s : State} {h : Nat} {w : Wake} (waits : (s.getHart h).blocked = some w) (holds : s.wakes h (s.getHart h) w = true) :
    exec (.wake h) s = .next (s.setHart h ((s.getHart h).woken w)) := by
  change execWake h s = _
  unfold execWake
  dsimp only
  rw [waits]
  cases w <;> exact congrArg Host.Outcome.next (if_pos holds)

end Sys2Proof.Machine

namespace Sys2Proof.Proofs
open Sys2Proof Sys2Proof.Machine Sys2Proof.Safety

/-- Settles O22: `wfi` tests what R76 says, and `wake` gives the hart `Hart.woken`. -/
theorem waitAndWake : Obligations.WaitAndWake := by
  refine ⟨fun s => ?_, fun s h w waits holds => ?_⟩
  · intro ready
    have test : (s.wfiInterrupt s.hid s.hart || s.inboxFull s.hid) = true ↔ ready := by
      rw [Bool.or_eq_true, State.wfiInterrupt_iff, State.inboxFull_iff]
    exact ⟨fun r => ⟨s.advance, if_pos (test.2 r), State.advance_spec s⟩, fun r => if_neg (mt test.1 r)⟩
  · refine ⟨_, exec_wake waits holds, ?_, fun k hk => ?_, ?_, ?_⟩
    · rw [State.getHart_setHart, if_pos rfl, Hart.woken_blocked]
    · rw [State.getHart_setHart, if_neg hk]
    · rintro rfl
      rw [State.getHart_setHart, if_pos rfl]
      exact (Hart.retire_settle (s.getHart h) 0).1.pc
    · intro other
      rw [State.getHart_setHart, if_pos rfl, Hart.woken_of_ne _ other]

end Sys2Proof.Proofs
end

section
/-! SUPPORT. Little-endian bytes (R8, R66): what a value's bytes are, and what value some bytes have. -/

namespace Sys2Proof.Machine
open Sys2Proof.Safety

/-- The bytes of a value are as many as are asked for. -/
@[simp] theorem bytesOfNat_length (n v : Nat) : (bytesOfNat n v).length = n := by
  induction n generalizing v with
  | zero => rfl
  | succ n ih => rw [bytesOfNat, List.length_cons, ih]

/-- The same of a word's low bytes. -/
@[simp] theorem lowBytes_length (n : Nat) (w : Word) : (lowBytes n w).length = n := bytesOfNat_length n w.toNat

/-- One byte of a value. -/
theorem bytesOfNat_getD {n k : Nat} (hk : k < n) (v : Nat) : (bytesOfNat n v).getD k 0 = BitVec.ofNat 8 (v / 2 ^ (8 * k)) := by
  induction n generalizing k v with
  | zero => omega
  | succ n ih =>
    cases k with
    | zero => simp [bytesOfNat]
    | succ k =>
      rw [bytesOfNat, List.getD_cons_succ, ih (by omega), Nat.div_div_eq_div_mul, Nat.mul_succ, Nat.add_comm, Nat.pow_add]

/-- One of the low bytes of a word. -/
theorem lowBytes_getD {n k : Nat} (hk : k < n) (w : Word) : (lowBytes n w).getD k 0 = byteOf w k := by
  rw [lowBytes, bytesOfNat_getD hk]
  apply BitVec.eq_of_toNat_eq
  rw [byteOf, BitVec.extractLsb'_toNat, BitVec.toNat_ofNat, Nat.shiftRight_eq_div_pow]

/-- The bytes of a value of at most 64 bits are those of the word it extends to. -/
theorem bytesOfNat_toNat {n : Nat} (hn : 8 * n ≤ 64) (r : BitVec (8 * n)) : bytesOfNat n r.toNat = lowBytes n (r.setWidth 64) := by
  have fits : r.toNat < 2 ^ 64 := Nat.lt_of_lt_of_le r.isLt (Nat.pow_le_pow_right (by decide) hn)
  rw [lowBytes, BitVec.toNat_setWidth, Nat.mod_eq_of_lt fits]

/-- The value of some bytes is below the power of two of their bits. -/
theorem natOfBytes_lt (bs : List Byte) : natOfBytes bs < 2 ^ (8 * bs.length) := by
  induction bs with
  | nil => decide
  | cons b t ih =>
    have := b.isLt
    rw [natOfBytes, List.length_cons, Nat.mul_succ, Nat.pow_add]
    omega

/-- The value of the bytes of a value. -/
theorem natOfBytes_bytesOfNat (n v : Nat) : natOfBytes (bytesOfNat n v) = v % 2 ^ (8 * n) := by
  induction n generalizing v with
  | zero => rw [Nat.mul_zero, Nat.pow_zero, Nat.mod_one]; rfl
  | succ n ih =>
    rw [bytesOfNat, natOfBytes, ih, BitVec.toNat_ofNat, Nat.mul_succ, Nat.add_comm (8 * n), Nat.pow_add, Nat.mod_mul]

/-- Bytes extended to a word (R66). -/
theorem extend_eq {bs : List Byte} (h : bs ≠ []) (signed : Bool) : extend signed bs =
    if signed then (BitVec.ofNat (8 * bs.length) (natOfBytes bs)).signExtend 64 else BitVec.ofNat 64 (natOfBytes bs) := by
  have some : 0 < bs.length := List.length_pos_of_ne_nil h
  rw [extend, ofInt_toSigned (by omega) (natOfBytes_lt bs)]

/-- The low bytes of a word, extended. -/
theorem extend_lowBytes {n : Nat} (hn : 0 < n) (signed : Bool) (w : Word) : extend signed (lowBytes n w) =
    if signed then (w.setWidth (8 * n)).signExtend 64 else (w.setWidth (8 * n)).setWidth 64 := by
  have low : natOfBytes (lowBytes n w) = (w.setWidth (8 * n)).toNat := by
    rw [lowBytes, natOfBytes_bytesOfNat, BitVec.toNat_setWidth]
  have some : lowBytes n w ≠ [] := List.ne_nil_of_length_pos (by rw [lowBytes_length]; exact hn)
  rw [extend_eq some, low, lowBytes_length, BitVec.ofNat_toNat, BitVec.ofNat_toNat, BitVec.setWidth_eq]

/-- The low bytes of a word as a word. -/
theorem ofNat_lowBytes (n : Nat) (w : Word) : BitVec.ofNat 64 (natOfBytes (lowBytes n w)) = (w.setWidth (8 * n)).setWidth 64 := by
  rw [lowBytes, natOfBytes_bytesOfNat, ← BitVec.toNat_setWidth, BitVec.ofNat_toNat]

/-! ### Bytes as a hart sees them (R66, R159) -/

/-- The bytes of a view, one by one. -/
theorem viewBytes_eq (p m : List Host.Cell) (a n : Nat) : viewBytes p m a n = (List.range n).map (fun k => pendingGet p m (a + k)) := by
  induction n generalizing a with
  | zero => rfl
  | succ n ih =>
    rw [viewBytes, ih, List.range_succ_eq_map, List.map_cons, List.map_map]
    exact congrArg (List.cons _) (List.map_congr_left fun k _ => by
      simp only [Function.comp_apply, Nat.succ_eq_add_one, Nat.add_right_comm _ 1, Nat.add_assoc])

/-- The bytes of a place that lies in memory as it is. -/
theorem readOver_plain (s : State) (other : List Host.Cell) {p : Place} (plain : p.meta_ = none) (n : Nat) :
    s.readOver other p n = (List.range n).map (fun k => pendingGet other s.mem (p.key + k)) := by
  rw [State.readOver, plain]
  exact viewBytes_eq ..

/-- The value of `n` bytes that the hart sees. -/
theorem extend_readPlace (s : State) {p : Place} (plain : p.meta_ = none) {n : Nat} (hn : 0 < n) (signed : Bool) :
    extend signed (s.readPlace p n) = valueSeen s p.key n signed := by
  have bytes : s.readPlace p n = (List.range n).map (fun k => byteSeen s (p.key + k)) := readOver_plain s _ plain n
  have some : s.readPlace p n ≠ [] := List.ne_nil_of_length_pos (by rw [bytes, List.length_map, List.length_range]; exact hn)
  rw [extend_eq some, bytes, List.length_map, List.length_range]
  rfl

end Sys2Proof.Machine
end

section
/-! SUPPORT. What reaching memory leaves alone (R157 to R166): the harts but for pending stores of the hart in focus, and, where no store
is encoded or counted, all but memory. -/

namespace Sys2Proof.Machine
open Sys2Proof.Safety

/-! ### Stores that leave the buffer -/

/-- Some pending stores of the hart in focus may have left its buffer, and memory may have changed with what is kept beside it. -/
def Drains (s t : State) : Prop :=
  ∃ p, p.Sublist s.hart.pending ∧ OnlyMemory { s with hart := { s.hart with pending := p } } t

/-- A change of memory alone. -/
theorem drains_of_only {s t : State} (h : OnlyMemory s t) : Drains s t := ⟨s.hart.pending, .refl _, h⟩

/-- Nothing changed. -/
theorem Drains.refl (s : State) : Drains s s := drains_of_only rfl

/-- What a drain leaves of the hart in focus, and of the rest. -/
theorem Drains.keeps {s t : State} (h : Drains s t) : t.hid = s.hid ∧ t.others = s.others ∧ t.purging = s.purging ∧ t.engines = s.engines
    ∧ t.hart.pending.Sublist s.hart.pending ∧ { t.hart with pending := s.hart.pending } = s.hart := by
  obtain ⟨p, hp, h⟩ := h
  obtain ⟨hid, hart, others, purging⟩ := onlyMemory_harts h
  have engines := congrArg State.engines h
  rw [hart]
  exact ⟨hid, others, purging, engines, hp, rfl⟩

/-- One drain after another. -/
theorem Drains.trans {s t u : State} (h : Drains s t) (k : Drains t u) : Drains s u := by
  obtain ⟨p, hp, h⟩ := h
  obtain ⟨q, hq, k⟩ := k
  have hart : t.hart = { s.hart with pending := p } := (onlyMemory_harts h).2.1
  rw [hart] at hq k
  have step : OnlyMemory { s with hart := { s.hart with pending := q } } { t with hart := { s.hart with pending := q } } := by
    unfold OnlyMemory at h ⊢
    exact congrArg (fun v : State => { v with hart := { s.hart with pending := q } }) h
  exact ⟨q, hq.trans hp, onlyMemory_trans step k⟩

/-- What the harts see may have changed, and some pending stores of the hart in focus left its buffer: harts, their registers and
whatever they wait for are as before. -/
structure KeepsHarts (s t : State) : Prop where
  hid : t.hid = s.hid
  others : t.others = s.others
  pending : t.hart.pending.Sublist s.hart.pending
  hart : { t.hart with pending := s.hart.pending } = s.hart

/-- A drain keeps the harts. -/
theorem Drains.keepsHarts {s t : State} (h : Drains s t) : KeepsHarts s t :=
  let ⟨hid, others, _, _, pending, hart⟩ := h.keeps
  ⟨hid, others, pending, hart⟩

/-- A change of memory alone keeps the harts. -/
theorem keepsHarts_of_only {s t : State} (h : OnlyMemory s t) : KeepsHarts s t := (drains_of_only h).keepsHarts

/-- The harts as they were keep. -/
theorem keepsHarts_of_eq {s t : State} (hid : t.hid = s.hid) (others : t.others = s.others) (hart : t.hart = s.hart) : KeepsHarts s t :=
  ⟨hid, others, by rw [hart], by rw [hart]⟩

/-- Nothing changed. -/
theorem KeepsHarts.refl (s : State) : KeepsHarts s s := keepsHarts_of_eq rfl rfl rfl

/-- One such change after another. -/
theorem KeepsHarts.trans {s t u : State} (h : KeepsHarts s t) (k : KeepsHarts t u) : KeepsHarts s u where
  hid := k.hid.trans h.hid
  others := k.others.trans h.others
  pending := k.pending.trans h.pending
  hart := (congrArg (fun x : Hart => { x with pending := s.hart.pending }) k.hart).trans h.hart

/-- A fold whose every step keeps the harts. -/
theorem keepsHarts_foldl {α : Type} (f : State → α → State) (step : ∀ s a, KeepsHarts s (f s a)) (l : List α) (s : State) :
    KeepsHarts s (l.foldl f s) := by
  induction l generalizing s with
  | nil => exact .refl s
  | cons a l ih => exact (step s a).trans (ih _)

/-! ### Instructions that reach memory -/

/-- An instruction that has reached memory, and then writes x[rd] and retires. -/
theorem memRetired_of {s t : State} (hid : t.hid = s.hid) (others : t.others = s.others)
    (hart : { t.hart with pending := s.hart.pending } = s.hart) (rd : Reg) (w : Word) : MemRetired s (t.setX rd w).advance rd w := by
  obtain ⟨u, hu, wrote⟩ := State.writeRd_spec t rd w
  obtain rfl : (t.setX rd w).advance = u := Host.Outcome.next.inj hu
  have x : t.hart.x = s.hart.x := congrArg (·.x) hart
  have reg (r : Reg) : t.x r = s.x r := by rw [State.x, State.x, x]
  have final (r : VReg) : t.hart.finalV r = s.hart.finalV r := congrArg (·.finalV r) hart
  have pc : t.hart.pc = s.hart.pc := congrArg (·.pc) hart
  have csr : t.hart.csr = s.hart.csr := congrArg (·.csr) hart
  have steps : t.hart.steps = s.hart.steps := congrArg (·.steps) hart
  obtain ⟨rpc, rrep, rins, rsteps⟩ := wrote.retired
  rw [pc, csr] at rpc
  rw [pc, csr] at rrep
  rw [csr] at rins
  rw [steps] at rsteps
  refine ⟨⟨wrote.result, fun r hr => (wrote.others r hr).trans (reg r), ⟨rpc, rrep, rins, rsteps⟩,
    fun r => (wrote.vectors r).trans (final r), ?_, ?_, (State.setX_hid t rd w).trans hid⟩, (State.setX_others t rd w).trans others⟩
  · have csrs := wrote.csrs
    rw [SameCsrs, csr] at csrs
    exact csrs
  · have shell := congrArg (fun k : Hart => { k with
      pc := s.hart.pc, x := s.hart.x, v := s.hart.v, csr := s.hart.csr, steps := s.hart.steps, inflight := s.hart.inflight
      pending := s.hart.pending, late := s.hart.late }) wrote.shell
    have put := congrArg (fun k : Hart => { k with
      pc := s.hart.pc, x := s.hart.x, v := s.hart.v, csr := s.hart.csr, steps := s.hart.steps, inflight := s.hart.inflight
      late := s.hart.late }) hart
    exact shell.trans put

/-- The same with nothing written. -/
theorem memRetired_advance {s t : State} (hid : t.hid = s.hid) (others : t.others = s.others)
    (hart : { t.hart with pending := s.hart.pending } = s.hart) : MemRetired s t.advance 0 0 := by
  have retired := memRetired_of hid others hart 0 0
  rw [State.setX_zero] at retired
  exact retired

/-- An instruction that keeps the harts, and then writes x[rd] and retires. -/
theorem KeepsHarts.memRetired {s t : State} (h : KeepsHarts s t) (rd : Reg) (w : Word) : MemRetired s (t.setX rd w).advance rd w :=
  memRetired_of h.hid h.others h.hart rd w

/-- The same with nothing written. -/
theorem KeepsHarts.memRetired_advance {s t : State} (h : KeepsHarts s t) : MemRetired s t.advance 0 0 :=
  Machine.memRetired_advance h.hid h.others h.hart

/-- Retiring leaves the pending stores. -/
theorem State.advance_pending (s : State) : s.advance.hart.pending = s.hart.pending :=
  congrArg (·.pending) (State.advance_spec s).shell

/-- A write of x[rd] leaves the pending stores. -/
theorem State.setX_pending (s : State) (rd : Reg) (w : Word) : (s.setX rd w).hart.pending = s.hart.pending := by
  unfold State.setX
  split <;> rfl

/-! ### Views that stay -/

/-- Everything that a view of the hart in focus is made of is as before. -/
structure SameView (s t : State) : Prop where
  hid : t.hid = s.hid
  pending : t.hart.pending = s.hart.pending
  mem : t.mem = s.mem
  stale : t.stale = s.stale
  lines : t.lines = s.lines

/-- One such change after another. -/
theorem SameView.trans {s t u : State} (h : SameView s t) (k : SameView t u) : SameView s u :=
  ⟨k.hid.trans h.hid, k.pending.trans h.pending, k.mem.trans h.mem, k.stale.trans h.stale, k.lines.trans h.lines⟩

/-- The hart sees what it saw. -/
theorem SameView.seen {s t : State} (h : SameView s t) (a : Nat) : byteSeen t a = byteSeen s a := by
  obtain ⟨hid, pending, mem, stale, lines⟩ := h
  simp only [byteSeen, State.copies, State.hartCopies, State.agentCells, hid, pending, mem, stale, lines]

/-- What an agent owes stays. -/
theorem SameView.owed {s t : State} (h : SameView s t) (k : Option Nat) : owedCells t k = owedCells s k := by
  simp only [owedCells, State.agentCells, State.dirtyCells, h.lines]

/-- The bytes at its homes stay. -/
theorem SameView.home {s t : State} (h : SameView s t) (near : Bool) (a : Nat) : homeByte t near a = homeByte s near a := by
  obtain ⟨hid, pending, mem, stale, lines⟩ := h
  simp only [homeByte, homeCells, owedCells, State.agentCells, State.dirtyCells, hid, pending, mem, lines]

/-- Retiring leaves every view as it is. -/
theorem sameView_retire (s : State) (rd : Reg) (w : Word) : SameView s (s.setX rd w).advance :=
  ⟨State.setX_hid s rd w, (State.advance_pending _).trans (State.setX_pending s rd w), State.setX_mem s rd w, State.setX_stale s rd w,
    State.setX_lines s rd w⟩

/-- The same with nothing written. -/
theorem sameView_advance (s : State) : SameView s s.advance := ⟨rfl, State.advance_pending s, rfl, rfl, rfl⟩

end Sys2Proof.Machine
end

section
/-! SUPPORT. Each operation on memory keeps the harts (R157 to R166, R173, R256 to R258): drains change memory alone. -/

namespace Sys2Proof.Machine
open Sys2Proof.Safety

/-! ### Drains and opens -/

/-- Stores that leave the buffer of a hart change memory alone. -/
theorem State.drainOwn_only (s : State) (h : Nat) (p : List Host.Cell) : OnlyMemory s (s.drainOwn h p) := by
  unfold State.drainOwn
  split
  · exact (State.agentPuts_spec s _ h p).1
  · exact onlyMemory_trans (State.drainList_only s (some h) p) rfl

/-- An agent's write-back changes memory alone. -/
theorem State.writeBack_only (s : State) (k : Nat) (f : Nat → Bool) : OnlyMemory s (s.writeBack k f) := by
  unfold State.writeBack
  extract_lets go t
  have stores : OnlyMemory s t := State.drainList_only s none go
  cases go
  · rfl
  · exact onlyMemory_trans stores rfl

/-- `State.drainSome` of the hart in focus. -/
theorem State.drainSome_drains (s : State) (f : Nat → Bool) : Drains s (s.drainSome s.hid f) := by
  unfold State.drainSome
  rw [State.getHart_hid]
  simp only [partition_filter s.hart.pending (fun n => f n && !s.heldByte n)]
  split
  · exact .refl s
  · rw [State.setHart_hid]
    exact ⟨_, List.filter_sublist, State.drainOwn_only _ s.hid _⟩

/-- Publish at core or group scope. -/
theorem State.publishNear_drains (s : State) : Drains s (s.publishNear s.hid) := State.drainSome_drains s _

/-- Publish at device or system scope. -/
theorem State.publish_drains (s : State) : Drains s s.publish := by
  unfold State.publish State.publishHart
  extract_lets t
  have near : Drains s t := State.publishNear_drains s
  split
  · exact near.trans (drains_of_only (State.writeBack_only t _ _))
  · exact near

/-- Publish at a scope. -/
theorem State.publishAt_drains (s : State) (near : Bool) : Drains s (s.publishAt near) := by
  cases near
  · exact State.publish_drains s
  · exact State.publishNear_drains s

/-- The stores of a range settled. -/
theorem State.settleRange_drains (s : State) (lo hi : Nat) : Drains s (s.settleRange s.hid lo hi) := by
  unfold State.settleRange
  extract_lets t
  have range : Drains s t := State.drainSome_drains s _
  split
  · exact range.trans (drains_of_only (State.writeBack_only t _ _))
  · exact range

/-- An open changes memory alone. -/
theorem State.openAt_only (s : State) (near : Bool) : OnlyMemory s (s.openAt near) := (State.openAt_seen s near).1

/-- A line recalled changes memory alone (R165). -/
theorem State.recallLine_only (s : State) (own : Option Nat) (key : Nat) : OnlyMemory s (s.recallLine own key) := by
  unfold State.recallLine
  extract_lets ks
  generalize ks = l
  induction l generalizing s with
  | nil => rfl
  | cons k l ih =>
    rw [List.foldl_cons]
    exact onlyMemory_trans (onlyMemory_trans (State.writeBack_only s k _) (State.dropLines_spec _ k _ _).1) (ih _)

/-- A hart's own store at its site changes memory alone. -/
theorem State.storeOwn_only (s : State) (a : Nat) (bs : List Byte) : OnlyMemory s (s.storeOwn a bs) :=
  onlyMemory_trans (State.storeBy_only s (some s.hid) a bs) rfl

/-- A strong access that comes to its home (R173). -/
theorem State.atHome_drains (s : State) (near : Bool) (p : Place) (n : Nat) : Drains s (s.atHome near p n) := by
  unfold State.atHome
  extract_lets lo hi t
  split
  · exact .refl s
  · split
    · have range : Drains s t := State.drainSome_drains s _
      exact range.trans (drains_of_only rfl)
    · have settled := State.settleRange_drains s lo hi
      have recalled := drains_of_only (State.recallLine_only (s.settleRange s.hid lo hi) (agentOf s.hid) p.key)
      have hid : ((s.settleRange s.hid lo hi).recallLine (agentOf s.hid) p.key).hid = s.hid := (settled.trans recalled).keeps.1
      have fresh := (State.freshen_seen ((s.settleRange s.hid lo hi).recallLine (agentOf s.hid) p.key) p.key n).1
      rw [hid] at fresh
      exact (settled.trans recalled).trans (drains_of_only fresh)

/-! ### Writes -/

/-- One sector of a compressed block written (R256, R258). -/
theorem storeSector_keeps (cmp base : Nat) (block : List Byte) (s : State) (j : Nat) : KeepsHarts s (storeSector cmp base block s j) := by
  unfold storeSector
  extract_lets bs at_ dirty
  split
  · split <;> exact keepsHarts_of_eq rfl rfl rfl
  · split <;> exact keepsHarts_of_eq rfl rfl rfl

/-- The frame of a sector laid (R258). -/
theorem layRaw_keeps (base : Nat) (s : State) (j : Nat) : KeepsHarts s (layRaw base s j) := by
  unfold layRaw
  split <;> exact keepsHarts_of_eq rfl rfl rfl

/-- A compressed write keeps the harts (R256 to R258). -/
theorem storeCompressed_keeps (s : State) (h : Option Nat) (p : Place) (bs : List Byte) : KeepsHarts s (storeCompressed s h p bs) := by
  unfold storeCompressed
  extract_lets base cmp old block t mask laid stored mask' coded
  split
  · exact (keepsHarts_of_only (State.storeBy_only s h base _)).trans (keepsHarts_of_eq rfl rfl rfl)
  · have older : KeepsHarts s (keepOlder h old base (p.key % 256) bs.length s) := by
      unfold keepOlder
      refine keepsHarts_foldl _ (fun t i => ?_) _ s
      exact keepsHarts_of_eq rfl rfl rfl
    have laid_ : KeepsHarts s laid := older.trans (keepsHarts_foldl _ (layRaw_keeps base) _ _)
    have coded_ : KeepsHarts s coded :=
      (laid_.trans (keepsHarts_foldl _ (storeSector_keeps cmp base block) _ _)).trans (keepsHarts_of_eq rfl rfl rfl)
    split
    · exact coded_.trans (keepsHarts_of_only (State.storeBy_only coded none _ _))
    · exact coded_

/-- A store performed at once (R165, R173). -/
theorem State.writeNow_keeps (s : State) (p : Place) (bs : List Byte) : KeepsHarts s (s.writeNow p bs) := by
  unfold State.writeNow
  split
  · exact ((State.settleRange_drains s _ _).keepsHarts.trans (storeCompressed_keeps _ _ p bs)).trans (keepsHarts_of_eq rfl rfl rfl)
  · exact ((State.settleRange_drains s _ _).trans (drains_of_only (State.storeOwn_only _ _ _))).keepsHarts

/-- The key and the hash that a write of a context notes (R409, R427). -/
theorem State.noteKey_eq (s : State) (ctx : BitVec 16) (va key : Nat) : ∃ e c, s.noteKey ctx va key = { s with encrypted := e, contexts := c } := by
  unfold State.noteKey
  split
  · exact ⟨_, _, rfl⟩
  · extract_lets t line
    have marked : ∃ e, t = { s with encrypted := e } := by
      unfold t
      split <;> exact ⟨_, rfl⟩
    obtain ⟨e, he⟩ := marked
    rw [he]
    split
    · exact ⟨e, _, rfl⟩
    · exact ⟨e, _, rfl⟩

/-- The bytes counted for CXL (R281, R290). -/
theorem State.chargeBlanket_eq (s : State) (p : Place) (n : Nat) : ∃ c, s.chargeBlanket p n = { s with contexts := c } := by
  unfold State.chargeBlanket State.chargeCxl
  split
  · exact ⟨_, rfl⟩
  · exact ⟨s.contexts, rfl⟩

/-- DIRTY set (R231). -/
theorem State.setDirty_eq (s : State) (party : Option Party) (key : Nat) : ∃ c, s.setDirty party key = { s with cores := c } := by
  unfold State.setDirty
  split
  · exact ⟨s.cores, rfl⟩
  · extract_lets off
    split
    · exact ⟨s.cores, rfl⟩
    · extract_lets slot
      split
      · exact ⟨_, rfl⟩
      · exact ⟨s.cores, rfl⟩

end Sys2Proof.Machine
end

section
/-! SUPPORT. What the checks of an access may change (Tables 04-7 and 06-4, R253, R261): the data TLB of the own core and what a walk
leaves cached. -/

namespace Sys2Proof.Machine
open Sys2Proof.Safety

/-- Nothing changed. -/
theorem onlyTlb_refl (s : State) : OnlyTlb s s := ⟨rfl, rfl, fun _ => rfl⟩

/-- One translation after another. -/
theorem onlyTlb_trans {s t u : State} (h : OnlyTlb s t) (k : OnlyTlb t u) : OnlyTlb s u where
  hart := k.hart.trans h.hart
  device := (congrArg (fun v : State => { v with cores := s.cores, walks := s.walks, ctxPages := s.ctxPages }) k.device).trans h.device
  cores c := (congrArg (fun x : Core => { x with dtlb := (s.core c).dtlb }) (k.cores c)).trans (h.cores c)

/-- A data TLB put back. -/
theorem onlyTlb_setTlb (s : State) (c : Nat) (l : List TlbEntry) : OnlyTlb s (s.setTlb (.data c) l) where
  hart := rfl
  device := rfl
  cores j := by
    rw [State.setTlb, State.core_setCore]
    split
    next h => rw [h]
    next => rfl

/-- A walk that succeeded, noted (R253, R261). -/
theorem onlyTlb_noteWalk (s : State) (die : Nat) (ctx : BitVec 16) (root : Nat) (seen : List (Nat × Word)) :
    OnlyTlb s (s.noteWalk die ctx root seen) := by
  unfold State.noteWalk State.cachePage
  extract_lets lo
  split <;> exact ⟨rfl, rfl, fun _ => rfl⟩

/-- Translating an access of a hart. -/
theorem onlyTlb_translate {s t : State} {c root va : Nat} {ctx : BitVec 16} {write : Bool} {ok : Word → Bool}
    {r : Except (WalkFail ⊕ (Nat × TlbEntry)) (TlbEntry × Nat)} (h : translate s (.data c) root ctx va write ok = (t, r)) : OnlyTlb s t := by
  unfold translate at h
  extract_lets l at h
  split at h
  · split at h
    · exact (Prod.mk.inj h).1 ▸ onlyTlb_setTlb s c _
    · split at h
      · exact (Prod.mk.inj h).1 ▸ onlyTlb_refl s
      · exact (Prod.mk.inj h).1 ▸ onlyTlb_setTlb s c _
  · split at h
    · exact (Prod.mk.inj h).1 ▸ onlyTlb_refl s
    · extract_lets bits e pa at h
      split at h
      · exact (Prod.mk.inj h).1 ▸ onlyTlb_refl s
      · extract_lets e' at h
        rw [← (Prod.mk.inj h).1]
        split
        · exact onlyTlb_trans (onlyTlb_noteWalk s _ _ _ _) (onlyTlb_setTlb _ c _)
        · exact onlyTlb_refl s

/-- Finding a metadata byte's place (R257). -/
theorem onlyTlb_metaKey {s t : State} {c root va : Nat} {ctx : BitVec 16} {mode : Mode} {write : Bool} {r : Except Nat Nat}
    (h : metaKey s (.data c) root ctx mode va write = (t, r)) : OnlyTlb s t := by
  unfold metaKey at h
  extract_lets origin base len a ok at h
  split at h
  · exact (Prod.mk.inj h).1 ▸ onlyTlb_refl s
  · split at h
    · exact (Prod.mk.inj h).1 ▸ onlyTlb_refl s
    · split at h
      · exact (Prod.mk.inj h).1 ▸ onlyTlb_refl s
      · split at h
        next walked => exact (Prod.mk.inj h).1 ▸ onlyTlb_translate walked
        next walked => exact (Prod.mk.inj h).1 ▸ onlyTlb_translate walked
        next walked => split at h <;> exact (Prod.mk.inj h).1 ▸ onlyTlb_translate walked

/-- The metadata byte's place where a leaf asks for one. -/
theorem onlyTlb_metaFor {s t : State} {c root va : Nat} {ctx : BitVec 16} {mode : Mode} {p : Word} {write : Bool}
    {r : Except Nat (Option Nat)} (h : metaFor s (.data c) root ctx mode p va write = (t, r)) : OnlyTlb s t := by
  unfold metaFor at h
  split at h
  · exact (Prod.mk.inj h).1 ▸ onlyTlb_refl s
  · split at h
    next found => exact (Prod.mk.inj h).1 ▸ onlyTlb_metaKey found
    next found => exact (Prod.mk.inj h).1 ▸ onlyTlb_metaKey found

/-- The checks of an S- or U-mode access. -/
theorem onlyTlb_checkVirtual {s t : State} {k : Acc} {a n : Nat} {fmt : Bool} {r : Except Nat Place}
    (h : checkVirtual s k a n fmt = (t, r)) : OnlyTlb s t := by
  unfold checkVirtual at h
  extract_lets page need mode tlb root ctx at h
  split at h
  · exact (Prod.mk.inj h).1 ▸ onlyTlb_refl s
  · split at h
    next walked => exact (Prod.mk.inj h).1 ▸ onlyTlb_translate walked
    next walked =>
      have moved := onlyTlb_translate walked
      repeat' split at h
      all_goals exact (Prod.mk.inj h).1 ▸ moved
    next u e r walked =>
      have moved := onlyTlb_translate walked
      extract_lets pa at h
      split at h
      · exact (Prod.mk.inj h).1 ▸ moved
      · split at h
        next v m found =>
        have moved := onlyTlb_trans moved (onlyTlb_metaFor found)
        repeat' split at h
        all_goals exact (Prod.mk.inj h).1 ▸ moved

/-- The checks of an access of a hart. -/
theorem onlyTlb_check {s t : State} {k : Acc} {a : Word} {n : Nat} {fmt : Bool} {r : Except Nat Place} (h : check s k a n fmt = (t, r)) :
    OnlyTlb s t := by
  unfold check at h
  extract_lets w at h
  split at h
  · split at h <;> exact (Prod.mk.inj h).1 ▸ onlyTlb_refl s
  · split at h
    · exact (Prod.mk.inj h).1 ▸ onlyTlb_refl s
    · split at h
      · exact (Prod.mk.inj h).1 ▸ onlyTlb_refl s
      · exact onlyTlb_checkVirtual h

/-! ### What the checks leave -/

section
variable {s u : State} (h : OnlyTlb s u)
include h

/-- Views stay. -/
theorem onlyTlb_sameView : SameView s u := by
  have hid := congrArg State.hid h.device
  have mem := congrArg State.mem h.device
  have stale := congrArg State.stale h.device
  have lines := congrArg State.lines h.device
  exact ⟨hid, by rw [h.hart], mem, stale, lines⟩

/-- The harts stay. -/
theorem onlyTlb_keepsHarts : KeepsHarts s u := by
  have hid := congrArg State.hid h.device
  have others := congrArg State.others h.device
  exact keepsHarts_of_eq hid others h.hart

/-- The cells being purged and the uncorrectable words stay. -/
theorem onlyTlb_purging : u.purging = s.purging ∧ u.poison = s.poison := by
  have purging := congrArg State.purging h.device
  have poison := congrArg State.poison h.device
  exact ⟨purging, poison⟩

/-- The hart's registers stay. -/
theorem onlyTlb_x (r : Reg) : u.x r = s.x r := by rw [State.x, State.x, h.hart]

/-- A Publish that may go ahead still may. -/
theorem onlyTlb_mayPublish : MayPublish u ↔ MayPublish s := by
  have view := onlyTlb_sameView h
  rw [MayPublish, MayPublish, State.publishHeld, State.publishHeld, h.hart, view.lines, view.hid]
  have held : u.heldByte = s.heldByte := funext fun a => congrArg (·.contains (a / 16 * 16)) (onlyTlb_purging h).1
  rw [held]

end

end Sys2Proof.Machine
end

section
/-! SUPPORT and settles O6. Loads (R66, R159, R383, R388). -/

namespace Sys2Proof.Machine
open Sys2Proof.Safety

/-! ### Loads of memory and of registers -/

/-- The loads, with the bytes they read and whether they extend the sign (Table 04-6). -/
def loads (rd rs1 : Reg) (imm : BitVec 12) : List (Instr × Nat × Bool) :=
  [(.lb rd rs1 imm, 1, true), (.lh rd rs1 imm, 2, true), (.lw rd rs1 imm, 4, true), (.ld rd rs1 imm, 8, true),
    (.lbu rd rs1 imm, 1, false), (.lhu rd rs1 imm, 2, false), (.lwu rd rs1 imm, 4, false)]

/-- Each of them is `State.loadAt` of at least one byte. -/
theorem exec_load {rd rs1 : Reg} {imm : BitVec 12} {i : Instr} {n : Nat} {signed : Bool} (h : (i, n, signed) ∈ loads rd rs1 imm) :
    0 < n ∧ ∀ s, exec i s = s.loadAt rd (s.x rs1 + imm.signExtend 64) n signed := by
  simp only [loads, List.mem_cons, Prod.mk.injEq, List.not_mem_nil, or_false] at h
  rcases h with ⟨rfl, rfl, rfl⟩ | ⟨rfl, rfl, rfl⟩ | ⟨rfl, rfl, rfl⟩ | ⟨rfl, rfl, rfl⟩ |
    ⟨rfl, rfl, rfl⟩ | ⟨rfl, rfl, rfl⟩ | ⟨rfl, rfl, rfl⟩
  all_goals exact ⟨by decide, fun s => rfl⟩

section
variable {s u : State} {p : Place} {rd : Reg} {a : Word} {n : Nat} {signed : Bool} (h : check s .load a n false = (u, .ok p))
include h

/-- A load of local memory reads the place and retires (R66). -/
theorem State.loadAt_local (memory : p.mmio = false) (near : p.isFar = false) : s.loadAt rd a n signed
    = .next ((u.setX rd (extend signed (u.readPlace p n))).advance.markLate rd p n signed) := by
  simp only [State.loadAt, h, memory, near, Bool.false_eq_true, if_false]

/-- A load of another device's memory or of the blanket waits for its value (R383). -/
theorem State.loadAt_far (memory : p.mmio = false) (far : p.isFar = true) :
    s.loadAt rd a n signed = u.block (.remote rd p n signed none) := by
  simp only [State.loadAt, h, memory, far, Bool.false_eq_true, if_false, if_true]

/-- A load of a register reads it (R249). -/
theorem State.loadAt_register (register : p.mmio = true) (own : u.rootPort p.key = none) :
    s.loadAt rd a n signed = u.writeRd rd (extend signed (lowBytes n (u.readRegister u.hart.mode u.hid p.key))) := by
  simp only [State.loadAt, h, register, own, if_true]
  rfl

/-- A load behind a root port waits for the port's completion (R388). -/
theorem State.loadAt_port (register : p.mmio = true) (port : u.rootPort p.key ≠ none) :
    s.loadAt rd a n signed = u.block (.pcie rd a n signed) := by
  obtain ⟨q, hq⟩ := Option.ne_none_iff_exists'.1 port
  simp only [State.loadAt, h, register, hq, if_true]

end

/-- That a load may be performed late leaves all else as it is (R159). -/
theorem State.markLate_eq (s : State) (rd : Reg) (p : Place) (n : Nat) (signed : Bool) :
    ∃ l, s.markLate rd p n signed = { s with hart := { s.hart with late := l } } := by
  unfold State.markLate
  split
  · exact ⟨s.hart.late, rfl⟩
  · exact ⟨_, rfl⟩

/-- An instruction that reaches memory retires alike when its load may be performed late. -/
theorem hartRetired_late {s t : State} {rd : Reg} {w : Word} (h : HartRetired s t rd w) (l : Option (Reg × Place × Nat × Bool)) :
    HartRetired s { t with hart := { t.hart with late := l } } rd w :=
  ⟨h.result, h.regs, ⟨h.retired.pc, h.retired.repstate, h.retired.instret, h.retired.steps⟩, h.vectors, h.csrs, h.shell, h.hid⟩

/-- What a hart sees decides the value that it sees. -/
theorem valueSeen_congr {s u : State} (h : SameView s u) (key n : Nat) (signed : Bool) :
    valueSeen u key n signed = valueSeen s key n signed := by
  simp only [valueSeen, h.seen]

/-! ### The values of remote loads (R383) -/

/-- What the completion of a wait does to the hart in focus. -/
theorem State.finishWait_spec (s : State) (rd : Reg) (w : Word) :
    let t : State := { s with hart := s.hart.finishWait rd w }
    t.x rd = (if rd = 0 then 0 else w) ∧ (∀ r, r ≠ rd → t.x r = s.x r) ∧ t.hart.blocked = none ∧ Retired s.hart t.hart 0 := by
  intro t
  obtain ⟨u, hu, wrote⟩ := State.writeRd_spec s rd w
  obtain rfl : (s.setX rd w).advance = u := Host.Outcome.next.inj hu
  have hart : t.hart = { (s.setX rd w).advance.hart with blocked := none } := by
    simp only [t, Hart.finishWait, State.setX, State.advance, State.advanceW]
    split <;> rfl
  have reg (r : Reg) : t.x r = (s.setX rd w).advance.x r := by rw [State.x, State.x, hart]
  obtain ⟨pc, repstate, instret, steps⟩ := wrote.retired
  refine ⟨(reg rd).trans wrote.result, fun r hr => (reg r).trans (wrote.others r hr), by rw [hart], ?_⟩
  rw [hart]
  exact ⟨pc, repstate, instret, steps⟩

/-- The value of a weak remote load of the hart in focus arrives. -/
theorem State.remoteArrival_weak {s : State} {p : Place} {rd : Reg} {n : Nat} {signed : Bool}
    (waits : s.hart.blocked = some (.remote rd p n signed none)) (reached : s.reaches p = true) :
    ∃ c, s.remoteArrival s.hid = { s with hart := s.hart.finishWait rd (extend signed (s.readPlace p n)), contexts := c } := by
  have focused (t : State) : t.focus t.hid = t := if_pos rfl
  obtain ⟨c, charged⟩ := State.chargeBlanket_eq { s with hart := s.hart.finishWait rd (extend signed (s.readPlace p n)) } p n
  unfold State.remoteArrival
  simp only [State.getHart_hid, waits, reached, if_true, focused, State.remoteValue, charged]
  exact ⟨c, rfl⟩

end Sys2Proof.Machine

namespace Sys2Proof.Proofs
open Sys2Proof Sys2Proof.Machine Sys2Proof.Safety

/-- Settles O6: a load is `State.loadAt` by the place that its checks give, and an arrival completes the wait. -/
theorem loadsComplete : Obligations.LoadsComplete := by
  refine ⟨fun s u p rd rs1 imm i n signed mem => ?_, fun s p rd n signed size waits reached plain => ?_⟩
  · intro a h
    obtain ⟨bytes, run⟩ := exec_load mem
    have only := onlyTlb_check h
    have view := onlyTlb_sameView only
    refine ⟨only, fun memory near => ?_, fun memory far => (run s).trans (State.loadAt_far h memory far),
      fun register own => ?_, fun register port => (run s).trans (State.loadAt_port h register port)⟩
    · obtain ⟨l, late⟩ := State.markLate_eq (u.setX rd (extend signed (u.readPlace p n))).advance rd p n signed
      refine ⟨_, _, ((run s).trans (State.loadAt_local h memory near)).trans (congrArg _ late),
        hartRetired_late ((KeepsHarts.refl u).memRetired rd _).1 l, ?_, ?_, fun plain => ?_⟩
      · obtain ⟨t, ht, wrote⟩ := State.writeRd_spec u rd (extend signed (u.readPlace p n))
        obtain rfl : (u.setX rd _).advance = t := Host.Outcome.next.inj ht
        exact wrote.device
      · exact (sameView_retire u rd _).pending.trans view.pending
      · exact (extend_readPlace u plain.2.1 bytes signed).trans (valueSeen_congr view p.key n signed)
    · rw [run s, State.loadAt_register h register own, extend_lowBytes bytes, only.hart, view.hid]
      exact State.writeRd_spec u rd _
  · have bytes : 0 < n := by
      simp only [List.mem_cons, List.not_mem_nil, or_false] at size
      omega
    obtain ⟨c, arrived⟩ := State.remoteArrival_weak waits reached
    obtain ⟨result, others, free, retired⟩ := State.finishWait_spec s rd (extend signed (s.readPlace p n))
    intro t
    have ht : t = _ := arrived
    rw [ht]
    rw [extend_readPlace s plain.2.1 bytes signed] at result others free retired ⊢
    exact ⟨result, others, free, retired, rfl⟩

end Sys2Proof.Proofs
end

section
/-! Refutes O8. The M-mode clauses speak of accesses of every size, and a read from 0 that is large enough reaches the blanket. -/

namespace Sys2Proof.Machine

/-- An M-mode access of a hart of no party is physical (R67). -/
theorem check_physical {s : State} (mode : s.hart.mode = .m) (party : s.hart.party = none) (k : Acc) (a : Word) (n : Nat) (fmt : Bool) :
    check s k a n fmt = (s, checkPhysical s k a.toNat n) := by
  simp only [check, mode, party, if_true, Option.isSome_none, Bool.false_eq_true, false_and, if_false]

end Sys2Proof.Machine

namespace Sys2Proof.Proofs
open Sys2Proof Sys2Proof.Machine Sys2Proof.Safety

/-- The package after reset, every PCI Express port a blanket port whose link is down. -/
def cutBlanket : State := { State.reset with pcie := Vector.replicate 8 { PciePort.reset with role := 3 } }

/-- The first byte of the blanket lies behind a link that is down. -/
theorem linkCut_cutBlanket : cutBlanket.linkCut 0x100000000000 1 = true := by decide

/-- A read of 2^45 bytes from 0 holds that byte, and so it fails on the link (R395). -/
theorem badRead_cutBlanket : cutBlanket.badRead false 0 (2 ^ 45) = true := by
  rw [State.badRead, List.any_eq_true]
  refine ⟨0x100000000000, List.mem_range.2 (by decide), ?_⟩
  rw [Nat.zero_add, linkCut_cutBlanket]
  decide

/-- The check takes cause 34 for it. -/
theorem checkPhysical_cutBlanket : checkPhysical cutBlanket .load 0 (2 ^ 45) = .error 34 := by
  have reached : ¬ (2 ^ 48 ≤ 0 ∨ pmpOk cutBlanket.hart.csr.pmp .m 0 (2 ^ 45) .read = false ∨ cutBlanket.named 0 = false) := by decide
  have memory : ¬ inMmio 0 = true := by decide
  have answers : ¬ cutBlanket.answers 0 = false := by decide
  have key : normPa 0 = 0 := by decide
  simp only [checkPhysical, Acc.isStore, Acc.isLoad, Acc.isStrong, Bool.false_eq_true, if_false, if_neg reached, if_neg memory,
    if_neg answers, key, Nat.zero_mod, ne_eq, not_true, badRead_cutBlanket, and_self, if_true]

/-- Refutes O8: an aligned M-mode load of 2^45 bytes at address 0 of local HBM, with no uncorrectable word anywhere, reads on into the
blanket, and takes cause 34 there where the last clause gives it a place. -/
theorem not_accessChecks : ¬ Obligations.AccessChecks := by
  rintro ⟨-, physical⟩
  obtain ⟨-, -, passes⟩ := physical cutBlanket 0#64 (2 ^ 45) .load rfl rfl (.inl rfl)
  have allowed : pmpOk cutBlanket.hart.csr.pmp .m 0 (2 ^ 45) .read = true := by decide
  have named : cutBlanket.named 0 = true := by decide
  obtain ⟨-, -, -, place⟩ := passes (by decide) allowed named
  obtain ⟨p, found, -⟩ := place (Nat.zero_mod _) (by decide) rfl
  rw [check_physical rfl rfl, BitVec.toNat_zero, checkPhysical_cutBlanket] at found
  cases found

end Sys2Proof.Proofs
end

section
/-! SUPPORT and settles O7. Stores (R66, R159, R197, R348). -/

namespace Sys2Proof.Machine
open Sys2Proof.Safety

/-! ### What a weak store does -/

/-- The stores, with the bytes they write (Table 04-6). -/
def stores (rs1 rs2 : Reg) (imm : BitVec 12) : List (Instr × Nat) :=
  [(.sb rs1 rs2 imm, 1), (.sh rs1 rs2 imm, 2), (.sw rs1 rs2 imm, 4), (.sd rs1 rs2 imm, 8)]

/-- Each of them is `State.storeAt`. -/
theorem exec_store {rs1 rs2 : Reg} {imm : BitVec 12} {i : Instr} {n : Nat} (h : (i, n) ∈ stores rs1 rs2 imm) (s : State) :
    exec i s = s.storeAt (s.x rs1 + imm.signExtend 64) n (s.x rs2) := by
  simp only [stores, List.mem_cons, Prod.mk.injEq, List.not_mem_nil, or_false] at h
  rcases h with ⟨rfl, rfl⟩ | ⟨rfl, rfl⟩ | ⟨rfl, rfl⟩ | ⟨rfl, rfl⟩
  all_goals rfl

/-- The store goes to its site at once, on an uncompressed page (R159; log 28). -/
abbrev StoresNow (s : State) (key n : Nat) : Bool := (isRemote key || coversBad s.poison key n) && !s.heldRange key n

/-- What a device's store of some bytes leaves of the harts. -/
theorem State.storeWhole_keeps (s : State) (a : Nat) (bs : List Byte) : KeepsHarts s (s.storeWhole a bs) :=
  (keepsHarts_of_only (State.storeBy_only s none a bs)).trans (keepsHarts_of_eq rfl rfl rfl)

/-- Noting a key leaves every view. -/
theorem State.noteKey_sameView (s : State) (ctx : BitVec 16) (va key : Nat) : SameView s (s.noteKey ctx va key) := by
  obtain ⟨e, c, noted⟩ := State.noteKey_eq s ctx va key
  rw [noted]
  exact ⟨rfl, rfl, rfl, rfl, rfl⟩

/-- Noting a key leaves the harts, the cells being purged and the uncorrectable words. -/
theorem State.noteKey_keeps (s : State) (ctx : BitVec 16) (va key : Nat) :
    KeepsHarts s (s.noteKey ctx va key) ∧ (s.noteKey ctx va key).heldByte = s.heldByte ∧ (s.noteKey ctx va key).poison = s.poison := by
  obtain ⟨e, c, noted⟩ := State.noteKey_eq s ctx va key
  rw [noted]
  exact ⟨keepsHarts_of_eq rfl rfl rfl, rfl, rfl⟩

/-- Setting DIRTY leaves the harts and memory. -/
theorem State.setDirty_keeps (s : State) (party : Option Party) (key : Nat) :
    KeepsHarts s (s.setDirty party key) ∧ SameView s (s.setDirty party key) := by
  obtain ⟨c, dirty⟩ := State.setDirty_eq s party key
  rw [dirty]
  exact ⟨keepsHarts_of_eq rfl rfl rfl, ⟨rfl, rfl, rfl, rfl, rfl⟩⟩

/-- Counting CXL bytes leaves the harts and memory. -/
theorem State.chargeBlanket_keeps (s : State) (p : Place) (n : Nat) :
    KeepsHarts s (s.chargeBlanket p n) ∧ SameView s (s.chargeBlanket p n) := by
  obtain ⟨c, charged⟩ := State.chargeBlanket_eq s p n
  rw [charged]
  exact ⟨keepsHarts_of_eq rfl rfl rfl, ⟨rfl, rfl, rfl, rfl, rfl⟩⟩

/-- The harts are as they were, but for pending stores of the hart in focus. -/
structure SameButPending (s t : State) : Prop where
  hid : t.hid = s.hid
  others : t.others = s.others
  hart : { t.hart with pending := s.hart.pending } = s.hart

/-- What keeps the harts. -/
theorem KeepsHarts.sameButPending {s t : State} (h : KeepsHarts s t) : SameButPending s t := ⟨h.hid, h.others, h.hart⟩

/-- One such change after another. -/
theorem SameButPending.trans {s t u : State} (h : SameButPending s t) (k : SameButPending t u) : SameButPending s u where
  hid := k.hid.trans h.hid
  others := k.others.trans h.others
  hart := (congrArg (fun x : Hart => { x with pending := s.hart.pending }) k.hart).trans h.hart

/-- A change of the pending stores of the hart in focus. -/
theorem SameButPending.pend {s t : State} (h : SameButPending s t) (q : List Host.Cell) :
    SameButPending s { t with hart := { t.hart with pending := q } } :=
  ⟨h.hid, h.others, h.hart⟩

/-- A weak store changes of the harts the pending stores of the hart in focus alone. -/
theorem State.writeWeak_harts (s : State) (p : Place) (bs : List Byte) : SameButPending s (s.writeWeak p bs) := by
  unfold State.writeWeak
  split
  · exact ((State.storeWhole_keeps s _ bs).trans (State.setDirty_keeps _ _ _).1).sameButPending
  · extract_lets t
    have noted : KeepsHarts s t := (State.noteKey_keeps s _ _ _).1
    clear_value t
    split
    · exact ((noted.trans (State.writeNow_keeps _ p bs)).trans
        (keepsHarts_foldl _ (fun u k => State.storeWhole_keeps u k bs) _ _)).sameButPending
    · split
      · exact (noted.trans (State.writeNow_keeps _ p bs)).sameButPending
      · exact noted.sameButPending.pend _

section
variable {s : State} {p : Place} (bs : List Byte)

/-- A weak store to the window is performed in local memory, and sets DIRTY (R231). -/
theorem State.writeWeak_window (window : p.window = true) : s.writeWeak p bs = (s.storeWhole p.key bs).setDirty s.ownParty p.key := by
  rw [State.writeWeak, if_pos window]

variable (window : p.window = false) (kind : pteKind p.pte ≠ 3) (plain : pteCmp p.pte = 0)
include window kind plain

/-- A weak store that stays pending. -/
theorem State.writeWeak_pends (now : StoresNow s p.key bs.length = false) :
    let u := s.noteKey (ctxOf s.hart.csr.ptroot) p.va p.key
    s.writeWeak p bs = { u with hart := { u.hart with pending := pendStore u.hart.pending p.key bs } } := by
  intro u
  obtain ⟨-, held, poison⟩ := State.noteKey_keeps s (ctxOf s.hart.csr.ptroot) p.va p.key
  have stays : (pteCmp p.pte != 0 || StoresNow u p.key bs.length) = false := by
    rw [StoresNow, State.heldRange, held, poison, ← State.heldRange, plain]
    exact now
  rw [State.writeWeak, if_neg (by rw [window]; decide)]
  dsimp only
  rw [if_neg kind, if_neg (Bool.eq_false_iff.1 stays)]

/-- A weak store that goes to its site at once. -/
theorem State.writeWeak_now (now : StoresNow s p.key bs.length = true) :
    let u := s.noteKey (ctxOf s.hart.csr.ptroot) p.va p.key
    s.writeWeak p bs = (u.settleRange u.hid p.key (p.key + bs.length)).storeOwn p.key bs := by
  intro u
  obtain ⟨-, held, poison⟩ := State.noteKey_keeps s (ctxOf s.hart.csr.ptroot) p.va p.key
  have goes : (pteCmp p.pte != 0 || StoresNow u p.key bs.length) = true := by
    rw [StoresNow, State.heldRange, held, poison, ← State.heldRange, plain]
    exact now
  rw [State.writeWeak, if_neg (by rw [window]; decide)]
  dsimp only
  rw [if_neg kind, if_pos goes, State.writeNow, if_neg (by rw [plain]; decide)]

end

/-! ### What the hart sees -/

/-- A view that stays before and after a store. -/
theorem seesStore_congr {s s' t t' : State} {key n : Nat} {w : Word} (h : SeesStore s t key n w) (before : SameView s' s)
    (after : SameView t t') : SeesStore s' t' key n w := fun a => by rw [after.seen, h a, before.seen]

/-- A pending store is seen at once (R66). -/
theorem seesStore_pendStore (s : State) (key n : Nat) (w : Word) :
    SeesStore s { s with hart := { s.hart with pending := pendStore s.hart.pending key (lowBytes n w) } } key n w := by
  intro a
  have pending : byteSeen { s with hart := { s.hart with pending := pendStore s.hart.pending key (lowBytes n w) } } a
      = pendingGet (pendStore s.hart.pending key (lowBytes n w) ++ s.copies) s.mem a := rfl
  rw [pending, pendStore_append, pendingGet_pendStore, lowBytes_length]
  split
  next at_ => exact lowBytes_getD (by omega) w
  next => rfl

/-- A store that stays pending changes no byte at the point of coherence (R159). -/
theorem seesStore_pends {s t u : State} {key n : Nat} {w : Word} (before : SameView s t)
    (after : SameView { t with hart := { t.hart with pending := pendStore t.hart.pending key (lowBytes n w) } } u) :
    u.mem = s.mem ∧ SeesStore s u key n w :=
  ⟨after.mem.trans before.mem, seesStore_congr (seesStore_pendStore t key n w) before after⟩

/-- A byte of a range of which no byte is held is not held. -/
theorem heldByte_of_heldRange {s : State} {a n b : Nat} (free : s.heldRange a n = false) (lo : a ≤ b) (hi : b < a + n) :
    s.heldByte b = false := by
  rw [State.heldRange, List.any_eq_false] at free
  have byte := free (b - a) (List.mem_range.2 (by omega))
  rw [Nat.add_sub_cancel' lo] at byte
  exact Bool.eq_false_iff.2 byte

/-- Of the pending stores that are left, none is to a byte that left. -/
theorem any_drained (s : State) {lo hi b : Nat} (free : s.heldByte b = false) (above : lo ≤ b) (below : b < hi) :
    (s.hart.pending.filter (fun c => !((decide (lo ≤ c.1) && decide (c.1 < hi)) && !s.heldByte c.1))).any (fun c => c.1 == b) = false := by
  rw [any_filter_addr _ (fun m => !((decide (lo ≤ m) && decide (m < hi)) && !s.heldByte m)), free]
  simp only [above, below, decide_true, Bool.not_false, Bool.and_self, Bool.not_true, Bool.false_and]

/-- Once a range is settled, no store to a byte of it is pending, but for those that are held. -/
theorem settleRange_pending {s : State} (hw : Memory.wf s.mem = true) {lo hi b : Nat} (free : s.heldByte b = false) (above : lo ≤ b)
    (below : b < hi) : (s.settleRange s.hid lo hi).hart.pending.any (fun c => c.1 == b) = false := by
  rw [(onlyMemory_harts (State.settleRange_seen s lo hi hw).1).2.1]
  exact any_drained s free above below

/-- A store performed at once is seen, and its bytes lie at the site. -/
theorem seesStore_storeOwn {s : State} {key n : Nat} (w : Word) (free : s.heldRange key n = false) (hw : Memory.wf s.mem = true) :
    let t := (s.settleRange s.hid key (key + n)).storeOwn key (lowBytes n w)
    Memory.wf t.mem = true ∧ SeesStore s t key n w ∧ ∀ b, key ≤ b → b < key + n → Memory.get t.mem b = byteOf w (b - key) := by
  obtain ⟨-, wf, seen, -⟩ := State.settleRange_seen s key (key + n) hw
  obtain ⟨-, wf', stored⟩ := State.storeOwn_seen (s.settleRange s.hid key (key + n)) key (lowBytes n w) wf (fun b lo hi =>
    settleRange_pending hw (heldByte_of_heldRange free lo (by rwa [lowBytes_length] at hi)) lo (by rwa [lowBytes_length] at hi))
  refine ⟨wf', fun b => ?_, fun b lo hi => ?_⟩
  · rw [stored, lowBytes_length, seen]
    split
    next at_ => exact lowBytes_getD (by omega) w
    next => rfl
  · rw [State.storeOwn_mem, Memory.get_write _ _ wf (Nat.zero_le _), lowBytes_length, if_pos ⟨lo, hi⟩]
    exact lowBytes_getD (by omega) w

/-- Bytes written in memory by the device. -/
theorem wrote_storeWhole {s : State} (key n : Nat) (w : Word) (hw : Memory.wf s.mem = true) :
    Memory.wf (s.storeWhole key (lowBytes n w)).mem = true ∧ Wrote s (s.storeWhole key (lowBytes n w)) key n w := by
  rw [Wrote, State.storeWhole_mem]
  refine ⟨Memory.wf_write _ _ hw, fun a => ?_⟩
  rw [Memory.get_write _ _ hw (Nat.zero_le _), lowBytes_length]
  split
  next at_ => exact lowBytes_getD (by omega) w
  next => rfl

section
variable {s u : State} {p : Place} {a : Word} {n : Nat} (h : check s .store a n false = (u, .ok p)) (w : Word)
include h

/-- A store of memory is a weak write at its place. -/
theorem State.storeAt_memory (memory : p.mmio = false) :
    s.storeAt a n w = .next ((u.writeWeak p (lowBytes n w)).chargeBlanket p n).advance := by
  simp only [State.storeAt, h, memory, Bool.false_eq_true, if_false]

/-- A store to a register writes it. -/
theorem State.storeAt_register (register : p.mmio = true) :
    s.storeAt a n w = .next (u.writeRegister (.hart u.hart.mode u.hid) p.key n ((w.setWidth (8 * n)).setWidth 64)).advance := by
  simp only [State.storeAt, h, register, if_true, ofNat_lowBytes]
  rfl

end

end Sys2Proof.Machine

namespace Sys2Proof.Proofs
open Sys2Proof Sys2Proof.Machine Sys2Proof.Safety

/-- Settles O7: a store is a weak write at the place that its checks give; what the hart sees follows for each kind of write. -/
theorem storesComplete : Obligations.StoresComplete := by
  intro s u p rs1 rs2 imm i n mem h
  have only := onlyTlb_check h
  have view := onlyTlb_sameView only
  obtain ⟨purging, poison⟩ := onlyTlb_purging only
  have run := exec_store mem s
  refine ⟨only, fun memory => ?_, fun register => ?_⟩
  · have size := lowBytes_length n (s.x rs2)
    obtain ⟨charged, charges⟩ := State.chargeBlanket_keeps (u.writeWeak p (lowBytes n (s.x rs2))) p n
    have harts := ((onlyTlb_keepsHarts only).sameButPending.trans (State.writeWeak_harts u p _)).trans charged.sameButPending
    have after := charges.trans (sameView_advance _)
    have held : u.heldRange p.key n = s.heldRange p.key n := by
      unfold State.heldRange State.heldByte
      rw [purging]
    have now_eq : StoresNow u p.key n = StoresNow s p.key n := by rw [StoresNow, StoresNow, held, poison]
    have before := view.trans (State.noteKey_sameView u (ctxOf u.hart.csr.ptroot) p.va p.key)
    refine ⟨_, run.trans (State.storeAt_memory h (s.x rs2) memory), memRetired_advance harts.hid harts.others harts.hart,
      fun window kind plain => ?_, fun window wf => ?_⟩
    · intro now
      refine ⟨fun pends => ?_, fun goes wf => ?_⟩
      · have pends := State.writeWeak_pends (lowBytes n (s.x rs2)) window kind plain (by rw [size, now_eq]; exact pends)
        rw [pends] at after ⊢
        exact seesStore_pends before after
      · have free : u.heldRange p.key n = false := by
          rw [held]
          simpa using (Bool.and_eq_true_iff.1 goes).2
        have goes := State.writeWeak_now (lowBytes n (s.x rs2)) window kind plain (by rw [size, now_eq]; exact goes)
        have noted := (State.noteKey_keeps u (ctxOf u.hart.csr.ptroot) p.va p.key).2.1
        obtain ⟨wf', sees, bytes⟩ := seesStore_storeOwn (s := u.noteKey (ctxOf u.hart.csr.ptroot) p.va p.key) (s.x rs2)
          (by rw [State.heldRange, noted]; exact free) (by rw [before.mem]; exact wf)
        rw [size] at goes
        rw [goes] at after ⊢
        rw [after.mem]
        exact ⟨wf', seesStore_congr sees before after, bytes⟩
    · obtain ⟨wf', wrote⟩ := wrote_storeWhole p.key n (s.x rs2) (s := u) (by rw [view.mem]; exact wf)
      have dirty := (State.setDirty_keeps (u.storeWhole p.key (lowBytes n (s.x rs2))) u.ownParty p.key).2
      rw [State.writeWeak_window _ window] at after ⊢
      rw [Wrote, after.mem, dirty.mem]
      rw [Wrote, view.mem] at wrote
      exact ⟨wf', wrote⟩
  · rw [run, State.storeAt_register h (s.x rs2) register, only.hart, view.hid]

end Sys2Proof.Proofs
end

section
/-! SUPPORT. Publish and Open (R157 to R161, R197, R384): what leaves the buffer of the hart in focus, what its agent owes it, and what
stands at the homes once it has opened. -/

namespace Sys2Proof.Machine
open Sys2Proof.Safety

/-! ### The two homes -/

/-- A byte at the group agent's home. -/
theorem homeByte_agent (s : State) (a : Nat) : homeByte s true a = pendingGet (s.hart.pending ++ s.agentCells (agentOf s.hid)) s.mem a := rfl

/-- A byte at the site's home. -/
theorem homeByte_site (s : State) (a : Nat) : homeByte s false a = pendingGet (s.hart.pending ++ owedCells s (agentOf s.hid)) s.mem a := rfl

/-! ### The pending stores that stay -/

/-- The stores for which a test holds have left the buffer, but for those of a cell being purged. -/
theorem State.drainSome_only (s : State) (f : Nat → Bool) : OnlyMemory
    { s with hart := { s.hart with pending := s.hart.pending.filter (fun c => !(f c.1 && !s.heldByte c.1)) } } (s.drainSome s.hid f) := by
  unfold State.drainSome
  rw [State.getHart_hid]
  simp only [partition_filter s.hart.pending (fun n => f n && !s.heldByte n)]
  split
  next none_ =>
    have all : s.hart.pending.filter (fun c => !(f c.1 && !s.heldByte c.1)) = s.hart.pending := by
      rw [List.filter_eq_self]
      intro c hc
      rw [List.filter_eq_nil_iff] at none_
      exact Bool.not_eq_true' _ ▸ Bool.eq_false_iff.2 (none_ c hc)
    rw [all]
    rfl
  next =>
    rw [State.setHart_hid]
    exact State.drainOwn_only _ s.hid _

/-- After a Publish the stores to cells being purged are left (R160, R197). -/
theorem State.publishAt_pending (s : State) (near : Bool) :
    (s.publishAt near).hart.pending = s.hart.pending.filter (fun c => s.heldByte c.1) := by
  have drained : (s.publishNear s.hid).hart.pending = s.hart.pending.filter (fun c => s.heldByte c.1) := by
    rw [State.publishNear, (onlyMemory_harts (State.drainSome_only s fun _ => true)).2.1]
    exact List.filter_congr fun c _ => by simp only [Bool.true_and, Bool.not_not]
  cases near
  · have written : (s.publishAt false).hart = (s.publishNear s.hid).hart := by
      rw [State.publishAt, if_neg (by decide), State.publish, State.publishHart]
      split
      · exact (onlyMemory_harts (State.writeBack_only _ _ _)).2.1
      · rfl
    rw [written, drained]
  · exact drained

/-- A Publish that waits for no purge finds no store of the hart held, nor any that its agent has yet to write back. -/
theorem publishHeld_none {s : State} (h : s.publishHeld = none) :
    s.hart.pending.filter (fun c => s.heldByte c.1) = []
    ∧ ∀ a, s.heldByte a = true → (s.hart.pending ++ owedCells s (agentOf s.hid)).any (fun c => c.1 == a) = false := by
  have free := List.find?_eq_none.1 (Option.map_eq_none_iff.1 h)
  have pending {c : Host.Cell} (hc : c ∈ s.hart.pending) : ¬ s.heldByte c.1 = true :=
    free c.1 (List.mem_append_left _ (List.mem_map_of_mem hc))
  have owed {c : Host.Cell} (hc : c ∈ owedCells s (agentOf s.hid)) : ¬ s.heldByte c.1 = true := by
    obtain ⟨-, dirty⟩ := List.mem_filter.1 hc
    obtain ⟨d, hd, at_⟩ := List.any_eq_true.1 dirty
    obtain ⟨l, hl, rfl⟩ := List.mem_map.1 hd
    rw [← eq_of_beq at_]
    exact free l.addr (List.mem_append_right _ (List.mem_map_of_mem hl))
  refine ⟨List.filter_eq_nil_iff.2 fun c hc => pending hc, fun a held => List.any_eq_false.2 fun c hc at_ => ?_⟩
  rw [← eq_of_beq at_] at held
  exact (List.mem_append.1 hc).elim (fun h => pending h held) (fun h => owed h held)

/-- After a Publish that waits for no purge nothing is pending. -/
theorem publishAt_empty {s : State} (h : MayPublish s) (near : Bool) : (s.publishAt near).hart.pending = [] := by
  rw [State.publishAt_pending, (publishHeld_none h.2).1]

/-! ### Publishing, at either home -/

/-- After a Publish the hart sees every byte as before, at its homes too. -/
theorem State.publishAt_seen (s : State) (near : Bool) (hw : Memory.wf s.mem = true) : Memory.wf (s.publishAt near).mem = true
    ∧ (∀ a, byteSeen (s.publishAt near) a = byteSeen s a) ∧ ∀ near' a, homeByte (s.publishAt near) near' a = homeByte s near' a := by
  cases near
  · exact (State.publish_seen s hw).2
  · exact (State.drainSome_seen s (fun _ => true) hw).2

/-- The instructions that publish first: a lost store traps (R384). -/
theorem State.publishThenAt_lost {s : State} (h : s.hart.lostStore = true) (near : Bool) (k : State → Out) :
    s.publishThenAt near k = .next (({ s with hart := { s.hart with lostStore := false } } : State).trap 7 0) := by
  rw [State.publishThenAt, if_pos h]
  rfl

/-- A store held at a cell being purged makes them wait (R197). -/
theorem State.publishThenAt_held {s : State} (h : s.hart.lostStore = false) {c : Nat} (held : s.publishHeld = some c) (near : Bool)
    (k : State → Out) : s.publishThenAt near k = .next { s with hart := { s.hart with blocked := some (.purge c) } } := by
  simp only [State.publishThenAt, h, held, Bool.false_eq_true, if_false]

/-- Else they publish and go on. -/
theorem State.publishThenAt_may {s : State} (h : MayPublish s) (near : Bool) (k : State → Out) :
    s.publishThenAt near k = k (s.publishAt near) := by
  obtain ⟨lost, held⟩ := h
  simp only [State.publishThenAt, lost, held, Bool.false_eq_true, if_false]

/-! ### What an agent owes a hart (R160) -/

/-- The agent owes the line of what it takes from a hart, and every line that it owed. -/
theorem State.owes_agentPut {s : State} {k h line : Nat} (x : Bool) (c : Host.Cell) (owed : s.owes k h line = true ∨ c.1 / 64 = line) :
    (s.agentPut k h x c).owes k h line = true := by
  rw [State.owes, State.agentPut, List.any_cons, Bool.or_eq_true]
  by_cases line_ : c.1 / 64 = line
  · left
    simp only [line_, beq_self_eq_true, Bool.and_self, List.contains_cons, Bool.true_or]
  · right
    obtain ⟨l, hl, that⟩ := List.any_eq_true.1 (owed.resolve_right line_)
    refine List.any_eq_true.2 ⟨l, List.mem_filter.2 ⟨hl, ?_⟩, that⟩
    simp only [Bool.and_eq_true, beq_iff_eq] at that
    obtain ⟨⟨⟨-, -⟩, at_⟩, -⟩ := that
    have other : (l.addr == c.1) = false := beq_eq_false_iff_ne.2 fun same => line_ (same ▸ at_)
    rw [other, Bool.and_false, Bool.not_false]

/-- The same of several stores. -/
theorem State.owes_agentPuts {s : State} {k h line : Nat} {p : List Host.Cell} (owed : s.owes k h line = true ∨ ∃ c ∈ p, c.1 / 64 = line) :
    (s.agentPuts k h p).owes k h line = true := by
  induction p with
  | nil => exact owed.resolve_right (by simp)
  | cons c p ih =>
    have put : s.agentPuts k h (c :: p) = (s.agentPuts k h p).agentPut k h false c := by
      simp only [State.agentPuts, List.reverse_cons, List.foldl_append, List.foldl_cons, List.foldl_nil]
    rw [put]
    refine State.owes_agentPut false c ?_
    rcases owed with owed | ⟨d, hd, at_⟩
    · exact .inl (ih (.inl owed))
    · rcases List.mem_cons.1 hd with rfl | hd
      · exact .inr at_
      · exact .inl (ih (.inr ⟨d, hd, at_⟩))

section
variable {s : State} {k : Nat} (agent : agentOf s.hid = some k)
include agent

/-- Stores that leave for an agent leave the bytes at the sites. -/
theorem State.publishNear_mem : (s.publishNear s.hid).mem = s.mem := by
  unfold State.publishNear State.drainSome
  rw [State.getHart_hid]
  dsimp only
  split
  · rfl
  · rw [State.setHart_hid, State.drainOwn, agent]
    exact (State.agentPuts_spec _ k s.hid _).2.1

/-- After a Publish at group scope the agent owes the hart what it owed, and what the hart had pending. -/
theorem State.owes_publishNear {a : Nat} (h : MayPublish s)
    (owed : s.hart.pending.any (fun c => c.1 == a) = true ∨ s.owes k s.hid (a / 64) = true) :
    (s.publishNear s.hid).owes k s.hid (a / 64) = true := by
  have leave : s.hart.pending.filter (fun c => true && !s.heldByte c.1) = s.hart.pending := by
    rw [List.filter_eq_self]
    intro c hc
    have free := List.filter_eq_nil_iff.1 (publishHeld_none h.2).1 c hc
    rw [Bool.true_and, Bool.eq_false_iff.2 free, Bool.not_false]
  unfold State.publishNear State.drainSome
  rw [State.getHart_hid]
  simp only [partition_filter s.hart.pending (fun n => true && !s.heldByte n), leave]
  split
  next none_ => exact owed.resolve_left (by rw [none_]; exact Bool.false_ne_true)
  next some_ =>
    rw [State.setHart_hid, State.drainOwn, agent]
    refine State.owes_agentPuts ?_
    rcases owed with pending | owed
    · obtain ⟨c, hc, at_⟩ := List.any_eq_true.1 pending
      exact .inr ⟨c, hc, by rw [eq_of_beq at_]⟩
    · exact .inl owed

end

/-- At its site a byte that stands over it neither in the buffer nor with the agent. -/
theorem homeByte_of_held {s : State} (h : MayPublish s) {a : Nat} (held : s.heldByte a = true) :
    homeByte s false a = Memory.get s.mem a := by
  have none_ := (publishHeld_none h.2).2 a held
  rw [homeByte_site, pendingGet_none _ _ _ none_]

/-- With nothing pending, the byte at the site's home. -/
theorem homeByte_of_empty {s : State} (empty : s.hart.pending = []) (a : Nat) :
    homeByte s false a = pendingGet (owedCells s (agentOf s.hid)) s.mem a := by
  rw [homeByte_site, empty, List.nil_append]

/-- After a Publish at device scope what the hart had pending, and what its agent owed it, is at the site (R160). -/
theorem publish_mem {s : State} (h : MayPublish s) (hw : Memory.wf s.mem = true) {a : Nat}
    (owed : s.hart.pending.any (fun c => c.1 == a) = true ∨ ∃ k, agentOf s.hid = some k ∧ s.owes k s.hid (a / 64) = true) :
    Memory.get s.publish.mem a = homeByte s false a := by
  obtain ⟨wf, -, home⟩ := State.publishAt_seen s true hw
  have hid : (s.publishNear s.hid).hid = s.hid := (State.publishNear_drains s).keeps.1
  have purging : (s.publishNear s.hid).heldByte = s.heldByte :=
    funext fun a => congrArg (·.contains (a / 16 * 16)) (State.publishNear_drains s).keeps.2.2.1
  have there := homeByte_of_empty (publishAt_empty h true) a
  have hid' : (s.publishAt true).hid = s.hid := hid
  rw [home, hid'] at there
  rw [State.publish, State.publishHart]
  cases agent : agentOf s.hid with
  | none =>
    rw [agent, owedCells_none] at there
    exact there.symm
  | some k =>
    have owes := State.owes_publishNear agent h (owed.imp_right fun ⟨j, hj, that⟩ => by
      rw [Option.some.inj (agent.symm.trans hj)]; exact that)
    obtain ⟨-, -, -, -, at_⟩ := State.writeBack_seen (s.publishNear s.hid) k ((s.publishNear s.hid).owes k s.hid)
      (by rw [hid]; exact agent) wf
    dsimp only
    rw [at_, owes, purging, Bool.true_and]
    cases held : s.heldByte a with
    | true =>
      rw [Bool.not_true, if_neg (by decide), State.publishNear_mem agent, homeByte_of_held h held]
    | false =>
      rw [agent] at there
      rw [Bool.not_false, if_pos rfl]
      exact there.symm

/-! ### Opening -/

/-- Lines that keep what they hold, where, whose, and whether it is written back: their agents hold and owe what they did. -/
theorem cells_of_map {s t : State} (g : Line → Line) (lines : t.lines = s.lines.map g)
    (same : ∀ l, (g l).cluster = l.cluster ∧ (g l).addr = l.addr ∧ (g l).val = l.val ∧ (g l).dirty = l.dirty) (k : Option Nat) :
    t.agentCells k = s.agentCells k ∧ t.dirtyCells k = s.dirtyCells k := by
  have cell : (fun l : Line => (l.addr, l.val)) ∘ g = fun l => (l.addr, l.val) :=
    funext fun l => by obtain ⟨-, addr, val, -⟩ := same l; simp only [Function.comp_apply, addr, val]
  have own : (fun l : Line => some l.cluster == k) ∘ g = fun l => some l.cluster == k :=
    funext fun l => by simp only [Function.comp_apply, (same l).1]
  have owed : (fun l : Line => some l.cluster == k && l.dirty) ∘ g = fun l => some l.cluster == k && l.dirty :=
    funext fun l => by obtain ⟨cluster, -, -, dirty⟩ := same l; simp only [Function.comp_apply, cluster, dirty]
  constructor
  · rw [State.agentCells, lines, List.filter_map, own, List.map_map, cell]
    rfl
  · rw [State.dirtyCells, lines, List.filter_map, owed, List.map_map, cell]
    rfl

/-- A line of cluster `k` that hart `h` acquires where it is yet to be written back (R160). -/
def acquire (k h : Nat) (l : Line) : Line :=
  if l.cluster = k ∧ l.dirty = true ∧ l.acquired.contains h = false then { l with acquired := h :: l.acquired } else l

/-- Acquiring leaves what a line holds. -/
theorem acquire_same (k h : Nat) (l : Line) : (acquire k h l).cluster = l.cluster ∧ (acquire k h l).addr = l.addr
    ∧ (acquire k h l).val = l.val ∧ (acquire k h l).dirty = l.dirty := by
  unfold acquire
  split <;> exact ⟨rfl, rfl, rfl, rfl⟩

/-- The core's older contents gone, and every line acquired that the agent has yet to write back: an open at core or group scope. -/
def State.opened (s : State) (k : Nat) : State := { s.openCore (coreOf s.hid) with lines := s.lines.map (acquire k s.hid) }

/-- An open of a hart of a compute core; at device or system scope its agent also drops its older contents. -/
theorem State.openAt_agent {s : State} {k : Nat} (agent : agentOf s.hid = some k) (near : Bool) : s.openAt near =
    if near then s.opened k else (s.opened k).dropLines k (fun j => coreOf j != coreOf s.hid) (fun _ => true) := by
  unfold State.openAt State.openHart
  rw [agent]
  rfl

/-- Acquiring leaves what the agents hold and owe. -/
theorem State.opened_cells (s : State) (k : Nat) (j : Option Nat) :
    (s.opened k).agentCells j = s.agentCells j ∧ owedCells (s.opened k) j = owedCells s j := by
  obtain ⟨agent, dirty⟩ := cells_of_map (t := s.opened k) _ rfl (acquire_same k s.hid) j
  exact ⟨agent, by rw [owedCells, owedCells, agent, dirty]⟩

/-- An agent that drops older contents owes what it owed. -/
theorem State.dropLines_owed (s : State) (k : Nat) (who f : Nat → Bool) :
    owedCells (s.dropLines k who f) (some k) = owedCells s (some k) := by
  have dirty : (s.dropLines k who f).dirtyCells (some k) = s.dirtyCells (some k) := by
    unfold State.dirtyCells
    rw [(State.dropLines_spec s k who f).2.2.1, List.filter_filter]
    refine congrArg (List.map _) (List.filter_congr fun l hl => ?_)
    cases owes : (some l.cluster == some k && l.dirty) with
    | false => rfl
    | true =>
      have kept : (s.dirtyCells (some k)).any (fun d => d.1 == l.addr) = true :=
        List.any_eq_true.2 ⟨(l.addr, l.val), List.mem_map.2 ⟨l, List.mem_filter.2 ⟨hl, owes⟩, rfl⟩, beq_self_eq_true _⟩
      rw [State.olderLine, kept, Bool.not_true, Bool.and_false, Bool.not_false, Bool.and_self]
  rw [owedCells, owedCells, dirty, State.agentCells, State.agentCells, (State.dropLines_spec s k who f).2.2.1, List.filter_map,
    List.filter_map, List.filter_filter, List.filter_filter, List.filter_filter]
  refine congrArg (List.map _) (List.filter_congr fun l _ => ?_)
  simp only [Function.comp_apply, Option.some_beq_some, State.olderLine]
  cases l.cluster == k <;> cases f l.addr <;> cases (s.dirtyCells (some k)).any (fun d => d.1 == l.addr) <;> rfl

/-- An open leaves the bytes at their home of the scope (R161). -/
theorem State.openAt_home (s : State) (near : Bool) (a : Nat) : homeByte (s.openAt near) near a = homeByte s near a := by
  obtain ⟨only, mem, -⟩ := State.openAt_seen s near
  obtain ⟨hid, hart, -, -⟩ := onlyMemory_harts only
  suffices cells : homeCells (s.openAt near) near = homeCells s near by rw [homeByte, cells, hart, mem, homeByte]
  unfold homeCells
  rw [hid]
  cases agent : agentOf s.hid with
  | none => simp only [State.agentCells_none, owedCells_none]
  | some k =>
    obtain ⟨agentCells, owed⟩ := State.opened_cells s k (some k)
    rw [State.openAt_agent agent]
    cases near
    · exact (State.dropLines_owed _ k _ _).trans owed
    · exact agentCells

end Sys2Proof.Machine
end

section
/-! Settles O14 and O15. Fences and phases (R73, R74, R160 to R163). -/

namespace Sys2Proof.Machine
open Sys2Proof.Safety

/-! ### Close and open -/

/-- `fence` (R73). -/
theorem exec_fence (fm pred succ : BitVec 4) (rs1 rd : Reg) (s : State) :
    exec (.fence fm pred succ rs1 rd) s = s.publishThenAt false (fun s => .next (s.openAt false).advance) := rfl

/-- `phase.c` (R74). -/
theorem exec_phaseC (sc : Scope) (s : State) : exec (.phaseC sc) s = s.publishThenAt (nearScope sc) (fun s => .next s.advance) := rfl

/-- `phase.co` (R74). -/
theorem exec_phaseCo (sc : Scope) (s : State) :
    exec (.phaseCo sc) s = s.publishThenAt (nearScope sc) (fun s => .next (s.openAt (nearScope sc)).advance) := rfl

/-- A Publish at a scope and then an Open leave memory alone changed, and nothing pending. -/
theorem publishOpen {s : State} (h : MayPublish s) (near : Bool) :
    Drains s ((s.publishAt near).openAt near) ∧ ((s.publishAt near).openAt near).hart.pending = [] := by
  have opened := State.openAt_only (s.publishAt near) near
  exact ⟨(State.publishAt_drains s near).trans (drains_of_only opened), (congrArg (·.pending) (onlyMemory_harts opened).2.1).trans
    (publishAt_empty h near)⟩

/-- The hart then sees every byte as it is at its home of the scope, and that home is as it was. -/
theorem publishOpen_seen (s : State) (near : Bool) (hw : Memory.wf s.mem = true) :
    Memory.wf ((s.publishAt near).openAt near).mem = true
    ∧ (∀ a, byteSeen ((s.publishAt near).openAt near) a = homeByte s near a)
    ∧ ∀ a, homeByte ((s.publishAt near).openAt near) near a = homeByte s near a := by
  obtain ⟨wf, -, home⟩ := State.publishAt_seen s near hw
  obtain ⟨-, mem, seen⟩ := State.openAt_seen (s.publishAt near) near
  exact ⟨by rw [mem]; exact wf, fun a => (seen a).trans (home near a), fun a => (State.openAt_home _ near a).trans (home near a)⟩

/-- What the hart had pending, and what its agent owed it, is at the site after a Publish at device or system scope. -/
theorem published {s : State} {near : Bool} (may : MayPublish s) (wf : Memory.wf s.mem = true) (far : near = false) {a : Nat}
    (owed : s.hart.pending.any (fun c => c.1 == a) = true ∨ ∃ k, agentOf s.hid = some k ∧ s.owes k s.hid (a / 64) = true) :
    Memory.get (s.publishAt near).mem a = homeByte s false a := by
  rw [far]
  exact publish_mem may wf owed

/-- An open leaves all but older contents and lines. -/
theorem openAt_rest (s : State) (near : Bool) : { s.openAt near with hart := s.hart, stale := s.stale, lines := s.lines } = s := by
  cases agent : agentOf s.hid with
  | none =>
    unfold State.openAt State.openHart
    rw [agent]
    rfl
  | some k =>
    rw [State.openAt_agent agent]
    cases near <;> rfl

/-! ### fence.i -/

/-- The fetch buffer of the hart in focus and its core's instruction-cache lines of its context have gone. -/
def State.dropFetched (s : State) : State :=
  let c := s.core s.ownCore
  (s.setCore s.ownCore { c with icache := c.icache.filter (fun l => l.1 != ctxOf s.hart.csr.ptroot) }).withHart
    (fun h => { h with fetch := [] })

/-- `fence.i` (R74). -/
theorem exec_fenceI (s : State) : exec .fenceI s = .next (s.publishNear s.hid).dropFetched.advance := rfl

/-- The cores once fetched code has been dropped. -/
theorem State.dropFetched_core (s : State) (c : Nat) : s.dropFetched.core c =
    if c = s.ownCore then { s.core c with icache := (s.core c).icache.filter (fun l => l.1 != ctxOf s.hart.csr.ptroot) } else s.core c := by
  refine (State.core_setCore s s.ownCore c _).trans ?_
  split
  next same => rw [same]
  next => rfl

/-- Dropping fetched code after a Publish leaves of the harts and of memory what the Publish leaves. -/
theorem dropFetched_spec {s t : State} (h : Drains s t) : SameButPending { s with hart := { s.hart with fetch := [] } } t.dropFetched
    ∧ OnlyMemory s { t.dropFetched with hart := s.hart, cores := s.cores } := by
  obtain ⟨hid, others, -, -, -, hart⟩ := h.keeps
  obtain ⟨p, -, only⟩ := h
  refine ⟨⟨hid, others, congrArg (fun h : Hart => { h with fetch := [] }) hart⟩, ?_⟩
  unfold OnlyMemory at only ⊢
  exact congrArg (fun t : State => { t with hart := s.hart, cores := s.cores }) only

/-- A drain leaves the cores, and the page table in use. -/
theorem Drains.cores {s t : State} (h : Drains s t) (c : Nat) :
    t.core c = s.core c ∧ t.ownCore = coreOf s.hid ∧ t.hart.csr.ptroot = s.hart.csr.ptroot := by
  obtain ⟨p, -, only⟩ := h
  obtain ⟨hid, hart, -, -⟩ := onlyMemory_harts only
  unfold OnlyMemory at only
  have cores := congrArg State.cores only
  exact ⟨congrArg (assocGet · Core.reset c) cores, congrArg coreOf hid, by rw [hart]⟩

end Sys2Proof.Machine

namespace Sys2Proof.Proofs
open Sys2Proof Sys2Proof.Machine Sys2Proof.Safety

/-- Settles O14: `fence` publishes and opens at device scope by definition, and a Publish that may go ahead leaves nothing pending. -/
theorem fenceIsPhase : Obligations.FenceIsPhase := by
  refine ⟨rfl, fun s fm pred succ rs1 rd => ⟨rfl, fun may => ?_, fun lost =>
    (exec_fence ..).trans (State.publishThenAt_lost lost false _)⟩⟩
  obtain ⟨drains, empty⟩ := publishOpen may false
  refine ⟨_, (exec_fence ..).trans (State.publishThenAt_may may false _), drains.keepsHarts.memRetired_advance,
    (State.advance_pending _).trans empty, drains.keeps.2.2.2.1, fun wf => ?_⟩
  obtain ⟨wf', seen, -⟩ := publishOpen_seen s false wf
  exact ⟨wf', fun a => ((sameView_advance _).seen a).trans (seen a)⟩

/-- Settles O15: a close is a Publish, an open an Open of the scope; what is owed at device scope is at the site by `publish_mem`. -/
theorem phases : Obligations.Phases := by
  intro s sc near
  refine ⟨?_, fun i hi => ?_, ?_⟩
  · obtain ⟨only, mem, seen⟩ := State.openAt_seen s near
    have same : { s.openAt near with hart := s.hart, stale := s.stale, lines := s.lines } = s := openAt_rest s near
    refine ⟨_, rfl, (drains_of_only only).keepsHarts.memRetired_advance, ?_, mem, same,
      fun a => ((sameView_advance _).seen a).trans (seen a)⟩
    exact (State.advance_pending _).trans (congrArg (·.pending) (onlyMemory_harts only).2.1)
  · obtain rfl | rfl := List.mem_pair.1 hi
    · have run := exec_phaseC sc s
      refine ⟨fun lost => run.trans (State.publishThenAt_lost lost near _),
        fun lost c held => run.trans (State.publishThenAt_held lost held near _), fun may => ?_⟩
      have drains := State.publishAt_drains s near
      refine ⟨_, run.trans (State.publishThenAt_may may near _), drains.keepsHarts.memRetired_advance,
        (State.advance_pending _).trans (publishAt_empty may near), fun wf => ?_⟩
      obtain ⟨wf', seen, home⟩ := State.publishAt_seen s near wf
      exact ⟨wf', fun a => ((sameView_advance _).seen a).trans ((seen a).trans (if_pos rfl).symm),
        fun a => ((sameView_advance _).home near a).trans (home near a), fun a far owed => published may wf far owed⟩
    · have run := exec_phaseCo sc s
      refine ⟨fun lost => run.trans (State.publishThenAt_lost lost near _),
        fun lost c held => run.trans (State.publishThenAt_held lost held near _), fun may => ?_⟩
      obtain ⟨drains, empty⟩ := publishOpen may near
      refine ⟨_, run.trans (State.publishThenAt_may may near _), drains.keepsHarts.memRetired_advance,
        (State.advance_pending _).trans empty, fun wf => ?_⟩
      obtain ⟨wf', seen, home⟩ := publishOpen_seen s near wf
      refine ⟨wf', fun a => ((sameView_advance _).seen a).trans ((seen a).trans (if_neg Instr.noConfusion).symm),
        fun a => ((sameView_advance _).home near a).trans (home a), fun a far owed => ?_⟩
      refine (congrArg (Memory.get · a) (State.openAt_seen (s.publishAt near) near).2.1).trans (published may wf far owed)
  · have drains := State.publishNear_drains s
    obtain ⟨harts, only⟩ := dropFetched_spec drains
    have core (c : Nat) := State.dropFetched_core (s.publishNear s.hid) c
    refine ⟨_, exec_fenceI s, memRetired_advance harts.hid harts.others harts.hart, ?_,
      (State.advance_pending _).trans (State.publishAt_pending s true), only, fun wf a => ?_, ?_, fun c => ?_⟩
    · exact congrArg Hart.fetch (State.advance_spec _).shell
    · exact ((sameView_advance _).seen a).trans ((State.publishAt_seen s true wf).2.1 a)
    · obtain ⟨cores, own, ptroot⟩ := drains.cores (coreOf s.hid)
      rw [own] at core
      refine (congrArg Core.icache (core (coreOf s.hid))).trans ?_
      rw [if_pos rfl, ← cores, ← ptroot]
    · obtain ⟨cores, -, -⟩ := drains.cores c
      rw [← cores]
      refine (congrArg (fun x : Core => { x with icache := ((s.publishNear s.hid).core c).icache }) (core c)).trans ?_
      split <;> rfl

end Sys2Proof.Proofs
end

section
/-! SUPPORT. Lines that group agents hold exclusively (R165): only a strong access makes one, so no drain gives another cluster one. -/

namespace Sys2Proof.Machine
open Sys2Proof.Safety

/-- Of the lines of the 64-byte line of `key`, only those of cluster `own` are held exclusively. -/
def ExclusiveOwn (key : Nat) (own : Option Nat) (ls : List Line) : Prop :=
  ∀ l ∈ ls, l.exclusive = true → l.addr / 64 = key / 64 → some l.cluster = own

section
variable {key : Nat} {own : Option Nat}

/-- Fewer lines. -/
theorem ExclusiveOwn.sublist {ls ms : List Line} (h : ExclusiveOwn key own ls) (fewer : ms.Sublist ls) : ExclusiveOwn key own ms :=
  fun l hl => h l (fewer.subset hl)

/-- One more line, not exclusive or of the own cluster. -/
theorem ExclusiveOwn.cons {ls : List Line} (h : ExclusiveOwn key own ls) {l : Line} (one : l.exclusive = false ∨ some l.cluster = own) :
    ExclusiveOwn key own (l :: ls) := by
  intro m hm exclusive line
  rcases List.mem_cons.1 hm with rfl | hm
  · exact one.resolve_left (by rw [exclusive]; decide)
  · exact h m hm exclusive line

/-- Lines of two lists. -/
theorem ExclusiveOwn.append {ls ms : List Line} (h : ExclusiveOwn key own ls) (k : ExclusiveOwn key own ms) :
    ExclusiveOwn key own (ls ++ ms) :=
  fun l hl => (List.mem_append.1 hl).elim (h l) (k l)

/-- What agents keep of a byte that is written at its site is not exclusive anew. -/
theorem ExclusiveOwn.keepLines {s : State} (h : ExclusiveOwn key own s.lines) (by_ : Option Nat) (a : Nat) (old : Byte) :
    ExclusiveOwn key own (s.keepLines by_ a old) := by
  unfold State.keepLines
  refine List.foldlRecOn _ _ h fun ls ih k _ => ?_
  split
  · split
    · exact ih
    · exact ih.cons (.inl rfl)
  · exact ih.sublist List.filter_sublist

/-- Nor are they after a store of bytes at their site. -/
theorem ExclusiveOwn.storeBy {s : State} (h : ExclusiveOwn key own s.lines) (who : Option Nat) (a : Nat) (bs : List Byte) :
    ExclusiveOwn key own (s.storeBy who a bs).lines := by
  induction bs generalizing s a with
  | nil => exact h
  | cons b t ih =>
    rw [State.storeBy]
    refine ih ?_ (a + 1)
    have raw : ExclusiveOwn key own (s.rawBlock a).lines := by rw [State.rawBlock_lines]; exact h
    dsimp only
    split
    · exact raw
    · exact raw.keepLines _ _ _

/-- Nor after several. -/
theorem ExclusiveOwn.drainList {s : State} (h : ExclusiveOwn key own s.lines) (who : Option Nat) (p : List Host.Cell) :
    ExclusiveOwn key own (s.drainList who p).lines := by
  induction p with
  | nil => exact h
  | cons c p ih =>
    rw [State.drainList_cons]
    exact ih.storeBy _ _ _

/-- An agent's write-back. -/
theorem ExclusiveOwn.writeBack {s : State} (h : ExclusiveOwn key own s.lines) (k : Nat) (f : Nat → Bool) :
    ExclusiveOwn key own (s.writeBack k f).lines := by
  unfold State.writeBack
  extract_lets go t
  have stores : ExclusiveOwn key own t.lines := h.drainList none go
  cases go
  · exact h
  · exact (stores.sublist List.filter_sublist).append (h.sublist List.filter_sublist)

/-- Stores that leave the buffer of a hart of the own cluster. -/
theorem ExclusiveOwn.drainOwn {s : State} (h : ExclusiveOwn key own s.lines) {j : Nat} (mine : agentOf j = own) (p : List Host.Cell) :
    ExclusiveOwn key own (s.drainOwn j p).lines := by
  unfold State.drainOwn
  split
  next k agent =>
    unfold State.agentPuts
    refine List.foldlRecOn (motive := fun t : State => ExclusiveOwn key own t.lines) _ _ h fun t ih c _ => ?_
    exact (ih.sublist List.filter_sublist).cons (.inr (agent.symm.trans mine))
  next => exact (h.drainList (some j) p).sublist List.filter_sublist

end

section
variable {s : State} {key : Nat} (h : ExclusiveOwn key (agentOf s.hid) s.lines)
include h

/-- Drains of the hart in focus. -/
theorem ExclusiveOwn.drainSome (f : Nat → Bool) : ExclusiveOwn key (agentOf s.hid) (s.drainSome s.hid f).lines := by
  unfold State.drainSome
  rw [State.getHart_hid]
  dsimp only
  split
  · exact h
  · rw [State.setHart_hid]
    refine ExclusiveOwn.drainOwn ?_ rfl _
    exact h

/-- A Publish. -/
theorem ExclusiveOwn.publishAt (near : Bool) : ExclusiveOwn key (agentOf s.hid) (s.publishAt near).lines := by
  have drained : ExclusiveOwn key (agentOf s.hid) (s.publishNear s.hid).lines := h.drainSome fun _ => true
  cases near
  · rw [State.publishAt, if_neg (by decide), State.publish, State.publishHart]
    split
    · exact drained.writeBack _ _
    · exact drained
  · exact drained

/-- A range settled. -/
theorem ExclusiveOwn.settleRange (lo hi : Nat) : ExclusiveOwn key (agentOf s.hid) (s.settleRange s.hid lo hi).lines := by
  have drained : ExclusiveOwn key (agentOf s.hid) (s.drainRange s.hid lo hi).lines := h.drainSome _
  unfold State.settleRange
  dsimp only
  split
  · exact drained.writeBack _ _
  · exact drained

/-- Then no other agent has to give the line up. -/
theorem ExclusiveOwn.recallLine : s.recallLine (agentOf s.hid) key = s := by
  have none_ : s.lines.filter (fun l => l.exclusive && l.addr / 64 == key / 64 && some l.cluster != agentOf s.hid) = [] := by
    rw [List.filter_eq_nil_iff]
    intro l hl all
    simp only [Bool.and_eq_true, beq_iff_eq, bne_iff_ne] at all
    obtain ⟨⟨exclusive, line⟩, other⟩ := all
    exact other (h l hl exclusive line)
  unfold State.recallLine
  rw [none_]
  rfl

end

end Sys2Proof.Machine
end

section
/-! SUPPORT. A strong access comes to its home (R157, R158, R165, R173): what the hart sees, and what stands there. -/

namespace Sys2Proof.Machine
open Sys2Proof.Safety

/-- From `s` to `t` a strong access to `n` bytes at `key` has come to its home, the group agent (`home`) or the site: nothing changed there,
no store to those bytes is pending, and of the doublewords that they meet the hart sees the home's bytes. -/
structure AtHome (s t : State) (home : Bool) (key n : Nat) : Prop where
  hid : t.hid = s.hid
  wf : Memory.wf t.mem = true
  unheld : Unheld t key n
  seen : ∀ b, byteSeen t b = if NearBytes key n b then homeByte s home b else byteSeen s b
  homes : ∀ b, homeByte t home b = homeByte s home b
  empty : ∀ b, key ≤ b → b < key + n → t.hart.pending.any (fun c => c.1 == b) = false
  site : home = false → ∀ b, key ≤ b → b < key + n → Memory.get t.mem b = homeByte s false b

/-- Coming there once more changes nothing. -/
theorem AtHome.trans {s t u : State} {home : Bool} {key n : Nat} (h : AtHome s t home key n) (k : AtHome t u home key n) :
    AtHome s u home key n where
  hid := k.hid.trans h.hid
  wf := k.wf
  unheld := k.unheld
  seen b := by
    rw [k.seen, h.seen, h.homes]
    split <;> rfl
  homes b := (k.homes b).trans (h.homes b)
  empty := k.empty
  site far b lo hi := (k.site far b lo hi).trans (far ▸ h.homes b)

/-- Bytes of the access lie in the 64-byte lines that it meets. -/
theorem lines_hold {key n b : Nat} (lo : key ≤ b) (hi : b < key + n) : key / 64 * 64 ≤ b ∧ b < (key + n + 63) / 64 * 64 := by omega

/-- A state with the same view, after what holds no more and drops only lines. -/
theorem unheld_of {s t : State} {key n : Nat} (h : Unheld s key n) (hid : t.hid = s.hid) (purging : t.purging = s.purging)
    (lines : ExclusiveOwn key (agentOf s.hid) t.lines) : Unheld t key n := by
  refine ⟨fun l hl exclusive line => ?_, fun b lo hi => ?_⟩
  · rw [hid]
    exact lines l hl exclusive line
  · rw [State.heldByte, purging]
    exact h.2 b lo hi

section
variable {s : State} {key n : Nat} (hw : Memory.wf s.mem = true) (unheld : Unheld s key n)
include hw unheld

/-- The lines of the access settled: no store to their bytes is pending, and they are at the site (R165). -/
theorem settled_site {b : Nat} (lo : key ≤ b) (hi : b < key + n) :
    let t := s.settleRange s.hid (key / 64 * 64) ((key + n + 63) / 64 * 64)
    t.hart.pending.any (fun c => c.1 == b) = false ∧ Memory.get t.mem b = homeByte s false b := by
  obtain ⟨above, below⟩ := lines_hold lo hi
  have free := unheld.2 b above below
  obtain ⟨only, wf, -, home⟩ := State.drainRange_seen s (key / 64 * 64) ((key + n + 63) / 64 * 64) hw
  obtain ⟨hid, hart, -, purging⟩ := onlyMemory_harts only
  have empty : (s.drainRange s.hid (key / 64 * 64) ((key + n + 63) / 64 * 64)).hart.pending.any (fun c => c.1 == b) = false := by
    rw [hart]
    exact any_drained s free above below
  refine ⟨settleRange_pending hw free above below, ?_⟩
  rw [← home false b, homeByte_site, pendingGet_append, empty, hid, State.settleRange]
  dsimp only
  cases agent : agentOf s.hid with
  | none =>
    rw [owedCells_none]
    rfl
  | some k =>
    obtain ⟨-, -, -, -, at_⟩ := State.writeBack_seen (s.drainRange s.hid (key / 64 * 64) ((key + n + 63) / 64 * 64)) k
      (lineMeets (key / 64 * 64) ((key + n + 63) / 64 * 64)) (by rw [hid]; exact agent) wf
    have meets : lineMeets (key / 64 * 64) ((key + n + 63) / 64 * 64) (b / 64) = true := by
      rw [lineMeets, Bool.and_eq_true, decide_eq_true_eq, decide_eq_true_eq]
      omega
    have free' : (s.drainRange s.hid (key / 64 * 64) ((key + n + 63) / 64 * 64)).heldByte b = false := by
      rw [State.heldByte, purging]
      exact free
    dsimp only
    rw [at_, meets, free']
    rfl

end

/-- Older contents of some doublewords dropped leave what is to be written back, and the bytes at the site's home. -/
theorem State.freshen_home (s : State) (a n b : Nat) : homeByte (s.freshen s.hid a n) false b = homeByte s false b := by
  obtain ⟨only, mem, -⟩ := State.freshen_seen s a n
  obtain ⟨hid, hart, -, -⟩ := onlyMemory_harts only
  suffices owed : owedCells (s.freshen s.hid a n) (agentOf s.hid) = owedCells s (agentOf s.hid) by
    rw [homeByte_site, homeByte_site, hid, hart, mem, owed]
  unfold State.freshen
  cases agent : agentOf s.hid with
  | none => rw [owedCells_none, owedCells_none]
  | some k => exact State.dropLines_owed { s with stale := _ } k _ _

/-- It leaves fewer lines. -/
theorem State.freshen_lines (s : State) (h a n : Nat) : (s.freshen h a n).lines.Sublist s.lines := by
  unfold State.freshen
  dsimp only
  split
  · exact List.filter_sublist
  · exact .refl _

/-- A byte at the agent, with no older contents before it, is seen. -/
theorem byteSeen_of_copies {s t : State} (pending : t.hart.pending = s.hart.pending) (mem : t.mem = s.mem)
    (agent : t.agentCells (agentOf t.hid) = s.agentCells (agentOf s.hid)) {f : Nat → Bool}
    (copies : t.hartCopies t.hid = (s.hartCopies s.hid).filter (fun c => !f c.1)) (b : Nat) :
    byteSeen t b = if f b then homeByte s true b else byteSeen s b := by
  rw [byteSeen, State.copies, pending, mem, agent, copies, homeByte_agent, byteSeen, State.copies]
  simp only [pendingGet_append, any_filter_addr _ (fun m => !f m), pendingGet_filter _ (fun m => !f m)]
  cases f b <;> simp

/-- A line that agent `own` holds of the 64-byte line of `key` becomes exclusive (R165). -/
def claimLine (own : Option Nat) (key : Nat) (l : Line) : Line :=
  if some l.cluster = own ∧ l.addr / 64 = key / 64 then { l with exclusive := true } else l

/-- Claiming leaves what a line holds. -/
theorem claimLine_same (own : Option Nat) (key : Nat) (l : Line) : (claimLine own key l).cluster = l.cluster
    ∧ (claimLine own key l).addr = l.addr ∧ (claimLine own key l).val = l.val ∧ (claimLine own key l).dirty = l.dirty := by
  unfold claimLine
  split <;> exact ⟨rfl, rfl, rfl, rfl⟩

/-- The claimed lines are the own ones. -/
theorem ExclusiveOwn.claim {key : Nat} {own : Option Nat} {ls : List Line} (h : ExclusiveOwn key own ls) :
    ExclusiveOwn key own (ls.map (claimLine own key)) := by
  intro m hm exclusive line
  obtain ⟨l, hl, rfl⟩ := List.mem_map.1 hm
  unfold claimLine at exclusive line ⊢
  split at exclusive
  next mine =>
    rw [if_pos mine]
    exact mine.1
  next other =>
    rw [if_neg other] at line ⊢
    exact h l hl exclusive line

/-- A byte lies in one of the doublewords that `n` bytes at `key` meet (R158). -/
def nearByte (key n b : Nat) : Bool := decide (key / 8 ≤ b / 8) && decide (b / 8 < (key + n + 7) / 8)

/-- The lines of the access are claimed, and the hart's older contents of the doublewords have gone. -/
def State.claimed (s : State) (key n : Nat) : State :=
  { s with
    lines := s.lines.map (claimLine (agentOf s.hid) key)
    stale := s.stale.filter (fun k => !(k.1 == s.hid && nearByte key n k.2.1)) }

/-- Claiming leaves the bytes at the group agent, and of the doublewords the hart sees those. -/
theorem State.claimed_seen (s : State) (key n b : Nat) : homeByte (s.claimed key n) true b = homeByte s true b
    ∧ byteSeen (s.claimed key n) b = if NearBytes key n b then homeByte s true b else byteSeen s b := by
  obtain ⟨cells, -⟩ := cells_of_map (t := s.claimed key n) _ rfl (claimLine_same (agentOf s.hid) key) (agentOf s.hid)
  have copies : (s.claimed key n).hartCopies s.hid = _ := hartCopies_drop s s.hid (nearByte key n)
  refine ⟨?_, (byteSeen_of_copies (s := s) (t := s.claimed key n) (f := nearByte key n) rfl rfl cells copies b).trans ?_⟩
  · rw [homeByte_agent, homeByte_agent]
    exact congrArg (fun l => pendingGet (s.hart.pending ++ l) s.mem b) cells
  · simp only [nearByte, Bool.and_eq_true, decide_eq_true_eq]

section
variable {s : State} {near : Bool} {p : Place} {n : Nat} (window : p.window = false) (hw : Memory.wf s.mem = true) (unheld : Unheld s p.key n)
include window hw unheld

/-- A strong access comes to its site. -/
theorem atHome_site (site : s.atAgent near p = false) : AtHome s (s.atHome near p n) false p.key n := by
  set u := s.settleRange s.hid (p.key / 64 * 64) ((p.key + n + 63) / 64 * 64) with hu
  obtain ⟨only, wf, seen, home⟩ := State.settleRange_seen s (p.key / 64 * 64) ((p.key + n + 63) / 64 * 64) hw
  obtain ⟨hid, -, -, purging⟩ := onlyMemory_harts only
  rw [← hu] at only wf seen home hid purging
  have lines : ExclusiveOwn p.key (agentOf s.hid) u.lines := ExclusiveOwn.settleRange unheld.1 _ _
  have recalled : u.recallLine (agentOf s.hid) p.key = u := by
    rw [← hid] at lines ⊢
    exact lines.recallLine
  have come : s.atHome near p n = u.freshen u.hid p.key n := by
    unfold State.atHome
    simp only [window, site, Bool.false_eq_true, if_false, ← hu, recalled, hid]
  obtain ⟨fresh, mem, freshSeen⟩ := State.freshen_seen u p.key n
  obtain ⟨fhid, fhart, -, fpurging⟩ := onlyMemory_harts fresh
  rw [come]
  refine ⟨fhid.trans hid, by rw [mem]; exact wf, unheld_of unheld (fhid.trans hid) (fpurging.trans purging)
    (lines.sublist (u.freshen_lines _ _ _)), fun b => ?_, fun b => ?_, fun b lo hi => ?_, fun _ b lo hi => ?_⟩
  · rw [freshSeen, home, seen]
  · rw [State.freshen_home, home]
  · rw [fhart]
    exact (settled_site hw unheld lo hi).1
  · rw [mem]
    exact (settled_site hw unheld lo hi).2

/-- A strong access comes to its group agent. -/
theorem atHome_agent (agent : s.atAgent near p = true) : AtHome s (s.atHome near p n) true p.key n := by
  set u := s.drainRange s.hid (p.key / 64 * 64) ((p.key + n + 63) / 64 * 64) with hu
  obtain ⟨only, wf, seen, home⟩ := State.drainRange_seen s (p.key / 64 * 64) ((p.key + n + 63) / 64 * 64) hw
  obtain ⟨hid, hart, -, purging⟩ := onlyMemory_harts only
  rw [← hu] at only wf seen home hid hart purging
  have lines : ExclusiveOwn p.key (agentOf u.hid) u.lines := by
    rw [hid]
    exact ExclusiveOwn.drainSome unheld.1 _
  have come : s.atHome near p n = u.claimed p.key n := by
    unfold State.atHome
    simp only [window, agent, Bool.false_eq_true, if_false, if_true, ← hu, Bool.and_assoc]
    rfl
  rw [come]
  refine ⟨hid, wf, unheld_of unheld hid purging (hid ▸ lines.claim), fun b => ?_, fun b => ?_, fun b lo hi => ?_,
    fun far => absurd far (by decide)⟩
  · rw [(u.claimed_seen p.key n b).2, home, seen]
  · rw [(u.claimed_seen p.key n b).1, home]
  · obtain ⟨above, below⟩ := lines_hold lo hi
    have left : (u.claimed p.key n).hart.pending = u.hart.pending := rfl
    rw [left, hart]
    exact any_drained s (unheld.2 b above below) above below

end

end Sys2Proof.Machine
end

section
/-! SUPPORT. A strong access writes at its home (R157, R165, R173). -/

namespace Sys2Proof.Machine
open Sys2Proof.Safety

/-- From `s` to `t` the low `n` bytes of `w` have been written at `key` at their home, the group agent (`home`) or the site; the hart sees
them, and nothing else changes there or for it. -/
structure StoredHome (s t : State) (home : Bool) (key n : Nat) (w : Word) : Prop where
  wf : Memory.wf t.mem = true
  seen : SeesStore s t key n w
  homes : ∀ b, homeByte t home b = if key ≤ b ∧ b < key + n then byteOf w (b - key) else homeByte s home b
  site : home = false → ∀ b, key ≤ b → b < key + n → Memory.get t.mem b = byteOf w (b - key)

/-- Views that stay before and after. -/
theorem StoredHome.congr {s s' t t' : State} {home : Bool} {key n : Nat} {w : Word} (h : StoredHome s t home key n w) (before : SameView s' s)
    (after : SameView t t') : StoredHome s' t' home key n w where
  wf := by rw [after.mem]; exact h.wf
  seen := seesStore_congr h.seen before after
  homes b := by rw [after.home, h.homes, before.home]
  site far b lo hi := by rw [after.mem]; exact h.site far b lo hi

/-! ### At the group agent -/

/-- The agent of cluster `k` takes bytes of hart `h` for lines that it holds exclusively. -/
def State.claimPuts (s : State) (k h : Nat) (p : List Host.Cell) : State := p.reverse.foldl (fun s c => s.agentPut k h true c) s

/-- One more byte, the newest. -/
theorem State.claimPuts_cons (s : State) (k h : Nat) (c : Host.Cell) (p : List Host.Cell) :
    s.claimPuts k h (c :: p) = (s.claimPuts k h p).agentPut k h true c := by
  simp only [State.claimPuts, List.reverse_cons, List.foldl_append, List.foldl_cons, List.foldl_nil]

/-- The same where the hart is the one in focus at each step. -/
theorem State.claimPuts_eq (s : State) (k : Nat) (p : List Host.Cell) :
    p.reverse.foldl (fun s c => s.agentPut k s.hid true c) s = s.claimPuts k s.hid p := by
  suffices all : ∀ (l : List Host.Cell) (t : State), t.hid = s.hid →
      l.foldl (fun s c => s.agentPut k s.hid true c) t = l.foldl (fun t c => t.agentPut k s.hid true c) t from all _ s rfl
  intro l
  induction l with
  | nil => exact fun _ _ => rfl
  | cons c l ih =>
    intro t hid
    rw [List.foldl_cons, List.foldl_cons, hid]
    exact ih _ hid

/-- Lookups find the bytes that the agent took first, in the hart's view and at the agent. -/
theorem State.claimPuts_spec (s : State) (k h : Nat) (p : List Host.Cell) :
    OnlyMemory s (s.claimPuts k h p) ∧ (s.claimPuts k h p).mem = s.mem
    ∧ (∀ a, pendingGet ((s.claimPuts k h p).hartCopies h ++ (s.claimPuts k h p).agentCells (some k)) s.mem a
      = pendingGet (p ++ (s.hartCopies h ++ s.agentCells (some k))) s.mem a)
    ∧ ∀ a, pendingGet ((s.claimPuts k h p).agentCells (some k)) s.mem a = pendingGet (p ++ s.agentCells (some k)) s.mem a := by
  induction p with
  | nil => exact ⟨rfl, rfl, fun _ => rfl, fun _ => rfl⟩
  | cons c p ih =>
    obtain ⟨only, mem, view, agent⟩ := ih
    obtain ⟨only', mem', agent', -, copies'⟩ := State.agentPut_spec (s.claimPuts k h p) k h true c
    have newest (l : List Host.Cell) (a : Nat) : pendingGet (c :: l) s.mem a = if c.1 = a then c.2 else pendingGet l s.mem a := rfl
    rw [State.claimPuts_cons]
    refine ⟨onlyMemory_trans only only', mem'.trans mem, fun a => ?_, fun a => ?_⟩
    · rw [agent', copies', pendingGet_two, newest, view, List.cons_append, newest]
    · have two := pendingGet_two [] ((s.claimPuts k h p).agentCells (some k)) s.mem c a
      rw [List.filter_nil, List.nil_append, List.nil_append] at two
      rw [agent', two, newest, agent, List.cons_append, newest]

/-- A byte looked up behind a list that names none of the bytes stored, where lookups find those first. -/
theorem pendingGet_behind {q l l' m : List Host.Cell} {key n b : Nat} {w : Word}
    (empty : key ≤ b → b < key + n → q.any (fun c => c.1 == b) = false)
    (first : pendingGet l' m b = pendingGet (pendStore [] key (lowBytes n w) ++ l) m b) :
    pendingGet (q ++ l') m b = if key ≤ b ∧ b < key + n then byteOf w (b - key) else pendingGet (q ++ l) m b := by
  rw [pendingGet_append, first, pendStore_append, List.nil_append, pendingGet_pendStore, lowBytes_length, pendingGet_append]
  split
  next named =>
    split
    next at_ => rw [empty at_.1 at_.2] at named; exact absurd named (by decide)
    next => rfl
  next free =>
    split
    next at_ => exact lowBytes_getD (by omega) w
    next => rfl

/-- Bytes written at the group agent. -/
theorem storedHome_claimPuts {s : State} {k key n : Nat} (w : Word) (agent : agentOf s.hid = some k) (hw : Memory.wf s.mem = true)
    (empty : ∀ b, key ≤ b → b < key + n → s.hart.pending.any (fun c => c.1 == b) = false) :
    StoredHome s (s.claimPuts k s.hid (pendStore [] key (lowBytes n w))) true key n w := by
  obtain ⟨only, mem, view, cells⟩ := State.claimPuts_spec s k s.hid (pendStore [] key (lowBytes n w))
  obtain ⟨hid, hart, -, -⟩ := onlyMemory_harts only
  refine ⟨by rw [mem]; exact hw, fun b => ?_, fun b => ?_, fun far => absurd far (by decide)⟩
  · rw [byteSeen, byteSeen, State.copies, State.copies, hid, hart, mem, agent]
    exact pendingGet_behind (empty b) (view b)
  · rw [homeByte_agent, homeByte_agent, hid, hart, mem, agent]
    exact pendingGet_behind (empty b) (cells b)

/-! ### At the site -/

/-- An agent that has dropped the bytes for which a test holds has dropped them of what it owed. -/
theorem owedCells_of_filter {s t : State} {k : Nat} (f : Nat → Bool)
    (lines : t.lines.filter (fun l => l.cluster == k) = (s.lines.filter (fun l => l.cluster == k)).filter (fun l => !f l.addr)) :
    owedCells t (some k) = (owedCells s (some k)).filter (fun c => !f c.1) := by
  have same : t.lines.filter (fun l => l.cluster == k)
      = ({ s with lines := s.lines.filter (fun l => !f l.addr) } : State).lines.filter (fun l => l.cluster == k) := by
    rw [lines, List.filter_filter, List.filter_filter]
    exact List.filter_congr fun l _ => Bool.and_comm _ _
  obtain ⟨agent, dirty⟩ := agentCells_of same
  have agent' : t.agentCells (some k) = (s.agentCells (some k)).filter (fun c => !f c.1) := by
    rw [agent, State.agentCells, State.agentCells, List.filter_map, List.filter_filter, List.filter_filter]
    exact congrArg (List.map _) (List.filter_congr fun l _ => Bool.and_comm _ _)
  have dirty' : t.dirtyCells (some k) = (s.dirtyCells (some k)).filter (fun c => !f c.1) := by
    rw [dirty, State.dirtyCells, State.dirtyCells, List.filter_map, List.filter_filter, List.filter_filter]
    exact congrArg (List.map _) (List.filter_congr fun l _ => Bool.and_comm _ _)
  rw [owedCells, owedCells, agent', dirty', List.filter_filter, List.filter_filter]
  refine List.filter_congr fun c _ => ?_
  rw [any_filter_addr _ (fun m => !f m)]
  cases f c.1 <;> simp

/-- A hart's own store at its site: its agent owes nothing of those bytes, and the rest is as before. -/
theorem State.storeOwn_home {s : State} {key n : Nat} (w : Word) (hw : Memory.wf s.mem = true)
    (empty : ∀ b, key ≤ b → b < key + n → s.hart.pending.any (fun c => c.1 == b) = false) (b : Nat) :
    homeByte (s.storeOwn key (lowBytes n w)) false b
      = if key ≤ b ∧ b < key + n then byteOf w (b - key) else homeByte s false b := by
  set f : Nat → Bool := fun b => decide (key ≤ b) && decide (b < key + (lowBytes n w).length) with hf
  obtain ⟨hid, hart, -, -⟩ := onlyMemory_harts (State.storeOwn_only s key (lowBytes n w))
  have owed : owedCells (s.storeOwn key (lowBytes n w)) (agentOf s.hid) = (owedCells s (agentOf s.hid)).filter (fun c => !f c.1) := by
    cases agent : agentOf s.hid with
    | none => rw [owedCells_none, owedCells_none]; rfl
    | some k =>
      refine owedCells_of_filter f ?_
      rw [← (State.storeBy_own s s.hid key (lowBytes n w)).2 k agent, State.storeOwn, State.seesSite,
        List.filter_filter, List.filter_filter, agent]
      refine List.filter_congr fun l _ => ?_
      rw [Option.some_beq_some]
      cases l.cluster == k <;> simp [hf]
  have mem : Memory.get (s.storeOwn key (lowBytes n w)).mem b
      = if key ≤ b ∧ b < key + n then byteOf w (b - key) else Memory.get s.mem b := by
    rw [State.storeOwn_mem, Memory.get_write _ _ hw (Nat.zero_le _), lowBytes_length]
    split
    next at_ => exact lowBytes_getD (by omega) w
    next => rfl
  rw [homeByte_site, homeByte_site, hid, hart, owed, pendingGet_append, pendingGet_append,
    pendingGet_filter _ (fun m => !f m)]
  by_cases at_ : key ≤ b ∧ b < key + n
  · have hb : f b = true := by rw [hf, lowBytes_length]; simp only [at_.1, at_.2, decide_true, Bool.and_self]
    rw [if_pos at_] at mem ⊢
    rw [empty b at_.1 at_.2, hb]
    exact mem
  · have hb : f b = false := by
      rw [hf, lowBytes_length]
      simpa only [Bool.and_eq_false_iff, decide_eq_false_iff_not, not_and_or] using at_
    rw [if_neg at_] at mem ⊢
    rw [pendingGet_congr _ mem, pendingGet_congr _ mem, hb]
    rfl

/-- Bytes written at the site. -/
theorem storedHome_writeNow {s : State} {p : Place} {n : Nat} (w : Word) (plain : pteCmp p.pte = 0) (hw : Memory.wf s.mem = true)
    (unheld : Unheld s p.key n) : StoredHome s (s.writeNow p (lowBytes n w)) false p.key n w := by
  have free : ∀ b, p.key ≤ b → b < p.key + n → s.heldByte b = false := fun b lo hi =>
    unheld.2 b (lines_hold lo hi).1 (lines_hold lo hi).2
  have range : s.heldRange p.key n = false := by
    rw [State.heldRange, List.any_eq_false]
    intro i hi
    rw [free (p.key + i) (by omega) (by have := List.mem_range.1 hi; omega)]
    decide
  obtain ⟨wf, seen, site⟩ := seesStore_storeOwn w range hw
  obtain ⟨only, wf', -, home⟩ := State.settleRange_seen s p.key (p.key + n) hw
  have now : s.writeNow p (lowBytes n w) = (s.settleRange s.hid p.key (p.key + n)).storeOwn p.key (lowBytes n w) := by
    rw [State.writeNow, if_neg (by rw [plain]; decide), lowBytes_length]
  rw [now]
  refine ⟨wf, seen, fun b => ?_, fun _ => site⟩
  rw [State.storeOwn_home w wf' (fun b lo hi => settleRange_pending hw (free b lo hi) lo hi), home]

end Sys2Proof.Machine
end

section
/-! SUPPORT and settles O10. The AMOs (R69, R70, R157, R158, R161, R197, R384). -/

namespace Sys2Proof.Machine
open Sys2Proof.Safety

/-- What keeps the harts keeps the registers of the hart in focus. -/
theorem KeepsHarts.x {s t : State} (h : KeepsHarts s t) (r : Reg) : t.x r = s.x r := by
  have hart := h.hart
  have regs : t.hart.x = s.hart.x := congrArg (·.x) hart
  rw [State.x, State.x, regs]

/-! ### A strong write -/

/-- A strong write keeps the harts. -/
theorem State.writeStrong_keeps (s : State) (near : Bool) (p : Place) (bs : List Byte) : KeepsHarts s (s.writeStrong near p bs) := by
  unfold State.writeStrong
  extract_lets t
  have come : KeepsHarts s t := (State.atHome_drains s near p bs.length).keepsHarts.trans (State.noteKey_keeps _ _ _ _).1
  clear_value t
  split
  · exact (come.trans (keepsHarts_of_only (State.storeOwn_only t p.key bs))).trans (State.setDirty_keeps _ _ _).1
  · split
    · split
      · refine come.trans (keepsHarts_foldl _ (fun u c => ?_) _ t)
        exact keepsHarts_of_only (State.agentPut_spec u _ _ true c).1
      · exact come
    · exact come.trans (State.writeNow_keeps t p bs)

/-- A strong write to the window is performed in local memory. -/
theorem State.writeStrong_window {s : State} {p : Place} (window : p.window = true) (near : Bool) (bs : List Byte) :
    (s.writeStrong near p bs).mem = Memory.write s.mem p.key bs := by
  have come : s.atHome near p bs.length = s := if_pos window
  rw [State.writeStrong, come, if_pos window, (State.setDirty_keeps _ _ _).2.mem, State.storeOwn_mem, (State.noteKey_sameView _ _ _ _).mem]

/-- Where it comes to its home, a place outside the window. -/
theorem atHome_comes {s : State} {p : Place} {n : Nat} (near : Bool) (window : p.window = false) (hw : Memory.wf s.mem = true)
    (unheld : Unheld s p.key n) : AtHome s (s.atHome near p n) (s.atAgent near p) p.key n := by
  cases agent : s.atAgent near p
  · exact atHome_site window hw unheld agent
  · exact atHome_agent window hw unheld agent

/-- Which home is that of a hart of the same identity. -/
theorem State.atAgent_hid {s t : State} (hid : t.hid = s.hid) (near : Bool) (p : Place) : t.atAgent near p = s.atAgent near p := by
  rw [State.atAgent, State.atAgent, hid]

/-- An access at its group agent is one of a hart that has one. -/
theorem agentOf_atAgent {s : State} {near : Bool} {p : Place} (agent : s.atAgent near p = true) : ∃ k, agentOf s.hid = some k := by
  simp only [State.atAgent, Bool.and_eq_true] at agent
  obtain ⟨⟨⟨-, compute⟩, -⟩, -⟩ := agent
  exact ⟨_, if_pos compute⟩

/-- The bytes at the home of a scope are those at the home of the access: a service core's harts have no agent. -/
theorem homeByte_scope {s t : State} {near : Bool} {p : Place} (window : p.window = false) (plain : pteCmp p.pte = 0) (hid : t.hid = s.hid)
    (a : Nat) : homeByte t near a = homeByte t (s.atAgent near p) a := by
  cases near
  · rfl
  · cases compute : isCompute s.hid with
    | true => rw [State.atAgent, window, plain, compute]; rfl
    | false =>
      have none_ : agentOf t.hid = none := by rw [hid, agentOf, compute]; rfl
      have site : s.atAgent true p = false := by rw [State.atAgent, compute]; rfl
      rw [site, homeByte_agent, homeByte_site, none_, State.agentCells_none, owedCells_none]

/-- Bytes written strongly, where no store to them is pending. -/
theorem storedHome_writeStrong {s : State} {p : Place} {n : Nat} (near : Bool) (w : Word) (window : p.window = false)
    (plain : pteCmp p.pte = 0) (hw : Memory.wf s.mem = true) (unheld : Unheld s p.key n) :
    StoredHome (s.atHome near p n) (s.writeStrong near p (lowBytes n w)) (s.atAgent near p) p.key n w := by
  have come := atHome_comes near window hw unheld
  have noted := State.noteKey_sameView (s.atHome near p n) (ctxOf s.hart.csr.ptroot) p.va p.key
  have held := (State.noteKey_keeps (s.atHome near p n) (ctxOf s.hart.csr.ptroot) p.va p.key).2.1
  set t := (s.atHome near p n).noteKey (ctxOf s.hart.csr.ptroot) p.va p.key with ht
  have hid : t.hid = s.hid := noted.hid.trans come.hid
  have wf : Memory.wf t.mem = true := by rw [noted.mem]; exact come.wf
  have outside : ¬ p.window = true := by rw [window]; decide
  cases agent : s.atAgent near p with
  | true =>
    obtain ⟨k, own⟩ := agentOf_atAgent agent
    rw [← hid] at own
    have write : s.writeStrong near p (lowBytes n w) = t.claimPuts k t.hid (pendStore [] p.key (lowBytes n w)) := by
      rw [State.writeStrong, lowBytes_length, ← ht, if_neg outside, if_pos ((State.atAgent_hid hid near p).trans agent), own]
      exact State.claimPuts_eq t k _
    rw [write]
    refine (storedHome_claimPuts w own wf fun b lo hi => ?_).congr noted ⟨rfl, rfl, rfl, rfl, rfl⟩
    rw [noted.pending]
    exact come.empty b lo hi
  | false =>
    have site : ¬ t.atAgent near p = true := by rw [State.atAgent_hid hid, agent]; decide
    rw [State.writeStrong, lowBytes_length, ← ht, if_neg outside, if_neg site]
    refine (storedHome_writeNow w plain wf ⟨fun l hl => ?_, fun b lo hi => ?_⟩).congr noted ⟨rfl, rfl, rfl, rfl, rfl⟩
    · rw [noted.hid]
      exact come.unheld.1 l (noted.lines ▸ hl)
    · rw [held]
      exact come.unheld.2 b lo hi

/-! ### The AMOs (Table 04-8) -/

/-- The old value that an AMO reads at its home. -/
def State.amoOld (s : State) (near : Bool) (p : Place) (n : Nat) : BitVec (8 * n) :=
  BitVec.ofNat (8 * n) (natOfBytes ((s.atHome near p n).readHome near p n))

/-- What an AMO leaves before it writes x[rd]: the new value at its home, and under aq an open. -/
def State.amoStored (s : State) (near : Bool) (p : Place) (n : Nat) (aq : Bool) (r : BitVec (8 * n)) : State :=
  let t := ((s.atHome near p n).writeStrong near p (bytesOfNat n r.toNat)).chargeBlanket p n
  if aq then t.openAt near else t

/-- It keeps the harts. -/
theorem State.amoStored_keeps (s : State) (near : Bool) (p : Place) (n : Nat) (aq : Bool) (r : BitVec (8 * n)) :
    KeepsHarts s (s.amoStored near p n aq r) := by
  unfold State.amoStored
  extract_lets t
  have stored : KeepsHarts s t := ((State.atHome_drains s near p n).keepsHarts.trans (State.writeStrong_keeps _ near p _)).trans
    (State.chargeBlanket_keeps _ p n).1
  clear_value t
  split
  · exact stored.trans (keepsHarts_of_only (State.openAt_only t near))
  · exact stored

section
variable {s u : State} {p : Place} {n : Nat} {rd rs1 rs2 : Reg} {aq rl : Bool} {op : BitVec (8 * n) → BitVec (8 * n) → BitVec (8 * n)}
  (h : check s .amo (s.x rs1) n false = (u, .ok p))
include h

/-- An AMO waits for the results of SHIPs (R70). -/
theorem State.amo_ships (ships : u.shipsOut = true) : s.amo n rd rs1 rs2 aq rl op = u.block .ships := by
  simp only [State.amo, h, ships, if_true]

/-- It waits for a cell being purged (R197). -/
theorem State.amo_held (ships : u.shipsOut = false) {c : Nat} (held : u.heldCell? p = some c) :
    s.amo n rd rs1 rs2 aq rl op = u.block (.purge c) := by
  simp only [State.amo, h, ships, held, Bool.false_eq_true, if_false]

/-- Under rl it meets the lost store (R384). -/
theorem State.amo_lost (ships : u.shipsOut = false) (free : u.heldCell? p = none) (close : rl = true) (lost : u.hart.lostStore = true) :
    s.amo n rd rs1 rs2 aq rl op = .next (({ u with hart := { u.hart with lostStore := false } } : State).trap 7 0) := by
  simp only [State.amo, h, ships, free, close, Bool.false_eq_true, if_false, if_true]
  exact State.publishThenAt_lost lost _ _

/-- Else it is performed at its home, closed under rl. -/
theorem State.amo_runs (ships : u.shipsOut = false) (free : u.heldCell? p = none) (may : rl = true → MayPublish u) :
    let v := if rl then u.publishAt s.scopeNear else u
    let old := v.amoOld s.scopeNear p n
    s.amo n rd rs1 rs2 aq rl op
      = .next ((v.amoStored s.scopeNear p n aq (op old ((s.x rs2).setWidth (8 * n)))).setX rd (old.signExtend 64)).advance := by
  intro v old
  have harts : KeepsHarts u (v.atHome s.scopeNear p n) := by
    refine KeepsHarts.trans ?_ (State.atHome_drains v _ p n).keepsHarts
    unfold v
    split
    · exact (State.publishAt_drains u _).keepsHarts
    · exact .refl u
  have regs : (v.atHome s.scopeNear p n).x rs2 = s.x rs2 := by
    rw [harts.x, onlyTlb_x (onlyTlb_check h)]
  rw [← regs]
  simp only [State.amo, h, ships, free, Bool.false_eq_true, if_false]
  cases rl
  · rfl
  · exact (if_pos rfl).trans (State.publishThenAt_may (may rfl) _ _)

end

section
variable {s : State} {near : Bool} {p : Place} {n : Nat}

/-- The old value at a place of the window. -/
theorem State.amoOld_window (plain : p.meta_ = none) (window : p.window = true) :
    s.amoOld near p n = BitVec.ofNat (8 * n) (valueLocal s p.key n) := by
  have come : s.atHome near p n = s := if_pos window
  have site : s.atAgent near p = false := by rw [State.atAgent, window, Bool.not_true, Bool.and_false, Bool.false_and]
  rw [State.amoOld, come, State.readHome, site, if_neg (by decide), List.append_nil, readOver_plain s _ plain]
  rfl

/-- What an AMO writes at a place of the window. -/
theorem State.amoStored_window (fits : 8 * n ≤ 64) (window : p.window = true) (aq : Bool) (r : BitVec (8 * n))
    (hw : Memory.wf s.mem = true) :
    Memory.wf (s.amoStored near p n aq r).mem = true ∧ Wrote s (s.amoStored near p n aq r) p.key n (r.setWidth 64) := by
  have come : s.atHome near p n = s := if_pos window
  have mem : (s.amoStored near p n aq r).mem = Memory.write s.mem p.key (lowBytes n (r.setWidth 64)) := by
    rw [State.amoStored, come, bytesOfNat_toNat fits, ← State.writeStrong_window window near]
    have charged := (State.chargeBlanket_keeps (s.writeStrong near p (lowBytes n (r.setWidth 64))) p n).2.mem
    cases aq
    · exact charged
    · exact (State.openAt_seen _ near).2.1.trans charged
  obtain ⟨wf, wrote⟩ := wrote_storeWhole p.key n (r.setWidth 64) hw
  rw [State.storeWhole_mem] at wf
  rw [Wrote, State.storeWhole_mem] at wrote
  rw [Wrote, mem]
  exact ⟨wf, wrote⟩

variable (window : p.window = false) (hw : Memory.wf s.mem = true) (unheld : Unheld s p.key n)
include window hw unheld

/-- The old value at its home. -/
theorem State.amoOld_home (plain : p.meta_ = none) :
    s.amoOld near p n = BitVec.ofNat (8 * n) (valueHome s (s.atAgent near p) p.key n) := by
  have come := atHome_comes near window hw unheld
  suffices bytes : (s.atHome near p n).readHome near p n = (List.range n).map (fun k => homeByte s (s.atAgent near p) (p.key + k)) by
    rw [State.amoOld, bytes]
    rfl
  rw [State.readHome, readOver_plain _ _ plain, State.atAgent_hid come.hid]
  refine List.map_congr_left fun k hk => ?_
  have hk := List.mem_range.1 hk
  cases agent : s.atAgent near p with
  | true =>
    rw [agent] at come
    exact come.homes (p.key + k)
  | false =>
    rw [agent] at come
    rw [if_neg (by decide), List.append_nil, pendingGet_none _ _ _ (come.empty _ (by omega) (by omega))]
    exact come.site rfl _ (by omega) (by omega)

/-- What an AMO leaves at its home and for its hart to see. -/
theorem State.amoStored_home (fits : 8 * n ≤ 64) (plain : pteCmp p.pte = 0) (aq : Bool) (r : BitVec (8 * n)) :
    let t := s.amoStored near p n aq r
    let home := s.atAgent near p
    let new := r.setWidth 64
    Memory.wf t.mem = true
    ∧ (∀ b, byteSeen t b = if p.key ≤ b ∧ b < p.key + n then byteOf new (b - p.key)
        else if aq = true ∨ NearBytes p.key n b then homeByte s near b else byteSeen s b)
    ∧ ∀ b, p.key ≤ b → b < p.key + n → homeByte t home b = byteOf new (b - p.key)
      ∧ (home = false → Memory.get t.mem b = byteOf new (b - p.key)) := by
  intro t home new
  have come := atHome_comes near window hw unheld
  have again := atHome_comes near window come.wf come.unheld
  have stored := storedHome_writeStrong near new window plain come.wf come.unheld
  rw [State.atAgent_hid come.hid] at again stored
  have twice := come.trans again
  set c := ((s.atHome near p n).writeStrong near p (lowBytes n new)).chargeBlanket p n with hc
  have charged := (State.chargeBlanket_keeps ((s.atHome near p n).writeStrong near p (lowBytes n new)) p n).2
  have stored := stored.congr ⟨rfl, rfl, rfl, rfl, rfl⟩ charged
  have hid : c.hid = s.hid := charged.hid.trans ((State.writeStrong_keeps _ near p _).hid.trans come.hid)
  have scope {v : State} (same : v.hid = s.hid) (b : Nat) : homeByte v near b = homeByte v (s.atAgent near p) b :=
    homeByte_scope window plain same b
  have before : t = if aq then c.openAt near else c := by
    unfold t
    rw [State.amoStored, bytesOfNat_toNat fits]
  cases aq with
  | false =>
    rw [before, if_neg (by decide)]
    refine ⟨stored.wf, fun b => ?_, fun b lo hi => ⟨?_, fun far => stored.site far b lo hi⟩⟩
    · rw [stored.seen, twice.seen, scope rfl]
      simp only [Bool.false_eq_true, false_or]
    · rw [stored.homes, if_pos ⟨lo, hi⟩]
  | true =>
    obtain ⟨only, mem, seen⟩ := State.openAt_seen c near
    have opened : (c.openAt near).hid = s.hid := (onlyMemory_harts only).1.trans hid
    rw [before, if_pos rfl]
    refine ⟨by rw [mem]; exact stored.wf, fun b => ?_, fun b lo hi => ⟨?_, fun far => ?_⟩⟩
    · rw [seen, scope hid, stored.homes, twice.homes, scope rfl]
      simp only [true_or, if_true]
    · rw [← scope opened, State.openAt_home, scope hid, stored.homes, if_pos ⟨lo, hi⟩]
    · rw [mem]
      exact stored.site far b lo hi

end

/-! ### Closing first, under rl -/

/-- A state that is closed under rl keeps the harts, the views, the bytes at both homes, and exclusive lines. -/
theorem closed_spec (u : State) (near rl : Bool) :
    let v := if rl then u.publishAt near else u
    KeepsHarts u v ∧ (∀ key n, Unheld u key n → Unheld v key n)
    ∧ (Memory.wf u.mem = true → Memory.wf v.mem = true ∧ (∀ a, byteSeen v a = byteSeen u a)
      ∧ ∀ near' a, homeByte v near' a = homeByte u near' a) := by
  cases rl with
  | false => exact ⟨.refl u, fun _ _ h => h, fun hw => ⟨hw, fun _ => rfl, fun _ _ => rfl⟩⟩
  | true =>
    have drains := State.publishAt_drains u near
    obtain ⟨hid, -, purging, -⟩ := drains.keeps
    exact ⟨drains.keepsHarts, fun key n h => unheld_of h hid purging (ExclusiveOwn.publishAt h.1 near), State.publishAt_seen u near⟩

/-- The same bytes at a home are the same value. -/
theorem valueHome_congr {s t : State} {home : Bool} (h : ∀ a, homeByte t home a = homeByte s home a) (key n : Nat) :
    valueHome t home key n = valueHome s home key n := by
  simp only [valueHome, h]

/-- Only the lines, the harts' identity and the cells being purged decide that a line is free. -/
theorem onlyTlb_unheld {s u : State} (h : OnlyTlb s u) {key n : Nat} (unheld : Unheld s key n) : Unheld u key n := by
  have view := onlyTlb_sameView h
  refine unheld_of unheld view.hid (onlyTlb_purging h).1 ?_
  rw [view.lines]
  exact unheld.1

/-! ### Signed and unsigned order -/

/-- The smaller of two signed values. -/
theorem ite_slt_eq {m : Nat} {α : Type} (a b : BitVec m) (x y : α) : (if a.slt b then x else y) = if a.toInt < b.toInt then x else y := by
  simp only [BitVec.slt_iff_toInt_lt]

/-- The smaller of two unsigned values. -/
theorem ite_ult_eq {m : Nat} {α : Type} (a b : BitVec m) (x y : α) : (if a.ult b then x else y) = if a.toNat < b.toNat then x else y := by
  simp only [BitVec.ult_iff_toNat_lt]

end Sys2Proof.Machine

namespace Sys2Proof.Proofs
open Sys2Proof Sys2Proof.Machine Sys2Proof.Safety

/-- Settles O10: each AMO is `State.amo` with its operation, and what that leaves follows at its home and in the window. -/
theorem atomicOperations : Obligations.AtomicOperations := by
  intro s u p rd rs1 rs2 aq rl near home done
  have all {i : Instr} {n : Nat} {op : BitVec (8 * n) → BitVec (8 * n) → BitVec (8 * n)} (fits : 8 * n ≤ 64)
      (run : exec i s = s.amo n rd rs1 rs2 aq rl op) : done i n op := by
    intro passes
    have only := onlyTlb_check passes
    have view := onlyTlb_sameView only
    have harts := onlyTlb_keepsHarts only
    obtain ⟨closed, unheld, seen⟩ := closed_spec u near rl
    refine ⟨fun ships => run.trans (State.amo_ships passes ships), fun ships c held => run.trans (State.amo_held passes ships held),
      fun ships free close lost => run.trans (State.amo_lost passes ships free close (by rw [only.hart]; exact lost)),
      fun ships free may => ?_⟩
    have may' : rl = true → MayPublish u := fun close => (onlyTlb_mayPublish only).2 (may close)
    let v : State := if rl then u.publishAt near else u
    let r := op (v.amoOld near p n) ((s.x rs2).setWidth (8 * n))
    have kept : KeepsHarts s (v.amoStored near p n aq r) := (harts.trans closed).trans (State.amoStored_keeps v near p n aq r)
    have retire := sameView_retire (v.amoStored near p n aq r) rd ((v.amoOld near p n).signExtend 64)
    refine ⟨_, _, run.trans (State.amo_runs passes ships free may'), kept.memRetired rd _, fun wf plain window => ?_,
      fun wf plain window free => ?_⟩
    · obtain ⟨wf', -, -⟩ := seen (by rw [view.mem]; exact wf)
      intro v' old
      have hold : v.amoOld near p n = old := State.amoOld_window plain.2.1 window
      obtain ⟨stays, wrote⟩ := State.amoStored_window (near := near) fits window aq r wf'
      rw [← hold]
      refine ⟨rfl, by rw [retire.mem]; exact stays, fun a => ?_⟩
      rw [retire.mem]
      exact wrote a
    · obtain ⟨wf', byte, homes⟩ := seen (by rw [view.mem]; exact wf)
      have free' := unheld p.key n (onlyTlb_unheld only free)
      have hid : v.hid = s.hid := closed.hid.trans harts.hid
      have same (near' : Bool) (b : Nat) : homeByte v near' b = homeByte s near' b := (homes near' b).trans (view.home near' b)
      have hold := State.amoOld_home (near := near) window wf' free' plain.2.1
      obtain ⟨stays, bytes, written⟩ := State.amoStored_home (near := near) window wf' free' fits plain.2.2 aq r
      rw [State.atAgent_hid hid, valueHome_congr (same _)] at hold
      rw [State.atAgent_hid hid] at written
      intro old new
      have hnew : r.setWidth 64 = new := by
        unfold r
        rw [hold]
      refine ⟨by rw [hold], by rw [retire.mem]; exact stays, fun b => ?_, fun b lo hi => ?_, fun close => ?_⟩
      · rw [retire.seen, bytes, same, byte, view.seen, hnew]
      · rw [retire.home, retire.mem, ← hnew]
        exact written b lo hi
      · have empty : v.hart.pending = [] := by
          unfold v
          rw [if_pos close]
          exact publishAt_empty (may' close) near
        have left := (State.amoStored_keeps v near p n aq r).pending
        rw [empty] at left
        exact retire.pending.trans (List.sublist_nil.1 left)
  clear_value done
  have signed {n : Nat} (h : 8 * n ≤ 64) {i j : Instr}
      (least : exec i s = s.amo n rd rs1 rs2 aq rl (fun t b => if b.slt t then b else t))
      (most : exec j s = s.amo n rd rs1 rs2 aq rl (fun t b => if t.slt b then b else t)) :
      done i n (fun t b => if b.toInt < t.toInt then b else t) ∧ done j n (fun t b => if t.toInt < b.toInt then b else t) := by
    simp only [ite_slt_eq] at least most
    exact ⟨all h least, all h most⟩
  have unsigned {n : Nat} (h : 8 * n ≤ 64) {i j : Instr}
      (least : exec i s = s.amo n rd rs1 rs2 aq rl (fun t b => if b.ult t then b else t))
      (most : exec j s = s.amo n rd rs1 rs2 aq rl (fun t b => if t.ult b then b else t)) :
      done i n (fun t b => if b.toNat < t.toNat then b else t) ∧ done j n (fun t b => if t.toNat < b.toNat then b else t) := by
    simp only [ite_ult_eq] at least most
    exact ⟨all h least, all h most⟩
  have word : 8 * 4 ≤ 64 := by decide
  have doubleword : 8 * 8 ≤ 64 := by decide
  obtain ⟨minW, maxW⟩ := signed word (i := .amominW rd rs1 rs2 aq rl) (j := .amomaxW rd rs1 rs2 aq rl) rfl rfl
  obtain ⟨minuW, maxuW⟩ := unsigned word (i := .amominuW rd rs1 rs2 aq rl) (j := .amomaxuW rd rs1 rs2 aq rl) rfl rfl
  obtain ⟨minD, maxD⟩ := signed doubleword (i := .amominD rd rs1 rs2 aq rl) (j := .amomaxD rd rs1 rs2 aq rl) rfl rfl
  obtain ⟨minuD, maxuD⟩ := unsigned doubleword (i := .amominuD rd rs1 rs2 aq rl) (j := .amomaxuD rd rs1 rs2 aq rl) rfl rfl
  exact ⟨all word rfl, all word rfl, all word rfl, all word rfl, all word rfl, minW, maxW, minuW, maxuW,
    all doubleword rfl, all doubleword rfl, all doubleword rfl, all doubleword rfl, all doubleword rfl, minD, maxD, minuD, maxuD⟩

end Sys2Proof.Proofs
end

section
/-! SUPPORT and settles O31. Vector results of any latency, and the element-wise instructions (R102, R108 to R114). -/

namespace Sys2Proof.Machine
open Sys2Proof.Safety

/-! ### Reads of results in flight (R39, R40) -/

/-- What `Hart.settle` does with one result, at step `n`: registers and what stays in flight. -/
def settleOne (n : Nat) (acc : Vector VecReg 32 × List Inflight) (e : Inflight) : Vector VecReg 32 × List Inflight :=
  if e.ready ≤ n then (acc.1.set e.reg.toNat e.val, acc.2.filter (fun o => o.reg ≠ e.reg)) else (acc.1, acc.2 ++ [e])

/-- What a read at step `n` finds among results in flight, in a register that holds `a`. -/
def readsOf (n : Nat) (r : VReg) (l : List Inflight) (a : VecReg) : VecReg :=
  l.foldl (fun acc e => if e.reg = r ∧ e.ready ≤ n then e.val else acc) a

/-- `Hart.settle` takes the results in flight one by one. -/
theorem Hart.settle_eq_foldl (h : Hart) : h.settle = { h with
    v := (h.inflight.foldl (settleOne h.steps) (h.v, [])).1
    inflight := (h.inflight.foldl (settleOne h.steps) (h.v, [])).2 } := by
  unfold Hart.settle
  split
  next none =>
    cases h
    cases none
    rfl
  · rfl

/-- A read finds nothing among results that are not ready. -/
theorem readsOf_unready {n : Nat} {l : List Inflight} (late : ∀ e ∈ l, n < e.ready) (r : VReg) (a : VecReg) : readsOf n r l a = a := by
  induction l with
  | nil => rfl
  | cons e l ih =>
    have unready : ¬ (e.reg = r ∧ e.ready ≤ n) := fun h => absurd h.2 (Nat.not_le.2 (late e List.mem_cons_self))
    rw [readsOf, List.foldl_cons, if_neg unready]
    exact ih fun o ho => late o (List.mem_cons_of_mem e ho)

/-- Settling leaves in flight what is not ready, and its registers have what a read found. -/
theorem foldl_settleOne (n : Nat) (l : List Inflight) (acc : Vector VecReg 32 × List Inflight) (late : ∀ e ∈ acc.2, n < e.ready) :
    (∀ e ∈ (l.foldl (settleOne n) acc).2, n < e.ready)
      ∧ ∀ r : VReg, (l.foldl (settleOne n) acc).1[r.toNat] = readsOf n r l acc.1[r.toNat] := by
  induction l generalizing acc with
  | nil => exact ⟨late, fun _ => rfl⟩
  | cons e l ih =>
    rw [List.foldl_cons]
    by_cases ready : e.ready ≤ n
    · have one : settleOne n acc e = (acc.1.set e.reg.toNat e.val, acc.2.filter (fun o => o.reg ≠ e.reg)) := if_pos ready
      rw [one]
      obtain ⟨left, found⟩ := ih (acc.1.set e.reg.toNat e.val, acc.2.filter (fun o => o.reg ≠ e.reg))
        fun o ho => late o (List.mem_of_mem_filter ho)
      refine ⟨left, fun r => (found r).trans ?_⟩
      by_cases h : e.reg = r
      · subst h
        simp [readsOf, ready]
      · have other : e.reg.toNat ≠ r.toNat := fun k => h (BitVec.eq_of_toNat_eq k)
        simp [readsOf, h, other]
    · have one : settleOne n acc e = (acc.1, acc.2 ++ [e]) := if_neg ready
      rw [one]
      obtain ⟨left, found⟩ := ih (acc.1, acc.2 ++ [e]) fun o ho => by
        rcases List.mem_append.1 ho with ho | ho
        · exact late o ho
        · rw [List.mem_singleton.1 ho]
          exact Nat.not_le.1 ready
      exact ⟨left, fun r => (found r).trans (by simp [readsOf, ready])⟩

/-- Settling changes nothing that a read finds (R40). -/
theorem Hart.readV_settle_eq (h : Hart) (r : VReg) : h.settle.readV r = h.readV r := by
  obtain ⟨left, found⟩ := foldl_settleOne h.steps h.inflight (h.v, []) (by simp)
  rw [Hart.settle_eq_foldl]
  exact (readsOf_unready left r _).trans (found r)

/-! ### Vector results issued (R39, R85, R104) -/

/-- What a vector instruction does before it retires: results issued, flags raised, and VMASK as given. -/
def State.vissue (s : State) (q : List Inflight) (f : Fl) (mask : Word) : State :=
  { s with hart := { s.hart with
    inflight := s.hart.inflight ++ q
    csr := { s.hart.csr with
      vflags := s.hart.csr.vflags ||| f.setWidth 64
      vmask := mask } } }

/-- A vector instruction that issues some results has retired. -/
structure Issued (s t : State) (q : List Inflight) (f : Fl) (mask : Word) (w : Nat) : Prop where
  frame : VectorFrame s t (q.map Inflight.reg) w
  x : ∀ r : Reg, t.x r = s.x r
  vmask : t.hart.csr.vmask = mask
  flags : RaisesFlags s t f
  final : ∀ r, t.hart.finalV r = q.foldl (fun acc e => if e.reg = r then e.val else acc) (s.hart.finalV r)
  read : ∀ r, t.hart.readV r = readsOf t.hart.steps r q (Hart.readV { s.hart with steps := t.hart.steps } r)

/-- Everything that a vector instruction does by issuing results. -/
theorem State.vissue_spec (s : State) (q : List Inflight) (f : Fl) (mask : Word) (w : Nat) :
    Issued s ((s.vissue q f mask).advanceW w) q f mask w := by
  obtain ⟨retired, shell, x, csr⟩ := Hart.retire_frame (h := s.hart) (k := (s.vissue q f mask).hart) rfl w
  have final (r : VReg) : ((s.vissue q f mask).advanceW w).hart.finalV r
      = q.foldl (fun acc e => if e.reg = r then e.val else acc) (s.hart.finalV r) :=
    (Hart.finalV_settle _ r).trans List.foldl_append
  refine ⟨⟨fun r hr => (final r).trans ?_, retired, by rw [State.advanceW, csr], shell, rfl⟩,
    fun r => by rw [State.x, State.x, State.advanceW, x], congrArg Csrs.vmask csr, congrArg Csrs.vflags csr, final, fun r => ?_⟩
  · have others : q.filter (fun e => e.reg ≠ r) = q :=
      List.filter_eq_self.2 fun e he => by simpa using fun h => hr (List.mem_map.2 ⟨e, he, h⟩)
    exact others ▸ foldl_writes_filter_eq q r (s.hart.finalV r)
  · rw [State.advanceW, retired.steps]
    exact (Hart.readV_settle_eq _ r).trans List.foldl_append

/-- One result issued writes a whole register, which reads find when its latency has passed. -/
theorem Issued.whole {s t : State} {vd : VReg} {val : VecReg} {lat : Nat} {f : Fl} {w : BitVec 2}
    (issued : Issued s t [⟨s.rot vd, s.hart.steps + lat, val⟩] f s.hart.csr.vmask w.toNat) : WholeResult s t vd val w lat f := by
  obtain ⟨frame, x, vmask, flags, final, read⟩ := issued
  have ready : s.hart.steps + lat ≤ s.hart.steps + 1 + w.toNat ↔ lat ≤ 1 + w.toNat := by omega
  have whole : t.hart.finalV (s.rot vd) = val := (final (s.rot vd)).trans (if_pos rfl)
  refine ⟨whole, flags, (read _).trans ?_, frame, x, vmask⟩
  simp only [readsOf, List.foldl_cons, List.foldl_nil, frame.retired.steps, true_and, ready, whole]

/-- A whole register written with a latency class, the flags raised, and the instruction retired (R104). -/
theorem State.vwrite_whole (s : State) (vd : VReg) (b : VBits) (tag : Tag) (lat : Nat) (f : Fl) (w : BitVec 2) :
    WholeResult s ((s.vwrite (s.rot vd) b tag lat f).advanceW w.toNat) vd ⟨b, tag⟩ w lat f :=
  (s.vissue_spec [⟨s.rot vd, s.hart.steps + lat, ⟨b, tag⟩⟩] f s.hart.csr.vmask w.toNat).whole

/-! ### Flags together (R85) -/

/-- Flags gathered one by one. -/
theorem unionFlags_cons (f : Fl) (l : List Fl) : unionFlags (f :: l) = f ||| unionFlags l :=
  (congrArg (l.foldl (· ||| ·)) (BitVec.or_comm (x := 0) (y := f))).trans List.foldl_assoc

/-- Flags gathered after some others. -/
theorem foldl_flags {α : Type} (g : α → Fl) (l : List α) (f : Fl) : l.foldl (fun f r => f ||| g r) f = f ||| unionFlags (l.map g) := by
  induction l generalizing f with
  | nil => exact BitVec.or_zero.symm
  | cons r l ih => rw [List.foldl_cons, ih, List.map_cons, unionFlags_cons, BitVec.or_assoc]

/-- Elements that raise nothing raise nothing together. -/
theorem unionFlags_eq_zero {l : List Fl} (h : ∀ f ∈ l, f = 0) : unionFlags l = 0 := by
  induction l with
  | nil => rfl
  | cons f l ih =>
    rw [unionFlags_cons, h f List.mem_cons_self, ih fun g hg => h g (List.mem_cons_of_mem f hg)]
    rfl

/-- The flags of some results. -/
theorem allFlags_eq (l : List (Nat × Fl)) : allFlags l = unionFlags (l.map Prod.snd) := (foldl_flags Prod.snd l 0).trans BitVec.zero_or

/-- The flags of the conversions of some sources. -/
theorem convFlags_eq (s : State) (ty : ETy) (m : Bool) (rs : List VReg) :
    convFlags s ty m rs = unionFlags (rs.map (fun r => (s.vread (s.rot r) (etyTag ty) (s.active m)).2)) :=
  (foldl_flags _ rs 0).trans BitVec.zero_or

/-- The flags of the active elements. -/
theorem allFlags_active (n : Nat) (act : Nat → Bool) (p : Nat → Nat × Fl) :
    allFlags ((List.range n).map (fun i => if act i then p i else (0, 0)))
      = unionFlags ((List.range n).map (fun i => if act i then (p i).2 else 0)) := by
  rw [allFlags_eq, List.map_map]
  exact congrArg unionFlags (List.map_congr_left fun i _ => apply_ite Prod.snd _ _ _)

/-! ### Elements one by one (R102, R108) -/

/-- What `State.laneOp` writes when its operands pass the checks (R102, R104, R108). -/
theorem State.laneOp_good {s : State} {ty : ETy} {vd : VReg} {rs : List VReg}
    (good : OperandsGood s (s.rot vd :: rs.map s.rot) (sourcesAs s ty rs)) (m : Bool) (w : BitVec 2) (lat : Nat) (f : List Nat → Nat × Fl) :
    ∃ t, s.laneOp ty vd rs m w lat f = .next t ∧ WholeResult s t vd
      ⟨mergeLanes (etyBits ty) (s.hart.finalV (s.rot vd)).bits (s.active m) ((List.range (etyLanes ty)).map (fun i =>
        if s.active m i then (f (rs.map (fun r => laneIn s ty m r i))).1 else 0)), etyTag ty⟩ w lat
      (unionFlags ((List.range (etyLanes ty)).map (fun i => if s.active m i then (f (rs.map (fun r => laneIn s ty m r i))).2 else 0))
        ||| convFlags s ty m rs) := by
  have sources : (rs.map s.rot).map (fun r => (⟨r, some (etyTag ty)⟩ : Src)) = sourcesAs s ty rs := List.map_map
  unfold State.laneOp
  dsimp only
  rw [State.vector_good (sources ▸ good) w]
  simp only [List.map_map, foldl_flags, allFlags_active, convFlags_eq, Function.comp_def, laneIn, apply_ite Prod.fst]
  exact ⟨_, rfl, s.vwrite_whole vd _ _ lat _ w⟩

/-- An element-wise instruction whose operands pass the checks: its operation `f` may be said in another way, `g`. -/
theorem State.laneOp_spec {s : State} {ty : ETy} {vd : VReg} {rs : List VReg} {m : Bool} {w : BitVec 2} {lat : Nat}
    {f g : List Nat → Nat × Fl} (good : OperandsGood s (s.rot vd :: rs.map s.rot) (sourcesAs s ty rs))
    (same : ∀ i, f (rs.map (fun r => laneIn s ty m r i)) = g (rs.map (fun r => laneIn s ty m r i))) :
    ∃ t, s.laneOp ty vd rs m w lat f = .next t ∧ LaneResult s t ty vd rs m w lat g := by
  obtain ⟨t, runs, val, flags, visible, only⟩ := State.laneOp_good good m w lat f
  simp only [same] at val flags
  refine ⟨t, runs, congrArg VecReg.tag val, fun i hi => ?_, flags, visible, only⟩
  have active : s.active m i = true ↔ m = false ∨ s.hart.csr.vmask.getLsbD i = true := by simp [State.active]
  rw [val]
  dsimp only
  rw [laneOf_mergeLanes _ _ _ hi, headD_drop_map_range (n := etyLanes ty) _ hi]
  simp only [← active]
  split <;> rfl

/-- An element-wise instruction of one source, by its operation on an element. -/
theorem State.laneOp_unary {s : State} {ty : ETy} {vd a : VReg} {m : Bool} {w : BitVec 2} {lat : Nat} {f : List Nat → Nat × Fl}
    {g : Nat → Nat × Fl} (good : OperandsGood s [s.rot vd, s.rot a] (sourcesAs s ty [a]))
    (same : ∀ x, x < 2 ^ etyBits ty → f [x] = g x) :
    ∃ t, s.laneOp ty vd [a] m w lat f = .next t ∧ LaneResult s t ty vd [a] m w lat (fun l => g (l.headD 0)) :=
  State.laneOp_spec good fun _ => same _ (laneOf_lt _ _ _)

/-- An element-wise instruction of two sources, by its operation on two elements. -/
theorem State.laneOp_binary {s : State} {ty : ETy} {vd a b : VReg} {m : Bool} {w : BitVec 2} {lat : Nat} {f : List Nat → Nat × Fl}
    {g : Nat → Nat → Nat × Fl} (good : OperandsGood s [s.rot vd, s.rot a, s.rot b] (sourcesAs s ty [a, b]))
    (same : ∀ x y, x < 2 ^ etyBits ty → y < 2 ^ etyBits ty → f [x, y] = g x y) :
    ∃ t, s.laneOp ty vd [a, b] m w lat f = .next t
      ∧ LaneResult s t ty vd [a, b] m w lat (fun l => g (l.headD 0) ((l.drop 1).headD 0)) :=
  State.laneOp_spec good fun _ => same _ _ (laneOf_lt _ _ _) (laneOf_lt _ _ _)

/-! ### Operations of one element (R86) -/

/-- The latency of an integer sum (Table 06-2). -/
theorem addLat_int {ty : ETy} (int : ¬ IsFloat ty) : addLat ty = 1 := if_neg (mt (etyFloat_iff ty).1 int)

/-- The latency of a float sum. -/
theorem addLat_float {ty : ETy} (float : IsFloat ty) : addLat ty = 2 := if_pos ((etyFloat_iff ty).2 float)

/-- The latency of an integer product. -/
theorem mulLat_int {ty : ETy} (int : ¬ IsFloat ty) : mulLat ty = 2 := if_neg fun h => int (.inr (.inr (.inr h)))

/-- An instruction on one float source computes its float operation. -/
theorem State.laneOp_float1 {s : State} {ty : ETy} (float : IsFloat ty) {vd a : VReg}
    (good : OperandsGood s [s.rot vd, s.rot a] (sourcesAs s ty [a])) (m : Bool) (w : BitVec 2) (lat : Nat) (md : FMode)
    (ff : Fmt → FMode → FVal → Nat × Fl) (fi : Nat → Int → Nat × Fl) :
    ∃ t, s.laneOp ty vd [a] m w lat (lane1 ty md ff fi) = .next t
      ∧ LaneResult s t ty vd [a] m w lat (fun l => ff (etyFmt ty) md ((etyFmt ty).decode md.ftz (l.headD 0))) := by
  refine State.laneOp_spec good fun i => ?_
  exact if_pos ((etyFloat_iff ty).2 float)

/-- An instruction on two float sources computes its float operation. -/
theorem State.laneOp_float2 {s : State} {ty : ETy} (float : IsFloat ty) {vd a b : VReg}
    (good : OperandsGood s [s.rot vd, s.rot a, s.rot b] (sourcesAs s ty [a, b])) (m : Bool) (w : BitVec 2) (lat : Nat) (md : FMode)
    (ff : Fmt → FMode → FVal → FVal → Nat × Fl) (fi : Nat → Int → Int → Nat × Fl) :
    ∃ t, s.laneOp ty vd [a, b] m w lat (lane2 ty md ff fi) = .next t ∧ LaneResult s t ty vd [a, b] m w lat (fun l =>
      ff (etyFmt ty) md ((etyFmt ty).decode md.ftz (l.headD 0)) ((etyFmt ty).decode md.ftz ((l.drop 1).headD 0))) := by
  refine State.laneOp_spec good fun i => ?_
  exact if_pos ((etyFloat_iff ty).2 float)

/-- An instruction on one integer source computes its integer operation, which `g` may say in another way. -/
theorem State.laneOp_int1 {s : State} {ty : ETy} (int : ¬ IsFloat ty) {vd a : VReg}
    (good : OperandsGood s [s.rot vd, s.rot a] (sourcesAs s ty [a])) (m : Bool) (w : BitVec 2) (lat : Nat) (md : FMode)
    (ff : Fmt → FMode → FVal → Nat × Fl) {fi : Nat → Int → Nat × Fl} {g : Nat → Nat × Fl}
    (same : ∀ x, x < 2 ^ etyBits ty → fi (etyBits ty) (toSigned (etyBits ty) x) = g x) :
    ∃ t, s.laneOp ty vd [a] m w lat (lane1 ty md ff fi) = .next t ∧ LaneResult s t ty vd [a] m w lat (fun l => g (l.headD 0)) := by
  refine State.laneOp_unary good fun x hx => ?_
  exact (if_neg (mt (etyFloat_iff ty).1 int)).trans (same x hx)

/-- An instruction on two integer sources computes its integer operation, which `g` may say in another way. -/
theorem State.laneOp_int2 {s : State} {ty : ETy} (int : ¬ IsFloat ty) {vd a b : VReg}
    (good : OperandsGood s [s.rot vd, s.rot a, s.rot b] (sourcesAs s ty [a, b])) (m : Bool) (w : BitVec 2) (lat : Nat) (md : FMode)
    (ff : Fmt → FMode → FVal → FVal → Nat × Fl) {fi : Nat → Int → Int → Nat × Fl} {g : Nat → Nat → Nat × Fl}
    (same : ∀ x y, x < 2 ^ etyBits ty → y < 2 ^ etyBits ty →
      fi (etyBits ty) (toSigned (etyBits ty) x) (toSigned (etyBits ty) y) = g x y) :
    ∃ t, s.laneOp ty vd [a, b] m w lat (lane2 ty md ff fi) = .next t
      ∧ LaneResult s t ty vd [a, b] m w lat (fun l => g (l.headD 0) ((l.drop 1).headD 0)) := by
  refine State.laneOp_binary good fun x y hx hy => ?_
  exact (if_neg (mt (etyFloat_iff ty).1 int)).trans (same x y hx hy)

/-- A signed value of a number of `w` bits (R80). -/
theorem toSigned_of_lt {w x : Nat} (hx : x < 2 ^ w) : toSigned w x = if x < 2 ^ (w - 1) then (x : Int) else (x : Int) - 2 ^ w := by
  have whole : (x : Int) % 2 ^ w = x := by exact_mod_cast Nat.mod_eq_of_lt hx
  rw [toSigned, Nat.mod_eq_of_lt hx, whole]
  push_cast
  rfl

/-- A signed value is its number modulo 2^w. -/
theorem toSigned_modEq (w x : Nat) : toSigned w x ≡ x [ZMOD 2 ^ w] := by
  unfold toSigned
  split
  · exact Int.mod_modEq _ _
  · push_cast
    exact (Int.sub_modulus_modEq_iff.2 (Int.mod_modEq _ _))

/-- The low `w` bits of an integer are a number of `w` bits. -/
theorem ofSigned_lt (w : Nat) (v : Int) : ofSigned w v < 2 ^ w := by
  have positive : (0 : Int) < (2 ^ w : Nat) := by exact_mod_cast Nat.two_pow_pos w
  have low := Int.emod_lt_of_pos v positive
  have nonneg := Int.emod_nonneg v positive.ne'
  unfold ofSigned
  omega

/-- A result that wraps, by its value modulo 2^w. -/
theorem wrapInt_eq (w : Nat) (v : Int) : wrapInt w v = ((v % 2 ^ w).toNat, 0) := by
  rw [wrapInt, ofSigned]
  push_cast
  rfl

/-- Values that agree modulo 2^w wrap to one result. -/
theorem wrapInt_congr {w : Nat} {u v : Int} (h : u ≡ v [ZMOD 2 ^ w]) : wrapInt w u = wrapInt w v := by
  rw [wrapInt_eq, wrapInt_eq, h.eq]

/-- A number wraps to its low bits. -/
theorem wrapInt_natCast (w n : Nat) : wrapInt w n = (n % 2 ^ w, 0) := by
  rw [wrapInt_eq]
  norm_cast

/-- A result that saturates (R86). -/
theorem satInt_eq (w : Nat) (v : Int) : satInt w v =
    ((max (-(2 ^ (w - 1))) (min (2 ^ (w - 1) - 1) v) % 2 ^ w).toNat,
      if v < -(2 ^ (w - 1)) ∨ 2 ^ (w - 1) - 1 < v then 32 else 0) := by
  have pos : (0 : Int) < 2 ^ (w - 1) := by positivity
  have clamped : clampInt w v = (max (-(2 ^ (w - 1))) (min (2 ^ (w - 1) - 1) v),
      decide (v < -(2 ^ (w - 1)) ∨ 2 ^ (w - 1) - 1 < v)) := by
    unfold clampInt intMin intMax
    push_cast
    generalize (2 : Int) ^ (w - 1) = h at pos
    split
    · next low => exact Prod.ext (by omega) (decide_eq_true (.inl low)).symm
    · split
      · next high => exact Prod.ext (by omega) (decide_eq_true (.inr high)).symm
      · next low high => exact Prod.ext (by omega) (decide_eq_false (not_or.2 ⟨low, high⟩)).symm
  rw [satInt, clamped, ofSigned]
  push_cast
  simp only [flagIf, decide_eq_true_eq]
  rfl

end Sys2Proof.Machine

namespace Sys2Proof.Proofs
open Sys2Proof Sys2Proof.Machine Sys2Proof.Safety

/-- Settles O31: each instruction is `State.laneOp` of an operation on one element, and the operations agree on every element. -/
theorem vectorArithmetic : Obligations.VectorArithmetic := by
  intro s ty vd a b c m w wd fm md dec sg wrap lo hi clamp done1 done2 done3
  have signed {x : Nat} (hx : x < 2 ^ wd) : toSigned wd x = sg x := toSigned_of_lt hx
  have number {x : Nat} (hx : x < 2 ^ wd) : sg x ≡ x [ZMOD 2 ^ wd] := signed hx ▸ toSigned_modEq wd x
  have wraps (v : Int) : wrapInt wd v = wrap v := wrapInt_eq wd v
  have keeps {x : Nat} (hx : x < 2 ^ wd) : wrapInt wd (sg x) = (x, 0) := by
    rw [wrapInt_congr (number hx), wrapInt_natCast, Nat.mod_eq_of_lt hx]
  have float1 {i : Instr} {lat : Nat} {ff : Fmt → FMode → FVal → Nat × Fl} {fi : Nat → Int → Nat × Fl} (float : IsFloat ty)
      (hi : exec i s = s.laneOp ty vd [a] m w lat (lane1 ty md ff fi)) : done1 i lat (fun x => ff fm md (dec x)) :=
    fun good => hi ▸ State.laneOp_float1 float good m w lat md ff fi
  have float2 {i : Instr} {lat : Nat} {ff : Fmt → FMode → FVal → FVal → Nat × Fl} {fi : Nat → Int → Int → Nat × Fl} (float : IsFloat ty)
      (hi : exec i s = s.laneOp ty vd [a, b] m w lat (lane2 ty md ff fi)) : done2 i lat (fun x y => ff fm md (dec x) (dec y)) :=
    fun good => hi ▸ State.laneOp_float2 float good m w lat md ff fi
  have fused {i : Instr} {negP negC : Bool} (hi : exec i s = s.laneOp ty vd [a, b, c] false w (mulLat ty) (fusedLane ty md negP negC)) :
      done3 i (fun x y z => fFma fm md (if negP then x.neg else x) y (if negC then z.neg else z)) :=
    fun good => hi ▸ State.laneOp_spec good fun _ => rfl
  have int1 {i : Instr} {lat : Nat} {ff : Fmt → FMode → FVal → Nat × Fl} {fi : Nat → Int → Nat × Fl} {g : Nat → Nat × Fl}
      (int : ¬ IsFloat ty) (hi : exec i s = s.laneOp ty vd [a] m w lat (lane1 ty md ff fi))
      (same : ∀ x, x < 2 ^ wd → fi wd (sg x) = g x) : done1 i lat g :=
    fun good => hi ▸ State.laneOp_int1 int good m w lat md ff fun x hx => by
      rw [signed hx, same x hx]
  have int2 {i : Instr} {lat : Nat} {ff : Fmt → FMode → FVal → FVal → Nat × Fl} {fi : Nat → Int → Int → Nat × Fl}
      {g : Nat → Nat → Nat × Fl} (int : ¬ IsFloat ty) (hi : exec i s = s.laneOp ty vd [a, b] m w lat (lane2 ty md ff fi))
      (same : ∀ x y, x < 2 ^ wd → y < 2 ^ wd → fi wd (sg x) (sg y) = g x y) : done2 i lat g :=
    fun good => hi ▸ State.laneOp_int2 int good m w lat md ff fun x y hx hy => by
      rw [signed hx, signed hy, same x y hx hy]
  have shift {i : Instr} {f : Nat → Nat → Nat → Nat} {g : Nat → Nat → Nat × Fl}
      (hi : exec i s = s.laneOp ty vd [a, b] m w 1 (shiftLane ty f)) (same : ∀ x y, x < 2 ^ wd → (f wd x (y % wd) % 2 ^ wd, 0) = g x y) :
      done2 i 1 g :=
    fun good => hi ▸ State.laneOp_binary good fun x y hx _ => same x y hx
  clear_value done1 done2 done3
  refine ⟨fun int => ?_, fun int => ?_, fun int => ?_, fun float => ?_, fun float => ?_, fun _ => ?_⟩
  · have sum : done2 (.vadd ty vd a b m w) (addLat ty) (fun x y => ((x + y) % 2 ^ wd, 0)) := int2 int rfl fun x y hx hy => by
      rw [wrapInt_congr ((number hx).add (number hy)), ← wrapInt_natCast, Nat.cast_add]
    have difference : done2 (.vsub ty vd a b m w) (addLat ty) (fun x y => wrap ((x : Int) - y)) := int2 int rfl fun x y hx hy => by
      rw [wrapInt_congr ((number hx).sub (number hy)), wraps]
    have product : done2 (.vmul ty vd a b m w) (mulLat ty) (fun x y => ((x * y) % 2 ^ wd, 0)) := int2 int rfl fun x y hx hy => by
      rw [wrapInt_congr ((number hx).mul (number hy)), ← wrapInt_natCast, Nat.cast_mul]
    rw [addLat_int int] at sum difference
    rw [mulLat_int int] at product
    exact ⟨sum, difference, product⟩
  · refine ⟨int2 int rfl fun x y hx hy => ?_, int2 int rfl fun x y hx hy => ?_, int1 int rfl fun x _ => wraps _,
      int1 int rfl fun x _ => wraps _⟩
    · rw [min_def, apply_ite (wrapInt wd), keeps hx, keeps hy, apply_ite (·, 0)]
    · rw [max_def, apply_ite (wrapInt wd), keeps hx, keeps hy, apply_ite (·, 0)]
  · have value {v : Nat} (small : v < 2 ^ wd) : (v % 2 ^ wd, (0 : Fl)) = (v, 0) := by rw [Nat.mod_eq_of_lt small]
    refine ⟨int2 int rfl fun x y _ _ => satInt_eq wd _, int2 int rfl fun x y _ _ => satInt_eq wd _, int2 int rfl fun x y _ _ => wraps _,
      shift rfl fun x y _ => rfl, shift rfl fun x y hx => value ((Nat.div_le_self _ _).trans_lt hx), shift rfl fun x y hx => ?_⟩
    rw [signed hx, ← wraps]
    exact value (ofSigned_lt _ _)
  · have sum : done2 (.vadd ty vd a b m w) (addLat ty) (fun x y => fAdd fm md (dec x) (dec y)) := float2 float rfl
    have difference : done2 (.vsub ty vd a b m w) (addLat ty) (fun x y => fAdd fm md (dec x) (dec y).neg) := float2 (ff := fSub) float rfl
    rw [addLat_float float] at sum difference
    exact ⟨sum, difference, float2 float rfl, float2 float rfl, float2 (ff := fun m _ a b => fMinMax m false a b) float rfl,
      float2 (ff := fun m _ a b => fMinMax m true a b) float rfl⟩
  · exact ⟨float1 float rfl, float1 float rfl, float1 float rfl, float1 float rfl, float1 float rfl, float1 float rfl, float1 float rfl⟩
  · exact ⟨fused (negP := false) (negC := false) rfl, fused (negP := false) (negC := true) rfl,
      fused (negP := true) (negC := true) rfl, fused (negP := true) (negC := false) rfl⟩

end Sys2Proof.Proofs
end

section
/-! SUPPORT and settles O33. VMASK as an instruction writes it, and the compares, `vsetm` and `vgetm` (R119). -/

namespace Sys2Proof.Machine
open Sys2Proof.Safety

/-! ### VMASK written (R119) -/

/-- A bit of the number that has the given bits below `n`. -/
theorem testBit_sum_range (f : Nat → Bool) (n i : Nat) :
    (((List.range n).map (fun i => if f i then 2 ^ i else 0)).sum).testBit i = (decide (i < n) && f i) := by
  induction n generalizing i with
  | zero => simp
  | succ n ih =>
    have small : ((List.range n).map (fun i => if f i then 2 ^ i else 0)).sum < 2 ^ n :=
      Nat.lt_pow_two_of_testBit _ fun i hi => by simp [ih, Nat.not_lt.2 hi]
    have whole : ((List.range (n + 1)).map (fun i => if f i then 2 ^ i else 0)).sum
        = 2 ^ n * (f n).toNat + ((List.range n).map (fun i => if f i then 2 ^ i else 0)).sum := by
      rw [List.range_succ, List.map_append, List.sum_append, Nat.add_comm]
      cases hf : f n <;> simp [hf]
    rw [whole, Nat.testBit_two_pow_mul_add _ small, ih, Nat.testBit_bool_toNat]
    rcases Nat.lt_trichotomy i n with h | rfl | h
    · simp [h, Nat.lt_succ_of_lt h]
    · simp
    · simp [Nat.not_lt.2 h.le, Nat.not_lt.2 (Nat.succ_le_of_lt h), Nat.sub_ne_zero_of_lt h]

/-- A bit of VMASK as `maskWord` gives it. -/
theorem maskWord_getLsbD {n : Nat} (fits : n ≤ 64) (f : Nat → Bool) (i : Nat) : (maskWord n f).getLsbD i = (decide (i < n) && f i) := by
  rw [maskWord, BitVec.getLsbD_ofNat, testBit_sum_range, ← Bool.and_assoc, ← Bool.decide_and,
    decide_eq_decide.2 (and_iff_right_of_imp fun h => h.trans_le fits)]

/-- VMASK has a bit for every element (Table 03-4). -/
theorem etyLanes_le (ty : ETy) : etyLanes ty ≤ 64 := by
  cases ty <;> decide

/-- An instruction has written VMASK: bit `i` is `p i` for each element, and 0 above the lanes (R119). -/
structure MaskResult (s t : State) (ty : ETy) (w : BitVec 2) (f : Fl) (p : Nat → Bool) : Prop where
  frame : VectorFrame s t [] w.toNat
  x : ∀ r, t.x r = s.x r
  flags : RaisesFlags s t f
  bits : ∀ i, i < etyLanes ty → t.hart.csr.vmask.getLsbD i = p i
  above : ∀ i, etyLanes ty ≤ i → t.hart.csr.vmask.getLsbD i = false

/-- A vector instruction that raises flags and writes VMASK, retired. -/
theorem State.vmask_spec (s : State) (ty : ETy) (w : BitVec 2) (f : Fl) (p : Nat → Bool) :
    MaskResult s (((s.orFlags f).withCsr (fun c => { c with vmask := maskWord (etyLanes ty) p })).advanceW w.toNat) ty w f p := by
  have issue : (s.orFlags f).withCsr (fun c => { c with vmask := maskWord (etyLanes ty) p })
      = s.vissue [] f (maskWord (etyLanes ty) p) := by
    simp only [State.vissue, List.append_nil]
    rfl
  rw [issue]
  obtain ⟨frame, x, vmask, flags, -, -⟩ := s.vissue_spec [] f (maskWord (etyLanes ty) p) w.toNat
  refine ⟨frame, x, flags, fun i hi => ?_, fun i hi => ?_⟩
  · rw [vmask, maskWord_getLsbD (etyLanes_le ty), decide_eq_true hi, Bool.true_and]
  · rw [vmask, maskWord_getLsbD (etyLanes_le ty), decide_eq_false (Nat.not_lt.2 hi), Bool.false_and]

/-! ### Compares (R119) -/

/-- The order of two integers: −1, 0 or 1. -/
def intOrder (x y : Int) : Int := if x - y < 0 then -1 else if x - y = 0 then 0 else 1

/-- What a compare gives for one element of its sources, and the flags: 1 where the order passes the test `f`. -/
def compareLane (ty : ETy) (md : FMode) (quiet : Bool) (f : Int → Bool) (p q : Nat) : Nat × Fl :=
  if etyFloat ty then
    let u := (etyFmt ty).decode md.ftz p
    let v := (etyFmt ty).decode md.ftz q
    if u.isNan || v.isNan then (0, flagIf (!quiet || u.isSig || v.isSig) fNV) else (if f (fCmp u v) then 1 else 0, 0)
  else (if f (intOrder (toSigned (etyBits ty) p) (toSigned (etyBits ty) q)) then 1 else 0, 0)

/-- What a compare gives for every element of its sources: nothing for an inactive one. -/
def compareLanes (s : State) (ty : ETy) (m : Bool) (quiet : Bool) (f : Int → Bool) (a b : VReg) : List (Nat × Fl) :=
  (List.range (etyLanes ty)).map (fun i =>
    if s.active m i then compareLane ty s.fm quiet f (laneIn s ty m a i) (laneIn s ty m b i) else (0, 0))

/-- What `State.compareOp` does when its operands pass the checks. -/
theorem State.compareOp_good {s : State} {ty : ETy} {a b : VReg}
    (good : OperandsGood s [s.rot a, s.rot b] (sourcesAs s ty [a, b])) (m : Bool) (w : BitVec 2) (quiet : Bool) (f : Int → Bool) :
    s.compareOp ty a b m w quiet f = .next (((s.orFlags (convFlags s ty m [a, b] ||| allFlags (compareLanes s ty m quiet f a b))).withCsr
      (fun c => { c with
        vmask := maskWord (etyLanes ty) (fun i => (((compareLanes s ty m quiet f a b).map (·.1)).drop i).headD 0 == 1) })).advanceW
      w.toNat) := by
  have conversions : convFlags s ty m [a, b]
      = (s.vread (s.rot a) (etyTag ty) (s.active m)).2 ||| (s.vread (s.rot b) (etyTag ty) (s.active m)).2 := by
    show 0#6 ||| _ ||| _ = _
    rw [BitVec.zero_or]
  rw [conversions]
  unfold State.compareOp
  exact (State.vector_good good w _).trans rfl

/-- An element of a compare. -/
theorem headD_drop_compareLanes (s : State) {ty : ETy} (m : Bool) (quiet : Bool) (f : Int → Bool) (a b : VReg) {i : Nat}
    (hi : i < etyLanes ty) : (((compareLanes s ty m quiet f a b).map (·.1)).drop i).headD 0
      = if s.active m i then (compareLane ty s.fm quiet f (laneIn s ty m a i) (laneIn s ty m b i)).1 else 0 := by
  rw [compareLanes, List.map_map, headD_drop_map_range _ hi]
  exact apply_ite Prod.fst _ _ _

/-- A compare whose operands pass the checks writes VMASK: bit `i` is set where element `i` is active and passes (R119). -/
theorem State.compareOp_spec {s : State} {ty : ETy} {a b : VReg}
    (good : OperandsGood s [s.rot a, s.rot b] (sourcesAs s ty [a, b])) (m : Bool) (w : BitVec 2) (quiet : Bool) (f : Int → Bool) :
    ∃ t, s.compareOp ty a b m w quiet f = .next t ∧ MaskResult s t ty w
      (convFlags s ty m [a, b] ||| unionFlags ((List.range (etyLanes ty)).map (fun i =>
        if s.active m i then (compareLane ty s.fm quiet f (laneIn s ty m a i) (laneIn s ty m b i)).2 else 0)))
      (fun i => s.active m i && (compareLane ty s.fm quiet f (laneIn s ty m a i) (laneIn s ty m b i)).1 == 1) := by
  refine ⟨_, State.compareOp_good good m w quiet f, ?_⟩
  rw [compareLanes, allFlags_active, ← compareLanes]
  obtain ⟨frame, x, flags, bits, above⟩ := s.vmask_spec ty w _ _
  refine ⟨frame, x, flags, fun i hi => (bits i hi).trans ?_, above⟩
  rw [headD_drop_compareLanes s m quiet f a b hi]
  cases s.active m i <;> simp

/-- An element of a float compare. -/
theorem compareLane_float {ty : ETy} (float : IsFloat ty) (md : FMode) (quiet : Bool) (f : Int → Bool) (p q : Nat) :
    let u := (etyFmt ty).decode md.ftz p
    let v := (etyFmt ty).decode md.ftz q
    ((compareLane ty md quiet f p q).1 = 1 ↔ u.isNan = false ∧ v.isNan = false ∧ f (fCmp u v) = true)
      ∧ (compareLane ty md quiet f p q).2 = if (u.isNan || v.isNan) && (!quiet || u.isSig || v.isSig) then 1 else 0 := by
  intro u v
  have value : compareLane ty md quiet f p q = if u.isNan || v.isNan then (0, flagIf (!quiet || u.isSig || v.isSig) fNV)
      else (if f (fCmp u v) then 1 else 0, 0) := if_pos ((etyFloat_iff ty).2 float)
  rw [value]
  cases hu : u.isNan <;> cases hv : v.isNan <;> simp [flagIf, fNV]

/-- An element of an integer compare. -/
theorem compareLane_int {ty : ETy} (int : ¬ IsFloat ty) (md : FMode) (quiet : Bool) (f : Int → Bool) (p q : Nat) :
    ((compareLane ty md quiet f p q).1 = 1 ↔ f (intOrder (toSigned (etyBits ty) p) (toSigned (etyBits ty) q)) = true)
      ∧ (compareLane ty md quiet f p q).2 = 0 := by
  rw [compareLane, if_neg (mt (etyFloat_iff ty).1 int)]
  simp

/-- What the compares ask of the order of two integers. -/
theorem intOrder_iff (x y : Int) : (intOrder x y = 0 ↔ x = y) ∧ (intOrder x y = -1 ↔ x < y) ∧ (intOrder x y ≠ 1 ↔ x ≤ y) := by
  unfold intOrder
  split
  · omega
  · split
    · omega
    · omega

/-- An element of a source has its type's width. -/
theorem laneIn_lt (s : State) (ty : ETy) (m : Bool) (r : VReg) (i : Nat) : laneIn s ty m r i < 2 ^ etyBits ty := laneOf_lt _ _ _

/-! ### `vsetm` and `vgetm` (R119) -/

/-- Whether `vsetm` takes an element for nonzero. -/
def nonzeroLane (s : State) (ty : ETy) (a : VReg) (i : Nat) : Bool :=
  if etyFloat ty then !((etyFmt ty).decode s.fm.ftz (laneAll s ty a i)).isZero else laneAll s ty a i != 0

/-- Whether `vsetm` meets a signalling NaN. -/
def setmSig (s : State) (ty : ETy) (a : VReg) : Bool :=
  etyFloat ty && (List.range (etyLanes ty)).any (fun i => ((etyFmt ty).decode s.fm.ftz (laneAll s ty a i)).isSig)

/-- `vsetm` whose operand passes the checks writes VMASK. -/
theorem execVsetm_spec {s : State} {ty : ETy} {a : VReg} (good : OperandsGood s [s.rot a] (sourcesAs s ty [a])) (w : BitVec 2) :
    ∃ t, execVsetm ty a w s = .next t
      ∧ MaskResult s t ty w (convFlags s ty false [a] ||| flagIf (setmSig s ty a) fNV) (nonzeroLane s ty a) := by
  have runs : execVsetm ty a w s = .next (((s.orFlags (convFlags s ty false [a] ||| flagIf (setmSig s ty a) fNV)).withCsr
      (fun c => { c with vmask := maskWord (etyLanes ty) (nonzeroLane s ty a) })).advanceW w.toNat) := by
    rw [convFlags_single]
    unfold execVsetm
    exact (State.vector_good good w _).trans rfl
  exact ⟨_, runs, s.vmask_spec ty w _ _⟩

/-- An element is nonzero: no ±0 of a float type, and no zero of another. -/
theorem nonzeroLane_iff (s : State) (ty : ETy) (a : VReg) (i : Nat) : nonzeroLane s ty a i = true ↔
    if IsFloat ty then ((etyFmt ty).decode s.fm.ftz (laneAll s ty a i)).isZero = false else laneAll s ty a i ≠ 0 := by
  simp only [nonzeroLane, etyFloat_iff]
  split <;> simp

/-- The flags of `vsetm`'s elements. -/
theorem flagIf_setmSig (s : State) (ty : ETy) (a : VReg) : flagIf (setmSig s ty a) fNV =
    if IsFloat ty ∧ ∃ i, i < etyLanes ty ∧ ((etyFmt ty).decode s.fm.ftz (laneAll s ty a i)).isSig = true then 1 else 0 := by
  simp only [flagIf, setmSig, Bool.and_eq_true, etyFloat_iff, List.any_eq_true, List.mem_range]
  rfl

/-- The model's 1 of a type: a float's encoding of 1, or the integer. -/
theorem oneOf_eq (ty : ETy) : oneOf ty = if IsFloat ty then (etyFmt ty).encode (.fin false 1 0) else 1 := by
  simp only [oneOf, etyFloat_iff]

end Sys2Proof.Machine

namespace Sys2Proof.Proofs
open Sys2Proof Sys2Proof.Machine Sys2Proof.Safety

/-- Settles O33: the compares by `State.compareOp_spec`, `vsetm` by `execVsetm_spec`, and `vgetm` as an element move. -/
theorem vectorMasks : Obligations.VectorMasks := by
  intro s ty vd a b m w n fm md fx fy sg masked cmp
  have signed (r : VReg) (i : Nat) : toSigned (etyBits ty) (laneIn s ty m r i) = sg (laneIn s ty m r i) :=
    toSigned_of_lt (laneIn_lt s ty m r i)
  have compare (f : Int → Bool) {i : Instr} {quiet : Bool} {pf : Int → Prop} {pi : Int → Int → Prop}
      (hi : exec i s = s.compareOp ty a b m w quiet f) (float : ∀ c, f c = true ↔ pf c)
      (int : ∀ x y, f (intOrder x y) = true ↔ pi x y) : cmp i quiet pf pi := by
    intro good
    obtain ⟨t, runs, frame, x, flags, bits, above⟩ := State.compareOp_spec good m w quiet f
    refine ⟨t, hi.trans runs, fun hf => ⟨⟨frame, x, fun i hi => ?_, above⟩, ?_⟩, fun hf => ⟨⟨frame, x, fun i hi => ?_, above⟩, ?_⟩⟩
    · rw [bits i hi, Bool.and_eq_true, beq_iff_eq, (compareLane_float hf _ _ _ _ _).1, float]
      rfl
    · have each (i : Nat) : (if s.active m i then (compareLane ty s.fm quiet f (laneIn s ty m a i) (laneIn s ty m b i)).2 else 0)
          = if s.active m i && ((fx i).isNan || (fy i).isNan) && (!quiet || (fx i).isSig || (fy i).isSig) then 1 else 0 := by
        rw [(compareLane_float hf _ _ _ _ _).2]
        cases s.active m i
        · rfl
        · rfl
      simp only [each] at flags
      exact flags
    · rw [bits i hi, Bool.and_eq_true, beq_iff_eq, (compareLane_int hf _ _ _ _ _).1, int, signed, signed]
    · have none : unionFlags ((List.range (etyLanes ty)).map (fun i =>
          if s.active m i then (compareLane ty s.fm quiet f (laneIn s ty m a i) (laneIn s ty m b i)).2 else 0)) = 0 :=
        unionFlags_eq_zero (List.forall_mem_map.2 fun i _ => by rw [(compareLane_int hf _ _ _ _ _).2, ite_self])
      rw [none] at flags
      exact (BitVec.or_zero : convFlags s ty m [a, b] ||| 0 = convFlags s ty m [a, b]) ▸ flags
  refine ⟨compare (fun c => c == 0) rfl (fun c => beq_iff_eq) (fun x y => beq_iff_eq.trans (intOrder_iff x y).1),
    compare (fun c => c == -1) rfl (fun c => beq_iff_eq) (fun x y => beq_iff_eq.trans (intOrder_iff x y).2.1),
    compare (fun c => c != 1) rfl (fun c => bne_iff_ne) (fun x y => bne_iff_ne.trans (intOrder_iff x y).2.2), fun good => ?_, fun good => ?_⟩
  · obtain ⟨t, runs, frame, x, flags, bits, above⟩ := execVsetm_spec good w
    exact ⟨t, runs, frame, x, flagIf_setmSig s ty a ▸ flags, fun i hi => bits i hi ▸ nonzeroLane_iff s ty a i, above⟩
  · show ∃ t, execVgetm ty vd w s = .next t ∧ _
    unfold execVgetm
    exact State.moveOp_spec good rfl (fun i => by rw [oneOf_eq])

end Sys2Proof.Proofs
end

section
/-! SUPPORT and settles O35. The format instructions (R123 to R126): `vretag`, `vtag`, `vcvt`, `vqnt` and `vdeq`. -/

namespace Sys2Proof.Machine
open Sys2Proof.Safety

/-! ### Tags (R124) -/

/-- Raising no flags changes nothing. -/
theorem State.orFlags_zero (s : State) : s.orFlags 0 = s := by
  have stays : s.hart.csr.vflags ||| BitVec.setWidth 64 (0 : Fl) = s.hart.csr.vflags := BitVec.or_zero
  rw [State.orFlags, State.withCsr, stays]

/-- `vretag` whose operands pass the checks. -/
theorem execVretag_spec {s : State} {vd a : VReg} (good : OperandsGood s [s.rot vd, s.rot a] [⟨s.rot a, none⟩]) (tg : Tag) (w : BitVec 2) :
    ∃ t, execVretag vd a tg w s = .next t ∧ WholeResult s t vd ⟨(s.hart.readV (s.rot a)).bits, tg⟩ w 1 0 := by
  unfold execVretag
  exact ⟨_, State.vector_good good w _, s.vwrite_whole vd _ tg 1 0 w⟩

/-- `vtag` whose operand passes the checks. -/
theorem execVtag_good {s : State} {a : VReg} (good : OperandsGood s [s.rot a] [⟨s.rot a, none⟩]) (rd : Reg) (w : BitVec 2) :
    execVtag rd a w s = .next (((s.orFlags 0).setX rd ((s.hart.readV (s.rot a)).tag.bits.setWidth 64)).advanceW w.toNat) := by
  rw [State.orFlags_zero]
  unfold execVtag
  exact (State.vector_good good w _).trans rfl

/-! ### Conversion element by element (R123) -/

/-- The lanes of a tag that is no block. -/
theorem tagLanes_eq {tg : Tag} (h8 : tg ≠ .bx8p) (h4 : tg ≠ .bx4p) : tagLanes tg = 512 / tagBits tg := by
  cases tg with
  | bx8p => exact absurd rfl h8
  | bx4p => exact absurd rfl h4
  | _ => rfl

/-- What `vcvt` gives for every element, with the flags. -/
def cvtLanes (s : State) (a : VReg) (tg : Tag) (m : Bool) : List (Nat × Fl) :=
  let ra := s.hart.readV (s.rot a)
  if ra.tag = .raw then (lanesOf (tagBits tg) ra.bits).map (fun v => (v, (0 : Fl))) else convertLanes s.fm ra tg (s.active m)

/-- What `vcvt` writes when its operands pass the checks. -/
theorem execVcvt_spec {s : State} {vd a : VReg} {tg : Tag} (h8 : tg ≠ .bx8p) (h4 : tg ≠ .bx4p)
    (good : OperandsGood s [s.rot vd, s.rot a] [⟨s.rot a, some (s.hart.readV (s.rot a)).tag⟩]) (m : Bool) (w : BitVec 2) :
    ∃ t, execVcvt vd a tg m w s = .next t ∧ WholeResult s t vd
      ⟨mergeLanes (tagBits tg) (s.hart.finalV (s.rot vd)).bits (s.active m) ((cvtLanes s a tg m).map (·.1)), tg⟩ w 2
      (allFlags (cvtLanes s a tg m)) := by
  rw [execVcvt, if_neg (by rintro (h | h); exacts [h8 h, h4 h])]
  exact ⟨_, State.vector_good good w _, s.vwrite_whole vd _ tg 2 _ w⟩

/-- The flags of `vcvt`: none from a RAW source. -/
theorem allFlags_cvtLanes (s : State) (a : VReg) (tg : Tag) (m : Bool) : allFlags (cvtLanes s a tg m) =
    if (s.hart.readV (s.rot a)).tag = .raw then 0 else unionFlags ((List.range (tagLanes tg)).map (fun i =>
      if s.active m i && decide (i < tagLanes (s.hart.readV (s.rot a)).tag) then
        (convertElem s.fm (tagKind tg) (elemOf s.fm (s.hart.readV (s.rot a)) i)).2 else 0)) := by
  unfold cvtLanes
  dsimp only
  split
  · rw [allFlags_eq, List.map_map]
    exact unionFlags_eq_zero (List.forall_mem_map.2 fun _ _ => rfl)
  · exact allFlags_active _ _ _

/-- An active element that `vcvt` gives: its bits from a RAW source, else the element converted, 0 at and above the source's lanes. -/
theorem cvtLanes_lane {s : State} {a : VReg} {tg : Tag} (h8 : tg ≠ .bx8p) (h4 : tg ≠ .bx4p) {m : Bool} {i : Nat}
    (hi : i < 512 / tagBits tg) (active : s.active m i = true) :
    (((cvtLanes s a tg m).map (·.1)).drop i).headD 0 % 2 ^ tagBits tg =
      if (s.hart.readV (s.rot a)).tag = .raw then laneOf (tagBits tg) (s.hart.readV (s.rot a)).bits i
      else if i < tagLanes (s.hart.readV (s.rot a)).tag then
        (convertElem s.fm (tagKind tg) (elemOf s.fm (s.hart.readV (s.rot a)) i)).1 % 2 ^ tagBits tg
      else 0 := by
  unfold cvtLanes
  dsimp only
  split
  · rw [List.map_map, lanesOf, List.map_map, headD_drop_map_range _ hi]
    exact Nat.mod_eq_of_lt (laneOf_lt _ _ _)
  · rw [convertLanes, tagLanes_eq h8 h4, List.map_map, headD_drop_map_range _ hi]
    simp only [Function.comp_apply, active, Bool.true_and, decide_eq_true_eq]
    split <;> simp

/-! ### Quantising (R92, R125) -/

/-- A block quantised from one register of floats of 16 bits, or a target that is no block. -/
theorem State.quantOp_single {s : State} {vd a : VReg} {tg : Tag}
    (single : ¬ ((tg = .bx8p ∨ tg = .bx4p) ∧ quantSource (s.hart.readV (s.rot a)).tag = .f32))
    (good : OperandsGood s [s.rot vd, s.rot a] [⟨s.rot a, some (quantSource (s.hart.readV (s.rot a)).tag)⟩]) (w : BitVec 2) :
    let src := quantSource (s.hart.readV (s.rot a)).tag
    let x := s.vread (s.rot a) src allLanes
    let r := quantResult s.fm s.hart.csr.qdelta src tg x.1 0
    ∃ t, s.quantOp vd a tg w = .next t ∧ WholeResult s t vd ⟨r.1, tg⟩ w 2 (x.2 ||| r.2) := by
  intro src x r
  have one : ((tg == .bx8p || tg == .bx4p) && quantSource (s.hart.readV (s.rot a)).tag == .f32) = false := by simpa using single
  have flags : x.2 ||| 0 ||| r.2 = x.2 ||| r.2 := congrArg (· ||| r.2) BitVec.or_zero
  unfold State.quantOp
  simp only [one, Bool.false_eq_true, if_false]
  rw [← flags]
  exact ⟨_, State.vector_good good w _, s.vwrite_whole vd _ tg 2 _ w⟩

/-- A block quantised from a pair of registers of F32. -/
theorem State.quantOp_pair {s : State} {vd a : VReg} {tg : Tag} (block : tg = .bx8p ∨ tg = .bx4p)
    (float : quantSource (s.hart.readV (s.rot a)).tag = .f32)
    (good : OperandsGood s [s.rot vd, s.rot a, s.rot a + 1] [⟨s.rot a, some .f32⟩, ⟨s.rot a + 1, some .f32⟩]) (w : BitVec 2) :
    let x := s.vread (s.rot a) .f32 allLanes
    let y := s.vread (s.rot a + 1) .f32 allLanes
    let r := quantResult s.fm s.hart.csr.qdelta .f32 tg x.1 y.1
    ∃ t, s.quantOp vd a tg w = .next t ∧ WholeResult s t vd ⟨r.1, tg⟩ w 2 (x.2 ||| y.2 ||| r.2) := by
  intro x y r
  have two : ((tg == .bx8p || tg == .bx4p) && Tag.f32 == .f32) = true := by simpa using block
  unfold State.quantOp
  simp only [float, two]
  exact ⟨_, State.vector_good good w _, s.vwrite_whole vd _ tg 2 _ w⟩

/-- `vcvt` to a block quantises (R123). -/
theorem execVcvt_block {tg : Tag} (block : tg = .bx8p ∨ tg = .bx4p) (vd a : VReg) (m : Bool) (w : BitVec 2) (s : State) :
    exec (.vcvt vd a tg m w) s = s.quantOp vd a tg w := if_pos block

/-! ### Decoding (R126) -/

/-- Two registers written by one instruction, retired. -/
theorem State.vwrite_pair_spec (s : State) (r q : VReg) (b c : VBits) (tag : Tag) (lat : Nat) (f : Fl) (w : Nat) :
    Issued s (((s.vwrite r b tag lat f).vwrite q c tag lat 0).advanceW w)
      [⟨r, s.hart.steps + lat, ⟨b, tag⟩⟩, ⟨q, s.hart.steps + lat, ⟨c, tag⟩⟩] f s.hart.csr.vmask w := by
  have issue : (s.vwrite r b tag lat f).vwrite q c tag lat 0
      = s.vissue [⟨r, s.hart.steps + lat, ⟨b, tag⟩⟩, ⟨q, s.hart.steps + lat, ⟨c, tag⟩⟩] f s.hart.csr.vmask := by
    rw [State.vwrite, State.orFlags_zero]
    simp only [State.vwrite, Hart.issueV, State.vissue, List.append_assoc]
    rfl
  exact issue ▸ s.vissue_spec _ f s.hart.csr.vmask w

/-- Results issued to two registers are what these hold in program order. -/
theorem Issued.final_pair {s t : State} {e o : Inflight} {f : Fl} {mask : Word} {w : Nat} (issued : Issued s t [e, o] f mask w)
    (apart : o.reg ≠ e.reg) : t.hart.finalV e.reg = e.val ∧ t.hart.finalV o.reg = o.val := by
  simp [issued.final, apart]

/-- Pair(n) is another register. -/
theorem vreg_add_one_ne (r : VReg) : r + 1 ≠ r := by
  bv_omega

/-- The type as which `vdeq` reads its source. -/
abbrev deqSource (s : State) (a : VReg) : Tag := decodeSource (s.hart.readV (s.rot a)).tag

/-- The value of element `i` of a source that `vdeq` decodes. -/
def deqVal (s : State) (a : VReg) (i : Nat) : FVal :=
  let x := s.vread (s.rot a) (deqSource s a) allLanes
  match tagKind (deqSource s a) with
  | .block n => blockVal (blockOf n x.1.toNat) i
  | .float f => f.decode s.fm.ftz (laneOf f.width x.1 i)
  | _ => .fin false 0 0

/-- The elements that `vdeq` gives, with their flags. -/
def deqLanes (s : State) (a : VReg) (tg : Tag) : List (Nat × Fl) := (List.range 32).map (fun i => fToF (tagFmt tg) s.fm (deqVal s a i))

/-- The flags that `vdeq` raises: of the source's conversion, and of its elements. -/
def deqFlags (s : State) (a : VReg) (tg : Tag) : Fl := (s.vread (s.rot a) (deqSource s a) allLanes).2 ||| allFlags (deqLanes s a tg)

/-- The elements that `vdeq` gives. -/
theorem deqLanes_fst (s : State) (a : VReg) (tg : Tag) :
    (deqLanes s a tg).map (·.1) = (List.range 32).map (fun i => (fToF (tagFmt tg) s.fm (deqVal s a i)).1) := by
  rw [deqLanes, List.map_map]
  rfl

/-- `vdeq` to F32 writes the first 16 elements to a register and the others to the next. -/
theorem execVdeq_pair {s : State} {vd a : VReg}
    (good : OperandsGood s [s.rot vd, s.rot vd + 1, s.rot a] [⟨s.rot a, some (deqSource s a)⟩]) (w : BitVec 2) :
    execVdeq vd a .f32 w s = .next ((((s.vwrite (s.rot vd) (packLanes 32 (((deqLanes s a .f32).map (·.1)).take 16)) .f32 2
      (deqFlags s a .f32)).vwrite (s.rot vd + 1) (packLanes 32 (((deqLanes s a .f32).map (·.1)).drop 16)) .f32 2 0)).advanceW w.toNat) := by
  unfold execVdeq
  exact (State.vector_good good w _).trans rfl

/-- `vdeq` to a 16-bit format writes one register. -/
theorem execVdeq_single {s : State} {vd a : VReg} {tg : Tag} (narrow : tg ≠ .f32)
    (good : OperandsGood s [s.rot vd, s.rot a] [⟨s.rot a, some (deqSource s a)⟩]) (w : BitVec 2) :
    execVdeq vd a tg w s = .next ((s.vwrite (s.rot vd) (packLanes 16 ((deqLanes s a tg).map (·.1))) tg 2 (deqFlags s a tg)).advanceW
      w.toNat) := by
  have one : (tg == .f32) = false := by simpa using narrow
  unfold execVdeq
  simp only [one, Bool.false_eq_true, if_false]
  exact (State.vector_good good w _).trans rfl

/-- The flags of `vdeq`'s elements. -/
theorem deqFlags_eq (s : State) (a : VReg) (tg : Tag) : deqFlags s a tg = (s.vread (s.rot a) (deqSource s a) allLanes).2
    ||| unionFlags ((List.range 32).map (fun i => (fToF (tagFmt tg) s.fm (deqVal s a i)).2)) := by
  rw [deqFlags, allFlags_eq, deqLanes, List.map_map]
  rfl

end Sys2Proof.Machine

namespace Sys2Proof.Proofs
open Sys2Proof Sys2Proof.Machine Sys2Proof.Safety

/-- Settles O35: each format instruction issues its results when its operands pass the checks, and the lanes of what it issues are the
elements converted, quantised or decoded. -/
theorem vectorFormats : Obligations.VectorFormats := by
  intro s vd a rd tg m w ra md
  refine ⟨fun good => execVretag_spec good tg w, fun good => ?_, fun h8 h4 good => ?_, ⟨fun single good => ?_, fun pair good => ?_⟩,
    ⟨fun f32 good => ?_, fun narrow good => ?_⟩⟩
  · obtain ⟨frame, vmask, flags, others, result⟩ := s.setX_vector_spec rd (ra.tag.bits.setWidth 64) 0 w.toNat
    exact ⟨_, execVtag_good good rd w, frame, vmask, flags.trans BitVec.or_zero, others, result⟩
  · obtain ⟨t, runs, val, flags, visible, only⟩ := execVcvt_spec h8 h4 good m w
    rw [allFlags_cvtLanes] at flags
    refine ⟨t, runs, only, visible, congrArg VecReg.tag val, flags, fun i hi => ?_⟩
    rw [val]
    dsimp only
    rw [laneOf_mergeLanes _ _ _ hi]
    cases active : s.active m i
    · rfl
    · rw [if_pos rfl, cvtLanes_lane h8 h4 hi active]
      rfl
  · have quantised := State.quantOp_single single good w
    exact ⟨quantised, fun block => execVcvt_block block vd a m w s ▸ quantised⟩
  · obtain ⟨block, float⟩ := pair
    have quantised := State.quantOp_pair block float good w
    intro x y r i hi
    rcases List.mem_pair.1 hi with rfl | rfl
    · exact quantised
    · exact execVcvt_block block vd a m w s ▸ quantised
  · subst f32
    have issued := s.vwrite_pair_spec (s.rot vd) (s.rot vd + 1) (packLanes 32 (((deqLanes s a .f32).map (·.1)).take 16))
      (packLanes 32 (((deqLanes s a .f32).map (·.1)).drop 16)) .f32 2 (deqFlags s a .f32) w.toNat
    obtain ⟨low, high⟩ := issued.final_pair (vreg_add_one_ne _)
    dsimp only at low high
    refine ⟨_, execVdeq_pair good w, ⟨issued.frame, issued.x, issued.vmask⟩, deqFlags_eq s a .f32 ▸ issued.flags,
      congrArg VecReg.tag low, congrArg VecReg.tag high, fun i hi => ?_⟩
    rw [low, high]
    dsimp only
    rw [laneOf_packLanes (by simp [deqLanes]) (by simpa [deqLanes] using hi),
      laneOf_packLanes (by simp [deqLanes]) (by simpa [deqLanes] using hi)]
    simp only [deqLanes_fst, List.getElem_take, List.getElem_drop, List.getElem_map, List.getElem_range, Nat.add_comm 16 i]
    exact ⟨rfl, rfl⟩
  · have other : tg ≠ .f32 := by rintro rfl; simp at narrow
    obtain ⟨val, flags, visible, only⟩ := s.vwrite_whole vd (packLanes 16 ((deqLanes s a tg).map (·.1))) tg 2 (deqFlags s a tg) w
    refine ⟨_, execVdeq_single other good w, only, deqFlags_eq s a tg ▸ flags, congrArg VecReg.tag val, fun i hi => ?_⟩
    rw [val]
    dsimp only
    rw [laneOf_packLanes (by simp [deqLanes]) (by simpa [deqLanes] using hi)]
    simp only [deqLanes_fst, List.getElem_map, List.getElem_range]
    rfl

end Sys2Proof.Proofs
end

section
/-! SUPPORT and settles O36. The checks of a vector instruction's operands, in the order in which one of them traps (R106). -/

namespace Sys2Proof.Machine
open Sys2Proof.Safety

/-! ### The lowest register that fails a check -/

/-- A register of a list that fails a check, and no lower one does. -/
def Lowest (P : VReg → Prop) (l : List VReg) (r : VReg) : Prop := r ∈ l ∧ P r ∧ ∀ q ∈ l, P q → r.toNat ≤ q.toNat

/-- The register picked is the first of lowest number among those that satisfy the test. -/
theorem lowestReg_eq_argmin (p : VReg → Bool) (l : List VReg) : lowestReg p l = (l.filter p).argmin BitVec.toNat := by
  rw [List.argmin, List.foldl_filter]
  refine congrArg (fun f => l.foldl f none) (funext₂ fun acc r => ?_)
  cases acc with
  | none => rfl
  | some a => exact ite_congr rfl (fun _ => apply_ite some _ _ _) (fun _ => rfl)

section
variable {p : VReg → Bool} {P : VReg → Prop} (test : ∀ r, p r = true ↔ P r) {l : List VReg}
include test

/-- The lowest register that fails is the one picked. -/
theorem lowestReg_of_lowest {r : VReg} (h : Lowest P l r) : lowestReg p l = some r := by
  obtain ⟨mem, fails, least⟩ := h
  have least' {q : VReg} (hq : q ∈ l.filter p) : r.toNat ≤ q.toNat :=
    have ⟨mem, fails⟩ := List.mem_filter.1 hq
    least q mem ((test q).1 fails)
  rw [lowestReg_eq_argmin, List.argmin_eq_some_iff]
  refine ⟨List.mem_filter.2 ⟨mem, (test r).2 fails⟩, fun q hq => least' hq, fun q hq low => ?_⟩
  rw [BitVec.eq_of_toNat_eq (Nat.le_antisymm low (least' hq))]

/-- Where no register fails, none is picked. -/
theorem lowestReg_of_none (h : ∀ r ∈ l, ¬ P r) : lowestReg p l = none :=
  (lowestReg_eq_none p l).2 fun r hr => Bool.eq_false_iff.2 (mt (test r).1 (h r hr))

end

/-! ### The checks of R106 -/

/-- Check 2 fails: the register lies outside the held ones. -/
def State.NotHeld (s : State) (r : VReg) : Prop := s.hart.party ≠ none ∧ 4 * s.hart.held ≤ r.toNat

/-- Check 3 fails: under SCB_CHECK the register has a result in flight that is not ready. -/
def State.ReadEarly (s : State) (r : VReg) : Prop :=
  s.hart.csr.vmode.getLsbD 1 = true ∧ ∃ e ∈ s.hart.inflight, e.reg = r ∧ s.hart.steps < e.ready

/-- Check 4 fails: under FMT_TRAP the register has the tag of another format. -/
def State.WrongFormat (s : State) (srcs : List Src) (r : VReg) : Prop :=
  s.hart.csr.vmode.getLsbD 0 = true ∧ ∃ x ∈ srcs, x.reg = r ∧ ∃ t, x.as_ = some t ∧ (s.hart.readV r).tag ≠ t ∧ (s.hart.readV r).tag ≠ .raw

/-- Check 5 fails: the register holds a block whose check code fails. -/
def State.BrokenBlock (s : State) (srcs : List Src) (r : VReg) : Prop :=
  ∃ x ∈ srcs, x.reg = r ∧ ∃ t, x.as_ = some t ∧ chkBad (s.hart.readV r) t = true

/-- Some source is the register, read as a type that fails a test. -/
theorem any_typed_iff (srcs : List Src) (r : VReg) (f : Tag → Bool) :
    srcs.any (fun x => x.reg == r && (match x.as_ with
      | some t => f t
      | none => false)) = true ↔ ∃ x ∈ srcs, x.reg = r ∧ ∃ t, x.as_ = some t ∧ f t = true := by
  rw [List.any_eq_true]
  refine exists_congr fun x => and_congr_right fun _ => ?_
  cases x.as_ <;> simp

/-- Nothing is picked by a test that is switched off. -/
theorem lowestReg_gated {α : Type} (on : Bool) (p : VReg → Bool) (l : List VReg) (f : VReg → α) :
    (if on then (lowestReg p l).map f else none) = (lowestReg (fun r => on && p r) l).map f := by
  cases on with
  | false =>
    have nothing : lowestReg (fun r => false && p r) l = none := (lowestReg_eq_none _ l).2 fun _ _ => rfl
    rw [nothing]
    rfl
  | true => rfl

section
variable (s : State) (srcs : List Src)

/-- Check 2 as a test. -/
theorem State.unheld_iff (r : VReg) : s.hart.unheld r = true ↔ s.NotHeld r := by
  unfold Hart.unheld State.NotHeld
  cases s.hart.party <;> simp

/-- Check 3 as a test. -/
theorem State.early_iff (r : VReg) : (s.scbCheck && s.hart.early r) = true ↔ s.ReadEarly r := by
  simp [State.scbCheck, Hart.early, State.ReadEarly]

/-- Check 4 as a test. -/
theorem State.wrong_iff (r : VReg) : (s.fmtTrap && srcs.any (fun x => x.reg == r && (match x.as_ with
    | some t => (s.hart.readV r).tag != t && (s.hart.readV r).tag != .raw
    | none => false))) = true ↔ s.WrongFormat srcs r := by
  rw [Bool.and_eq_true, any_typed_iff]
  simp only [State.fmtTrap, State.WrongFormat, Bool.and_eq_true, bne_iff_ne]

/-- Check 5 as a test. -/
theorem State.broken_iff (r : VReg) : srcs.any (fun x => x.reg == r && (match x.as_ with
    | some t => chkBad (s.hart.readV r) t
    | none => false)) = true ↔ s.BrokenBlock srcs r :=
  any_typed_iff srcs r _

/-- Check 3 picks the lowest source read early. -/
theorem State.vearly_eq : s.vearly srcs = (lowestReg (fun r => s.scbCheck && s.hart.early r) (srcs.map Src.reg)).map
    (fun r => (25, BitVec.ofNat 64 r.toNat)) :=
  lowestReg_gated ..

/-- Check 4 picks the lowest source of another format. -/
theorem State.vformat_eq : s.vformat srcs = (lowestReg (fun r => s.fmtTrap && srcs.any (fun x => x.reg == r && (match x.as_ with
    | some t => (s.hart.readV r).tag != t && (s.hart.readV r).tag != .raw
    | none => false))) (srcs.map Src.reg)).map (fun r => (24, BitVec.ofNat 64 (r.toNat + (s.hart.readV r).tag.bits.toNat * 256))) :=
  lowestReg_gated ..

/-- Check 5 picks the lowest source that holds a broken block. -/
theorem State.vchk_eq : s.vchk srcs = (lowestReg (fun r => srcs.any (fun x => x.reg == r && (match x.as_ with
    | some t => chkBad (s.hart.readV r) t
    | none => false))) (srcs.map Src.reg)).map (fun r => (34, BitVec.ofNat 64 r.toNat)) :=
  rfl

end

section
variable {s : State} {named : List VReg} {srcs : List Src} {r : VReg}

/-- The checks in their order (R106). -/
theorem State.vcheck_eq : s.vcheck named srcs = (s.vheld named).or ((s.vearly srcs).or ((s.vformat srcs).or (s.vchk srcs))) := by
  unfold State.vcheck
  cases s.vheld named <;> cases s.vearly srcs <;> cases s.vformat srcs <;> rfl

/-- A register that is not held stops the checks at the second. -/
theorem State.vcheck_unheld (low : Lowest s.NotHeld named r) : s.vcheck named srcs = some (26, BitVec.ofNat 64 r.toNat) := by
  rw [State.vcheck_eq, State.vheld, lowestReg_of_lowest s.unheld_iff low, Option.map_some, Option.some_or]

/-- Operands that pass the checks pass the second and the third. -/
theorem State.vcheck_none_first (pass : s.vcheck named srcs = none) : s.vheld named = none ∧ s.vearly srcs = none := by
  rw [State.vcheck_eq, Option.or_eq_none_iff, Option.or_eq_none_iff] at pass
  obtain ⟨held, ready, -⟩ := pass
  exact ⟨held, ready⟩

variable (held : ∀ q ∈ named, ¬ s.NotHeld q)
include held

/-- Check 2 passes where every register named is held. -/
theorem State.vheld_none : s.vheld named = none := by
  rw [State.vheld, lowestReg_of_none s.unheld_iff held, Option.map_none]

/-- A source read early stops them at the third. -/
theorem State.vcheck_early (low : Lowest s.ReadEarly (srcs.map Src.reg) r) :
    s.vcheck named srcs = some (25, BitVec.ofNat 64 r.toNat) := by
  rw [State.vcheck_eq, State.vheld_none held, State.vearly_eq, lowestReg_of_lowest s.early_iff low, Option.none_or, Option.map_some,
    Option.some_or]

variable (ready : ∀ q ∈ srcs.map Src.reg, ¬ s.ReadEarly q)
include ready

/-- Where no source is read early, the formats and the blocks decide. -/
theorem State.vcheck_ready : s.vcheck named srcs = (s.vformat srcs).or (s.vchk srcs) := by
  rw [State.vcheck_eq, State.vheld_none held, State.vearly_eq, lowestReg_of_none s.early_iff ready, Option.map_none, Option.none_or,
    Option.none_or]

/-- A source of another format stops them at the fourth. -/
theorem State.vcheck_wrong (low : Lowest (s.WrongFormat srcs) (srcs.map Src.reg) r) :
    s.vcheck named srcs = some (24, BitVec.ofNat 64 (r.toNat + (s.hart.readV r).tag.bits.toNat * 256)) := by
  rw [State.vcheck_ready held ready, State.vformat_eq, lowestReg_of_lowest (s.wrong_iff srcs) low, Option.map_some, Option.some_or]

/-- A broken block, where no source has another format, stops them at the fifth. -/
theorem State.vcheck_broken (right : ∀ q ∈ srcs.map Src.reg, ¬ s.WrongFormat srcs q)
    (low : Lowest (s.BrokenBlock srcs) (srcs.map Src.reg) r) : s.vcheck named srcs = some (34, BitVec.ofNat 64 r.toNat) := by
  rw [State.vcheck_ready held ready, State.vformat_eq, lowestReg_of_none (s.wrong_iff srcs) right, State.vchk_eq,
    lowestReg_of_lowest (s.broken_iff srcs) low, Option.map_none, Option.none_or, Option.map_some]

end

/-! ### The shapes of vector instructions -/

section
variable {s : State} {c : Nat} {v : Word} {ty : ETy} {vd a b : VReg} {rs named : List VReg} {srcs : List Src} (m : Bool) (w : BitVec 2)

/-- A vector instruction takes the cause that its checks give. -/
theorem State.vector_traps (fails : s.vcheck named srcs = some (c, v)) (k : State → State) :
    s.vector named srcs w k = .next (s.trap c v) := by
  rw [State.vector, fails]
  rfl

/-- The element-wise instructions. -/
theorem State.laneOp_traps (fails : s.vcheck (s.rot vd :: rs.map s.rot) (sourcesAs s ty rs) = some (c, v)) (lat : Nat)
    (f : List Nat → Nat × Fl) : s.laneOp ty vd rs m w lat f = .next (s.trap c v) := by
  have sources : (rs.map s.rot).map (fun r => (⟨r, some (etyTag ty)⟩ : Src)) = sourcesAs s ty rs := List.map_map
  unfold State.laneOp
  exact State.vector_traps w (sources ▸ fails) _

/-- The instructions on Bits(). -/
theorem State.bitsOp_traps (fails : s.vcheck (s.rot vd :: rs.map s.rot) ((rs.map s.rot).map (fun r => ⟨r, none⟩)) = some (c, v))
    (f : List VBits → VBits) (tag : List Tag → Tag) : s.bitsOp vd rs m w f tag = .next (s.trap c v) := by
  unfold State.bitsOp
  exact State.vector_traps w fails _

/-- `vsel`. -/
theorem execVsel_traps (fails : s.vcheck [s.rot vd, s.rot a, s.rot b] (sourcesAs s ty [a, b]) = some (c, v)) :
    execVsel ty vd a b m w s = .next (s.trap c v) := by
  unfold execVsel State.moveOp
  exact State.vector_traps w fails _

/-- The reductions. -/
theorem State.reduceOp_traps (fails : s.vcheck [s.rot vd, s.rot a] (sourcesAs s ty [a]) = some (c, v)) (ident : Nat)
    (node : Nat → Nat → Nat × Fl) : s.reduceOp ty vd a m w ident node = .next (s.trap c v) := by
  unfold State.reduceOp
  exact State.vector_traps w fails _

/-- `vdot`. -/
theorem execVdot_traps (fails : s.vcheck [s.rot vd, s.rot a, s.rot b] (sourcesAs s ty [a, b]) = some (c, v)) :
    execVdot ty vd a b m w s = .next (s.trap c v) := by
  unfold execVdot
  exact State.vector_traps w fails _

/-- The compares. -/
theorem State.compareOp_traps (fails : s.vcheck [s.rot a, s.rot b] (sourcesAs s ty [a, b]) = some (c, v)) (quiet : Bool) (f : Int → Bool) :
    s.compareOp ty a b m w quiet f = .next (s.trap c v) := by
  unfold State.compareOp
  exact State.vector_traps w fails _

/-- `vretag`. -/
theorem execVretag_traps (fails : s.vcheck [s.rot vd, s.rot a] [⟨s.rot a, none⟩] = some (c, v)) (tg : Tag) :
    execVretag vd a tg w s = .next (s.trap c v) := by
  unfold execVretag
  exact State.vector_traps w fails _

/-- `vtag`. -/
theorem execVtag_traps (fails : s.vcheck [s.rot a] [⟨s.rot a, none⟩] = some (c, v)) (rd : Reg) :
    execVtag rd a w s = .next (s.trap c v) := by
  unfold execVtag
  exact State.vector_traps w fails _

end

end Sys2Proof.Machine

namespace Sys2Proof.Proofs
open Sys2Proof Sys2Proof.Machine Sys2Proof.Safety

/-- Settles O36: each of these instructions takes the cause that `State.vcheck` of the registers it names and of its sources gives,
which is that of the first check that fails, for the lowest register that fails it. -/
theorem vectorChecksTrap : Obligations.VectorChecksTrap := by
  intro s ty vd a b c rd m w tg i named srcs d ra rb listed unheld early wrong broken lowest regs r
  have traps {cause : Nat} {v : Word} (fails : s.vcheck named srcs = some (cause, v)) : Traps i s cause v := by
    simp only [List.mem_cons, Prod.mk.injEq, List.not_mem_nil, or_false] at listed
    rcases listed with ⟨rfl, rfl, rfl⟩ | ⟨rfl, rfl, rfl⟩ | ⟨rfl, rfl, rfl⟩ | ⟨rfl, rfl, rfl⟩ | ⟨rfl, rfl, rfl⟩ | ⟨rfl, rfl, rfl⟩ |
      ⟨rfl, rfl, rfl⟩ | ⟨rfl, rfl, rfl⟩ | ⟨rfl, rfl, rfl⟩ | ⟨rfl, rfl, rfl⟩
    · exact State.laneOp_traps (rs := [a, b]) m w fails (addLat ty) _
    · exact State.laneOp_traps (rs := [a]) m w fails _ _
    · exact State.laneOp_traps (rs := [a, b, c]) false w fails _ _
    · exact State.bitsOp_traps (rs := [a, b]) m w fails _ _
    · exact execVsel_traps m w fails
    · exact State.reduceOp_traps m w fails _ _
    · exact execVdot_traps m w fails
    · exact State.compareOp_traps m w fails true (fun c => c == 0)
    · exact execVretag_traps w fails tg
    · exact execVtag_traps w fails rd
  exact ⟨fun low => traps (State.vcheck_unheld low), fun held low => traps (State.vcheck_early held low),
    fun held ready low => traps (State.vcheck_wrong held ready low),
    fun held ready right low => traps (State.vcheck_broken held ready right low)⟩

end Sys2Proof.Proofs
end

section
/-! SUPPORT and settles O34. The reductions and `vdot` (R120 to R122): what a tree combines, and the values it gives. -/

namespace Sys2Proof.Machine
open Sys2Proof.Safety

/-! ### The tree (R120) -/

/-- Two neighbours of a level are combined. -/
theorem treeLevel_pair (f : Nat → Nat → Nat × Fl) (a b : Nat) (l : List Nat) :
    treeLevel f (a :: b :: l) = ((f a b).1 :: (treeLevel f l).1, (f a b).2 ||| (treeLevel f l).2) := rfl

/-- One level of the tree halves the number of its values. -/
theorem treeLevel_length (f : Nat → Nat → Nat × Fl) : ∀ l : List Nat, (treeLevel f l).1.length = (l.length + 1) / 2
  | [] => rfl
  | [_] => by simp [treeLevel]
  | a :: b :: l => by
    rw [treeLevel_pair, List.length_cons, treeLevel_length f l, List.length_cons, List.length_cons]
    omega

/-- Nodes that raise nothing raise nothing in a level. -/
theorem treeLevel_quiet {f : Nat → Nat → Nat × Fl} (quiet : ∀ a b, (f a b).2 = 0) : ∀ l : List Nat, (treeLevel f l).2 = 0
  | [] => rfl
  | [_] => rfl
  | a :: b :: l => by
    rw [treeLevel_pair, quiet, treeLevel_quiet quiet l]
    rfl

/-- A tree is that of its first level. -/
theorem treeFrom_succ (f : Nat → Nat → Nat × Fl) (n : Nat) (l : List Nat) (fl : Fl) :
    treeFrom f (n + 1) l fl = treeFrom f n (treeLevel f l).1 (fl ||| (treeLevel f l).2) := rfl

/-- The tree adds its nodes' flags to those so far. -/
theorem treeFrom_flags (f : Nat → Nat → Nat × Fl) (n : Nat) (l : List Nat) (fl : Fl) :
    treeFrom f n l fl = ((treeFrom f n l 0).1, fl ||| (treeFrom f n l 0).2) := by
  induction n generalizing l fl with
  | zero => exact Prod.ext rfl BitVec.or_zero.symm
  | succ n ih =>
    rw [treeFrom_succ, treeFrom_succ, ih _ (fl ||| _), ih _ (0 ||| _)]
    exact Prod.ext rfl (by simp [BitVec.or_assoc])

/-- Nodes that raise nothing raise nothing in the tree. -/
theorem treeFrom_quiet {f : Nat → Nat → Nat × Fl} (quiet : ∀ a b, (f a b).2 = 0) (n : Nat) (l : List Nat) : (treeFrom f n l 0).2 = 0 := by
  induction n generalizing l with
  | zero => rfl
  | succ n ih =>
    rw [treeFrom_succ, treeLevel_quiet quiet]
    exact ih _

section
variable {M : Type} {op : M → M → M} [Std.Associative op] {e : M} {φ : Nat → M} {f : Nat → Nat → Nat × Fl}
  (node : ∀ a b, φ (f a b).1 = op (φ a) (φ b))
include node

/-- A level whose nodes stand for an associative operation keeps what the values combine to. -/
theorem treeLevel_combines : ∀ l : List Nat, ((treeLevel f l).1.map φ).foldr op e = (l.map φ).foldr op e
  | [] => rfl
  | [_] => rfl
  | a :: b :: l => by
    simp only [treeLevel_pair, List.map_cons, List.foldr_cons, node, treeLevel_combines l]
    exact Std.Associative.assoc ..

/-- So the whole tree gives what its values combine to. -/
theorem treeFrom_combines (right : ∀ a, op (φ a) e = φ a) {n : Nat} {l : List Nat} (size : l.length = 2 ^ n) (fl : Fl) :
    φ (treeFrom f n l fl).1 = (l.map φ).foldr op e := by
  induction n generalizing l fl with
  | zero =>
    obtain ⟨a, rfl⟩ := List.length_eq_one_iff.1 size
    exact (right a).symm
  | succ n ih =>
    have half : (treeLevel f l).1.length = 2 ^ n := by
      rw [treeLevel_length, size, Nat.pow_succ]
      omega
    rw [treeFrom_succ]
    exact (ih half _).trans (treeLevel_combines node l)

end

/-- An identity may be combined once more. -/
theorem foldr_identity {M : Type} {op : M → M → M} [Std.Associative op] [Std.Commutative op] {e : M} (ee : op e e = e) (l : List M) :
    op e (l.foldr op e) = l.foldr op e := by
  rw [Std.Commutative.comm (op := op) e, ← List.foldr_assoc (op := op), ee]

/-- Elements that enter as the identity do not count (R121). -/
theorem foldr_masked {M : Type} {op : M → M → M} [Std.Associative op] [Std.Commutative op] {e : M} (ee : op e e = e) {φ : Nat → M} {z : Nat}
    (hz : φ z = e) (act : Nat → Bool) (x : Nat → Nat) (l : List Nat) :
    ((l.map (fun i => if act i then x i else z)).map φ).foldr op e = ((l.filter act).map (fun i => φ (x i))).foldr op e := by
  induction l with
  | nil => rfl
  | cons i l ih =>
    cases active : act i with
    | true => simp only [List.map_cons, List.foldr_cons, List.filter_cons, active, if_true, ih]
    | false =>
      simp only [List.map_cons, List.foldr_cons, List.filter_cons, active, Bool.false_eq_true, if_false, ih, hz]
      exact foldr_identity ee _

/-! ### Integers of `w` bits (R80, R86) -/

/-- A result that wraps has the value modulo 2^w. -/
theorem toSigned_wrapInt (w : Nat) (v : Int) : toSigned w (wrapInt w v).1 ≡ v [ZMOD 2 ^ w] := by
  have pos : (0 : Int) < 2 ^ w := by positivity
  have number : (((wrapInt w v).1 : Nat) : Int) = v % 2 ^ w := by
    rw [wrapInt_eq]
    exact Int.toNat_of_nonneg (Int.emod_nonneg v pos.ne')
  exact (toSigned_modEq w _).trans (number ▸ Int.mod_modEq v _)

/-- A signed value wraps to itself. -/
theorem toSigned_wrapInt_toSigned (w x : Nat) : toSigned w (wrapInt w (toSigned w x)).1 = toSigned w x := by
  rw [wrapInt_congr (toSigned_modEq w x), wrapInt_natCast]
  simp only [toSigned, Nat.mod_mod, Int.natCast_mod, Nat.cast_pow, Nat.cast_ofNat, Int.emod_emod_of_dvd _ (dvd_refl _)]

/-- The range of the signed values. -/
theorem toSigned_range {w : Nat} (hw : 0 < w) (x : Nat) : -(2 ^ (w - 1)) ≤ toSigned w x ∧ toSigned w x ≤ 2 ^ (w - 1) - 1 := by
  have half : 2 ^ w = 2 * 2 ^ (w - 1) := by rw [← Nat.pow_succ', Nat.succ_eq_add_one, Nat.sub_add_cancel hw]
  have low : x % 2 ^ w < 2 ^ w := Nat.mod_lt _ (Nat.two_pow_pos w)
  have cast : ((2 ^ (w - 1) : Nat) : Int) = 2 ^ (w - 1) := by push_cast; rfl
  have number : (x : Int) % 2 ^ w = ((x % 2 ^ w : Nat) : Int) := by push_cast; rfl
  rw [← cast, toSigned, number]
  generalize x % 2 ^ w = r at low
  generalize 2 ^ (w - 1) = h at half
  split <;> omega

/-- The most negative value, -/
theorem toSigned_min {w : Nat} (hw : 0 < w) : toSigned w (2 ^ (w - 1)) = -(2 ^ (w - 1)) := by
  have half : 2 ^ w = 2 * 2 ^ (w - 1) := by rw [← Nat.pow_succ', Nat.succ_eq_add_one, Nat.sub_add_cancel hw]
  have small : 2 ^ (w - 1) < 2 ^ w := Nat.pow_lt_pow_right (by decide) (by omega)
  rw [toSigned_of_lt small, if_neg (Nat.lt_irrefl _)]
  push_cast
  have half' : (2 : Int) ^ w = 2 * 2 ^ (w - 1) := by exact_mod_cast half
  omega

/-- and the most positive. -/
theorem toSigned_max {w : Nat} (hw : 0 < w) : toSigned w (2 ^ (w - 1) - 1) = 2 ^ (w - 1) - 1 := by
  have pos := Nat.two_pow_pos (w - 1)
  have small : 2 ^ (w - 1) < 2 ^ w := Nat.pow_lt_pow_right (by decide) (by omega)
  rw [toSigned_of_lt (by omega), if_pos (by omega)]
  push_cast [pos]
  rfl

/-- Numbers that stand for one value have the same low bits. -/
theorem mod_of_modEq {w v : Nat} {x : Int} (h : (v : Int) ≡ x [ZMOD 2 ^ w]) : v % 2 ^ w = (x % 2 ^ w).toNat % 2 ^ w := by
  rw [← h.eq]
  norm_cast
  exact (Nat.mod_mod _ _).symm

/-! ### The reductions (R121) -/

/-- The values that enter the tree: the active elements, and the identity for the others. -/
def treeValues (s : State) (ty : ETy) (m : Bool) (a : VReg) (z : Nat) : List Nat :=
  (List.range (etyLanes ty)).map (fun i => if s.active m i then laneIn s ty m a i else z)

/-- The tree of a reduction. -/
def reduceTree (s : State) (ty : ETy) (m : Bool) (a : VReg) (z : Nat) (node : Nat → Nat → Nat × Fl) : Nat × Fl :=
  treeFrom node (Nat.log2 (etyLanes ty)) (treeValues s ty m a z) 0

/-- A type has a power of two of lanes, and so has the tree. -/
theorem treeValues_length (s : State) (ty : ETy) (m : Bool) (a : VReg) (z : Nat) :
    (treeValues s ty m a z).length = 2 ^ Nat.log2 (etyLanes ty) := by
  rw [treeValues, List.length_map, List.length_range]
  cases ty <;> decide

/-- The flags of one conversion, of the active elements. -/
theorem convFlags_one (s : State) (ty : ETy) (m : Bool) (a : VReg) :
    convFlags s ty m [a] = (s.vread (s.rot a) (etyTag ty) (s.active m)).2 :=
  BitVec.zero_or

/-- The flags of two. -/
theorem convFlags_two (s : State) (ty : ETy) (m : Bool) (a b : VReg) : convFlags s ty m [a, b]
    = (s.vread (s.rot a) (etyTag ty) (s.active m)).2 ||| (s.vread (s.rot b) (etyTag ty) (s.active m)).2 :=
  congrArg (· ||| _) BitVec.zero_or

/-- A reduction whose operands pass the checks writes what its tree gives (R121). -/
theorem State.reduceOp_good {s : State} {ty : ETy} {vd a : VReg} (good : OperandsGood s [s.rot vd, s.rot a] (sourcesAs s ty [a])) (m : Bool)
    (w : BitVec 2) (z : Nat) (node : Nat → Nat → Nat × Fl) :
    let r := reduceTree s ty m a z node
    ∃ t, s.reduceOp ty vd a m w z node = .next t
      ∧ WholeResult s t vd ⟨BitVec.ofNat 512 (r.1 % 2 ^ etyBits ty), etyTag ty⟩ w 4 (convFlags s ty m [a] ||| r.2) := by
  intro r
  have tree := treeFrom_flags node (Nat.log2 (etyLanes ty)) (treeValues s ty m a z) (convFlags s ty m [a])
  rw [convFlags_one] at tree ⊢
  change OperandsGood s [s.rot vd, s.rot a] [⟨s.rot a, some (etyTag ty)⟩] at good
  unfold State.reduceOp
  dsimp only
  rw [State.vector_good good w]
  simp only [treeValues, laneIn] at tree
  rw [tree]
  exact ⟨_, rfl, s.vwrite_whole vd _ _ 4 _ w⟩

/-- A node on floats (R109, R121). -/
theorem redNode_float {ty : ETy} (float : IsFloat ty) (md : FMode) (ff : Fmt → FMode → FVal → FVal → Nat × Fl)
    (fi : Nat → Int → Int → Nat × Fl) : redNode ty md ff fi = fun x y =>
      ff (etyFmt ty) md ((etyFmt ty).decode md.ftz x) ((etyFmt ty).decode md.ftz y) :=
  funext₂ fun _ _ => if_pos ((etyFloat_iff ty).2 float)

/-- A node on integers. -/
theorem redNode_int {ty : ETy} (int : ¬ IsFloat ty) (md : FMode) (ff : Fmt → FMode → FVal → FVal → Nat × Fl)
    (fi : Nat → Int → Int → Nat × Fl) : redNode ty md ff fi = fun x y =>
      fi (etyBits ty) (toSigned (etyBits ty) x) (toSigned (etyBits ty) y) :=
  funext₂ fun _ _ => if_neg (mt (etyFloat_iff ty).1 int)

/-- The signed values of the active elements. -/
def activeInts (s : State) (ty : ETy) (m : Bool) (a : VReg) : List Int :=
  ((List.range (etyLanes ty)).filter (s.active m)).map (fun i => toSigned (etyBits ty) (laneIn s ty m a i))

/-- A reduction of integers: if its nodes wrap, and its tree's value stands for `x`, the low bits of `x` are written. -/
theorem State.reduceOp_int {s : State} {ty : ETy} {vd a : VReg} (good : OperandsGood s [s.rot vd, s.rot a] (sourcesAs s ty [a]))
    (int : ¬ IsFloat ty) {m : Bool} (w : BitVec 2) {z : Nat} (ff : Fmt → FMode → FVal → FVal → Nat × Fl) {g : Int → Int → Int} {x : Int}
    (value : toSigned (etyBits ty) (reduceTree s ty m a z (fun x y =>
      wrapInt (etyBits ty) (g (toSigned (etyBits ty) x) (toSigned (etyBits ty) y)))).1 ≡ x [ZMOD 2 ^ etyBits ty]) :
    ∃ t, s.reduceOp ty vd a m w z (redNode ty s.fm ff (fun w a b => wrapInt w (g a b))) = .next t
      ∧ WholeResult s t vd ⟨BitVec.ofNat 512 ((x % 2 ^ etyBits ty).toNat % 2 ^ etyBits ty), etyTag ty⟩ w 4 (convFlags s ty m [a] ||| 0) := by
  obtain ⟨t, runs, whole⟩ := State.reduceOp_good good m w z (redNode ty s.fm ff (fun w a b => wrapInt w (g a b)))
  rw [redNode_int int] at runs whole
  rw [redNode_int int]
  rw [mod_of_modEq ((toSigned_modEq _ _).symm.trans value)] at whole
  have quiet := treeFrom_quiet (f := fun x y => wrapInt (etyBits ty) (g (toSigned (etyBits ty) x) (toSigned (etyBits ty) y)))
    (fun _ _ => rfl) (Nat.log2 (etyLanes ty)) (treeValues s ty m a z)
  rw [reduceTree, quiet] at whole
  exact ⟨t, runs, whole⟩

section
variable (s : State) (ty : ETy) (m : Bool) (a : VReg)

/-- The tree of sums stands for the sum (R121). -/
theorem reduceTree_sum : toSigned (etyBits ty) (reduceTree s ty m a 0 (fun x y =>
    wrapInt (etyBits ty) (toSigned (etyBits ty) x + toSigned (etyBits ty) y))).1 ≡ (activeInts s ty m a).sum [ZMOD 2 ^ etyBits ty] := by
  have cast {x y : Int} : ((x : ZMod (2 ^ etyBits ty)) = y) ↔ x ≡ y [ZMOD 2 ^ etyBits ty] := by
    rw [ZMod.intCast_eq_intCast_iff]
    push_cast
    rfl
  have zero : ((toSigned (etyBits ty) 0 : Int) : ZMod (2 ^ etyBits ty)) = 0 := by
    rw [← Int.cast_zero]
    exact cast.2 (toSigned_modEq _ 0)
  rw [← cast, reduceTree, treeFrom_combines (op := (· + ·)) (e := (0 : ZMod (2 ^ etyBits ty)))
    (φ := fun x => (toSigned (etyBits ty) x : ZMod (2 ^ etyBits ty)))
    (fun x y => (cast.2 (toSigned_wrapInt _ _)).trans (Int.cast_add _ _)) (fun x => add_zero _) (treeValues_length s ty m a 0),
    treeValues, foldr_masked (op := (· + ·)) (add_zero 0) zero, activeInts, Int.cast_list_sum, List.map_map]
  rfl

variable {s ty m a} {g : Int → Int → Int} [Std.Associative g] [Std.Commutative g] (choice : ∀ x y, g x y = x ∨ g x y = y)
include choice

/-- A tree of choices stands for the choice among the active elements and the identity (R121). -/
theorem reduceTree_choice {z : Nat} (right : ∀ x, g (toSigned (etyBits ty) x) (toSigned (etyBits ty) z) = toSigned (etyBits ty) x) :
    toSigned (etyBits ty) (reduceTree s ty m a z (fun x y => wrapInt (etyBits ty) (g (toSigned (etyBits ty) x) (toSigned (etyBits ty) y)))).1
      = (activeInts s ty m a).foldl g (toSigned (etyBits ty) z) := by
  have node (x y : Nat) : toSigned (etyBits ty) (wrapInt (etyBits ty) (g (toSigned (etyBits ty) x) (toSigned (etyBits ty) y))).1
      = g (toSigned (etyBits ty) x) (toSigned (etyBits ty) y) := by
    rcases choice (toSigned (etyBits ty) x) (toSigned (etyBits ty) y) with h | h
    all_goals rw [h, toSigned_wrapInt_toSigned]
  rw [reduceTree, treeFrom_combines node right (treeValues_length s ty m a z), treeValues, foldr_masked (right z) rfl, activeInts,
    List.foldl_eq_foldr]

end

/-! ### The dot product (R122) -/

/-- The sum of the products of the active elements. -/
def dotInt (s : State) (ty : ETy) (m : Bool) (a b : VReg) : Int :=
  (((List.range (etyLanes ty)).filter (s.active m)).map (fun i =>
    toSigned (etyBits ty) (laneIn s ty m a i) * toSigned (etyBits ty) (laneIn s ty m b i))).sum

/-- What `vdot` gives, with the flags of its nodes. -/
def dotResult (s : State) (ty : ETy) (m : Bool) (a b : VReg) : Nat × Fl :=
  dotValue ty s.fm (s.active m) (s.vread (s.rot a) (etyTag ty) (s.active m)).1 (s.vread (s.rot b) (etyTag ty) (s.active m)).1

/-- On integers it is exact, but for I64 (R122). -/
theorem dotResult_int {ty : ETy} (int : ¬ IsFloat ty) (s : State) (m : Bool) (a b : VReg) :
    dotResult s ty m a b = ((dotInt s ty m a b % 2 ^ etyBits (dotType ty)).toNat, 0) := by
  have products : ((List.range (etyLanes ty)).map (fun i => if s.active m i then
      toSigned (etyBits ty) (laneIn s ty m a i) * toSigned (etyBits ty) (laneIn s ty m b i) else 0)).sum = dotInt s ty m a b := by
    rw [List.sum_map_ite, dotInt]
    simp
  rw [← wrapInt_eq, ← products]
  exact if_neg (mt (etyFloat_iff ty).1 int)

/-- `vdot` whose operands pass the checks. -/
theorem execVdot_good {s : State} {ty : ETy} {vd a b : VReg} {m : Bool}
    (good : OperandsGood s [s.rot vd, s.rot a, s.rot b] (sourcesAs s ty [a, b])) (w : BitVec 2) :
    ∃ t, execVdot ty vd a b m w s = .next t ∧ WholeResult s t vd
      ⟨BitVec.ofNat 512 (dotResult s ty m a b).1, etyTag (dotType ty)⟩ w 4 (convFlags s ty m [a, b] ||| (dotResult s ty m a b).2) := by
  change OperandsGood s [s.rot vd, s.rot a, s.rot b] [⟨s.rot a, some (etyTag ty)⟩, ⟨s.rot b, some (etyTag ty)⟩] at good
  rw [convFlags_two]
  unfold execVdot
  dsimp only
  rw [State.vector_good good w]
  exact ⟨_, rfl, s.vwrite_whole vd _ _ 4 _ w⟩

/-- The result type of `vdot` on integers. -/
theorem dotType_int {ty : ETy} (int : ¬ IsFloat ty) : dotType ty = if ty = .i8 then .i32 else .i64 := by
  cases ty <;> simp_all [dotType]

/-- The tag of its result on floats. -/
theorem dotType_float {ty : ETy} (float : IsFloat ty) : etyTag (dotType ty) = if ty = .f64 then .f64 else .f32 := by
  rcases float with rfl | rfl | rfl | rfl <;> rfl

end Sys2Proof.Machine

namespace Sys2Proof.Proofs
open Sys2Proof Sys2Proof.Machine Sys2Proof.Safety

/-- Settles O34: a reduction writes what its tree gives; on integers the tree stands for the sum, or for the choice, of the active
elements, and on floats it is the tree of R120 itself. -/
theorem vectorReductions : Obligations.VectorReductions := by
  intro s ty vd a b m w wd n md sg act xs all whole
  have signed (r : VReg) (i : Nat) : sg (laneIn s ty m r i) = toSigned wd (laneIn s ty m r i) := (toSigned_of_lt (laneOf_lt _ _ _)).symm
  have wide : 0 < wd := etyBits_pos ty
  refine ⟨fun good => ⟨fun int => ?_, fun float => ?_⟩, fun good => ⟨fun int => ?_, fun float => ?_⟩⟩
  · have ints : xs = activeInts s ty m a := List.map_congr_left fun i _ => signed a i
    have low := toSigned_min wide
    have high := toSigned_max wide
    have notFloat : etyFloat ty = false := Bool.eq_false_iff.2 (mt (etyFloat_iff ty).1 int)
    refine ⟨?_, ?_, ?_⟩
    · have sum := State.reduceOp_int good int (m := m) w (z := 0) fAdd (ints ▸ reduceTree_sum s ty m a)
      show ∃ t, execVredsum ty vd a m w s = .next t ∧ _
      rw [execVredsum, notFloat]
      exact sum
    · have tree := reduceTree_choice (s := s) (m := m) (a := a) (g := max) max_choice (z := 2 ^ (wd - 1)) fun x => by
        rw [low]
        exact max_eq_left (toSigned_range wide x).1
      rw [low, ← ints] at tree
      have greatest := State.reduceOp_int good int w (fun m _ a b => fMinMax m true a b) (congrArg (· % _) tree)
      show ∃ t, execVredmax ty vd a m w s = .next t ∧ _
      rw [execVredmax, notFloat]
      exact greatest
    · have tree := reduceTree_choice (s := s) (m := m) (a := a) (g := min) min_choice (z := 2 ^ (wd - 1) - 1) fun x => by
        rw [high]
        exact min_eq_left (toSigned_range wide x).2
      rw [high, ← ints] at tree
      have least := State.reduceOp_int good int w (fun m _ a b => fMinMax m false a b) (congrArg (· % _) tree)
      show ∃ t, execVredmin ty vd a m w s = .next t ∧ _
      rw [execVredmin, notFloat]
      exact least
  · intro fm node tree
    have isFloat : etyFloat ty = true := (etyFloat_iff ty).2 float
    refine ⟨?_, ?_, ?_⟩
    · show ∃ t, execVredsum ty vd a m w s = .next t ∧ _
      rw [execVredsum, isFloat, redNode_float float]
      exact State.reduceOp_good good m w _ _
    · show ∃ t, execVredmax ty vd a m w s = .next t ∧ _
      rw [execVredmax, isFloat, redNode_float float]
      exact State.reduceOp_good good m w _ _
    · show ∃ t, execVredmin ty vd a m w s = .next t ∧ _
      rw [execVredmin, isFloat, redNode_float float]
      exact State.reduceOp_good good m w _ _
  · intro rt v
    obtain ⟨t, runs, result⟩ := execVdot_good good w (m := m)
    have value : v = dotInt s ty m a b := congrArg List.sum (List.map_congr_left fun i _ => by rw [signed a, signed b])
    rw [dotResult_int int, dotType_int int, ← value] at result
    exact ⟨t, runs, (BitVec.or_zero (x := convFlags s ty m [a, b])) ▸ result⟩
  · intro r
    obtain ⟨t, runs, result⟩ := execVdot_good good w (m := m)
    rw [dotType_float float] at result
    exact ⟨t, runs, result⟩

end Sys2Proof.Proofs
end

section
/-! SUPPORT. Vector loads and stores (R105, R127, R128): their checks, the elements that they move, and what the hart sees. -/

namespace Sys2Proof.Machine
open Sys2Proof.Safety

/-! ### Checks (Table 06-4) -/

/-- The first checks of an access. -/
theorem onlyTlb_checkEarly {s t : State} {k : Acc} {a : Word} {n : Nat} {r : Except Nat Word} (h : checkEarly s k a n = (t, r)) :
    OnlyTlb s t := by
  unfold checkEarly at h
  extract_lets w page align need tlb root ctx seen windowed at h
  have moved {u v : State} {e : TlbEntry} {r : Except Nat Word} (moved : OnlyTlb s u) (h : seen u e = (v, r)) : OnlyTlb s v := by
    unfold seen at h
    split at h
    · exact (Prod.mk.inj h).1 ▸ moved
    · split at h
      next x m found =>
      have found := onlyTlb_trans moved (onlyTlb_metaFor found)
      repeat' split at h
      all_goals exact (Prod.mk.inj h).1 ▸ found
  clear_value seen
  split at h
  · repeat' split at h
    all_goals exact (Prod.mk.inj h).1 ▸ onlyTlb_refl s
  · split at h
    · exact (Prod.mk.inj h).1 ▸ onlyTlb_refl s
    · split at h
      · exact (Prod.mk.inj h).1 ▸ onlyTlb_refl s
      · split at h
        · exact (Prod.mk.inj h).1 ▸ onlyTlb_refl s
        · split at h
          next walked => exact (Prod.mk.inj h).1 ▸ onlyTlb_translate walked
          next walked => exact moved (onlyTlb_translate walked) h
          next walked => exact moved (onlyTlb_translate walked) h

/-- The checks of all elements. -/
theorem onlyTlb_checkAll {s t : State} {k : Acc} {n : Nat} {l : List (Nat × Word)} {r : Except (Nat × Word) (List (Nat × Place))}
    (h : checkAll s k n l = (t, r)) : OnlyTlb s t := by
  induction l generalizing s r with
  | nil => exact (Prod.mk.inj h).1 ▸ onlyTlb_refl s
  | cons e l ih =>
    rw [checkAll] at h
    split at h
    next first => exact (Prod.mk.inj h).1 ▸ onlyTlb_check first
    next first =>
      have moved := onlyTlb_check first
      split at h
      next rest =>
        obtain rfl := (Prod.mk.inj h).1
        exact onlyTlb_trans moved (ih rest)
      next rest =>
        obtain rfl := (Prod.mk.inj h).1
        exact onlyTlb_trans moved (ih rest)

/-! ### Bytes counted for CXL (R281) -/

/-- Counting the bytes of some places changes contexts alone. -/
theorem State.chargeAll_eq (s : State) (n : Nat) (l : List Place) : ∃ c, s.chargeAll n l = { s with contexts := c } := by
  unfold State.chargeAll
  induction l generalizing s with
  | nil => exact ⟨s.contexts, rfl⟩
  | cons p l ih =>
    obtain ⟨c, charged⟩ := State.chargeBlanket_eq s p n
    rw [List.foldl_cons, charged]
    exact ih _

/-- Bytes outside the blanket are not counted. -/
theorem State.chargeBlanket_outside {p : Place} (outside : inBlanket p.key = false) (s : State) (n : Nat) : s.chargeBlanket p n = s :=
  if_neg fun h => absurd (outside.symm.trans h.2) Bool.false_ne_true

/-- The same for some places. -/
theorem State.chargeAll_outside {l : List Place} (outside : ∀ p ∈ l, inBlanket p.key = false) (s : State) (n : Nat) :
    s.chargeAll n l = s := by
  unfold State.chargeAll
  induction l with
  | nil => rfl
  | cons p l ih =>
    rw [List.foldl_cons, State.chargeBlanket_outside (outside p List.mem_cons_self)]
    exact ih fun q hq => outside q (List.mem_cons_of_mem p hq)

/-! ### An interlocked write (R105) -/

/-- Contents in program order after an interlocked write. -/
theorem Hart.finalV_setV (h : Hart) (r : VReg) (val : VecReg) (q : VReg) :
    (h.setV r val).finalV q = if r = q then val else h.finalV q := by
  unfold Hart.setV Hart.finalV
  split
  next same =>
    subst same
    rw [foldl_writes_filter_eq]
    exact Vector.getElem_set_self _
  next other =>
    have apart : r.toNat ≠ q.toNat := fun k => other (BitVec.eq_of_toNat_eq k)
    rw [foldl_writes_filter_ne _ _ _ _ other]
    dsimp only
    rw [Vector.getElem_set_ne _ _ apart]

/-- A read finds it at once. -/
theorem Hart.readV_setV (h : Hart) (r : VReg) (val : VecReg) (n : Nat) : Hart.readV { h.setV r val with steps := n } r = val :=
  (foldl_reads_filter h.inflight r n _).trans (Vector.getElem_set_self _)

/-- A vector load's write of its register, with the flags it raises, and its retiring. -/
theorem State.setV_spec (s : State) (r : VReg) (val : VecReg) (f : Fl) :
    let t := ((s.orFlags f).withHart (fun h => h.setV r val)).advance
    VectorOnly s t [r] 0 ∧ RaisesFlags s t f ∧ t.hart.finalV r = val ∧ t.hart.readV r = val := by
  intro t
  have device : SameDevice s t := rfl
  have spec : OnlyRetired ((s.orFlags f).withHart (fun h => h.setV r val)) t := State.advance_spec _
  obtain ⟨x, ⟨pc, repstate, instret, steps⟩, vectors, csrs, shell, -⟩ := spec
  have final (q : VReg) : t.hart.finalV q = if r = q then val else s.hart.finalV q :=
    (vectors q).trans (Hart.finalV_setV (s.orFlags f).hart r val q)
  have vflags := congrArg Csrs.vflags csrs
  have vmask := congrArg Csrs.vmask csrs
  refine ⟨⟨⟨fun q hq => (final q).trans (if_neg ?_), ⟨pc, repstate, instret, steps⟩, ?_, ?_, device⟩, x, vmask⟩, vflags,
    (final r).trans (if_pos rfl), ?_⟩
  · rintro rfl
    exact hq (List.mem_singleton.2 rfl)
  · exact congrArg (fun c : Csrs => { c with vflags := s.hart.csr.vflags, vmask := s.hart.csr.vmask }) csrs
  · exact congrArg (fun h : Hart => { h with v := s.hart.v, csr := s.hart.csr, inflight := s.hart.inflight }) shell
  · exact (Hart.readV_settle_eq _ r).trans (Hart.readV_setV (s.orFlags f).hart r val _)

/-- The same with no flags. -/
theorem State.setV_quiet (s : State) (r : VReg) (val : VecReg) :
    let t := (s.withHart (fun h => h.setV r val)).advance
    VectorOnly s t [r] 0 ∧ t.hart.csr.vflags = s.hart.csr.vflags ∧ t.hart.finalV r = val ∧ t.hart.readV r = val := by
  obtain ⟨only, vflags, final, read⟩ := s.setV_spec r val 0
  rw [State.orFlags_zero] at only vflags final read
  exact ⟨only, vflags.trans BitVec.or_zero, final, read⟩

/-! ### Loads (R128) -/

/-- Element `k` of a load: the value that the hart sees at its place, or what the register held. -/
def loadLane (s : State) (ty : ETy) (d : VReg) (l : List (Nat × Place)) (k : Nat) : Nat :=
  match l.find? (fun e => e.1 == k) with
  | some e => natOfBytes (s.readPlace e.2 (etyBits ty / 8))
  | none => laneOf (etyBits ty) (s.hart.finalV d).bits k

/-- The register that a load writes. -/
def loadValue (s : State) (ty : ETy) (d : VReg) (l : List (Nat × Place)) : VecReg :=
  ⟨packLanes (etyBits ty) ((List.range (etyLanes ty)).map (loadLane s ty d l)), etyTag ty⟩

/-- A load writes its register, and nothing else. -/
theorem State.loadElems_eq (s : State) (ty : ETy) (d : VReg) (l : List (Nat × Place)) :
    s.loadElems ty d l = s.withHart (fun h => h.setV d (loadValue s ty d l)) := by
  have lane (i : Nat) : (match (l.map (fun x => (x.1, natOfBytes (s.readPlace x.2 (etyBits ty / 8))))).find? (fun x => x.1 == i) with
      | some x => x.2
      | none => laneOf (etyBits ty) (s.hart.finalV d).bits i) = loadLane s ty d l i := by
    rw [List.find?_map, loadLane]
    simp only [Function.comp_def]
    cases l.find? (fun e => e.1 == i) <;> rfl
  exact congrArg (fun ls => s.withHart (fun h => h.setV d ⟨packLanes (etyBits ty) ls, etyTag ty⟩)) (List.map_congr_left fun i _ => lane i)

/-- The bytes of an element make its bits. -/
theorem etyBits_bytes (ty : ETy) : 8 * (etyBits ty / 8) = etyBits ty := by
  cases ty <;> rfl

/-- A lane of what a load writes. -/
theorem loadValue_lane (s : State) (ty : ETy) (d : VReg) (l : List (Nat × Place)) {k : Nat} (hk : k < 512 / etyBits ty) :
    laneOf (etyBits ty) (loadValue s ty d l).bits k = loadLane s ty d l k % 2 ^ etyBits ty := by
  have length : ((List.range (etyLanes ty)).map (loadLane s ty d l)).length = 512 / etyBits ty := by
    rw [List.length_map, List.length_range]
    rfl
  rw [loadValue, laneOf_packLanes (by rw [length]; exact Nat.mul_div_le 512 _) (by rw [length]; exact hk), List.getElem_map,
    List.getElem_range]

/-- A lane that is not moved keeps its bits. -/
theorem loadLane_kept {s : State} {ty : ETy} {d : VReg} {l : List (Nat × Place)} {k : Nat} (kept : l.find? (fun e => e.1 == k) = none) :
    loadLane s ty d l k % 2 ^ etyBits ty = laneOf (etyBits ty) (s.hart.finalV d).bits k := by
  rw [loadLane, kept]
  exact Nat.mod_eq_of_lt (laneOf_lt _ _ _)

/-- A lane that is moved has the little-endian value that the hart sees. -/
theorem loadLane_moved {s : State} {ty : ETy} {d : VReg} {l : List (Nat × Place)} {k : Nat} {p : Place}
    (moved : l.find? (fun e => e.1 == k) = some (k, p)) (plain : p.meta_ = none) : loadLane s ty d l k % 2 ^ etyBits ty =
      natOfBytes ((List.range (etyBits ty / 8)).map (fun j => byteSeen s (p.key + j))) := by
  have bytes : s.readPlace p (etyBits ty / 8) = (List.range (etyBits ty / 8)).map (fun j => byteSeen s (p.key + j)) :=
    readOver_plain s _ plain _
  have fits := natOfBytes_lt ((List.range (etyBits ty / 8)).map (fun j => byteSeen s (p.key + j)))
  rw [List.length_map, List.length_range, etyBits_bytes] at fits
  rw [loadLane, moved]
  dsimp only
  rw [bytes, Nat.mod_eq_of_lt fits]

/-- A vector load has completed: `u` is the state after its checks, and `l` what it moves. -/
structure VectorLoaded (u t : State) (ty : ETy) (d : VReg) (l : List (Nat × Place)) : Prop where
  only : VectorOnly { u with contexts := t.contexts } t [d] 0
  uncounted : (∀ e ∈ l, inBlanket e.2.key = false) → t.contexts = u.contexts
  tag : (t.hart.finalV d).tag = etyTag ty
  seen : t.hart.readV d = t.hart.finalV d
  vflags : t.hart.csr.vflags = u.hart.csr.vflags
  moved : ∀ k, k < 512 / etyBits ty → ∀ p, l.find? (fun e => e.1 == k) = some (k, p) → PlainPlace p →
    laneOf (etyBits ty) (t.hart.finalV d).bits k = natOfBytes ((List.range (etyBits ty / 8)).map (fun j => byteSeen u (p.key + j)))
  kept : ∀ k, k < 512 / etyBits ty → l.find? (fun e => e.1 == k) = none →
    laneOf (etyBits ty) (t.hart.finalV d).bits k = laneOf (etyBits ty) (u.hart.finalV d).bits k

/-- A vector load whose checks pass completes (R128). -/
theorem State.vload_spec {s u : State} {ty : ETy} {addrs : List (Nat × Word)} {l : List (Nat × Place)}
    (passed : checkAll s .vload (etyBits ty / 8) addrs = (u, .ok l)) (d : VReg) :
    ∃ t, s.vload ty d addrs = .next t ∧ VectorLoaded u t ty d l := by
  have uncounted := State.chargeAll_outside (l := l.map Prod.snd) (s := u) (n := etyBits ty / 8)
  obtain ⟨c, charged⟩ := State.chargeAll_eq u (etyBits ty / 8) (l.map Prod.snd)
  rw [charged] at uncounted
  have contexts (outside : ∀ p ∈ l.map Prod.snd, inBlanket p.key = false) : c = u.contexts := congrArg State.contexts (uncounted outside)
  have run : s.vload ty d addrs = .next (({ u with contexts := c } : State).loadElems ty d l).advance := by
    simp only [State.vload, passed, charged]
  rw [State.loadElems_eq] at run
  obtain ⟨only, vflags, final, read⟩ := State.setV_quiet { u with contexts := c } d (loadValue { u with contexts := c } ty d l)
  refine ⟨_, run, only, fun outside => contexts (List.forall_mem_map.2 outside), congrArg VecReg.tag final,
    read.trans final.symm, vflags, fun k hk p moved plain => ?_, fun k hk kept => ?_⟩
  · have view : SameView u { u with contexts := c } := ⟨rfl, rfl, rfl, rfl, rfl⟩
    simp only [final, loadValue_lane _ _ _ _ hk, loadLane_moved moved plain.2.1, view.seen]
  · rw [final, loadValue_lane _ _ _ _ hk, loadLane_kept kept]

end Sys2Proof.Machine
end

section
/-! Settles O38. The vector loads (R127, R128). -/

namespace Sys2Proof.Machine
open Sys2Proof.Safety

/-- A register that the hart holds passes check 2 of R106. -/
theorem State.vheld_single {s : State} {r : VReg} (held : s.hart.party = none ∨ r.toNat < 4 * s.hart.held) : s.vheld [r] = none := by
  refine State.vheld_none fun q hq => ?_
  obtain rfl := List.mem_singleton.1 hq
  rintro ⟨party, high⟩
  exact held.elim party fun low => absurd high (Nat.not_le.2 low)

section
variable {s : State} {ty : ETy} {vd : VReg} {rs1 : Reg}

/-- `vle` on a page without a format. -/
theorem execVle_plain {u0 : State} {off : BitVec 9} {leaf : Word} (held : s.vheld [s.rot vd] = none)
    (early : checkEarly s .vload (s.unitAddr rs1 off) (etyBits ty / 8) = (u0, .ok leaf)) (plain : pteFmt leaf = 0) :
    execVle ty vd rs1 off s = u0.vload ty (s.rot vd) (unitAddrs ty (s.unitAddr rs1 off)) := by
  simp only [execVle, held, early, plain, ne_eq, not_true, if_false]

/-- `vle` on a page with a format. -/
theorem execVle_formatted {u0 : State} {off : BitVec 9} {leaf : Word} (held : s.vheld [s.rot vd] = none)
    (early : checkEarly s .vload (s.unitAddr rs1 off) (etyBits ty / 8) = (u0, .ok leaf)) (fmt : pteFmt leaf ≠ 0) :
    execVle ty vd rs1 off s = u0.loadBlockFmt ty (s.rot vd) (s.unitAddr rs1 off) leaf := by
  simp only [execVle, held, early, fmt, ne_eq, not_false_eq_true, if_true]

/-- `vlds`. -/
theorem execVlds_held (held : s.vheld [s.rot vd] = none) (rs2 : Reg) (m : Bool) :
    execVlds ty vd rs1 rs2 m s = s.vload ty (s.rot vd) (s.strideAddrs ty rs1 rs2 m) := by
  simp only [execVlds, held]

/-- `vlx`. -/
theorem execVlx_good {ix : VReg} (good : OperandsGood s [s.rot vd, s.rot ix] [⟨s.rot ix, none⟩]) (m : Bool) :
    execVlx ty vd rs1 ix m s = s.vload ty (s.rot vd) (s.indexAddrs ty rs1 (s.hart.readV (s.rot ix)).bits m) := by
  simp only [execVlx, (State.vcheck_eq_none s _ _).2 good]

end

end Sys2Proof.Machine

namespace Sys2Proof.Proofs
open Sys2Proof Sys2Proof.Machine Sys2Proof.Safety

/-- Settles O38: each load is `State.vload` of its addresses, in a state that the checks before it may have left another TLB. -/
theorem vectorLoads : Obligations.VectorLoads := by
  intro s ty vd ix rs1 rs2 off m n d held loaded
  have complete {i : Instr} {s' u : State} {addrs : List (Nat × Word)} {l : List (Nat × Place)} (run : exec i s = s'.vload ty d addrs)
      (before : OnlyTlb s s') (passed : checkAll s' .vload n addrs = (u, .ok l)) : loaded i u l := by
    have hart : u.hart = s.hart := (onlyTlb_trans before (onlyTlb_checkAll passed)).hart
    obtain ⟨t, ran, only, uncounted, tag, seen, vflags, moved, kept⟩ := State.vload_spec passed d
    rw [hart] at vflags kept
    exact ⟨t, run.trans ran, only, hart, uncounted, tag, seen, vflags, fun k hk => ⟨moved k hk, kept k hk⟩⟩
  clear_value loaded
  refine ⟨fun u0 leaf u l isHeld early plain passed => ?_, fun u l isHeld passed => ?_, fun u l good passed => ?_⟩
  · exact complete (execVle_plain (State.vheld_single isHeld) early plain) (onlyTlb_checkEarly early) passed
  · exact complete (execVlds_held (State.vheld_single isHeld) rs2 m) (onlyTlb_refl s) passed
  · exact complete (execVlx_good good m) (onlyTlb_refl s) passed

end Sys2Proof.Proofs
end

section
/-! SUPPORT and settles O39. The vector stores (R127, R128): elements that stay pending, and what the hart sees of them. -/

namespace Sys2Proof.Machine
open Sys2Proof.Safety

/-! ### Stores put before the pending ones -/

/-- Some stores put before the pending ones, one after another. -/
def pendAll (p : List Host.Cell) (xs : List (Place × List Byte)) : List Host.Cell := xs.foldl (fun p x => pendStore p x.1.key x.2) p

/-- The hart in focus with these stores pending. -/
def State.pends (s : State) (xs : List (Place × List Byte)) : State :=
  { s with hart := { s.hart with pending := pendAll s.hart.pending xs } }

/-- They leave the uncorrectable words. -/
theorem State.pends_poison (s : State) (xs : List (Place × List Byte)) : (s.pends xs).poison = s.poison := rfl

/-- A view that stays, stays before the same stores. -/
theorem SameView.pends {s t : State} (h : SameView s t) (xs : List (Place × List Byte)) : SameView (s.pends xs) (t.pends xs) where
  hid := h.hid
  pending := congrArg (pendAll · xs) h.pending
  mem := h.mem
  stale := h.stale
  lines := h.lines

/-- Two stores that adjoin are one. -/
theorem pendStore_join (p : List Host.Cell) (a : Nat) (b c : List Byte) :
    pendStore p a (b ++ c) = pendStore (pendStore p a b) (a + b.length) c := by
  induction b generalizing p a with
  | nil => rfl
  | cons x b ih =>
    rw [List.cons_append, pendStore, ih, pendStore, List.length_cons, Nat.add_right_comm, Nat.add_assoc a]

/-- Joining the elements that adjoin changes nothing of what is pending (R348; log 33). -/
theorem pendAll_joinRuns (p : List Host.Cell) (xs : List (Place × List Byte)) : pendAll p (joinRuns xs) = pendAll p xs := by
  induction xs generalizing p with
  | nil => rfl
  | cons x xs ih =>
    obtain ⟨a, b⟩ := x
    have rest : pendAll p ((a, b) :: xs) = pendAll (pendStore p a.key b) (joinRuns xs) := (ih _).symm
    rw [joinRuns, rest]
    split
    next q c more joined =>
      rw [joined]
      split
      next adjoin =>
        obtain ⟨key, -⟩ := adjoin
        show pendAll (pendStore p a.key (b ++ c)) more = pendAll (pendStore (pendStore p a.key b) q.key c) more
        rw [pendStore_join, key]
      next => rfl
    next none =>
      rw [none]
      rfl

/-- Each run begins at the place of some element. -/
theorem joinRuns_places {P : Place → Prop} {xs : List (Place × List Byte)} (h : ∀ x ∈ xs, P x.1) : ∀ r ∈ joinRuns xs, P r.1 := by
  induction xs with
  | nil => exact h
  | cons x xs ih =>
    obtain ⟨first, rest⟩ := List.forall_mem_cons.1 h
    have runs := ih rest
    obtain ⟨a, b⟩ := x
    rw [joinRuns]
    split
    next q c more joined =>
      rw [joined] at runs
      split
      · exact List.forall_mem_cons.2 ⟨first, (List.forall_mem_cons.1 runs).2⟩
      · exact List.forall_mem_cons.2 ⟨first, runs⟩
    next => exact List.forall_mem_singleton.2 first

/-- What follows the pending stores follows them still. -/
theorem pendAll_append (p q : List Host.Cell) (xs : List (Place × List Byte)) : pendAll p xs ++ q = pendAll (p ++ q) xs := by
  induction xs generalizing p with
  | nil => rfl
  | cons x xs ih => exact (ih _).trans (congrArg (pendAll · xs) (pendStore_append p q _ _))

/-- A byte of none of the stores is looked up before them. -/
theorem pendingGet_pendAll_other {xs : List (Place × List Byte)} {a : Nat} (other : ∀ x ∈ xs, ¬ (x.1.key ≤ a ∧ a < x.1.key + x.2.length))
    (p m : List Host.Cell) : pendingGet (pendAll p xs) m a = pendingGet p m a := by
  induction xs generalizing p with
  | nil => rfl
  | cons x xs ih =>
    obtain ⟨first, rest⟩ := List.forall_mem_cons.1 other
    exact (ih rest _).trans ((pendingGet_pendStore ..).trans (if_neg first))

/-- The last store to a byte is the one seen (R128). -/
theorem pendingGet_pendAll_last {pre post : List (Place × List Byte)} {x : Place × List Byte} {a : Nat}
    (covers : x.1.key ≤ a ∧ a < x.1.key + x.2.length) (last : ∀ y ∈ post, ¬ (y.1.key ≤ a ∧ a < y.1.key + y.2.length))
    (p m : List Host.Cell) : pendingGet (pendAll p (pre ++ x :: post)) m a = x.2.getD (a - x.1.key) 0 := by
  have split : pendAll p (pre ++ x :: post) = pendAll (pendStore (pendAll p pre) x.1.key x.2) post := List.foldl_append
  rw [split, pendingGet_pendAll_other last, pendingGet_pendStore, if_pos covers]

/-! ### Weak stores that stay pending -/

/-- A place of the device's own uncompressed memory, at which a store stays pending (R159). -/
def OwnPlain (p : Place) : Prop := p.window = false ∧ pteKind p.pte ≠ 3 ∧ pteCmp p.pte = 0 ∧ isRemote p.key = false

/-- Some weak stores, one after another. -/
def State.writeAll (s : State) (xs : List (Place × List Byte)) : State := xs.foldl (fun s x => s.writeWeak x.1 x.2) s

/-- They change of the harts the pending stores of the hart in focus alone. -/
theorem State.writeAll_harts (s : State) (xs : List (Place × List Byte)) : SameButPending s (s.writeAll xs) := by
  unfold State.writeAll
  induction xs generalizing s with
  | nil => exact (KeepsHarts.refl s).sameButPending
  | cons x xs ih => exact (State.writeWeak_harts s x.1 x.2).trans (ih _)

/-- A store to such a place, where no word is uncorrectable, stays pending. -/
theorem State.writeWeak_own {s : State} {p : Place} (own : OwnPlain p) (clean : s.poison = []) (bs : List Byte) :
    SameView (s.pends [(p, bs)]) (s.writeWeak p bs) ∧ (s.writeWeak p bs).poison = [] := by
  obtain ⟨window, kind, plain, near⟩ := own
  have pends : StoresNow s p.key bs.length = false := by simp [near, clean, coversBad]
  have noted := State.noteKey_sameView s (ctxOf s.hart.csr.ptroot) p.va p.key
  obtain ⟨-, -, poison⟩ := State.noteKey_keeps s (ctxOf s.hart.csr.ptroot) p.va p.key
  have written : s.writeWeak p bs = (s.noteKey (ctxOf s.hart.csr.ptroot) p.va p.key).pends [(p, bs)] :=
    State.writeWeak_pends bs window kind plain pends
  rw [written, State.pends_poison, poison]
  exact ⟨noted.pends _, clean⟩

/-- So do some stores, each to such a place. -/
theorem State.writeAll_own {s : State} {xs : List (Place × List Byte)} (own : ∀ x ∈ xs, OwnPlain x.1) (clean : s.poison = []) :
    SameView (s.pends xs) (s.writeAll xs) := by
  induction xs generalizing s with
  | nil => exact ⟨rfl, rfl, rfl, rfl, rfl⟩
  | cons x xs ih =>
    obtain ⟨first, rest⟩ := List.forall_mem_cons.1 own
    obtain ⟨view, clean'⟩ := State.writeWeak_own first clean x.2
    exact (view.pends xs).trans (ih rest clean')

/-- What the hart sees after such stores. -/
theorem byteSeen_pends (s : State) (xs : List (Place × List Byte)) (a : Nat) :
    byteSeen (s.pends xs) a = pendingGet (pendAll (s.hart.pending ++ s.copies) xs) s.mem a :=
  congrArg (pendingGet · s.mem a) (pendAll_append ..)

/-! ### The elements of a store (R128) -/

/-- The elements of a store with their bytes. -/
def storeBytes (ty : ETy) (d : VBits) (l : List (Nat × Place)) : List (Place × List Byte) :=
  l.map (fun e => (e.2, bytesOfNat (etyBits ty / 8) (laneOf (etyBits ty) d e.1)))

/-- A store of elements is a store of the runs that they make. -/
theorem State.storeElems_eq (s : State) (ty : ETy) (d : VBits) (l : List (Nat × Place)) :
    s.storeElems ty d l = (s.chargeAll (etyBits ty / 8) (l.map Prod.snd)).writeAll (joinRuns (storeBytes ty d l)) := rfl

/-- What the hart sees after a store of elements in its own uncompressed memory. -/
theorem State.storeElems_own {s : State} {l : List (Nat × Place)} (own : ∀ e ∈ l, OwnPlain e.2) (clean : s.poison = []) (ty : ETy) (d : VBits) :
    SameView (s.pends (storeBytes ty d l)) (s.storeElems ty d l) := by
  obtain ⟨c, charged⟩ := State.chargeAll_eq s (etyBits ty / 8) (l.map Prod.snd)
  have places : ∀ r ∈ joinRuns (storeBytes ty d l), OwnPlain r.1 := joinRuns_places (List.forall_mem_map.2 own)
  have view := State.writeAll_own (s := { s with contexts := c }) places clean
  rw [State.storeElems_eq, charged]
  rw [State.pends, pendAll_joinRuns] at view
  exact ⟨view.hid, view.pending, view.mem, view.stale, view.lines⟩

/-- A store of elements changes of the harts the pending stores of the hart in focus alone. -/
theorem State.storeElems_harts (s : State) (ty : ETy) (d : VBits) (l : List (Nat × Place)) : SameButPending s (s.storeElems ty d l) := by
  obtain ⟨c, charged⟩ := State.chargeAll_eq s (etyBits ty / 8) (l.map Prod.snd)
  have harts := State.writeAll_harts { s with contexts := c } (joinRuns (storeBytes ty d l))
  rw [State.storeElems_eq, charged]
  exact ⟨harts.hid, harts.others, harts.hart⟩

/-- Raising flags leaves every view as it is. -/
theorem sameView_orFlags (s : State) (f : Fl) : SameView s (s.orFlags f) := ⟨rfl, rfl, rfl, rfl, rfl⟩

/-- A vector store has completed, in a state that differs from the first in pending stores of the hart in focus alone. -/
structure VectorStored (s t : State) (f : Fl) : Prop where
  others : t.others = s.others
  x : ∀ r, t.x r = s.x r
  retired : Retired s.hart t.hart 0
  vectors : SameVectors s.hart t.hart
  shell : SameShell s.hart { t.hart with pending := s.hart.pending }
  flags : RaisesFlags s t f
  csrs : { t.hart.csr with
    instret := s.hart.csr.instret, repstate := s.hart.csr.repstate, vflags := s.hart.csr.vflags } = s.hart.csr

/-- Raising flags and retiring after stores. -/
theorem SameButPending.vectorStored {s v : State} (h : SameButPending s v) (f : Fl) : VectorStored s (v.orFlags f).advance f := by
  obtain ⟨-, others, hart⟩ := h
  have focused : v.hart = { s.hart with pending := v.hart.pending } := congrArg (fun k : Hart => { k with pending := v.hart.pending }) hart
  obtain ⟨x, ⟨pc, repstate, instret, steps⟩, vectors, csrs, shell, -⟩ := State.advance_spec (v.orFlags f)
  have flagged : (v.orFlags f).hart = { s.hart with
      pending := v.hart.pending, csr := { s.hart.csr with vflags := s.hart.csr.vflags ||| f.setWidth 64 } } := by
    rw [State.orFlags, State.withCsr, focused]
  rw [flagged] at pc repstate instret steps
  rw [SameVectors, flagged] at vectors
  rw [SameCsrs, flagged] at csrs
  rw [SameShell, flagged] at shell
  refine ⟨others, fun r => (x r).trans ?_, ⟨pc, repstate, instret, steps⟩, vectors, ?_, congrArg Csrs.vflags csrs, ?_⟩
  · rw [State.x, State.x, flagged]
  · exact congrArg (fun k : Hart => { k with pending := s.hart.pending, csr := s.hart.csr }) shell
  · exact congrArg (fun c : Csrs => { c with vflags := s.hart.csr.vflags }) csrs

/-! ### The instructions -/

section
variable {s u : State} (hart : u.hart = s.hart)
include hart

/-- Operands that pass the checks pass them while the hart stays. -/
theorem operandsGood_of_hart {named : List VReg} {srcs : List Src} (good : OperandsGood s named srcs) : OperandsGood u named srcs :=
  ⟨by rw [hart]; exact good.held, by rw [hart]; exact good.ready, by rw [hart]; exact good.format, by rw [hart]; exact good.intact⟩

/-- And they read as they did. -/
theorem vread_of_hart (r : VReg) (t : Tag) (act : Nat → Bool) : u.vread r t act = s.vread r t act := by
  rw [State.vread, State.vread, State.fm, State.fm, hart]

end

section
variable {s : State} {ty : ETy} {vs : VReg} {rs1 : Reg}

/-- `vse` on a page without a format. -/
theorem execVse_plain {u0 : State} {off : BitVec 9} {leaf : Word} (good : OperandsGood s [s.rot vs] (sourcesAs s ty [vs]))
    (early : checkEarly s .vstore (s.unitAddr rs1 off) (etyBits ty / 8) = (u0, .ok leaf)) (plain : pteFmt leaf = 0) :
    execVse ty vs rs1 off s = u0.vstore ty (s.vread (s.rot vs) (etyTag ty) allLanes) (unitAddrs ty (s.unitAddr rs1 off)) := by
  have hart := (onlyTlb_checkEarly early).hart
  change OperandsGood s [s.rot vs] [⟨s.rot vs, some (etyTag ty)⟩] at good
  obtain ⟨held, ready⟩ := State.vcheck_none_first ((State.vcheck_eq_none s _ _).2 good)
  have still := (State.vcheck_eq_none u0 _ _).2 (operandsGood_of_hart hart good)
  simp only [execVse, held, ready, early, plain, still, vread_of_hart hart, ne_eq, not_true, if_false]

/-- `vsds`. -/
theorem execVsds_good (good : OperandsGood s [s.rot vs] (sourcesAs s ty [vs])) (rs2 : Reg) (m : Bool) :
    execVsds ty vs rs1 rs2 m s = s.vstore ty (s.vread (s.rot vs) (etyTag ty) (s.active m)) (s.strideAddrs ty rs1 rs2 m) := by
  change OperandsGood s [s.rot vs] [⟨s.rot vs, some (etyTag ty)⟩] at good
  simp only [execVsds, (State.vcheck_eq_none s _ _).2 good]

/-- `vsx`. -/
theorem execVsx_good {ix : VReg} (good : OperandsGood s [s.rot vs, s.rot ix] [⟨s.rot vs, some (etyTag ty)⟩, ⟨s.rot ix, none⟩]) (m : Bool) :
    execVsx ty vs rs1 ix m s = s.vstore ty (s.vread (s.rot vs) (etyTag ty) (fun i => s.active m i && decide (i < 16)))
      (s.indexAddrs ty rs1 (s.hart.readV (s.rot ix)).bits m) := by
  simp only [execVsx, (State.vcheck_eq_none s _ _).2 good]

end

/-- A vector store whose checks pass completes. -/
theorem State.vstore_passed {s u : State} {ty : ETy} {addrs : List (Nat × Word)} {l : List (Nat × Place)}
    (passed : checkAll s .vstore (etyBits ty / 8) addrs = (u, .ok l)) (d : VBits × Fl) :
    s.vstore ty d addrs = .next ((u.storeElems ty d.1 l).orFlags d.2).advance := by
  simp only [State.vstore, passed]

/-- One byte of an element that a store writes. -/
theorem bytesOfNat_getD_pow {n j : Nat} (hj : j < n) (v : Nat) : (bytesOfNat n v).getD j 0 = BitVec.ofNat 8 (v / 256 ^ j) := by
  rw [bytesOfNat_getD hj, Nat.pow_mul]

end Sys2Proof.Machine

namespace Sys2Proof.Proofs
open Sys2Proof Sys2Proof.Machine Sys2Proof.Safety

/-- Settles O39: each store is `State.vstore` of its elements, which in the device's own uncompressed memory stay pending one after
another, so that the last to a byte is the one seen. -/
theorem vectorStores : Obligations.VectorStores := by
  intro s ty vs ix rs1 rs2 off m n d stored
  have complete {i : Instr} {s' u : State} {v : VBits × BitVec 6} {addrs : List (Nat × Word)} {l : List (Nat × Place)}
      (run : exec i s = s'.vstore ty v addrs) (before : OnlyTlb s s') (passed : checkAll s' .vstore n addrs = (u, .ok l)) :
      stored i u v l := by
    have only := onlyTlb_trans before (onlyTlb_checkAll passed)
    have harts := (onlyTlb_keepsHarts only).sameButPending.trans (u.storeElems_harts ty v.1 l)
    obtain ⟨others, x, retired, vectors, shell, flags, csrs⟩ := harts.vectorStored v.2
    refine ⟨_, run.trans (State.vstore_passed passed v), others, x, retired, vectors, shell, flags, csrs, fun places clean => ?_⟩
    have view := ((onlyTlb_sameView only).pends (storeBytes ty v.1 l)).trans ((State.storeElems_own places clean ty v.1).trans
      ((sameView_orFlags _ v.2).trans (sameView_advance _)))
    refine ⟨view.mem, fun a other => ?_, fun pre e post split j hj last => ?_⟩
    · rw [view.seen, byteSeen_pends, pendingGet_pendAll_other]
      · rfl
      · refine List.forall_mem_map.2 fun e he => ?_
        rw [bytesOfNat_length]
        exact other e he
    · have elements : storeBytes ty v.1 l = storeBytes ty v.1 pre
          ++ (e.2, bytesOfNat n (laneOf (etyBits ty) v.1 e.1)) :: storeBytes ty v.1 post := by
        rw [split, storeBytes, List.map_append, List.map_cons]
        rfl
      rw [view.seen, byteSeen_pends, elements, pendingGet_pendAll_last, Nat.add_sub_cancel_left, bytesOfNat_getD_pow hj]
      · rw [bytesOfNat_length]
        exact ⟨Nat.le_add_right _ _, Nat.add_lt_add_left hj _⟩
      · refine List.forall_mem_map.2 fun f hf => ?_
        rw [bytesOfNat_length]
        exact last f hf
  clear_value stored
  refine ⟨fun u0 leaf u l good early plain passed => ?_, fun u l good passed => ?_, fun u l good passed => ?_⟩
  · exact complete (execVse_plain good early plain) (onlyTlb_checkEarly early) passed
  · exact complete (execVsds_good good rs2 m) (onlyTlb_refl s) passed
  · exact complete (execVsx_good good m) (onlyTlb_refl s) passed

end Sys2Proof.Proofs
end

section
/-! SUPPORT and settles O40. Vector loads and stores of pages with a format (R130, Table 06-4). -/

namespace Sys2Proof.Machine
open Sys2Proof.Safety

/-- The elements of a page with an FP8 format (R130). -/
def fp8Fmt (fmt : Nat) : Fmt := if fmt = 3 then fmtE4m3 else fmtE5m2

/-- A block of an FP8 page has 32 bytes, no scale word, and one element in each byte. -/
theorem fp8_page {fmt : Nat} (h : fmt = 3 ∨ fmt = 4) : fmtBytes fmt = 32 ∧ fmtBx fmt = false
    ∧ ∀ ftz bs scale, fmtValues ftz fmt bs scale = bs.map (fun b => (fp8Fmt fmt).decode ftz b.toNat) := by
  rcases h with rfl | rfl <;> exact ⟨rfl, rfl, fun _ _ _ => rfl⟩

section
variable {s u : State} {a leaf : Word} {p : Place} {v : VReg} {ty : ETy}

/-! ### What R130 refuses (check 8) -/

/-- A type or an address that R130 refuses takes cause 5. -/
theorem State.loadBlockFmt_refused (bad : ty ≠ .bf16 ∨ a.toNat % fmtBytes (pteFmt leaf) ≠ 0)
    (passed : check s .vload a (etyBits ty / 8) true = (u, .ok p)) : s.loadBlockFmt ty v a leaf = .next (u.trap 5 a) := by
  have refused : (ty != .bf16 || a.toNat % fmtBytes (pteFmt leaf) != 0) = true := by simpa using bad
  simp only [State.loadBlockFmt, refused, if_true, passed]
  rfl

/-- A store of another tag or to a misaligned address takes cause 7. -/
theorem State.storeBlockFmt_refused (bad : (s.hart.readV v).tag ≠ fmtTag (pteFmt leaf) ∨ a.toNat % fmtBytes (pteFmt leaf) ≠ 0)
    (passed : check s .vstore a (etyBits ty / 8) true = (u, .ok p)) : s.storeBlockFmt ty v a leaf = .next (u.trap 7 a) := by
  have refused : ((s.hart.readV v).tag != fmtTag (pteFmt leaf) || a.toNat % fmtBytes (pteFmt leaf) != 0) = true := by simpa using bad
  simp only [State.storeBlockFmt, refused, if_true, passed]
  rfl

/-! ### FP8 blocks -/

/-- The elements of an FP8 block as BF16, with their flags (R95). -/
def fp8Values (s : State) (fmt : Nat) (p : Place) : List (Nat × Fl) :=
  (List.range 32).map (fun k =>
    fToF fmtBf16 s.fm ((fp8Fmt fmt).decode s.fm.ftz (byteSeen s (p.key + k)).toNat))

section
variable (fp8 : pteFmt leaf = 3 ∨ pteFmt leaf = 4) (aligned : a.toNat % 32 = 0)
include fp8 aligned

/-- An aligned `vle.bf16` decodes the block. -/
theorem State.loadBlockFmt_fp8 (passed : check s .vload a 32 true = (u, .ok p)) (good : u.badRead false p.key 32 = false)
    (plain : p.meta_ = none) : s.loadBlockFmt .bf16 v a leaf = .next (((u.chargeBlanket p 32).orFlags
      (allFlags (fp8Values u (pteFmt leaf) p))).withHart (fun h => h.setV v ⟨packLanes 16 ((fp8Values u (pteFmt leaf) p).map (·.1)), .bf16⟩)).advance := by
  obtain ⟨bytes, noScale, values⟩ := fp8_page fp8
  have fits : (ETy.bf16 != .bf16 || a.toNat % 32 != 0) = false := by simp [aligned]
  have mask : u.maskBad p.meta_ p.key = false := by rw [plain]; rfl
  have read : u.readPlace p 32 = (List.range 32).map (fun k => byteSeen u (p.key + k)) := readOver_plain u _ plain 32
  simp only [State.loadBlockFmt, bytes, fits, Bool.false_eq_true, if_false, passed, noScale, good, mask, Bool.or_self, values, read,
    List.map_map]
  rfl

/-- A store of a register with the page's tag, if the page is not of KIND 2, is a weak store of its bytes. -/
theorem State.storeBlockFmt_fp8 (tag : (s.hart.readV v).tag = fmtTag (pteFmt leaf)) (passed : check s .vstore a 32 true = (u, .ok p)) :
    s.storeBlockFmt ty v a leaf = if pteKind leaf = 2 then .next (u.trap 32 a)
      else .next ((u.chargeBlanket p 32).writeWeak p (bytesOfNat 32 (s.hart.readV v).bits.toNat)).advance := by
  obtain ⟨bytes, noScale, -⟩ := fp8_page fp8
  have fits : ((s.hart.readV v).tag != fmtTag (pteFmt leaf) || a.toNat % 32 != 0) = false := by simp [tag, aligned]
  simp only [State.storeBlockFmt, bytes, fits, Bool.false_eq_true, if_false, passed, noScale]
  rfl

end
end

/-- An FP8 block decoded: `u` is the state after the checks. -/
structure Fp8Loaded (u t : State) (d : VReg) (fmt : Nat) (p : Place) : Prop where
  only : VectorOnly { u with contexts := t.contexts } t [d] 0
  uncounted : inBlanket p.key = false → t.contexts = u.contexts
  tag : (t.hart.finalV d).tag = .bf16
  lanes : ∀ k, k < 32 → laneOf 16 (t.hart.finalV d).bits k =
    (fToF fmtBf16 u.fm ((fp8Fmt fmt).decode u.fm.ftz (byteSeen u (p.key + k)).toNat)).1 % 2 ^ 16

/-- What a load of an FP8 block does once its checks have passed. -/
theorem fp8Loaded_setV (u : State) (d : VReg) (fmt : Nat) (p : Place) :
    Fp8Loaded u (((u.chargeBlanket p 32).orFlags (allFlags (fp8Values u fmt p))).withHart
      (fun h => h.setV d ⟨packLanes 16 ((fp8Values u fmt p).map (·.1)), .bf16⟩)).advance d fmt p := by
  have uncounted := fun outside => congrArg State.contexts (State.chargeBlanket_outside (p := p) outside u 32)
  obtain ⟨c, charged⟩ := State.chargeBlanket_eq u p 32
  rw [charged] at uncounted ⊢
  obtain ⟨only, -, final, -⟩ := State.setV_spec { u with contexts := c } d ⟨packLanes 16 ((fp8Values u fmt p).map (·.1)), .bf16⟩
    (allFlags (fp8Values u fmt p))
  refine ⟨only, uncounted, congrArg VecReg.tag final, fun k hk => ?_⟩
  rw [final]
  dsimp only
  rw [laneOf_packLanes (by simp [fp8Values]) (by simpa [fp8Values] using hk)]
  simp only [fp8Values, List.getElem_map, List.getElem_range]

/-- What the hart sees after one store in its own uncompressed memory. -/
theorem byteSeen_pends_single (s : State) (p : Place) (bs : List Byte) (a : Nat) : byteSeen (s.pends [(p, bs)]) a =
    if p.key ≤ a ∧ a < p.key + bs.length then bs.getD (a - p.key) 0 else byteSeen s a :=
  (byteSeen_pends s _ a).trans (pendingGet_pendStore ..)

/-- `vse` on a page with a format. -/
theorem execVse_formatted {s u0 : State} {ty : ETy} {vs : VReg} {rs1 : Reg} {off : BitVec 9} {leaf : Word}
    (good : OperandsGood s [s.rot vs] []) (unchecked : s.scbCheck = false)
    (early : checkEarly s .vstore (s.unitAddr rs1 off) (etyBits ty / 8) = (u0, .ok leaf)) (fmt : pteFmt leaf ≠ 0) :
    execVse ty vs rs1 off s = u0.storeBlockFmt ty (s.rot vs) (s.unitAddr rs1 off) leaf := by
  obtain ⟨held, -⟩ := State.vcheck_none_first ((State.vcheck_eq_none s _ _).2 good)
  have ready : s.vearly [⟨s.rot vs, some (etyTag ty)⟩] = none := by rw [State.vearly, unchecked]; rfl
  simp only [execVse, held, ready, early, fmt, ne_eq, not_false_eq_true, if_true]

end Sys2Proof.Machine

namespace Sys2Proof.Proofs
open Sys2Proof Sys2Proof.Machine Sys2Proof.Safety

/-- Settles O40: on a page with a format `vle` and `vse` are `State.loadBlockFmt` and `State.storeBlockFmt`, and each clause is a case
of these. -/
theorem formattedPages : Obligations.FormattedPages := by
  intro s u0 u ty v rs1 off leaf p a d held fmt
  refine ⟨fun isHeld early formatted => ?_, fun good unchecked early formatted => ?_⟩
  · have run := execVle_formatted (State.vheld_single isHeld) early formatted
    refine ⟨fun bad passed => run.trans (State.loadBlockFmt_refused bad passed), fun type fp8 aligned passed good plain => ?_⟩
    subst type
    obtain ⟨only, uncounted, tag, lanes⟩ := fp8Loaded_setV u d fmt p
    exact ⟨_, run.trans (State.loadBlockFmt_fp8 fp8 aligned passed good plain.2.1), only, uncounted, tag, lanes⟩
  · have run := execVse_formatted good unchecked early formatted
    have before := onlyTlb_checkEarly early
    rw [← before.hart]
    refine ⟨fun bad passed => run.trans (State.storeBlockFmt_refused bad passed), fun tag fp8 aligned passed => ?_⟩
    rw [State.storeBlockFmt_fp8 fp8 aligned tag passed] at run
    refine ⟨fun kind2 => run.trans (if_pos kind2), fun kind => ⟨_, run.trans (if_neg kind), ?_⟩⟩
    have only := onlyTlb_trans before (onlyTlb_check passed)
    obtain ⟨charged, charges⟩ := State.chargeBlanket_keeps u p 32
    have harts := ((onlyTlb_keepsHarts only).trans charged).sameButPending.trans
      (State.writeWeak_harts _ p (bytesOfNat 32 (u0.hart.readV d).bits.toNat))
    refine ⟨memRetired_advance harts.hid harts.others harts.hart, fun window page plain near clean b => ?_⟩
    have clean : (u.chargeBlanket p 32).poison = [] := by
      obtain ⟨c, counted⟩ := State.chargeBlanket_eq u p 32
      rw [counted]
      exact (onlyTlb_purging only).2.trans clean
    have view := (((onlyTlb_sameView only).trans charges).pends _).trans
      ((State.writeWeak_own ⟨window, page, plain, near⟩ clean (bytesOfNat 32 (u0.hart.readV d).bits.toNat)).1.trans (sameView_advance _))
    rw [view.seen, byteSeen_pends_single, bytesOfNat_length]
    exact ite_congr rfl (fun covers => bytesOfNat_getD_pow (by omega) _) (fun _ => rfl)

end Sys2Proof.Proofs
end

section
/-! SUPPORT. Launches, parties and contexts by their ids (R131 to R146): what a change of their lists, and what retiring, leaves a search
for one. -/

namespace Sys2Proof.Machine
open Sys2Proof.Safety

/-! ### Searches -/

/-- A search in a list whose elements were changed, where the change does not come into what is searched for. -/
theorem find?_map_same {α : Type} {p : α → Bool} {g : α → α} (same : ∀ a, p (g a) = p a) (l : List α) :
    (l.map g).find? p = (l.find? p).map g := by
  rw [List.find?_map, show p ∘ g = p from funext same]

/-- A change of a launch that leaves its id, its context and whether it has ended. -/
def KeepsLaunch (g : Launch → Launch) : Prop := ∀ l, (g l).id = l.id ∧ (g l).ctx = l.ctx ∧ (g l).ended = l.ended

/-- A launch that has not ended, by its id. -/
theorem launch?_some {s : State} {id : Nat} {l : Launch} (h : s.launch? id = some l) : l ∈ s.launches ∧ l.id = id ∧ l.ended = none := by
  have test := List.find?_some h
  simp only [Bool.and_eq_true, beq_iff_eq, Option.isNone_iff_eq_none] at test
  exact ⟨List.mem_of_find?_eq_some h, test⟩

/-- A party by its id. -/
theorem party?_some {s : State} {id : Nat} {p : Party} (h : s.party? id = some p) : p ∈ s.parties ∧ p.id = id := by
  have test := List.find?_some (p := fun p : Party => p.id == id) h
  exact ⟨List.mem_of_find?_eq_some h, eq_of_beq test⟩

/-- A context by its id. -/
theorem ctx?_some {s : State} {id : BitVec 16} {c : Context} (h : s.ctx? id = some c) : c ∈ s.contexts ∧ c.id = id := by
  have test := List.find?_some (p := fun c : Context => c.id == id) h
  exact ⟨List.mem_of_find?_eq_some h, eq_of_beq test⟩

/-- The party of the hart in focus, by its own id. -/
theorem ownParty_some {s : State} {p : Party} (h : s.ownParty = some p) : s.hart.party = some p.id ∧ s.party? p.id = some p := by
  obtain ⟨id, party, found⟩ := Option.bind_eq_some_iff.1 h
  rw [(party?_some found).2]
  exact ⟨party, found⟩

/-- The launch of the hart in focus is that of its party, and found by its own id. -/
theorem ownLaunch_some {s : State} {l : Launch} (h : s.ownLaunch = some l) :
    ∃ p, s.ownParty = some p ∧ p.launch = l.id ∧ s.launch? l.id = some l := by
  obtain ⟨p, party, found⟩ := Option.bind_eq_some_iff.1 h
  have id := (launch?_some found).2.1
  exact ⟨p, party, id.symm, id ▸ found⟩

section
variable {s t : State} {g : Launch → Launch} (map : t.launches = s.launches.map g) (same : KeepsLaunch g)
include map same

/-- A search for a launch after each was changed. -/
theorem launch?_map (id : Nat) : t.launch? id = (s.launch? id).map g := by
  rw [State.launch?, map]
  exact find?_map_same (fun l => by obtain ⟨id, -, ended⟩ := same l; rw [id, ended]) _

/-- A search for a context's launch. -/
theorem ctxLaunch_map (ctx : BitVec 16) : t.ctxLaunch ctx = (s.ctxLaunch ctx).map g := by
  rw [State.ctxLaunch, map]
  exact find?_map_same (fun l => by obtain ⟨-, ctx, ended⟩ := same l; rw [ctx, ended]) _

end

/-- A change of the launches with one id, as a change of every launch. -/
def mapOnly (id : Nat) (f : Launch → Launch) (l : Launch) : Launch := if l.id = id ∧ l.ended = none then f l else l

/-- `State.mapLaunch` changes each launch. -/
theorem State.mapLaunch_launches (s : State) (id : Nat) (f : Launch → Launch) :
    (s.mapLaunch id f).launches = s.launches.map (mapOnly id f) := rfl

/-- Changing the launches with one id leaves what `f` leaves. -/
theorem KeepsLaunch.only {f : Launch → Launch} (same : KeepsLaunch f) (id : Nat) : KeepsLaunch (mapOnly id f) := by
  intro l
  unfold mapOnly
  split
  · exact same l
  · exact ⟨rfl, rfl, rfl⟩

/-- One change after another. -/
theorem KeepsLaunch.comp {f g : Launch → Launch} (hf : KeepsLaunch f) (hg : KeepsLaunch g) : KeepsLaunch (f ∘ g) := fun l => by
  obtain ⟨id, ctx, ended⟩ := hf (g l)
  obtain ⟨id', ctx', ended'⟩ := hg l
  exact ⟨id.trans id', ctx.trans ctx', ended.trans ended'⟩

/-- The launch that `State.mapLaunch` has changed. -/
theorem State.launch?_mapLaunch (s : State) (id : Nat) {f : Launch → Launch} (same : KeepsLaunch f) :
    (s.mapLaunch id f).launch? id = (s.launch? id).map f := by
  rw [launch?_map (s.mapLaunch_launches id f) (same.only id)]
  refine Option.map_congr fun l found => ?_
  obtain ⟨-, here, live⟩ := launch?_some found
  exact if_pos ⟨here, live⟩

/-- A party changed, where the change keeps ids. -/
theorem State.party?_mapParty (s : State) (id : Nat) {f : Party → Party} (same : ∀ p, (f p).id = p.id) :
    (s.mapParty id f).party? id = (s.party? id).map f := by
  have found := find?_map_same (p := fun p : Party => p.id == id) (g := fun p => if p.id = id then f p else p)
    (fun p => by split <;> simp only [same]) s.parties
  refine found.trans (Option.map_congr fun p here => ?_)
  exact if_pos (party?_some here).2

/-- A context changed, where the change keeps ids. -/
theorem State.ctx?_mapCtx (s : State) (id : BitVec 16) {f : Context → Context} (same : ∀ c, (f c).id = c.id) :
    (s.mapCtx id f).ctx? id = (s.ctx? id).map f := by
  have found := find?_map_same (p := fun c : Context => c.id == id) (g := fun c => if c.id = id then f c else c)
    (fun c => by split <;> simp only [same]) s.contexts
  refine found.trans (Option.map_congr fun c here => ?_)
  exact if_pos (ctx?_some here).2

end Sys2Proof.Machine
end

section
/-! SUPPORT. Operations on several harts (R150, R160, R177): one after another, each hart by the same change. -/

namespace Sys2Proof.Machine
open Sys2Proof.Safety

/-- What changes nothing but harts. -/
def OnlyHarts (s t : State) : Prop := { t with hart := s.hart, others := s.others } = s

/-- One such change after another. -/
theorem OnlyHarts.trans {s t u : State} (h : OnlyHarts s t) (k : OnlyHarts t u) : OnlyHarts s u := by
  unfold OnlyHarts at *
  exact (congrArg (fun x : State => { x with hart := s.hart, others := s.others }) k).trans h

/-- A hart set. -/
theorem onlyHarts_setHart (s : State) (h : Nat) (x : Hart) : OnlyHarts s (s.setHart h x) := State.setHart_device s h x

/-- A hart set by hart: the fold changes harts alone. -/
theorem onlyHarts_foldl (f : Nat → Hart → Hart) (l : List Nat) (s : State) :
    OnlyHarts s (l.foldl (fun s h => s.setHart h (f h (s.getHart h))) s) := by
  induction l generalizing s with
  | nil => rfl
  | cons h l ih => exact (onlyHarts_setHart s h _).trans (ih _)

/-- Each hart of a list changed, by a change that a repetition does not alter. -/
theorem getHart_foldl {f : Nat → Hart → Hart} (idem : ∀ h x, f h (f h x) = f h x) (l : List Nat) (s : State) (j : Nat) :
    (l.foldl (fun s h => s.setHart h (f h (s.getHart h))) s).getHart j = if j ∈ l then f j (s.getHart j) else s.getHart j := by
  induction l generalizing s with
  | nil => rfl
  | cons h l ih =>
    rw [List.foldl_cons, ih, State.getHart_setHart]
    by_cases same : j = h
    · subst same
      simp only [if_true, List.mem_cons_self, idem, ite_self]
    · simp only [same, if_false, List.mem_cons, false_or]

/-- Harts as they were are found as they were. -/
theorem getHart_congr {s t : State} (hid : t.hid = s.hid) (hart : t.hart = s.hart) (others : t.others = s.others) (j : Nat) :
    t.getHart j = s.getHart j := by
  rw [State.getHart, State.getHart, hid, hart, others]

/-- A change of memory alone leaves each hart. -/
theorem onlyMemory_getHart {s t : State} (h : OnlyMemory s t) (j : Nat) : t.getHart j = s.getHart j := by
  obtain ⟨hid, hart, others, -⟩ := onlyMemory_harts h
  exact getHart_congr hid hart others j

/-- A fold whose every step changes memory alone. -/
theorem onlyMemory_foldl {α : Type} {f : State → α → State} (step : ∀ s a, OnlyMemory s (f s a)) (l : List α) (s : State) :
    OnlyMemory s (l.foldl f s) := by
  induction l generalizing s with
  | nil => rfl
  | cons a l ih => exact onlyMemory_trans (step s a) (ih _)

/-- An open of any hart changes memory alone. -/
theorem State.openHart_only (s : State) (near : Bool) (h : Nat) : OnlyMemory s (s.openHart near h) := by
  unfold State.openHart
  extract_lets t
  split
  · rfl
  · extract_lets u
    split
    · rfl
    · exact onlyMemory_trans (t := u) rfl (State.dropLines_spec u _ _ _).1

/-- An open leaves the bytes at the sites. -/
theorem State.openHart_mem (s : State) (near : Bool) (h : Nat) : (s.openHart near h).mem = s.mem := by
  unfold State.openHart
  extract_lets t
  split
  · rfl
  · extract_lets u
    split
    · rfl
    · exact (State.dropLines_spec u _ _ _).2.1

/-- Opens of several harts. -/
theorem State.openHarts_only (s : State) (hs : List Nat) : OnlyMemory s (s.openHarts hs) :=
  onlyMemory_foldl (fun s h => s.openHart_only false h) hs s

/-- Opens of several harts leave the bytes at the sites. -/
theorem State.openHarts_mem (s : State) (hs : List Nat) : (s.openHarts hs).mem = s.mem := by
  unfold State.openHarts
  induction hs generalizing s with
  | nil => rfl
  | cons h hs ih => rw [List.foldl_cons, ih, State.openHart_mem]

/-! ### The party barrier (R177) -/

/-- A hart that has left a barrier waits at none. -/
theorem leaveBarrier_idem (value : RedOp → Word) (n : Word) (x : Hart) :
    leaveBarrier value n (leaveBarrier value n x) = leaveBarrier value n x := by
  have free (x : Hart) (h : x.blocked = none) : leaveBarrier value n x = x := by rw [leaveBarrier, h]
  generalize hx : leaveBarrier value n x = y
  unfold leaveBarrier at hx
  split at hx
  · exact free _ (hx ▸ rfl)
  · exact free _ (hx ▸ rfl)
  next other other' =>
    rw [← hx]
    unfold leaveBarrier
    split
    next h => exact absurd h (other _ _ _)
    next h => exact absurd h (other' _)
    next => rfl

/-- A hart that waits for nothing leaves no barrier. -/
theorem leaveBarrier_free (value : RedOp → Word) (n : Word) {x : Hart} (h : x.blocked = none) : leaveBarrier value n x = x := by
  rw [leaveBarrier, h]

end Sys2Proof.Machine
end

section
/-! SUPPORT and settles O24 and O25. The tasks of a hart (R145, R146): `emit` and `task.done`. -/

namespace Sys2Proof.Machine
open Sys2Proof.Safety

/-- A drain changes nothing but memory and pending stores. -/
theorem Drains.rest {s t : State} (h : Drains s t) : OnlyMemory s { t with hart := s.hart } := by
  obtain ⟨p, -, only⟩ := h
  unfold OnlyMemory at only ⊢
  exact congrArg (fun u : State => { u with hart := s.hart }) only

/-- A drain leaves the device's tables, and each other hart. -/
theorem Drains.tables {s t : State} (h : Drains s t) : t.parties = s.parties ∧ t.launches = s.launches ∧ t.contexts = s.contexts
    ∧ t.cores = s.cores ∧ t.clock = s.clock := by
  have rest := h.rest
  unfold OnlyMemory at rest
  have parties := congrArg State.parties rest
  have launches := congrArg State.launches rest
  have contexts := congrArg State.contexts rest
  have cores := congrArg State.cores rest
  have clock := congrArg State.clock rest
  exact ⟨parties, launches, contexts, cores, clock⟩

/-- A drain leaves whose the hart in focus is. -/
theorem Drains.party {s t : State} (h : Drains s t) : t.hart.party = s.hart.party := by
  have party := congrArg Hart.party h.keepsHarts.hart
  exact party

/-- A drain leaves the party of the hart in focus, and its launch. -/
theorem Drains.own {s t : State} (h : Drains s t) : t.ownParty = s.ownParty ∧ t.ownLaunch = s.ownLaunch := by
  obtain ⟨parties, launches, -⟩ := h.tables
  have party : t.ownParty = s.ownParty := by rw [State.ownParty, State.ownParty, h.party]; exact congrArg (Option.bind _) (funext fun id => congrArg (List.find? _) parties)
  refine ⟨party, ?_⟩
  rw [State.ownLaunch, State.ownLaunch, party]
  exact congrArg (Option.bind _) (funext fun p => congrArg (List.find? _) launches)

/-- A hart's shell is its party, its wait, its staging buffers and its pending stores. -/
theorem sameShell_keeps {h k : Hart} (same : SameShell h k) : k.party = h.party ∧ k.blocked = h.blocked ∧ k.finished = h.finished
    ∧ k.stage = h.stage ∧ k.pending = h.pending := by
  have party := congrArg Hart.party same
  have blocked := congrArg Hart.blocked same
  have finished := congrArg Hart.finished same
  have stage := congrArg Hart.stage same
  have pending := congrArg Hart.pending same
  exact ⟨party, blocked, finished, stage, pending⟩

/-- An instruction's effect on its hart is read off the hart alone. -/
theorem hartRetired_congr {s t u : State} {rd : Reg} {w : Word} (h : HartRetired s t rd w) (hid : u.hid = t.hid) (hart : u.hart = t.hart) :
    HartRetired s u rd w := by
  have x (r : Reg) : u.x r = t.x r := by rw [State.x, State.x, hart]
  exact ⟨(x rd).trans h.result, fun r hr => (x r).trans (h.regs r hr), hart ▸ h.retired, hart ▸ h.vectors, hart ▸ h.csrs, hart ▸ h.shell,
    hid.trans h.hid⟩

/-! ### `emit` (R145) -/

/-- Stage `k` exists and is downstream of the own. -/
theorem mayEmit_iff (l : Launch) (own k : Nat) :
    mayEmit l own k = true ↔ k < l.stages.length ∧ ∃ st, l.stages[own]? = some st ∧ st.downstream.getLsbD k = true := by
  unfold mayEmit
  cases l.stages[own]? <;> simp

section
variable {s : State} {vs : VReg} {rs1 : Reg} {p : Party} {l : Launch} (user : s.hart.mode = .u) (party : s.ownParty = some p)
  (launch : s.ownLaunch = some l)
include user party launch

/-- To a stage that is none of its own's downstream ones a hart does not emit. -/
theorem execEmit_misuse (bad : mayEmit l p.stage (s.x rs1).toNat = false) : exec (.emit vs rs1) s = s.trapOut 35 (s.x rs1) := by
  change execEmit vs rs1 s = _
  simp only [execEmit, State.mode, user, party, launch, bad, ne_eq, not_true_eq_false, if_false, if_true]

variable (may : mayEmit l p.stage (s.x rs1).toNat = true)
include may

/-- A register that is not held is no task. -/
theorem execEmit_unheld (high : 4 * s.hart.held ≤ vs.toNat) : exec (.emit vs rs1) s = s.trapOut 26 (BitVec.ofNat 64 vs.toNat) := by
  have unheld : s.NotHeld vs := ⟨by rw [(ownParty_some party).1]; exact Option.some_ne_none _, high⟩
  have low : Lowest s.NotHeld [vs] vs :=
    ⟨List.mem_singleton_self vs, unheld, fun q hq _ => by rw [List.mem_singleton.1 hq]⟩
  have held : s.vheld [vs] = some (26, BitVec.ofNat 64 vs.toNat) := by
    rw [State.vheld, lowestReg_of_lowest s.unheld_iff low]
    rfl
  change execEmit vs rs1 s = _
  simp only [execEmit, State.mode, user, party, launch, may, held, ne_eq, not_true_eq_false, if_false, Bool.true_eq_false]

/-- A register that is held is a task, for a stage with room. -/
theorem execEmit_task (low : vs.toNat < 4 * s.hart.held) (unchecked : s.scbCheck = false) :
    exec (.emit vs rs1) s = if stageFull l (s.x rs1).toNat then s.block (.stage (s.x rs1).toNat)
      else if l.flags.getLsbD 0 then .next (s.emitTask l (s.x rs1).toNat ⟨(s.hart.readV vs).bits, p.slice⟩).advance
      else s.publishThen (fun u => .next (u.emitTask l (s.x rs1).toNat ⟨(s.hart.readV vs).bits, p.slice⟩).advance) := by
  have held : s.vheld [vs] = none := State.vheld_single (.inr low)
  have ready : s.vearly [⟨vs, none⟩] = none := by rw [State.vearly, unchecked]; rfl
  change execEmit vs rs1 s = _
  simp only [execEmit, State.mode, user, party, launch, may, held, ready, ne_eq, not_true_eq_false, if_false, Bool.true_eq_false]

end

/-- A task emitted changes no hart. -/
theorem State.emitTask_keeps (s : State) (l : Launch) (k : Nat) (t : Task) : KeepsHarts s (s.emitTask l k t) := keepsHarts_of_eq rfl rfl rfl

/-- The stage's queue has the task, at once or for the exchange, and the launch counts it. -/
theorem State.emitTask_launch {s : State} {l m : Launch} {k : Nat} {t : Task} {q : StageQueue} (found : s.launch? l.id = some l)
    (after : (s.emitTask l k t).launch? l.id = some m) (at_ : l.queues[k]? = some q) :
    m.sent = l.sent + 1 ∧ m.received = (if l.flags.getLsbD 0 then l.received else l.received + 1)
    ∧ m.queues[k]? = some (if l.flags.getLsbD 0 then { q with emitted := q.emitted ++ [t] } else pushTask t s.clock q) := by
  unfold State.emitTask at after
  extract_lets c bsp at after
  rw [State.launch?_mapLaunch _ _ (by intro; exact ⟨rfl, rfl, rfl⟩)] at after
  obtain ⟨l', found', rfl⟩ := Option.map_eq_some_iff.1 after
  obtain rfl : l = l' := Option.some.inj (found.symm.trans found')
  refine ⟨rfl, rfl, ?_⟩
  simp only [List.getElem?_modify, at_, if_true]
  rfl

/-! ### `task.done` (R146) -/

/-- The hart in focus has ended its part. -/
def State.endPart (s : State) : State := s.withHart (fun h => { h with finished := true, stage := Vector.replicate 5 ⟨0, 0⟩ })

/-- It is the same party's. -/
theorem State.endPart_own (s : State) : s.endPart.advance.ownParty = s.ownParty := by
  have party : s.endPart.advance.hart.party = s.hart.party := (sameShell_keeps (State.advance_spec s.endPart).shell).1
  rw [State.ownParty, party]
  rfl

/-- The harts that have ended their part: those that had, and the one in focus. -/
theorem State.endPart_finished (s : State) (h : Nat) :
    (s.endPart.advance.getHart h).finished = true ↔ h = s.hid ∨ (s.getHart h).finished = true := by
  obtain ⟨-, -, done, -⟩ := sameShell_keeps (State.advance_spec s.endPart).shell
  by_cases own : h = s.hid
  · have focus : s.endPart.advance.getHart h = s.endPart.advance.hart := if_pos own
    rw [focus, done]
    exact iff_of_true rfl (.inl own)
  · have other : s.endPart.advance.getHart h = s.getHart h := (if_neg own).trans (if_neg own).symm
    rw [other]
    exact (or_iff_right own).symm

/-- The party barrier leaves what waits for nothing, the contexts, and where the party stands. -/
theorem State.checkBarrier_spec {s : State} (free : s.hart.blocked = none) (id : Nat) :
    (s.checkBarrier id).hid = s.hid ∧ (s.checkBarrier id).hart = s.hart ∧ (s.checkBarrier id).contexts = s.contexts
    ∧ ∀ p, s.party? id = some p → ∃ q, (s.checkBarrier id).party? id = some q ∧ q.state = p.state := by
  unfold State.checkBarrier
  cases found : s.party? id with
  | none => exact ⟨rfl, rfl, rfl, fun p h => absurd h (Option.some_ne_none p).symm⟩
  | some p =>
    dsimp only
    split
    · exact ⟨rfl, rfl, rfl, fun q h => ⟨p, found, by rw [Option.some.inj h]⟩⟩
    · set f := leaveBarrier (fun op => redOver op ((p.harts.map s.getHart).filter (fun x => !x.finished))) (BitVec.ofNat 64 (p.barriers + 1))
      set u := p.harts.foldl (fun s h => s.setHart h (f (s.getHart h))) s
      have left : OnlyHarts s u := onlyHarts_foldl (fun _ => f) p.harts s
      have opened := State.openHarts_only u p.harts
      obtain ⟨hid, hart, -, -⟩ := onlyMemory_harts opened
      unfold OnlyHarts at left
      unfold OnlyMemory at opened
      have hid' : u.hid = s.hid := by have := congrArg State.hid left; exact this
      have hart' : u.hart = s.hart := by
        have same := getHart_foldl (f := fun _ => f) (fun _ => leaveBarrier_idem _ _) p.harts s s.hid
        rw [State.getHart_hid, show f s.hart = s.hart from leaveBarrier_free _ _ free, ite_self] at same
        rw [← same, ← hid', State.getHart_hid]
      have contexts : (u.openHarts p.harts).contexts = u.contexts := by have := congrArg State.contexts opened; exact this
      have contexts' : u.contexts = s.contexts := by have := congrArg State.contexts left; exact this
      have parties : (u.openHarts p.harts).parties = u.parties := by have := congrArg State.parties opened; exact this
      have parties' : u.parties = s.parties := by have := congrArg State.parties left; exact this
      refine ⟨hid.trans hid', hart.trans hart', contexts.trans contexts', fun q h => ⟨{ p with barriers := p.barriers + 1 }, ?_,
        by rw [← Option.some.inj h]⟩⟩
      have there : (u.openHarts p.harts).party? id = some p := by rw [State.party?, parties, parties']; exact found
      rw [State.party?_mapParty _ _ (by intro; rfl), there]
      rfl

section
variable {s : State}

/-- A hart of no party only stops issuing (log 65). -/
theorem State.endTask_alone (alone : s.ownParty = none) : s.endTask = s.endPart.advance := by
  have own := s.endPart_own
  rw [alone] at own
  unfold State.endTask
  extract_lets t
  split
  · rfl
  next found => exact absurd (own.symm.trans found) (Option.some_ne_none _).symm

variable {p : Party} (party : s.ownParty = some p)
include party

/-- With its last hart a party retires; else its barrier or a save may go on. -/
theorem State.endTask_party : s.endTask = if ∀ h ∈ p.harts, h = s.hid ∨ (s.getHart h).finished = true then
      s.endPart.advance.mapParty p.id (fun p => { p with state := .retiring })
    else (if (s.launch? p.launch).any (fun l : Launch => l.flags.getLsbD 0) then s.endPart.advance else s.endPart.advance.checkBarrier p.id).enterSaves
      p.ctx := by
  have own := s.endPart_own.trans party
  have all : p.harts.all (fun h => (s.endPart.advance.getHart h).finished) = true
      ↔ ∀ h ∈ p.harts, h = s.hid ∨ (s.getHart h).finished = true := by
    rw [List.all_eq_true]
    exact forall₂_congr fun h _ => s.endPart_finished h
  change (match s.endPart.advance.ownParty with
    | none => s.endPart.advance
    | some (p : Party) => if p.harts.all (fun h => (s.endPart.advance.getHart h).finished) then
        s.endPart.advance.mapParty p.id (fun p => { p with state := .retiring })
      else (if (s.endPart.advance.launch? p.launch).any (fun l : Launch => l.flags.getLsbD 0) then s.endPart.advance
        else s.endPart.advance.checkBarrier p.id).enterSaves p.ctx) = _
  rw [own]
  exact if_congr all rfl rfl

/-- What `State.endTask` leaves of the hart, and where it leaves its party. -/
theorem State.endTask_spec (free : s.hart.blocked = none) (saving : NotSaving s) :
    s.endTask.hid = s.hid ∧ s.endTask.hart = s.endPart.advance.hart
    ∧ ∃ q, s.endTask.party? p.id = some q
      ∧ q.state = if ∀ h ∈ p.harts, h = s.hid ∨ (s.getHart h).finished = true then .retiring else p.state := by
  have found := (ownParty_some party).2
  have found' : s.endPart.advance.party? p.id = some p := found
  rw [State.endTask_party party]
  split
  · refine ⟨rfl, rfl, { p with state := .retiring }, ?_, rfl⟩
    rw [State.party?_mapParty _ _ (by intro; rfl), found']
    rfl
  · have free' : s.endPart.advance.hart.blocked = none := (sameShell_keeps (State.advance_spec s.endPart).shell).2.1.trans free
    obtain ⟨hid, hart, contexts, state⟩ := State.checkBarrier_spec free' p.id
    have quiet {u : State} (same : u.contexts = s.contexts) : u.enterSaves p.ctx = u :=
      State.enterSaves_eq u p.ctx fun c hc => saving p c party (by rw [State.ctx?, ← same]; exact hc)
    split
    · rw [quiet (u := s.endPart.advance) rfl]
      exact ⟨rfl, rfl, p, found', rfl⟩
    · rw [quiet contexts]
      exact ⟨hid, hart, state p found'⟩

end

/-- What `State.endTask` leaves of a hart of no party, too. -/
theorem State.endTask_hart {s : State} (free : s.hart.blocked = none) (saving : NotSaving s) :
    s.endTask.hid = s.hid ∧ s.endTask.hart = s.endPart.advance.hart := by
  cases party : s.ownParty with
  | none => rw [State.endTask_alone party]; exact ⟨rfl, rfl⟩
  | some p =>
    obtain ⟨hid, hart, -⟩ := State.endTask_spec party free saving
    exact ⟨hid, hart⟩

/-- A hart that has ended its part retires, its stores gone or not (R72). -/
theorem hartRetired_endPart {s w : State} (h : KeepsHarts s w) : HartRetired s.endPart w.endPart.advance 0 0 := by
  have hart := congrArg (fun x : Hart => { x with finished := true, stage := Vector.replicate 5 ⟨0, 0⟩ }) h.hart
  exact (memRetired_advance (s := s.endPart) (t := w.endPart) h.hid h.others hart).1

/-- Whether the own launch proceeds by supersteps. -/
def State.ownBsp (s : State) : Bool := s.ownLaunch.any (fun l => l.flags.getLsbD 0)

/-- `task.done`: at once in a BSP launch, else once the hart's stores are published. -/
theorem execTaskDone_user {s : State} (user : s.hart.mode = .u) :
    exec .taskDone s = if s.ownBsp then .next s.endTask else s.publishThen (fun s => .next s.endTask) := by
  change execTaskDone s = _
  unfold execTaskDone State.ownBsp
  rw [State.mode, if_neg (not_not.2 user)]
  cases s.ownLaunch <;> rfl

/-- The state whose part ends: the stores of a launch without BSP are published. -/
def State.endsFrom (s : State) : State := if s.ownBsp then s else s.publish

/-- It has the harts but for pending stores. -/
theorem State.endsFrom_drains (s : State) : Drains s s.endsFrom := by
  unfold State.endsFrom
  split
  · exact .refl s
  · exact State.publish_drains s

/-- `task.done` completes, in a launch without BSP where its Publish goes ahead. -/
theorem execTaskDone_next {s : State} (user : s.hart.mode = .u) (may : s.ownBsp = false → MayPublish s) :
    exec .taskDone s = .next s.endsFrom.endTask := by
  rw [execTaskDone_user user, State.endsFrom]
  cases bsp : s.ownBsp with
  | true => rfl
  | false => exact State.publishThenAt_may (may bsp) false (fun s => .next s.endTask)

/-- Nothing is then pending but in a BSP launch. -/
theorem State.endsFrom_pending {s : State} (may : s.ownBsp = false → MayPublish s) :
    (s.ownBsp = true → s.endsFrom.hart.pending = s.hart.pending) ∧ (s.ownBsp = false → s.endsFrom.hart.pending = []) := by
  unfold State.endsFrom
  exact ⟨fun bsp => by rw [if_pos bsp], fun free => by rw [if_neg (by rw [free]; exact Bool.false_ne_true)]; exact publishAt_empty (may free) false⟩

end Sys2Proof.Machine

namespace Sys2Proof.Proofs
open Sys2Proof Sys2Proof.Machine Sys2Proof.Safety

/-- Settles O24: `mayEmit` is the test of R145, and `State.emitTask` changes the launch alone, before or after the Publish. -/
theorem emitTask : Obligations.EmitTask := by
  intro s vs rs1 p l user party launch k down
  obtain ⟨-, -, -, found⟩ := ownLaunch_some launch
  have may : down → mayEmit l p.stage k = true := (mayEmit_iff l p.stage k).2
  refine ⟨fun bad => execEmit_misuse user party launch (Bool.eq_false_iff.2 (mt (mayEmit_iff l p.stage k).1 bad)),
    fun good high => execEmit_unheld user party launch (may good) high, fun good low unchecked => ?_⟩
  have run := execEmit_task user party launch (may good) low unchecked
  refine ⟨fun full => run.trans (if_pos full), fun room bsp => ?_, fun room free publishes => ?_⟩
  · rw [if_neg (Bool.eq_false_iff.1 room), if_pos bsp] at run
    refine ⟨_, run, (State.emitTask_keeps ..).memRetired_advance, fun m q after at_ => ?_⟩
    obtain ⟨sent, -, queue⟩ := State.emitTask_launch found after at_
    rw [if_pos bsp] at queue
    exact ⟨queue, sent⟩
  · rw [if_neg (Bool.eq_false_iff.1 room), if_neg (Bool.eq_false_iff.1 free), State.publishThen,
      State.publishThenAt_may publishes] at run
    have drains := State.publishAt_drains s false
    obtain ⟨-, launches, -, -, clock⟩ := drains.tables
    refine ⟨_, run, (drains.keepsHarts.trans (State.emitTask_keeps ..)).memRetired_advance,
      (State.advance_pending _).trans (publishAt_empty publishes false), fun m q after at_ => ?_⟩
    have found' : (s.publishAt false).launch? l.id = some l := (congrArg (List.find? _) launches).trans found
    obtain ⟨sent, received, queue⟩ := State.emitTask_launch found' after at_
    rw [if_neg (Bool.eq_false_iff.1 free)] at received queue
    rw [queue, pushTask, clock]
    exact ⟨by simp only [List.isEmpty_iff], sent, received⟩

/-- Settles O25: `task.done` is `State.endTask`, after a Publish in a launch without BSP, and a party barrier that it completes leaves the
hart itself alone. -/
theorem taskDone : Obligations.TaskDone := by
  intro s bsp
  have drains := s.endsFrom_drains
  obtain ⟨own, -⟩ := drains.own
  have part {u : State} (hart : u.hart = s.endsFrom.endPart.advance.hart) : u.hart.finished = true ∧ u.hart.stage = Vector.replicate 5 ⟨0, 0⟩
      ∧ u.hart.pending = s.endsFrom.hart.pending ∧ u.hart.csr.instret = s.hart.csr.instret + 1 := by
    obtain ⟨shell, instret⟩ := And.intro (State.advance_spec s.endsFrom.endPart).shell (State.advance_spec s.endsFrom.endPart).retired.instret
    have csr : s.endsFrom.hart.csr = s.hart.csr := by have := congrArg Hart.csr drains.keepsHarts.hart; exact this
    rw [hart]
    obtain ⟨-, -, finished, stage, pending⟩ := sameShell_keeps shell
    exact ⟨finished, stage, pending, instret.trans (congrArg (·.instret + 1) csr)⟩
  refine ⟨fun mode => ?_, fun user free saving may => ?_, fun user may => ⟨_, execTaskDone_next user fun _ => may⟩,
    fun user may alone => ?_, fun p l user party launch bsp_ last => ?_⟩
  · exact if_pos mode
  · have free' : s.endsFrom.hart.blocked = none := by have := congrArg Hart.blocked drains.keepsHarts.hart; exact this.trans free
    have saving' : NotSaving s.endsFrom := fun p c party found => by
      rw [State.ctx?, drains.tables.2.2.1] at found
      exact saving p c (own.symm.trans party) found
    obtain ⟨hid, hart⟩ := State.endTask_hart free' saving'
    obtain ⟨finished, stage, pending, -⟩ := part hart
    obtain ⟨pends, empty⟩ := State.endsFrom_pending may
    refine ⟨_, execTaskDone_next user may, hartRetired_congr (hartRetired_endPart drains.keepsHarts) hid hart, finished, stage,
      fun b => pending.trans (pends b), fun b => pending.trans (empty b), fun p party => ?_⟩
    obtain ⟨-, -, q, there, state⟩ := State.endTask_spec (own.trans party) free' saving'
    refine ⟨q, there, state.trans (if_congr (forall₂_congr fun h _ => ?_) rfl rfl)⟩
    obtain ⟨hid, others, -⟩ := drains.keepsHarts
    have finished : (s.endsFrom.getHart h).finished = (s.getHart h).finished := by
      have same := congrArg Hart.finished drains.keepsHarts.hart
      rw [State.getHart, State.getHart, hid, others]
      split
      · exact same
      · rfl
    rw [hid, finished]
  · have next := execTaskDone_next user fun _ => may
    rw [State.endTask_alone (own.trans alone)] at next
    obtain ⟨finished, stage, pending, instret⟩ := part rfl
    have free : s.ownBsp = false := by rw [State.ownBsp, State.ownLaunch, alone]; rfl
    exact ⟨_, next, finished, pending.trans ((State.endsFrom_pending fun _ => may).2 free), stage, instret⟩
  · have isBsp : s.ownBsp = true := by rw [State.ownBsp, launch]; exact bsp_
    have next := execTaskDone_next user fun free => absurd free (by rw [isBsp]; exact Bool.true_eq_false ▸ id)
    have found : s.party? p.id = some p := (ownParty_some party).2
    rw [State.endsFrom, if_pos isBsp, State.endTask_party party, if_pos fun h hh => .inl (List.mem_singleton.1 (last ▸ hh))] at next
    obtain ⟨-, -, finished, -⟩ := sameShell_keeps (State.advance_spec s.endPart).shell
    refine ⟨_, next, finished, fun q there => ?_⟩
    rw [State.party?_mapParty _ _ (by intro; rfl)] at there
    obtain ⟨p', -, rfl⟩ := Option.map_eq_some_iff.1 there
    rfl

end Sys2Proof.Proofs
end

section
/-! SUPPORT. What the queues of cores hold (R235 to R241): one rule for each operation on a queue, and what every delivery leaves alone. -/

namespace Sys2Proof.Machine
open Sys2Proof.Safety

/-! ### What the device writes and delivers -/

/-- Only memory, and the count of free values taken, may differ. -/
def OnlyStored (s t : State) : Prop :=
  { t with
    mem := s.mem, poison := s.poison, blocks := s.blocks, deltas := s.deltas, raws := s.raws, stale := s.stale, lines := s.lines,
    migrations := s.migrations, choices := s.choices } = s

/-- Only memory, what the cores hold, and the events due may differ. -/
def OnlyQueues (s t : State) : Prop :=
  { t with
    mem := s.mem, poison := s.poison, blocks := s.blocks, deltas := s.deltas, raws := s.raws, stale := s.stale, lines := s.lines,
    migrations := s.migrations, choices := s.choices, cores := s.cores, events := s.events } = s

/-- A change of memory alone. -/
theorem onlyStored_of_only {s t : State} (h : OnlyMemory s t) : OnlyStored s t := by
  unfold OnlyMemory at h
  unfold OnlyStored
  exact congrArg (fun u : State => { u with choices := s.choices }) h

/-- One such change after another. -/
theorem OnlyStored.trans {s t u : State} (h : OnlyStored s t) (k : OnlyStored t u) : OnlyStored s u := by
  unfold OnlyStored at *
  exact (congrArg (fun x : State => { x with
    mem := s.mem, poison := s.poison, blocks := s.blocks, deltas := s.deltas, raws := s.raws, stale := s.stale, lines := s.lines,
    migrations := s.migrations, choices := s.choices }) k).trans h

/-- A fold whose every step is such a change. -/
theorem onlyStored_foldl {α : Type} {f : State → α → State} (step : ∀ s a, OnlyStored s (f s a)) (l : List α) (s : State) :
    OnlyStored s (l.foldl f s) := by
  induction l generalizing s with
  | nil => rfl
  | cons a l ih => exact (step s a).trans (ih _)

/-- A write of the device's. -/
theorem onlyQueues_of_stored {s t : State} (h : OnlyStored s t) : OnlyQueues s t := by
  unfold OnlyStored at h
  unfold OnlyQueues
  exact congrArg (fun u : State => { u with cores := s.cores, events := s.events }) h

/-- One delivery after another. -/
theorem OnlyQueues.trans {s t u : State} (h : OnlyQueues s t) (k : OnlyQueues t u) : OnlyQueues s u := by
  unfold OnlyQueues at *
  exact (congrArg (fun x : State => { x with
    mem := s.mem, poison := s.poison, blocks := s.blocks, deltas := s.deltas, raws := s.raws, stale := s.stale, lines := s.lines,
    migrations := s.migrations, choices := s.choices, cores := s.cores, events := s.events }) k).trans h

/-- A fold whose every step is a delivery. -/
theorem onlyQueues_foldl {α : Type} {f : State → α → State} (step : ∀ s a, OnlyQueues s (f s a)) (l : List α) (s : State) :
    OnlyQueues s (l.foldl f s) := by
  induction l generalizing s with
  | nil => rfl
  | cons a l ih => exact (step s a).trans (ih _)

/-- A delivery leaves the harts. -/
theorem OnlyQueues.harts {s t : State} (h : OnlyQueues s t) : t.hid = s.hid ∧ t.hart = s.hart ∧ t.others = s.others := by
  unfold OnlyQueues at h
  have hid := congrArg State.hid h
  have hart := congrArg State.hart h
  have others := congrArg State.others h
  exact ⟨hid, hart, others⟩

/-- A delivery leaves the tables of the dispatcher. -/
theorem OnlyQueues.tables {s t : State} (h : OnlyQueues s t) : t.parties = s.parties ∧ t.launches = s.launches
    ∧ t.contexts = s.contexts ∧ t.svc = s.svc := by
  unfold OnlyQueues at h
  have parties := congrArg State.parties h
  have launches := congrArg State.launches h
  have contexts := congrArg State.contexts h
  have svc := congrArg State.svc h
  exact ⟨parties, launches, contexts, svc⟩

/-! ### Queues of a core -/

/-- A queue of a core after one was written. -/
theorem Core.queue_setQueue (c : Core) (q n : Nat) (x : Queue) :
    (c.setQueue q x).queue n = if n = q ∧ q < 8 then x else c.queue n := by
  unfold Core.setQueue
  by_cases hq : q < 8
  · rw [dif_pos hq]
    by_cases same : n = q
    · subst same
      rw [if_pos ⟨rfl, hq⟩, Core.queue, dif_pos hq, Vector.getElem_set_self]
    · rw [if_neg fun h => same h.1, Core.queue, Core.queue]
      split
      · exact Vector.getElem_set_ne hq _ (Ne.symm same)
      · rfl
  · rw [dif_neg hq, if_neg fun h => hq h.2]

/-- A queue after one was changed. -/
theorem State.queue_mapQueue (s : State) (c q d n : Nat) (f : Queue → Queue) : ((s.mapQueue c q f).core d).queue n =
    if d = c ∧ n = q ∧ q < 8 then f ((s.core c).queue q) else (s.core d).queue n := by
  rw [State.mapQueue, State.core_setCore]
  by_cases same : d = c
  · subst same
    rw [if_pos rfl, Core.queue_setQueue]
    simp only [true_and]
  · rw [if_neg same, if_neg fun h => same h.1]

/-- The queue that was changed. -/
theorem State.queue_mapQueue_self (s : State) (c : Nat) {q : Nat} (hq : q < 8) (f : Queue → Queue) :
    ((s.mapQueue c q f).core c).queue q = f ((s.core c).queue q) := by
  rw [State.queue_mapQueue, if_pos ⟨rfl, rfl, hq⟩]

/-- A queue written leaves the rest of its core. -/
theorem Core.setQueue_rest (c : Core) (q : Nat) (x : Queue) : { c.setQueue q x with queues := c.queues } = c := by
  unfold Core.setQueue
  split <;> rfl

/-- A queue changed leaves the rest of its core. -/
theorem State.mapQueue_core (s : State) (c q d : Nat) (f : Queue → Queue) :
    { (s.mapQueue c q f).core d with queues := (s.core d).queues } = s.core d := by
  rw [State.mapQueue, State.core_setCore]
  split
  next same => rw [same]; exact Core.setQueue_rest ..
  next => rfl

/-- A queue changed changes no memory and no event. -/
theorem State.onlyQueues_mapQueue (s : State) (c q : Nat) (f : Queue → Queue) : OnlyQueues s (s.mapQueue c q f) := rfl

/-! ### Arrivals and grants -/

/-- Events raised in a row. -/
theorem foldl_raise {α : Type} (f : α → Instr) (l : List α) (s : State) :
    l.foldl (fun s a => s.raise (f a)) s = { s with events := s.events ++ l.map f } := by
  induction l generalizing s with
  | nil => simp only [List.foldl_nil, List.map_nil, List.append_nil]
  | cons a l ih => rw [List.foldl_cons, ih]; simp only [State.raise, List.map_cons, List.append_assoc, List.singleton_append]

/-- A store of the device's that covers ECC words. -/
theorem State.storeWhole_only (s : State) (a : Nat) (bs : List Byte) : OnlyMemory s (s.storeWhole a bs) :=
  onlyMemory_trans (State.storeBy_only s none a bs) rfl

/-- An entry appended to a queue. -/
theorem State.enqueue_only (s : State) (c n : Nat) (e : VBits) : OnlyQueues s (s.enqueue c n e) := by
  unfold State.enqueue
  extract_lets q
  split
  · rfl
  · split
    · exact (onlyQueues_of_stored (onlyStored_of_only (State.storeWhole_only s _ _))).trans (State.onlyQueues_mapQueue _ c n _)
    · rfl

/-- An entry that arrives. -/
theorem State.arrive_only (s : State) (c n : Nat) (e : VBits) : OnlyQueues s (s.arrive c n e) := by
  unfold State.arrive
  extract_lets q
  split
  · exact State.enqueue_only s c n e
  · rfl

/-- A hardware entry for a hart's inbox. -/
theorem State.notice_only (s : State) (h : Nat) (e : VBits) : OnlyQueues s (s.notice h e) := State.arrive_only ..

/-- Entries that waited for room. -/
theorem State.refill_only (s : State) (c n : Nat) : OnlyQueues s (s.refill c n) := by
  unfold State.refill
  generalize ((s.core c).queue n).waiting.length = k
  induction k generalizing s with
  | zero => rfl
  | succ k ih =>
    unfold State.refillFrom
    extract_lets q
    split
    · split
      · exact ((State.onlyQueues_mapQueue s c n _).trans (State.enqueue_only _ c n _)).trans (ih _)
      · rfl
    · rfl

/-- Requests served: nothing, or grants of allowances that are counted and announced (R240). -/
theorem State.serveRequests_cases (s : State) (c n : Nat) : s.serveRequests c n = s ∨ ∃ held total grants,
    s.serveRequests c n = { s.mapQueue c n (fun q => { q with requests := held, granted := q.granted + total }) with
      events := s.events ++ grants } := by
  unfold State.serveRequests
  extract_lets q
  split
  · exact .inl rfl
  · split
    next gs held served =>
    split
    · exact .inl rfl
    · exact .inr ⟨held, _, _, foldl_raise _ _ _⟩

/-- Requests served. -/
theorem State.serveRequests_only (s : State) (c n : Nat) : OnlyQueues s (s.serveRequests c n) := by
  rcases s.serveRequests_cases c n with same | ⟨_, _, _, granted⟩
  · rw [same]; rfl
  · rw [granted]; rfl

/-- Requests served leave the rest of each core. -/
theorem State.serveRequests_core (s : State) (c n d : Nat) :
    { (s.serveRequests c n).core d with queues := (s.core d).queues } = s.core d := by
  rcases s.serveRequests_cases c n with same | ⟨held, total, _, granted⟩
  · rw [same]
  · rw [granted]; exact State.mapQueue_core s c n d (fun q => { q with requests := held, granted := q.granted + total })

/-- Queues that may grant nothing serve no request. -/
theorem State.serveRequests_none {s : State} {c n : Nat} (none_ : ((s.core c).queue n).closing = true
    ∨ (4 ≤ n ∧ ((s.core c).queue n).owner = none) ∨ ((s.core c).queue n).free n = 0) : s.serveRequests c n = s := by
  unfold State.serveRequests
  extract_lets q
  split
  · rfl
  next open_ =>
    rcases none_ with closing | ⟨made, owner⟩ | free
    · exact absurd (by rw [show q.closing = true from closing, Bool.true_or]) open_
    · refine absurd ?_ open_
      rw [show q.owner = none from owner, decide_eq_true made]
      exact Bool.or_true _
    · rw [show q.free n = 0 from free]
      cases q.requests <;> rfl

/-- A single request is granted what is free, eight at most (R240). -/
theorem State.serveRequests_single {s : State} {c n src : Nat} (closing : ((s.core c).queue n).closing = false)
    (made : n < 4 ∨ ((s.core c).queue n).owner ≠ none) (requests : ((s.core c).queue n).requests = [src])
    (free : 0 < ((s.core c).queue n).free n) :
    s.serveRequests c n = { s.mapQueue c n (fun q => { q with requests := [], granted := q.granted + min 8 (((s.core c).queue n).free n) }) with
      events := s.events ++ [.allowanceGrant src c n (min 8 (((s.core c).queue n).free n))] } := by
  unfold State.serveRequests
  extract_lets q
  have open_ : (q.closing || (decide (4 ≤ n) && q.owner.isNone)) = false := by
    rw [show q.closing = false from closing, Bool.false_or]
    rcases made with inbox | owner
    · rw [decide_eq_false (Nat.not_le.2 inbox), Bool.false_and]
    · rw [Option.isNone_eq_false_iff.2 (Option.isSome_iff_ne_none.2 owner), Bool.and_false]
  have granted : grantHeld (q.free n) q.requests = ([(src, min 8 (q.free n))], []) := by
    rw [show q.requests = [src] from requests, grantHeld, if_neg (Nat.pos_iff_ne_zero.1 free)]
    rfl
  rw [open_, if_neg Bool.false_ne_true, granted]
  rfl

/-! ### Allowances of a core's interface (R241) -/

/-- A pair's allowances once they are written. -/
theorem Core.unused_setUnused (c : Core) (dst q n : Nat) : (c.setUnused dst q n).unused dst q = n := by
  unfold Core.unused Core.setUnused
  simp only [List.find?_cons, beq_self_eq_true, Bool.and_self]

/-- A pair without an entry has none. -/
theorem Core.unused_dropPair (c : Core) (dst q : Nat) : (c.dropPair dst q).unused dst q = 0 := by
  have gone : (c.dropPair dst q).allowances.find? (fun a => a.1 == dst && a.2.1 == q) = none := by
    refine List.find?_eq_none.2 fun a ha => ?_
    obtain ⟨-, other⟩ := List.mem_filter.1 ha
    exact fun here => Bool.false_ne_true ((congrArg not here).symm.trans other)
  rw [Core.unused, gone]

/-- Unused allowances are read off the interface's table. -/
theorem Core.unused_congr {c d : Core} (h : d.allowances = c.allowances) (dst q : Nat) : d.unused dst q = c.unused dst q := by
  rw [Core.unused, Core.unused, h]

/-- A core that differs in its queues alone has the same allowances. -/
theorem Core.unused_of_rest {c d : Core} (h : { d with queues := c.queues } = c) (dst q : Nat) : d.unused dst q = c.unused dst q :=
  Core.unused_congr (congrArg Core.allowances h) dst q

/-- Each entry of a keyed list changed. -/
theorem assocGet_map {α : Type} (f : α → α) {d : α} (same : f d = d) (l : List (Nat × α)) (k : Nat) :
    assocGet (l.map (fun e => (e.1, f e.2))) d k = f (assocGet l d k) := by
  induction l with
  | nil => exact same.symm
  | cons e l ih =>
    obtain ⟨i, v⟩ := e
    rw [List.map_cons, assocGet, assocGet, ih]
    split <;> rfl

end Sys2Proof.Machine
end

section
/-! SUPPORT and settles O42. Messages (R153, R183, R239 to R242, R407, R408): what leaves a core, what arrives, and the allowances. -/

namespace Sys2Proof.Machine
open Sys2Proof.Safety

/-! ### What leaves a core (R183, R239) -/

/-- The message of `send`: its own bits but for TYPE, STATUS and SOURCE (R183). -/
theorem rankMessage_eq (rank : Word) (bits : VBits) : rankMessage rank bits =
    BitVec.ofNat 512 ((bits.extractLsb' 0 256).toNat / 2 ^ 64 * 2 ^ 64 + (bits.extractLsb' 32 16).toNat * 2 ^ 32
      + (rank.extractLsb' 0 16).toNat * 2 ^ 48 + (rank.extractLsb' 16 16).toNat * 2 ^ 16 + 2) := by
  have tag : bitsNat bits 32 16 = bitsNat bits 0 256 / 2 ^ 32 % 2 ^ 16 := by
    rw [bitsNat_eq, bitsNat_eq]
    omega
  unfold rankMessage
  extract_lets m keep
  have kept : keep = bitsNat bits 32 16 * 2 ^ 32 + m / 2 ^ 64 * 2 ^ 64 := by rw [tag]
  rw [kept]
  refine congrArg (BitVec.ofNat 512) ?_
  ac_rfl

/-- What a message's leaving notes of its stream changes keys and events alone (R408). -/
theorem State.sealMessage_eq (s : State) (c : Nat) : ∃ k e, s.sealMessage c = { s with keys := k, events := e } := by
  unfold State.sealMessage
  extract_lets e
  split
  · exact ⟨s.keys, s.events, rfl⟩
  · split
    · exact ⟨s.keys, s.events, rfl⟩
    · extract_lets n t
      split
      · exact ⟨_, s.events, rfl⟩
      · split
        · exact ⟨_, _, rfl⟩
        · split
          · exact ⟨_, _, rfl⟩
          · exact ⟨_, s.events, rfl⟩

/-- A message of the hart in focus for queue `q` of a core of this device has left: its allowance is used, and its core and its launch,
which is `m` then, count it (R153, R154, R240). -/
structure MessageLeft (s v : State) (l m : Launch) (dst q : Nat) : Prop where
  keeps : KeepsHarts s v
  mem : v.mem = s.mem
  unused : (v.core (coreOf s.hid)).unused dst q = (s.core (coreOf s.hid)).unused dst q - 1
  sent : (v.core (coreOf s.hid)).sent = (s.core (coreOf s.hid)).sent + 1
  launch : v.launch? l.id = some m
  count : m.sent = l.sent + 1

section
variable {s v : State} {l m : Launch} {dst q : Nat} (left : MessageLeft s v l m dst q)
include left

/-- Its arrival is an event of its own. -/
theorem MessageLeft.raise (e : Instr) : MessageLeft s (v.raise e) l m dst q :=
  ⟨left.keeps.trans (keepsHarts_of_eq rfl rfl rfl), left.mem, left.unused, left.sent, left.launch, left.count⟩

/-- Or its launch keeps it for the exchange. -/
theorem MessageLeft.keep {f : Launch → Launch} (same : KeepsLaunch f) (sent : ∀ l, (f l).sent = l.sent) :
    MessageLeft s (v.mapLaunch l.id f) l (f m) dst q :=
  ⟨left.keeps.trans (keepsHarts_of_eq rfl rfl rfl), left.mem, left.unused, left.sent,
    (State.launch?_mapLaunch v l.id same).trans (congrArg (Option.map f) left.launch), (sent m).trans left.count⟩

/-- The instruction then retires. -/
theorem MessageLeft.retires : HartRetired s v.advance 0 0 ∧ v.advance.others = s.others ∧ v.advance.mem = s.mem
    ∧ (v.advance.core (coreOf s.hid)).unused dst q = (s.core (coreOf s.hid)).unused dst q - 1
    ∧ (v.advance.core (coreOf s.hid)).sent = (s.core (coreOf s.hid)).sent + 1
    ∧ ∀ r, v.advance.launch? l.id = some r → r.sent = l.sent + 1 := by
  obtain ⟨retired, others⟩ := left.keeps.memRetired_advance
  refine ⟨retired, others, left.mem, left.unused, left.sent, fun r found => ?_⟩
  rw [Option.some.inj (found.symm.trans left.launch), left.count]

end

/-- `State.useAllowance`. -/
theorem State.useAllowance_left {s : State} {l : Launch} {dst : Nat} (q : Nat) (found : s.launch? l.id = some l)
    (near : isFarCore dst = false) :
    MessageLeft s (s.useAllowance l dst q) l { l with sent := l.sent + 1 } dst q := by
  set c := s.core (coreOf s.hid) with hc
  set u := s.setCore (coreOf s.hid) { c.setUnused dst q (c.unused dst q - 1) with sent := c.sent + 1 } with hu
  have whole : s.useAllowance l dst q =
      (u.mapLaunch l.id (fun l => { l with sent := l.sent + 1 })).sealMessage u.ownCore := by
    unfold State.useAllowance
    simp only [near, Bool.false_eq_true, if_false]
    rfl
  obtain ⟨keys, events, sealed⟩ := State.sealMessage_eq (u.mapLaunch l.id (fun l => { l with sent := l.sent + 1 })) u.ownCore
  have core : u.core (coreOf s.hid) = { c.setUnused dst q (c.unused dst q - 1) with sent := c.sent + 1 } :=
    (State.core_setCore ..).trans (if_pos rfl)
  rw [whole, sealed]
  refine ⟨keepsHarts_of_eq rfl rfl rfl, rfl, ?_, congrArg Core.sent core, ?_, rfl⟩
  · refine (congrArg (Core.unused · dst q) core).trans ?_
    exact (Core.unused_congr (c := c.setUnused dst q (c.unused dst q - 1)) rfl dst q).trans (Core.unused_setUnused ..)
  · have after := State.launch?_mapLaunch u l.id (f := fun l => { l with sent := l.sent + 1 }) (by intro; exact ⟨rfl, rfl, rfl⟩)
    exact after.trans (congrArg (Option.map _) found)

section
variable {s : State} {k : Nat} {vs : VReg}

/-- A rank beyond the launch is refused first. -/
theorem State.sendCheck_rank (beyond : s.rankCount ≤ k) : s.sendCheck k vs = some (35, BitVec.ofNat 64 k) := if_pos beyond

variable {l : Launch} {h : Nat} (launch : s.ownLaunch = some l)
include launch

/-- Every rank of the launch on this device is a rank. -/
theorem State.ranks_le : l.ranks ≤ s.rankCount := by
  unfold State.rankCount
  rw [launch]
  dsimp only
  split
  · exact Nat.le_add_right ..
  · exact le_rfl

/-- In a launch of this device alone they are all there are. -/
theorem State.rankCount_near (near : l.far = false) : s.rankCount = l.ranks := by
  unfold State.rankCount
  rw [launch]
  dsimp only
  rw [near, if_neg Bool.false_ne_true]

/-- Where a rank of this device is. -/
theorem State.rankPlace_hart (at_ : l.hartOf k = some h) : s.rankPlace k = (coreOf h, slotOf h) := by
  unfold State.rankPlace
  rw [launch, Option.bind_some, at_]

variable (rank : k < 64 * l.clusters.length)
include rank

/-- A register that is not held is refused next. -/
theorem State.sendCheck_unheld (high : 4 * s.hart.held ≤ vs.toNat) : s.sendCheck k vs = some (26, BitVec.ofNat 64 vs.toNat) := by
  obtain ⟨p, party, -⟩ := ownLaunch_some launch
  have unheld : s.NotHeld vs := ⟨by rw [(ownParty_some party).1]; exact Option.some_ne_none _, high⟩
  have low : Lowest s.NotHeld [vs] vs := ⟨List.mem_singleton_self vs, unheld, fun q hq _ => by rw [List.mem_singleton.1 hq]⟩
  rw [State.sendCheck, if_neg (Nat.not_le.2 (rank.trans_le (State.ranks_le launch))), State.vheld, lowestReg_of_lowest s.unheld_iff low]
  rfl

/-- Else the checks pass. -/
theorem State.sendCheck_good (low : vs.toNat < 4 * s.hart.held) (unchecked : s.scbCheck = false) : s.sendCheck k vs = none := by
  rw [State.sendCheck, if_neg (Nat.not_le.2 (rank.trans_le (State.ranks_le launch))), State.vheld_single (.inr low)]
  dsimp only
  rw [State.vearly, unchecked]
  rfl

end

/-- A core of this device. -/
theorem isFarCore_compute {h : Nat} (compute : isCompute h = true) : isFarCore (coreOf h) = false := by
  have low : h < 4096 := of_decide_eq_true compute
  exact decide_eq_false (by unfold coreOf; omega)

/-- A hart that asks for allowances waits for one (R240). -/
theorem State.askAllowance_waits {s : State} (saving : NotSaving s) (dst q : Nat) :
    ∃ t, s.askAllowance dst q = .next t ∧ t.hart = (waiting s (.allowance dst q)).hart ∧ t.mem = s.mem := by
  unfold State.askAllowance
  extract_lets coming asked
  split
  · exact ⟨_, State.block_eq s _ saving, rfl, rfl⟩
  · exact ⟨_, State.block_eq (s.raise _) _ saving, rfl, rfl⟩

section
variable {s : State} {rs1 : Reg} {vs : VReg}

/-- `send` and `rput` take the cause that their checks give. -/
theorem execSend_traps {c : Nat} {v : Word} (fails : s.sendCheck (bitsNat (s.x rs1) 0 32) vs = some (c, v)) : Traps (.send rs1 vs) s c v := by
  change execSend rs1 vs s = _
  unfold execSend
  extract_lets k
  rw [show s.sendCheck k vs = some (c, v) from fails]
  rfl

/-- The same of `rput`, in U-mode. -/
theorem execRput_traps {c : Nat} {v : Word} (q : BitVec 5) (user : s.hart.mode = .u)
    (fails : s.sendCheck (bitsNat (s.x rs1) 0 32) vs = some (c, v)) : Traps (.rput q rs1 vs) s c v := by
  change execRput q rs1 vs s = _
  unfold execRput
  extract_lets k n
  rw [State.mode, if_neg (not_not.2 user), show s.sendCheck k vs = some (c, v) from fails]
  rfl

variable {l : Launch} {h : Nat} (launch : s.ownLaunch = some l) (at_ : l.hartOf (bitsNat (s.x rs1) 0 32) = some h)
  (compute : isCompute h = true) (good : s.sendCheck (bitsNat (s.x rs1) 0 32) vs = none)
include launch at_ compute good

/-- `send` to a rank of this device: it leaves under an allowance or asks for one. -/
theorem execSend_runs : exec (.send rs1 vs) s =
    if s.maySend (coreOf h) (slotOf h) then .next (((s.useAllowance l (coreOf h) (slotOf h)).raise
      (.queueEntryArrival (coreOf h) (slotOf h) (rankMessage s.hart.csr.rank (s.hart.readV vs).bits) .message)).advance)
    else s.askAllowance (coreOf h) (slotOf h) := by
  change execSend rs1 vs s = _
  unfold execSend
  extract_lets k
  rw [show s.sendCheck k vs = none from good, launch, State.rankPlace_hart launch (k := k) at_]
  dsimp only
  rw [isFarCore_compute compute, if_neg Bool.false_ne_true]

/-- `rput` to a rank of this device: for the exchange in a BSP launch, else at once. -/
theorem execRput_runs (q : BitVec 5) (user : s.hart.mode = .u) : exec (.rput q rs1 vs) s =
    if s.maySend (coreOf h) q.toNat then .next ((if l.flags.getLsbD 0 then
        (s.useAllowance l (coreOf h) q.toNat).mapLaunch l.id (fun r => { r with
          appends := r.appends ++ [((s.useAllowance l (coreOf h) q.toNat).hid, coreOf h, q.toNat, (s.hart.readV vs).bits)] })
      else (s.useAllowance l (coreOf h) q.toNat).raise (.queueEntryArrival (coreOf h) q.toNat (s.hart.readV vs).bits .message)).advance)
    else s.askAllowance (coreOf h) q.toNat := by
  change execRput q rs1 vs s = _
  unfold execRput
  rw [State.mode, if_neg (not_not.2 user), good, launch]
  dsimp only
  rw [State.rankPlace_hart launch at_]
  dsimp only
  rw [isFarCore_compute compute, if_neg Bool.false_ne_true]

end

/-! ### What arrives (R237, R240, R242) -/

section
variable {s : State} {c q : Nat} (place : s.recordOf c q = none) (idle : s.idleRecordOf c q = none)
include place idle

/-- An entry sent under an allowance, for a queue that is in its place. -/
theorem State.appendGranted_place (e : VBits) :
    s.appendGranted c q e = (s.mapQueue c q (fun q => { q with granted := q.granted - 1 })).enqueue c q e := by
  rw [State.appendGranted, place]
  dsimp only
  rw [idle]

/-- A change of a queue that is in its place. -/
theorem State.mapQueueAt_place (f : Queue → Queue) : s.mapQueueAt c q f = (s.mapQueue c q f).serveRequests c q := by
  rw [State.mapQueueAt, place]
  dsimp only
  rw [idle]

/-- Allowances that come back leave those of every core. -/
theorem State.giveBack_unused (far : isFarCore c = false) (n d dst x : Nat) :
    ((s.giveBack c q n).core d).unused dst x = (s.core d).unused dst x := by
  rw [State.giveBack, if_neg (Bool.eq_false_iff.1 far), State.mapQueueAt_place place idle]
  exact (Core.unused_of_rest (State.serveRequests_core ..) dst x).trans (Core.unused_of_rest (State.mapQueue_core ..) dst x)

end

/-- An entry for an inbox. -/
theorem State.enqueue_inbox (s : State) (c : Nat) {n : Nat} (inbox : n < 4) (e : VBits) :
    s.enqueue c n e = s.mapQueue c n (fun q => { q with entries := q.entries ++ [e] }) := if_pos inbox

/-- An entry for an inbox with room is appended. -/
theorem State.arrive_inbox {s : State} {c n : Nat} (inbox : n < 4) (waiting : ((s.core c).queue n).waiting = [])
    (room : ((s.core c).queue n).hasFree n = true) (e : VBits) :
    s.arrive c n e = s.mapQueue c n (fun q => { q with entries := q.entries ++ [e] }) := by
  unfold State.arrive
  extract_lets q
  rw [show q.waiting = [] from waiting, show q.hasFree n = true from room]
  exact State.enqueue_inbox s c inbox e

/-- What a core has received leaves its queues. -/
theorem State.countReceived_queue (s : State) (id core c n : Nat) : ((s.countReceived id core).core c).queue n = (s.core c).queue n := by
  have same : (s.countReceived id core).core c = if c = core then { s.core core with received := (s.core core).received + 1 } else s.core c :=
    State.core_setCore ..
  rw [same]
  split
  next here => rw [here]; rfl
  next => rfl

/-- A message that arrives at an inbox is appended, and uses its allowance (R240). -/
theorem execArrival_message {s : State} {c q : Nat} (place : s.recordOf c q = none) (idle : s.idleRecordOf c q = none) (inbox : q < 4)
    (e : VBits) : ∃ t, exec (.queueEntryArrival c q e .message) s = .next t
      ∧ ((t.core c).queue q).entries = ((s.core c).queue q).entries ++ [e] ∧ ((t.core c).queue q).granted = ((s.core c).queue q).granted - 1 := by
  have small : q < 8 := inbox.trans (by decide)
  have appended : ((s.appendGranted c q e).core c).queue q =
      { (s.core c).queue q with granted := ((s.core c).queue q).granted - 1, entries := ((s.core c).queue q).entries ++ [e] } := by
    rw [State.appendGranted_place place idle, State.enqueue_inbox _ c inbox, State.queue_mapQueue_self _ c small,
      State.queue_mapQueue_self _ c small]
  refine ⟨_, rfl, ?_⟩
  dsimp only
  split
  · rw [State.countReceived_queue, appended]
    exact ⟨rfl, rfl⟩
  · rw [appended]
    exact ⟨rfl, rfl⟩

/-- A hardware entry for a core of no launch is appended where there is room (R237). -/
theorem execArrival_hardware {s : State} {c q : Nat} (inbox : q < 4) (none_ : s.coreLaunch c = none) (waiting : ((s.core c).queue q).waiting = [])
    (room : ((s.core c).queue q).entries.length + ((s.core c).queue q).granted < 64) (e : VBits) :
    ∃ t, exec (.queueEntryArrival c q e .hardware) s = .next t ∧ ((t.core c).queue q).entries = ((s.core c).queue q).entries ++ [e] := by
  have free : ((s.core c).queue q).hasFree q = true := by
    rw [Queue.hasFree, Queue.length, Queue.capacity, if_pos inbox, if_pos inbox]
    exact decide_eq_true room
  refine ⟨_, rfl, ?_⟩
  dsimp only
  rw [none_]
  dsimp only
  rw [State.arrive_inbox inbox waiting free, State.queue_mapQueue_self s c (inbox.trans (by decide))]

section
variable {s : State} {c q : Nat} (place : s.recordOf c q = none) (idle : s.idleRecordOf c q = none) (near : isFarCore c = false) (src : Nat)
include place idle near

/-- A request for allowances of a queue that is in its place. -/
theorem execAllowanceRequest_place : exec (.allowanceRequest src c q) s =
    .next ((s.mapQueue c q (fun x => { x with requests := x.requests ++ [src] })).serveRequests c q) := by
  change execAllowanceRequest src c q s = _
  unfold execAllowanceRequest
  rw [if_neg (Bool.eq_false_iff.1 near), State.mapQueueAt_place place idle]

variable (small : q < 8)
include small

/-- A first request of a queue with free places is granted (R240). -/
theorem execAllowanceRequest_granted (requests : ((s.core c).queue q).requests = []) (open_ : ((s.core c).queue q).closing = false)
    (made : q < 4 ∨ ((s.core c).queue q).owner ≠ none) (free : 0 < ((s.core c).queue q).free q) :
    ∃ t, exec (.allowanceRequest src c q) s = .next t
      ∧ ((t.core c).queue q).granted = ((s.core c).queue q).granted + min 8 (((s.core c).queue q).free q)
      ∧ ((t.core c).queue q).requests = []
      ∧ t.events = s.events ++ [.allowanceGrant src c q (min 8 (((s.core c).queue q).free q))] := by
  set u := s.mapQueue c q (fun x => { x with requests := x.requests ++ [src] })
  have queue : (u.core c).queue q = { (s.core c).queue q with requests := [src] } := by
    rw [State.queue_mapQueue_self s c small, requests]
    rfl
  have served := State.serveRequests_single (s := u) (c := c) (n := q) (src := src) (by rw [queue]; exact open_)
    (by rw [queue]; exact made) (by rw [queue]) (by rw [queue]; exact free)
  rw [queue] at served
  refine ⟨_, execAllowanceRequest_place place idle near src, ?_⟩
  rw [served]
  have after := State.queue_mapQueue_self u c small (fun x => { x with requests := [], granted := x.granted + min 8 (((s.core c).queue q).free q) })
  rw [queue] at after
  exact ⟨congrArg Queue.granted after, congrArg Queue.requests after, rfl⟩

/-- A request of a queue that grants nothing now is held in its order (R240). -/
theorem execAllowanceRequest_held (none_ : ((s.core c).queue q).closing = true ∨ (4 ≤ q ∧ ((s.core c).queue q).owner = none)
      ∨ ((s.core c).queue q).free q = 0) : ∃ t, exec (.allowanceRequest src c q) s = .next t
    ∧ ((t.core c).queue q).requests = ((s.core c).queue q).requests ++ [src] ∧ t.events = s.events := by
  have queue := State.queue_mapQueue_self s c small (fun x => { x with requests := x.requests ++ [src] })
  refine ⟨_, execAllowanceRequest_place place idle near src, ?_⟩
  rw [State.serveRequests_none (by rw [queue]; exact none_), queue]
  exact ⟨rfl, rfl⟩

end

/-- A grant joins a core's unused allowances (R241). -/
theorem execAllowanceGrant_unused (s : State) (src c q n : Nat) :
    ∃ t, exec (.allowanceGrant src c q n) s = .next t ∧ (t.core src).unused c q = (s.core src).unused c q + n := by
  refine ⟨_, rfl, ?_⟩
  have written : ((s.setCore src ((s.core src).setUnused c q ((s.core src).unused c q + n))).core src).unused c q = (s.core src).unused c q + n := by
    rw [State.core_setCore, if_pos rfl, Core.unused_setUnused]
  split
  · split
    · exact written
    · exact written
  · exact written

section
variable {s : State} {c q : Nat} (place : s.recordOf c q = none) (idle : s.idleRecordOf c q = none) (near : isFarCore c = false)
include place idle near

/-- Allowances returned are no longer the core's (R241). -/
theorem execAllowanceReturn_unused (src : Nat) : ∃ t, exec (.allowanceReturn src c q) s = .next t ∧ (t.core src).unused c q = 0 := by
  refine ⟨_, rfl, ?_⟩
  set u := s.setCore src ((s.core src).dropPair c q)
  rw [State.giveBack_unused (s := u) place idle near, State.core_setCore, if_pos rfl, Core.unused_dropPair]

/-- Allowances reclaimed are no core's (R241). -/
theorem execAllowanceReclaim_unused : ∃ t, exec (.allowanceReclaim c q) s = .next t ∧ ∀ k, (t.core k).unused c q = 0 := by
  refine ⟨_, rfl, fun k => ?_⟩
  set u : State := { s with cores := s.cores.map (fun (e : Nat × Core) => (e.1, e.2.dropPair c q)) }
  have core : u.core k = (s.core k).dropPair c q := assocGet_map (fun x : Core => x.dropPair c q) rfl s.cores k
  rw [State.giveBack_unused (s := u) place idle near, core, Core.unused_dropPair]

end

/-! ### The end of a context's launch (R407) -/

/-- No launch is left under an id once those that have it have ended. -/
theorem State.launch?_ended (s : State) (id : Nat) (st : LaunchStatus) :
    (s.mapLaunch id (fun l => { l with ended := some st })).launch? id = none := by
  refine List.find?_eq_none.2 fun l there found => ?_
  obtain ⟨here, live⟩ := (Bool.and_eq_true ..).mp found
  obtain ⟨k, -, rfl⟩ := List.mem_map.1 there
  by_cases ends : k.id = id ∧ k.ended = none
  · rw [if_pos ends] at live
    exact Bool.false_ne_true live
  · rw [if_neg ends] at here live
    exact ends ⟨beq_iff_eq.1 here, Option.isNone_iff_eq_none.1 live⟩

/-- A launch of whose end was told. -/
def markTold (l k : Launch) : Launch := if k = l then { k with told := true } else k

/-- That leaves which launches have ended. -/
theorem keepsLaunch_markTold (l : Launch) : KeepsLaunch (markTold l) := fun k => by
  unfold markTold
  split
  · exact ⟨rfl, rfl, rfl⟩
  · exact ⟨rfl, rfl, rfl⟩

/-- What tells of an end leaves which launches have ended. -/
theorem State.tellEnd_launches (s : State) (id : Nat) :
    ∃ g, KeepsLaunch g ∧ (s.tellEnd id).launches = s.launches.map g := by
  have same : ∃ g, KeepsLaunch g ∧ s.launches = s.launches.map g := ⟨fun l => l, fun l => ⟨rfl, rfl, rfl⟩, (List.map_id _).symm⟩
  unfold State.tellEnd
  split
  · exact same
  next l _ =>
    split
    · exact same
    · refine ⟨markTold l, keepsLaunch_markTold l, ?_⟩
      extract_lets u v e w
      have told : w.launches = v.launches := by
        unfold w
        split
        · split
          · exact (State.notice_only ..).tables.2.1
          · rfl
        · rfl
      exact (State.notice_only w l.submitter e).tables.2.1.trans told

/-- A launch that was made to end is no launch. -/
theorem State.launch?_endLaunch (s : State) (id : Nat) (st : LaunchStatus) : (s.endLaunch id st).launch? id = none := by
  unfold State.endLaunch
  split
  next none_ => exact none_
  next l found =>
    extract_lets ps u v w x y
    obtain ⟨g, same, launches⟩ := y.tellEnd_launches id
    rw [launch?_map launches same, show y.launch? id = none from State.launch?_ended v id st]
    rfl

/-- Cancelling the migrations of a context leaves the launches. -/
theorem State.cancelMigrations_launches (s : State) (ctx : BitVec 16) : (s.cancelMigrations ctx).launches = s.launches := by
  unfold State.cancelMigrations
  extract_lets of_ u
  have raised := foldl_raise (fun a : Accepted => .commandCompletion a.cmd 7 0 0) (u.engines.filter (fun a => of_ a.cmd && !a.started)) u
  exact (congrArg State.launches raised :)

/-- A failed tag check ends the launch of its context (R407). -/
theorem execArrival_tagFailure {s : State} {ctx : BitVec 16} {l : Launch} (launch : s.ctxLaunch ctx = some l) (c q : Nat) (e : VBits) :
    ∃ t, exec (.queueEntryArrival c q e (.tagFailure ctx)) s = .next t ∧ t.launch? l.id = none := by
  refine ⟨_, rfl, ?_⟩
  have still : (s.cancelMigrations ctx).ctxLaunch ctx = some l :=
    (congrArg (List.find? _) (s.cancelMigrations_launches ctx)).trans launch
  dsimp only
  rw [State.killContext, still]
  exact State.launch?_endLaunch ..

/-! ### Streams (R408) -/

/-- A stream without a PENDING key stops; with one nothing changes. -/
theorem execStreamStop_eq (s : State) (c : Nat) : exec (.streamStop c) s =
    .next (if ∀ k ∈ s.keys, k.kind = .context ((s.core c).encl.extractLsb' 0 16) → k.pending = false then
      s.setCore c { s.core c with meshStopped := true } else s) := by
  have test : s.keys.any (fun k => k.kind == .context ((s.core c).encl.extractLsb' 0 16) && k.pending) = true
      ↔ ¬ ∀ k ∈ s.keys, k.kind = .context ((s.core c).encl.extractLsb' 0 16) → k.pending = false := by
    simp only [List.any_eq_true, Bool.and_eq_true, beq_iff_eq, not_forall, Bool.not_eq_false, exists_prop]
  change execStreamStop c s = _
  unfold execStreamStop
  extract_lets ctx
  refine congrArg Host.Outcome.next ?_
  by_cases waits : ∀ k ∈ s.keys, k.kind = .context ctx → k.pending = false
  · rw [if_pos waits]
    exact if_neg (mt test.1 (not_not.2 waits))
  · rw [if_neg waits]
    exact if_pos (test.2 waits)

end Sys2Proof.Machine

namespace Sys2Proof.Proofs
open Sys2Proof Sys2Proof.Machine Sys2Proof.Safety

/-- Settles O42: what leaves is `State.useAllowance`, what arrives is one operation on one queue, and a killed context has no launch. -/
theorem messages : Obligations.Messages := by
  refine ⟨fun s rs1 vs q => ?_, fun s c q src n e place idle near => ?_, fun s c q e ctx l launch => execArrival_tagFailure launch c q e,
    fun s c => ?_⟩
  · refine ⟨fun mode => if_pos mode, fun l launch near => State.rankCount_near launch near, fun beyond => ?_,
      fun l h launch rank at_ compute => ⟨fun high => ?_, fun low unchecked => ?_⟩⟩
    · have fails := State.sendCheck_rank (vs := vs) beyond
      exact ⟨execSend_traps fails, fun user => execRput_traps q user fails⟩
    · have fails := State.sendCheck_unheld launch rank high
      exact ⟨execSend_traps fails, fun user => execRput_traps q user fails⟩
    · have good := State.sendCheck_good launch rank low unchecked
      obtain ⟨-, -, -, found⟩ := ownLaunch_some launch
      have left (d : Nat) := State.useAllowance_left d found (isFarCore_compute compute)
      have send := execSend_runs launch at_ compute good
      have rput := execRput_runs launch at_ compute good q
      refine ⟨fun may => ?_, fun none_ saving => ?_, fun user may => ?_, fun user none_ saving => ?_⟩
      · rw [if_pos may, rankMessage_eq] at send
        exact ⟨_, send, ((left _).raise _).retires, List.mem_append_right _ (List.mem_singleton_self _)⟩
      · rw [send, if_neg (Bool.eq_false_iff.1 none_)]
        exact State.askAllowance_waits saving ..
      · have run := (rput user).trans (if_pos may)
        cases bsp : l.flags.getLsbD 0 with
        | true =>
          rw [if_pos bsp] at run
          have kept := (left q.toNat).keep (f := fun r => { r with
            appends := r.appends ++ [((s.useAllowance l (coreOf h) q.toNat).hid, coreOf h, q.toNat, (s.hart.readV vs).bits)] })
            (by intro; exact ⟨rfl, rfl, rfl⟩) (by intro; rfl)
          refine ⟨_, run, kept.retires, fun free => absurd free (by decide), fun _ r there => ?_⟩
          rw [Option.some.inj (there.symm.trans kept.launch), (left q.toNat).keeps.hid]
        | false =>
          rw [if_neg (Bool.eq_false_iff.1 bsp)] at run
          exact ⟨_, run, ((left q.toNat).raise _).retires, fun _ => List.mem_append_right _ (List.mem_singleton_self _),
            fun bsp => absurd bsp (by decide)⟩
      · rw [rput user, if_neg (Bool.eq_false_iff.1 none_)]
        exact State.askAllowance_waits saving ..
  · exact ⟨fun inbox => execArrival_message place idle inbox e, fun inbox none_ waiting room => execArrival_hardware inbox none_ waiting room e,
      fun small requests open_ made free => execAllowanceRequest_granted place idle near src small requests open_ made free,
      fun small none_ => execAllowanceRequest_held place idle near src small none_, execAllowanceGrant_unused s src c q n,
      execAllowanceReturn_unused place idle near src, execAllowanceReclaim_unused place idle near⟩
  · refine ⟨fun waits => ⟨_, (execStreamStop_eq s c).trans (congrArg _ (if_pos waits)), ?_, rfl⟩,
      fun waits => (execStreamStop_eq s c).trans (congrArg _ (if_neg waits))⟩
    rw [State.core_setCore, if_pos rfl]

end Sys2Proof.Proofs
end

section
/-! SUPPORT. What the device writes for a context (R252 to R258, R422), and what the dispatcher and the banker leave alone. -/

namespace Sys2Proof.Machine
open Sys2Proof.Safety

/-! ### Writes on plain and compressed pages (R256 to R258) -/

/-- A sector stored. -/
theorem storeSector_stored (cmp base : Nat) (block : List Byte) (s : State) (j : Nat) : OnlyStored s (storeSector cmp base block s j) := by
  unfold storeSector
  extract_lets bs at_ dirty
  split
  · split
    · rfl
    · rfl
  · split
    · rfl
    · rfl

/-- A sector laid. -/
theorem layRaw_stored (base : Nat) (s : State) (j : Nat) : OnlyStored s (layRaw base s j) := by
  unfold layRaw
  split
  · rfl
  · rfl

/-- The masks, what lies under them, and the free values taken may change with it. -/
theorem OnlyStored.masks {s t : State} (h : OnlyStored s t) (b : List (Nat × BitVec 6)) (r : List (Nat × List Byte)) (c : Nat) :
    OnlyStored s { t with blocks := b, raws := r, choices := c } := h

/-- A compressed write. -/
theorem storeCompressed_stored (s : State) (h : Option Nat) (p : Place) (bs : List Byte) : OnlyStored s (storeCompressed s h p bs) := by
  unfold storeCompressed
  extract_lets base cmp old block t mask laid stored mask' coded
  split
  · exact (onlyStored_of_only (State.storeBy_only s h base _)).masks _ _ _
  · have older : OnlyStored s (keepOlder h old base (p.key % 256) bs.length s) := by
      unfold keepOlder
      refine onlyStored_foldl (fun t i => ?_) _ s
      rfl
    have lay : OnlyStored s laid := older.trans (onlyStored_foldl (layRaw_stored base) _ _)
    have code : OnlyStored s coded :=
      (lay.trans (onlyStored_foldl (storeSector_stored cmp base block) _ laid)).masks _ _ _
    split
    · exact code.trans (onlyStored_of_only (State.storeBy_only coded none _ _))
    · exact code

/-- A write to a block. -/
theorem State.devicePut_stored (s : State) (p : Place) (bs : List Byte) : OnlyStored s (s.devicePut p bs) := by
  unfold State.devicePut
  split
  · exact onlyStored_of_only (State.storeWhole_only ..)
  · exact storeCompressed_stored ..

/-- A write through a context's map. -/
theorem deviceWrite_stored {s t : State} {ctx : BitVec 16} {root va : Nat} {bs : List Byte} (h : deviceWrite s ctx root va bs = some t) :
    OnlyStored s t := by
  unfold deviceWrite at h
  extract_lets k at h
  split at h
  · exact absurd h (by simp only [reduceCtorEq, not_false_eq_true])
  · split at h
    · exact Option.some.inj h ▸ State.devicePut_stored ..
    · obtain ⟨q, -, rfl⟩ := Option.map_eq_some_iff.1 h
      exact (State.devicePut_stored ..).trans (State.devicePut_stored ..)

/-- A store of the device's. -/
theorem State.store_stored (s : State) (a : Nat) (bs : List Byte) : OnlyStored s (s.store a bs) :=
  onlyStored_of_only (State.storeBy_only s none a bs)

/-- A trace record (R422). -/
theorem State.trace_stored (s : State) (root : Nat) (bs : List Byte) : OnlyStored s (s.trace root bs) := by
  unfold State.trace
  extract_lets base size head tail drop
  split
  · rfl
  · split
    · exact State.store_stored ..
    · split
      next written => exact (deviceWrite_stored written).trans (State.store_stored ..)
      next => exact State.store_stored ..

/-! ### What the dispatcher leaves alone -/

/-- Memory, harts, cores and clusters, the tables of parties, launches and contexts, the engines, the waiters at cells and the events due
may differ, and nothing else. -/
def OnlyDispatch (s t : State) : Prop :=
  { t with
    mem := s.mem, poison := s.poison, blocks := s.blocks, deltas := s.deltas, raws := s.raws, stale := s.stale, lines := s.lines,
    migrations := s.migrations, choices := s.choices, cores := s.cores, events := s.events, hart := s.hart, others := s.others,
    clusters := s.clusters, parties := s.parties, launches := s.launches, contexts := s.contexts, engines := s.engines,
    broken := s.broken, waiters := s.waiters } = s

/-- One such change after another. -/
theorem OnlyDispatch.trans {s t u : State} (h : OnlyDispatch s t) (k : OnlyDispatch t u) : OnlyDispatch s u := by
  unfold OnlyDispatch at *
  exact (congrArg (fun x : State => { x with
    mem := s.mem, poison := s.poison, blocks := s.blocks, deltas := s.deltas, raws := s.raws, stale := s.stale, lines := s.lines,
    migrations := s.migrations, choices := s.choices, cores := s.cores, events := s.events, hart := s.hart, others := s.others,
    clusters := s.clusters, parties := s.parties, launches := s.launches, contexts := s.contexts, engines := s.engines,
    broken := s.broken, waiters := s.waiters }) k).trans h

/-- A fold whose every step is such a change. -/
theorem onlyDispatch_foldl {α : Type} {f : State → α → State} (step : ∀ s a, OnlyDispatch s (f s a)) (l : List α) (s : State) :
    OnlyDispatch s (l.foldl f s) := by
  induction l generalizing s with
  | nil => rfl
  | cons a l ih => exact (step s a).trans (ih _)

/-- A delivery is one. -/
theorem OnlyQueues.dispatch {s t : State} (h : OnlyQueues s t) : OnlyDispatch s t := by
  unfold OnlyQueues at h
  unfold OnlyDispatch
  exact congrArg (fun u : State => { u with
    hart := s.hart, others := s.others, clusters := s.clusters, parties := s.parties, launches := s.launches, contexts := s.contexts,
    engines := s.engines, broken := s.broken, waiters := s.waiters }) h

/-- A write of the device's is one. -/
theorem OnlyStored.dispatch {s t : State} (h : OnlyStored s t) : OnlyDispatch s t := (onlyQueues_of_stored h).dispatch

/-- A change of memory alone is one. -/
theorem dispatch_of_only {s t : State} (h : OnlyMemory s t) : OnlyDispatch s t := (onlyStored_of_only h).dispatch

/-- A change of harts alone is one. -/
theorem OnlyHarts.dispatch {s t : State} (h : OnlyHarts s t) : OnlyDispatch s t := by
  unfold OnlyHarts at h
  unfold OnlyDispatch
  exact congrArg (fun u : State => { u with
    mem := s.mem, poison := s.poison, blocks := s.blocks, deltas := s.deltas, raws := s.raws, stale := s.stale, lines := s.lines,
    migrations := s.migrations, choices := s.choices, cores := s.cores, events := s.events, clusters := s.clusters,
    parties := s.parties, launches := s.launches, contexts := s.contexts, engines := s.engines, broken := s.broken,
    waiters := s.waiters }) h

/-- The clock, the ids to come and the registers of the services stay. -/
theorem OnlyDispatch.rest {s t : State} (h : OnlyDispatch s t) : t.clock = s.clock ∧ t.hid = s.hid ∧ t.svc = s.svc
    ∧ t.nextLaunch = s.nextLaunch ∧ t.nextParty = s.nextParty ∧ t.purging = s.purging := by
  unfold OnlyDispatch at h
  have clock := congrArg State.clock h
  have hid := congrArg State.hid h
  have svc := congrArg State.svc h
  have launch := congrArg State.nextLaunch h
  have party := congrArg State.nextParty h
  have purging := congrArg State.purging h
  exact ⟨clock, hid, svc, launch, party, purging⟩

/-! ### Stops and exchanges (R150, R153, R427) -/

/-- A gang stop. -/
theorem State.gangStop_dispatch (s : State) (ctx : BitVec 16) (reason : Nat) (d : Option (List Byte)) : OnlyDispatch s (s.gangStop ctx reason d) := by
  unfold State.gangStop
  split
  · rfl
  next c _ =>
    split
    · rfl
    · extract_lets sstep u v w x y
      have harts : OnlyDispatch s u := (onlyHarts_foldl (fun _ x => x.complete) _ s).dispatch
      have marked : OnlyDispatch s w := (harts.trans (u := v) rfl).trans (u := w) rfl
      have traced : OnlyDispatch s x := marked.trans (onlyDispatch_foldl (fun s k => (State.trace_stored s c.root _).dispatch) _ w)
      have told : OnlyDispatch s y := by
        unfold y
        split
        · exact traced.trans (State.trace_stored ..).dispatch
        · exact traced
      exact told.trans (State.trace_stored ..).dispatch

/-- Steps 3 and 4 of an exchange. -/
theorem State.openStep_dispatch (s : State) (l : Launch) : OnlyDispatch s (s.openStep l) := by
  unfold State.openStep
  extract_lets hs n xs after t u v w x
  have opened : OnlyDispatch s t := onlyDispatch_foldl (fun s (p : Party) =>
    (onlyHarts_foldl (fun _ x => after x) p.harts s).dispatch.trans (dispatch_of_only (State.openHarts_only _ p.harts))) _ s
  have kept : OnlyDispatch s v := (opened.trans (u := u) rfl).trans (u := v) rfl
  have traced : OnlyDispatch s w := kept.trans (State.trace_stored ..).dispatch
  exact (traced.trans (u := x) rfl).trans rfl

/-- A partition that stands at an exchange stops or goes on. -/
theorem State.stopOrOpen_dispatch (s : State) (ctx : BitVec 16) : OnlyDispatch s (s.stopOrOpen ctx) := by
  unfold State.stopOrOpen
  split
  · split
    · exact OnlyDispatch.trans (t := s.mapCtx ctx (fun c => { c with stopReq := none })) rfl (State.gangStop_dispatch ..)
    · exact State.openStep_dispatch ..
  · rfl

/-- A stop for divergence. -/
theorem State.divergeStop_dispatch (s : State) (c o : Context) (sites : List Nat) : OnlyDispatch s (s.divergeStop c o sites) := by
  unfold State.divergeStop
  extract_lets i n due
  exact OnlyDispatch.trans (t := s.mapCtx c.id (fun c => { c with stopReq := if due then none else c.stopReq })) rfl (State.gangStop_dispatch ..)

/-- A context that has completed step 2. -/
theorem State.afterClose_dispatch (s : State) (ctx : BitVec 16) : OnlyDispatch s (s.afterClose ctx) := by
  unfold State.afterClose
  split
  · rfl
  · split
    · rfl
    · split
      · exact State.stopOrOpen_dispatch ..
      · split
        · exact State.stopOrOpen_dispatch ..
        · split
          · rfl
          · extract_lets sites
            split
            · exact (State.stopOrOpen_dispatch ..).trans (State.stopOrOpen_dispatch ..)
            · exact (State.divergeStop_dispatch ..).trans (State.divergeStop_dispatch ..)

/-- A pair dissolved (R427). -/
theorem State.unpair_dispatch (s : State) (a : BitVec 16) : OnlyDispatch s (s.unpair a) := by
  unfold State.unpair
  split
  · rfl
  next b _ =>
    extract_lets t u
    have marked : OnlyDispatch s u := OnlyDispatch.trans (t := t) rfl rfl
    exact (marked.trans (State.afterClose_dispatch u a)).trans (State.afterClose_dispatch ..)

end Sys2Proof.Machine
end

section
/-! SUPPORT and settles O45. System calls, `mprobe`, `mhint` and `launch` (R134 to R138, R266, R267, R362). -/

namespace Sys2Proof.Machine
open Sys2Proof.Safety

/-! ### System calls (R362) -/

/-- SRING of the hart's context. -/
def State.scallRing (s : State) : Word := BitVec.ofNat 64 (s.ctxField (rootOf s.hart.csr.ptroot) 0x150 8)

/-- A publish at device scope. -/
theorem State.publishAt_device (s : State) : s.publishAt false = s.publish := if_neg Bool.false_ne_true

/-- An entry written to a ring is in memory alone, but for the list of rings in use. -/
theorem State.ringWrite_keeps (s : State) (r : Word) (bytes : List Byte) : KeepsHarts s (s.ringWrite r bytes) := by
  unfold State.ringWrite
  extract_lets t head u
  have used : KeepsHarts s t := keepsHarts_of_eq rfl rfl rfl
  exact (used.trans (keepsHarts_of_only (State.storeWhole_only t _ _))).trans (keepsHarts_of_only (State.storeBy_only u none _ _))

/-- What it writes depends on memory alone. -/
theorem State.ringWrite_mem {s t : State} (mem : t.mem = s.mem) (r : Word) (bytes : List Byte) :
    (t.ringWrite r bytes).mem = (s.ringWrite r bytes).mem := by
  simp only [State.ringWrite, State.store_mem, State.storeWhole_mem, State.loadNat, State.load, mem]

section
variable {s u : State} {rs1 : Reg} (user : s.hart.mode = .u) (named : ringNamed s.scallRing = true)
include user named

/-- `scall` with a ring checks its request. -/
theorem execScall_runs : exec (.scall rs1) s = match check s .load (s.x rs1) 64 false with
    | (s, .error c) => s.trapOut c (s.x rs1)
    | (v, .ok p) => v.publishThen (fun w =>
        if w.ringFull s.scallRing then w.block .ring
        else .next ((w.chargeBlanket p 64).ringWrite s.scallRing
          (scallEntry (v.readPlace p 64) (bitsNat w.hart.csr.ctxid 0 16) (bitsNat w.hart.csr.rank 0 32))).advance) := by
  change execScall rs1 s = _
  unfold execScall
  extract_lets ring
  rw [State.mode, if_neg (not_not.2 user), if_neg fun bad => absurd ((show ringNamed ring = true from named).symm.trans bad) (by decide)] <;> rfl

/-- A request that fails the checks takes their cause. -/
theorem execScall_refused {c : Nat} (checked : check s .load (s.x rs1) 64 false = (u, .error c)) :
    exec (.scall rs1) s = .next (u.trap c (s.x rs1)) := by
  rw [execScall_runs user named, checked]
  dsimp only
  rw [onlyTlb_x (onlyTlb_check checked)]
  rfl

variable {p : Place} (checked : check s .load (s.x rs1) 64 false = (u, .ok p)) (may : MayPublish s)
include checked may

/-- A request that can be read waits for room in the ring. -/
theorem execScall_waits (full : u.publish.ringFull s.scallRing = true) :
    exec (.scall rs1) s = u.publish.block .ring := by
  rw [execScall_runs user named, checked]
  dsimp only
  rw [State.publishThen, State.publishThenAt_may ((onlyTlb_mayPublish (onlyTlb_check checked)).2 may), State.publishAt_device, if_pos full]

/-- With room it is appended after the hart's stores. -/
theorem execScall_appends (room : u.publish.ringFull s.scallRing = false) :
    ∃ t, exec (.scall rs1) s = .next t ∧ MemRetired s t 0 0 ∧ t.hart.pending = []
      ∧ t.mem = (u.publish.ringWrite s.scallRing
          (scallEntry (u.readPlace p 64) (bitsNat s.hart.csr.ctxid 0 16) (bitsNat s.hart.csr.rank 0 32))).mem := by
  have tlb := onlyTlb_check checked
  have may' := (onlyTlb_mayPublish tlb).2 may
  have drains := State.publish_drains u
  have csr : u.publish.hart.csr = s.hart.csr := by
    have same := congrArg Hart.csr drains.keepsHarts.hart
    exact same.trans (congrArg Hart.csr tlb.hart)
  obtain ⟨contexts, charged⟩ := State.chargeBlanket_eq u.publish p 64
  have keeps : KeepsHarts s ((u.publish.chargeBlanket p 64).ringWrite s.scallRing
      (scallEntry (u.readPlace p 64) (bitsNat u.publish.hart.csr.ctxid 0 16) (bitsNat u.publish.hart.csr.rank 0 32))) := by
    have count : KeepsHarts u.publish { u.publish with contexts := contexts } := keepsHarts_of_eq rfl rfl rfl
    rw [charged]
    exact (((onlyTlb_keepsHarts tlb).trans drains.keepsHarts).trans count).trans (State.ringWrite_keeps ..)
  refine ⟨_, ?_, keeps.memRetired_advance, ?_, ?_⟩
  · rw [execScall_runs user named, checked]
    dsimp only
    rw [State.publishThen, State.publishThenAt_may may', State.publishAt_device, if_neg (Bool.eq_false_iff.1 room)]
  · rw [State.advance_pending, State.ringWrite_hart, charged]
    exact (congrArg (·.hart.pending) u.publishAt_device).symm.trans (publishAt_empty may' false)
  · rw [csr, charged]
    exact State.ringWrite_mem (s := u.publish) (t := { u.publish with contexts := contexts }) rfl _ _

end

/-! ### `mprobe` (R266) -/

/-- A leaf's fields in a report are even and leave FAIL zero. -/
theorem probeLeaf_fields (p : Word) (level : Nat) {rights : Nat} (small : rights ≤ 2) :
    probeLeaf p level rights % 2 = 0 ∧ probeLeaf p level rights + 1 < 2 ^ 32 := by
  have field (lo n : Nat) : bitsNat p lo n < 2 ^ n := (p.extractLsb' lo n).isLt
  have flags := field 1 6
  have arena := field 9 3
  have fmt := field 52 4
  have cmp := field 56 3
  have kind := field 59 3
  have top := field 62 2
  have size : probeSize (leafBits level (pteSpan p)) ≤ 6 := List.findIdx_le_length
  unfold probeLeaf pteArena pteFmt pteCmp pteKind
  generalize bitsNat p 1 6 = a, bitsNat p 9 3 = b, bitsNat p 52 4 = c, bitsNat p 56 3 = d, bitsNat p 59 3 = e, bitsNat p 62 2 = f at *
  generalize probeSize (leafBits level (pteSpan p)) = g at *
  have pin : (if ptePin p then 2 ^ 7 else 0) = 0 ∨ (if ptePin p then 2 ^ 7 else 0) = 2 ^ 7 := by
    split
    · exact .inr rfl
    · exact .inl rfl
  have sealed : (if e = 1 then 2 ^ 26 else 0) = 0 ∨ (if e = 1 then 2 ^ 26 else 0) = 2 ^ 26 := by
    split
    · exact .inr rfl
    · exact .inl rfl
  omega

/-- RIGHTS on a frame is 2 at most. -/
theorem frameRights_le {s : State} {k frame n : Nat} {write : Bool} (h : frameRights s k frame write = .ok n) : n ≤ 2 := by
  have none_ (c : Nat) : (Except.error c : Except Nat Nat) ≠ .ok n := by simp only [ne_eq, reduceCtorEq, not_false_eq_true]
  unfold frameRights at h
  extract_lets e at h
  split at h
  · exact Except.ok.inj h ▸ Nat.zero_le 2
  · split at h
    · exact absurd h (none_ _)
    · split at h
      · rw [← Except.ok.inj h]
        split
        · exact le_rfl
        · exact Nat.le_succ 1
      · split at h
        · exact absurd h (none_ _)
        · exact absurd h (none_ _)

/-- RIGHTS is 2 at most. -/
theorem leafRights_le {s : State} {pa kind n : Nat} {write : Bool} (h : leafRights s pa kind write = .ok n) : n ≤ 2 := by
  have none_ (c : Nat) : (Except.error c : Except Nat Nat) ≠ .ok n := by simp only [ne_eq, reduceCtorEq, not_false_eq_true]
  unfold leafRights at h
  extract_lets e at h
  split at h
  · exact Except.ok.inj h ▸ Nat.zero_le 2
  · split at h
    · exact absurd h (none_ _)
    · split at h
      · split at h
        · exact absurd h (none_ _)
        · exact absurd h (none_ _)
      · exact frameRights_le h

section
variable {s : State} {a : Nat}

/-- Beyond the address space the report is FAIL 1. -/
theorem State.probe_beyond (beyond : 2 ^ 57 ≤ a) : s.probe a = 1 * 2 ^ 32 := if_pos beyond

variable (below : a < windowBase)
include below

/-- Below the window the report is of the walk. -/
theorem State.probe_below : s.probe a = match walk s (dieOfCore s.ownCore) (ctxOf s.hart.csr.ptroot) (rootOf s.hart.csr.ptroot) a with
    | .error .notMapped => probeFail 2
    | .error .malformed => probeFail 3
    | .error .unowned => probeFail 4
    | .error .revoked => probeFail 5
    | .error .integrity => probeFail 8
    | .ok (p, level, _) =>
      if permits p (if s.mode = .u then .u else .s) .read = false then
        probeFail 7 + probeLeaf p level (match leafRights s (ptePfn p * 4096 + a % 2 ^ leafBits level (pteSpan p)) (pteKind p) false with
          | .ok n => n
          | .error _ => 0)
      else match leafRights s (ptePfn p * 4096 + a % 2 ^ leafBits level (pteSpan p)) (pteKind p) false with
        | .ok n => 1 + probeLeaf p level n
        | .error c => probeFail (if c = 30 then 5 else 4) := by
  have small : ¬ 2 ^ 57 ≤ a := Nat.not_le.2 (below.trans (by decide))
  have outside : ¬ inWindow a = true := by
    rw [inWindow, decide_eq_false (Nat.not_le.2 below), Bool.false_and]
    exact Bool.false_ne_true
  rw [State.probe, if_neg small, if_neg outside] <;> rfl

/-- A walk that fails is reported by its reason. -/
theorem State.probe_fails {f : WalkFail} (fails : walk s (dieOfCore s.ownCore) (ctxOf s.hart.csr.ptroot) (rootOf s.hart.csr.ptroot) a = .error f) :
    s.probe a = (match (generalizing := false) f with
      | .notMapped => 2
      | .malformed => 3
      | .unowned => 4
      | .revoked => 5
      | .integrity => 8) * 2 ^ 32 := by
  rw [State.probe_below below, fails]
  cases f with
  | notMapped => rfl
  | malformed => rfl
  | unowned => rfl
  | revoked => rfl
  | integrity => rfl

/-- A page that may be read is reported as such. -/
theorem State.probe_good {p : Word} {level rights : Nat} {l : List (Nat × Word)}
    (found : walk s (dieOfCore s.ownCore) (ctxOf s.hart.csr.ptroot) (rootOf s.hart.csr.ptroot) a = .ok (p, level, l))
    (permitted : permits p (if s.mode = .u then .u else .s) .read = true)
    (owned : leafRights s (ptePfn p * 4096 + a % 2 ^ leafBits level (pteSpan p)) (pteKind p) false = .ok rights) :
    s.probe a % 2 = 1 ∧ s.probe a / 2 ^ 32 = 0 := by
  obtain ⟨even, small⟩ := probeLeaf_fields p level (leafRights_le owned)
  have report : s.probe a = 1 + probeLeaf p level rights := by
    rw [State.probe_below below, found]
    dsimp only
    rw [if_neg fun no => absurd (permitted.symm.trans no) (by decide), owned]
  omega

end

/-! ### `mhint` (R267) -/

/-- A hint dropped is counted. -/
theorem State.dropHint_stored (s : State) (root : Nat) : OnlyStored s (s.dropHint root) := State.store_stored ..

/-- A hint written. -/
theorem State.hint_stored (s : State) (root : Nat) (bs : List Byte) : OnlyStored s (s.hint root bs) := by
  unfold State.hint
  extract_lets size head tail
  split
  · exact State.dropHint_stored ..
  · split
    next written => exact (deviceWrite_stored written).trans (State.store_stored ..)
    next => exact State.dropHint_stored ..

/-- A write of the device's keeps the harts. -/
theorem OnlyStored.keepsHarts {s t : State} (h : OnlyStored s t) : KeepsHarts s t ∧ t.hart.pending = s.hart.pending := by
  obtain ⟨hid, hart, others⟩ := (onlyQueues_of_stored h).harts
  exact ⟨keepsHarts_of_eq hid others hart, congrArg Hart.pending hart⟩

/-- `mhint` completes, without a store where the context has no hint ring. -/
theorem execMhint_spec (s : State) (rs1 rs2 : Reg) : ∃ t, exec (.mhint rs1 rs2) s = .next t ∧ MemRetired s t 0 0
    ∧ t.hart.pending = s.hart.pending
    ∧ ((s.x rs2).extractLsb' 0 2 = 3 ∨ rootOf s.hart.csr.ptroot = 0 ∨ s.ctxField (rootOf s.hart.csr.ptroot) 0x120 4 = 0 → t.mem = s.mem) := by
  have temp : bitsNat (s.x rs2) 0 2 = 3 ↔ (s.x rs2).extractLsb' 0 2 = 3 := (BitVec.toNat_inj (y := 3#2) :)
  refine ⟨_, rfl, ?_⟩
  simp only [temp]
  split
  next quiet => exact ⟨(keepsHarts_of_eq rfl rfl rfl).memRetired_advance, State.advance_pending s, fun _ => rfl⟩
  next loud =>
    obtain ⟨keeps, pending⟩ := (State.hint_stored s _ _).keepsHarts
    exact ⟨keeps.memRetired_advance, (State.advance_pending _).trans pending, fun quiet => absurd quiet loud⟩

/-! ### `launch` (R134 to R138) -/

section
variable {s : State} {rd rs1 : Reg} (allowed : s.hart.mode ≠ .u)
include allowed

/-- A record that cannot be read. -/
theorem execLaunch_unread (unread : s.launchRecord (s.x rs1).toNat = none) : exec (.launch rd rs1) s = s.writeRd rd 5 := by
  change execLaunch rd rs1 s = _
  unfold execLaunch
  extract_lets ctx
  rw [State.mode, if_neg allowed, unread]

variable {bs : List Byte} (read : s.launchRecord (s.x rs1).toNat = some bs)
include read

/-- A record is refused by its status, or its launch starts. -/
theorem execLaunch_read : exec (.launch rd rs1) s =
    if s.launchStatus bs (s.hart.csr.ctxid.extractLsb' 0 16) ≠ 0 then
      s.writeRd rd (BitVec.ofNat 64 (s.launchStatus bs (s.hart.csr.ctxid.extractLsb' 0 16)))
    else (s.startLaunch bs (s.hart.csr.ctxid.extractLsb' 0 16)).writeRd rd (BitVec.ofNat 64 (s.nextLaunch * 65536)) := by
  change execLaunch rd rs1 s = _
  unfold execLaunch
  extract_lets ctx
  rw [State.mode, if_neg allowed, read]

end

/-- A context that launches without BSP loses its pair; ids and other tables stay. -/
theorem State.unpairAtLaunch_next (s : State) (ctx : BitVec 16) (bsp : Bool) : (s.unpairAtLaunch ctx bsp).nextLaunch = s.nextLaunch := by
  unfold State.unpairAtLaunch
  split
  · rfl
  · split
    · rfl
    · obtain ⟨-, -, -, next, -⟩ := (s.unpair_dispatch ctx).rest
      exact next

/-- A context without a pair loses none. -/
theorem State.unpairAtLaunch_alone {s : State} {ctx : BitVec 16} (alone : ∀ c, s.ctx? ctx = some c → c.pairedWith = none) (bsp : Bool) :
    s.unpairAtLaunch ctx bsp = s := by
  have none_ : (s.ctx? ctx).bind Context.pairedWith = none := by
    cases found : s.ctx? ctx with
    | none => rfl
    | some c => exact alone c found
  rw [State.unpairAtLaunch, none_]

/-- JOIN_STAT leaves the launches. -/
theorem State.noteJoin_eq (s : State) : s.noteJoin.launches = s.launches ∧ s.noteJoin.nextLaunch = s.nextLaunch := by
  unfold State.noteJoin
  split
  · exact ⟨rfl, rfl⟩
  · exact ⟨rfl, rfl⟩

/-- A launch that starts takes its id, and the next follows, 0 skipped. -/
theorem State.startLaunch_next (s : State) (bs : List Byte) (ctx : BitVec 16) :
    (s.startLaunch bs ctx).nextLaunch = if s.nextLaunch = 0xFFFF then 1 else s.nextLaunch + 1 := by
  unfold State.startLaunch
  extract_lets l t
  rw [(State.noteJoin_eq _).2, State.unpairAtLaunch_next]

/-- Without a pair nothing else becomes of the launches. -/
theorem State.startLaunch_alone {s : State} {ctx : BitVec 16} (alone : ∀ c, s.ctx? ctx = some c → c.pairedWith = none) (bs : List Byte) :
    (s.startLaunch bs ctx).launches = s.launches ++ [s.newLaunch bs ctx] := by
  unfold State.startLaunch
  extract_lets l t
  rw [(State.noteJoin_eq _).1, State.unpairAtLaunch_alone (s := t) alone]

end Sys2Proof.Machine

namespace Sys2Proof.Proofs
open Sys2Proof Sys2Proof.Machine Sys2Proof.Safety

/-- Settles O45: `scall` is a check, a Publish and a ring write; `mprobe` is a walk; `mhint` stores alone; and `launch` is the status of its
record. -/
theorem kernelWords : Obligations.KernelWords := by
  intro s rd rs1 rs2 root ring a ctx die tctx
  refine ⟨fun mode => if_pos mode, fun user unnamed => ?_, fun user named u => ⟨fun c checked => execScall_refused user named checked,
    fun p checked => ⟨fun may full => execScall_waits user named checked may full, fun may room => ?_⟩⟩,
    ⟨s.probe a, writesRd_of_exec rfl, State.probe_beyond, fun below f fails => State.probe_fails below fails,
      fun below p level l found permitted r owned => State.probe_good below found permitted owned⟩,
    execMhint_spec s rs1 rs2, fun user => if_pos user, fun allowed => ⟨fun unread => writesRd_of_exec (execLaunch_unread allowed unread),
      fun bs read => ⟨fun refused => writesRd_of_exec ((execLaunch_read allowed read).trans (if_pos refused)), fun good => ?_⟩⟩⟩
  · exact (if_neg (not_not.2 user)).trans (if_pos unnamed)
  · obtain ⟨t, run, retired, pending, mem⟩ := execScall_appends user named checked may room
    exact ⟨t, run, retired.1, retired.2, pending, mem⟩
  · obtain ⟨t, run, wrote⟩ := State.writeRd_spec (s.startLaunch bs ctx) rd (BitVec.ofNat 64 (s.nextLaunch * 65536))
    have next : t.nextLaunch = (s.startLaunch bs ctx).nextLaunch := by have := congrArg State.nextLaunch wrote.device; exact this
    have launches : t.launches = (s.startLaunch bs ctx).launches := by have := congrArg State.launches wrote.device; exact this
    refine ⟨t, ((execLaunch_read allowed read).trans (if_neg (not_not.2 good))).trans run, wrote, next.trans (State.startLaunch_next s bs ctx),
      fun alone => ⟨s.newLaunch bs ctx, launches.trans (State.startLaunch_alone alone bs), rfl, rfl, rfl, rfl, rfl⟩⟩

end Sys2Proof.Proofs
end

section
/-! SUPPORT. Publishes of any hart, the release of a party and the end of a launch (R146, R155, R160, R219): what they leave. -/

namespace Sys2Proof.Machine
open Sys2Proof.Safety

/-! ### A Publish of any hart (R160) -/

/-- Hart `h` is as before but for pending stores, of which some are left, none without a purge; every other hart is as before. -/
structure Published (h : Nat) (s t : State) : Prop where
  device : ∃ u, OnlyHarts s u ∧ OnlyMemory u t
  self : ∃ p, p.Sublist (s.getHart h).pending ∧ (s.purging = [] → p = []) ∧ t.getHart h = { s.getHart h with pending := p }
  others : ∀ j, j ≠ h → t.getHart j = s.getHart j

/-- Nothing may be left to publish. -/
theorem published_of_empty {s : State} {h : Nat} (empty : s.purging = [] → (s.getHart h).pending = []) : Published h s s :=
  ⟨⟨s, rfl, rfl⟩, ⟨_, List.Sublist.refl _, empty, rfl⟩, fun _ _ => rfl⟩

/-- Pending stores of a hart reach its agent. -/
theorem State.publishNear_published (s : State) (h : Nat) : Published h s (s.publishNear h) := by
  have split_ := partition_filter (s.getHart h).pending (fun n => true && !s.heldByte n)
  have all (free : s.purging = []) (n : Nat) : (true && !s.heldByte n) = true := by rw [State.heldByte, free]; rfl
  unfold State.publishNear State.drainSome
  simp only [split_]
  split
  next none_ =>
    refine published_of_empty fun free => ?_
    simp only [all free, List.filter_true] at none_
    exact none_
  next =>
    have drained := State.drainOwn_only (s.setHart h { s.getHart h with
      pending := (s.getHart h).pending.filter (fun c => !(true && !s.heldByte c.1)) }) h ((s.getHart h).pending.filter (fun c => true && !s.heldByte c.1))
    refine ⟨⟨_, onlyHarts_setHart s h _, drained⟩, ⟨_, List.filter_sublist (p := fun c => !(true && !s.heldByte c.1)), fun free => ?_, ?_⟩, fun j other => ?_⟩
    · simp only [all free, Bool.not_true, List.filter_false]
    · rw [onlyMemory_getHart drained, State.getHart_setHart, if_pos rfl]
    · rw [onlyMemory_getHart drained, State.getHart_setHart, if_neg other]

/-- A Publish of any hart. -/
theorem State.publishHart_published (s : State) (h : Nat) : Published h s (s.publishHart h) := by
  obtain ⟨⟨u, harts, device⟩, ⟨p, sub, free, self⟩, others⟩ := s.publishNear_published h
  unfold State.publishHart
  extract_lets t
  split
  next k _ =>
    have back := State.writeBack_only t k (t.owes k h)
    exact ⟨⟨u, harts, onlyMemory_trans device back⟩, ⟨p, sub, free, (onlyMemory_getHart back h).trans self⟩,
      fun j other => (onlyMemory_getHart back j).trans (others j other)⟩
  next => exact ⟨⟨u, harts, device⟩, ⟨p, sub, free, self⟩, others⟩

/-- A change of harts alone leaves the tables. -/
theorem OnlyHarts.tables {s t : State} (h : OnlyHarts s t) : t.parties = s.parties ∧ t.contexts = s.contexts ∧ t.launches = s.launches
    ∧ t.cores = s.cores := by
  unfold OnlyHarts at h
  have parties := congrArg State.parties h
  have contexts := congrArg State.contexts h
  have launches := congrArg State.launches h
  have cores := congrArg State.cores h
  exact ⟨parties, contexts, launches, cores⟩

/-- So does one of memory alone. -/
theorem onlyMemory_tables {s t : State} (h : OnlyMemory s t) : t.parties = s.parties ∧ t.contexts = s.contexts ∧ t.launches = s.launches
    ∧ t.cores = s.cores := by
  unfold OnlyMemory at h
  have parties := congrArg State.parties h
  have contexts := congrArg State.contexts h
  have launches := congrArg State.launches h
  have cores := congrArg State.cores h
  exact ⟨parties, contexts, launches, cores⟩

/-- It leaves the tables. -/
theorem Published.dispatch {h : Nat} {s t : State} (published : Published h s t) : OnlyDispatch s t ∧ t.parties = s.parties
    ∧ t.contexts = s.contexts ∧ t.launches = s.launches ∧ t.cores = s.cores := by
  obtain ⟨⟨u, harts, memory⟩, -, -⟩ := published
  obtain ⟨parties, contexts, launches, cores⟩ := harts.tables
  obtain ⟨parties', contexts', launches', cores'⟩ := onlyMemory_tables memory
  exact ⟨harts.dispatch.trans (dispatch_of_only memory), parties'.trans parties, contexts'.trans contexts, launches'.trans launches,
    cores'.trans cores⟩

/-! ### What clearing a party leaves (R146, R219) -/

/-- A change of a launch that leaves its id, its context, its end, and what it has sent and retired. -/
structure Settles (g : Launch → Launch) : Prop where
  keeps : KeepsLaunch g
  counts : ∀ l, (g l).retired = l.retired ∧ (g l).sent = l.sent

/-- One such change after another. -/
theorem Settles.comp {f g : Launch → Launch} (hf : Settles f) (hg : Settles g) : Settles (f ∘ g) where
  keeps := hf.keeps.comp hg.keeps
  counts l := by
    obtain ⟨retired, sent⟩ := hf.counts (g l)
    obtain ⟨retired', sent'⟩ := hg.counts l
    exact ⟨retired.trans retired', sent.trans sent'⟩

/-- The same of the launches with one id. -/
theorem Settles.only {f : Launch → Launch} (same : Settles f) (id : Nat) : Settles (mapOnly id f) where
  keeps := same.keeps.only id
  counts l := by
    unfold mapOnly
    split
    · exact same.counts l
    · exact ⟨rfl, rfl⟩

/-- Parties and contexts stay; the launches are settled. -/
structure Clears (s t : State) : Prop where
  only : OnlyDispatch s t
  parties : t.parties = s.parties
  contexts : t.contexts = s.contexts
  launches : ∃ g, Settles g ∧ t.launches = s.launches.map g

/-- Launches that are as they were are settled. -/
theorem settled_of_eq {s t : State} (h : t.launches = s.launches) : ∃ g, Settles g ∧ t.launches = s.launches.map g :=
  ⟨fun l => l, ⟨fun _ => ⟨rfl, rfl, rfl⟩, fun _ => ⟨rfl, rfl⟩⟩, h.trans (List.map_id _).symm⟩

/-- One settling after another. -/
theorem settled_trans {s t u : State} (h : ∃ g, Settles g ∧ t.launches = s.launches.map g)
    (k : ∃ g, Settles g ∧ u.launches = t.launches.map g) : ∃ g, Settles g ∧ u.launches = s.launches.map g := by
  obtain ⟨g, settles, launches⟩ := h
  obtain ⟨f, settles', launches'⟩ := k
  exact ⟨f ∘ g, settles'.comp settles, by rw [launches', launches, List.map_map]⟩

/-- One clearing after another. -/
theorem Clears.trans {s t u : State} (h : Clears s t) (k : Clears t u) : Clears s u :=
  ⟨h.only.trans k.only, k.parties.trans h.parties, k.contexts.trans h.contexts, settled_trans h.launches k.launches⟩

/-- Nothing changed. -/
theorem Clears.refl (s : State) : Clears s s := ⟨rfl, rfl, rfl, settled_of_eq rfl⟩

/-- A fold whose every step is a clearing. -/
theorem clears_foldl {α : Type} {f : State → α → State} (step : ∀ s a, Clears s (f s a)) (l : List α) (s : State) : Clears s (l.foldl f s) := by
  induction l generalizing s with
  | nil => exact .refl s
  | cons a l ih => exact (step s a).trans (ih _)

/-- A Publish of a hart is one. -/
theorem Published.clears {h : Nat} {s t : State} (published : Published h s t) : Clears s t := by
  obtain ⟨only, parties, contexts, launches, -⟩ := published.dispatch
  exact ⟨only, parties, contexts, settled_of_eq launches⟩

/-- A hart set is one. -/
theorem clears_setHart (s : State) (h : Nat) (x : Hart) : Clears s (s.setHart h x) := by
  obtain ⟨parties, contexts, launches, -⟩ := (onlyHarts_setHart s h x).tables
  exact ⟨(onlyHarts_setHart s h x).dispatch, parties, contexts, settled_of_eq launches⟩

/-- A delivery is one. -/
theorem OnlyQueues.clears {s t : State} (h : OnlyQueues s t) : Clears s t := by
  obtain ⟨parties, launches, contexts, -⟩ := h.tables
  exact ⟨h.dispatch, parties, contexts, settled_of_eq launches⟩

/-- What a queue that is dropped leaves of a launch. -/
def Launch.dropQueue (s : State) (c n : Nat) (l : Launch) : Launch :=
  if l.ended.isNone && l.clusters.contains (clusterOfCore c) then
    { l with received := l.received + s.onWay l c n, appends := l.appends.filter (fun a => !(a.2.1 == c && a.2.2.1 == n)) }
  else l

/-- A queue dropped. -/
theorem State.dropQueue_clears (s : State) (c n : Nat) : Clears s (s.dropQueue c n) := by
  refine ⟨rfl, rfl, rfl, Launch.dropQueue s c n, ⟨fun l => ?_, fun l => ?_⟩, rfl⟩
  · unfold Launch.dropQueue
    split
    · exact ⟨rfl, rfl, rfl⟩
    · exact ⟨rfl, rfl, rfl⟩
  · unfold Launch.dropQueue
    split
    · exact ⟨rfl, rfl⟩
    · exact ⟨rfl, rfl⟩

/-- The queues of a party dropped. -/
theorem State.dropQueues_clears (s : State) (p : Party) : Clears s (s.dropQueues p) :=
  clears_foldl (fun s n => by
    split
    · exact State.dropQueue_clears ..
    · exact .refl s) _ s

/-- An inbox purged. -/
theorem State.purgeInbox_clears (s : State) (c n : Nat) : Clears s (s.purgeInbox c n) :=
  ((State.onlyQueues_mapQueue s c n _).trans ((State.refill_only ..).trans (State.serveRequests_only ..))).clears

/-- The rest of a party's place cleared. -/
def State.clearRest (s : State) (p : Party) : State :=
  let s := p.spad.foldl (fun s e => s.clearExtent p.core e) s
  let s := p.hamper.foldl (fun s g => s.clearSegment (clusterOfCore p.core) g) s
  let s := s.dropQueues p
  let s := s.setCore p.core { s.core p.core with tags := (s.core p.core).tags.filter (fun t => t.party ≠ p.id) }
  p.slots.foldl (fun s n => s.purgeInbox p.core n) s

/-- The harts of a party are reset first. -/
theorem State.clearPlace_eq (s : State) (p : Party) :
    s.clearPlace p = (p.harts.foldl (fun s h => (s.publishHart h).setHart h Hart.reset) s).clearRest p := rfl

/-- An extent cleared. -/
theorem State.clearExtent_clears (s : State) (c e : Nat) : Clears s (s.clearExtent c e) := ⟨rfl, rfl, rfl, settled_of_eq rfl⟩

/-- A segment cleared. -/
theorem State.clearSegment_clears (s : State) (k g : Nat) : Clears s (s.clearSegment k g) := ⟨rfl, rfl, rfl, settled_of_eq rfl⟩

/-- A core written. -/
theorem clears_setCore (s : State) (c : Nat) (x : Core) : Clears s (s.setCore c x) := ⟨rfl, rfl, rfl, settled_of_eq rfl⟩

/-- The rest of a party's place cleared. -/
theorem State.clearRest_clears (s : State) (p : Party) : Clears s (s.clearRest p) := by
  unfold State.clearRest
  extract_lets t u v x w
  have spad : Clears s t := clears_foldl (fun s e => State.clearExtent_clears s p.core e) _ s
  have hamper : Clears t u := clears_foldl (fun s g => State.clearSegment_clears s (clusterOfCore p.core) g) _ t
  have dropped : Clears u v := State.dropQueues_clears u p
  have tags : Clears v w := clears_setCore ..
  exact (((spad.trans hamper).trans dropped).trans tags).trans (clears_foldl (fun s n => State.purgeInbox_clears s p.core n) _ w)

/-- A party's place cleared. -/
theorem State.clearPlace_clears (s : State) (p : Party) : Clears s (s.clearPlace p) := by
  rw [State.clearPlace_eq]
  exact (clears_foldl (fun s h => (State.publishHart_published s h).clears.trans (clears_setHart _ h Hart.reset)) _ s).trans (State.clearRest_clears ..)

/-! ### The harts of a party that is cleared -/

/-- The harts are as they were. -/
def SameHarts (s t : State) : Prop := t.hid = s.hid ∧ t.hart = s.hart ∧ t.others = s.others

/-- One such change after another. -/
theorem SameHarts.trans {s t u : State} (h : SameHarts s t) (k : SameHarts t u) : SameHarts s u := by
  obtain ⟨hid, hart, others⟩ := h
  obtain ⟨hid', hart', others'⟩ := k
  exact ⟨hid'.trans hid, hart'.trans hart, others'.trans others⟩

/-- Nothing changed. -/
theorem SameHarts.refl (s : State) : SameHarts s s := ⟨rfl, rfl, rfl⟩

/-- A fold whose every step is such a change. -/
theorem sameHarts_foldl {α : Type} {f : State → α → State} (step : ∀ s a, SameHarts s (f s a)) (l : List α) (s : State) :
    SameHarts s (l.foldl f s) := by
  induction l generalizing s with
  | nil => exact .refl s
  | cons a l ih => exact (step s a).trans (ih _)

/-- Each hart is then as it was. -/
theorem SameHarts.getHart {s t : State} (h : SameHarts s t) (j : Nat) : t.getHart j = s.getHart j := by
  obtain ⟨hid, hart, others⟩ := h
  exact getHart_congr hid hart others j

/-- An extent cleared leaves the harts. -/
theorem State.clearExtent_harts (s : State) (c e : Nat) : SameHarts s (s.clearExtent c e) := ⟨rfl, rfl, rfl⟩

/-- A segment cleared leaves the harts. -/
theorem State.clearSegment_harts (s : State) (k g : Nat) : SameHarts s (s.clearSegment k g) := ⟨rfl, rfl, rfl⟩

/-- A queue dropped leaves the harts. -/
theorem State.dropQueue_harts (s : State) (c n : Nat) : SameHarts s (s.dropQueue c n) := ⟨rfl, rfl, rfl⟩

/-- The queues of a party dropped leave the harts. -/
theorem State.dropQueues_harts (s : State) (p : Party) : SameHarts s (s.dropQueues p) :=
  sameHarts_foldl (fun s n => by
    split
    · exact State.dropQueue_harts ..
    · exact .refl s) _ s

/-- A core written leaves the harts. -/
theorem State.setCore_harts (s : State) (c : Nat) (x : Core) : SameHarts s (s.setCore c x) := ⟨rfl, rfl, rfl⟩

/-- An inbox purged leaves the harts. -/
theorem State.purgeInbox_harts (s : State) (c n : Nat) : SameHarts s (s.purgeInbox c n) :=
  ((State.onlyQueues_mapQueue s c n _).trans ((State.refill_only ..).trans (State.serveRequests_only ..))).harts

/-- The rest of a party's place cleared leaves the harts. -/
theorem State.clearRest_harts (s : State) (p : Party) : SameHarts s (s.clearRest p) := by
  unfold State.clearRest
  extract_lets t u v x w
  have spad : SameHarts s t := sameHarts_foldl (fun s e => State.clearExtent_harts s p.core e) _ s
  have hamper : SameHarts t u := sameHarts_foldl (fun s g => State.clearSegment_harts s (clusterOfCore p.core) g) _ t
  have dropped : SameHarts u v := State.dropQueues_harts u p
  have tags : SameHarts v w := State.setCore_harts ..
  exact (((spad.trans hamper).trans dropped).trans tags).trans (sameHarts_foldl (fun s n => State.purgeInbox_harts s p.core n) _ w)

/-- Harts published and reset, one after another. -/
theorem getHart_resets (l : List Nat) (s : State) (j : Nat) :
    (l.foldl (fun s h => (s.publishHart h).setHart h Hart.reset) s).getHart j = if j ∈ l then Hart.reset else s.getHart j := by
  induction l generalizing s with
  | nil => rfl
  | cons h l ih =>
    rw [List.foldl_cons, ih, State.getHart_setHart]
    by_cases same : j = h
    · subst same
      simp only [if_true, List.mem_cons_self, ite_self]
    · simp only [same, if_false, List.mem_cons, false_or, (s.publishHart_published h).others j same]

/-- The harts of a party that is cleared are reset. -/
theorem State.clearPlace_getHart (s : State) (p : Party) (j : Nat) :
    (s.clearPlace p).getHart j = if j ∈ p.harts then Hart.reset else s.getHart j := by
  rw [State.clearPlace_eq, (State.clearRest_harts ..).getHart, getHart_resets]

/-! ### The release of a party (R146, R147) -/

/-- What a launch keeps of a party that is released. -/
def Party.leaves (p : Party) (l : Launch) : Launch :=
  { l with deadTags := l.deadTags ++ p.faultTags, arrivals := l.arrivals.filter (fun a => !p.harts.contains a.1) }

/-- It is settled. -/
theorem Party.settles_leaves (p : Party) : Settles p.leaves := ⟨fun _ => ⟨rfl, rfl, rfl⟩, fun _ => ⟨rfl, rfl⟩⟩

/-- The party leaves the table and the launches are settled; contexts stay. -/
structure Releases (id : Nat) (s t : State) : Prop where
  only : OnlyDispatch s t
  parties : t.parties = s.parties.filter (fun q => q.id ≠ id)
  contexts : t.contexts = s.contexts
  launches : ∃ g, Settles g ∧ t.launches = s.launches.map g

/-- After a clearing. -/
theorem Clears.releases {id : Nat} {s t u : State} (h : Clears s t) (k : Releases id t u) : Releases id s u :=
  ⟨h.only.trans k.only, k.parties.trans (congrArg _ h.parties), k.contexts.trans h.contexts, settled_trans h.launches k.launches⟩

/-- The party is found no more. -/
theorem Releases.gone {id : Nat} {s t : State} (h : Releases id s t) : t.party? id = none := by
  refine List.find?_eq_none.2 fun q there found => ?_
  rw [h.parties] at there
  obtain ⟨-, other⟩ := List.mem_filter.1 there
  exact (of_decide_eq_true other) (beq_iff_eq.1 found)

/-- The place of a party that is not saved is cleared. -/
def State.vacate (s : State) (p : Party) : State := if p.savedHarts.isEmpty then s.clearPlace p else s

/-- What follows when a party is released, its place cleared. -/
def State.strike (s : State) (p : Party) : State :=
  let s := s.mapLaunch p.launch p.leaves
  let s := { s with
    parties := s.parties.filter (fun q => q.id ≠ p.id)
    waiters := s.waiters.filter (fun w => !(p.savedHarts.isEmpty && p.harts.contains w.hart)) }
  let k := clusterOfCore p.core
  let c := s.cluster k
  let s := if p.savedHarts.isEmpty then s.setCluster k { c with requests := c.requests.filter (fun r => !p.harts.contains r.hart) } else s
  if c.requests.isEmpty then s else s.raise (.acqGrant k)

/-- A release is the one, then the other. -/
theorem State.releaseParty_eq (s : State) (p : Party) : s.releaseParty p = (s.vacate p).strike p := rfl

/-- A place left is a clearing. -/
theorem State.vacate_clears (s : State) (p : Party) : Clears s (s.vacate p) := by
  unfold State.vacate
  split
  · exact State.clearPlace_clears s p
  · exact .refl s

/-- A party struck off. -/
theorem State.strike_releases (s : State) (p : Party) : Releases p.id s (s.strike p) := by
  have launches : ∃ g, Settles g ∧ (s.mapLaunch p.launch p.leaves).launches = s.launches.map g :=
    ⟨_, p.settles_leaves.only p.launch, s.mapLaunch_launches p.launch p.leaves⟩
  unfold State.strike
  extract_lets t u k c v
  have struck : Releases p.id s u := ⟨rfl, rfl, rfl, launches⟩
  have asked : Releases p.id s v := by
    unfold v
    split
    · exact ⟨rfl, rfl, rfl, launches⟩
    · exact struck
  split
  · exact asked
  · exact ⟨asked.only, asked.parties, asked.contexts, asked.launches⟩

/-- It leaves the harts. -/
theorem State.strike_harts (s : State) (p : Party) : SameHarts s (s.strike p) := by
  unfold State.strike
  extract_lets t u k c v
  have asked : SameHarts s v := by
    unfold v
    split
    · exact ⟨rfl, rfl, rfl⟩
    · exact ⟨rfl, rfl, rfl⟩
  split
  · exact asked
  · exact asked

/-- A party released. -/
theorem State.releaseParty_releases (s : State) (p : Party) : Releases p.id s (s.releaseParty p) :=
  (s.vacate_clears p).releases (State.strike_releases ..)

/-- Its harts are reset when it is not saved. -/
theorem State.releaseParty_getHart (s : State) {p : Party} (here : p.savedHarts = []) (j : Nat) :
    (s.releaseParty p).getHart j = if j ∈ p.harts then Hart.reset else s.getHart j := by
  rw [State.releaseParty_eq, (State.strike_harts ..).getHart, State.vacate, here, List.isEmpty_nil, if_pos rfl, State.clearPlace_getHart]

/-! ### SCRUBBING (R219, R293) -/

/-- A collective that a command leaves. -/
theorem State.loseCollective_clears (s : State) (c : Command) : Clears s (s.loseCollective c) := by
  unfold State.loseCollective
  split
  · extract_lets others
    rw [foldl_raise]
    exact ⟨rfl, rfl, rfl, settled_of_eq rfl⟩
  · exact .refl s

/-- A lease that passes. -/
theorem State.leaseCheck_clears (s : State) (k : Nat) : Clears s (s.leaseCheck k) := by
  unfold State.leaseCheck
  extract_lets c
  split
  · split
    · exact ⟨rfl, rfl, rfl, settled_of_eq rfl⟩
    · exact .refl s
  · exact .refl s

/-- A party scrubbed. -/
theorem State.scrubParty_releases (s : State) (p : Party) : Releases p.id s (s.scrubParty p) := by
  unfold State.scrubParty
  extract_lets gone t u
  have engines : Clears s t := ⟨rfl, rfl, rfl, settled_of_eq rfl⟩
  have leases : Clears t u := clears_foldl (fun s (c : Command) => by
    split
    · exact State.leaseCheck_clears ..
    · exact .refl s) gone t
  exact ((engines.trans leases).trans (clears_foldl State.loseCollective_clears gone u)).releases (State.releaseParty_releases ..)

/-! ### The end of a launch (R155) -/

/-- The launches are settled, whatever becomes of parties and contexts. -/
structure Winds (s t : State) : Prop where
  only : OnlyDispatch s t
  launches : ∃ g, Settles g ∧ t.launches = s.launches.map g

/-- A clearing is one. -/
theorem Clears.winds {s t : State} (h : Clears s t) : Winds s t := ⟨h.only, h.launches⟩

/-- A release is one. -/
theorem Releases.winds {id : Nat} {s t : State} (h : Releases id s t) : Winds s t := ⟨h.only, h.launches⟩

/-- One after another. -/
theorem Winds.trans {s t u : State} (h : Winds s t) (k : Winds t u) : Winds s u := ⟨h.only.trans k.only, settled_trans h.launches k.launches⟩

/-- A fold whose every step is one. -/
theorem winds_foldl {α : Type} {f : State → α → State} (step : ∀ s a, Winds s (f s a)) (l : List α) (s : State) : Winds s (l.foldl f s) := by
  induction l generalizing s with
  | nil => exact (Clears.refl s).winds
  | cons a l ih => exact (step s a).trans (ih _)

/-- A party killed. -/
theorem State.killParty_winds (s : State) (id : Nat) : Winds s (s.killParty id) := by
  unfold State.killParty
  split
  · exact (Clears.refl s).winds
  · split
    · exact ⟨rfl, settled_of_eq rfl⟩
    · exact (State.scrubParty_releases ..).winds

/-- A launch with an id that has not ended is one that is found. -/
theorem launch?_isSome {s : State} {id : Nat} : (∃ m, s.launch? id = some m) ↔ ∃ m ∈ s.launches, m.id = id ∧ m.ended = none := by
  constructor
  · rintro ⟨m, found⟩
    exact ⟨m, launch?_some found⟩
  · rintro ⟨m, there, here, live⟩
    refine Option.isSome_iff_exists.1 (List.find?_isSome.2 ⟨m, there, ?_⟩)
    rw [here, live, beq_self_eq_true]
    rfl

/-- What the launches are wound to before a launch ends. -/
def State.windLaunch (s : State) (id : Nat) : State :=
  let ps := s.parties.filter (fun p => p.launch == id)
  let s := ((ps.filter (fun p => p.savedHarts.isEmpty)).flatMap Party.harts).foldl (fun s h => s.publishHart h) s
  ps.foldl (fun s p => s.killParty p.id) s

/-- The launches are settled by it. -/
theorem State.windLaunch_winds (s : State) (id : Nat) : Winds s (s.windLaunch id) := by
  unfold State.windLaunch
  extract_lets ps t
  have published : Winds s t := (clears_foldl (fun s h => (State.publishHart_published s h).clears) _ s).winds
  exact published.trans (winds_foldl (fun s p => State.killParty_winds s p.id) ps t)

/-- A launch marked as ended, its context and its collectives with it. -/
def State.markEnd (s : State) (id : Nat) (ctx : BitVec 16) (st : LaunchStatus) : State :=
  let s := s.mapLaunch id (fun l => { l with ended := some st })
  let s := s.mapCtx ctx (fun c => { c with stopReq := none, midExchange := false, lines := [] })
  { s with broken := s.broken.filter (fun b => b.key.1 != some id) }

/-- That is the launch's table, its context's and its collectives'. -/
theorem State.markEnd_dispatch (s : State) (id : Nat) (ctx : BitVec 16) (st : LaunchStatus) : OnlyDispatch s (s.markEnd id ctx st) := rfl

/-- The end of a launch in three steps. -/
theorem State.endLaunch_found {s : State} {id : Nat} {l : Launch} (found : s.launch? id = some l) (st : LaunchStatus) :
    s.endLaunch id st = ((s.windLaunch id).markEnd id l.ctx st).tellEnd id := by
  unfold State.endLaunch
  rw [found]
  rfl

/-- What tells of an end. -/
theorem State.tellEnd_dispatch (s : State) (id : Nat) : OnlyDispatch s (s.tellEnd id) := by
  unfold State.tellEnd
  split
  · rfl
  next l _ =>
    split
    · rfl
    · extract_lets u v e w
      have marked : OnlyDispatch s v := OnlyDispatch.trans (t := u) rfl rfl
      have told : OnlyDispatch s w := by
        unfold w
        split
        · split
          · exact marked.trans (State.notice_only ..).dispatch
          · exact marked
        · exact marked
      exact told.trans (State.notice_only ..).dispatch

/-- The end of a launch leaves the clock, the ids and the service registers. -/
theorem State.endLaunch_dispatch (s : State) (id : Nat) (st : LaunchStatus) : OnlyDispatch s (s.endLaunch id st) := by
  cases found : s.launch? id with
  | none =>
    rw [State.endLaunch, found]
    rfl
  | some l =>
    rw [State.endLaunch_found found]
    exact ((State.windLaunch_winds s id).only.trans (State.markEnd_dispatch ..)).trans (State.tellEnd_dispatch ..)

/-- A launch that is marked has ended. -/
theorem State.markEnd_ended {s : State} {id : Nat} (live : ∃ m, s.launch? id = some m) (ctx : BitVec 16) (st : LaunchStatus) :
    Ended (s.markEnd id ctx st) id st := by
  refine ⟨State.launch?_ended s id st, ?_⟩
  obtain ⟨m, there, here, ended⟩ := launch?_isSome.1 live
  refine ⟨{ m with ended := some st }, List.mem_map.2 ⟨m, there, ?_⟩, here, rfl⟩
  exact if_pos ⟨here, ended⟩

/-- Telling of an end leaves it. -/
theorem State.tellEnd_ended {s : State} {id : Nat} {st : LaunchStatus} (ended : Ended s id st) : Ended (s.tellEnd id) id st := by
  obtain ⟨g, same, launches⟩ := s.tellEnd_launches id
  obtain ⟨none_, m, there, here, how⟩ := ended
  obtain ⟨id', -, ended'⟩ := same m
  refine ⟨?_, g m, ?_, id'.trans here, ended'.trans how⟩
  · rw [launch?_map launches same, none_]
    rfl
  · rw [launches]
    exact List.mem_map_of_mem there

/-- A launch found through settled launches. -/
theorem launch?_settled {s t : State} (h : ∃ g, Settles g ∧ t.launches = s.launches.map g) {id : Nat} {l : Launch}
    (found : s.launch? id = some l) : ∃ m, t.launch? id = some m ∧ m.retired = l.retired := by
  obtain ⟨g, settles, launches⟩ := h
  exact ⟨g l, by rw [launch?_map launches settles.keeps, found]; rfl, (settles.counts l).1⟩

/-- A launch that is ended has ended with its status (R155). -/
theorem State.endLaunch_ended {s : State} {id : Nat} {l : Launch} (found : s.launch? id = some l) (st : LaunchStatus) :
    Ended (s.endLaunch id st) id st := by
  obtain ⟨m, live, -⟩ := launch?_settled (State.windLaunch_winds s id).launches found
  rw [State.endLaunch_found found]
  exact State.tellEnd_ended (State.markEnd_ended ⟨m, live⟩ l.ctx st)

end Sys2Proof.Machine
end

section
/-! SUPPORT. The events of a launch's own table (R137, R143, R149, R154, R385): sweeps, ends, initial tasks, samples and joins. -/

namespace Sys2Proof.Machine
open Sys2Proof.Safety

/-! ### The sweeps (R149, R154) -/

/-- A gang stop leaves the launches. -/
theorem State.gangStop_launches (s : State) (ctx : BitVec 16) (reason : Nat) (d : Option (List Byte)) :
    (s.gangStop ctx reason d).launches = s.launches := by
  unfold State.gangStop
  split
  · rfl
  next c _ =>
    split
    · rfl
    · extract_lets sstep u v w x y
      have harts : u.launches = s.launches := (onlyHarts_foldl (fun _ x => x.complete) _ s).tables.2.2.1
      have traced : x.launches = w.launches :=
        (onlyQueues_of_stored (onlyStored_foldl (fun s k => State.trace_stored s c.root _) _ w)).tables.2.1
      have told : y.launches = x.launches := by
        unfold y
        split
        · exact (onlyQueues_of_stored (State.trace_stored ..)).tables.2.1
        · rfl
      exact ((onlyQueues_of_stored (State.trace_stored y c.root _)).tables.2.1.trans told).trans (traced.trans harts)

section
variable {s : State} {l : Launch} (found : s.launch? l.id = some l)
include found

/-- The sweep of a launch, by what it finds. -/
theorem execHeadcountSweep_runs : exec (.headcountSweep l.id) s =
    if s.farReady l = false then .next { s with choices := s.choices + 1 }
    else if s.allIdle l then
      if l.sweep = some (l.sent, l.received) ∧ l.sent = l.received then .next (s.raise (.launchEnd l.id))
      else .next (s.mapLaunch l.id (fun l => { l with sweep := some (l.sent, l.received), stallSeen := false }))
    else if s.stuck l then
      if l.stallSeen then .next ((s.gangStop l.ctx 5 none).endLaunch l.id .stalled)
      else .next (s.mapLaunch l.id (fun l => { l with sweep := none, stallSeen := true }))
    else .next (s.mapLaunch l.id (fun l => { l with sweep := none, stallSeen := false })) := by
  change execHeadcountSweep l.id s = _
  rw [execHeadcountSweep, found]

/-- A launch changed is found as it is then. -/
theorem launch?_mapLaunch_found {f : Launch → Launch} (same : KeepsLaunch f) : (s.mapLaunch l.id f).launch? l.id = some (f l) := by
  rw [State.launch?_mapLaunch s l.id same, found]
  rfl

variable (ready : s.farReady l = true)
include ready

/-- An idle launch whose counts have changed is looked at again. -/
theorem execHeadcountSweep_notes (idle : s.allIdle l = true) (new : l.sweep ≠ some (l.sent, l.received)) :
    ∃ t m, exec (.headcountSweep l.id) s = .next t ∧ t.launch? l.id = some m ∧ m.sweep = some (l.sent, l.received) := by
  have run := execHeadcountSweep_runs found
  rw [if_neg fun no => absurd (ready.symm.trans no) (by decide), if_pos idle, if_neg fun h => new h.1] at run
  exact ⟨_, _, run, launch?_mapLaunch_found found (by intro; exact ⟨rfl, rfl, rfl⟩), rfl⟩

/-- An idle launch that two sweeps find alike ends. -/
theorem execHeadcountSweep_ends (idle : s.allIdle l = true) (balanced : l.sent = l.received) (same : l.sweep = some (l.sent, l.received)) :
    exec (.headcountSweep l.id) s = .next { s with events := s.events ++ [.launchEnd l.id] } := by
  have run := execHeadcountSweep_runs found
  rw [if_neg fun no => absurd (ready.symm.trans no) (by decide), if_pos idle, if_pos ⟨same, balanced⟩] at run
  exact run

variable (busy : s.allIdle l = false)
include busy

/-- A launch found stuck twice is stalled (R149). -/
theorem execHeadcountSweep_stalls (stuck : s.stuck l = true) (seen : l.stallSeen = true) :
    ∃ t, exec (.headcountSweep l.id) s = .next t ∧ Ended t l.id .stalled := by
  have run := execHeadcountSweep_runs found
  rw [if_neg fun no => absurd (ready.symm.trans no) (by decide), if_neg (Bool.eq_false_iff.1 busy), if_pos stuck, if_pos seen] at run
  exact ⟨_, run, State.endLaunch_ended ((congrArg (List.find? _) (State.gangStop_launches ..)).trans found) .stalled⟩

/-- A launch that goes on is looked at anew. -/
theorem execHeadcountSweep_clears (free : s.stuck l = false) :
    ∃ t m, exec (.headcountSweep l.id) s = .next t ∧ t.launch? l.id = some m ∧ m.sweep = none := by
  have run := execHeadcountSweep_runs found
  rw [if_neg fun no => absurd (ready.symm.trans no) (by decide), if_neg (Bool.eq_false_iff.1 busy), if_neg (Bool.eq_false_iff.1 free)] at run
  exact ⟨_, _, run, launch?_mapLaunch_found found (by intro; exact ⟨rfl, rfl, rfl⟩), rfl⟩

end

/-! ### The end of a launch (R154, R155) -/

/-- A launch without parties is marked at once. -/
theorem State.windLaunch_alone {s : State} {l : Launch} (idle : s.allIdle l = true) : s.windLaunch l.id = s ∧ s.parties.any (fun p => p.launch == l.id) = false := by
  have alone : s.parties.any (fun p => p.launch == l.id) = false := by
    rw [State.allIdle, Bool.and_eq_true, Bool.and_eq_true, Bool.and_eq_true] at idle
    obtain ⟨⟨⟨alone, -⟩, -⟩, -⟩ := idle
    exact (Bool.not_eq_true' _).mp alone
  have none_ : s.parties.filter (fun p => p.launch == l.id) = [] :=
    List.filter_eq_nil_iff.2 fun p there same => Bool.false_ne_true (alone.symm.trans (List.any_eq_true.2 ⟨p, there, same⟩))
  refine ⟨?_, alone⟩
  rw [State.windLaunch, none_]
  rfl

section
variable {s : State} {l : Launch} (found : s.launch? l.id = some l)
include found

/-- LAUNCH_END. -/
theorem execLaunchEnd_runs : exec (.launchEnd l.id) s =
    .next (if s.allIdle l = true ∧ l.sent = l.received then s.endLaunch l.id .complete else s) := by
  change execLaunchEnd l.id s = _
  rw [execLaunchEnd, found]

end

/-- A 16-bit field of a number's word. -/
theorem toNat_extractLsb'_ofNat {w n : Nat} (fits : n < 2 ^ w) (lo : Nat) : ((BitVec.ofNat w n).extractLsb' lo 16).toNat = n / 2 ^ lo % 2 ^ 16 := by
  rw [BitVec.extractLsb'_toNat, Nat.shiftRight_eq_div_pow, BitVec.toNat_ofNat, Nat.mod_eq_of_lt fits]

/-- The fields of an entry of the hardware's (Table 14-1). -/
theorem inboxEntry_fields (typ status : Nat) (tag : BitVec 16) (source : Nat) (word1 : Word) (payload : BitVec 128) :
    (inboxEntry typ status tag source word1 payload).extractLsb' 0 16 = BitVec.ofNat 16 typ
    ∧ (inboxEntry typ status tag source word1 payload).extractLsb' 16 16 = BitVec.ofNat 16 status
    ∧ (inboxEntry typ status tag source word1 payload).extractLsb' 32 16 = tag := by
  have small := tag.isLt
  have word := word1.isLt
  have load := payload.isLt
  have field (lo : Nat) : ((inboxEntry typ status tag source word1 payload).extractLsb' lo 16).toNat
      = (typ % 65536 + status % 65536 * 2 ^ 16 + tag.toNat * 2 ^ 32 + source % 65536 * 2 ^ 48 + word1.toNat * 2 ^ 64
        + payload.toNat * 2 ^ 128) / 2 ^ lo % 2 ^ 16 := by
    have fits : typ % 65536 + status % 65536 * 2 ^ 16 + tag.toNat * 2 ^ 32 + source % 65536 * 2 ^ 48 + word1.toNat * 2 ^ 64
        + payload.toNat * 2 ^ 128 < 2 ^ 256 := by omega
    exact toNat_extractLsb'_ofNat (lt_of_lt_of_le fits (Nat.pow_le_pow_right Nat.two_pos (by decide))) lo
  refine ⟨BitVec.eq_of_toNat_eq ?_, BitVec.eq_of_toNat_eq ?_, BitVec.eq_of_toNat_eq ?_⟩
  · rw [field, BitVec.toNat_ofNat]
    omega
  · rw [field, BitVec.toNat_ofNat]
    omega
  · rw [field]
    omega

/-- The end of a launch without parties is told to the hart that submitted it, and to no rank where its record names none. -/
theorem State.tellEnd_notice {s : State} {id : Nat} {l : Launch}
    (ended : s.launches.find? (fun l => l.id == id && l.ended.isSome && !l.told) = some l)
    (alone : s.parties.any (fun p => p.launch == id) = false) (nobody : l.ranks ≤ l.completion) :
    ∃ u : State, u.cores = s.cores ∧ s.tellEnd id = u.notice l.submitter (launchEndEntry l (l.ended.getD .complete)) := by
  unfold State.tellEnd
  rw [ended]
  dsimp only
  rw [if_neg (Bool.eq_false_iff.1 alone), if_neg fun h => absurd h.1 (Nat.not_lt.2 nobody)]
  refine ⟨_, ?_, rfl⟩
  rfl

section
variable {s : State} {l : Launch} (found : s.launch? l.id = some l) (alone : ∀ m ∈ s.launches, m.id = l.id → m = l)
include found alone

/-- A launch that was marked as ended is the one whose end is told. -/
theorem State.markEnd_found (untold : l.told = false) (ctx : BitVec 16) (st : LaunchStatus) :
    (s.markEnd l.id ctx st).launches.find? (fun m => m.id == l.id && m.ended.isSome && !m.told) = some { l with ended := some st } := by
  obtain ⟨there, -, live⟩ := launch?_some found
  have marked : { l with ended := some st } ∈ (s.markEnd l.id ctx st).launches :=
    List.mem_map.2 ⟨l, there, if_pos ⟨rfl, live⟩⟩
  have shown : ({ l with ended := some st } : Launch).told = false := untold
  obtain ⟨m, first⟩ : ∃ m, (s.markEnd l.id ctx st).launches.find? (fun m => m.id == l.id && m.ended.isSome && !m.told) = some m := by
    refine Option.isSome_iff_exists.1 (List.find?_isSome.2 ⟨_, marked, ?_⟩)
    simp only [beq_self_eq_true, Option.isSome_some, untold, Bool.not_false, Bool.and_self]
  obtain ⟨k, kept, rfl⟩ := List.mem_map.1 (List.mem_of_find?_eq_some first)
  have here := List.find?_some (p := fun m : Launch => m.id == l.id && m.ended.isSome && !m.told) first
  rw [Bool.and_eq_true, Bool.and_eq_true, beq_iff_eq] at here
  obtain ⟨⟨same, -⟩, -⟩ := here
  have id : k.id = l.id := by
    split at same
    · exact same
    · exact same
  obtain rfl := alone k kept id
  exact first.trans (congrArg some (if_pos ⟨rfl, live⟩))

omit found alone in
/-- An entry for a hart's inbox with room is appended. -/
theorem State.notice_entries {u : State} (cores : u.cores = s.cores) {h : Nat} (waiting : ((s.core (coreOf h)).queue (slotOf h)).waiting = [])
    (room : ((s.core (coreOf h)).queue (slotOf h)).hasFree (slotOf h) = true) (e : VBits) :
    (((u.notice h e).core (coreOf h)).queue (slotOf h)).entries = ((s.core (coreOf h)).queue (slotOf h)).entries ++ [e] := by
  have slot : slotOf h < 4 := Nat.mod_lt _ (by decide)
  have core : u.core (coreOf h) = s.core (coreOf h) := by rw [State.core, State.core, cores]
  rw [← core] at waiting room ⊢
  rw [State.notice, State.arrive_inbox slot waiting room, State.queue_mapQueue_self u _ (slot.trans (by decide))]

/-- The entry for the hart that submitted the launch (R155). -/
theorem State.endLaunch_tells (untold : l.told = false) (idle : s.allIdle l = true) (nobody : l.ranks ≤ l.completion)
    (waiting : ((s.core (coreOf l.submitter)).queue (slotOf l.submitter)).waiting = [])
    (room : ((s.core (coreOf l.submitter)).queue (slotOf l.submitter)).hasFree (slotOf l.submitter) = true)
    (st : LaunchStatus) :
    (((s.endLaunch l.id st).core (coreOf l.submitter)).queue (slotOf l.submitter)).entries
      = ((s.core (coreOf l.submitter)).queue (slotOf l.submitter)).entries ++ [launchEndEntry { l with ended := some st } st] := by
  obtain ⟨wound, none_⟩ := State.windLaunch_alone idle
  obtain ⟨u, cores, told⟩ := State.tellEnd_notice (State.markEnd_found found alone untold l.ctx st) none_ nobody
  rw [State.endLaunch_found found, wound, told]
  exact State.notice_entries cores waiting room _

end

end Sys2Proof.Machine
end

section
/-! SUPPORT. Initial tasks, samples and joins of a launch (R137, R142, R143, R385). -/

namespace Sys2Proof.Machine
open Sys2Proof.Safety

/-! ### Initial tasks (R137) -/

section
variable {s : State} {l : Launch} (found : s.launch? l.id = some l)
include found

/-- A task list that cannot be read ends the launch. -/
theorem execInitialTasks_unread (asked : l.initial = some none) (unread : taskList s l = none) :
    ∃ t, exec (.initialTasks l.id) s = .next t ∧ Ended t l.id .tasksFault := by
  refine ⟨s.endLaunch l.id .tasksFault, ?_, State.endLaunch_ended found .tasksFault⟩
  change execInitialTasks l.id s = _
  rw [execInitialTasks, found]
  dsimp only
  rw [asked, unread]

/-- One that can be read is kept. -/
theorem execInitialTasks_read (asked : l.initial = some none) {ts : List Task} (read : taskList s l = some ts) :
    ∃ t, exec (.initialTasks l.id) s = .next t ∧ t.launch? l.id = some { l with initial := some (some ts) } := by
  refine ⟨_, ?_, launch?_mapLaunch_found found (f := fun l => { l with initial := some (some ts) }) (by intro; exact ⟨rfl, rfl, rfl⟩)⟩
  change execInitialTasks l.id s = _
  rw [execInitialTasks, found]
  dsimp only
  rw [asked, read]

/-- The last task has gone. -/
theorem execInitialTasks_done (last : l.initial = some (some [])) :
    ∃ t, exec (.initialTasks l.id) s = .next t ∧ t.launch? l.id = some { l with initial := none } := by
  refine ⟨_, ?_, launch?_mapLaunch_found found (f := fun l => { l with initial := none }) (by intro; exact ⟨rfl, rfl, rfl⟩)⟩
  change execInitialTasks l.id s = _
  rw [execInitialTasks, found]
  dsimp only
  rw [last]

variable {task : Task} {rest : List Task} (next : l.initial = some (some (task :: rest)))
include next

/-- A task waits for room in stage 0. -/
theorem execInitialTasks_waits (full : stageFull l 0 = true) : exec (.initialTasks l.id) s = .next s := by
  change execInitialTasks l.id s = _
  rw [execInitialTasks, found]
  dsimp only
  rw [next]
  exact if_pos full

/-- With room it enters the stage. -/
theorem execInitialTasks_enters (room : stageFull l 0 = false) : ∃ t m, exec (.initialTasks l.id) s = .next t ∧ t.launch? l.id = some m
    ∧ m.initial = some (some rest) ∧ ∀ q, l.queues[0]? = some q → ∃ r, m.queues[0]? = some r ∧ r.tasks = q.tasks ++ [task] := by
  refine ⟨_, _, ?_, launch?_mapLaunch_found found (f := fun l => { l with
    initial := some (some rest), queues := l.queues.modify 0 (pushTask task s.clock) }) (by intro; exact ⟨rfl, rfl, rfl⟩), rfl, fun q first => ?_⟩
  · change execInitialTasks l.id s = _
    rw [execInitialTasks, found]
    dsimp only
    rw [next]
    exact if_neg (Bool.eq_false_iff.1 room)
  · refine ⟨pushTask task s.clock q, ?_, rfl⟩
    rw [List.getElem?_modify, first]
    rfl

end

/-! ### The task list (R137) -/

/-- Records are read one by one, or the list is not. -/
theorem taskRecords_spec {s : State} {ctx : BitVec 16} {root step : Nat} (n a slice : Nat) :
    (∀ i, i < n → deviceRead s ctx root (a + 64 * i) 64 = none → taskRecords s ctx root a slice step n = none)
    ∧ ∀ ts, taskRecords s ctx root a slice step n = some ts → ts.length = n ∧ ∀ i, i < n → ∃ cs, deviceRead s ctx root (a + 64 * i) 64 = some cs
      ∧ ts[i]? = some ⟨BitVec.ofNat 512 (natOfBytes cs), slice + step * i⟩ := by
  induction n generalizing a slice with
  | zero =>
    refine ⟨fun i small => absurd small (Nat.not_lt_zero i), fun ts read => ?_⟩
    obtain rfl := Option.some.inj read
    exact ⟨rfl, fun i small => absurd small (Nat.not_lt_zero i)⟩
  | succ n ih =>
    obtain ⟨lost, kept⟩ := ih (a + 64) (slice + step)
    have next (i : Nat) : a + 64 * (i + 1) = a + 64 + 64 * i := by omega
    refine ⟨fun i small unread => ?_, fun ts read => ?_⟩
    · cases i with
      | zero =>
        rw [taskRecords, show deviceRead s ctx root a 64 = none from unread]
      | succ i =>
        rw [next] at unread
        rw [taskRecords, lost i (Nat.lt_of_succ_lt_succ small) unread]
        cases deviceRead s ctx root a 64 with
        | none => rfl
        | some bs => rfl
    · rw [taskRecords] at read
      cases first : deviceRead s ctx root a 64 with
      | none =>
        rw [first] at read
        exact absurd read (by simp only [reduceCtorEq, not_false_eq_true])
      | some bs =>
        cases more : taskRecords s ctx root (a + 64) (slice + step) step n with
        | none =>
          rw [first, more] at read
          exact absurd read (by simp only [reduceCtorEq, not_false_eq_true])
        | some us =>
          rw [first, more] at read
          obtain rfl := Option.some.inj read
          obtain ⟨length, each⟩ := kept us more
          refine ⟨congrArg Nat.succ length, fun i small => ?_⟩
          cases i with
          | zero => exact ⟨bs, first, rfl⟩
          | succ i =>
            obtain ⟨cs, there, task⟩ := each i (Nat.lt_of_succ_lt_succ small)
            refine ⟨cs, (congrArg (deviceRead s ctx root · 64) (next i)).trans there, ?_⟩
            rw [List.getElem?_cons_succ, task, Nat.mul_succ, Nat.add_assoc, Nat.add_comm (step * i)]

/-- A task of a list as its record and its number give it. -/
theorem taskList_slice (repro : Bool) (base i : Nat) :
    (if repro then base else 0) + (if repro then 1 else 0) * i = if repro then base + i else 0 := by
  cases repro with
  | true => simp only [if_true, Nat.one_mul]
  | false => simp only [Bool.false_eq_true, if_false, Nat.zero_mul]

section
variable (s : State) (l : Launch)

/-- The record of a task list at a place; the header is at place 0. -/
def listAt (s : State) (l : Launch) (i : Nat) : Option (List Byte) :=
  deviceRead s l.ctx (rootOfCtx s l.ctx) (l.tasksPtr.toNat + 64 * i) 64

/-- A list whose header can be read, by its COUNT. -/
theorem taskList_eq : taskList s l =
    if l.tasksPtr.toNat % 64 ≠ 0 then none
    else match listAt s l 0 with
      | none => none
      | some h =>
        if (!l.flags.getLsbD 1 || l.join.isSome || natOfBytes (h.take 4) == l.slices)
            && (natOfBytes (h.take 4) != 0 || l.join.any (fun j => (List.range Config.devno).any (fun d => j.2.getLsbD d))) then
          taskRecords s l.ctx (rootOfCtx s l.ctx) (l.tasksPtr.toNat + 64) (if l.flags.getLsbD 1 then l.sliceBase else 0)
            (if l.flags.getLsbD 1 then 1 else 0) (natOfBytes (h.take 4))
        else none := by
  have root : rootOfCtx s l.ctx = match s.ctx? l.ctx with
      | some c => c.root
      | none => 0 := by
    unfold rootOfCtx
    cases s.ctx? l.ctx with
    | none => rfl
    | some c => rfl
  unfold taskList listAt
  rw [root] <;> rfl

/-- A list that is not aligned or has no header cannot be read. -/
theorem taskList_unread (bad : l.tasksPtr.toNat % 64 ≠ 0 ∨ listAt s l 0 = none) : taskList s l = none := by
  rw [taskList_eq]
  split
  · rfl
  next aligned =>
    rcases bad with bad | bad
    · exact absurd bad aligned
    · rw [bad]

variable {s l} {bs : List Byte} (header : listAt s l 0 = some bs)
include header

/-- A COUNT that is not legal is refused. -/
theorem taskList_count (near : l.join = none) (bad : natOfBytes (bs.take 4) = 0 ∨ (l.flags.getLsbD 1 = true ∧ natOfBytes (bs.take 4) ≠ l.slices)) :
    taskList s l = none := by
  have refused : ((!l.flags.getLsbD 1 || l.join.isSome || natOfBytes (bs.take 4) == l.slices)
      && (natOfBytes (bs.take 4) != 0 || l.join.any (fun j => (List.range Config.devno).any (fun d => j.2.getLsbD d)))) = false := by
    rw [near]
    rcases bad with zero | ⟨repro, other⟩
    · rw [zero]
      exact Bool.and_false _
    · rw [repro, beq_false_of_ne other]
      rfl
  rw [taskList_eq]
  split
  · rfl
  · rw [header]
    dsimp only
    rw [refused, if_neg Bool.false_ne_true]

/-- A list with a record that cannot be read is not read. -/
theorem taskList_short {i : Nat} (small : i < natOfBytes (bs.take 4)) (unread : listAt s l (i + 1) = none) : taskList s l = none := by
  have place : l.tasksPtr.toNat + 64 * (i + 1) = l.tasksPtr.toNat + 64 + 64 * i := by omega
  rw [listAt, place] at unread
  rw [taskList_eq]
  split
  · rfl
  · rw [header]
    dsimp only
    split
    · exact (taskRecords_spec _ _ _).1 i small unread
    · rfl

/-- The tasks of a list that is read. -/
theorem taskList_tasks {ts : List Task} (read : taskList s l = some ts) : ts.length = natOfBytes (bs.take 4)
    ∧ ∀ i, i < natOfBytes (bs.take 4) → ∃ cs, listAt s l (i + 1) = some cs
      ∧ ts[i]? = some ⟨BitVec.ofNat 512 (natOfBytes cs), if l.flags.getLsbD 1 then l.sliceBase + i else 0⟩ := by
  rw [taskList_eq] at read
  split at read
  · exact absurd read (by simp only [reduceCtorEq, not_false_eq_true])
  · rw [header] at read
    dsimp only at read
    split at read
    · obtain ⟨length, each⟩ := (taskRecords_spec _ _ _).2 ts read
      refine ⟨length, fun i small => ?_⟩
      obtain ⟨cs, there, task⟩ := each i small
      have place : l.tasksPtr.toNat + 64 * (i + 1) = l.tasksPtr.toNat + 64 + 64 * i := by omega
      refine ⟨cs, by rw [listAt, place]; exact there, ?_⟩
      rw [task, taskList_slice]
    · exact absurd read (by simp only [reduceCtorEq, not_false_eq_true])

end

/-! ### Patience and samples (R142, R143) -/

section
variable {s : State} {l : Launch} (found : s.launch? l.id = some l)
include found

/-- The patience of the oldest data-affinity task runs out. -/
theorem execAffinityPatienceExpiry_clock : ∃ t, exec (.affinityPatienceExpiry l.id) s = .next t ∧ OnlyClock s t
    ∧ ∀ x rest, (l.stages.zip l.queues).filter (fun x => x.1.affinity == 0 && !x.2.tasks.isEmpty) = x :: rest → x.2.since + 6000 ≤ t.clock := by
  have run : exec (.affinityPatienceExpiry l.id) s = match (l.stages.zip l.queues).filter (fun x => x.1.affinity == 0 && !x.2.tasks.isEmpty) with
      | [] => .next s
      | x :: _ => .next { s with clock := max s.clock (x.2.since + 6000) } := by
    change execAffinityPatienceExpiry l.id s = _
    rw [execAffinityPatienceExpiry, found] <;> rfl
  rw [run]
  cases (l.stages.zip l.queues).filter (fun x => x.1.affinity == 0 && !x.2.tasks.isEmpty) with
  | nil => exact ⟨s, rfl, ⟨rfl, le_rfl⟩, fun x rest none_ => absurd none_ (by simp only [reduceCtorEq, not_false_eq_true])⟩
  | cons x rest =>
    refine ⟨_, rfl, ⟨rfl, Nat.le_max_left ..⟩, fun y more same => ?_⟩
    obtain ⟨rfl, -⟩ := List.cons.inj same
    exact Nat.le_max_right ..

omit found in
/-- A queue of a launch that is sampled. -/
theorem Launch.sampled_queue {k : Nat} {q : StageQueue} {st : StageEntry} (queue : l.queues[k]? = some q) (stage : l.stages[k]? = some st)
    (clock : Nat) : (l.sampled clock).queues[k]? = some { q with sample := (q.tasks.length + q.emitted.length, st.capacity) } := by
  have both : (l.queues.zip l.stages)[k]? = some (q, st) := List.getElem?_zip_eq_some.2 ⟨queue, stage⟩
  rw [Launch.sampled, List.getElem?_map, both]
  rfl

/-- A free-running launch samples its ratios. -/
theorem execOccupancySample_samples : ∃ t m, exec (.occupancySample l.id) s = .next t ∧ t.launch? l.id = some m
    ∧ (l.flags.getLsbD 0 = false → m.sampledAt = s.clock ∧ ∀ (k : Nat) (q : StageQueue) (st : StageEntry), l.queues[k]? = some q → l.stages[k]? = some st →
        m.queues[k]? = some { q with sample := (q.tasks.length + q.emitted.length, st.capacity) })
    ∧ (l.flags.getLsbD 0 = true → m = l) := by
  refine ⟨_, _, rfl, launch?_mapLaunch_found found (f := fun l => if l.flags.getLsbD 0 then l else l.sampled s.clock) (fun k => ?_),
    fun free => ?_, fun bsp => if_pos bsp⟩
  · dsimp only
    split
    · exact ⟨rfl, rfl, rfl⟩
    · exact ⟨rfl, rfl, rfl⟩
  · rw [if_neg (Bool.eq_false_iff.1 free)]
    exact ⟨rfl, fun k q st queue stage => Launch.sampled_queue queue stage s.clock⟩

end

/-! ### Joined launches (R385) -/

/-- The registers of a service once they are written. -/
theorem State.svcRegs_setSvc (s : State) (h : Nat) (x : SvcRegs) : (s.setSvc h x).svcRegs h = x := by
  rw [State.svcRegs, State.setSvc, assocGet_set]
  exact if_pos rfl

section
variable {s : State} {h : Nat} {l : Launch} (joining : s.joiningOf h = some l)
include joining

/-- A launch that waits to be joined is one that has not ended. -/
theorem joiningOf_live : ∃ m, s.launch? l.id = some m := by
  have live := List.find?_some (p := fun l : Launch => l.submitter == Config.computeHarts + h && l.joining && l.ended.isNone) joining
  rw [Bool.and_eq_true, Bool.and_eq_true] at live
  exact launch?_isSome.2 ⟨l, List.mem_of_find?_eq_some joining, rfl, Option.isNone_iff_eq_none.1 live.2⟩

/-- JOIN_START. -/
theorem execJoinStart_spec (b : Nat) : ∃ t, exec (.joinStart h b) s = .next t ∧ (t.svcRegs h).joinStat = 2
    ∧ ∀ m, t.launch? l.id = some m → m.joining = false ∧ m.sliceBase = b := by
  refine ⟨((s.setSvc h { s.svcRegs h with joinStat := 2 }).mapLaunch l.id (fun l => { l with
    joining := false, sliceBase := b, stepStart := s.clock })), ?_, ?_, fun m there => ?_⟩
  · change execJoinStart h b s = _
    rw [execJoinStart, joining]
    rfl
  · exact congrArg SvcRegs.joinStat (s.svcRegs_setSvc h _)
  · rw [State.launch?_mapLaunch _ _ (by intro; exact ⟨rfl, rfl, rfl⟩)] at there
    obtain ⟨k, -, rfl⟩ := Option.map_eq_some_iff.1 there
    exact ⟨rfl, rfl⟩

/-- JOIN_TIMEOUT. -/
theorem execJoinTimeout_spec : ∃ t, exec (.joinTimeout h) s = .next t ∧ (t.svcRegs h).joinStat = 3 ∧ Ended t l.id .joinFailed
    ∧ l.stepStart + 3000000000 ≤ t.clock := by
  obtain ⟨m, live⟩ := joiningOf_live joining
  set u : State := { s with clock := max s.clock (l.stepStart + 3000000000) }
  set v := u.setSvc h { u.svcRegs h with joinStat := 3 }
  obtain ⟨clock, -, svc, -⟩ := (State.endLaunch_dispatch v l.id .joinFailed).rest
  have id : m.id = l.id := (launch?_some live).2.1
  refine ⟨v.endLaunch l.id .joinFailed, ?_, ?_, ?_, ?_⟩
  · change execJoinTimeout h s = _
    rw [execJoinTimeout, joining]
  · rw [State.svcRegs, svc]
    exact congrArg SvcRegs.joinStat (u.svcRegs_setSvc h _)
  · have here : v.launch? m.id = some m := id ▸ live
    exact id ▸ State.endLaunch_ended here .joinFailed
  · rw [clock]
    exact Nat.le_max_right ..

end

end Sys2Proof.Machine
end

section
/-! SUPPORT. Placement (R141 to R144): which party a placement makes, and what its harts and its task slot hold. -/

namespace Sys2Proof.Machine
open Sys2Proof.Safety

/-! ### What is placed (R141, R143) -/

/-- A core that can start a task has its slots and what the party holds at first. -/
theorem State.startSlots_some {s : State} {l : Launch} {k c : Nat} {st : StageEntry} {task : Task} {slots : List Nat}
    (h : s.startSlots l k st task c = some slots) : slots = (s.freeSlots l c).take st.harts ∧ slots.length = st.harts
      ∧ st.spadInit ≤ (s.freeExtents c).length ∧ st.hamperInit ≤ (s.freeSegments (clusterOfCore c)).length := by
  unfold State.startSlots at h
  extract_lets slots' v e fits at h
  split at h
  next starts =>
    obtain rfl := Option.some.inj h
    obtain ⟨fits_, -⟩ := (Bool.and_eq_true ..).mp starts
    simp only [fits, Bool.and_eq_true, beq_iff_eq, decide_eq_true_eq] at fits_
    obtain ⟨⟨⟨⟨⟨⟨⟨length, -⟩, -⟩, spad⟩, hamper⟩, -⟩, -⟩, -⟩ := fits_
    exact ⟨rfl, length, spad, hamper⟩
  next => exact absurd h (by simp only [reduceCtorEq, not_false_eq_true])

/-- The first core that can start a task. -/
theorem State.firstCore_some {s : State} {l : Launch} {k c : Nat} {st : StageEntry} {task : Task} {slots : List Nat} {cs : List Nat}
    (h : s.firstCore l k st task cs = some (c, slots)) : s.startSlots l k st task c = some slots := by
  induction cs with
  | nil => exact absurd h (by simp only [State.firstCore, reduceCtorEq, not_false_eq_true])
  | cons d cs ih =>
    rw [State.firstCore] at h
    split at h
    next starts =>
      obtain ⟨rfl, rfl⟩ := Prod.mk.inj (Option.some.inj h)
      exact starts
    next => exact ih h

/-- A placement is of the oldest task of a stage, on a core that can start it. -/
theorem State.placeFrom_some {s : State} {l : Launch} {ks : List Nat} {k c : Nat} {st : StageEntry} {task : Task} {slots : List Nat}
    (h : s.placeFrom l ks = some (k, st, task, c, slots)) :
    s.startSlots l k st task c = some slots ∧ ∃ q rest, l.queues[k]? = some q ∧ q.tasks = task :: rest := by
  induction ks with
  | nil => exact absurd h (by simp only [State.placeFrom, reduceCtorEq, not_false_eq_true])
  | cons j ks ih =>
    rw [State.placeFrom] at h
    split at h
    next st' q stage queue =>
      split at h
      next t rest tasks =>
        split at h
        next d slots' first =>
          obtain ⟨rfl, rfl, rfl, rfl, rfl⟩ : j = k ∧ st' = st ∧ t = task ∧ d = c ∧ slots' = slots := by
            simpa only [Option.some.injEq, Prod.mk.injEq] using h
          exact ⟨State.firstCore_some first, q, rest, queue, tasks⟩
        next => exact ih h
      next => exact ih h
    next => exact ih h

/-- The slots of a party differ. -/
theorem State.startSlots_nodup {s : State} {l : Launch} {k c : Nat} {st : StageEntry} {task : Task} {slots : List Nat}
    (h : s.startSlots l k st task c = some slots) : slots.Nodup := by
  obtain ⟨rfl, -⟩ := State.startSlots_some h
  exact ((List.nodup_range.filter _).sublist (List.take_sublist ..))

/-! ### A party made (R144) -/

/-- Harts set one after another, each once. -/
theorem getHart_assigns {l : List (Nat × Hart)} (once : (l.map (·.1)).Nodup) {h : Nat} {x : Hart} (there : (h, x) ∈ l) (s : State) :
    (l.foldl (fun s y => s.setHart y.1 y.2) s).getHart h = x := by
  have kept (l : List (Nat × Hart)) (absent : h ∉ l.map (·.1)) (s : State) : (l.foldl (fun s y => s.setHart y.1 y.2) s).getHart h = s.getHart h := by
    induction l generalizing s with
    | nil => rfl
    | cons y l ih =>
      rw [List.map_cons, List.mem_cons, not_or] at absent
      rw [List.foldl_cons, ih absent.2, State.getHart_setHart, if_neg absent.1]
  induction l generalizing s with
  | nil => exact absurd there List.not_mem_nil
  | cons y l ih =>
    rw [List.map_cons, List.nodup_cons] at once
    obtain ⟨new, once⟩ := once
    rw [List.foldl_cons]
    rcases List.mem_cons.1 there with rfl | there
    · rw [kept l new, State.getHart_setHart, if_pos rfl]
    · exact ih once there _

/-- Harts set change harts alone. -/
theorem onlyHarts_assigns (l : List (Nat × Hart)) (s : State) : OnlyHarts s (l.foldl (fun s y => s.setHart y.1 y.2) s) := by
  induction l generalizing s with
  | nil => rfl
  | cons y l ih => exact (onlyHarts_setHart s y.1 y.2).trans (ih _)

/-- The harts that a new party starts. -/
def startedHarts (s : State) (l : Launch) (st : StageEntry) (p : Party) : List (Nat × Hart) :=
  (p.harts.zipIdx).map (fun x => (x.1, newHart s l st p x.1 x.2))

/-- Each is started once. -/
theorem startedHarts_nodup (s : State) (l : Launch) (st : StageEntry) {p : Party} (once : p.slots.Nodup) :
    ((startedHarts s l st p).map (·.1)).Nodup := by
  have harts : p.harts.Nodup := once.map fun i j same => by
    have : 4 * p.core + i = 4 * p.core + j := same
    omega
  rw [startedHarts, List.map_map]
  have ids : (p.harts.zipIdx).map ((fun x => x.1) ∘ fun x => (x.1, newHart s l st p x.1 x.2)) = p.harts := List.zipIdx_map_fst ..
  rw [ids]
  exact harts

/-- The hart in a slot of the party. -/
theorem startedHarts_mem (s : State) (l : Launch) (st : StageEntry) {p : Party} {ix j : Nat} (slot : p.slots[ix]? = some j) :
    (4 * p.core + j, newHart s l st p (4 * p.core + j) ix) ∈ startedHarts s l st p := by
  refine List.mem_map.2 ⟨(4 * p.core + j, ix), List.mem_zipIdx_iff_getElem?.2 ?_, rfl⟩
  rw [Party.harts, List.getElem?_map, slot]
  rfl

/-- The state with a new party's holdings cleared and its task stored. -/
def State.layTask (s : State) (p : Party) (t : Task) : State :=
  let s := p.spad.foldl (fun s e => s.clearExtent p.core e) s
  let s := p.hamper.foldl (fun s g => s.clearSegment (clusterOfCore p.core) g) s
  s.storeWhole (spadKey p.core (0x2000 + 64 * p.slots.headD 0)) (bytesOfNat 64 t.bits.toNat)

/-- Clearing keeps the canonical form of memory. -/
theorem State.clearExtent_wf {s : State} (wf : Memory.wf s.mem = true) (c e : Nat) : Memory.wf (s.clearExtent c e).mem = true :=
  Memory.wf_clear _ _ wf

/-- So does erasing. -/
theorem State.clearSegment_wf {s : State} (wf : Memory.wf s.mem = true) (k g : Nat) : Memory.wf (s.clearSegment k g).mem = true :=
  Memory.wf_clear _ _ wf

/-- A fold whose every step keeps the canonical form. -/
theorem wf_foldl {α : Type} {f : State → α → State} (step : ∀ s a, Memory.wf s.mem = true → Memory.wf (f s a).mem = true) (l : List α) {s : State}
    (wf : Memory.wf s.mem = true) : Memory.wf (l.foldl f s).mem = true := by
  induction l generalizing s with
  | nil => exact wf
  | cons a l ih => exact ih (step s a wf)

/-- The task lies in its slot. -/
theorem State.layTask_task {s : State} (wf : Memory.wf s.mem = true) (p : Party) (t : Task) {b : Nat} (small : b < 64) :
    Memory.get (s.layTask p t).mem (spadKey p.core (0x2000 + 64 * p.slots.headD 0 + b)) = t.bits.extractLsb' (8 * b) 8 := by
  have laid : Memory.wf ((p.hamper.foldl (fun s g => s.clearSegment (clusterOfCore p.core) g)
      (p.spad.foldl (fun s e => s.clearExtent p.core e) s))).mem = true :=
    wf_foldl (fun s g wf => State.clearSegment_wf wf (clusterOfCore p.core) g) _ (wf_foldl (fun s e wf => State.clearExtent_wf wf p.core e) _ wf)
  have place : spadKey p.core (0x2000 + 64 * p.slots.headD 0 + b) = spadKey p.core (0x2000 + 64 * p.slots.headD 0) + b := by
    rw [spadKey, spadKey]
    omega
  rw [State.layTask, State.storeWhole_mem, place, Memory.get_write _ _ laid (Nat.zero_le _), bytesOfNat_length, if_pos ⟨by omega, by omega⟩,
    Nat.add_sub_cancel_left, bytesOfNat_getD small]
  refine BitVec.eq_of_toNat_eq ?_
  rw [BitVec.toNat_ofNat, BitVec.extractLsb'_toNat, Nat.shiftRight_eq_div_pow]

/-- It changes memory alone. -/
theorem State.layTask_only (s : State) (p : Party) (t : Task) : OnlyMemory s (s.layTask p t) := by
  unfold State.layTask
  extract_lets u v
  have spad : OnlyMemory s u := onlyMemory_foldl (f := fun s e => s.clearExtent p.core e) (fun _ _ => rfl) _ s
  have hamper : OnlyMemory u v := onlyMemory_foldl (f := fun s g => s.clearSegment (clusterOfCore p.core) g) (fun _ _ => rfl) _ u
  exact onlyMemory_trans (onlyMemory_trans spad hamper) (State.storeWhole_only ..)

/-- The state in which a new party's harts have started. -/
def State.startHarts (s : State) (l : Launch) (st : StageEntry) (p : Party) (t : Task) : State :=
  let u := (startedHarts s l st p).foldl (fun s y => s.setHart y.1 y.2) (s.layTask p t)
  if l.flags.getLsbD 0 then u else u.openHarts p.harts

/-- A party made: its harts are started, and it enters the table. -/
theorem State.createParty_eq (s : State) (l : Launch) (k : Nat) (st : StageEntry) (t : Task) (core : Nat) (slots : List Nat) :
    s.createParty l k st t core slots =
      { s.startHarts l st (newParty s l k st t.slice core slots) t with
        parties := (s.startHarts l st (newParty s l k st t.slice core slots) t).parties ++ [newParty s l k st t.slice core slots]
        nextParty := (s.startHarts l st (newParty s l k st t.slice core slots) t).nextParty + 1 } := rfl

/-- Its harts started change the tables in nothing, and the task lies in its slot. -/
theorem State.startHarts_spec (s : State) (l : Launch) (st : StageEntry) (p : Party) (t : Task) :
    (s.startHarts l st p t).mem = (s.layTask p t).mem
    ∧ (∀ j, (s.startHarts l st p t).getHart j = ((startedHarts s l st p).foldl (fun s y => s.setHart y.1 y.2) (s.layTask p t)).getHart j)
    ∧ (s.startHarts l st p t).parties = s.parties ∧ (s.startHarts l st p t).launches = s.launches
    ∧ (s.startHarts l st p t).nextParty = s.nextParty := by
  unfold State.startHarts
  extract_lets u
  have set_ : OnlyHarts (s.layTask p t) u := onlyHarts_assigns _ _
  have laid := s.layTask_only p t
  obtain ⟨parties, -, launches, -⟩ := set_.tables
  obtain ⟨parties', -, launches', -⟩ := onlyMemory_tables laid
  obtain ⟨-, -, -, -, next, -⟩ := ((dispatch_of_only laid).trans set_.dispatch).rest
  have mem : u.mem = (s.layTask p t).mem := by
    unfold OnlyHarts at set_
    have same := congrArg State.mem set_
    exact same
  split
  · exact ⟨mem, fun _ => rfl, parties.trans parties', launches.trans launches', next⟩
  · have opened := State.openHarts_only u p.harts
    obtain ⟨parties'', -, launches'', -⟩ := onlyMemory_tables opened
    obtain ⟨-, -, -, -, next', -⟩ := (dispatch_of_only opened).rest
    exact ⟨(State.openHarts_mem u p.harts).trans mem, fun j => onlyMemory_getHart opened j, parties''.trans (parties.trans parties'),
      launches''.trans (launches.trans launches'), next'.trans next⟩

/-- The hart in slot `j` of a new party, its `ix`-th. -/
theorem State.createParty_hart {s : State} {l : Launch} {k c : Nat} {st : StageEntry} {task : Task} {slots : List Nat} (once : slots.Nodup)
    {ix j : Nat} (slot : slots[ix]? = some j) : (s.createParty l k st task c slots).getHart (4 * c + j)
      = newHart s l st (newParty s l k st task.slice c slots) (4 * c + j) ix := by
  have started := (s.startHarts_spec l st (newParty s l k st task.slice c slots) task).2.1 (4 * c + j)
  rw [State.createParty_eq]
  exact started.trans (getHart_assigns (startedHarts_nodup s l st (p := newParty s l k st task.slice c slots) once)
    (startedHarts_mem s l st (p := newParty s l k st task.slice c slots) slot) _)

/-! ### TASK_PLACEMENT -/

section
variable {s : State} {l : Launch} (found : s.launch? l.id = some l)
include found

/-- Nothing is placed while nothing may be or can be. -/
theorem execTaskPlacement_none (none_ : s.placing l = false ∨ s.placement l = none) : exec (.taskPlacement l.id) s = .next s := by
  change execTaskPlacement l.id s = _
  rw [execTaskPlacement, found]
  dsimp only
  split
  · rfl
  next placing =>
    rcases none_ with not | none_
    · exact absurd not placing
    · rw [none_]

/-- Else the task leaves its queue for its party. -/
theorem execTaskPlacement_some (placing : s.placing l = true) {k c : Nat} {st : StageEntry} {task : Task} {slots : List Nat}
    (placed : s.placement l = some (k, st, task, c, slots)) : exec (.taskPlacement l.id) s =
      .next ((s.createParty l k st task c slots).mapLaunch l.id (fun r => { r with
        queues := r.queues.modify k (fun q => { q with tasks := q.tasks.drop 1, since := (s.createParty l k st task c slots).clock }) })) := by
  change execTaskPlacement l.id s = _
  rw [execTaskPlacement, found]
  dsimp only
  rw [if_neg fun no => absurd (placing.symm.trans no) (by decide), placed]

/-- The queue that the task leaves. -/
theorem State.placed_queue {c k : Nat} {st : StageEntry} {task : Task} {slots : List Nat} (placed : s.placement l = some (k, st, task, c, slots))
    {m : Launch} {q : StageQueue} {clock : Nat}
    (after : ((s.createParty l k st task c slots).mapLaunch l.id (fun r => { r with
      queues := r.queues.modify k (fun q => { q with tasks := q.tasks.drop 1, since := clock }) })).launch? l.id = some m)
    (queue : l.queues[k]? = some q) : ∃ r, m.queues[k]? = some r ∧ q.tasks = task :: r.tasks ∧ r.emitted = q.emitted := by
  obtain ⟨-, q', rest, queue', tasks⟩ := State.placeFrom_some placed
  obtain rfl := Option.some.inj (queue.symm.trans queue')
  rw [State.launch?_mapLaunch _ _ (by intro; exact ⟨rfl, rfl, rfl⟩)] at after
  have same : (s.createParty l k st task c slots).launch? l.id = some l := by
    have launches : (s.createParty l k st task c slots).launches = s.launches := by
      rw [State.createParty_eq]
      exact (s.startHarts_spec ..).2.2.2.1
    exact (congrArg (List.find? _) launches).trans found
  rw [same] at after
  obtain rfl := Option.some.inj after
  refine ⟨{ q with tasks := q.tasks.drop 1, since := clock }, ?_, ?_, rfl⟩
  · rw [List.getElem?_modify, queue]
    exact congrArg some (if_pos rfl)
  · rw [tasks]
    rfl

/-- What a placement makes (R141, R143, R144). -/
theorem execTaskPlacement_places (placing : s.placing l = true) {k c : Nat} {st : StageEntry} {task : Task} {slots : List Nat}
    (placed : s.placement l = some (k, st, task, c, slots)) :
    ∃ t p, exec (.taskPlacement l.id) s = .next t ∧ t.parties = s.parties ++ [p] ∧ p.id = s.nextParty ∧ t.nextParty = s.nextParty + 1
      ∧ p.launch = l.id ∧ p.stage = k ∧ p.core = c ∧ p.slots = slots ∧ slots.length = st.harts ∧ p.state = .running
      ∧ p.spad.length = st.spadInit ∧ p.hamper.length = st.hamperInit
      ∧ (∀ ix j, slots[ix]? = some j →
          let h := t.getHart (4 * c + j)
          h.running = true ∧ h.mode = .u ∧ h.pc = pcOf st.entry ∧ h.party = some p.id ∧ h.held = (st.vregInit + 3) / 4
          ∧ h.x[11] = BitVec.ofNat 64 ix ∧ h.x[12] = BitVec.ofNat 64 windowBase ∧ h.x[13] = BitVec.ofNat 64 task.slice)
      ∧ (∀ m q, t.launch? l.id = some m → l.queues[k]? = some q →
          ∃ r, m.queues[k]? = some r ∧ q.tasks = task :: r.tasks ∧ r.emitted = q.emitted)
      ∧ (Memory.wf s.mem = true → ∀ b, b < 64 →
          Memory.get t.mem (spadKey c (0x2000 + 64 * slots.headD 0 + b)) = task.bits.extractLsb' (8 * b) 8) := by
  obtain ⟨starts, -⟩ := State.placeFrom_some placed
  obtain ⟨-, length, spad, hamper⟩ := State.startSlots_some starts
  obtain ⟨mem, -, parties, -, next⟩ := s.startHarts_spec l st (newParty s l k st task.slice c slots) task
  refine ⟨_, newParty s l k st task.slice c slots, execTaskPlacement_some found placing placed, ?_, rfl, ?_, rfl, rfl, rfl, rfl, length, rfl,
    ?_, ?_, fun ix j slot => ?_, fun m q after queue => State.placed_queue found placed after queue, fun wf b small => ?_⟩
  · exact congrArg (· ++ [newParty s l k st task.slice c slots]) parties
  · exact congrArg (· + 1) next
  · exact (List.length_take ..).trans (Nat.min_eq_left spad)
  · exact (List.length_take ..).trans (Nat.min_eq_left hamper)
  · have hart : ((s.createParty l k st task c slots).mapLaunch l.id (fun r => { r with
        queues := r.queues.modify k (fun q => { q with tasks := q.tasks.drop 1, since := (s.createParty l k st task c slots).clock }) })).getHart
          (4 * c + j) = newHart s l st (newParty s l k st task.slice c slots) (4 * c + j) ix :=
      State.createParty_hart (State.startSlots_nodup starts) slot
    dsimp only
    rw [hart]
    exact ⟨rfl, rfl, rfl, rfl, rfl, rfl, rfl, rfl⟩
  · exact (congrArg (Memory.get · _) mem).trans (State.layTask_task wf (newParty s l k st task.slice c slots) task small)

end

end Sys2Proof.Machine
end

section
/-! SUPPORT. The exchange of a launch whose context goes on alone (R150, R176, R178). -/

namespace Sys2Proof.Machine
open Sys2Proof.Safety

/-! ### Step 1: every phase closed (R150, R384) -/

/-- A hart is as before but for pending stores, of which some are left, and for what a lost store makes due. -/
structure Flushed (x y : Hart) : Prop where
  pending : y.pending.Sublist x.pending
  rest : { y with pending := x.pending, lostStore := x.lostStore, trapDue := x.trapDue } = x

/-- Nothing changed. -/
theorem Flushed.refl (x : Hart) : Flushed x x := ⟨.refl _, rfl⟩

/-- One flush after another. -/
theorem Flushed.trans {x y z : Hart} (h : Flushed x y) (k : Flushed y z) : Flushed x z :=
  ⟨k.pending.trans h.pending,
    (congrArg (fun u : Hart => { u with pending := x.pending, lostStore := x.lostStore, trapDue := x.trapDue }) k.rest).trans h.rest⟩

/-- It leaves what the hart waits for, its registers and its counts. -/
theorem Flushed.keeps {x y : Hart} (h : Flushed x y) : y.blocked = x.blocked ∧ y.x = x.x ∧ y.csr = x.csr := by
  have blocked := congrArg Hart.blocked h.rest
  have regs := congrArg Hart.x h.rest
  have csr := congrArg Hart.csr h.rest
  exact ⟨blocked, regs, csr⟩

/-- A hart that is published by hardware is flushed, and no other hart changes. -/
theorem State.hardPublish_flushes (s : State) (h : Nat) : Clears s (s.hardPublish h)
    ∧ (∀ j, Flushed (s.getHart j) ((s.hardPublish h).getHart j))
    ∧ (s.purging = [] → ((s.hardPublish h).getHart h).pending = []) ∧ (s.hardPublish h).launches = s.launches := by
  have published := s.publishHart_published h
  obtain ⟨-, ⟨p, sub, free, self⟩, others⟩ := s.publishHart_published h
  have flushed (j : Nat) : Flushed (s.getHart j) ((s.publishHart h).getHart j) := by
    by_cases same : j = h
    · subst same
      rw [self]
      exact ⟨sub, rfl⟩
    · rw [others j same]
      exact .refl _
  have empty (clear : s.purging = []) : ((s.publishHart h).getHart h).pending = [] := by
    rw [self]
    exact free clear
  obtain ⟨-, -, -, launches, -⟩ := published.dispatch
  unfold State.hardPublish
  extract_lets t x
  split
  · refine ⟨published.clears.trans (clears_setHart ..), fun j => ?_, fun clear => ?_,
      ((onlyHarts_setHart t h _).tables.2.2.1).trans launches⟩
    · rw [State.getHart_setHart]
      split
      next same =>
        subst same
        exact (flushed j).trans ⟨.refl _, rfl⟩
      next => exact flushed j
    · rw [State.getHart_setHart, if_pos rfl]
      exact empty clear
  · exact ⟨published.clears, flushed, empty, launches⟩

/-- Harts published one after another. -/
theorem hardPublish_foldl (l : List Nat) (s : State) : Clears s (l.foldl (fun s h => s.hardPublish h) s)
    ∧ (∀ j, Flushed (s.getHart j) ((l.foldl (fun s h => s.hardPublish h) s).getHart j))
    ∧ (s.purging = [] → ∀ j ∈ l, ((l.foldl (fun s h => s.hardPublish h) s).getHart j).pending = [])
    ∧ (l.foldl (fun s h => s.hardPublish h) s).launches = s.launches := by
  induction l generalizing s with
  | nil => exact ⟨.refl s, fun _ => .refl _, fun _ j none_ => absurd none_ List.not_mem_nil, rfl⟩
  | cons h l ih =>
    obtain ⟨clears, flushed, empty, launches⟩ := s.hardPublish_flushes h
    obtain ⟨clears', flushed', empty', launches'⟩ := ih (s.hardPublish h)
    refine ⟨clears.trans clears', fun j => (flushed j).trans (flushed' j), fun clear j there => ?_, launches'.trans launches⟩
    rcases List.mem_cons.1 there with rfl | there
    · exact List.sublist_nil.1 (empty clear ▸ (flushed' j).pending)
    · obtain ⟨-, -, -, -, -, purging⟩ := clears.only.rest
      exact empty' (purging.trans clear) j there

/-! ### Step 2: what was kept is delivered (R150, R244) -/

/-- A launch is as before but for the messages it has received and for its idle records. -/
def Receives (g : Launch → Launch) : Prop := ∀ l, { g l with received := l.received, away := l.away } = l

/-- A party is as before but for the queues of its record and the bytes of its rings. -/
def Records (g : Party → Party) : Prop := ∀ p, { g p with savedSpad := p.savedSpad, savedQueues := p.savedQueues } = p

/-- What a delivery for the exchange leaves. -/
structure Delivers (s t : State) : Prop where
  harts : SameHarts s t
  contexts : t.contexts = s.contexts
  parties : ∃ g, Records g ∧ t.parties = s.parties.map g
  launches : ∃ g, Receives g ∧ t.launches = s.launches.map g
  clock : t.clock = s.clock

/-- Parties as they were. -/
theorem recorded_of_eq {s t : State} (h : t.parties = s.parties) : ∃ g, Records g ∧ t.parties = s.parties.map g :=
  ⟨fun p => p, fun _ => rfl, h.trans (List.map_id _).symm⟩

/-- Launches as they were. -/
theorem received_of_eq {s t : State} (h : t.launches = s.launches) : ∃ g, Receives g ∧ t.launches = s.launches.map g :=
  ⟨fun l => l, fun _ => rfl, h.trans (List.map_id _).symm⟩

/-- Nothing changed. -/
theorem Delivers.refl (s : State) : Delivers s s := ⟨.refl s, rfl, recorded_of_eq rfl, received_of_eq rfl, rfl⟩

/-- One delivery after another. -/
theorem Delivers.trans {s t u : State} (h : Delivers s t) (k : Delivers t u) : Delivers s u := by
  obtain ⟨f, records, parties⟩ := h.parties
  obtain ⟨f', records', parties'⟩ := k.parties
  obtain ⟨g, receives, launches⟩ := h.launches
  obtain ⟨g', receives', launches'⟩ := k.launches
  refine ⟨h.harts.trans k.harts, k.contexts.trans h.contexts, ⟨f' ∘ f, fun p => ?_, by rw [parties', parties, List.map_map]⟩,
    ⟨g' ∘ g, fun l => ?_, by rw [launches', launches, List.map_map]⟩, k.clock.trans h.clock⟩
  · exact (congrArg (fun q : Party => { q with savedSpad := p.savedSpad, savedQueues := p.savedQueues }) (records' (f p))).trans (records p)
  · exact (congrArg (fun q : Launch => { q with received := l.received, away := l.away }) (receives' (g l))).trans (receives l)

/-- A fold whose every step is a delivery. -/
theorem delivers_foldl {α : Type} {f : State → α → State} (step : ∀ s a, Delivers s (f s a)) (l : List α) (s : State) : Delivers s (l.foldl f s) := by
  induction l generalizing s with
  | nil => exact .refl s
  | cons a l ih => exact (step s a).trans (ih _)

/-- A delivery to a queue in its place is one. -/
theorem OnlyQueues.delivers {s t : State} (h : OnlyQueues s t) : Delivers s t := by
  obtain ⟨parties, launches, contexts, -⟩ := h.tables
  exact ⟨h.harts, contexts, recorded_of_eq parties, received_of_eq launches, h.dispatch.rest.1⟩

/-- An entry appended to a record. -/
theorem Party.savedAppend_records (n : Nat) (e : VBits) : Records (Party.savedAppend · n e) := by
  intro p
  change { p.savedAppend n e with savedSpad := p.savedSpad, savedQueues := p.savedQueues } = p
  unfold Party.savedAppend
  split
  · rfl
  · split
    · rfl
    · rfl

/-- The launches with one id changed. -/
theorem Receives.only {f : Launch → Launch} (same : Receives f) (id : Nat) : Receives (mapOnly id f) := by
  intro l
  unfold mapOnly
  split
  · exact same l
  · rfl

/-- An entry under an allowance. -/
theorem State.appendGranted_delivers (s : State) (c n : Nat) (e : VBits) : Delivers s (s.appendGranted c n e) := by
  unfold State.appendGranted
  split
  next p _ =>
    refine ⟨⟨rfl, rfl, rfl⟩, rfl, ⟨fun q => if q.id = p.id then q.savedAppend n e else q, fun q => ?_, rfl⟩, received_of_eq rfl, rfl⟩
    dsimp only
    split
    · exact Party.savedAppend_records n e q
    · rfl
  next =>
    split
    · refine ⟨⟨rfl, rfl, rfl⟩, rfl, recorded_of_eq rfl, ⟨_, ?_, State.mapLaunch_launches ..⟩, rfl⟩
      exact Receives.only (by intro k; rfl) _
    · exact ((State.onlyQueues_mapQueue s c n _).trans (State.enqueue_only ..)).delivers

/-- A message counted. -/
theorem State.countReceived_delivers (s : State) (id core : Nat) : Delivers s (s.countReceived id core) := by
  have launches : (s.countReceived id core).launches = s.launches.map (mapOnly id (fun l => { l with received := l.received + 1 })) := rfl
  refine ⟨⟨rfl, rfl, rfl⟩, rfl, recorded_of_eq rfl, ⟨_, ?_, launches⟩, rfl⟩
  exact Receives.only (by intro k; rfl) id

/-- What a launch has kept for the exchange is delivered. -/
theorem appends_deliver (l : Launch) (s : State) :
    Delivers s (l.appends.foldl (fun s a => (s.appendGranted a.2.1 a.2.2.1 a.2.2.2).countReceived l.id a.2.1) s) :=
  delivers_foldl (fun s (a : Nat × Nat × Nat × VBits) => (State.appendGranted_delivers s a.2.1 a.2.2.1 a.2.2.2).trans (State.countReceived_delivers ..)) _ s

/-- The launch then has kept nothing, and its tasks are in their queues. -/
def Launch.closed (clock n : Nat) (l : Launch) : Launch :=
  { l with appends := [], received := l.received + n, queues := l.queues.map (deliverEmitted (l.flags.getLsbD 1) clock) }

/-- The harts of the parties of a launch that are in their place. -/
def State.placedHarts (s : State) (id : Nat) : List Nat :=
  (s.parties.filter (fun p => p.launch == id && p.savedHarts.isEmpty)).flatMap Party.harts

/-- The state in which its harts are published and its messages delivered. -/
def State.delivered (s : State) (l : Launch) : State :=
  l.appends.foldl (fun s a => (s.appendGranted a.2.1 a.2.2.1 a.2.2.2).countReceived l.id a.2.1)
    ((s.placedHarts l.id).foldl (fun s h => s.hardPublish h) s)

/-- Steps 1 and 2 in their parts. -/
theorem State.closeStep_eq (s : State) (l : Launch) : s.closeStep l =
    (s.delivered l).mapLaunch l.id (Launch.closed (s.delivered l).clock (l.queues.map (fun q => q.emitted.length)).sum) := rfl

/-- What steps 1 and 2 leave and make. -/
structure Closes (l : Launch) (s t : State) : Prop where
  flushed : ∀ j, Flushed (s.getHart j) (t.getHart j)
  empty : s.purging = [] → ∀ j ∈ s.placedHarts l.id, (t.getHart j).pending = []
  contexts : t.contexts = s.contexts
  parties : ∃ g, Records g ∧ t.parties = s.parties.map g
  launches : ∃ g clock n, Receives g ∧ t.launches = s.launches.map (mapOnly l.id (Launch.closed clock n) ∘ g)

/-- Steps 1 and 2. -/
theorem State.closeStep_closes (s : State) (l : Launch) : Closes l s (s.closeStep l) := by
  obtain ⟨clears, flushed, empty, launches⟩ := hardPublish_foldl (s.placedHarts l.id) s
  obtain ⟨harts, contexts, ⟨f, records, parties⟩, ⟨g, receives, launches'⟩, -⟩ :=
    appends_deliver l ((s.placedHarts l.id).foldl (fun s h => s.hardPublish h) s)
  rw [State.closeStep_eq]
  refine ⟨fun j => ?_, fun clear j there => ?_, contexts.trans clears.contexts, ⟨f, records, ?_⟩, 
    ⟨g, (s.delivered l).clock, (l.queues.map (fun q => q.emitted.length)).sum, receives, ?_⟩⟩
  · exact (harts.getHart j).symm ▸ flushed j
  · exact (congrArg Hart.pending (harts.getHart j)).trans (empty clear j there)
  · exact parties.trans (congrArg _ clears.parties)
  · have made : (s.delivered l).launches = s.launches.map g := launches'.trans (congrArg _ launches)
    rw [State.mapLaunch_launches, made, List.map_map]

end Sys2Proof.Machine
end

section
/-! SUPPORT. The exchange, steps 3 and 4 (R150, R176, R178): every phase opened, and each `sync` and `hred` returned. -/

namespace Sys2Proof.Machine
open Sys2Proof.Safety

/-! ### A hart leaves the barrier (R177, R178) -/

/-- A waiting instruction that completes with a result. -/
theorem Hart.finishWait_keeps (x : Hart) (rd : Reg) (w : Word) : (x.finishWait rd w).blocked = none
    ∧ (rd ≠ 0 → (x.finishWait rd w).x[rd.toNat] = w) ∧ (x.finishWait rd w).csr.instret = x.csr.instret + 1
    ∧ (x.finishWait rd w).pending = x.pending := by
  unfold Hart.finishWait
  extract_lets y
  obtain ⟨v, q, settled⟩ := Hart.settle_eq (y.retire 0 none)
  have regs : (y.retire 0 none).settle.x = y.x := by rw [settled]; rfl
  have instret : (y.retire 0 none).settle.csr.instret = y.csr.instret + 1 := by rw [settled]; rfl
  have pending : (y.retire 0 none).settle.pending = y.pending := by rw [settled]; rfl
  have same : y.csr = x.csr ∧ y.pending = x.pending := by
    unfold y
    split
    · exact ⟨rfl, rfl⟩
    · exact ⟨rfl, rfl⟩
  refine ⟨rfl, fun nonzero => ?_, instret.trans (by rw [same.1]), pending.trans same.2⟩
  have written : y.x = x.x.set rd.toNat w := by
    unfold y
    rw [if_neg nonzero]
  have result : (y.retire 0 none).settle.x = x.x.set rd.toNat w := regs.trans written
  change (y.retire 0 none).settle.x[rd.toNat] = w
  simp only [result, Vector.getElem_set_self]

/-- What an exchange makes of a hart: it leaves the barrier, and sees the new superstep. -/
def afterExchange (value : RedOp → Word) (n : Word) (x : Hart) : Hart :=
  { leaveBarrier value n x with csr := { (leaveBarrier value n x).csr with sstep := n } }

/-- The superstep a hart sees is no matter for the barrier. -/
theorem leaveBarrier_sstep (value : RedOp → Word) (n : Word) {x : Hart} (stays : leaveBarrier value n x = x) :
    leaveBarrier value n { x with csr := { x.csr with sstep := n } } = { x with csr := { x.csr with sstep := n } } := by
  have waits (rd : Reg) (c : Option (RedOp × Word)) : x.blocked ≠ some (.barrier rd c) := fun waits => by
    have left : (leaveBarrier value n x).blocked = none := by
      unfold leaveBarrier
      rw [waits]
      cases c with
      | none => rfl
      | some c => rfl
    rw [stays, waits] at left
    exact absurd left (by simp only [reduceCtorEq, not_false_eq_true])
  unfold leaveBarrier
  split
  next rd op w found => exact absurd found (waits rd _)
  next rd found => exact absurd found (waits rd _)
  next => rfl

/-- A second exchange of the same superstep changes nothing more. -/
theorem afterExchange_idem (value : RedOp → Word) (n : Word) (x : Hart) :
    afterExchange value n (afterExchange value n x) = afterExchange value n x := by
  have stays : leaveBarrier value n (afterExchange value n x) = afterExchange value n x :=
    leaveBarrier_sstep value n (leaveBarrier_idem value n x)
  rw [afterExchange, stays]
  rfl

/-- What a hart at the barrier becomes. -/
theorem afterExchange_keeps (value : RedOp → Word) (n : Word) (x : Hart) : (afterExchange value n x).pending = x.pending
    ∧ (afterExchange value n x).csr.sstep = n
    ∧ (∀ rd, x.blocked = some (.barrier rd none) → (afterExchange value n x).blocked = none
        ∧ (rd ≠ 0 → (afterExchange value n x).x[rd.toNat] = n) ∧ (afterExchange value n x).csr.instret = x.csr.instret + 1)
    ∧ (∀ rd op w, x.blocked = some (.barrier rd (some (op, w))) → (afterExchange value n x).blocked = none
        ∧ (rd ≠ 0 → (afterExchange value n x).x[rd.toNat] = value op) ∧ (afterExchange value n x).csr.instret = x.csr.instret + 1) := by
  have pending : (leaveBarrier value n x).pending = x.pending := by
    unfold leaveBarrier
    split
    · exact (Hart.finishWait_keeps ..).2.2.2
    · exact (Hart.finishWait_keeps ..).2.2.2
    · rfl
  refine ⟨pending, rfl, fun rd waits => ?_, fun rd op w waits => ?_⟩
  · have left : leaveBarrier value n x = x.finishWait rd n := by rw [leaveBarrier, waits]
    obtain ⟨free, result, instret, -⟩ := x.finishWait_keeps rd n
    unfold afterExchange
    rw [left]
    exact ⟨free, result, instret⟩
  · have left : leaveBarrier value n x = x.finishWait rd (value op) := by rw [leaveBarrier, waits]
    obtain ⟨free, result, instret, -⟩ := x.finishWait_keeps rd (value op)
    unfold afterExchange
    rw [left]
    exact ⟨free, result, instret⟩

/-! ### Every phase opened (R150) -/

/-- The harts of some parties leave the barrier, party by party, and open their phases. -/
theorem getHart_opens {f : Hart → Hart} (idem : ∀ x, f (f x) = f x) (ps : List Party) (s : State) (j : Nat) :
    (ps.foldl (fun s p => (p.harts.foldl (fun s h => s.setHart h (f (s.getHart h))) s).openHarts p.harts) s).getHart j
      = if j ∈ ps.flatMap Party.harts then f (s.getHart j) else s.getHart j := by
  induction ps generalizing s with
  | nil => rfl
  | cons p ps ih =>
    have one : ((p.harts.foldl (fun s h => s.setHart h (f (s.getHart h))) s).openHarts p.harts).getHart j
        = if j ∈ p.harts then f (s.getHart j) else s.getHart j := by
      rw [onlyMemory_getHart (State.openHarts_only ..)]
      exact getHart_foldl (f := fun _ x => f x) (fun _ x => idem x) p.harts s j
    rw [List.foldl_cons, ih, one, List.flatMap_cons]
    by_cases here : j ∈ p.harts
    · simp only [here, if_true, List.mem_append, true_or, idem, ite_self]
    · simp only [here, if_false, List.mem_append, false_or]

/-- They change harts and memory alone. -/
theorem opens_tables {f : Hart → Hart} (ps : List Party) (s : State) :
    (ps.foldl (fun s p => (p.harts.foldl (fun s h => s.setHart h (f (s.getHart h))) s).openHarts p.harts) s).launches = s.launches := by
  induction ps generalizing s with
  | nil => rfl
  | cons p ps ih =>
    obtain ⟨-, -, set_, -⟩ := (onlyHarts_foldl (fun _ x => f x) p.harts s).tables
    obtain ⟨-, -, opened, -⟩ := onlyMemory_tables (State.openHarts_only (p.harts.foldl (fun s h => s.setHart h (f (s.getHart h))) s) p.harts)
    rw [List.foldl_cons, ih]
    exact opened.trans set_

/-- What a launch becomes by steps 3 and 4. -/
def Launch.opened (clock : Nat) (l : Launch) : Launch :=
  { l.sampled clock with sstep := l.sstep + 1, stepStart := clock, arrivals := [] }

/-- Steps 3 and 4. -/
theorem State.openStep_spec (s : State) (l : Launch) :
    (∀ j ∈ s.placedHarts l.id, (s.openStep l).getHart j = afterExchange (s.redValue l ((s.launchHarts l.id).map (·.2)))
        (BitVec.ofNat 64 (l.sstep + 1)) (s.getHart j))
    ∧ (s.openStep l).launches = s.launches.map (mapOnly l.id (Launch.opened s.clock)) := by
  unfold State.openStep
  extract_lets hs n xs after t u v w x
  have parties := getHart_opens (f := after) (afterExchange_idem (s.redValue l xs) n)
    (s.parties.filter (fun p => p.launch == l.id && p.savedHarts.isEmpty)) s
  have launches : v.launches = s.launches := opens_tables (f := after) _ s
  have traced := State.trace_stored v (match v.ctx? l.ctx with
    | some c => c.root
    | none => 0) (v.imbalance l)
  obtain ⟨hid, hart, others⟩ := (onlyQueues_of_stored traced).harts
  have clock : w.clock = s.clock := by
    have opened : OnlyDispatch s t := onlyDispatch_foldl (fun s (p : Party) =>
      (onlyHarts_foldl (fun _ x => after x) p.harts s).dispatch.trans (dispatch_of_only (State.openHarts_only _ p.harts))) _ s
    exact traced.dispatch.rest.1.trans opened.rest.1
  refine ⟨fun j here => ?_, ?_⟩
  · have same : w.getHart j = t.getHart j := getHart_congr hid hart others j
    exact (same.trans (parties j)).trans (if_pos here)
  · have kept : w.launches = s.launches := ((onlyQueues_of_stored traced).tables.2.1).trans launches
    refine (State.mapLaunch_launches x l.id _).trans ?_
    rw [show x.launches = s.launches from kept, show x.clock = s.clock from clock]
    rfl

/-! ### EXCHANGE -/

/-- The state that stands between steps 2 and 3. -/
def State.midExchange (s : State) (l : Launch) : State := (s.closeStep l).mapCtx l.ctx (fun c => { c with midExchange := true })

section
variable {s : State} {l : Launch} (found : s.launch? l.id = some l)
include found

/-- An exchange that is not ready does nothing. -/
theorem execExchange_waits (waits : s.exchangeReady l = false) : exec (.exchange l.id) s = .next s := by
  change execExchange l.id s = _
  rw [execExchange, found]
  exact if_pos waits

/-- The launch between steps 2 and 3. -/
theorem State.midExchange_launch (own : s.ctxLaunch l.ctx = some l) : ∃ g clock n, Receives g
    ∧ (s.midExchange l).ctxLaunch l.ctx = some (Launch.closed clock n (g l)) ∧ (s.midExchange l).launch? l.id = some (Launch.closed clock n (g l)) := by
  obtain ⟨-, -, -, -, ⟨g, clock, n, receives, launches⟩⟩ := s.closeStep_closes l
  have keeps : KeepsLaunch g := fun k => by
    have id := congrArg Launch.id (receives k)
    have ctx := congrArg Launch.ctx (receives k)
    have ended := congrArg Launch.ended (receives k)
    exact ⟨id, ctx, ended⟩
  have closed : KeepsLaunch (mapOnly l.id (Launch.closed clock n)) := KeepsLaunch.only (f := Launch.closed clock n) (fun _ => ⟨rfl, rfl, rfl⟩) l.id
  have here : mapOnly l.id (Launch.closed clock n) (g l) = Launch.closed clock n (g l) := by
    obtain ⟨-, -, live⟩ := launch?_some found
    obtain ⟨id, -, ended⟩ := keeps l
    exact if_pos ⟨id, ended.trans live⟩
  refine ⟨g, clock, n, receives, ?_, ?_⟩
  · refine (ctxLaunch_map launches (closed.comp keeps) l.ctx).trans ?_
    rw [own, Option.map_some, Function.comp_apply, here]
  · refine (launch?_map launches (closed.comp keeps) l.id).trans ?_
    rw [found, Option.map_some, Function.comp_apply, here]

/-- An exchange of a context that goes on alone runs its four steps. -/
theorem execExchange_opens {c : Context} (ready : s.exchangeReady l = true) (ctx : s.ctx? l.ctx = some c)
    (unasked : c.stopReq = none) (alone : c.pairedWith = none) {m : Launch} (mid : (s.midExchange l).ctxLaunch l.ctx = some m) :
    exec (.exchange l.id) s = .next ((s.midExchange l).openStep m) := by
  have running : c.stopped = false := by
    rw [State.exchangeReady, ctx, Bool.and_eq_true] at ready
    obtain ⟨-, goes⟩ := ready
    rw [Bool.and_eq_true, Bool.and_eq_true, Bool.and_eq_true] at goes
    obtain ⟨⟨⟨goes, -⟩, -⟩, -⟩ := goes
    exact (Bool.not_eq_true' _).mp goes
  have marked : (s.midExchange l).ctx? l.ctx = some { c with midExchange := true } := by
    have same : (s.closeStep l).ctx? l.ctx = some c := (congrArg (List.find? _) (s.closeStep_closes l).contexts).trans ctx
    rw [State.midExchange, State.ctx?_mapCtx _ _ (by intro; rfl), same]
    rfl
  have due : stopDue { c with midExchange := true } m.sstep = false := by
    unfold stopDue
    rw [show ({ c with midExchange := true } : Context).stopReq = none from unasked]
  have run : exec (.exchange l.id) s = .next ((s.midExchange l).afterClose l.ctx) := by
    change execExchange l.id s = _
    rw [execExchange, found]
    dsimp only
    rw [if_neg fun no => absurd (ready.symm.trans no) (by decide), ctx]
    rfl
  have goes : ¬ ((!({ c with midExchange := true } : Context).midExchange || ({ c with midExchange := true } : Context).stopped) = true) := by
    rw [show ({ c with midExchange := true } : Context).stopped = false from running]
    exact Bool.false_ne_true
  rw [run]
  refine congrArg Host.Outcome.next ?_
  unfold State.afterClose
  rw [marked]
  dsimp only
  rw [if_neg goes, show ({ c with midExchange := true } : Context).pairedWith = none from alone]
  unfold State.stopOrOpen
  rw [Option.bind_none, marked, mid]
  dsimp only
  rw [if_neg (Bool.eq_false_iff.1 due)]

end

/-! ### The values that are returned (R178) -/

/-- A record leaves which launch its party is of, and its harts. -/
theorem Records.keeps {g : Party → Party} (records : Records g) (p : Party) : (g p).launch = p.launch ∧ (g p).savedHarts = p.savedHarts
    ∧ (g p).harts = p.harts := by
  have launch := congrArg Party.launch (records p)
  have saved := congrArg Party.savedHarts (records p)
  have harts := congrArg Party.harts (records p)
  exact ⟨launch, saved, harts⟩

/-- Harts that are flushed contribute what they did. -/
theorem partyHarts_values {s u : State} (flushed : ∀ j, Flushed (s.getHart j) (u.getHart j)) {g : Party → Party} (records : Records g) (p : Party) :
    (u.partyHarts (g p)).map (fun x => barrierValue x.2) = (s.partyHarts p).map (fun x => barrierValue x.2) := by
  obtain ⟨-, saved, harts⟩ := records.keeps p
  rw [State.partyHarts, State.partyHarts, saved, harts]
  split
  · rw [List.map_map, List.map_map]
    refine List.map_congr_left fun h _ => ?_
    obtain ⟨blocked, -⟩ := (flushed h).keeps
    simp only [Function.comp_apply, barrierValue, blocked]
  · rfl

/-- So do those of a launch. -/
theorem launchHarts_values {s u : State} (flushed : ∀ j, Flushed (s.getHart j) (u.getHart j)) {g : Party → Party} (records : Records g)
    (parties : u.parties = s.parties.map g) (id : Nat) :
    (u.launchHarts id).map (fun x => barrierValue x.2) = (s.launchHarts id).map (fun x => barrierValue x.2) := by
  rw [State.launchHarts, State.launchHarts, parties]
  generalize s.parties = ps
  induction ps with
  | nil => rfl
  | cons p ps ih =>
    rw [List.map_cons, List.filter_cons, List.filter_cons, (records.keeps p).1]
    split
    · rw [List.flatMap_cons, List.flatMap_cons, List.map_append, List.map_append, ih, partyHarts_values flushed records p]
    · exact ih

/-- A combined value is read off the contributions. -/
theorem redOver_congr {xs ys : List (Nat × Hart)} (same : xs.map (fun x => barrierValue x.2) = ys.map (fun x => barrierValue x.2)) (op : RedOp) :
    redOver op (xs.map (·.2)) = redOver op (ys.map (·.2)) := by
  have values (zs : List (Nat × Hart)) : (zs.map (·.2)).filterMap barrierValue = (zs.map (fun x => barrierValue x.2)).filterMap id := by
    rw [List.filterMap_map, List.filterMap_map]
    rfl
  rw [redOver, redOver, values, values, same]

/-- A hart in its place stays there. -/
theorem placedHarts_mem {s u : State} {g : Party → Party} (records : Records g) (parties : u.parties = s.parties.map g) {p : Party} (there : p ∈ s.parties)
    {id : Nat} (launch : p.launch = id) (here : p.savedHarts = []) {h : Nat} (hart : h ∈ p.harts) : h ∈ u.placedHarts id := by
  obtain ⟨launch', saved, harts⟩ := records.keeps p
  refine List.mem_flatMap.2 ⟨g p, List.mem_filter.2 ⟨parties ▸ List.mem_map_of_mem there, ?_⟩, harts ▸ hart⟩
  rw [launch', saved, launch, here, beq_self_eq_true]
  rfl

/-- The emitted tasks join those of their queue, in a launch without REPRO in the order of emission. -/
theorem deliverEmitted_tasks (repro : Bool) (clock : Nat) (q : StageQueue) : (deliverEmitted repro clock q).emitted = []
    ∧ (repro = false → (deliverEmitted repro clock q).tasks = q.tasks ++ q.emitted) := by
  have push (ts : List Task) (q : StageQueue) : (ts.foldl (fun q t => pushTask t clock q) q).emitted = q.emitted
      ∧ (ts.foldl (fun q t => pushTask t clock q) q).tasks = q.tasks ++ ts := by
    induction ts generalizing q with
    | nil => exact ⟨rfl, (List.append_nil _).symm⟩
    | cons t ts ih =>
      obtain ⟨emitted, tasks⟩ := ih (pushTask t clock q)
      exact ⟨emitted, tasks.trans (List.append_assoc ..)⟩
  unfold deliverEmitted
  extract_lets ts
  obtain ⟨emitted, tasks⟩ := push ts { q with emitted := [] }
  refine ⟨emitted, fun free => tasks.trans ?_⟩
  unfold ts
  rw [free, if_neg Bool.false_ne_true]

/-! ### What an exchange does -/

/-- The exchange of a launch whose context goes on alone. -/
theorem execExchange_done {s : State} {l : Launch} (found : s.launch? l.id = some l) (own : s.ctxLaunch l.ctx = some l) {c : Context}
    (ready : s.exchangeReady l = true) (ctx : s.ctx? l.ctx = some c) (unasked : c.stopReq = none) (alone : c.pairedWith = none) :
    ∃ t m, exec (.exchange l.id) s = .next t ∧ t.launch? l.id = some m ∧ m.sstep = l.sstep + 1 ∧ m.appends = [] ∧ m.arrivals = []
      ∧ (∀ (k : Nat) (q : StageQueue) (st : StageEntry), l.queues[k]? = some q → l.stages[k]? = some st → ∃ r : StageQueue, m.queues[k]? = some r ∧ r.emitted = []
          ∧ (l.flags.getLsbD 1 = false → r.tasks = q.tasks ++ q.emitted))
      ∧ (∀ p ∈ s.parties, p.launch = l.id → p.savedHarts = [] → ∀ h ∈ p.harts,
          (s.purging = [] → (t.getHart h).pending = []) ∧ (t.getHart h).csr.sstep = BitVec.ofNat 64 (l.sstep + 1)
          ∧ (∀ rd, (s.getHart h).blocked = some (.barrier rd none) → (t.getHart h).blocked = none
              ∧ (rd ≠ 0 → (t.getHart h).x[rd.toNat] = BitVec.ofNat 64 (l.sstep + 1)) ∧ (t.getHart h).csr.instret = (s.getHart h).csr.instret + 1)
          ∧ (∀ rd op w, (s.getHart h).blocked = some (.barrier rd (some (op, w))) →
              (t.getHart h).blocked = none ∧ (rd ≠ 0 → l.far = false → (t.getHart h).x[rd.toNat] = redOver op ((s.launchHarts l.id).map (·.2)))
              ∧ (t.getHart h).csr.instret = (s.getHart h).csr.instret + 1)) := by
  obtain ⟨g, clock, n, receives, mid, there⟩ := State.midExchange_launch found own
  obtain ⟨flushed, empty, -, ⟨f, records, parties⟩, -⟩ := s.closeStep_closes l
  have id : (Launch.closed clock n (g l)).id = l.id := by have := congrArg Launch.id (receives l); exact this
  have sstep := congrArg Launch.sstep (receives l)
  have queues := congrArg Launch.queues (receives l)
  have stages := congrArg Launch.stages (receives l)
  have flags := congrArg Launch.flags (receives l)
  have far : (Launch.closed clock n (g l)).far = l.far := by have := congrArg Launch.far (receives l); exact this
  obtain ⟨harts, launches⟩ := (s.midExchange l).openStep_spec (Launch.closed clock n (g l))
  have number : (Launch.closed clock n (g l)).sstep = l.sstep := sstep
  refine ⟨_, Launch.opened (s.midExchange l).clock (Launch.closed clock n (g l)), execExchange_opens found ready ctx unasked alone mid, ?_,
    congrArg (· + 1) number, rfl, rfl, fun k q st queue stage => ?_, fun p party launch here h hart => ?_⟩
  · have keeps : KeepsLaunch (mapOnly (Launch.closed clock n (g l)).id (Launch.opened (s.midExchange l).clock)) :=
      KeepsLaunch.only (f := Launch.opened (s.midExchange l).clock) (fun _ => ⟨rfl, rfl, rfl⟩) _
    rw [launch?_map launches keeps, there]
    exact congrArg some (if_pos ⟨rfl, (launch?_some there).2.2⟩)
  · obtain ⟨emitted, tasks⟩ := deliverEmitted_tasks (l.flags.getLsbD 1) clock q
    have queue' : (Launch.closed clock n (g l)).queues[k]? = some (deliverEmitted (l.flags.getLsbD 1) clock q) := by
      have made : (Launch.closed clock n (g l)).queues = l.queues.map (deliverEmitted (l.flags.getLsbD 1) clock) := by
        rw [← queues, ← flags]
        rfl
      rw [made, List.getElem?_map, queue]
      rfl
    have stage' : (Launch.closed clock n (g l)).stages[k]? = some st := (congrArg (·[k]?) stages).trans stage
    exact ⟨_, Launch.sampled_queue queue' stage' (s.midExchange l).clock, emitted, tasks⟩
  · have placed : h ∈ (s.midExchange l).placedHarts (Launch.closed clock n (g l)).id :=
      placedHarts_mem (s := s) records parties party (launch.trans id.symm) here hart
    have closed : Flushed (s.getHart h) ((s.midExchange l).getHart h) := flushed h
    obtain ⟨blocked, -, csr⟩ := closed.keeps
    obtain ⟨pending, step, syncs, reds⟩ := afterExchange_keeps ((s.midExchange l).redValue (Launch.closed clock n (g l))
      (((s.midExchange l).launchHarts (Launch.closed clock n (g l)).id).map (·.2))) (BitVec.ofNat 64 ((Launch.closed clock n (g l)).sstep + 1))
      ((s.midExchange l).getHart h)
    rw [harts h placed]
    rw [number] at pending step syncs reds ⊢
    rw [blocked, csr] at syncs reds
    refine ⟨fun clear => pending.trans (empty clear h ?_), step, syncs, fun rd op w waits => ?_⟩
    · exact placedHarts_mem (s := s) (g := fun p => p) (fun _ => rfl) (List.map_id _).symm party launch here hart
    · obtain ⟨free, result, instret⟩ := reds rd op w waits
      refine ⟨free, fun nonzero near => (result nonzero).trans ?_, instret⟩
      rw [State.redValue, far, near, if_neg Bool.false_ne_true]
      rw [id]
      exact redOver_congr (launchHarts_values (u := s.midExchange l) flushed records parties l.id) op

end Sys2Proof.Machine
end

section
/-! SUPPORT. The banker's events (R207, R212) and the retry of a wait at a cell (R194). -/

namespace Sys2Proof.Machine
open Sys2Proof.Safety

/-! ### Grants (R207, R214 to R216) -/

/-- A hart but for its vector registers and how many it holds. -/
theorem State.grantUnits_hart (s : State) (h cls n : Nat) : ((s.grantUnits h cls n).getHart h).blocked = (s.getHart h).blocked
    ∧ ((s.grantUnits h cls n).getHart h).csr = (s.getHart h).csr ∧ (s.grantUnits h cls n).clusters = s.clusters := by
  unfold State.grantUnits
  extract_lets x
  split
  · rw [State.getHart_setHart, if_pos rfl]
    have clusters := congrArg State.clusters (onlyHarts_setHart s h { x.zeroV (4 * x.held) (4 * (x.held + n)) with held := x.held + n })
    exact ⟨rfl, rfl, clusters⟩
  next p _ =>
    extract_lets es
    have only := onlyMemory_foldl (f := fun s e => s.clearExtent p.core e) (fun _ _ => rfl) es s
    have same := onlyMemory_getHart only h
    unfold OnlyMemory at only
    have clusters := congrArg State.clusters only
    exact ⟨congrArg Hart.blocked same, congrArg Hart.csr same, clusters⟩
  next p _ =>
    extract_lets gs
    have only := onlyMemory_foldl (f := fun s g => s.clearSegment (clusterOfCore p.core) g) (fun _ _ => rfl) gs s
    have same := onlyMemory_getHart only h
    unfold OnlyMemory at only
    have clusters := congrArg State.clusters only
    exact ⟨congrArg Hart.blocked same, congrArg Hart.csr same, clusters⟩
  · exact ⟨rfl, rfl, rfl⟩

/-- A waiting instruction that completes leaves its hart's party and granules. -/
theorem Hart.finishWait_holds (x : Hart) (rd : Reg) (w : Word) : (x.finishWait rd w).party = x.party ∧ (x.finishWait rd w).held = x.held
    ∧ (x.finishWait rd w).maxHeld = x.maxHeld := by
  unfold Hart.finishWait
  extract_lets y
  obtain ⟨v, q, settled⟩ := Hart.settle_eq (y.retire 0 none)
  have same : y.party = x.party ∧ y.held = x.held ∧ y.maxHeld = x.maxHeld := by
    unfold y
    split
    · exact ⟨rfl, rfl, rfl⟩
    · exact ⟨rfl, rfl, rfl⟩
  change (y.retire 0 none).settle.party = x.party ∧ (y.retire 0 none).settle.held = x.held ∧ (y.retire 0 none).settle.maxHeld = x.maxHeld
  rw [settled]
  exact same

/-- What a hart holds is read off its party, its granules and the parties. -/
theorem State.holding_congr {s t : State} {h : Nat} (parties : t.parties = s.parties) (party : (t.getHart h).party = (s.getHart h).party)
    (held : (t.getHart h).held = (s.getHart h).held) (maxHeld : (t.getHart h).maxHeld = (s.getHart h).maxHeld) (cls : Nat) :
    t.holding h cls = s.holding h cls := by
  have find : t.party? = s.party? := by
    unfold State.party?
    rw [parties]
  simp only [State.holding, party, find, held, maxHeld]

section
variable {s : State} {k : Nat}

/-- Without a request there is nothing to grant. -/
theorem banker_idle (none_ : (s.cluster k).requests = []) : exec (.acqGrant k) s = .next s ∧ exec (.acqUrgent k) s = .next s := by
  constructor
  · change execAcqGrant k s = _
    rw [execAcqGrant, none_]
    rfl
  · change execAcqUrgent k s = _
    rw [execAcqUrgent, none_]
    rfl

variable {r : AcqRequest} (one : (s.cluster k).requests = [r])
include one

/-- A request that cannot be granted stays. -/
theorem execAcqGrant_stays (no : s.grantableAfter [] r.hart r.cls r.count = false) : exec (.acqGrant k) s = .next s := by
  change execAcqGrant k s = _
  rw [execAcqGrant, one]
  exact congrArg Host.Outcome.next (if_neg (Bool.eq_false_iff.1 no))

/-- One that can be completes its `acq` with 0. -/
theorem execAcqGrant_grants {rd : Reg} (may : s.grantableAfter [] r.hart r.cls r.count = true) (waits : (s.getHart r.hart).blocked = some (.acq rd)) :
    ∃ t, exec (.acqGrant k) s = .next t ∧ (t.cluster k).requests = [] ∧ (t.getHart r.hart).blocked = none
      ∧ (rd ≠ 0 → (t.getHart r.hart).x[rd.toNat] = 0) ∧ (t.getHart r.hart).csr.instret = (s.getHart r.hart).csr.instret + 1
      ∧ (t.holding r.hart r.cls).1 = ((s.grantUnits r.hart r.cls r.count).holding r.hart r.cls).1 := by
  obtain ⟨blocked, csr, clusters⟩ := s.grantUnits_hart r.hart r.cls r.count
  set u := s.grantUnits r.hart r.cls r.count
  have requests : (u.cluster k).requests = [r] := by
    rw [State.cluster, clusters]
    exact one
  set v := u.setCluster k { u.cluster k with requests := (u.cluster k).requests.erase r }
  have run : exec (.acqGrant k) s = .next (v.finishWait r.hart rd 0) := by
    change execAcqGrant k s = _
    rw [execAcqGrant, one]
    refine congrArg Host.Outcome.next ((if_pos may).trans ?_)
    have same : (v.getHart r.hart).blocked = some (.acq rd) := blocked.trans waits
    change (match (v.getHart r.hart).blocked with
      | some (.acq rd) => v.finishWait r.hart rd 0
      | _ => v) = _
    rw [same]
  obtain ⟨free, result, instret, -⟩ := (v.getHart r.hart).finishWait_keeps rd 0
  obtain ⟨party, held, maxHeld⟩ := (v.getHart r.hart).finishWait_holds rd 0
  have set_ := onlyHarts_setHart v r.hart ((v.getHart r.hart).finishWait rd 0)
  have hart : (v.finishWait r.hart rd 0).getHart r.hart = (v.getHart r.hart).finishWait rd 0 := by
    rw [State.finishWait, State.getHart_setHart, if_pos rfl]
  refine ⟨_, run, ?_, hart ▸ free, hart ▸ result, ?_, ?_⟩
  · have same : (v.finishWait r.hart rd 0).clusters = v.clusters := by have := congrArg State.clusters set_; exact this
    rw [State.cluster, same]
    change (v.cluster k).requests = []
    rw [State.cluster_setCluster, if_pos rfl, requests]
    exact List.erase_cons_head ..
  · rw [hart, instret]
    exact congrArg (·.instret + 1) csr
  · refine congrArg Prod.fst (State.holding_congr (s := u) set_.tables.1 ?_ ?_ ?_ r.cls)
    · exact (congrArg Hart.party hart).trans party
    · exact (congrArg Hart.held hart).trans held
    · exact (congrArg Hart.maxHeld hart).trans maxHeld

/-- A request becomes urgent. -/
theorem execAcqUrgent_urges (calm : r.urgent = false) : ∃ t, exec (.acqUrgent k) s = .next t
    ∧ (t.cluster k).requests = [{ r with urgent := true }] ∧ r.since + 2 ^ 20 < t.clock ∧ s.clock ≤ t.clock ∧ t.mem = s.mem := by
  have first : [r].find? (fun r => !r.urgent) = some r := by
    rw [List.find?_cons, calm]
    rfl
  refine ⟨({ s with clock := max s.clock (r.since + 0x100001) } : State).setCluster k { s.cluster k with
    requests := (s.cluster k).requests.map (fun (q : AcqRequest) => if q = r then { q with urgent := true } else q) }, ?_, ?_, ?_,
    Nat.le_max_left .., rfl⟩
  · change execAcqUrgent k s = _
    unfold execAcqUrgent
    extract_lets c
    rw [show c.requests = [r] from one, first]
  · rw [State.cluster_setCluster, if_pos rfl, one]
    exact congrArg ([·]) (if_pos rfl)
  · exact lt_of_lt_of_le (by omega) (Nat.le_max_right s.clock (r.since + 0x100001))

end

/-! ### CWAIT_RETRY (R194) -/

/-- A hart that waits for a new try goes on. -/
theorem execCwaitRetry_goes {s : State} {h : Nat} (waits : (s.getHart h).blocked = some .cellRetry) : ∃ t, exec (.cwaitRetry h) s = .next t
    ∧ t.getHart h = { s.getHart h with blocked := none } ∧ (∀ j, j ≠ h → t.getHart j = s.getHart j)
    ∧ { t with hart := s.hart, others := s.others } = s := by
  refine ⟨s.setHart h { s.getHart h with blocked := none }, congrArg Host.Outcome.next (if_pos waits), ?_, fun j other => ?_, onlyHarts_setHart ..⟩
  · rw [State.getHart_setHart, if_pos rfl]
  · rw [State.getHart_setHart, if_neg other]

/-- Another is left. -/
theorem execCwaitRetry_stays {s : State} {h : Nat} (other : (s.getHart h).blocked ≠ some .cellRetry) : exec (.cwaitRetry h) s = .next s :=
  congrArg Host.Outcome.next (if_neg other)

end Sys2Proof.Machine
end

section
/-! SUPPORT. The ends of parties: retirement (R146), and the saves and restores that end without a record (R357). -/

namespace Sys2Proof.Machine
open Sys2Proof.Safety

/-! ### PARTY_RETIRE (R146) -/

section
variable {s : State} {p : Party} (found : s.party? p.id = some p)
include found

/-- A party that is not done, or is frozen, does not retire. -/
theorem execPartyRetire_stays (no : p.state ≠ .retiring ∨ s.stoppedCtx p.ctx = true ∨ ∃ a ∈ s.engines, a.cmd.by_.party = some p.id) :
    exec (.partyRetire p.id) s = .next s := by
  change execPartyRetire p.id s = _
  rw [execPartyRetire, found]
  refine if_pos (no.imp_right (Or.imp_right fun ⟨a, there, its⟩ => ?_))
  exact List.any_eq_true.2 ⟨a, there, beq_iff_eq.2 its⟩

/-- One that is done is released. -/
theorem execPartyRetire_releases (done : p.state = .retiring) (goes : s.stoppedCtx p.ctx = false) (free : ¬ ∃ a ∈ s.engines, a.cmd.by_.party = some p.id) :
    ∃ t, exec (.partyRetire p.id) s = .next t ∧ t.party? p.id = none ∧ (p.savedHarts = [] → ∀ h ∈ p.harts, IsIdle (t.getHart h))
      ∧ ∀ l m, s.launch? p.launch = some l → t.launch? p.launch = some m → m.retired = l.retired + 1 := by
  set u := s.mapLaunch p.launch (fun l => { l with retired := l.retired + 1 })
  have released := u.releaseParty_releases p
  have run : exec (.partyRetire p.id) s = .next (u.releaseParty p) := by
    change execPartyRetire p.id s = _
    rw [execPartyRetire, found]
    refine if_neg fun no => ?_
    rcases no with other | stopped | busy
    · exact other done
    · exact Bool.false_ne_true (goes.symm.trans stopped)
    · obtain ⟨a, there, its⟩ := List.any_eq_true.1 busy
      exact free ⟨a, there, beq_iff_eq.1 its⟩
  refine ⟨_, run, released.gone, fun here h hart => ?_, fun l m before after => ?_⟩
  · rw [State.releaseParty_getHart u here, if_pos hart]
    exact ⟨rfl, rfl, rfl, rfl, rfl⟩
  · have counted : u.launch? p.launch = some { l with retired := l.retired + 1 } := by
      rw [State.launch?_mapLaunch s p.launch (by intro; exact ⟨rfl, rfl, rfl⟩), before]
      rfl
    obtain ⟨n, there, retired⟩ := launch?_settled released.launches counted
    rw [Option.some.inj (after.symm.trans there)]
    exact retired

end

/-! ### A party that was killed meanwhile (R357) -/

/-- Telling of an end leaves the parties. -/
theorem State.tellEnd_parties (s : State) (id : Nat) : (s.tellEnd id).parties = s.parties := by
  unfold State.tellEnd
  split
  · rfl
  next l _ =>
    split
    · rfl
    · extract_lets u v e w
      have told : w.parties = v.parties := by
        unfold w
        split
        · split
          · exact (State.notice_only ..).tables.1
          · rfl
        · rfl
      exact (State.notice_only w l.submitter e).tables.1.trans told

/-- A doomed party is found no more. -/
theorem State.scrubDoomed_gone (s : State) (p : Party) : (s.scrubDoomed p).party? p.id = none := by
  have gone := (s.scrubParty_releases p).gone
  rw [State.scrubDoomed, State.party?, State.tellEnd_parties]
  exact gone

section
variable {s : State} {p : Party} (found : s.party? p.id = some p)
include found

/-- A save that has not ended. -/
theorem execSaveComplete_stays (no : p.state ≠ .saving ∨ s.saveHeld p = true) : exec (.saveComplete p.id) s = .next s := by
  change execSaveComplete p.id s = _
  rw [execSaveComplete, found]
  exact if_pos no

/-- A save that has ended scrubs a doomed party, or keeps its record. -/
theorem execSaveComplete_ends (saving : p.state = .saving) (ended : s.saveHeld p = false) : exec (.saveComplete p.id) s =
    if p.doomed then .next (s.scrubDoomed p) else .next ((s.writeRecord p).advanceSave p.ctx).serveAllPre := by
  change execSaveComplete p.id s = _
  rw [execSaveComplete, found]
  refine if_neg fun no => ?_
  rcases no with other | held
  · exact other saving
  · exact Bool.false_ne_true (ended.symm.trans held)

/-- A restore that has ended, by what is left to do. -/
theorem execRestoreComplete_runs (restoring : p.state = .restoring) : exec (.restoreComplete p.id) s =
    if p.doomed then .next (s.scrubDoomed p)
    else if p.savedHarts ≠ [] then .next (if s.restorable p then s.readRecord p else s)
    else if s.replayed p = false then .next s
    else
      let u : State := { s with engines := s.engines.map (fun (a : Accepted) =>
        if a.cmd.by_.party = some p.id then { a with parked := false } else a) }
      let v := (u.openHarts p.harts).mapParty p.id (fun p => { p with state := .running })
      let w := (v.deliverHeld p.launch).serveCore p.core
      .next (if w.parties.any (fun q => q.ctx == p.ctx && (q.state == .restoring || q.state == .saved)) then w
        else ((w.finishCtx p.ctx 0).serveHeldPreempt p.ctx).serveAllPre) := by
  change execRestoreComplete p.id s = _
  rw [execRestoreComplete, found]
  exact if_neg (not_not.2 restoring)

end

end Sys2Proof.Machine
end

section
/-! SUPPORT. A save that ends with a record (R353, R355): what the party, its harts, its core and its context become. -/

namespace Sys2Proof.Machine
open Sys2Proof.Safety

/-! ### What the steps of a save leave -/

/-- A queue without allowances outstanding stays without. -/
def StaysFree (s t : State) : Prop := ∀ c n, ((s.core c).queue n).granted = 0 → ((t.core c).queue n).granted = 0

/-- Cores as they were. -/
theorem staysFree_of_eq {s t : State} (h : t.cores = s.cores) : StaysFree s t := fun c n free => by
  rw [State.core, h]
  exact free

/-- A queue emptied. -/
theorem staysFree_empty (s : State) (c n : Nat) : StaysFree s (s.mapQueue c n (fun _ => Queue.empty)) := fun d m free => by
  rw [State.queue_mapQueue]
  split
  · rfl
  · exact free

/-- What a step of a save leaves: the harts, the contexts, and the queues that are free. -/
structure SaveStep (s t : State) : Prop where
  only : OnlyDispatch s t
  harts : SameHarts s t
  contexts : t.contexts = s.contexts
  parties : t.parties = s.parties
  free : StaysFree s t

/-- One step after another. -/
theorem SaveStep.trans {s t u : State} (h : SaveStep s t) (k : SaveStep t u) : SaveStep s u :=
  ⟨h.only.trans k.only, h.harts.trans k.harts, k.contexts.trans h.contexts, k.parties.trans h.parties,
    fun c n free => k.free c n (h.free c n free)⟩

/-- Nothing changed. -/
theorem SaveStep.refl (s : State) : SaveStep s s := ⟨rfl, .refl s, rfl, rfl, fun _ _ free => free⟩

/-- A fold whose every step is one. -/
theorem saveStep_foldl {α : Type} {f : State → α → State} (step : ∀ s a, SaveStep s (f s a)) (l : List α) (s : State) : SaveStep s (l.foldl f s) := by
  induction l generalizing s with
  | nil => exact .refl s
  | cons a l ih => exact (step s a).trans (ih _)

/-- A queue emptied is one. -/
theorem saveStep_empty (s : State) (c n : Nat) : SaveStep s (s.mapQueue c n (fun _ => Queue.empty)) :=
  ⟨rfl, ⟨rfl, rfl, rfl⟩, rfl, rfl, staysFree_empty s c n⟩

/-! ### The record of a party (R355) -/

/-- The party once its record is written. -/
def State.savedParty (s : State) (p : Party) : Party :=
  { p with
    state := .saved
    savedHarts := p.harts.map (fun h => (h, (s.getHart h).recorded))
    savedSpad := s.savedBytes p
    savedTags := (s.core p.core).tags.filter (fun t => t.party == p.id)
    savedQueues := (s.partyQueues p).map (fun q => (q.1, { q.2 with closing := false }))
    savedHold := (p.spad.length, p.hamper.length)
    spad := [], hamper := [] }

/-- The place that a party leaves. -/
def State.leavePlace (s : State) (p : Party) : State :=
  let qs := s.partyQueues p
  let s := p.spad.foldl (fun s e => s.clearExtent p.core e) s
  let s := p.hamper.foldl (fun s g => s.clearSegment (clusterOfCore p.core) g) s
  let s := p.harts.foldl (fun s h => s.setHart h (Hart.reset.keepMonitor (s.getHart h))) s
  let s := s.setCore p.core { s.core p.core with tags := (s.core p.core).tags.filter (fun t => t.party != p.id) }
  qs.foldl (fun s q => s.mapQueue p.core q.1 (fun _ => Queue.empty)) s

/-- A record is written when the place is left. -/
theorem State.writeRecord_eq (s : State) (p : Party) : s.writeRecord p =
    if (((s.leavePlace p).mapParty p.id (fun _ => s.savedParty p)).cluster (clusterOfCore p.core)).requests.isEmpty then
      (s.leavePlace p).mapParty p.id (fun _ => s.savedParty p)
    else ((s.leavePlace p).mapParty p.id (fun _ => s.savedParty p)).raise (.acqGrant (clusterOfCore p.core)) := rfl

/-- Tags dropped leave the queues. -/
theorem staysFree_tags (s : State) (c : Nat) (l : List TagEntry) : StaysFree s (s.setCore c { s.core c with tags := l }) := fun d n free => by
  rw [State.core_setCore]
  split
  next same => rw [← same]; exact free
  next => exact free

/-- The harts that leave a place are reset, but for the counters that stay with it; the tables stay. -/
theorem State.leavePlace_spec (s : State) (p : Party) : OnlyDispatch s (s.leavePlace p) ∧ (s.leavePlace p).contexts = s.contexts
    ∧ (s.leavePlace p).parties = s.parties ∧ (s.leavePlace p).launches = s.launches ∧ StaysFree s (s.leavePlace p)
    ∧ ∀ j, (s.leavePlace p).getHart j = if j ∈ p.harts then Hart.reset.keepMonitor (s.getHart j) else s.getHart j := by
  unfold State.leavePlace
  extract_lets qs u v w d x
  have spad : OnlyMemory s u := onlyMemory_foldl (f := fun s e => s.clearExtent p.core e) (fun _ _ => rfl) _ s
  have hamper : OnlyMemory u v := onlyMemory_foldl (f := fun s g => s.clearSegment (clusterOfCore p.core) g) (fun _ _ => rfl) _ u
  have memory : OnlyMemory s v := onlyMemory_trans spad hamper
  have harts : OnlyHarts v w := onlyHarts_foldl (fun _ x => Hart.reset.keepMonitor x) p.harts v
  have reset : ∀ j, w.getHart j = if j ∈ p.harts then Hart.reset.keepMonitor (v.getHart j) else v.getHart j :=
    getHart_foldl (f := fun _ x => Hart.reset.keepMonitor x) (fun _ _ => rfl) p.harts v
  have tags : SaveStep w x := ⟨rfl, State.setCore_harts .., rfl, rfl, staysFree_tags w p.core _⟩
  have queues := saveStep_foldl (fun s (q : Nat × Queue) => saveStep_empty s p.core q.1) qs x
  have emptied : (qs.foldl (fun s q => s.mapQueue p.core q.1 (fun _ => Queue.empty)) x).launches = x.launches := by
    have only : OnlyQueues x (qs.foldl (fun s q => s.mapQueue p.core q.1 (fun _ => Queue.empty)) x) :=
      onlyQueues_foldl (fun s (q : Nat × Queue) => State.onlyQueues_mapQueue s p.core q.1 _) qs x
    exact only.tables.2.1
  have rest := tags.trans queues
  obtain ⟨parties, contexts, launches, cores⟩ := onlyMemory_tables memory
  obtain ⟨parties', contexts', launches', cores'⟩ := harts.tables
  refine ⟨((dispatch_of_only memory).trans harts.dispatch).trans rest.only, rest.contexts.trans (contexts'.trans contexts),
    rest.parties.trans (parties'.trans parties), emptied.trans (launches'.trans launches),
    fun c n free => rest.free c n (staysFree_of_eq (cores'.trans cores) c n free), fun j => ?_⟩
  rw [rest.harts.getHart, reset, onlyMemory_getHart memory]

/-- What becomes of the parties when a record is written. -/
def State.withRecord (s : State) (p q : Party) : Party := if q.id = p.id then s.savedParty p else q

/-- A record written. -/
theorem State.writeRecord_spec (s : State) (p : Party) : OnlyDispatch s (s.writeRecord p) ∧ (s.writeRecord p).contexts = s.contexts
    ∧ (s.writeRecord p).parties = s.parties.map (s.withRecord p) ∧ (s.writeRecord p).launches = s.launches ∧ StaysFree s (s.writeRecord p)
    ∧ ∀ j, (s.writeRecord p).getHart j = if j ∈ p.harts then Hart.reset.keepMonitor (s.getHart j) else s.getHart j := by
  obtain ⟨only, contexts, parties, launches, free, harts⟩ := s.leavePlace_spec p
  have table : ((s.leavePlace p).mapParty p.id (fun _ => s.savedParty p)).parties = s.parties.map (s.withRecord p) :=
    congrArg (List.map _) parties
  rw [State.writeRecord_eq]
  split
  · exact ⟨only, contexts, table, launches, free, harts⟩
  · exact ⟨only, contexts, table, launches, free, harts⟩

/-- The party that was saved. -/
theorem State.writeRecord_party {s : State} {p : Party} (found : s.party? p.id = some p) : (s.writeRecord p).party? p.id = some (s.savedParty p) := by
  have same := find?_map_same (p := fun q : Party => q.id == p.id) (g := s.withRecord p) (fun q => by
    unfold State.withRecord
    split
    next here => rw [here]; rfl
    next => rfl) s.parties
  obtain ⟨-, -, parties, -⟩ := s.writeRecord_spec p
  rw [State.party?, parties]
  refine same.trans ?_
  rw [show s.parties.find? (fun q => q.id == p.id) = some p from found]
  exact congrArg some (if_pos rfl)

/-! ### The cores' records (R353) -/

/-- Bytes of a save area are memory. -/
theorem State.writeArea_step (s : State) (lo n : Nat) : SaveStep s (s.writeArea lo n) ∧ (s.writeArea lo n).launches = s.launches := by
  unfold State.writeArea
  split
  · exact ⟨.refl s, rfl⟩
  · extract_lets hit
    exact ⟨⟨rfl, ⟨rfl, rfl, rfl⟩, rfl, rfl, staysFree_of_eq rfl⟩, rfl⟩

/-- Launches changed are no matter. -/
theorem saveStep_mapLaunch (s : State) (id : Nat) (f : Launch → Launch) : SaveStep s (s.mapLaunch id f) :=
  ⟨rfl, ⟨rfl, rfl, rfl⟩, rfl, rfl, staysFree_of_eq rfl⟩

/-- A core of a context that is being saved does its next part. -/
theorem State.leaveCore_step (s : State) (l : Launch) (area : Nat × Nat) (core : Nat) : SaveStep s (s.leaveCore l area core) := by
  unfold State.leaveCore
  split
  · exact .refl s
  · extract_lets ns
    split
    next lo r t _ _ =>
      have emptied : SaveStep s t := saveStep_foldl (fun s n => saveStep_empty s core n) ns s
      exact (emptied.trans (State.writeArea_step t _ _).1).trans (saveStep_mapLaunch ..)
    next out =>
      refine saveStep_foldl (fun s n => ?_) _ s
      split
      · exact .refl s
      · refine ⟨rfl, ⟨rfl, rfl, rfl⟩, rfl, rfl, fun c m free => ?_⟩
        change (((s.mapQueue core n (fun q => { q with closing := true })).core c).queue m).granted = 0
        rw [State.queue_mapQueue]
        split
        next here =>
          obtain ⟨rfl, rfl, -⟩ := here
          exact free
        next => exact free

/-- The cores of a context that is being saved. -/
theorem State.leaveCores_step (s : State) (c : Context) : SaveStep s (s.leaveCores c) := by
  unfold State.leaveCores
  split
  · exact .refl s
  · extract_lets base
    refine saveStep_foldl (fun s k => ?_) _ s
    split
    · exact State.leaveCore_step ..
    · exact .refl s

end Sys2Proof.Machine
end

section
/-! SUPPORT. The last steps of a context's save (R353), and the requests that groups hold (R352). -/

namespace Sys2Proof.Machine
open Sys2Proof.Safety

/-! ### Every core's record (R353) -/

/-- A record of a core is among those of a launch. -/
def Launch.left (l : Launch) (core : Nat) : Bool := l.away.any (fun r => r.core == core)

/-- A record added to those of a launch. -/
def Launch.record (l : Launch) (r : IdleRecord) : Launch := { l with away := l.away ++ [r] }

/-- The launch of a context whose save can be completed at once: its parties are saved, and no allowance is outstanding. -/
structure SaveGoes (ctx : BitVec 16) (s : State) (l : Launch) : Prop where
  launch : s.launch? l.id = some l
  own : s.ctxLaunch ctx = some l
  saved : ∀ p ∈ s.parties, p.launch = l.id → p.state = .saved
  free : ∀ c ∈ coresOf l.clusters, ∀ n, n < 8 → ((s.core c).queue n).granted = 0

/-- A core that leaves and has no allowance outstanding completes its record. -/
theorem State.leaveCore_records {s : State} {l : Launch} {core : Nat} (leaves : s.coreLeaves l core = true) (none_ : s.idleGranted l core = [])
    (area : Nat × Nat) : ∃ (r : IdleRecord) (lo size : Nat), r.core = core ∧ s.leaveCore l area core =
      (((s.idleQueues l core).foldl (fun s n => s.mapQueue core n (fun _ => Queue.empty)) s).writeArea lo size).mapLaunch l.id
        (fun l => l.record r) := by
  unfold State.leaveCore
  rw [if_neg fun no => absurd (leaves.symm.trans no) (by decide), none_]
  exact ⟨_, _, _, rfl, rfl⟩

/-- A record added: the launch's save goes still. -/
theorem SaveGoes.record {ctx : BitVec 16} {s v : State} {l : Launch} (goes : SaveGoes ctx s l) (step : SaveStep s v) (same : v.launches = s.launches)
    (r : IdleRecord) : SaveGoes ctx (v.mapLaunch l.id (fun l => l.record r)) (l.record r) := by
  have launches : (v.mapLaunch l.id (fun l => l.record r)).launches = s.launches.map (mapOnly l.id (fun l => l.record r)) := by
    rw [State.mapLaunch_launches, same]
  have keeps : KeepsLaunch (mapOnly l.id (fun l : Launch => l.record r)) := KeepsLaunch.only (f := fun l : Launch => l.record r) (fun _ => ⟨rfl, rfl, rfl⟩) l.id
  have self : mapOnly l.id (fun l => l.record r) l = l.record r := if_pos ⟨rfl, (launch?_some goes.launch).2.2⟩
  refine ⟨?_, ?_, fun p mem => goes.saved p (step.parties ▸ mem), fun c hc n small => step.free c n (goes.free c hc n small)⟩
  · refine (launch?_map launches keeps l.id).trans ?_
    rw [goes.launch, Option.map_some, self]
  · refine (ctxLaunch_map launches keeps ctx).trans ?_
    rw [goes.own, Option.map_some, self]

/-- The saved parties of a launch leave a core when its record is not complete. -/
theorem SaveGoes.coreLeaves {ctx : BitVec 16} {s : State} {l : Launch} (goes : SaveGoes ctx s l) (core : Nat) : s.coreLeaves l core = !l.left core := by
  have all : (s.parties.filter (fun p => p.launch == l.id && p.core == core)).all (fun p => p.state == .saved) = true := by
    refine List.all_eq_true.2 fun p hp => ?_
    obtain ⟨mem, its⟩ := List.mem_filter.1 hp
    exact beq_iff_eq.2 (goes.saved p mem (beq_iff_eq.1 ((Bool.and_eq_true ..).mp its).1))
  rw [State.coreLeaves, all, Bool.true_and, Launch.left]

/-- No idle slot of a core has an allowance outstanding. -/
theorem SaveGoes.idleGranted {ctx : BitVec 16} {s : State} {l : Launch} (goes : SaveGoes ctx s l) {core : Nat} (there : core ∈ coresOf l.clusters) :
    s.idleGranted l core = [] := by
  refine List.filter_eq_nil_iff.2 fun n hn => ?_
  have small : n < 8 := List.mem_range.1 (List.mem_filter.1 hn).1
  rw [goes.free core there n small]
  exact Bool.false_ne_true

/-- The queues emptied of a core that leaves, and the bytes of its area. -/
theorem State.emptyCore_step (s : State) (core : Nat) (ns : List Nat) (lo size : Nat) :
    SaveStep s ((ns.foldl (fun s n => s.mapQueue core n (fun _ => Queue.empty)) s).writeArea lo size)
    ∧ ((ns.foldl (fun s n => s.mapQueue core n (fun _ => Queue.empty)) s).writeArea lo size).launches = s.launches := by
  have emptied : SaveStep s (ns.foldl (fun s n => s.mapQueue core n (fun _ => Queue.empty)) s) :=
    saveStep_foldl (fun s n => saveStep_empty s core n) ns s
  have queued : (ns.foldl (fun s n => s.mapQueue core n (fun _ => Queue.empty)) s).launches = s.launches :=
    (onlyQueues_foldl (fun s n => State.onlyQueues_mapQueue s core n (fun _ => Queue.empty)) ns s).tables.2.1
  obtain ⟨area, launches⟩ := State.writeArea_step (ns.foldl (fun s n => s.mapQueue core n (fun _ => Queue.empty)) s) lo size
  exact ⟨emptied.trans area, launches.trans queued⟩

/-- A record among those of a launch. -/
theorem Launch.left_record (l : Launch) (r : IdleRecord) (k : Nat) : (l.record r).left k = (l.left k || r.core == k) := by
  rw [Launch.left, Launch.left, Launch.record, List.any_append, List.any_cons, List.any_nil, Bool.or_false]

/-- A core's record is completed. -/
theorem SaveGoes.leaveCore {ctx : BitVec 16} {s : State} {l : Launch} (goes : SaveGoes ctx s l) {core : Nat} (there : core ∈ coresOf l.clusters)
    (area : Nat × Nat) : ∃ m, SaveGoes ctx (s.leaveCore l area core) m ∧ m.id = l.id ∧ m.clusters = l.clusters ∧ m.left core = true
      ∧ ∀ k, l.left k = true → m.left k = true := by
  cases done : l.left core with
  | true =>
    have stays : s.coreLeaves l core = false := by rw [goes.coreLeaves, done]; rfl
    have same : s.leaveCore l area core = s := by rw [State.leaveCore, if_pos stays]
    rw [same]
    exact ⟨l, goes, rfl, rfl, done, fun _ h => h⟩
  | false =>
    have leaves : s.coreLeaves l core = true := by rw [goes.coreLeaves, done]; rfl
    obtain ⟨r, lo, size, here, run⟩ := State.leaveCore_records leaves (goes.idleGranted there) area
    obtain ⟨step, launches⟩ := s.emptyCore_step core (s.idleQueues l core) lo size
    rw [run]
    refine ⟨l.record r, goes.record step launches r, rfl, rfl, ?_, fun k h => ?_⟩
    · rw [Launch.left_record, here, beq_self_eq_true, Bool.or_true]
    · rw [Launch.left_record, h, Bool.true_or]

/-- One core after another. -/
theorem SaveGoes.leaveAll {ctx : BitVec 16} (base id : Nat) (ks : List (Nat × Nat)) {s : State} {l : Launch} (goes : SaveGoes ctx s l) (same : l.id = id)
    (there : ∀ k ∈ ks, k.1 ∈ coresOf l.clusters) :
    ∃ m, SaveGoes ctx (ks.foldl (fun s k => match s.launch? id with
      | some l => s.leaveCore l (base, k.2) k.1
      | none => s) s) m ∧ m.clusters = l.clusters ∧ (∀ k ∈ ks, m.left k.1 = true) ∧ ∀ k, l.left k = true → m.left k = true := by
  induction ks generalizing s l with
  | nil => exact ⟨l, goes, rfl, fun k none_ => absurd none_ List.not_mem_nil, fun _ h => h⟩
  | cons k ks ih =>
    obtain ⟨m, goes', id', clusters, left, kept⟩ := goes.leaveCore (there k List.mem_cons_self) (base, k.2)
    obtain ⟨n, last, clusters', lefts, kept'⟩ := ih goes' (id'.trans same) fun j hj => clusters ▸ there j (List.mem_cons_of_mem k hj)
    have found : s.launch? id = some l := same ▸ goes.launch
    refine ⟨n, ?_, clusters'.trans clusters, fun j hj => ?_, fun j h => kept' j (kept j h)⟩
    · rw [List.foldl_cons, found]
      exact last
    · rcases List.mem_cons.1 hj with rfl | hj
      · exact kept' _ left
      · exact lefts j hj

/-- When its save goes, every core of a context's launch has left. -/
theorem State.leaveCores_left {s : State} {c : Context} (goes : ∀ l, s.ctxLaunch c.id = some l → SaveGoes c.id s l) {m : Launch}
    (own : (s.leaveCores c).ctxLaunch c.id = some m) : (coresOf m.clusters).all m.left = true := by
  cases before : s.ctxLaunch c.id with
  | none =>
    have same : s.leaveCores c = s := by rw [State.leaveCores, before]
    rw [same, before] at own
    exact absurd own.symm (Option.some_ne_none m)
  | some l =>
    obtain ⟨n, last, clusters, left, -⟩ := (goes l before).leaveAll (s.ctxField c.root 0x158 8) l.id ((coresOf l.clusters).zipIdx) rfl
      fun k hk => List.fst_mem_of_mem_zipIdx hk
    have after : (s.leaveCores c).ctxLaunch c.id = some n := by
      rw [State.leaveCores, before]
      exact last.own
    obtain rfl : n = m := Option.some.inj (after.symm.trans own)
    rw [clusters]
    refine List.all_eq_true.2 fun k hk => ?_
    obtain ⟨i, small, at_⟩ := List.mem_iff_getElem.1 hk
    have pair : (k, i) ∈ (coresOf l.clusters).zipIdx := List.mem_zipIdx_iff_getElem?.2 (by rw [List.getElem?_eq_getElem small, at_])
    exact left _ pair

/-- A context whose parties are saved and whose key is at rest is ready once its cores have left. -/
theorem State.leaveCores_ready {s : State} {c : Context} (saving : c.state = .saving) (saved : ∀ p ∈ s.parties, p.ctx = c.id → p.state = .saved)
    (still : ∀ r ∈ s.rotations, r.ctx ≠ c.id) (goes : ∀ l, s.ctxLaunch c.id = some l → SaveGoes c.id s l) :
    (s.leaveCores c).saveReady c = true := by
  have step := s.leaveCores_step c
  have rotations : (s.leaveCores c).rotations = s.rotations := by
    have only := step.only
    unfold OnlyDispatch at only
    have same := congrArg State.rotations only
    exact same
  have all : ((s.leaveCores c).parties.filter (fun p => p.ctx == c.id)).all (fun p => p.state == .saved) = true := by
    rw [step.parties]
    refine List.all_eq_true.2 fun p hp => ?_
    obtain ⟨mem, its⟩ := List.mem_filter.1 hp
    exact beq_iff_eq.2 (saved p mem (beq_iff_eq.1 its))
  have none_ : (s.leaveCores c).rotations.any (fun r => r.ctx == c.id) = false := by
    rw [rotations]
    exact List.any_eq_false.2 fun r hr same => still r hr (beq_iff_eq.1 same)
  rw [State.saveReady, saving, all, none_, beq_self_eq_true]
  cases own : (s.leaveCores c).ctxLaunch c.id with
  | none => rfl
  | some m => exact State.leaveCores_left goes own

end Sys2Proof.Machine
end

section
/-! SUPPORT. The requests that register groups hold (R352), and the last steps of a context's save (R353). -/

namespace Sys2Proof.Machine
open Sys2Proof.Safety

/-! ### Requests of register groups (R352) -/

/-- The value of a key is the default, or stands in the list. -/
theorem assocGet_mem {α : Type} (l : List (Nat × α)) (d : α) (k : Nat) : assocGet l d k = d ∨ (k, assocGet l d k) ∈ l := by
  induction l with
  | nil => exact Or.inl rfl
  | cons e l ih =>
    obtain ⟨i, v⟩ := e
    by_cases here : i = k
    · right
      rw [assocGet, if_pos here, here]
      exact List.mem_cons_self
    · rw [assocGet, if_neg here]
      exact ih.imp_right (List.mem_cons_of_mem _)

/-- What stands in a list with one key written. -/
theorem mem_assocSet {α : Type} {l : List (Nat × α)} {k : Nat} {v : α} {e : Nat × α} (h : e ∈ assocSet l k v) : e = (k, v) ∨ e ∈ l := by
  induction l with
  | nil => exact Or.inl (List.mem_singleton.1 h)
  | cons f l ih =>
    rw [assocSet] at h
    split at h
    · exact (List.mem_cons.1 h).imp_right (List.mem_cons_of_mem _)
    · split at h
      · exact List.mem_cons.1 h
      · rcases List.mem_cons.1 h with first | later
        · exact Or.inr (first ▸ List.mem_cons_self)
        · exact (ih later).imp_right (List.mem_cons_of_mem _)

/-- A group holds nothing, whichever it is. -/
theorem nothingHeld_group {s : State} (nothing : NothingHeld s) (h : Nat) : (s.svcRegs h).preHeld = [] := by
  rcases assocGet_mem s.svc SvcRegs.reset h with none_ | there
  · exact congrArg SvcRegs.preHeld none_
  · exact nothing _ there

/-- With nothing held, nothing is served. -/
theorem nothingHeld_serveAllPre {s : State} (nothing : NothingHeld s) : s.serveAllPre = s := by
  have none_ : (s.svc.map (fun g => g.2.preHeld.length)).sum = 0 := by
    refine List.sum_eq_zero fun n hn => ?_
    obtain ⟨g, there, rfl⟩ := List.mem_map.1 hn
    exact congrArg List.length (nothing g there)
  rw [State.serveAllPre, none_, State.servePreRounds]

/-- A request answered leaves nothing held that was not held. -/
theorem nothingHeld_finishPre {s : State} (nothing : NothingHeld s) (h r : Nat) : NothingHeld (s.finishPre h r) := fun g there => by
  rcases mem_assocSet there with rfl | old
  · exact nothingHeld_group nothing h
  · exact nothing g old

/-- A context whose request is over. -/
def Context.finished (c : Context) : Context := { c with group := none, watchdog := none }

/-- The answer to the request for a context. -/
def State.answerCtx (s : State) (g : Option Nat) (r : Nat) : State :=
  match g with
  | some h => s.finishPre h r
  | none => s

/-- A request for a context that ends answers its group. -/
theorem State.finishCtx_found {s : State} {ctx : BitVec 16} {c : Context} (found : s.ctx? ctx = some c) (r : Nat) :
    s.finishCtx ctx r = (s.answerCtx c.group r).mapCtx ctx Context.finished := by
  rw [State.finishCtx, found]
  rfl

/-- An answer leaves the harts, the parties and the contexts. -/
theorem State.answerCtx_keeps (s : State) (g : Option Nat) (r : Nat) : SameHarts s (s.answerCtx g r) ∧ (s.answerCtx g r).parties = s.parties
    ∧ (s.answerCtx g r).contexts = s.contexts := by
  cases g with
  | none => exact ⟨.refl s, rfl, rfl⟩
  | some h => exact ⟨⟨rfl, rfl, rfl⟩, rfl, rfl⟩

/-- The registers of the group that is answered. -/
theorem State.answerCtx_group (s : State) (g r : Nat) : (s.answerCtx (some g) r).svcRegs g =
    { s.svcRegs g with preBusy := false, preResult := r, preDone := (s.svcRegs g).preDone + 1 } :=
  s.svcRegs_setSvc g _

/-- Nothing is held after an answer. -/
theorem nothingHeld_answerCtx {s : State} (nothing : NothingHeld s) (g : Option Nat) (r : Nat) : NothingHeld (s.answerCtx g r) := by
  cases g with
  | none => exact nothing
  | some h => exact nothingHeld_finishPre nothing h r

/-- A context's request has ended with a result: its group is answered, and the harts, the parties and what is held stay. -/
structure Answers (s t : State) (ctx : BitVec 16) (c : Context) (r : Nat) : Prop where
  context : t.ctx? ctx = some c.finished
  harts : SameHarts s t
  parties : t.parties = s.parties
  held : NothingHeld s → NothingHeld t
  group : ∀ g, c.group = some g → t.svcRegs g = { s.svcRegs g with preBusy := false, preResult := r, preDone := (s.svcRegs g).preDone + 1 }

/-- A context's request ends. -/
theorem State.finishCtx_answers {s : State} {ctx : BitVec 16} {c : Context} (found : s.ctx? ctx = some c) (r : Nat) :
    Answers s (s.finishCtx ctx r) ctx c r := by
  obtain ⟨harts, parties, contexts⟩ := s.answerCtx_keeps c.group r
  rw [State.finishCtx_found found]
  refine ⟨?_, harts, parties, fun nothing => nothingHeld_answerCtx nothing c.group r, fun g its => ?_⟩
  · rw [State.ctx?_mapCtx _ ctx (f := Context.finished) (fun _ => rfl), State.ctx?, contexts]
    exact congrArg (Option.map Context.finished) found
  · rw [its]
    exact s.answerCtx_group g r

/-! ### The last steps of a save (R353) -/

/-- The harts, the parties, the contexts and the registers of the services as they were. -/
structure Strips (s t : State) : Prop where
  harts : SameHarts s t
  parties : t.parties = s.parties
  contexts : t.contexts = s.contexts
  svc : t.svc = s.svc

/-- One step after another. -/
theorem Strips.trans {s t u : State} (h : Strips s t) (k : Strips t u) : Strips s u :=
  ⟨h.harts.trans k.harts, k.parties.trans h.parties, k.contexts.trans h.contexts, k.svc.trans h.svc⟩

/-- Nothing changed. -/
theorem Strips.refl (s : State) : Strips s s := ⟨.refl s, rfl, rfl, rfl⟩

/-- A step of a save is one. -/
theorem SaveStep.strips {s t : State} (step : SaveStep s t) : Strips s t := by
  obtain ⟨-, -, svc, -⟩ := step.only.rest
  exact ⟨step.harts, step.parties, step.contexts, svc⟩

/-- Cores emptied. -/
theorem strips_emptyCores (l : List Nat) (s : State) :
    Strips s (l.foldl (fun s k => s.setCore k { s.core k with queues := (Vector.replicate 8 Queue.empty), allowances := [] }) s) := by
  induction l generalizing s with
  | nil => exact .refl s
  | cons k l ih => exact Strips.trans ⟨State.setCore_harts .., rfl, rfl, rfl⟩ (ih _)

/-- The device once a context has left it, but for the context's own entry. -/
def State.stripSave (s : State) (ctx : BitVec 16) (c : Context) : State :=
  let ks := s.ctxClusters c
  let s := if (s.ctxLaunch ctx).isSome then s.writeArea (s.ctxField c.root 0x158 8) 0x1000 else s
  let s := (coresOf ks).foldl (fun s k => s.setCore k { s.core k with
    queues := (Vector.replicate 8 Queue.empty), allowances := [] }) s
  let s := s.eraseKeys ctx
  s.clearDecisions ks

/-- What leaves with a context. -/
theorem State.stripSave_strips (s : State) (ctx : BitVec 16) (c : Context) : Strips s (s.stripSave ctx c) := by
  unfold State.stripSave
  extract_lets ks u v w
  have header : Strips s u := by
    unfold u
    split
    · exact (State.writeArea_step ..).1.strips
    · exact .refl s
  have cores : Strips u v := strips_emptyCores (coresOf ks) u
  exact (header.trans cores).trans ⟨⟨rfl, rfl, rfl⟩, rfl, rfl, rfl⟩

/-- A context saved, with its wrapped key. -/
def Context.save (key : Option KeySlot) (c : Context) : Context :=
  { c with state := .saved, wrapped := key, meter := c.meter.set 12 (c.meter[12] + 1) }

/-- The last steps, one after another. -/
theorem State.finishSave_found {s : State} {ctx : BitVec 16} {c : Context} (found : s.ctx? ctx = some c) :
    ∃ key, s.finishSave ctx = ((s.stripSave ctx c).mapCtx ctx (Context.save key)).finishCtx ctx 1 := by
  rw [State.finishSave, found]
  exact ⟨_, rfl⟩

/-- A save ends: the context is saved, and its request is answered. -/
theorem State.finishSave_answers {s : State} {ctx : BitVec 16} {c : Context} (found : s.ctx? ctx = some c) :
    ∃ key u, Strips s u ∧ Answers (u.mapCtx ctx (Context.save key)) (s.finishSave ctx) ctx (c.save key) 1 := by
  obtain ⟨key, run⟩ := State.finishSave_found found
  have strips := s.stripSave_strips ctx c
  refine ⟨key, s.stripSave ctx c, strips, ?_⟩
  rw [run]
  refine State.finishCtx_answers ?_ 1
  rw [State.ctx?_mapCtx _ ctx (f := Context.save key) (fun _ => rfl), State.ctx?, strips.contexts]
  exact congrArg (Option.map (Context.save key)) found

/-- What goes on of a save leaves the harts, the parties, and nothing held where nothing was. -/
theorem State.advanceSave_keeps (s : State) (ctx : BitVec 16) : SameHarts s (s.advanceSave ctx) ∧ (s.advanceSave ctx).parties = s.parties
    ∧ (NothingHeld s → NothingHeld (s.advanceSave ctx)) := by
  have stays : SameHarts s s ∧ s.parties = s.parties ∧ (NothingHeld s → NothingHeld s) := ⟨.refl s, rfl, id⟩
  cases found : s.ctx? ctx with
  | none => rw [State.advanceSave, found]; exact stays
  | some c =>
    rw [State.advanceSave, found]
    dsimp only
    split
    · exact stays
    · have cores := (s.leaveCores_step c).strips
      have held : NothingHeld s → NothingHeld (s.leaveCores c) := fun nothing g there => nothing g (cores.svc ▸ there)
      split
      · have still : (s.leaveCores c).ctx? ctx = some c := by
          rw [State.ctx?, cores.contexts]
          exact found
        obtain ⟨key, u, strips, answers⟩ := State.finishSave_answers still
        refine ⟨(cores.harts.trans strips.harts).trans answers.harts, answers.parties.trans (strips.parties.trans cores.parties), fun nothing => ?_⟩
        exact answers.held fun g there => held nothing g (strips.svc ▸ there)
      · exact ⟨cores.harts, cores.parties, held⟩

/-- A save whose cores can all leave ends at once. -/
theorem State.advanceSave_saves {s : State} {ctx : BitVec 16} {c : Context} (found : s.ctx? ctx = some c) (saving : c.state = .saving)
    (ready : (s.leaveCores c).saveReady c = true) : ∃ d, (s.advanceSave ctx).ctx? ctx = some d ∧ d.state = .saved ∧ d.group = none ∧ d.watchdog = none
      ∧ ∀ g, c.group = some g → ((s.advanceSave ctx).svcRegs g).preResult = 1 ∧ ((s.advanceSave ctx).svcRegs g).preBusy = false
        ∧ ((s.advanceSave ctx).svcRegs g).preDone = (s.svcRegs g).preDone + 1 := by
  have run : s.advanceSave ctx = (s.leaveCores c).finishSave ctx := by
    rw [State.advanceSave, found]
    dsimp only
    rw [if_neg (not_not.2 saving), if_pos ready]
  have cores := (s.leaveCores_step c).strips
  have still : (s.leaveCores c).ctx? ctx = some c := by
    rw [State.ctx?, cores.contexts]
    exact found
  obtain ⟨key, u, strips, answers⟩ := State.finishSave_answers still
  rw [run]
  refine ⟨_, answers.context, rfl, rfl, rfl, fun g its => ?_⟩
  have regs : ((u.mapCtx ctx (Context.save key)).svcRegs g) = s.svcRegs g := by
    change assocGet u.svc _ _ = _
    rw [strips.svc, cores.svc]
    rfl
  rw [answers.group g its, regs]
  exact ⟨rfl, rfl, rfl⟩

/-! ### SAVE_COMPLETE (R353, R355) -/

section
variable {s : State} {p : Party} (others : ∀ o ∈ s.parties, o.ctx = p.ctx → o.id = p.id ∨ o.state = .saved)
include others

/-- With the last record written, every party of the context is saved. -/
theorem State.writeRecord_saved : ∀ q ∈ (s.writeRecord p).parties, q.ctx = p.ctx → q.state = .saved := by
  obtain ⟨-, -, parties, -⟩ := s.writeRecord_spec p
  intro q there its
  obtain ⟨o, old, rfl⟩ := List.mem_map.1 (parties ▸ there)
  unfold State.withRecord at its ⊢
  split
  next => rfl
  next other =>
    rw [if_neg other] at its
    exact (others o old its).resolve_left other

/-- And so is every party of its launch, whose cores can be left. -/
theorem State.writeRecord_goes (leaves : LeavesFree s p.ctx) {l : Launch} (own : (s.writeRecord p).ctxLaunch p.ctx = some l) :
    SaveGoes p.ctx (s.writeRecord p) l := by
  obtain ⟨-, -, parties, launches, free, -⟩ := s.writeRecord_spec p
  have before : s.ctxLaunch p.ctx = some l := by
    rw [State.ctxLaunch, ← launches]
    exact own
  obtain ⟨launch, whose, granted⟩ := leaves l before
  refine ⟨?_, own, fun q there its => ?_, fun k there n small => free k n (granted k there n small)⟩
  · rw [State.launch?, launches]
    exact launch
  · obtain ⟨o, old, rfl⟩ := List.mem_map.1 (parties ▸ there)
    unfold State.withRecord at its ⊢
    split
    next => rfl
    next other =>
      rw [if_neg other] at its
      exact (others o old (whose o old its)).resolve_left other

/-- The context's save can then end. -/
theorem State.writeRecord_ready {c : Context} (found : s.ctx? p.ctx = some c) (saving : c.state = .saving) (leaves : LeavesFree s p.ctx)
    (still : ∀ r ∈ s.rotations, r.ctx ≠ p.ctx) : ((s.writeRecord p).leaveCores c).saveReady c = true := by
  have id : c.id = p.ctx := (ctx?_some found).2
  have rotations : (s.writeRecord p).rotations = s.rotations := by
    have only := (s.writeRecord_spec p).1
    unfold OnlyDispatch at only
    have same := congrArg State.rotations only
    exact same
  refine State.leaveCores_ready saving (id.symm ▸ State.writeRecord_saved others) (fun r there => ?_) (fun l own => ?_)
  · rw [id]
    exact still r (rotations ▸ there)
  · rw [id] at own ⊢
    exact State.writeRecord_goes others leaves own

end

/-- SAVE_COMPLETE of a party that lives keeps its record; with it the context may be saved. -/
theorem execSaveComplete_saves {s : State} {p : Party} (found : s.party? p.id = some p) (saving : p.state = .saving) (ended : s.saveHeld p = false)
    (lives : p.doomed = false) (nothing : NothingHeld s) :
    ∃ t q, exec (.saveComplete p.id) s = .next t ∧ t.party? p.id = some q ∧ q.state = .saved ∧ q.spad = [] ∧ q.hamper = []
      ∧ q.savedHold = (p.spad.length, p.hamper.length) ∧ q.savedHarts = p.harts.map (fun h => (h, (s.getHart h).recorded))
      ∧ (∀ h ∈ p.harts, IsIdle (t.getHart h))
      ∧ (∀ c, s.ctx? p.ctx = some c → c.state = .saving → (∀ o ∈ s.parties, o.ctx = p.ctx → o.id = p.id ∨ o.state = .saved) →
          LeavesFree s p.ctx → (∀ r ∈ s.rotations, r.ctx ≠ p.ctx) → ∃ d, t.ctx? p.ctx = some d ∧ d.state = .saved ∧ d.group = none ∧ d.watchdog = none
            ∧ ∀ g, c.group = some g → (t.svcRegs g).preResult = 1 ∧ (t.svcRegs g).preBusy = false
                ∧ (t.svcRegs g).preDone = (s.svcRegs g).preDone + 1) := by
  obtain ⟨only, contexts, -, -, -, harts⟩ := s.writeRecord_spec p
  obtain ⟨-, -, svc, -⟩ := only.rest
  obtain ⟨same, parties, held⟩ := (s.writeRecord p).advanceSave_keeps p.ctx
  have run : exec (.saveComplete p.id) s = .next ((s.writeRecord p).advanceSave p.ctx) := by
    rw [execSaveComplete_ends found saving ended, lives, nothingHeld_serveAllPre (held fun g there => nothing g (svc ▸ there))]
    rfl
  refine ⟨_, s.savedParty p, run, ?_, rfl, rfl, rfl, rfl, rfl, fun h hart => ?_, fun c context its others leaves still => ?_⟩
  · rw [State.party?, parties]
    exact State.writeRecord_party found
  · rw [same.getHart, harts, if_pos hart]
    exact ⟨rfl, rfl, rfl, rfl, rfl⟩
  · have after : (s.writeRecord p).ctx? p.ctx = some c := by
      rw [State.ctx?, contexts]
      exact context
    obtain ⟨d, there, saved, group, watchdog, answer⟩ := State.advanceSave_saves after its (State.writeRecord_ready others context its leaves still)
    refine ⟨d, there, saved, group, watchdog, fun g whose => ?_⟩
    have regs : (s.writeRecord p).svcRegs g = s.svcRegs g := by rw [State.svcRegs, svc, State.svcRegs]
    rw [← regs]
    exact answer g whose

end Sys2Proof.Machine
end

section
/-! SUPPORT. A restore (R360): the record written back, and the party's harts running again. -/

namespace Sys2Proof.Machine
open Sys2Proof.Safety

/-! ### The record written back -/

/-- Harts put back one after another, each once: what each is made from. -/
theorem getHart_restores {f : Nat × Hart → Hart → Hart} {l : List (Nat × Hart)} (once : (l.map (·.1)).Nodup) {y : Nat × Hart} (there : y ∈ l) (s : State) :
    ∃ old, (l.foldl (fun s x => s.setHart x.1 (f x (s.getHart x.1))) s).getHart y.1 = f y old := by
  have kept (l : List (Nat × Hart)) (absent : y.1 ∉ l.map (·.1)) (s : State) :
      (l.foldl (fun s x => s.setHart x.1 (f x (s.getHart x.1))) s).getHart y.1 = s.getHart y.1 := by
    induction l generalizing s with
    | nil => rfl
    | cons x l ih =>
      rw [List.map_cons, List.mem_cons, not_or] at absent
      rw [List.foldl_cons, ih absent.2, State.getHart_setHart, if_neg absent.1]
  induction l generalizing s with
  | nil => exact absurd there List.not_mem_nil
  | cons x l ih =>
    rw [List.map_cons, List.nodup_cons] at once
    obtain ⟨new, once⟩ := once
    rw [List.foldl_cons]
    rcases List.mem_cons.1 there with rfl | there
    · exact ⟨s.getHart y.1, by rw [kept l new, State.getHart_setHart, if_pos rfl]⟩
    · exact ih once there _

/-- The queues of a party that returns, taken up by its core. -/
def State.returnQueues (s : State) (p : Party) : State :=
  p.savedQueues.foldl (fun s q => s.mapQueue p.core q.1 (fun x => { q.2 with requests := q.2.requests ++ x.requests })) s

/-- The place that a party takes, but for its harts. -/
def State.takePlace (s : State) (p : Party) : State :=
  let k := clusterOfCore p.core
  let es := (s.freeExtents p.core).take p.savedHold.1
  let gs := (s.freeSegments k).take p.savedHold.2
  let s := es.foldl (fun s e => s.clearExtent p.core e) s
  let s := gs.foldl (fun s g => s.clearSegment k g) s
  let tasks := (p.savedSpad.headD []).filter (fun c => p.slots.contains (c.1 / 64))
  let mem := Memory.place s.mem (spadKey p.core 0x2000) tasks
  let mem := (es.zip (p.savedSpad.drop 1)).foldl (fun m x => Memory.place m (spadKey p.core (x.1 * extentBytes)) x.2) mem
  let s : State := { s with mem := mem }
  let s := s.setCore p.core { s.core p.core with tags := (s.core p.core).tags ++ p.savedTags }
  s.returnQueues p

/-- The party with its holding, and without its record. -/
def Party.restored (p : Party) (es gs : List Nat) : Party :=
  { p with
    spad := es, hamper := gs, mloads := [], savedHarts := [], savedSpad := [], savedTags := [], savedQueues := [], savedHold := (0, 0) }

/-- The harts of a party that returns, in their places. -/
def State.returnHarts (s : State) (p : Party) : State :=
  p.savedHarts.foldl (fun s x => s.setHart x.1 (restoredHart x.1 p.stage (s.getHart x.1) x.2)) s

/-- The loads of a party's record, at the matrix engine again. -/
def State.replay (s : State) (p : Party) : State :=
  let again : List Accepted := p.mloads.map (fun c =>
    { cmd := { c with word := c.word &&& ~~~(0x100#256) }, site := 0, parked := false, started := false, since := 0 })
  { s with engines := again ++ s.engines }

/-- A record is written back: the place, the harts, the loads that are performed again, the holding. -/
theorem State.readRecord_eq (s : State) (p : Party) : s.readRecord p = (((s.takePlace p).returnHarts p).replay p).mapParty p.id
    (fun p' => p'.restored ((s.freeExtents p.core).take p.savedHold.1) ((s.freeSegments (clusterOfCore p.core)).take p.savedHold.2)) := rfl

/-- The place taken leaves the parties. -/
theorem State.takePlace_parties (s : State) (p : Party) : (s.takePlace p).parties = s.parties := by
  unfold State.takePlace
  extract_lets k es gs u v tasks m mem w tags x
  have spad : OnlyMemory s u := onlyMemory_foldl (f := fun s e => s.clearExtent p.core e) (fun _ _ => rfl) es s
  have hamper : OnlyMemory u v := onlyMemory_foldl (f := fun s g => s.clearSegment k g) (fun _ _ => rfl) gs u
  have queues : OnlyQueues x (x.returnQueues p) :=
    onlyQueues_foldl (fun s (q : Nat × Queue) => State.onlyQueues_mapQueue s p.core q.1 _) p.savedQueues x
  exact queues.tables.1.trans (onlyMemory_tables (onlyMemory_trans spad hamper)).1

/-- Harts put back leave the parties. -/
theorem State.returnHarts_parties (s : State) (p : Party) : (s.returnHarts p).parties = s.parties := by
  have only (l : List (Nat × Hart)) (s : State) :
      OnlyHarts s (l.foldl (fun s x => s.setHart x.1 (restoredHart x.1 p.stage (s.getHart x.1) x.2)) s) := by
    induction l generalizing s with
    | nil => rfl
    | cons x l ih => exact (onlyHarts_setHart s x.1 _).trans (ih _)
  exact (only p.savedHarts s).tables.1

/-- A party can be restored only where its holding is free (R360). -/
theorem State.restorable_free {s : State} {p : Party} (h : s.restorable p = true) :
    p.savedHold.1 ≤ (s.freeExtents p.core).length ∧ p.savedHold.2 ≤ (s.freeSegments (clusterOfCore p.core)).length := by
  simp only [State.restorable, Bool.and_eq_true, decide_eq_true_eq] at h
  obtain ⟨⟨⟨⟨⟨⟨⟨⟨-, spad⟩, hamper⟩, -⟩, -⟩, -⟩, -⟩, -⟩, -⟩ := h
  exact ⟨spad, hamper⟩

/-! ### RESTORE_COMPLETE -/

section
variable {s : State} {p : Party} (found : s.party? p.id = some p) (restoring : p.state = .restoring)
include found restoring

/-- A doomed party is scrubbed. -/
theorem execRestoreComplete_doomed (doomed : p.doomed = true) : ∃ t, exec (.restoreComplete p.id) s = .next t ∧ t.party? p.id = none :=
  ⟨_, (execRestoreComplete_runs found restoring).trans (if_pos doomed), s.scrubDoomed_gone p⟩

/-- A party whose holding is not free waits. -/
theorem execRestoreComplete_waits (lives : p.doomed = false) (record : p.savedHarts ≠ []) (full : s.restorable p = false) :
    exec (.restoreComplete p.id) s = .next s := by
  rw [execRestoreComplete_runs found restoring, if_neg fun no => Bool.false_ne_true (lives.symm.trans no), if_pos record,
    if_neg fun no => Bool.false_ne_true (full.symm.trans no)]

/-- A party whose holding is free is written back. -/
theorem execRestoreComplete_reads (lives : p.doomed = false) (record : p.savedHarts ≠ []) (fits : s.restorable p = true)
    (once : (p.savedHarts.map (·.1)).Nodup) :
    ∃ t q, exec (.restoreComplete p.id) s = .next t ∧ t.party? p.id = some q ∧ q.state = .restoring ∧ q.savedHarts = []
      ∧ q.spad.length = p.savedHold.1 ∧ q.hamper.length = p.savedHold.2
      ∧ ∀ h x, (h, x) ∈ p.savedHarts → (t.getHart h).pc = x.pc ∧ (t.getHart h).x = x.x ∧ (t.getHart h).v = x.v ∧ (t.getHart h).mode = x.mode
          ∧ (t.getHart h).fetch = [] := by
  obtain ⟨spad, hamper⟩ := State.restorable_free fits
  have run : exec (.restoreComplete p.id) s = .next (s.readRecord p) := by
    rw [execRestoreComplete_runs found restoring, if_neg fun no => Bool.false_ne_true (lives.symm.trans no), if_pos record, if_pos fits]
  set es := (s.freeExtents p.core).take p.savedHold.1
  set gs := (s.freeSegments (clusterOfCore p.core)).take p.savedHold.2
  have there : (((s.takePlace p).returnHarts p).replay p).party? p.id = some p := by
    have parties : (((s.takePlace p).returnHarts p).replay p).parties = s.parties :=
      (State.returnHarts_parties (s.takePlace p) p).trans (s.takePlace_parties p)
    rw [State.party?, parties]
    exact found
  refine ⟨_, p.restored es gs, run, ?_, restoring, rfl, List.length_take_of_le spad, List.length_take_of_le hamper, fun h x saved => ?_⟩
  · rw [State.readRecord_eq, State.party?_mapParty _ p.id (by intro; rfl), there]
    rfl
  · obtain ⟨old, put⟩ := getHart_restores (f := fun x old => restoredHart x.1 p.stage old x.2) once saved (s.takePlace p)
    have hart : (s.readRecord p).getHart h = restoredHart h p.stage old x := put
    rw [hart]
    exact ⟨rfl, rfl, rfl, rfl, rfl⟩

end

/-! ### The harts go on -/

/-- The parties, the contexts and the registers of the services as they were. -/
structure KeepsTables (s t : State) : Prop where
  parties : t.parties = s.parties
  contexts : t.contexts = s.contexts
  svc : t.svc = s.svc

/-- One step after another. -/
theorem KeepsTables.trans {s t u : State} (h : KeepsTables s t) (k : KeepsTables t u) : KeepsTables s u :=
  ⟨k.parties.trans h.parties, k.contexts.trans h.contexts, k.svc.trans h.svc⟩

/-- A fold whose every step keeps the tables. -/
theorem keepsTables_foldl {α : Type} {f : State → α → State} (step : ∀ s a, KeepsTables s (f s a)) (l : List α) (s : State) :
    KeepsTables s (l.foldl f s) := by
  induction l generalizing s with
  | nil => exact ⟨rfl, rfl, rfl⟩
  | cons a l ih => exact (step s a).trans (ih _)

/-- A change of queues keeps the tables. -/
theorem OnlyQueues.keepsTables {s t : State} (h : OnlyQueues s t) : KeepsTables s t := by
  obtain ⟨parties, -, contexts, svc⟩ := h.tables
  exact ⟨parties, contexts, svc⟩

/-- A hardware entry for a rank keeps the tables. -/
theorem State.toRank_keepsTables (s : State) (id rank : Nat) (e : VBits) : KeepsTables s (s.toRank id rank e) := by
  unfold State.toRank
  split
  · exact ⟨rfl, rfl, rfl⟩
  · split
    · exact ⟨rfl, rfl, rfl⟩
    · split
      · exact (State.notice_only ..).keepsTables
      · exact ⟨rfl, rfl, rfl⟩

/-- What was held for ranks is delivered beside the tables. -/
theorem State.deliverHeld_keepsTables (s : State) (id : Nat) : KeepsTables s (s.deliverHeld id) := by
  unfold State.deliverHeld
  split
  · exact ⟨rfl, rfl, rfl⟩
  next l _ =>
    extract_lets u
    exact KeepsTables.trans (t := u) ⟨rfl, rfl, rfl⟩ (keepsTables_foldl (fun s e => s.toRank_keepsTables id e.1 e.2) l.held u)

/-- Requests for allowances are served beside the tables. -/
theorem State.serveCore_keepsTables (s : State) (core : Nat) : KeepsTables s (s.serveCore core) :=
  keepsTables_foldl (fun s n => (s.serveRequests_only core n).keepsTables) (List.range 8) s

/-- A party whose harts run again. -/
def State.resumeParty (s : State) (p : Party) : State :=
  let u : State := { s with engines := s.engines.map (fun (a : Accepted) =>
    if a.cmd.by_.party = some p.id then { a with parked := false } else a) }
  (u.openHarts p.harts).mapParty p.id (fun p => { p with state := .running })

/-- The party runs; the contexts and the services stay. -/
theorem State.resumeParty_spec {s : State} {p : Party} (found : s.party? p.id = some p) :
    (s.resumeParty p).party? p.id = some { p with state := .running } ∧ (s.resumeParty p).contexts = s.contexts ∧ (s.resumeParty p).svc = s.svc := by
  unfold State.resumeParty
  extract_lets u
  have opened := State.openHarts_only u p.harts
  obtain ⟨parties, contexts, -, -⟩ := onlyMemory_tables opened
  obtain ⟨-, -, svc, -⟩ := (dispatch_of_only opened).rest
  refine ⟨?_, contexts, svc⟩
  rw [State.party?_mapParty _ p.id (by intro; rfl), State.party?, parties]
  exact congrArg (Option.map _) found

/-- No request is held for a context that is not there. -/
theorem State.serveHeldPreempt_none {s : State} {ctx : BitVec 16} (none_ : s.ctx? ctx = none) : s.serveHeldPreempt ctx = s := by
  rw [State.serveHeldPreempt, none_]

/-- Without a request held, nothing of the device changes but the context's entry. -/
theorem State.serveHeldPreempt_nil {s : State} {ctx : BitVec 16} {c : Context} (found : s.ctx? ctx = some c) (none_ : c.heldPreempt = []) :
    s.serveHeldPreempt ctx = s.mapCtx ctx (fun c => { c with heldPreempt := [] }) := by
  rw [State.serveHeldPreempt, found]
  dsimp only
  rw [none_, List.foldl_nil]

/-- The end of a context's resume, when nothing is held: parties stay, and nothing more is served. -/
theorem State.finishResume_parties {s : State} {ctx : BitVec 16} (nothing : NothingHeld s) (none_ : ∀ c, s.ctx? ctx = some c → c.heldPreempt = []) :
    (((s.finishCtx ctx 0).serveHeldPreempt ctx).serveAllPre).parties = s.parties := by
  cases found : s.ctx? ctx with
  | none =>
    have answer : s.finishCtx ctx 0 = s.mapCtx ctx Context.finished := by rw [State.finishCtx, found]; rfl
    have gone : (s.finishCtx ctx 0).ctx? ctx = none := by
      rw [answer, State.ctx?_mapCtx s ctx (f := Context.finished) (fun _ => rfl), found]
      rfl
    have held : NothingHeld (s.finishCtx ctx 0) := by rw [answer]; exact fun g there => nothing g there
    rw [State.serveHeldPreempt_none gone, nothingHeld_serveAllPre held, answer]
    rfl
  | some c =>
    have answers := State.finishCtx_answers found 0
    have served := State.serveHeldPreempt_nil answers.context (none_ c found)
    have held : NothingHeld ((s.finishCtx ctx 0).serveHeldPreempt ctx) := by rw [served]; exact fun g there => answers.held nothing g there
    rw [nothingHeld_serveAllPre held, served]
    exact answers.parties

/-- A party whose loads have been performed again runs. -/
theorem execRestoreComplete_goes {s : State} {p : Party} (found : s.party? p.id = some p) (restoring : p.state = .restoring) (lives : p.doomed = false)
    (read : p.savedHarts = []) (replayed : s.replayed p = true) (nothing : NothingHeld s) (none_ : ∀ c, s.ctx? p.ctx = some c → c.heldPreempt = []) :
    ∃ t, exec (.restoreComplete p.id) s = .next t ∧ t.party? p.id = some { p with state := .running } := by
  obtain ⟨runs, contexts, svc⟩ := State.resumeParty_spec found
  set w := ((s.resumeParty p).deliverHeld p.launch).serveCore p.core
  have tables : KeepsTables (s.resumeParty p) w := (State.deliverHeld_keepsTables _ p.launch).trans (State.serveCore_keepsTables _ p.core)
  have run : exec (.restoreComplete p.id) s =
      .next (if w.parties.any (fun q => q.ctx == p.ctx && (q.state == .restoring || q.state == .saved)) then w
        else ((w.finishCtx p.ctx 0).serveHeldPreempt p.ctx).serveAllPre) := by
    rw [execRestoreComplete_runs found restoring, if_neg fun no => Bool.false_ne_true (lives.symm.trans no), if_neg (not_not.2 read),
      if_neg fun no => Bool.false_ne_true (no.symm.trans replayed)]
    rfl
  have party : w.party? p.id = some { p with state := .running } := by
    rw [State.party?, tables.parties]
    exact runs
  refine ⟨_, run, ?_⟩
  split
  · exact party
  · have held : NothingHeld w := fun g there => nothing g (svc ▸ tables.svc ▸ there)
    rw [State.party?, State.finishResume_parties held fun c context => none_ c ?_]
    · exact party
    · rw [State.ctx?, ← contexts, ← tables.contexts]
      exact context

end Sys2Proof.Machine
end

section
/-! O52: the events of the dispatcher, the headcount tree and the banker, one part of the claim at a time. -/

namespace Sys2Proof.Machine
open Sys2Proof.Safety

section
variable {s : State} {l : Launch} (found : s.launch? l.id = some l)
include found

/-- A joined launch whose other devices are not ready is swept for nothing (log 24). -/
theorem execHeadcountSweep_far : s.farReady l = true ∨ exec (.headcountSweep l.id) s = .next { s with choices := s.choices + 1 } := by
  cases ready : s.farReady l with
  | true => exact Or.inl rfl
  | false => exact Or.inr ((execHeadcountSweep_runs found).trans (if_pos ready))

/-- LAUNCH_END of a launch that is over ends it and tells its submitter (R155). -/
theorem execLaunchEnd_ends (idle : s.allIdle l = true) (balanced : l.sent = l.received) :
    let q (u : State) : Queue := (u.core (l.submitter / 4)).queue (l.submitter % 4)
    ∃ t, exec (.launchEnd l.id) s = .next t ∧ Ended t l.id .complete
      ∧ (l.ranks ≤ l.completion → l.told = false → (∀ m ∈ s.launches, m.id = l.id → m = l) → (q s).waiting = [] →
          (q s).hasFree (l.submitter % 4) = true → ∃ e, (q t).entries = (q s).entries ++ [e]
          ∧ e.extractLsb' 0 16 = 3 ∧ e.extractLsb' 16 16 = 0 ∧ e.extractLsb' 32 16 = BitVec.ofNat 16 l.id) := by
  intro q
  refine ⟨s.endLaunch l.id .complete, (execLaunchEnd_runs found).trans (congrArg Host.Outcome.next (if_pos ⟨idle, balanced⟩)),
    State.endLaunch_ended found .complete, fun nobody untold alone waiting room => ?_⟩
  exact ⟨launchEndEntry { l with ended := some .complete } .complete, State.endLaunch_tells found alone untold idle nobody waiting room .complete,
    inboxEntry_fields ..⟩

/-- LAUNCH_END of one that is not over is nothing. -/
theorem execLaunchEnd_stays (live : s.allIdle l = false ∨ l.sent ≠ l.received) : exec (.launchEnd l.id) s = .next s := by
  refine (execLaunchEnd_runs found).trans (congrArg Host.Outcome.next (if_neg fun ⟨idle, balanced⟩ => ?_))
  exact live.elim (fun busy => Bool.false_ne_true (busy.symm.trans idle)) (fun other => other balanced)

end

end Sys2Proof.Machine

namespace Sys2Proof.Proofs
open Sys2Proof Sys2Proof.Machine Sys2Proof.Safety

/-- Settles O52: each event by the lemmas on its own steps. -/
theorem launchEvents : Obligations.LaunchEvents := by
  unfold Obligations.LaunchEvents
  refine ⟨fun s l found own => ?_, fun s h b l joining => ⟨execJoinStart_spec joining b, execJoinTimeout_spec joining⟩, fun s p found => ?_,
    fun s k h r rd => ?_⟩
  · refine ⟨execExchange_waits found, fun c ready ctx unasked alone => execExchange_done found own ready ctx unasked alone,
      execHeadcountSweep_far found, execHeadcountSweep_ends found, execHeadcountSweep_notes found, execHeadcountSweep_stalls found,
      execHeadcountSweep_clears found, execLaunchEnd_ends found, execLaunchEnd_stays found, execTaskPlacement_none found,
      fun k st task c slots placing placed => execTaskPlacement_places found placing placed,
      fun asked => ⟨execInitialTasks_unread found asked, fun ts read => execInitialTasks_read found asked read⟩,
      execInitialTasks_done found, fun task rest next => ⟨execInitialTasks_waits found next, execInitialTasks_enters found next⟩,
      ⟨taskList_unread s l, fun bs header => ⟨taskList_count header, fun i small => taskList_short header small, fun ts => taskList_tasks header⟩⟩,
      execAffinityPatienceExpiry_clock found, execOccupancySample_samples found⟩
  · exact ⟨execPartyRetire_releases found, execPartyRetire_stays found, execSaveComplete_stays found,
      fun saving ended doomed => ⟨_, (execSaveComplete_ends found saving ended).trans (if_pos doomed), s.scrubDoomed_gone p⟩,
      execSaveComplete_saves found, execRestoreComplete_doomed found, execRestoreComplete_waits found, execRestoreComplete_reads found,
      execRestoreComplete_goes found⟩
  · exact ⟨banker_idle, fun one => ⟨execAcqGrant_stays one, execAcqGrant_grants one, execAcqUrgent_urges one⟩, execCwaitRetry_goes,
      execCwaitRetry_stays⟩

end Sys2Proof.Proofs
end
